-- ==== Sys2Proof/Word.lean ====
section
/-! DEFINITION. The word types of the machine. -/

namespace Sys2Proof

/-- One byte of storage. -/
abbrev Byte := BitVec 8
/-- A 16-bit half word: an operand slot, a type descriptor. -/
abbrev Half := BitVec 16
/-- A 32-bit word: an encoding word, an i32, an f32. -/
abbrev Word := BitVec 32
/-- A 64-bit double word: an i64, a ref's address bits, a moment pair. -/
abbrev DWord := BitVec 64
/-- One bit a lane of a group (R12): bit i is lane i. -/
abbrev Mask := BitVec 128

end Sys2Proof
end

