-- ==== Sys2Proof/Syntax.lean ====
section
/-! DEFINITION. The instruction set: the portable Ferkor instructions (R40), the native slot operations (R166 to R174)
and the whole machine steps, one constructor for each row of the opcode table. -/
namespace Sys2Proof

/-- The type codes 1 to 14 of R18. -/
inductive Ty
  | b1 | i8 | i16 | i32 | i64 | f16 | bf16 | f32 | e4m3 | e5m2 | mo | ref | tok | acc
  deriving DecidableEq, Repr

/-- A type descriptor of R32: a plain type, a register array of len + 1 elements, or s8. -/
inductive TyD
  | ty (t : Ty)
  | arr (e : Ty) (len : BitVec 6)
  | s8
  deriving DecidableEq, Repr

/-- A conversion or pack element: a plain type, or s8 (code 15, R86, R88). -/
inductive CTy
  | ty (t : Ty)
  | s8
  deriving DecidableEq, Repr

/-- An operand slot of R33. -/
inductive Opnd
  /-- a value by backward distance -/
  | val (d : BitVec 14)
  /-- a signed 14-bit immediate -/
  | imm (i : BitVec 14)
  /-- a pool constant -/
  | pool (i : BitVec 14)
  /-- a special operand code -/
  | spec (c : BitVec 13)
  /-- a block target -/
  | blk (b : BitVec 13)
  deriving DecidableEq, Repr

/-- A block target with its arguments (R36). -/
structure Target where
  blk : BitVec 13
  args : List Opnd
  deriving DecidableEq, Repr

/-- A memory operand: base slot and offset slot (R193). -/
structure MemOp where
  base : Opnd
  off : Opnd
  deriving DecidableEq, Repr

/-- Rounding modes (R29): codes 0 to 3. -/
inductive RM | rne | rz | ru | rd
  deriving DecidableEq, Repr

/-- Integer conditions (R80): codes 0 to 5. -/
inductive Cond | eq | ne | lt | le | gt | ge
  deriving DecidableEq, Repr

/-- Floating-point conditions (R85): codes 0 to 7. -/
inductive FCond | eq | ne | lt | le | gt | ge | ord | uno
  deriving DecidableEq, Repr

/-- Shuffle modes (R90). -/
inductive ShflMode | idx | up | down | xor
  deriving DecidableEq, Repr

/-- Vote modes (R92). -/
inductive VoteMode | any | all | uni
  deriving DecidableEq, Repr

/-- Reduction operations (R93): codes 0 to 8. -/
inductive RedOp | add | min | max | and | or | xor | fadd | fmin | fmax
  deriving DecidableEq, Repr

/-- Conversion kinds (R86): SUB 0, 1 (integer side signed), 2 (integer side non-negative). -/
inductive CvtKind | ff | s | n
  deriving DecidableEq, Repr

/-- Covariance field (R105). -/
inductive Cov | ind | cor | anti | cov
  deriving DecidableEq, Repr

/-- Collapse selectors (R110). -/
inductive ColSel | mean | var | sd | hi | lo
  deriving DecidableEq, Repr

/-- Forms of `mma` (R125): SUB 0 to 7. -/
inductive MmaForm | s8 | e4m3 | e5m2 | e4m3e5m2 | e5m2e4m3 | bf16 | f16 | mo
  deriving DecidableEq, Repr

/-- Element types of `accrd` and `accwr` (R130): codes 4, 8 and 11. -/
inductive AccTy | i32 | f32 | mo
  deriving DecidableEq, Repr

/-- Atomic operations (R257): SUB[3:0] 0 to 8. -/
inductive AtomOp | add | mins | minn | maxs | maxn | and | or | xor | xchg
  deriving DecidableEq, Repr

/-- Ordering kinds of atomics (R257). -/
inductive AtomKind | rlx | acq | rel | ar
  deriving DecidableEq, Repr

/-- Fence kinds (R260): SUB 1 to 3. -/
inductive FenceKind | acq | rel | ar
  deriving DecidableEq, Repr

/-- Collective kinds (R272). -/
inductive CollKind | bcast | allred | redsc | allgat
  deriving DecidableEq, Repr

/-- Collective reduction operations (R272). -/
inductive CollOp | add | min | max
  deriving DecidableEq, Repr

/-- Replica choice of `hop` (R329). -/
inductive HopMode | dflt | hash | least | key
  deriving DecidableEq, Repr

/-- A V-slot operation's fields (R166). -/
structure VOp where
  kp : Bool
  grd : BitVec 4
  d : BitVec 9
  pa : Bool
  a : BitVec 9
  pb : Bool
  b : BitVec 9
  deriving DecidableEq, Repr

/-- An F-slot operation's fields (R170). -/
structure FOp where
  grd : BitVec 4
  d : BitVec 9
  pa : Bool
  a : BitVec 9
  deriving DecidableEq, Repr

/-- An L-slot operation's fields (R171). -/
structure LOp where
  grd : BitVec 4
  dr : BitVec 9
  pd : Bool
  win : BitVec 4
  pa : Bool
  a : BitVec 9
  sz : BitVec 3
  scp : BitVec 3
  deriving DecidableEq, Repr

/-- Cause codes of R384. -/
inductive Cause
  | illegalOpcode | illegalEncoding | trappingHint | unsupportedFeature | regionLimit
  | addressRange | misalignment | space | page | permission | peerGone | uncorrectableData
  | privateAccess | escape | header | brokenReference | notAReference | closureOverflow
  | arrayBounds | callDepth | userTrap | assertion | negativeVariance | barrierMisuse | enqueue
  | accessWithoutToken | divergentMatrix | accumulatorLost | engineFailure | engineLost
  | collectiveMismatch | collectiveTimeout | travelOverflow | illegalBundle | uncorrectableState
  | dieReset | breakpoint | watchpoint | programBreakpoint | stepComplete
  deriving DecidableEq, Repr

/-- Where an ECC event strikes (R398). -/
inductive EccSite
  /-- a register, shadow, store-buffer or slot-queue word of a side of a group; current: written or shadowed in its region -/
  | register (g sd : Nat) (current : Bool)
  /-- a page of a core's instruction store -/
  | istore (c : Nat) (p : Nat)
  /-- a 4-byte word of the unified storage: scratchpad, die store or device memory -/
  | word (a : Nat)
  /-- a clean line of the slice cache -/
  | cleanLine (a : Nat)
  /-- an element of a tile of a group -/
  | tile (g t i : Nat)
  deriving DecidableEq, Repr

/-- The port a management message arrives at (R374). -/
inductive Port | host | safelight
  deriving DecidableEq, Repr

/-- One constructor for each row of spec/opcode_table.json; the comment names the row. Ferkor constructors carry the
ignorable hint h (R38). -/
inductive Instr
  | nop (h : BitVec 2)  -- NOP: `nop` (R69).
  | br (h : BitVec 2) (t : Target)  -- BR: `br ^t(args)` (R70).
  | cbr (h : BitVec 2) (c : Opnd) (t f : Target)  -- CBR: `cbr %c, ^t, ^f` (R70).
  | switch (h : BitVec 2) (i : Opnd) (d : Target) (cs : List Target)  -- SWITCH: `switch %i, ^d, ^c0, …` (R70).
  | call (h : BitVec 2) (t : Option TyD) (callee : Opnd) (args : List Opnd)  -- CALL: `call.T name, args` (R72, R73).
  | ret (h : BitVec 2) (args : List Opnd)  -- RET: `ret args` (R74).
  | exit (h : BitVec 2)  -- EXIT: `exit` (R74).
  | trap (h : BitVec 2) (code : Opnd)  -- TRAP: `trap code` (R75).
  | copyV (h : BitVec 2) (t : TyD) (a : Opnd)  -- COPY_V: `copy.v.T %a` (R76).
  | copyVRet (h : BitVec 2) (t : TyD) (k : Opnd)  -- COPY_V_RET: `copy.v.ret.T k` (R72).
  | add (h : BitVec 2) (t : Ty) (sg : Bool) (a b : Opnd)  -- ADD: integer (R77).
  | sub (h : BitVec 2) (t : Ty) (sg : Bool) (a b : Opnd)  -- SUB: integer (R77).
  | mul (h : BitVec 2) (t : Ty) (sg sat : Bool) (a b : Opnd)  -- MUL: integer (R77).
  | mulhi (h : BitVec 2) (t : Ty) (sg : Bool) (a b : Opnd)  -- MULHI: integer (R77).
  | mad (h : BitVec 2) (t : Ty) (sg : Bool) (a b c : Opnd)  -- MAD: integer (R77).
  | div (h : BitVec 2) (t : Ty) (sg : Bool) (a b : Opnd)  -- DIV: integer division (R78).
  | rem (h : BitVec 2) (t : Ty) (sg : Bool) (a b : Opnd)  -- REM: integer division (R78).
  | neg (h : BitVec 2) (t : Ty) (sat : Bool) (a : Opnd)  -- NEG: signed only (R77).
  | abs (h : BitVec 2) (t : Ty) (sat : Bool) (a : Opnd)  -- ABS: signed only (R77).
  | min (h : BitVec 2) (t : Ty) (sg : Bool) (a b : Opnd)  -- MIN: integer (R77).
  | max (h : BitVec 2) (t : Ty) (sg : Bool) (a b : Opnd)  -- MAX: integer (R77).
  | and (h : BitVec 2) (t : Ty) (a b : Opnd)  -- AND: bitwise (R77).
  | or (h : BitVec 2) (t : Ty) (a b : Opnd)  -- OR: bitwise (R77).
  | xor (h : BitVec 2) (t : Ty) (a b : Opnd)  -- XOR: bitwise (R77).
  | not (h : BitVec 2) (t : Ty) (a : Opnd)  -- NOT: bitwise (R77).
  | shl (h : BitVec 2) (t : Ty) (a n : Opnd)  -- SHL: shift (R77).
  | shr (h : BitVec 2) (t : Ty) (sg : Bool) (a n : Opnd)  -- SHR: shift (R77).
  | rotl (h : BitVec 2) (t : Ty) (a n : Opnd)  -- ROTL: rotate (R77).
  | clz (h : BitVec 2) (s : Ty) (a : Opnd)  -- CLZ: count of a source of type s (R77).
  | popc (h : BitVec 2) (s : Ty) (a : Opnd)  -- POPC: count of a source of type s (R77).
  | brev (h : BitVec 2) (t : Ty) (a : Opnd)  -- BREV: bit reversal (R77).
  | bfx (h : BitVec 2) (t : Ty) (sg : Bool) (a pos len : Opnd)  -- BFX: bit field (R79).
  | bfi (h : BitVec 2) (t : Ty) (base ins pos len : Opnd)  -- BFI: bit field (R79).
  | cmp (h : BitVec 2) (cc : Cond) (sg : Bool) (s : Ty) (a b : Opnd)  -- CMP: compare (R80).
  | sel (h : BitVec 2) (t : TyD) (c a b : Opnd)  -- SEL: select (R77).
  | ext (h : BitVec 2) (t : Ty) (sg : Bool) (s : Ty) (a : Opnd)  -- EXT: widen (R81).
  | trunc (h : BitVec 2) (t : Ty) (sg sat : Bool) (s : Ty) (a : Opnd)  -- TRUNC: narrow (R81).
  | addsat (h : BitVec 2) (t : Ty) (sg : Bool) (a b : Opnd)  -- ADDSAT: saturating (R77).
  | subsat (h : BitVec 2) (t : Ty) (sg : Bool) (a b : Opnd)  -- SUBSAT: saturating (R77).
  | lea (h : BitVec 2) (t : Ty) (sg : Bool) (s : Ty) (k : BitVec 3) (base idx disp : Opnd)  -- LEA: address, scale 2^k (R82).
  | shfl (h : BitVec 2) (m : ShflMode) (t : Ty) (v k : Opnd)  -- SHFL: cross-lane (R90).
  | bcast (h : BitVec 2) (t : Ty) (v k : Opnd)  -- BCAST: cross-lane (R91).
  | vote (h : BitVec 2) (m : VoteMode) (c : Opnd)  -- VOTE: cross-lane (R92).
  | ballot (h : BitVec 2) (hi : Bool) (c : Opnd)  -- BALLOT: cross-lane (R92).
  | redg (h : BitVec 2) (op : RedOp) (sg : Bool) (rm : RM) (dn : Bool) (t : Ty) (v : Opnd)  -- REDG: reduction (R93).
  | scang (h : BitVec 2) (x : Bool) (op : RedOp) (sg : Bool) (rm : RM) (dn : Bool) (t : Ty) (v : Opnd)  -- SCANG: scan (R93).
  | aset (h : BitVec 2) (e : Ty) (l : BitVec 6) (a i v : Opnd)  -- ASET: array of l + 1 elements (R94).
  | aget (h : BitVec 2) (e : Ty) (a i : Opnd)  -- AGET: array element (R94).
  | afill (h : BitVec 2) (e : Ty) (l : BitVec 6) (v : Opnd)  -- AFILL: array of l + 1 elements (R94).
  | fadd (h : BitVec 2) (t : Ty) (rm : RM) (dn : Bool) (a b : Opnd)  -- FADD: floating point (R83).
  | fsub (h : BitVec 2) (t : Ty) (rm : RM) (dn : Bool) (a b : Opnd)  -- FSUB: floating point (R83).
  | fmul (h : BitVec 2) (t : Ty) (rm : RM) (dn : Bool) (a b : Opnd)  -- FMUL: floating point (R83).
  | fma (h : BitVec 2) (t : Ty) (rm : RM) (dn : Bool) (a b c : Opnd)  -- FMA: floating point (R83).
  | fdiv (h : BitVec 2) (t : Ty) (rm : RM) (dn : Bool) (a b : Opnd)  -- FDIV: floating point (R83).
  | fneg (h : BitVec 2) (t : Ty) (a : Opnd)  -- FNEG: sign only (R83).
  | fabs (h : BitVec 2) (t : Ty) (a : Opnd)  -- FABS: sign only (R83).
  | fmin (h : BitVec 2) (t : Ty) (dn : Bool) (a b : Opnd)  -- FMIN: floating point (R84).
  | fmax (h : BitVec 2) (t : Ty) (dn : Bool) (a b : Opnd)  -- FMAX: floating point (R84).
  | fcmp (h : BitVec 2) (cc : FCond) (s : Ty) (dn : Bool) (a b : Opnd)  -- FCMP: floating compare (R85).
  | fclass (h : BitVec 2) (s : Ty) (a : Opnd)  -- FCLASS: class mask (R85).
  | fcopysign (h : BitVec 2) (t : Ty) (a b : Opnd)  -- FCOPYSIGN: sign only (R83).
  | frnd (h : BitVec 2) (t : Ty) (rm : RM) (dn : Bool) (a : Opnd)  -- FRND: to integral (R83).
  | fscale (h : BitVec 2) (t : Ty) (rm : RM) (dn : Bool) (a n : Opnd)  -- FSCALE: scale by 2^n (R83).
  | cvt (h : BitVec 2) (k : CvtKind) (t : CTy) (s : CTy) (rm : RM) (dn : Bool) (a : Opnd)  -- CVT: conversion (R86, R87).
  | pack (h : BitVec 2) (e : CTy) (xs : List Opnd)  -- PACK: pack (R88).
  | unpack (h : BitVec 2) (e : CTy) (n : BitVec 2) (a : Opnd)  -- UNPACK: unpack (R88).
  | rsdenc (h : BitVec 2) (sg : Bool) (a : Opnd)  -- RSDENC: residue encode (R89).
  | rsddec (h : BitVec 2) (a : Opnd)  -- RSDDEC: residue decode (R89).
  | exp2 (h : BitVec 2) (dn : Bool) (a : Opnd)  -- EXP2: special function (R98 to R100).
  | log2 (h : BitVec 2) (dn : Bool) (a : Opnd)  -- LOG2: special function (R98 to R100).
  | rcp (h : BitVec 2) (dn : Bool) (a : Opnd)  -- RCP: special function (R98 to R100).
  | sqrt (h : BitVec 2) (dn : Bool) (a : Opnd)  -- SQRT: special function (R98 to R100).
  | rsqrt (h : BitVec 2) (dn : Bool) (a : Opnd)  -- RSQRT: special function (R98 to R100).
  | sinpi (h : BitVec 2) (dn : Bool) (a : Opnd)  -- SINPI: special function (R98 to R100).
  | cospi (h : BitVec 2) (dn : Bool) (a : Opnd)  -- COSPI: special function (R98 to R100).
  | tanh (h : BitVec 2) (dn : Bool) (a : Opnd)  -- TANH: special function (R98 to R100).
  | sigmoid (h : BitVec 2) (dn : Bool) (a : Opnd)  -- SIGMOID: special function (R98 to R100).
  | erf (h : BitVec 2) (dn : Bool) (a : Opnd)  -- ERF: special function (R98 to R100).
  | madd (h : BitVec 2) (cv : Cov) (cl : Bool) (a b : Opnd) (c : Option Opnd)  -- MADD: moment (R103, R107).
  | msub (h : BitVec 2) (cv : Cov) (cl : Bool) (a b : Opnd) (c : Option Opnd)  -- MSUB: moment (R103, R107).
  | mmul (h : BitVec 2) (cv : Cov) (cl : Bool) (a b : Opnd) (c : Option Opnd)  -- MMUL: moment (R103, R107).
  | mfma (h : BitVec 2) (cv : Cov) (cl : Bool) (a b d : Opnd) (c : Option Opnd)  -- MFMA: moment (R107).
  | mexp (h : BitVec 2) (cl : Bool) (a : Opnd)  -- MEXP: non-linear moment (R109).
  | mrelu (h : BitVec 2) (cl : Bool) (a : Opnd)  -- MRELU: non-linear moment (R109).
  | msig (h : BitVec 2) (cl : Bool) (a : Opnd)  -- MSIG: non-linear moment (R109).
  | mtanh (h : BitVec 2) (cl : Bool) (a : Opnd)  -- MTANH: non-linear moment (R109).
  | mgelu (h : BitVec 2) (cl : Bool) (a : Opnd)  -- MGELU: non-linear moment (R109).
  | mcol (h : BitVec 2) (sel : ColSel) (cl : Bool) (a : Opnd) (k : Option Opnd)  -- MCOL: collapse (R110).
  | mmake (h : BitVec 2) (cl : Bool) (mu v : Opnd)  -- MMAKE: moment (R107).
  | mscale (h : BitVec 2) (cl : Bool) (a s t : Opnd)  -- MSCALE: moment (R107).
  | mma (h : BitVec 2) (fm : MmaForm) (c t : Opnd) (fs : List Opnd)  -- MMA: array step (R125 to R129).
  | accacq (h : BitVec 2) (n : BitVec 2)  -- ACCACQ: acquire 2^n tiles (R115).
  | accrel (h : BitVec 2) (c : Opnd)  -- ACCREL: release (R119).
  | accrd (h : BitVec 2) (ty : AccTy) (c t j : Opnd) (k : Option Opnd)  -- ACCRD: tile read (R130).
  | accwr (h : BitVec 2) (ty : AccTy) (c t j v : Opnd)  -- ACCWR: tile write (R130).
  | acczero (h : BitVec 2) (c t : Opnd)  -- ACCZERO: tile zero (R130).
  | ldfrag (h : BitVec 2) (b : Bool) (w16 : Bool) (j : Bool) (ds : Bool) (m : MemOp) (s : Opnd)  -- LDFRAG: fragment load (R123).
  | ldscale (h : BitVec 2) (c t e : Opnd)  -- LDSCALE: scale load (R124).
  | rsdraw (h : BitVec 2) (c t j : Opnd) (k : Option Opnd)  -- RSDRAW: raw residue read (R130).
  | ld (h : BitVec 2) (t : Ty) (ds : Bool) (m : MemOp)  -- LD: plain load (R254).
  | st (h : BitVec 2) (t : Ty) (ds : Bool) (m : MemOp) (v : Opnd)  -- ST: plain store (R254).
  | atom (h : BitVec 2) (op : AtomOp) (k : AtomKind) (sc : BitVec 3) (t : Ty) (ds : Bool) (m : MemOp) (v : Opnd)  -- ATOM: atomic (R257, R258).
  | cas (h : BitVec 2) (k : AtomKind) (sc : BitVec 3) (t : Ty) (ds : Bool) (m : MemOp) (c v : Opnd)  -- CAS: compare and swap (R258).
  | fence (h : BitVec 2) (k : FenceKind) (sc : BitVec 3) (mask : BitVec 3)  -- FENCE: fence (R260).
  | bar (h : BitVec 2) (mask : BitVec 3) (n : Opnd)  -- BAR: barrier (R262).
  | barar (h : BitVec 2) (mask : BitVec 3) (n : Opnd)  -- BARAR: barrier arrival (R262).
  | barwt (h : BitVec 2) (mask : BitVec 3) (n ph : Opnd)  -- BARWT: barrier wait (R262).
  | ldacq (h : BitVec 2) (sc : BitVec 3) (t : Ty) (ds : Bool) (m : MemOp)  -- LDACQ: acquire load (R254).
  | strel (h : BitVec 2) (sc : BitVec 3) (t : Ty) (ds : Bool) (m : MemOp) (v : Opnd)  -- STREL: release store (R254).
  | prefetch (h : BitVec 2) (dm : Bool) (m : MemOp)  -- PREFETCH: prefetch (R256).
  | ldw (h : BitVec 2) (e : Ty) (l : BitVec 6) (ds : Bool) (m : MemOp)  -- LDW: array load (R255).
  | stw (h : BitVec 2) (e : Ty) (l : BitVec 6) (ds : Bool) (m : MemOp) (x : Opnd)  -- STW: array store (R255).
  | mkref (h : BitVec 2) (m : MemOp)  -- MKREF: make a reference (R238).
  | unref (h : BitVec 2) (m : MemOp)  -- UNREF: clear a tag (R241).
  | objinit (h : BitVec 2) (leaf ctx : Bool) (m : MemOp) (n : Opnd)  -- OBJINIT: create a private object (R240).
  | objinitRetire (h : BitVec 2) (m : MemOp)  -- OBJINIT_RETIRE: retire a private object (R240).
  | publ (h : BitVec 2) (sc : BitVec 3) (mask : BitVec 3) (m : MemOp) (r : Opnd) (ks : List Opnd)  -- PUBL: publication (R243).
  | refeq (h : BitVec 2) (a b : Opnd)  -- REFEQ: address compare (R242).
  | refadr (h : BitVec 2) (r : Opnd)  -- REFADR: address bits (R242).
  | ldref (h : BitVec 2) (m : MemOp)  -- LDREF: load a reference (R239).
  | stref (h : BitVec 2) (m : MemOp) (r : Opnd)  -- STREF: store a reference (R239).
  | objst (h : BitVec 2) (t : Ty) (r off v : Opnd)  -- OBJST: store into an object (R241).
  | copy (h : BitVec 2) (sc : BitVec 3) (mask : BitVec 3) (dirty tag : Bool) (dst src : MemOp) (len : Opnd) (dd : Option (Opnd × Opnd × Opnd)) (ks : List Opnd)  -- COPY: engine copy (R270); dd holds rows, ds and ss of `.2d`.
  | gather (h : BitVec 2) (sc : BitVec 3) (mask : BitVec 3) (le : BitVec 4) (pk : MemOp) (x : MemOp) (e : Opnd) (ks : List Opnd)  -- GATHER: engine gather of 2^le bytes a lane (R271).
  | scatter (h : BitVec 2) (sc : BitVec 3) (mask : BitVec 3) (le : BitVec 4) (x : MemOp) (pk : MemOp) (e : Opnd) (ks : List Opnd)  -- SCATTER: engine scatter (R271).
  | coll (h : BitVec 2) (kind : CollKind) (op : CollOp) (mask : BitVec 3) (t : Ty) (dst src : MemOp) (cnt grp : Opnd) (ks : List Opnd)  -- COLL: collective (R272).
  | post (h : BitVec 2) (sc : BitVec 3) (seg fn : Opnd) (vs : List Opnd)  -- POST: post (R277); the token operands end the list vs.
  | tjoin (h : BitVec 2) (ks : List Opnd)  -- TJOIN: token join (R267).
  | kwait (h : BitVec 2) (ks : List Opnd)  -- KWAIT: token wait (R267).
  | ktest (h : BitVec 2) (k : Opnd)  -- KTEST: token test (R267).
  | sigdec (h : BitVec 2) (sc : BitVec 3) (mask : BitVec 3) (m : MemOp) (v : Opnd) (ks : List Opnd)  -- SIGDEC: signal decrement (R309).
  | sigwait (h : BitVec 2) (cc : Cond) (sc : BitVec 3) (mask : BitVec 3) (m : MemOp) (x : Opnd)  -- SIGWAIT: signal wait (R311).
  | sigset (h : BitVec 2) (sc : BitVec 3) (mask : BitVec 3) (m : MemOp) (v : Opnd) (ks : List Opnd)  -- SIGSET: signal set (R309).
  | sigrd (h : BitVec 2) (sc : BitVec 3) (mask : BitVec 3) (m : MemOp)  -- SIGRD: signal read (R314).
  | enq (h : BitVec 2) (barrier : Bool) (sc : BitVec 3) (mask : BitVec 3) (q d : Opnd) (ks : List Opnd)  -- ENQ: enqueue (R315).
  | nsleep (h : BitVec 2) (n : Opnd)  -- NSLEEP: sleep (R316).
  | twait (h : BitVec 2) (cc : Cond) (sc : BitVec 3) (mask : BitVec 3) (m : MemOp) (x n : Opnd)  -- TWAIT: timed wait (R312).
  | rdclk (h : BitVec 2)  -- RDCLK: clock count (R317).
  | rdtime (h : BitVec 2)  -- RDTIME: time base (R317).
  | yield (h : BitVec 2)  -- YIELD: yield (R318).
  | hop (h : BitVec 2) (m : HopMode) (key : Option Opnd) (t : Target)  -- HOP: segment exit (R329).
  | trvmapRep (h : BitVec 2) (seg : Opnd)  -- TRVMAP_REP: replica count (R341).
  | trvmapVer (h : BitVec 2)  -- TRVMAP_VER: replication version (R341).
  | ctrrd (h : BitVec 2) (n : Opnd)  -- CTRRD: counter read (R396).
  | ctrctl (h : BitVec 2) (clear : Bool) (n cfg : Opnd)  -- CTRCTL: counter control (R396).
  | brkpt (h : BitVec 2) (code : Opnd)  -- BRKPT: program breakpoint (R397).
  | assert (h : BitVec 2) (c code : Opnd)  -- ASSERT: assert (R397).
  | rdflag (h : BitVec 2)  -- RDFLAG: flags read (R395).
  | clrflag (h : BitVec 2) (m : Opnd)  -- CLRFLAG: flags clear (R395).
  | rdfev (h : BitVec 2)  -- RDFEV: first-event record read (R395).
  | sNop  -- S_NOP: S-slot nop (R160).
  | salu (d a : BitVec 9) (f : BitVec 8)  -- SALU: s[D] := s[D] FN s[A] (R169).
  | sli (d : BitVec 9) (i : BitVec 17)  -- SLI: load immediate (R169).
  | slhi (d : BitVec 9) (i : BitVec 17)  -- SLHI: load high immediate (R169).
  | sbr (o : BitVec 22)  -- SBR: jump by signed bundles (R169).
  | sbrc (c : BitVec 3) (o : BitVec 22)  -- SBRC: conditional branch (R177).
  | sjoin  -- SJOIN: join point (R177).
  | scall (o : BitVec 22)  -- SCALL: native call (R169).
  | sret  -- SRET: native return (R169).
  | sexit  -- SEXIT: native end of thread (R169).
  | strap (c : BitVec 13)  -- STRAP: native trap (R169).
  | sloop (n : BitVec 2) (e : BitVec 3) (r : BitVec 9) (l : BitVec 12)  -- SLOOP: hardware loop (R169).
  | ssetfm (f : BitVec 5)  -- SSETFM: float mode word (R169).
  | sxset (x : BitVec 2) (b : BitVec 9) (l : BitVec 6) (p : Bool)  -- SXSET: index register (R176).
  | sxidx (x : BitVec 2) (u : BitVec 9)  -- SXIDX: uniform index (R176).
  | sacq (n : BitVec 2)  -- SACQ: native accacq (R169).
  | srel  -- SREL: native accrel (R169).
  | skwait (t : BitVec 4)  -- SKWAIT: native token wait (R169).
  | skest (d : BitVec 9) (t : BitVec 4)  -- SKEST: native token test (R169).
  | sbar (u : BitVec 9) (k : BitVec 2)  -- SBAR: native barrier (R264).
  | ssys (u : BitVec 9) (o : BitVec 4)  -- SSYS: native system operation (R169).
  | sv2s (d a : BitVec 9)  -- SV2S: vector to uniform (R169).
  | vNop  -- V_NOP: V-slot nop (R160).
  | iadd (v : VOp)  -- IADD: V operation (R167).
  | isub (v : VOp)  -- ISUB: V operation (R167).
  | imul (v : VOp)  -- IMUL: V operation (R167).
  | imhs (v : VOp)  -- IMHS: V operation (R167).
  | imhn (v : VOp)  -- IMHN: V operation (R167).
  | imad (v : VOp)  -- IMAD: V operation (R167).
  | iand (v : VOp)  -- IAND: V operation (R167).
  | ior (v : VOp)  -- IOR: V operation (R167).
  | ixor (v : VOp)  -- IXOR: V operation (R167).
  | ishl (v : VOp)  -- ISHL: V operation (R167).
  | ishrs (v : VOp)  -- ISHRS: V operation (R167).
  | ishrn (v : VOp)  -- ISHRN: V operation (R167).
  | irotl (v : VOp)  -- IROTL: V operation (R167).
  | isel (v : VOp)  -- ISEL: V operation (R167).
  | imins (v : VOp)  -- IMINS: V operation (R167).
  | iminn (v : VOp)  -- IMINN: V operation (R167).
  | imaxs (v : VOp)  -- IMAXS: V operation (R167).
  | imaxn (v : VOp)  -- IMAXN: V operation (R167).
  | iclz (v : VOp)  -- ICLZ: V operation (R167).
  | ipopc (v : VOp)  -- IPOPC: V operation (R167).
  | ibrev (v : VOp)  -- IBREV: V operation (R167).
  | ibfxs (v : VOp)  -- IBFXS: V operation (R167).
  | ibfxn (v : VOp)  -- IBFXN: V operation (R167).
  | ibfi (v : VOp)  -- IBFI: V operation (R167).
  | iaddss (v : VOp)  -- IADDSS: V operation (R167).
  | iaddsn (v : VOp)  -- IADDSN: V operation (R167).
  | isubss (v : VOp)  -- ISUBSS: V operation (R167).
  | isubsn (v : VOp)  -- ISUBSN: V operation (R167).
  | iaddcp (v : VOp)  -- IADDCP: V operation (R167).
  | iaddci (v : VOp)  -- IADDCI: V operation (R167).
  | icmp (v : VOp)  -- ICMP: V operation (R167).
  | idivs (v : VOp)  -- IDIVS: V operation (R167).
  | idivn (v : VOp)  -- IDIVN: V operation (R167).
  | irems (v : VOp)  -- IREMS: V operation (R167).
  | iremn (v : VOp)  -- IREMN: V operation (R167).
  | vFcmp (v : VOp)  -- V_FCMP: V operation (R167).
  | vFadd (v : VOp)  -- V_FADD: V operation (R167).
  | vFsub (v : VOp)  -- V_FSUB: V operation (R167).
  | vFmul (v : VOp)  -- V_FMUL: V operation (R167).
  | ffma (v : VOp)  -- FFMA: V operation (R167).
  | vFdiv (v : VOp)  -- V_FDIV: V operation (R167).
  | vFmin (v : VOp)  -- V_FMIN: V operation (R167).
  | vFmax (v : VOp)  -- V_FMAX: V operation (R167).
  | fcsgn (v : VOp)  -- FCSGN: V operation (R167).
  | vFclass (v : VOp)  -- V_FCLASS: V operation (R167).
  | vFrnd (v : VOp)  -- V_FRND: V operation (R167).
  | fscl (v : VOp)  -- FSCL: V operation (R167).
  | vCvt (v : VOp)  -- V_CVT: V operation (R167).
  | rsenc (v : VOp)  -- RSENC: V operation (R167).
  | rsdec (v : VOp)  -- RSDEC: V operation (R167).
  | xshf (v : VOp)  -- XSHF: V operation (R167).
  | xbc (v : VOp)  -- XBC: V operation (R167).
  | xvote (v : VOp)  -- XVOTE: V operation (R167).
  | xblt (v : VOp)  -- XBLT: V operation (R167).
  | xred (v : VOp)  -- XRED: V operation (R167).
  | xscn (v : VOp)  -- XSCN: V operation (R167).
  | ubc (v : VOp)  -- UBC: V operation (R167).
  | rget (v : VOp)  -- RGET: V operation (R167).
  | rset (v : VOp)  -- RSET: V operation (R167).
  | mld (v : VOp)  -- MLD: V operation (R167).
  | mst (v : VOp)  -- MST: V operation (R167).
  | tread (v : VOp)  -- TREAD: V operation (R167).
  | fNop  -- F_NOP: F-slot nop (R160).
  | fExp2 (o : FOp)  -- F_EXP2: F operation (R170).
  | fLog2 (o : FOp)  -- F_LOG2: F operation (R170).
  | fRcp (o : FOp)  -- F_RCP: F operation (R170).
  | fSqrt (o : FOp)  -- F_SQRT: F operation (R170).
  | fRsqrt (o : FOp)  -- F_RSQRT: F operation (R170).
  | fSinpi (o : FOp)  -- F_SINPI: F operation (R170).
  | fCospi (o : FOp)  -- F_COSPI: F operation (R170).
  | fTanh (o : FOp)  -- F_TANH: F operation (R170).
  | fSigmoid (o : FOp)  -- F_SIGMOID: F operation (R170).
  | fErf (o : FOp)  -- F_ERF: F operation (R170).
  | sscl (g : BitVec 4) (k : BitVec 4) (t : BitVec 3) (pa : Bool) (a : BitVec 9)  -- SSCL: native scale load (R170).
  | lNop  -- L_NOP: L-slot nop (R160).
  | ldn (o : LOp)  -- LDN: L operation (R172).
  | lds (o : LOp)  -- LDS: L operation (R172).
  | lSt (o : LOp)  -- L_ST: L operation (R172).
  | ldq (o : LOp)  -- LDQ: L operation (R172).
  | strl (o : LOp)  -- STRL: L operation (R172).
  | aadd (o : LOp)  -- AADD: L operation (R172).
  | amins (o : LOp)  -- AMINS: L operation (R172).
  | aminn (o : LOp)  -- AMINN: L operation (R172).
  | amaxs (o : LOp)  -- AMAXS: L operation (R172).
  | amaxn (o : LOp)  -- AMAXN: L operation (R172).
  | aand (o : LOp)  -- AAND: L operation (R172).
  | aor (o : LOp)  -- AOR: L operation (R172).
  | axor (o : LOp)  -- AXOR: L operation (R172).
  | axchg (o : LOp)  -- AXCHG: L operation (R172).
  | acas (o : LOp)  -- ACAS: L operation (R172).
  | pref (o : LOp)  -- PREF: L operation (R172).
  | fnc (o : LOp)  -- FNC: L operation (R172).
  | spst (o : LOp)  -- SPST: L operation (R172).
  | spld (o : LOp)  -- SPLD: L operation (R172).
  | ldt (o : LOp)  -- LDT: L operation (R172).
  | stt (o : LOp)  -- STT: L operation (R172).
  | mNop  -- M_NOP: M-slot nop (R160).
  | tstep (t : BitVec 3) (k : BitVec 4) (f : BitVec 3)  -- TSTEP: native array step (R173).
  | tlatch (t : BitVec 3) (k : BitVec 4) (f : BitVec 3)  -- TLATCH: latch first words (R173).
  | twr (t : BitVec 3) (k : BitVec 4) (f : Bool) (j : BitVec 5)  -- TWR: write a slice (R173).
  | tzero (t : BitVec 3) (k : BitVec 4)  -- TZERO: native acczero (R173).
  | aNop  -- A_NOP: A-slot nop (R160).
  | aCopy (k : BitVec 4) (d : BitVec 9)  -- A_COPY: A operation (R174).
  | aGather (k : BitVec 4) (d : BitVec 9)  -- A_GATHER: A operation (R174).
  | aScatter (k : BitVec 4) (d : BitVec 9)  -- A_SCATTER: A operation (R174).
  | aColl (k : BitVec 4) (d : BitVec 9)  -- A_COLL: A operation (R174).
  | aPubl (k : BitVec 4) (d : BitVec 9)  -- A_PUBL: A operation (R174).
  | aPost (k : BitVec 4) (d : BitVec 9)  -- A_POST: A operation (R174).
  | aEnq (k : BitVec 4) (d : BitVec 9)  -- A_ENQ: A operation (R174).
  | aSigdec (k : BitVec 4) (d : BitVec 9)  -- A_SIGDEC: A operation (R174).
  | aSigset (k : BitVec 4) (d : BitVec 9)  -- A_SIGSET: A operation (R174).
  | aHop (k : BitVec 4) (d : BitVec 9) (a : BitVec 13)  -- A_HOP: native segment exit (R174).
  | aTjoin (k : BitVec 4) (d : BitVec 9)  -- A_TJOIN: A operation (R174).
  | queueEnable (q : Nat) (d : BitVec 128)  -- QUEUE_ENABLE: driver write of EN = 1 (R284, R287).
  | queueDisable (q : Nat)  -- QUEUE_DISABLE: driver write of EN = 0 (R287).
  | tailPoll (q : Nat)  -- TAIL_POLL: the queue rereads TAIL (R285).
  | queueLaunch (q : Nat)  -- QUEUE_LAUNCH: the head entry, KIND 1, starts or is refused (R288, R289).
  | queueWait (q : Nat)  -- QUEUE_WAIT: the head entry, KIND 2 (R310).
  | queueDecrement (q : Nat)  -- QUEUE_DECREMENT: the head entry, KIND 3 (R310).
  | queueSet (q : Nat)  -- QUEUE_SET: the head entry, KIND 4 (R310).
  | queueNoOperation (q : Nat)  -- QUEUE_NO_OPERATION: the head entry, KIND 5 (R286).
  | workSteal (l : Nat) (cl : Nat)  -- WORK_STEAL: launch l: cluster cl is given stolen blocks (R291).
  | blockPlace (cl : Nat)  -- BLOCK_PLACE: cluster cl places its next block (R292, R293).
  | blockWaitLimit (cl : Nat)  -- BLOCK_WAIT_LIMIT: a block of cluster cl has waited 1 ms (R293).
  | translationMiss (g : Nat)  -- TRANSLATION_MISS: group g enters an absent key (R156).
  | translationComplete (x : Nat)  -- TRANSLATION_COMPLETE: translation x is written or fails (R416).
  | instructionStoreFill (c : Nat) (x : Nat) (p : Nat)  -- INSTRUCTION_STORE_FILL: page p of translation x enters core c (R153).
  | bundleDispatch (c : Nat)  -- BUNDLE_DISPATCH: one clock of core c (R296).
  | sideRotation (g : Nat)  -- SIDE_ROTATION: a side is rotated out (R298).
  | timingCheck (g : Nat) (sd : Nat) (err : Bool)  -- TIMING_CHECK: a bundle of side sd passes or fails the check (R399).
  | clockRestore (cl : Nat)  -- CLOCK_RESTORE: the 1 ms clock reduction expires (R399).
  | regionCommit (g : Nat) (sd : Nat)  -- REGION_COMMIT: a MARK commits the region of side sd (R387).
  | faultRollback (g : Nat) (sd : Nat) (c : Cause) (lane : BitVec 8) (aux : DWord)  -- FAULT_ROLLBACK: a fault of side sd (R388).
  | eccError (w : EccSite) (multi : Bool)  -- ECC_ERROR: an ECC event (R398).
  | dispPoll (x : Nat)  -- DISP_POLL: DISP of the held faults of context x is read (R392).
  | quantumExpiry (d x : Nat)  -- QUANTUM_EXPIRY: context x has run its quantum on die d (R299).
  | preemptRequest (d x : Nat)  -- PREEMPT_REQUEST: the groups of context x on die d are brought to MARKs (R301).
  | crewSuspend (b : Nat)  -- CREW_SUSPEND: the crew of block b is saved (R302).
  | crewResume (b : Nat) (core : Nat)  -- CREW_RESUME: block b resumes with its rank 0 on core (R303).
  | engineReset (c : Nat)  -- ENGINE_RESET: core c resets its copy engine (R304).
  | matrixUnitReset (c : Nat)  -- MATRIX_UNIT_RESET: core c resets its matrix unit (R133).
  | matrixResetComplete (c : Nat)  -- MATRIX_RESET_COMPLETE: the matrix reset ends (R401).
  | ballastStep (cl : Nat)  -- BALLAST_STEP: ballast fills array duty (R306).
  | accGrant (c : Nat)  -- ACC_GRANT: the head accacq request is served (R117).
  | tileSave (g : Nat) (t : Nat)  -- TILE_SAVE: an idle tile of a blocked group is saved (R117).
  | tileRestore (g : Nat)  -- TILE_RESTORE: a group's saved tiles are restored (R117).
  | tileWriteComplete (g : Nat) (t : Nat)  -- TILE_WRITE_COMPLETE: the last write in flight completes (R118).
  | engineStart (e : Nat)  -- ENGINE_START: an engine instruction starts (R221).
  | tokenComplete (e : Nat)  -- TOKEN_COMPLETE: all accesses performed (R266).
  | tokenFail (e : Nat) (c : Cause)  -- TOKEN_FAIL: a transfer fails after issue (R269).
  | claimRound (w : Nat)  -- CLAIM_ROUND: a further claim round (R245).
  | markPhase (w : Nat)  -- MARK_PHASE: the Fixer marks (R244).
  | rootStore (w : Nat)  -- ROOT_STORE: the root is stored (R244).
  | collectiveFrame (x : Nat) (fr : List Byte)  -- COLLECTIVE_FRAME: a frame for context x is received (R275).
  | collectiveTimeout (e : Nat)  -- COLLECTIVE_TIMEOUT: a member sends nothing in time (R276).
  | hostRdmaWrite (x : Nat) (va : DWord) (bs : List Byte)  -- HOST_RDMA_WRITE: RoCEv2 write through the region of context x (R225).
  | hostRdmaRead (x : Nat) (va : DWord) (n : Nat)  -- HOST_RDMA_READ: RoCEv2 read (R234).
  | hostRdmaAtomic (x : Nat) (va : DWord) (cmp : Option DWord) (v : DWord)  -- HOST_RDMA_ATOMIC: fetch-and-add, or compare-and-swap with cmp (R310).
  | pageMigration (x : Nat) (va : DWord) (d : Nat)  -- PAGE_MIGRATION: a page of context x moves to die d (R199).
  | counterHalving (x : Nat)  -- COUNTER_HALVING: migration counters are halved (R199).
  | mshrRetry (c : Nat)  -- MSHR_RETRY: a rejected request is retried (R204).
  | barrierReleaseWave (cl : Nat)  -- BARRIER_RELEASE_WAVE: a wave of waiting groups is Ready (R319).
  | watchSatisfied (g : Nat)  -- WATCH_SATISFIED: a satisfied watch makes its group Ready (R311).
  | twaitDeadline (g : Nat)  -- TWAIT_DEADLINE: a twait deadline passes (R312).
  | nsleepExpiry (g : Nat)  -- NSLEEP_EXPIRY: an nsleep ends (R316).
  | yieldEnd (g : Nat)  -- YIELD_END: a yield ends (R318).
  | frequencyTransition (cl : Nat) (mhz : Nat)  -- FREQUENCY_TRANSITION: a cluster changes clock (R316).
  | travelDeparture (g : Nat)  -- TRAVEL_DEPARTURE: a parked group departs (R326).
  | recordStart (c : Nat)  -- RECORD_START: core c starts a record (R337).
  | arrivalSuspend (c : Nat)  -- ARRIVAL_SUSPEND: the longest waiter of core c is suspended (R337).
  | replication (l : Nat) (c : Nat)  -- REPLICATION: launch l replicates the segment of core c (R340).
  | travelLaunchHold (l : Nat)  -- TRAVEL_LAUNCH_HOLD: a travel launch takes its cores (R325, R345).
  | blockDone (b : Nat)  -- BLOCK_DONE: a Draining block becomes Done (R294).
  | contextCreate (x : Nat) (w : BitVec 512)  -- CONTEXT_CREATE: VALID := 1 with the slot fields w (R352).
  | contextEnd (x : Nat)  -- CONTEXT_END: VALID := 0 (R352).
  | contextFree (x : Nat)  -- CONTEXT_FREE: the drain is complete (R352).
  | seedChange (x : Nat) (seed : Word)  -- SEED_CHANGE: a new SEED (R202).
  | registerWrite (off : Nat) (bs : List Byte)  -- REGISTER_WRITE: control-space write (R347).
  | tlbInvalidate (w : BitVec 128)  -- TLB_INVALIDATE: TLBINV written with GO (R357).
  | tlbInvalidateComplete  -- TLB_INVALIDATE_COMPLETE: BUSY falls (R357).
  | codeObjectLoad  -- CODE_OBJECT_LOAD: mailbox request 0x0011 takes effect (R369).
  | codeObjectUnload  -- CODE_OBJECT_UNLOAD: mailbox request 0x0012 takes effect (R371).
  | migrate  -- MIGRATE: mailbox request 0x0021 takes effect (R404, R408).
  | getVersion (p : Port) (req : List Byte)  -- GET_VERSION: SPDM message (R374).
  | getCapabilities (p : Port) (req : List Byte)  -- GET_CAPABILITIES: SPDM message (R374).
  | negotiateAlgorithms (p : Port) (req : List Byte)  -- NEGOTIATE_ALGORITHMS: SPDM message (R374).
  | getDigests (p : Port) (req : List Byte)  -- GET_DIGESTS: SPDM message (R374).
  | getCertificate (p : Port) (req : List Byte)  -- GET_CERTIFICATE: SPDM message (R374).
  | challenge (p : Port) (req : List Byte)  -- CHALLENGE: SPDM message (R374).
  | getMeasurements (p : Port) (req : List Byte)  -- GET_MEASUREMENTS: SPDM message (R374).
  | halt (x : Nat)  -- HALT: debug command at the head of the ring of context x (R363).
  | resume (x : Nat)  -- RESUME: debug command at the head of the ring of context x (R363).
  | list (x : Nat)  -- LIST: debug command at the head of the ring of context x (R363).
  | bset (x : Nat)  -- BSET: debug command at the head of the ring of context x (R363).
  | bclr (x : Nat)  -- BCLR: debug command at the head of the ring of context x (R363).
  | step (x : Nat)  -- STEP: debug command at the head of the ring of context x (R363).
  | rval (x : Nat)  -- RVAL: debug command at the head of the ring of context x (R363).
  | rstat (x : Nat)  -- RSTAT: debug command at the head of the ring of context x (R363).
  | wset (x : Nat)  -- WSET: debug command at the head of the ring of context x (R363).
  | wclr (x : Nat)  -- WCLR: debug command at the head of the ring of context x (R363).
  | powerCapWrite (w : DWord)  -- POWER_CAP_WRITE: PWRCTL write (R377).
  | pwrstatRead  -- PWRSTAT_READ: PWRSTAT read (R377).
  | sustainedThrottleStep (d : Nat)  -- SUSTAINED_THROTTLE_STEP: 1 ms step of die d (R377).
  | thermalThrottle (d : Nat)  -- THERMAL_THROTTLE: 105 degrees (R377).
  | thermalReset (d : Nat)  -- THERMAL_RESET: 115 degrees (R377).
  | safelightHalt (x : Nat)  -- SAFELIGHT_HALT: SHALT set (R376).
  | safelightRelease (x : Nat)  -- SAFELIGHT_RELEASE: SHALT cleared (R376).
  | dieReset (d : Nat)  -- DIE_RESET: die reset (R383).
  | moduleReset  -- MODULE_RESET: module reset (R406).
  | bringUpComplete  -- BRING_UP_COMPLETE: full service (R407).
  | firmwareStaging (img : List Byte)  -- FIRMWARE_STAGING: a signed image is staged (R376).
  | getTid (req : List Byte)  -- GET_TID: PLDM message (R378).
  | getPldmVersion (req : List Byte)  -- GET_PLDM_VERSION: PLDM message (R378).
  | getPldmTypes (req : List Byte)  -- GET_PLDM_TYPES: PLDM message (R378).
  | getPldmCommands (req : List Byte)  -- GET_PLDM_COMMANDS: PLDM message (R378).
  | getPdr (req : List Byte)  -- GET_PDR: PLDM message (R378).
  | getSensorReading (id : Nat)  -- GET_SENSOR_READING: numeric sensor (R378).
  | getStateSensorReadings (id : Nat)  -- GET_STATE_SENSOR_READINGS: state sensor (R378).
  | setNumericEffecterValue (id : Nat) (v : Nat)  -- SET_NUMERIC_EFFECTER_VALUE: effecter setting (R378).
  | getNumericEffecterValue (id : Nat)  -- GET_NUMERIC_EFFECTER_VALUE: effecter reading (R378).
  | requestUpdate  -- REQUEST_UPDATE: begins the update flow (R378).
  | activateFirmware  -- ACTIVATE_FIRMWARE: ends the update flow (R378).
  | lSlotResultArrival (g : Nat) (sd : Nat)  -- L_SLOT_RESULT_ARRIVAL: the oldest outstanding L result of group g arrives (R179).
  deriving DecidableEq, Repr

end Sys2Proof
end

