-- ==== Sys2Proof/WellFormed.lean ====
section
/-! DEFINITION. Which instructions are legal on their own words (R28 to R42 and each instruction's description). What needs
the function, the code object or the launch (distances, dominance, pool contents, features) is the translator's, in
Machine/Verify.lean. -/

namespace Sys2Proof

/-- Type codes of R18. -/
def Ty.code : Ty → BitVec 4
  | .b1 => 1 | .i8 => 2 | .i16 => 3 | .i32 => 4 | .i64 => 5 | .f16 => 6 | .bf16 => 7 | .f32 => 8 | .e4m3 => 9
  | .e5m2 => 10 | .mo => 11 | .ref => 12 | .tok => 13 | .acc => 14

/-- Type codes 1 to 5. -/
def Ty.isBitInt : Ty → Bool
  | .b1 | .i8 | .i16 | .i32 | .i64 => true
  | _ => false

/-- Type codes 2 to 5. -/
def Ty.isInt : Ty → Bool
  | .i8 | .i16 | .i32 | .i64 => true
  | _ => false

/-- Type codes 6 to 8. -/
def Ty.isFlt : Ty → Bool
  | .f16 | .bf16 | .f32 => true
  | _ => false

/-- Type codes 6 to 10. -/
def Ty.isFp : Ty → Bool
  | .f16 | .bf16 | .f32 | .e4m3 | .e5m2 => true
  | _ => false

/-- Type codes 2 to 8: array elements and `objst`. -/
def Ty.isElem (t : Ty) : Bool := t.isInt || t.isFlt

/-- Type codes 2 to 11: loads and stores. -/
def Ty.isData (t : Ty) : Bool := t.isInt || t.isFp || t == .mo

/-- Type codes 1 to 8 and 12: `shfl` and `bcast`. -/
def Ty.isShfl (t : Ty) : Bool := t.isBitInt || t.isFlt || t == .ref

/-- i32 or i64. -/
def Ty.isWide : Ty → Bool
  | .i32 | .i64 => true
  | _ => false

/-- The magnitude n has a significand of at most p bits. -/
def fitsSig (p n : Nat) : Bool := (List.range 14).any (fun k => decide (n % 2 ^ k = 0) && decide (n / 2 ^ k < 2 ^ p))

/-- A legal immediate for a slot of type t (R34). -/
def immOk (t : Ty) (i : BitVec 14) : Bool :=
  match t with
  | .i8 | .i16 | .i32 | .i64 | .f32 => true
  | .b1 => i == 0 || i == 1
  | .f16 => fitsSig 11 i.toInt.natAbs
  | .bf16 => fitsSig 8 i.toInt.natAbs
  | .ref => i == 0
  | _ => false

/-- A type that takes pool constants (R35). -/
def Ty.isPool (t : Ty) : Bool := t.isData

/-- A legal slot of type t (R66). -/
def slotOk (t : Ty) : Opnd → Bool
  | .val _ => true
  | .imm i => immOk t i
  | .pool _ => t.isPool
  | .spec c => t == .i32 && decide (c.toNat < 12)
  | .blk _ => false

/-- A slot that holds a value only. -/
def Opnd.isVal : Opnd → Bool
  | .val _ => true
  | _ => false

/-- A slot that is no block target. -/
def Opnd.isArg : Opnd → Bool
  | .blk _ => false
  | .spec c => decide (c.toNat < 12)
  | _ => true

/-- An immediate from lo to hi. -/
def immIn (lo hi : Int) : Opnd → Bool
  | .imm i => decide (lo ≤ i.toInt) && decide (i.toInt ≤ hi)
  | _ => false

/-- A slot of a type descriptor: only plain types take immediates and constants. -/
def slotOkD (t : TyD) (o : Opnd) : Bool :=
  match t with
  | .ty t => slotOk t o
  | _ => o.isVal

/-- A slot of a conversion or pack element. -/
def slotOkC (t : CTy) (o : Opnd) : Bool :=
  match t with
  | .ty t => slotOk t o
  | .s8 => o.isVal

/-- A memory operand (R193). -/
def MemOp.ok (m : MemOp) : Bool :=
  (match m.base with | .val _ => true | .pool _ => true | _ => false) &&
  (match m.off with | .val _ => true | .imm i => decide (0 ≤ i.toInt) | _ => false)

/-- A callee index (R69, R277). -/
def calleeOk : Opnd → Bool
  | .imm i => decide (0 ≤ i.toInt)
  | .pool _ => true
  | _ => false

/-- A ref slot: a value or null (R34). -/
def refOk (o : Opnd) : Bool := slotOk .ref o

/-- Consumed tokens: at most three values (R265). -/
def toksOk (ks : List Opnd) : Bool := decide (ks.length ≤ 3) && ks.all Opnd.isVal

/-- A block target whose arguments hold no target; index 0 is illegal (R36). -/
def Target.ok (t : Target) : Bool := t.blk != 0 && t.args.all Opnd.isArg

/-- A descriptor that R32 allows for a value that may be copied: not tok, not acc (R76, R77). -/
def TyD.copyOk : TyD → Bool
  | .ty .tok | .ty .acc => false
  | .ty _ => true
  | .arr e _ => e.isElem
  | .s8 => true

/-- A descriptor R32 allows. -/
def TyD.ok : TyD → Bool
  | .arr e _ => e.isElem
  | _ => true

/-- Legal conversions (R86). -/
def cvtOk (k : CvtKind) (t s : CTy) (rm : RM) (dn : Bool) : Bool :=
  match k, s, t with
  | .ff, .ty s, .ty t => s.isFp && t.isFp && s != t
  | .s, .s8, .ty t => t == .i32 && rm == .rne && !dn
  | .s, .ty s, .s8 => s == .i32 && rm == .rne && !dn
  | .s, .ty s, .ty t => !dn && ((s.isInt && t.isFlt) || (s.isFlt && t.isInt))
  | .n, .ty s, .ty t => !dn && ((s.isInt && t.isFlt) || (s.isFlt && t.isInt))
  | _, _, _ => false

/-- Pack elements (R88) and how many a word holds. -/
def CTy.packCount : CTy → Nat
  | .s8 | .ty .e4m3 | .ty .e5m2 => 4
  | .ty .f16 | .ty .bf16 => 2
  | _ => 0

/-- Operation, type and modifiers of `redg` and `scang` (R93). -/
def redOk (op : RedOp) (sg : Bool) (rm : RM) (dn : Bool) (t : Ty) : Bool :=
  match op with
  | .add | .min | .max => t.isInt && rm == .rne && !dn
  | .and | .or | .xor => t.isBitInt && !sg && rm == .rne && !dn
  | .fadd => t.isFlt && !sg
  | .fmin | .fmax => t.isFlt && !sg && rm == .rne

/-- A moment slot (R103), and the covariance slot present exactly under `.cov`. -/
def covOk (cv : Cov) (c : Option Opnd) : Bool :=
  match cv, c with
  | .cov, some c => slotOk .f32 c
  | .cov, none => false
  | _, none => true
  | _, some _ => false

/-- Fragment slots of `mma`: i32 values or constants (R125). -/
def fragOk : Opnd → Bool
  | .val _ | .pool _ => true
  | _ => false

/-- Number of fragment slots of a form (R125). -/
def MmaForm.frags : MmaForm → Nat
  | .bf16 | .f16 => 4
  | .mo => 3
  | _ => 2

/-- A scope from lo to 5. -/
def scopeOk (lo : Nat) (s : BitVec 3) : Bool := decide (lo ≤ s.toNat) && decide (s.toNat ≤ 5)

/-! ### Native slot operations (R166 to R174) -/

/-- A guard field: 0, or [3] = 1 (R166). -/
def guardOk (g : BitVec 4) : Bool := g == 0 || g.getLsbD 3

/-- A V operation whose A and B are source registers; b false: B unused. -/
def VOp.regOk (b : Bool) (v : VOp) : Bool := guardOk v.grd && (b || (v.b == 0 && !v.pb))

/-- A V operation whose B is a sub-field that satisfies p. -/
def VOp.subB (p : Nat → Bool) (v : VOp) : Bool := guardOk v.grd && !v.pb && p v.b.toNat

/-- Legal `cvt` sub-field B of R167. -/
def vcvtOk (n : Nat) : Bool :=
  let s := n % 16
  let t := n / 16 % 16
  let sg := decide (n / 256 = 1)
  let isF (x : Nat) := decide (6 ≤ x) && decide (x ≤ 10)
  let isV (x : Nat) := decide (6 ≤ x) && decide (x ≤ 8)
  let isI (x : Nat) := decide (2 ≤ x) && decide (x ≤ 5)
  (isF s && isF t && s != t && !sg) || (isI s && isV t) || (isV s && isI t) || (s == 15 && t == 4 && sg)
    || (s == 4 && t == 15 && sg)

/-- An L operation with a register address form: SZ 0 to 4, scope 0 to 5. -/
def LOp.ok (o : LOp) (sz : Nat → Bool) : Bool := guardOk o.grd && sz o.sz.toNat && decide (o.scp.toNat ≤ 5)

/-- An L operation with an address in a window: w0, the null window, names none (R195; log entry 64). -/
def LOp.okWin (o : LOp) (sz : Nat → Bool) : Bool := o.ok sz && o.win != 0

/-- FN codes of `salu` (R169). -/
def saluOk (f : Nat) : Bool := (decide (1 ≤ f) && decide (f ≤ 0x1C)) || (decide (0x20 ≤ f) && decide (f ≤ 0x23))

/-- The instruction is legal on its own words. A machine step is well formed whatever its operands: its meaning says what
it does with each. -/
def Instr.wf : Instr → Bool
  | .br _ t => t.ok
  | .cbr _ c t f => slotOk .b1 c && t.ok && f.ok
  | .switch _ i d cs => slotOk .i32 i && d.ok && cs.all Target.ok && decide (1 ≤ cs.length) && decide (cs.length ≤ 256)
  | .call _ t c args => (match t with | none => true | some t => t.ok) && calleeOk c && args.all Opnd.isArg
  | .ret _ args => args.all Opnd.isArg && decide (args.length ≤ 8)
  | .trap _ c => immIn 0 8191 c
  | .copyV _ t a => t.copyOk && slotOkD t a
  | .copyVRet _ t k => t.ok && immIn 1 7 k
  | .add _ t _ a b | .sub _ t _ a b | .mul _ t _ _ a b | .mulhi _ t _ a b | .div _ t _ a b | .rem _ t _ a b
  | .min _ t _ a b | .max _ t _ a b | .addsat _ t _ a b | .subsat _ t _ a b => t.isInt && slotOk t a && slotOk t b
  | .mad _ t _ a b c => t.isInt && slotOk t a && slotOk t b && slotOk t c
  | .neg _ t _ a | .abs _ t _ a | .brev _ t a => t.isInt && slotOk t a
  | .and _ t a b | .or _ t a b | .xor _ t a b => t.isBitInt && slotOk t a && slotOk t b
  | .not _ t a => t.isBitInt && slotOk t a
  | .shl _ t a n | .shr _ t _ a n | .rotl _ t a n => t.isInt && slotOk t a && slotOk .i32 n
  | .clz _ s a | .popc _ s a => s.isInt && slotOk s a
  | .bfx _ t _ a p l => t.isInt && slotOk t a && slotOk .i32 p && slotOk .i32 l
  | .bfi _ t a b p l => t.isInt && slotOk t a && slotOk t b && slotOk .i32 p && slotOk .i32 l
  | .cmp _ cc _ s a b => s.isBitInt && (s != .b1 || cc == .eq || cc == .ne) && slotOk s a && slotOk s b
  | .sel _ t c a b => t.copyOk && slotOk .b1 c && slotOkD t a && slotOkD t b
  | .ext _ t _ s a => (t == .i16 || t.isWide) && s.isBitInt && decide (s.code.toNat < t.code.toNat) && slotOk s a
  | .trunc _ t sg sat s a => t.isBitInt && t != .i64 && s.isInt && decide (t.code.toNat < s.code.toNat)
      && (sat || !sg) && (!sat || t != .b1) && slotOk s a
  | .lea _ t _ s k b i d => t.isWide && s.isWide && decide (s.code.toNat ≤ t.code.toNat) && decide (k.toNat ≤ 4)
      && slotOk t b && slotOk s i && slotOk t d
  | .shfl _ _ t v k | .bcast _ t v k => t.isShfl && slotOk t v && slotOk .i32 k
  | .vote _ _ c | .ballot _ _ c => slotOk .b1 c
  | .redg _ op sg rm dn t v => redOk op sg rm dn t && slotOk t v
  | .scang _ _ op sg rm dn t v => redOk op sg rm dn t && slotOk t v
  | .aset _ e l a i v => e.isElem && a.isVal && slotOk .i32 i && slotOk e v
      && (match i with | .imm n => decide (0 ≤ n.toInt) && decide (n.toInt ≤ l.toNat) | _ => true)
  | .aget _ e a i => e.isElem && a.isVal && slotOk .i32 i && (match i with | .imm n => decide (0 ≤ n.toInt) | _ => true)
  | .afill _ e _ v => e.isElem && slotOk e v
  | .fadd _ t _ _ a b | .fsub _ t _ _ a b | .fmul _ t _ _ a b | .fdiv _ t _ _ a b | .fmin _ t _ a b | .fmax _ t _ a b
  | .fcopysign _ t a b => t.isFlt && slotOk t a && slotOk t b
  | .fma _ t _ _ a b c => t.isFlt && slotOk t a && slotOk t b && slotOk t c
  | .fneg _ t a | .fabs _ t a | .frnd _ t _ _ a => t.isFlt && slotOk t a
  | .fcmp _ _ s _ a b => s.isFlt && slotOk s a && slotOk s b
  | .fclass _ s a => s.isFp && slotOk s a
  | .fscale _ t _ _ a n => t.isFlt && slotOk t a && slotOk .i32 n
  | .cvt _ k t s rm dn a => cvtOk k t s rm dn && slotOkC s a
  | .pack _ e xs => decide (e.packCount ≠ 0) && decide (xs.length = e.packCount) && xs.all (slotOkC e)
  | .unpack _ e n a => decide (n.toNat < e.packCount) && slotOk .i32 a
  | .rsdenc _ _ a | .rsddec _ a => slotOk .i32 a
  | .exp2 _ _ a | .log2 _ _ a | .rcp _ _ a | .sqrt _ _ a | .rsqrt _ _ a | .sinpi _ _ a | .cospi _ _ a | .tanh _ _ a
  | .sigmoid _ _ a | .erf _ _ a => slotOk .f32 a
  | .madd _ cv _ a b c | .msub _ cv _ a b c | .mmul _ cv _ a b c => slotOk .mo a && slotOk .mo b && covOk cv c
  | .mfma _ cv _ a b d c => slotOk .mo a && slotOk .mo b && slotOk .mo d && covOk cv c
  | .mexp _ _ a | .mrelu _ _ a | .msig _ _ a | .mtanh _ _ a | .mgelu _ _ a => slotOk .mo a
  | .mcol _ se _ a k => slotOk .mo a &&
      (match se, k with
       | .hi, some k | .lo, some k => slotOk .f32 k
       | .hi, none | .lo, none => false
       | _, none => true
       | _, some _ => false)
  | .mmake _ _ mu v => slotOk .f32 mu && slotOk .f32 v
  | .mscale _ _ a s t => slotOk .mo a && slotOk .f32 s && slotOk .f32 t
  | .mma _ fm c t fs => c.isVal && immIn 0 7 t && decide (fs.length = fm.frags) && fs.all fragOk
  | .accrel _ c => c.isVal
  | .accrd _ _ c t j k => c.isVal && immIn 0 7 t && immIn 0 31 j && (match k with | none => true | some k => k.isVal)
  | .accwr _ ty c t j v => c.isVal && immIn 0 7 t && immIn 0 31 j &&
      slotOk (match ty with | .i32 => .i32 | .f32 => .f32 | .mo => .mo) v
  | .acczero _ c t => c.isVal && immIn 0 7 t
  | .ldfrag _ _ w16 j _ m s => (w16 || !j) && m.ok && slotOk .i32 s
  | .ldscale _ c t e => c.isVal && immIn 0 7 t && slotOk .i32 e
  | .rsdraw _ c t j k => c.isVal && immIn 0 7 t && immIn 0 31 j && (match k with | none => true | some k => k.isVal)
  | .ld _ t _ m => t.isData && m.ok
  | .st _ t _ m v => t.isData && m.ok && slotOk t v
  | .atom _ op _ sc t _ m v => (t.isWide || (op == .xchg && t == .f32)) && scopeOk 0 sc && m.ok && slotOk t v
  | .cas _ _ sc t _ m c v => t.isWide && scopeOk 0 sc && m.ok && slotOk t c && slotOk t v
  | .fence _ _ sc mask => scopeOk 1 sc && mask != 0
  | .bar _ mask n | .barar _ mask n => mask != 0 && immIn 0 15 n
  | .barwt _ mask n ph => mask != 0 && immIn 0 15 n && ph.isVal
  | .ldacq _ sc t _ m => t.isData && scopeOk 1 sc && m.ok
  | .strel _ sc t _ m v => t.isData && scopeOk 1 sc && m.ok && slotOk t v
  | .prefetch _ _ m => m.ok
  | .ldw _ e _ _ m => e.isElem && m.ok
  | .stw _ e _ _ m x => e.isElem && m.ok && x.isVal
  | .mkref _ m | .unref _ m | .objinitRetire _ m | .ldref _ m => m.ok
  | .objinit _ _ _ m n => m.ok && slotOk .i32 n
  | .publ _ sc mask m r ks => scopeOk 1 sc && mask.getLsbD 1 && m.ok && refOk r && toksOk ks
  | .refeq _ a b => refOk a && refOk b
  | .refadr _ r => refOk r
  | .stref _ m r => m.ok && refOk r
  | .objst _ t r off v => t.isElem && refOk r && (off.isVal || immIn 8 8191 off) && slotOk t v
  | .copy _ sc _ _ _ d s len dd ks => scopeOk 0 sc && d.ok && s.ok && slotOk .i32 len && toksOk ks &&
      (match dd with | none => true | some (r, ds, ss) => slotOk .i32 r && slotOk .i32 ds && slotOk .i32 ss)
  | .gather _ sc _ le pk x e ks | .scatter _ sc _ le x pk e ks =>
      scopeOk 0 sc && decide (2 ≤ le.toNat) && decide (le.toNat ≤ 8) && pk.ok && x.ok
        && immIn (2 ^ le.toNat) (2 ^ le.toNat) e && toksOk ks
  | .coll _ kind op mask t d s cnt grp ks =>
      (t.isWide || t == .bf16 || t == .f32) && !mask.getLsbD 0 && mask != 0 && d.ok && s.ok && slotOk .i32 cnt
        && slotOk .i32 grp && toksOk ks && (kind == .allred || kind == .redsc || op == .add)
  | .post _ sc seg fn vs => scopeOk 3 sc && immIn 1 63 seg && calleeOk fn && vs.all Opnd.isArg && decide (vs.length ≤ 35)
  | .tjoin _ ks | .kwait _ ks => decide (1 ≤ ks.length) && toksOk ks
  | .ktest _ k => k.isVal
  | .sigdec _ sc mask m v ks | .sigset _ sc mask m v ks =>
      scopeOk 1 sc && mask != 0 && m.ok && slotOk .i64 v && toksOk ks
  | .sigwait _ _ sc mask m x => scopeOk 1 sc && mask != 0 && m.ok && slotOk .i64 x
  | .sigrd _ sc mask m => scopeOk 1 sc && mask != 0 && m.ok
  | .enq _ _ sc mask q d ks => scopeOk 4 sc && mask.getLsbD 2 && slotOk .i32 q && slotOk .i64 d && toksOk ks
  | .nsleep _ n => slotOk .i32 n
  | .twait _ _ sc mask m x n => scopeOk 1 sc && mask != 0 && m.ok && slotOk .i64 x && slotOk .i32 n
  | .rdclk _ | .rdtime _ | .yield _ | .trvmapVer _ | .rdflag _ | .rdfev _ => true
  | .hop _ m key t => t.ok && 
      (match m, key with
       | .key, some k => slotOk .i32 k
       | .key, none => false
       | _, none => true
       | _, some _ => false)
  | .trvmapRep _ seg => immIn 1 63 seg
  | .ctrrd _ n => immIn 0 15 n
  | .ctrctl _ _ n cfg => immIn 0 15 n && slotOk .i32 cfg
  | .brkpt _ c => immIn 0 8191 c
  | .assert _ c code => slotOk .b1 c && immIn 0 8191 code
  | .clrflag _ m => m.isVal || immIn 0 255 m
  -- native: scalar
  | .salu _ _ f => saluOk f.toNat
  | .sbrc c _ => c.toNat ≤ 7
  | .sloop _ _ _ l => l != 0
  | .ssetfm f => decide (f.toNat / 4 % 4 ≠ 3)
  | .sbar _ k => decide (k.toNat ≤ 2)
  | .ssys u o => decide (o.toNat ≤ 10) && (u == 0 || (o != 0 && o != 10))
  -- native: vector
  | .iadd v | .isub v | .imul v | .imhs v | .imhn v | .imad v | .iand v | .ior v | .ixor v | .ishl v | .ishrs v
  | .ishrn v | .irotl v | .imins v | .iminn v | .imaxs v | .imaxn v | .ibfxs v | .ibfxn v | .ibfi v | .iaddss v
  | .iaddsn v | .isubss v | .isubsn v | .iaddcp v | .idivs v | .idivn v | .irems v | .iremn v | .vFadd v | .vFsub v
  | .vFmul v | .ffma v | .vFdiv v | .vFmin v | .vFmax v | .fcsgn v | .fscl v | .xshf v | .xbc v => v.regOk true
  | .isel v | .iaddci v => !v.grd.getLsbD 3
  | .iclz v | .ipopc v | .ibrev v | .vFrnd v | .rsdec v => v.regOk false
  | .icmp v => v.regOk true && decide (v.d.toNat < 16) && decide (v.d.toNat % 8 ≤ 5)
  | .vFcmp v => v.regOk true && decide (v.d.toNat < 8)
  | .vFclass v => v.subB (fun n => decide (6 ≤ n) && decide (n ≤ 10))
  | .vCvt v => v.subB vcvtOk
  | .rsenc v => v.subB (fun n => n == 0 || n == 256)
  | .xvote v => v.subB (fun n => decide (n ≤ 2)) && v.d == 0
  | .xblt v => v.subB (fun n => decide (n ≤ 1))
  | .xred v => v.subB (fun n => decide (n < 32) && decide (n % 16 ≤ 8))
  | .xscn v => v.subB (fun n => decide (n < 64) && decide (n % 16 ≤ 8))
  | .ubc v => v.regOk false && !v.pa
  | .rget v => v.regOk false && !v.pa && !v.kp && decide (v.a.toNat < 8)
  | .rset v => v.regOk true && !v.pa && !v.kp && decide (v.a.toNat < 8) && v.d == 0
  | .mld v => v.regOk false && !v.pa && !v.kp && decide (v.a.toNat < 256)
  | .mst v => v.regOk false && decide (v.d.toNat < 256)
  | .tread v => v.subB (fun n => decide (n < 32)) && !v.pa && !v.kp
  -- native: special function, memory
  | .fExp2 o | .fLog2 o | .fRcp o | .fSqrt o | .fRsqrt o | .fSinpi o | .fCospi o | .fTanh o | .fSigmoid o | .fErf o =>
      guardOk o.grd
  | .sscl g _ _ _ _ => guardOk g
  | .ldn o | .lds o | .lSt o | .ldq o | .strl o => o.okWin (fun z => decide (z ≤ 4))
  | .pref o => o.okWin (fun z => decide (z ≤ 4)) && o.dr == 0 && !o.pd
  | .aadd o | .amins o | .aminn o | .amaxs o | .amaxn o | .aand o | .aor o | .axor o | .axchg o | .acas o =>
      o.okWin (fun z => z == 2 || z == 3)
  | .fnc o => o.ok (fun z => z == 0) && decide (o.dr.toNat < 8) && o.dr != 0 && !o.pd && o.win == 0 && o.a == 0 && !o.pa
  | .spst o | .spld o => o.ok (fun z => z == 2) && o.win == 0
  | .ldt o | .stt o => o.ok (fun z => z == 3)
  -- native: matrix, asynchronous
  | .tzero _ _ | .tstep _ _ _ | .tlatch _ _ _ | .twr _ _ _ _ => true
  -- everything else is legal as it stands
  | _ => true

end Sys2Proof
end

