-- ==== Sys2Proof/Decode.lean ====
section
/-! DEFINITION. Encodings: the portable words (R28 to R40 and each description), the native slot fields (R166 to R174), the
decoder, and the encoder. A word is legal exactly when it is the encoding of a well-formed instruction: the decoder reads
the fields, rebuilds the instruction, and refuses every word that the encoder would not write (R42). -/

namespace Sys2Proof

/-! ### Codes -/

/-- The type of a code. -/
def Ty.ofCode (c : BitVec 4) : Option Ty :=
  match c.toNat with
  | 1 => some .b1 | 2 => some .i8 | 3 => some .i16 | 4 => some .i32 | 5 => some .i64 | 6 => some .f16
  | 7 => some .bf16 | 8 => some .f32 | 9 => some .e4m3 | 10 => some .e5m2 | 11 => some .mo | 12 => some .ref
  | 13 => some .tok | 14 => some .acc | _ => none

/-- Rounding codes (R29). -/
def RM.code : RM → BitVec 2 | .rne => 0 | .rz => 1 | .ru => 2 | .rd => 3
/-- The mode of a code. -/
def RM.ofCode (c : BitVec 2) : RM := match c.toNat with | 0 => .rne | 1 => .rz | 2 => .ru | _ => .rd
/-- Condition codes (R80). -/
def Cond.code : Cond → BitVec 6 | .eq => 0 | .ne => 1 | .lt => 2 | .le => 3 | .gt => 4 | .ge => 5
/-- The condition of a code. -/
def Cond.ofCode (c : Nat) : Option Cond :=
  match c with
  | 0 => some .eq | 1 => some .ne | 2 => some .lt | 3 => some .le | 4 => some .gt | 5 => some .ge | _ => none
/-- Floating-point condition codes (R85). -/
def FCond.code : FCond → BitVec 6
  | .eq => 0 | .ne => 1 | .lt => 2 | .le => 3 | .gt => 4 | .ge => 5 | .ord => 6 | .uno => 7
/-- The condition of a code. -/
def FCond.ofCode (c : Nat) : Option FCond :=
  match c with
  | 0 => some .eq | 1 => some .ne | 2 => some .lt | 3 => some .le | 4 => some .gt | 5 => some .ge | 6 => some .ord
  | 7 => some .uno | _ => none
/-- Shuffle modes (R90). -/
def ShflMode.code : ShflMode → BitVec 6 | .idx => 0 | .up => 1 | .down => 2 | .xor => 3
/-- The mode of a code. -/
def ShflMode.ofCode (c : Nat) : Option ShflMode :=
  match c with | 0 => some .idx | 1 => some .up | 2 => some .down | 3 => some .xor | _ => none
/-- Vote modes (R92). -/
def VoteMode.code : VoteMode → BitVec 6 | .any => 0 | .all => 1 | .uni => 2
/-- The mode of a code. -/
def VoteMode.ofCode (c : Nat) : Option VoteMode :=
  match c with | 0 => some .any | 1 => some .all | 2 => some .uni | _ => none
/-- Reduction codes (R93). -/
def RedOp.code : RedOp → BitVec 4
  | .add => 0 | .min => 1 | .max => 2 | .and => 3 | .or => 4 | .xor => 5 | .fadd => 6 | .fmin => 7 | .fmax => 8
/-- The operation of a code. -/
def RedOp.ofCode (c : Nat) : Option RedOp :=
  match c with
  | 0 => some .add | 1 => some .min | 2 => some .max | 3 => some .and | 4 => some .or | 5 => some .xor
  | 6 => some .fadd | 7 => some .fmin | 8 => some .fmax | _ => none
/-- MOD of `redg` and `scang`: the reading, the rounding, or 0 (R93). -/
def redMod (op : RedOp) (sg : Bool) (rm : RM) : BitVec 6 :=
  match op with
  | .add | .min | .max => 0#5 ++ BitVec.ofBool sg
  | .fadd => 0#4 ++ rm.code
  | _ => 0
/-- Conversion kinds (R86). -/
def CvtKind.code : CvtKind → BitVec 6 | .ff => 0 | .s => 1 | .n => 2
/-- The kind of a code. -/
def CvtKind.ofCode (c : Nat) : Option CvtKind :=
  match c with | 0 => some .ff | 1 => some .s | 2 => some .n | _ => none
/-- Covariance codes (R29). -/
def Cov.code : Cov → BitVec 2 | .ind => 0 | .cor => 1 | .anti => 2 | .cov => 3
/-- The covariance of a code. -/
def Cov.ofCode (c : BitVec 2) : Cov := match c.toNat with | 0 => .ind | 1 => .cor | 2 => .anti | _ => .cov
/-- Collapse selectors (R110). -/
def ColSel.code : ColSel → BitVec 6 | .mean => 0 | .var => 1 | .sd => 2 | .hi => 3 | .lo => 4
/-- The selector of a code. -/
def ColSel.ofCode (c : Nat) : Option ColSel :=
  match c with | 0 => some .mean | 1 => some .var | 2 => some .sd | 3 => some .hi | 4 => some .lo | _ => none
/-- Forms of `mma` (R125). -/
def MmaForm.code : MmaForm → BitVec 6
  | .s8 => 0 | .e4m3 => 1 | .e5m2 => 2 | .e4m3e5m2 => 3 | .e5m2e4m3 => 4 | .bf16 => 5 | .f16 => 6 | .mo => 7
/-- The form of a code. -/
def MmaForm.ofCode (c : Nat) : Option MmaForm :=
  match c with
  | 0 => some .s8 | 1 => some .e4m3 | 2 => some .e5m2 | 3 => some .e4m3e5m2 | 4 => some .e5m2e4m3 | 5 => some .bf16
  | 6 => some .f16 | 7 => some .mo | _ => none
/-- Element types of tile readout (R130). -/
def AccTy.code : AccTy → BitVec 4 | .i32 => 4 | .f32 => 8 | .mo => 11
/-- The type of a code. -/
def AccTy.ofCode (c : BitVec 4) : Option AccTy :=
  match c.toNat with | 4 => some .i32 | 8 => some .f32 | 11 => some .mo | _ => none
/-- Atomic operation codes (R257). -/
def AtomOp.code : AtomOp → BitVec 4
  | .add => 0 | .mins => 1 | .minn => 2 | .maxs => 3 | .maxn => 4 | .and => 5 | .or => 6 | .xor => 7 | .xchg => 8
/-- The operation of a code. -/
def AtomOp.ofCode (c : Nat) : Option AtomOp :=
  match c with
  | 0 => some .add | 1 => some .mins | 2 => some .minn | 3 => some .maxs | 4 => some .maxn | 5 => some .and
  | 6 => some .or | 7 => some .xor | 8 => some .xchg | _ => none
/-- Ordering kinds (R257). -/
def AtomKind.code : AtomKind → BitVec 2 | .rlx => 0 | .acq => 1 | .rel => 2 | .ar => 3
/-- The kind of a code. -/
def AtomKind.ofCode (c : BitVec 2) : AtomKind := match c.toNat with | 0 => .rlx | 1 => .acq | 2 => .rel | _ => .ar
/-- Fence kinds (R260). -/
def FenceKind.code : FenceKind → BitVec 6 | .acq => 1 | .rel => 2 | .ar => 3
/-- The kind of a code. -/
def FenceKind.ofCode (c : Nat) : Option FenceKind :=
  match c with | 1 => some .acq | 2 => some .rel | 3 => some .ar | _ => none
/-- Collective kinds (R272). -/
def CollKind.code : CollKind → BitVec 3 | .bcast => 0 | .allred => 1 | .redsc => 2 | .allgat => 3
/-- The kind of a code. -/
def CollKind.ofCode (c : Nat) : Option CollKind :=
  match c with | 0 => some .bcast | 1 => some .allred | 2 => some .redsc | 3 => some .allgat | _ => none
/-- Collective reductions (R272). -/
def CollOp.code : CollOp → BitVec 3 | .add => 0 | .min => 1 | .max => 2
/-- The reduction of a code. -/
def CollOp.ofCode (c : Nat) : Option CollOp :=
  match c with | 0 => some .add | 1 => some .min | 2 => some .max | _ => none
/-- Replica modes of `hop` (R329). -/
def HopMode.code : HopMode → BitVec 6 | .dflt => 0 | .hash => 1 | .least => 2 | .key => 3
/-- The mode of a code. -/
def HopMode.ofCode (c : Nat) : Option HopMode :=
  match c with | 0 => some .dflt | 1 => some .hash | 2 => some .least | 3 => some .key | _ => none

/-! ### Operand slots and descriptors -/

/-- The 16 bits of a slot (R33). -/
def Opnd.half : Opnd → Half
  | .val d => 0#2 ++ d
  | .imm i => 1#2 ++ i
  | .pool i => 2#2 ++ i
  | .spec c => 3#2 ++ (0#1 ++ c)
  | .blk b => 3#2 ++ (1#1 ++ b)

/-- The slot of 16 bits (R33). -/
def Opnd.ofHalf (x : Half) : Opnd :=
  match (x.extractLsb' 14 2).toNat with
  | 0 => .val (x.extractLsb' 0 14)
  | 1 => .imm (x.extractLsb' 0 14)
  | 2 => .pool (x.extractLsb' 0 14)
  | _ => if x.getLsbD 13 then .blk (x.extractLsb' 0 13) else .spec (x.extractLsb' 0 13)

/-- The two slots of a memory operand, base first (R193). -/
def MemOp.opnds (m : MemOp) : List Opnd := [m.base, m.off]

/-- A target and its arguments (R36). -/
def Target.opnds (t : Target) : List Opnd := .blk t.blk :: t.args

/-- The type descriptor of R32. -/
def TyD.half : TyD → Half
  | .ty t => 0#12 ++ t.code
  | .arr e l => l ++ (e.code ++ (1#2 ++ 15#4))
  | .s8 => 0x002F

/-- The descriptor of 16 bits. -/
def TyD.ofHalf (x : Half) : Option TyD :=
  if x.extractLsb' 0 4 = 15 then
    (match (x.extractLsb' 4 2).toNat with
     | 1 => (Ty.ofCode (x.extractLsb' 6 4)).bind (fun e => if e.isElem then some (.arr e (x.extractLsb' 10 6)) else none)
     | 2 => if x = 0x002F then some .s8 else none
     | _ => none)
  else if x.extractLsb' 4 12 = 0 then (Ty.ofCode (x.extractLsb' 0 4)).map .ty else none

/-- The TY field of a descriptor. -/
def TyD.tyField : TyD → BitVec 4
  | .ty t => t.code
  | _ => 15

/-- The type word of a descriptor, for TY = 15. -/
def TyD.word : TyD → Option Half
  | .ty _ => none
  | d => some d.half

/-- The descriptor of a conversion element. -/
def CTy.toTyD : CTy → TyD
  | .ty t => .ty t
  | .s8 => .s8

/-- The source code of a conversion: 15 means s8 (R86). -/
def CTy.code : CTy → BitVec 4
  | .ty t => t.code
  | .s8 => 15

/-- The conversion element of a code. -/
def CTy.ofCode (c : BitVec 4) : Option CTy := if c = 15 then some .s8 else (Ty.ofCode c).map .ty

/-! ### The raw form of a portable instruction (R28, R31) -/

/-- The fields of the base word, the type word and the slots. -/
structure Raw where
  op : BitVec 8
  ty : BitVec 4
  md : BitVec 6
  dn : Bool
  hi : BitVec 2
  hr : BitVec 2
  sub : BitVec 6
  descr : Option Half
  slots : List Opnd
  deriving DecidableEq, Repr

/-- NOPS of R28: 7 means that a count word follows. -/
def Raw.nops (r : Raw) : BitVec 3 := if r.slots.length < 7 then BitVec.ofNat 3 r.slots.length else 7

/-- The base word (R28). -/
def Raw.base (r : Raw) : Word :=
  r.op ++ (r.ty ++ (r.md ++ (BitVec.ofBool r.dn ++ (r.nops ++ (r.hi ++ (r.hr ++ r.sub))))))

/-- Slots packed two to a word, the last half zero when their number is odd (R31). -/
def packSlots : List Opnd → List Word
  | [] => []
  | [a] => [0#16 ++ a.half]
  | a :: b :: r => (b.half ++ a.half) :: packSlots r

/-- The words of the raw form (R31). -/
def Raw.words (r : Raw) : List Word :=
  r.base :: ((match r.descr with | none => [] | some d => [0#16 ++ d])
    ++ (if r.slots.length < 7 then [] else [BitVec.ofNat 32 r.slots.length]) ++ packSlots r.slots)

/-- n slots from words: the slots and how many words they took; none when the words end or the pad is not zero. -/
def readSlots : Nat → List Word → Option (List Opnd × Nat)
  | 0, _ => some ([], 0)
  | _ + 1, [] => none
  | 1, w :: _ => if w.extractLsb' 16 16 = 0 then some ([Opnd.ofHalf (w.extractLsb' 0 16)], 1) else none
  | n + 2, w :: r =>
    (readSlots n r).map (fun (xs, k) =>
      (Opnd.ofHalf (w.extractLsb' 0 16) :: Opnd.ofHalf (w.extractLsb' 16 16) :: xs, k + 1))

/-- The raw form at the head of the words, and the number of words it takes. -/
def readRaw (ws : List Word) : Option (Raw × Nat) :=
  match ws with
  | [] => none
  | w :: r0 =>
    let ty := w.extractLsb' 20 4
    let nops := (w.extractLsb' 10 3).toNat
    let d : Option (Option Half × List Word × Nat) :=
      if ty = 15 then
        (match r0 with
         | [] => none
         | x :: r => if x.extractLsb' 16 16 = 0 then some (some (x.extractLsb' 0 16), r, 2) else none)
      else some (none, r0, 1)
    match d with
    | none => none
    | some (descr, r1, k) =>
      let c : Option (Nat × List Word × Nat) :=
        if nops = 7 then
          (match r1 with
           | [] => none
           | x :: r => if 7 ≤ x.toNat ∧ x.toNat ≤ 1023 then some (x.toNat, r, k + 1) else none)
        else some (nops, r1, k)
      match c with
      | none => none
      | some (n, r2, k) =>
        match readSlots n r2 with
        | none => none
        | some (xs, j) =>
          some ({ op := w.extractLsb' 24 8, ty := ty, md := w.extractLsb' 14 6, dn := w.getLsbD 13,
                  hi := w.extractLsb' 8 2, hr := w.extractLsb' 6 2, sub := w.extractLsb' 0 6, descr := descr, slots := xs },
                k + j)

/-! ### The encoder of portable instructions -/

/-- A raw form with HR = 0 and no type word. -/
def raw (op : BitVec 8) (ty : BitVec 4) (md : BitVec 6) (dn : Bool) (h : BitVec 2) (sub : BitVec 6) (xs : List Opnd) : Raw :=
  { op := op, ty := ty, md := md, dn := dn, hi := h, hr := 0, sub := sub, descr := none, slots := xs }

/-- A raw form typed by a descriptor. -/
def rawD (op : BitVec 8) (t : TyD) (md : BitVec 6) (h : BitVec 2) (sub : BitVec 6) (xs : List Opnd) : Raw :=
  { op := op, ty := t.tyField, md := md, dn := false, hi := h, hr := 0, sub := sub, descr := t.word, slots := xs }

/-- MOD[0] as the reading. -/
def mSg (sg : Bool) : BitVec 6 := 0#5 ++ BitVec.ofBool sg
/-- MOD[1:0] as saturation and reading. -/
def mSat (sg sat : Bool) : BitVec 6 := 0#4 ++ (BitVec.ofBool sat ++ BitVec.ofBool sg)
/-- MOD[1:0] as the rounding mode. -/
def mRm (rm : RM) : BitVec 6 := 0#4 ++ rm.code
/-- MOD[4:1] as a type and MOD[0] as the reading. -/
def mTy1 (s : Ty) (sg : Bool) : BitVec 6 := 0#1 ++ (s.code ++ BitVec.ofBool sg)
/-- MOD[5:2] as a source and MOD[1:0]. -/
def mTy2 (s : BitVec 4) (lo : BitVec 2) : BitVec 6 := s ++ lo
/-- MOD[3:0] as a type. -/
def mTy0 (s : BitVec 4) : BitVec 6 := 0#2 ++ s
/-- A moment MOD: clamp and covariance (R103). -/
def mMo (cv : Cov) (cl : Bool) : BitVec 6 := 0#3 ++ (BitVec.ofBool cl ++ cv.code)
/-- A memory MOD: mask and scope (R29). -/
def mMem (mask sc : BitVec 3) : BitVec 6 := mask ++ sc
/-- The mask of one space: scratchpad, or die store. -/
def oneSpace (ds : Bool) : BitVec 3 := if ds then 2 else 1

/-- The optional last slot. -/
def optSlot (c : Option Opnd) : List Opnd := match c with | none => [] | some x => [x]

/-- The raw form of a portable instruction. -/
def Instr.raw? : Instr → Option Raw
  | .nop h => some (raw 0x00 0 0 false h 0 [])
  | .br h t => some (raw 0x01 0 0 false h 0 t.opnds)
  | .cbr h c t f => some (raw 0x02 0 0 false h 0 (c :: (t.opnds ++ f.opnds)))
  | .switch h i d cs => some (raw 0x03 0 0 false h 0 (i :: (d.opnds ++ (cs.map Target.opnds).flatten)))
  | .call h t c args => some (match t with
      | none => raw 0x04 0 0 false h 0 (c :: args)
      | some t => rawD 0x04 t 0 h 0 (c :: args))
  | .ret h args => some (raw 0x05 0 0 false h 0 args)
  | .exit h => some (raw 0x06 0 0 false h 0 [])
  | .trap h c => some (raw 0x07 0 0 false h 0 [c])
  | .copyV h t a => some (rawD 0x08 t 0 h 0 [a])
  | .copyVRet h t k => some (rawD 0x08 t 0 h 1 [k])
  | .add h t sg a b => some (raw 0x10 t.code (mSg sg) false h 0 [a, b])
  | .sub h t sg a b => some (raw 0x11 t.code (mSg sg) false h 0 [a, b])
  | .mul h t sg sat a b => some (raw 0x12 t.code (mSat sg sat) false h 0 [a, b])
  | .mulhi h t sg a b => some (raw 0x13 t.code (mSg sg) false h 0 [a, b])
  | .mad h t sg a b c => some (raw 0x14 t.code (mSg sg) false h 0 [a, b, c])
  | .div h t sg a b => some (raw 0x15 t.code (mSg sg) false h 0 [a, b])
  | .rem h t sg a b => some (raw 0x16 t.code (mSg sg) false h 0 [a, b])
  | .neg h t sat a => some (raw 0x17 t.code (mSat true sat) false h 0 [a])
  | .abs h t sat a => some (raw 0x18 t.code (mSat true sat) false h 0 [a])
  | .min h t sg a b => some (raw 0x19 t.code (mSg sg) false h 0 [a, b])
  | .max h t sg a b => some (raw 0x1A t.code (mSg sg) false h 0 [a, b])
  | .and h t a b => some (raw 0x1B t.code 0 false h 0 [a, b])
  | .or h t a b => some (raw 0x1C t.code 0 false h 0 [a, b])
  | .xor h t a b => some (raw 0x1D t.code 0 false h 0 [a, b])
  | .not h t a => some (raw 0x1E t.code 0 false h 0 [a])
  | .shl h t a n => some (raw 0x1F t.code 0 false h 0 [a, n])
  | .shr h t sg a n => some (raw 0x20 t.code (mSg sg) false h 0 [a, n])
  | .rotl h t a n => some (raw 0x21 t.code 0 false h 0 [a, n])
  | .clz h s a => some (raw 0x22 4 (mTy1 s false) false h 0 [a])
  | .popc h s a => some (raw 0x23 4 (mTy1 s false) false h 0 [a])
  | .brev h t a => some (raw 0x24 t.code 0 false h 0 [a])
  | .bfx h t sg a p l => some (raw 0x25 t.code (mSg sg) false h 0 [a, p, l])
  | .bfi h t a b p l => some (raw 0x26 t.code 0 false h 0 [a, b, p, l])
  | .cmp h cc sg s a b => some (raw 0x27 1 (mTy1 s sg) false h cc.code [a, b])
  | .sel h t c a b => some (rawD 0x28 t 0 h 0 [c, a, b])
  | .ext h t sg s a => some (raw 0x29 t.code (mTy1 s sg) false h 0 [a])
  | .trunc h t sg sat s a =>
      some (raw 0x2A t.code (mTy2 s.code (BitVec.ofBool sat ++ BitVec.ofBool sg)) false h 0 [a])
  | .addsat h t sg a b => some (raw 0x2B t.code (mSg sg) false h 0 [a, b])
  | .subsat h t sg a b => some (raw 0x2C t.code (mSg sg) false h 0 [a, b])
  | .lea h t sg s k b i d => some (raw 0x30 t.code (mTy1 s sg) false h (0#3 ++ k) [b, i, d])
  | .shfl h m t v k => some (raw 0x31 t.code 0 false h m.code [v, k])
  | .bcast h t v k => some (raw 0x32 t.code 0 false h 0 [v, k])
  | .vote h m c => some (raw 0x33 1 0 false h m.code [c])
  | .ballot h hi c => some (raw 0x34 5 0 false h (0#5 ++ BitVec.ofBool hi) [c])
  | .redg h op sg rm dn t v => some (raw 0x35 t.code (redMod op sg rm) dn h (0#2 ++ op.code) [v])
  | .scang h x op sg rm dn t v =>
      some (raw 0x36 t.code (redMod op sg rm) dn h (0#1 ++ (BitVec.ofBool x ++ op.code)) [v])
  | .aset h e l a i v => some (rawD 0x37 (.arr e l) 0 h 0 [a, i, v])
  | .aget h e a i => some (raw 0x38 e.code 0 false h 0 [a, i])
  | .afill h e l v => some (rawD 0x39 (.arr e l) 0 h 0 [v])
  | .fadd h t rm dn a b => some (raw 0x40 t.code (mRm rm) dn h 0 [a, b])
  | .fsub h t rm dn a b => some (raw 0x41 t.code (mRm rm) dn h 0 [a, b])
  | .fmul h t rm dn a b => some (raw 0x42 t.code (mRm rm) dn h 0 [a, b])
  | .fma h t rm dn a b c => some (raw 0x43 t.code (mRm rm) dn h 0 [a, b, c])
  | .fdiv h t rm dn a b => some (raw 0x44 t.code (mRm rm) dn h 0 [a, b])
  | .fneg h t a => some (raw 0x45 t.code 0 false h 0 [a])
  | .fabs h t a => some (raw 0x46 t.code 0 false h 0 [a])
  | .fmin h t dn a b => some (raw 0x47 t.code 0 dn h 0 [a, b])
  | .fmax h t dn a b => some (raw 0x48 t.code 0 dn h 0 [a, b])
  | .fcmp h cc s dn a b => some (raw 0x49 1 (mTy0 s.code) dn h cc.code [a, b])
  | .fclass h s a => some (raw 0x4A 4 (mTy0 s.code) false h 0 [a])
  | .fcopysign h t a b => some (raw 0x4B t.code 0 false h 0 [a, b])
  | .frnd h t rm dn a => some (raw 0x4C t.code (mRm rm) dn h 0 [a])
  | .fscale h t rm dn a n => some (raw 0x52 t.code (mRm rm) dn h 0 [a, n])
  | .cvt h k t s rm dn a =>
      some { rawD 0x4D t.toTyD (mTy2 s.code rm.code) h k.code [a] with dn := dn }
  | .pack h e xs => some (raw 0x4E 4 (mTy0 e.code) false h 0 xs)
  | .unpack h e n a => some (rawD 0x4F e.toTyD 0 h (0#4 ++ n) [a])
  | .rsdenc h sg a => some (raw 0x50 4 (mSg sg) false h 0 [a])
  | .rsddec h a => some (raw 0x51 4 0 false h 0 [a])
  | .exp2 h dn a => some (raw 0x60 8 0 dn h 0 [a])
  | .log2 h dn a => some (raw 0x61 8 0 dn h 0 [a])
  | .rcp h dn a => some (raw 0x62 8 0 dn h 0 [a])
  | .sqrt h dn a => some (raw 0x63 8 0 dn h 0 [a])
  | .rsqrt h dn a => some (raw 0x64 8 0 dn h 0 [a])
  | .sinpi h dn a => some (raw 0x65 8 0 dn h 0 [a])
  | .cospi h dn a => some (raw 0x66 8 0 dn h 0 [a])
  | .tanh h dn a => some (raw 0x67 8 0 dn h 0 [a])
  | .sigmoid h dn a => some (raw 0x68 8 0 dn h 0 [a])
  | .erf h dn a => some (raw 0x69 8 0 dn h 0 [a])
  | .madd h cv cl a b c => some (raw 0x70 11 (mMo cv cl) false h 0 ([a, b] ++ optSlot c))
  | .msub h cv cl a b c => some (raw 0x71 11 (mMo cv cl) false h 0 ([a, b] ++ optSlot c))
  | .mmul h cv cl a b c => some (raw 0x72 11 (mMo cv cl) false h 0 ([a, b] ++ optSlot c))
  | .mfma h cv cl a b d c => some (raw 0x73 11 (mMo cv cl) false h 0 ([a, b, d] ++ optSlot c))
  | .mexp h cl a => some (raw 0x74 11 (mMo .ind cl) false h 0 [a])
  | .mrelu h cl a => some (raw 0x75 11 (mMo .ind cl) false h 0 [a])
  | .msig h cl a => some (raw 0x76 11 (mMo .ind cl) false h 0 [a])
  | .mtanh h cl a => some (raw 0x77 11 (mMo .ind cl) false h 0 [a])
  | .mgelu h cl a => some (raw 0x78 11 (mMo .ind cl) false h 0 [a])
  | .mcol h se cl a k => some (raw 0x79 8 (mMo .ind cl) false h se.code ([a] ++ optSlot k))
  | .mmake h cl mu v => some (raw 0x7A 11 (mMo .ind cl) false h 0 [mu, v])
  | .mscale h cl a s t => some (raw 0x7B 11 (mMo .ind cl) false h 0 [a, s, t])
  | .mma h fm c t fs => some (raw 0x80 13 0 false h fm.code ([c, t] ++ fs))
  | .accacq h n => some (raw 0x81 14 0 false h (0#4 ++ n) [])
  | .accrel h c => some (raw 0x82 14 0 false h 0 [c])
  | .accrd h ty c t j k => some (raw 0x83 ty.code 0 false h 0 ([c, t, j] ++ optSlot k))
  | .accwr h ty c t j v => some (raw 0x84 13 (mTy0 ty.code) false h 0 [c, t, j, v])
  | .acczero h c t => some (raw 0x85 13 0 false h 0 [c, t])
  | .ldfrag h b w16 j ds m s =>
      some (raw 0x86 4 (mMem (oneSpace ds) 0) false h (0#3 ++ (BitVec.ofBool w16 ++ (BitVec.ofBool j ++ BitVec.ofBool b)))
        (m.opnds ++ [s]))
  | .ldscale h c t e => some (raw 0x87 13 0 false h 0 [c, t, e])
  | .rsdraw h c t j k => some (raw 0x88 4 0 false h 0 ([c, t, j] ++ optSlot k))
  | .ld h t ds m => some (raw 0x90 t.code (mMem (oneSpace ds) 0) false h 0 m.opnds)
  | .st h t ds m v => some (raw 0x91 t.code (mMem (oneSpace ds) 0) false h 0 (m.opnds ++ [v]))
  | .atom h op k sc t ds m v => some (raw 0x92 t.code (mMem (oneSpace ds) sc) false h (k.code ++ op.code) (m.opnds ++ [v]))
  | .cas h k sc t ds m c v => some (raw 0x93 t.code (mMem (oneSpace ds) sc) false h (k.code ++ 0#4) (m.opnds ++ [c, v]))
  | .fence h k sc mask => some (raw 0x94 0 (mMem mask sc) false h k.code [])
  | .bar h mask n => some (raw 0x95 0 (mMem mask 2) false h 0 [n])
  | .barar h mask n => some (raw 0x96 4 (mMem mask 2) false h 0 [n])
  | .barwt h mask n ph => some (raw 0x97 0 (mMem mask 2) false h 0 [n, ph])
  | .ldacq h sc t ds m => some (raw 0x98 t.code (mMem (oneSpace ds) sc) false h 0 m.opnds)
  | .strel h sc t ds m v => some (raw 0x99 t.code (mMem (oneSpace ds) sc) false h 0 (m.opnds ++ [v]))
  | .prefetch h dm m => some (raw 0x9A 0 (mMem (if dm then 4 else 2) 0) false h 0 m.opnds)
  | .ldw h e l ds m => some (rawD 0x9B (.arr e l) (mMem (oneSpace ds) 0) h 0 m.opnds)
  | .stw h e l ds m x => some (rawD 0x9C (.arr e l) (mMem (oneSpace ds) 0) h 0 (m.opnds ++ [x]))
  | .mkref h m => some (raw 0xB0 12 (mMem 2 0) false h 0 m.opnds)
  | .unref h m => some (raw 0xB1 0 (mMem 2 0) false h 0 m.opnds)
  | .objinit h leaf ctx m n =>
      some (raw 0xB2 0 (mMem 2 0) false h (0#4 ++ (BitVec.ofBool ctx ++ BitVec.ofBool leaf)) (m.opnds ++ [n]))
  | .objinitRetire h m => some (raw 0xB2 0 (mMem 2 0) false h 4 m.opnds)
  | .publ h sc mask m r ks => some (raw 0xB3 13 (mMem mask sc) false h 0 (m.opnds ++ r :: ks))
  | .refeq h a b => some (raw 0xB4 1 0 false h 0 [a, b])
  | .refadr h r => some (raw 0xB5 5 0 false h 0 [r])
  | .ldref h m => some (raw 0xB6 12 (mMem 2 0) false h 0 m.opnds)
  | .stref h m r => some (raw 0xB7 12 (mMem 2 0) false h 0 (m.opnds ++ [r]))
  | .objst h t r off v => some (raw 0xB8 t.code (mMem 2 0) false h 0 [r, off, v])
  | .copy h sc mask dirty tag d s len dd ks =>
      some (raw 0xC0 13 (mMem mask sc) false h
        (0#3 ++ (BitVec.ofBool dd.isSome ++ (BitVec.ofBool tag ++ BitVec.ofBool dirty)))
        (d.opnds ++ s.opnds ++ len :: ((match dd with | none => [] | some (r, ds, ss) => [r, ds, ss]) ++ ks)))
  | .gather h sc mask le pk x e ks =>
      some (raw 0xC1 13 (mMem mask sc) false h (0#2 ++ le) (pk.opnds ++ x.opnds ++ e :: ks))
  | .scatter h sc mask le x pk e ks =>
      some (raw 0xC2 13 (mMem mask sc) false h (0#2 ++ le) (pk.opnds ++ x.opnds ++ e :: ks))
  | .coll h kind op mask t d s cnt grp ks =>
      some (raw 0xC3 t.code (mMem mask 5) false h (op.code ++ kind.code) (d.opnds ++ s.opnds ++ cnt :: grp :: ks))
  | .post h sc seg fn vs => some (raw 0xC4 13 (mMem 2 sc) false h 0 (seg :: fn :: vs))
  | .tjoin h ks => some (raw 0xC5 13 0 false h 0 ks)
  | .kwait h ks => some (raw 0xC6 0 0 false h 0 ks)
  | .ktest h k => some (raw 0xC7 1 0 false h 0 [k])
  | .sigdec h sc mask m v ks => some (raw 0xD0 13 (mMem mask sc) false h 0 (m.opnds ++ v :: ks))
  | .sigwait h cc sc mask m x => some (raw 0xD1 5 (mMem mask sc) false h cc.code (m.opnds ++ [x]))
  | .sigset h sc mask m v ks => some (raw 0xD2 13 (mMem mask sc) false h 0 (m.opnds ++ v :: ks))
  | .sigrd h sc mask m => some (raw 0xD3 5 (mMem mask sc) false h 0 m.opnds)
  | .enq h b sc mask q d ks => some (raw 0xD4 13 (mMem mask sc) false h (0#5 ++ BitVec.ofBool b) (q :: d :: ks))
  | .nsleep h n => some (raw 0xD5 0 0 false h 0 [n])
  | .twait h cc sc mask m x n => some (raw 0xD6 1 (mMem mask sc) false h cc.code (m.opnds ++ [x, n]))
  | .rdclk h => some (raw 0xD7 5 0 false h 0 [])
  | .rdtime h => some (raw 0xD8 5 0 false h 0 [])
  | .yield h => some (raw 0xD9 0 0 false h 0 [])
  | .hop h m key t => some (raw 0xE0 0 0 false h m.code (optSlot key ++ t.opnds))
  | .trvmapRep h seg => some (raw 0xE1 4 0 false h 0 [seg])
  | .trvmapVer h => some (raw 0xE1 4 0 false h 1 [])
  | .ctrrd h n => some (raw 0xE2 5 0 false h 0 [n])
  | .ctrctl h cl n cfg => some (raw 0xE3 0 0 false h (0#5 ++ BitVec.ofBool cl) [n, cfg])
  | .brkpt h c => some (raw 0xE4 0 0 false h 0 [c])
  | .assert h c code => some (raw 0xE5 0 0 false h 0 [c, code])
  | .rdflag h => some (raw 0xE6 4 0 false h 0 [])
  | .clrflag h m => some (raw 0xE7 0 0 false h 0 [m])
  | .rdfev h => some (raw 0xE8 5 0 false h 0 [])
  | _ => none

/-! ### The decoder of portable instructions -/

/-- Splits slots at the block targets: the slots before the first target, and the targets with their arguments (R36). -/
def splitTargets : List Opnd → List Opnd × List Target
  | [] => ([], [])
  | o :: r =>
    let (args, ts) := splitTargets r
    match o with
    | .blk b => ([], { blk := b, args := args } :: ts)
    | o => (o :: args, ts)

/-- The number of slots before the first block target, split off. -/
def targetsAfter (n : Nat) (xs : List Opnd) : Option (List Opnd × List Target) :=
  let (pre, ts) := splitTargets xs
  if pre.length = n then some (pre, ts) else none

/-- The descriptor of a raw form whose TY is 1 to 15. -/
def Raw.tyD (r : Raw) : Option TyD :=
  match r.descr with
  | some d => TyD.ofHalf d
  | none => (Ty.ofCode r.ty).map .ty

/-- Control transfers and value copies (R69). -/
def parseControl (r : Raw) : Option Instr :=
  let h := r.hi
  match r.op.toNat, r.slots with
  | 0x00, [] => some (.nop h)
  | 0x01, xs => (targetsAfter 0 xs).bind (fun p => match p.2 with | [t] => some (.br h t) | _ => none)
  | 0x02, xs => (targetsAfter 1 xs).bind (fun p => match p.1, p.2 with | [c], [t, f] => some (.cbr h c t f) | _, _ => none)
  | 0x03, xs => (targetsAfter 1 xs).bind (fun p => match p.1, p.2 with
      | [i], d :: cs => some (.switch h i d cs) | _, _ => none)
  | 0x04, c :: args => if r.ty = 0 then some (.call h none c args) else r.tyD.map (fun t => .call h (some t) c args)
  | 0x05, args => some (.ret h args)
  | 0x06, [] => some (.exit h)
  | 0x07, [c] => some (.trap h c)
  | 0x08, [a] => r.tyD.map (fun t => if r.sub = 0 then .copyV h t a else .copyVRet h t a)
  | _, _ => none

/-- Integer instructions (R77). -/
def parseInt (r : Raw) : Option Instr :=
  let h := r.hi
  let sg := r.md.getLsbD 0
  let sat := r.md.getLsbD 1
  let s1 := Ty.ofCode (r.md.extractLsb' 1 4)
  if r.op.toNat = 0x28 then
    (match r.tyD, r.slots with
     | some t, [c, a, b] => some (.sel h t c a b)
     | _, _ => none)
  else
  match Ty.ofCode r.ty with
  | none => none
  | some t =>
    match r.op.toNat, r.slots with
    | 0x10, [a, b] => some (.add h t sg a b)
    | 0x11, [a, b] => some (.sub h t sg a b)
    | 0x12, [a, b] => some (.mul h t sg sat a b)
    | 0x13, [a, b] => some (.mulhi h t sg a b)
    | 0x14, [a, b, c] => some (.mad h t sg a b c)
    | 0x15, [a, b] => some (.div h t sg a b)
    | 0x16, [a, b] => some (.rem h t sg a b)
    | 0x17, [a] => some (.neg h t sat a)
    | 0x18, [a] => some (.abs h t sat a)
    | 0x19, [a, b] => some (.min h t sg a b)
    | 0x1A, [a, b] => some (.max h t sg a b)
    | 0x1B, [a, b] => some (.and h t a b)
    | 0x1C, [a, b] => some (.or h t a b)
    | 0x1D, [a, b] => some (.xor h t a b)
    | 0x1E, [a] => some (.not h t a)
    | 0x1F, [a, n] => some (.shl h t a n)
    | 0x20, [a, n] => some (.shr h t sg a n)
    | 0x21, [a, n] => some (.rotl h t a n)
    | 0x22, [a] => s1.map (fun s => .clz h s a)
    | 0x23, [a] => s1.map (fun s => .popc h s a)
    | 0x24, [a] => some (.brev h t a)
    | 0x25, [a, p, l] => some (.bfx h t sg a p l)
    | 0x26, [a, b, p, l] => some (.bfi h t a b p l)
    | 0x27, [a, b] => s1.bind (fun s => (Cond.ofCode r.sub.toNat).map (fun cc => .cmp h cc sg s a b))
    | 0x29, [a] => s1.map (fun s => .ext h t sg s a)
    | 0x2A, [a] => (Ty.ofCode (r.md.extractLsb' 2 4)).map (fun s => .trunc h t sg sat s a)
    | 0x2B, [a, b] => some (.addsat h t sg a b)
    | 0x2C, [a, b] => some (.subsat h t sg a b)
    | _, _ => none

/-- Address, cross-lane and array instructions (R82, R90 to R94). -/
def parseLane (r : Raw) : Option Instr :=
  let h := r.hi
  let sg := r.md.getLsbD 0
  let op4 := RedOp.ofCode (r.sub.extractLsb' 0 4).toNat
  match r.descr with
  | some d =>
    (match TyD.ofHalf d, r.op.toNat, r.slots with
     | some (.arr e l), 0x37, [a, i, v] => some (.aset h e l a i v)
     | some (.arr e l), 0x39, [v] => some (.afill h e l v)
     | _, _, _ => none)
  | none =>
    match Ty.ofCode r.ty with
    | none => none
    | some t =>
      match r.op.toNat, r.slots with
      | 0x30, [b, i, d] => (Ty.ofCode (r.md.extractLsb' 1 4)).map (fun s => .lea h t sg s (r.sub.extractLsb' 0 3) b i d)
      | 0x31, [v, k] => (ShflMode.ofCode r.sub.toNat).map (fun m => .shfl h m t v k)
      | 0x32, [v, k] => some (.bcast h t v k)
      | 0x33, [c] => (VoteMode.ofCode r.sub.toNat).map (fun m => .vote h m c)
      | 0x34, [c] => some (.ballot h (r.sub.getLsbD 0) c)
      | 0x35, [v] => op4.map (fun op => .redg h op (decide (op ≠ .fadd) && sg)
          (if op = .fadd then RM.ofCode (r.md.extractLsb' 0 2) else .rne) r.dn t v)
      | 0x36, [v] => op4.map (fun op => .scang h (r.sub.getLsbD 4) op (decide (op ≠ .fadd) && sg)
          (if op = .fadd then RM.ofCode (r.md.extractLsb' 0 2) else .rne) r.dn t v)
      | 0x38, [a, i] => some (.aget h t a i)
      | _, _ => none

/-- Floating-point, conversion, pack and residue instructions (R83 to R89). -/
def parseFloat (r : Raw) : Option Instr :=
  let h := r.hi
  let rm := RM.ofCode (r.md.extractLsb' 0 2)
  let s0 := r.md.extractLsb' 0 4
  let cty : Option CTy := match r.tyD with | some (.ty t) => some (.ty t) | some .s8 => some .s8 | _ => none
  match r.op.toNat, r.slots with
  | 0x4D, [a] => cty.bind (fun t => (CTy.ofCode (r.md.extractLsb' 2 4)).bind (fun s =>
      (CvtKind.ofCode r.sub.toNat).map (fun k => .cvt h k t s rm r.dn a)))
  | 0x4E, xs => (CTy.ofCode s0).map (fun e => .pack h e xs)
  | 0x4F, [a] => cty.map (fun e => .unpack h e (r.sub.extractLsb' 0 2) a)
  | 0x50, [a] => some (.rsdenc h (r.md.getLsbD 0) a)
  | 0x51, [a] => some (.rsddec h a)
  | 0x49, [a, b] => (Ty.ofCode s0).bind (fun s => (FCond.ofCode r.sub.toNat).map (fun cc => .fcmp h cc s r.dn a b))
  | 0x4A, [a] => (Ty.ofCode s0).map (fun s => .fclass h s a)
  | op, xs =>
    match Ty.ofCode r.ty with
    | none => none
    | some t =>
      match op, xs with
      | 0x40, [a, b] => some (.fadd h t rm r.dn a b)
      | 0x41, [a, b] => some (.fsub h t rm r.dn a b)
      | 0x42, [a, b] => some (.fmul h t rm r.dn a b)
      | 0x43, [a, b, c] => some (.fma h t rm r.dn a b c)
      | 0x44, [a, b] => some (.fdiv h t rm r.dn a b)
      | 0x45, [a] => some (.fneg h t a)
      | 0x46, [a] => some (.fabs h t a)
      | 0x47, [a, b] => some (.fmin h t r.dn a b)
      | 0x48, [a, b] => some (.fmax h t r.dn a b)
      | 0x4B, [a, b] => some (.fcopysign h t a b)
      | 0x4C, [a] => some (.frnd h t rm r.dn a)
      | 0x52, [a, n] => some (.fscale h t rm r.dn a n)
      | _, _ => none

/-- Special-function instructions (R98). -/
def parseSfu (r : Raw) : Option Instr :=
  let h := r.hi
  match r.op.toNat, r.slots with
  | 0x60, [a] => some (.exp2 h r.dn a)
  | 0x61, [a] => some (.log2 h r.dn a)
  | 0x62, [a] => some (.rcp h r.dn a)
  | 0x63, [a] => some (.sqrt h r.dn a)
  | 0x64, [a] => some (.rsqrt h r.dn a)
  | 0x65, [a] => some (.sinpi h r.dn a)
  | 0x66, [a] => some (.cospi h r.dn a)
  | 0x67, [a] => some (.tanh h r.dn a)
  | 0x68, [a] => some (.sigmoid h r.dn a)
  | 0x69, [a] => some (.erf h r.dn a)
  | _, _ => none

/-- Moment instructions (R103). -/
def parseMoment (r : Raw) : Option Instr :=
  let h := r.hi
  let cl := r.md.getLsbD 2
  let cv := Cov.ofCode (r.md.extractLsb' 0 2)
  match r.op.toNat, r.slots with
  | 0x70, [a, b] => some (.madd h cv cl a b none)
  | 0x70, [a, b, c] => some (.madd h cv cl a b (some c))
  | 0x71, [a, b] => some (.msub h cv cl a b none)
  | 0x71, [a, b, c] => some (.msub h cv cl a b (some c))
  | 0x72, [a, b] => some (.mmul h cv cl a b none)
  | 0x72, [a, b, c] => some (.mmul h cv cl a b (some c))
  | 0x73, [a, b, d] => some (.mfma h cv cl a b d none)
  | 0x73, [a, b, d, c] => some (.mfma h cv cl a b d (some c))
  | 0x74, [a] => some (.mexp h cl a)
  | 0x75, [a] => some (.mrelu h cl a)
  | 0x76, [a] => some (.msig h cl a)
  | 0x77, [a] => some (.mtanh h cl a)
  | 0x78, [a] => some (.mgelu h cl a)
  | 0x79, [a] => (ColSel.ofCode r.sub.toNat).map (fun se => .mcol h se cl a none)
  | 0x79, [a, k] => (ColSel.ofCode r.sub.toNat).map (fun se => .mcol h se cl a (some k))
  | 0x7A, [mu, v] => some (.mmake h cl mu v)
  | 0x7B, [a, s, t] => some (.mscale h cl a s t)
  | _, _ => none

/-- Matrix instructions (R116, R123 to R130). -/
def parseMatrix (r : Raw) : Option Instr :=
  let h := r.hi
  match r.op.toNat, r.slots with
  | 0x80, c :: t :: fs => (MmaForm.ofCode r.sub.toNat).map (fun fm => .mma h fm c t fs)
  | 0x81, [] => some (.accacq h (r.sub.extractLsb' 0 2))
  | 0x82, [c] => some (.accrel h c)
  | 0x83, [c, t, j] => (AccTy.ofCode r.ty).map (fun ty => .accrd h ty c t j none)
  | 0x83, [c, t, j, k] => (AccTy.ofCode r.ty).map (fun ty => .accrd h ty c t j (some k))
  | 0x84, [c, t, j, v] => (AccTy.ofCode (r.md.extractLsb' 0 4)).map (fun ty => .accwr h ty c t j v)
  | 0x85, [c, t] => some (.acczero h c t)
  | 0x86, [b, o, s] => some (.ldfrag h (r.sub.getLsbD 0) (r.sub.getLsbD 2) (r.sub.getLsbD 1) (r.md.getLsbD 4)
      { base := b, off := o } s)
  | 0x87, [c, t, e] => some (.ldscale h c t e)
  | 0x88, [c, t, j] => some (.rsdraw h c t j none)
  | 0x88, [c, t, j, k] => some (.rsdraw h c t j (some k))
  | _, _ => none

/-- Memory, atomic, fence and barrier instructions (R253 to R261). -/
def parseMemory (r : Raw) : Option Instr :=
  let h := r.hi
  let sc := r.md.extractLsb' 0 3
  let mask := r.md.extractLsb' 3 3
  let ds := r.md.getLsbD 4
  let m (b o : Opnd) : MemOp := { base := b, off := o }
  match r.op.toNat, r.slots with
  | 0x94, [] => (FenceKind.ofCode r.sub.toNat).map (fun k => .fence h k sc mask)
  | 0x95, [n] => some (.bar h mask n)
  | 0x96, [n] => some (.barar h mask n)
  | 0x97, [n, ph] => some (.barwt h mask n ph)
  | 0x9A, [b, o] => some (.prefetch h (r.md.getLsbD 5) (m b o))
  | 0x9B, [b, o] => (match r.tyD with | some (.arr e l) => some (.ldw h e l ds (m b o)) | _ => none)
  | 0x9C, [b, o, x] => (match r.tyD with | some (.arr e l) => some (.stw h e l ds (m b o) x) | _ => none)
  | op, xs =>
    match Ty.ofCode r.ty with
    | none => none
    | some t =>
      match op, xs with
      | 0x90, [b, o] => some (.ld h t ds (m b o))
      | 0x91, [b, o, v] => some (.st h t ds (m b o) v)
      | 0x92, [b, o, v] => (AtomOp.ofCode (r.sub.extractLsb' 0 4).toNat).map (fun op =>
          .atom h op (AtomKind.ofCode (r.sub.extractLsb' 4 2)) sc t ds (m b o) v)
      | 0x93, [b, o, c, v] => some (.cas h (AtomKind.ofCode (r.sub.extractLsb' 4 2)) sc t ds (m b o) c v)
      | 0x98, [b, o] => some (.ldacq h sc t ds (m b o))
      | 0x99, [b, o, v] => some (.strel h sc t ds (m b o) v)
      | _, _ => none

/-- Reference and publication instructions (R237). -/
def parseRefs (r : Raw) : Option Instr :=
  let h := r.hi
  let m (b o : Opnd) : MemOp := { base := b, off := o }
  match r.op.toNat, r.slots with
  | 0xB0, [b, o] => some (.mkref h (m b o))
  | 0xB1, [b, o] => some (.unref h (m b o))
  | 0xB2, [b, o] => some (.objinitRetire h (m b o))
  | 0xB2, [b, o, n] => some (.objinit h (r.sub.getLsbD 0) (r.sub.getLsbD 1) (m b o) n)
  | 0xB3, b :: o :: x :: ks => some (.publ h (r.md.extractLsb' 0 3) (r.md.extractLsb' 3 3) (m b o) x ks)
  | 0xB4, [a, b] => some (.refeq h a b)
  | 0xB5, [a] => some (.refadr h a)
  | 0xB6, [b, o] => some (.ldref h (m b o))
  | 0xB7, [b, o, x] => some (.stref h (m b o) x)
  | 0xB8, [x, o, v] => (Ty.ofCode r.ty).map (fun t => .objst h t x o v)
  | _, _ => none

/-- Engine and token instructions (R265 to R277). -/
def parseEngines (r : Raw) : Option Instr :=
  let h := r.hi
  let sc := r.md.extractLsb' 0 3
  let mask := r.md.extractLsb' 3 3
  let m (b o : Opnd) : MemOp := { base := b, off := o }
  match r.op.toNat, r.slots with
  | 0xC0, d :: d' :: s :: s' :: len :: r0 =>
    if r.sub.getLsbD 2 then
      (match r0 with
       | a :: b :: c :: ks =>
         some (.copy h sc mask (r.sub.getLsbD 0) (r.sub.getLsbD 1) (m d d') (m s s') len (some (a, b, c)) ks)
       | _ => none)
    else some (.copy h sc mask (r.sub.getLsbD 0) (r.sub.getLsbD 1) (m d d') (m s s') len none r0)
  | 0xC1, p :: p' :: b :: o :: e :: ks => some (.gather h sc mask (r.sub.extractLsb' 0 4) (m p p') (m b o) e ks)
  | 0xC2, p :: p' :: b :: o :: e :: ks => some (.scatter h sc mask (r.sub.extractLsb' 0 4) (m b o) (m p p') e ks)
  | 0xC3, d :: d' :: s :: s' :: cnt :: grp :: ks =>
    (Ty.ofCode r.ty).bind (fun t => (CollKind.ofCode (r.sub.extractLsb' 0 3).toNat).bind (fun kind =>
      (CollOp.ofCode (r.sub.extractLsb' 3 3).toNat).map (fun op => .coll h kind op mask t (m d d') (m s s') cnt grp ks)))
  | 0xC4, seg :: fn :: vs => some (.post h sc seg fn vs)
  | 0xC5, ks => some (.tjoin h ks)
  | 0xC6, ks => some (.kwait h ks)
  | 0xC7, [k] => some (.ktest h k)
  | _, _ => none

/-- Signals, waits, time and enqueue (R308). -/
def parseSignals (r : Raw) : Option Instr :=
  let h := r.hi
  let sc := r.md.extractLsb' 0 3
  let mask := r.md.extractLsb' 3 3
  let cc := Cond.ofCode r.sub.toNat
  let m (b o : Opnd) : MemOp := { base := b, off := o }
  match r.op.toNat, r.slots with
  | 0xD0, b :: o :: v :: ks => some (.sigdec h sc mask (m b o) v ks)
  | 0xD1, [b, o, x] => cc.map (fun cc => .sigwait h cc sc mask (m b o) x)
  | 0xD2, b :: o :: v :: ks => some (.sigset h sc mask (m b o) v ks)
  | 0xD3, [b, o] => some (.sigrd h sc mask (m b o))
  | 0xD4, q :: d :: ks => some (.enq h (r.sub.getLsbD 0) sc mask q d ks)
  | 0xD5, [n] => some (.nsleep h n)
  | 0xD6, [b, o, x, n] => cc.map (fun cc => .twait h cc sc mask (m b o) x n)
  | 0xD7, [] => some (.rdclk h)
  | 0xD8, [] => some (.rdtime h)
  | 0xD9, [] => some (.yield h)
  | _, _ => none

/-- Travel, flag, counter and debug instructions (R329, R341, R394). -/
def parseSystem (r : Raw) : Option Instr :=
  let h := r.hi
  match r.op.toNat, r.slots with
  | 0xE0, xs =>
    let (pre, ts) := splitTargets xs
    (HopMode.ofCode r.sub.toNat).bind (fun m =>
      match pre, ts with
      | [], [t] => some (.hop h m none t)
      | [k], [t] => some (.hop h m (some k) t)
      | _, _ => none)
  | 0xE1, [seg] => some (.trvmapRep h seg)
  | 0xE1, [] => some (.trvmapVer h)
  | 0xE2, [n] => some (.ctrrd h n)
  | 0xE3, [n, cfg] => some (.ctrctl h (r.sub.getLsbD 0) n cfg)
  | 0xE4, [c] => some (.brkpt h c)
  | 0xE5, [c, code] => some (.assert h c code)
  | 0xE6, [] => some (.rdflag h)
  | 0xE7, [m] => some (.clrflag h m)
  | 0xE8, [] => some (.rdfev h)
  | _, _ => none

/-- The instruction whose fields stand in the raw form, reserved fields not yet looked at. -/
def Raw.parse (r : Raw) : Option Instr :=
  match r.op.toNat / 16 with
  | 0x0 => parseControl r
  | 0x1 | 0x2 => parseInt r
  | 0x3 => parseLane r
  | 0x4 | 0x5 => parseFloat r
  | 0x6 => parseSfu r
  | 0x7 => parseMoment r
  | 0x8 => parseMatrix r
  | 0x9 => parseMemory r
  | 0xB => parseRefs r
  | 0xC => parseEngines r
  | 0xD => parseSignals r
  | 0xE => parseSystem r
  | _ => none

/-- Assigned opcodes of R40 (the block header 0x0F is no instruction). -/
def opAssigned (op : Nat) : Bool :=
  decide (op ≤ 0x08) || op == 0x0F || (decide (0x10 ≤ op) && decide (op ≤ 0x2C)) || (decide (0x30 ≤ op) && decide (op ≤ 0x39))
    || (decide (0x40 ≤ op) && decide (op ≤ 0x52)) || (decide (0x60 ≤ op) && decide (op ≤ 0x69))
    || (decide (0x70 ≤ op) && decide (op ≤ 0x7B)) || (decide (0x80 ≤ op) && decide (op ≤ 0x88))
    || (decide (0x90 ≤ op) && decide (op ≤ 0x9C)) || (decide (0xB0 ≤ op) && decide (op ≤ 0xB8))
    || (decide (0xC0 ≤ op) && decide (op ≤ 0xC7)) || (decide (0xD0 ≤ op) && decide (op ≤ 0xD9))
    || (decide (0xE0 ≤ op) && decide (op ≤ 0xE8))

/-- What the decoder reads at the head of a list of words: an instruction and its length in words, or a cause (R42, R43;
the cause unsupported feature depends on the code object, and is the translator's). -/
inductive DecRes
  | ok (i : Instr) (n : Nat)
  | bad (c : Cause)
  deriving DecidableEq, Repr

/-- The decoder of portable words. -/
def decode (ws : List Word) : DecRes :=
  match ws with
  | [] => .bad .illegalEncoding
  | w :: _ =>
    if !opAssigned (w.extractLsb' 24 8).toNat then .bad .illegalOpcode
    else if w.extractLsb' 6 2 ≠ 0 then .bad .trappingHint
    else
      match readRaw ws with
      | none => .bad .illegalEncoding
      | some (r, n) =>
        match r.parse with
        | none => .bad .illegalEncoding
        | some i => if i.wf && decide (i.raw? = some r) then .ok i n else .bad .illegalEncoding

/-! ### Native slot fields -/

/-- The kinds of slot field (R158). -/
inductive SlotKind | s | v | f | l | m | a
  deriving DecidableEq, Repr

/-- Width of a slot field in bits (R158). -/
def SlotKind.bits : SlotKind → Nat
  | .s | .f | .a => 32
  | .v | .l => 40
  | .m => 24

/-- A V-slot field (R166). -/
def vBits (opc : BitVec 6) (v : VOp) : Nat :=
  (opc ++ (BitVec.ofBool v.kp ++ (v.grd ++ (v.d ++ (BitVec.ofBool v.pa ++ (v.a ++ (BitVec.ofBool v.pb ++ v.b))))))
    : BitVec 40).toNat

/-- An F-slot field (R170). -/
def fBits (opc : BitVec 4) (o : FOp) : Nat :=
  (opc ++ (o.grd ++ (o.d ++ (BitVec.ofBool o.pa ++ (o.a ++ 0#5)))) : BitVec 32).toNat

/-- An L-slot field (R171). -/
def lBits (opc : BitVec 6) (o : LOp) : Nat :=
  (opc ++ (o.grd ++ (o.dr ++ (BitVec.ofBool o.pd ++ (o.win ++ (BitVec.ofBool o.pa ++ (o.a ++ (o.sz ++ o.scp)))))))
    : BitVec 40).toNat

/-- An A-slot field (R174). -/
def aBits (opc : BitVec 6) (k : BitVec 4) (d : BitVec 9) (aux : BitVec 13) : Nat :=
  (opc ++ (k ++ (d ++ aux)) : BitVec 32).toNat

/-- V opcodes (R167). -/
def Instr.vOp? : Instr → Option (BitVec 6 × VOp)
  | .iadd v => some (0x01, v) | .isub v => some (0x02, v) | .imul v => some (0x03, v) | .imhs v => some (0x04, v)
  | .imhn v => some (0x05, v) | .imad v => some (0x06, v) | .iand v => some (0x07, v) | .ior v => some (0x08, v)
  | .ixor v => some (0x09, v) | .ishl v => some (0x0A, v) | .ishrs v => some (0x0B, v) | .ishrn v => some (0x0C, v)
  | .irotl v => some (0x0D, v) | .isel v => some (0x0E, v) | .imins v => some (0x0F, v) | .iminn v => some (0x10, v)
  | .imaxs v => some (0x11, v) | .imaxn v => some (0x12, v) | .iclz v => some (0x13, v) | .ipopc v => some (0x14, v)
  | .ibrev v => some (0x15, v) | .ibfxs v => some (0x16, v) | .ibfxn v => some (0x17, v) | .ibfi v => some (0x18, v)
  | .iaddss v => some (0x19, v) | .iaddsn v => some (0x1A, v) | .isubss v => some (0x1B, v) | .isubsn v => some (0x1C, v)
  | .iaddcp v => some (0x1D, v) | .iaddci v => some (0x1E, v) | .icmp v => some (0x1F, v) | .idivs v => some (0x20, v)
  | .idivn v => some (0x21, v) | .irems v => some (0x22, v) | .iremn v => some (0x23, v) | .vFcmp v => some (0x24, v)
  | .vFadd v => some (0x25, v) | .vFsub v => some (0x26, v) | .vFmul v => some (0x27, v) | .ffma v => some (0x28, v)
  | .vFdiv v => some (0x29, v) | .vFmin v => some (0x2A, v) | .vFmax v => some (0x2B, v) | .fcsgn v => some (0x2C, v)
  | .vFclass v => some (0x2D, v) | .vFrnd v => some (0x2E, v) | .fscl v => some (0x2F, v) | .vCvt v => some (0x30, v)
  | .rsenc v => some (0x31, v) | .rsdec v => some (0x32, v) | .xshf v => some (0x33, v) | .xbc v => some (0x34, v)
  | .xvote v => some (0x35, v) | .xblt v => some (0x36, v) | .xred v => some (0x37, v) | .xscn v => some (0x38, v)
  | .ubc v => some (0x39, v) | .rget v => some (0x3A, v) | .rset v => some (0x3B, v) | .mld v => some (0x3C, v)
  | .mst v => some (0x3D, v) | .tread v => some (0x3E, v)
  | _ => none

/-- The V operation of an opcode. -/
def vInstr (opc : Nat) (v : VOp) : Option Instr :=
  match opc with
  | 0x01 => some (.iadd v) | 0x02 => some (.isub v) | 0x03 => some (.imul v) | 0x04 => some (.imhs v)
  | 0x05 => some (.imhn v) | 0x06 => some (.imad v) | 0x07 => some (.iand v) | 0x08 => some (.ior v)
  | 0x09 => some (.ixor v) | 0x0A => some (.ishl v) | 0x0B => some (.ishrs v) | 0x0C => some (.ishrn v)
  | 0x0D => some (.irotl v) | 0x0E => some (.isel v) | 0x0F => some (.imins v) | 0x10 => some (.iminn v)
  | 0x11 => some (.imaxs v) | 0x12 => some (.imaxn v) | 0x13 => some (.iclz v) | 0x14 => some (.ipopc v)
  | 0x15 => some (.ibrev v) | 0x16 => some (.ibfxs v) | 0x17 => some (.ibfxn v) | 0x18 => some (.ibfi v)
  | 0x19 => some (.iaddss v) | 0x1A => some (.iaddsn v) | 0x1B => some (.isubss v) | 0x1C => some (.isubsn v)
  | 0x1D => some (.iaddcp v) | 0x1E => some (.iaddci v) | 0x1F => some (.icmp v) | 0x20 => some (.idivs v)
  | 0x21 => some (.idivn v) | 0x22 => some (.irems v) | 0x23 => some (.iremn v) | 0x24 => some (.vFcmp v)
  | 0x25 => some (.vFadd v) | 0x26 => some (.vFsub v) | 0x27 => some (.vFmul v) | 0x28 => some (.ffma v)
  | 0x29 => some (.vFdiv v) | 0x2A => some (.vFmin v) | 0x2B => some (.vFmax v) | 0x2C => some (.fcsgn v)
  | 0x2D => some (.vFclass v) | 0x2E => some (.vFrnd v) | 0x2F => some (.fscl v) | 0x30 => some (.vCvt v)
  | 0x31 => some (.rsenc v) | 0x32 => some (.rsdec v) | 0x33 => some (.xshf v) | 0x34 => some (.xbc v)
  | 0x35 => some (.xvote v) | 0x36 => some (.xblt v) | 0x37 => some (.xred v) | 0x38 => some (.xscn v)
  | 0x39 => some (.ubc v) | 0x3A => some (.rget v) | 0x3B => some (.rset v) | 0x3C => some (.mld v)
  | 0x3D => some (.mst v) | 0x3E => some (.tread v)
  | _ => none

/-- F functions (R170). -/
def Instr.fOp? : Instr → Option (BitVec 4 × FOp)
  | .fExp2 o => some (1, o) | .fLog2 o => some (2, o) | .fRcp o => some (3, o) | .fSqrt o => some (4, o)
  | .fRsqrt o => some (5, o) | .fSinpi o => some (6, o) | .fCospi o => some (7, o) | .fTanh o => some (8, o)
  | .fSigmoid o => some (9, o) | .fErf o => some (10, o)
  | _ => none

/-- The F function of an opcode. -/
noncomputable def fInstr (opc : Nat) (o : FOp) : Option Instr :=
  match opc with
  | 1 => some (.fExp2 o) | 2 => some (.fLog2 o) | 3 => some (.fRcp o) | 4 => some (.fSqrt o) | 5 => some (.fRsqrt o)
  | 6 => some (.fSinpi o) | 7 => some (.fCospi o) | 8 => some (.fTanh o) | 9 => some (.fSigmoid o) | 10 => some (.fErf o)
  | _ => none

/-- L opcodes (R172). -/
def Instr.lOp? : Instr → Option (BitVec 6 × LOp)
  | .ldn o => some (0x01, o) | .lds o => some (0x02, o) | .lSt o => some (0x03, o) | .ldq o => some (0x04, o)
  | .strl o => some (0x05, o) | .aadd o => some (0x06, o) | .amins o => some (0x07, o) | .aminn o => some (0x08, o)
  | .amaxs o => some (0x09, o) | .amaxn o => some (0x0A, o) | .aand o => some (0x0B, o) | .aor o => some (0x0C, o)
  | .axor o => some (0x0D, o) | .axchg o => some (0x0E, o) | .acas o => some (0x0F, o) | .pref o => some (0x10, o)
  | .fnc o => some (0x11, o) | .spst o => some (0x12, o) | .spld o => some (0x13, o) | .ldt o => some (0x14, o)
  | .stt o => some (0x15, o)
  | _ => none

/-- The L operation of an opcode. -/
noncomputable def lInstr (opc : Nat) (o : LOp) : Option Instr :=
  match opc with
  | 0x01 => some (.ldn o) | 0x02 => some (.lds o) | 0x03 => some (.lSt o) | 0x04 => some (.ldq o)
  | 0x05 => some (.strl o) | 0x06 => some (.aadd o) | 0x07 => some (.amins o) | 0x08 => some (.aminn o)
  | 0x09 => some (.amaxs o) | 0x0A => some (.amaxn o) | 0x0B => some (.aand o) | 0x0C => some (.aor o)
  | 0x0D => some (.axor o) | 0x0E => some (.axchg o) | 0x0F => some (.acas o) | 0x10 => some (.pref o)
  | 0x11 => some (.fnc o) | 0x12 => some (.spst o) | 0x13 => some (.spld o) | 0x14 => some (.ldt o)
  | 0x15 => some (.stt o)
  | _ => none

/-- A opcodes (R174). -/
def Instr.aOp? : Instr → Option (BitVec 6 × BitVec 4 × BitVec 9 × BitVec 13)
  | .aCopy k d => some (0x01, k, d, 0) | .aGather k d => some (0x02, k, d, 0) | .aScatter k d => some (0x03, k, d, 0)
  | .aColl k d => some (0x04, k, d, 0) | .aPubl k d => some (0x05, k, d, 0) | .aPost k d => some (0x06, k, d, 0)
  | .aEnq k d => some (0x07, k, d, 0) | .aSigdec k d => some (0x08, k, d, 0) | .aSigset k d => some (0x09, k, d, 0)
  | .aHop k d a => some (0x0A, k, d, a) | .aTjoin k d => some (0x0B, k, d, 0)
  | _ => none

/-- The A operation of an opcode. -/
noncomputable def aInstr (opc : Nat) (k : BitVec 4) (d : BitVec 9) (aux : BitVec 13) : Option Instr :=
  match opc with
  | 0x01 => some (.aCopy k d) | 0x02 => some (.aGather k d) | 0x03 => some (.aScatter k d) | 0x04 => some (.aColl k d)
  | 0x05 => some (.aPubl k d) | 0x06 => some (.aPost k d) | 0x07 => some (.aEnq k d) | 0x08 => some (.aSigdec k d)
  | 0x09 => some (.aSigset k d) | 0x0A => some (.aHop k d aux) | 0x0B => some (.aTjoin k d)
  | _ => none

/-- The S-slot word of an instruction (R168, R169). -/
def Instr.sBits? : Instr → Option Word
  | .sNop => some 0
  | .salu d a f => some (0x01#6 ++ (d ++ (a ++ f)))
  | .sli d i => some (0x02#6 ++ (d ++ i))
  | .slhi d i => some (0x03#6 ++ (d ++ i))
  | .sbr o => some (0x04#6 ++ (0#4 ++ o))
  | .sbrc c o => some (0x05#6 ++ (1#1 ++ (c ++ o)))
  | .sjoin => some (0x06#6 ++ 0#26)
  | .scall o => some (0x07#6 ++ (0#4 ++ o))
  | .sret => some (0x08#6 ++ 0#26)
  | .sexit => some (0x09#6 ++ 0#26)
  | .strap c => some (0x0A#6 ++ (0#13 ++ c))
  | .sloop n e r l => some (0x0B#6 ++ (n ++ (e ++ (r ++ l))))
  | .ssetfm f => some (0x0C#6 ++ (0#21 ++ f))
  | .sxset x b l p => some (0x0D#6 ++ (x ++ (b ++ (l ++ (BitVec.ofBool p ++ 0#8)))))
  | .sxidx x u => some (0x0E#6 ++ (x ++ (u ++ 0#15)))
  | .sacq n => some (0x0F#6 ++ (0#24 ++ n))
  | .srel => some (0x10#6 ++ 0#26)
  | .skwait t => some (0x11#6 ++ (0#22 ++ t))
  | .skest d t => some (0x12#6 ++ (d ++ (0#5 ++ (t ++ 0#8))))
  | .sbar u k => some (0x13#6 ++ (0#8 ++ (u ++ (0#7 ++ k))))
  | .ssys u o => some (0x14#6 ++ (0#13 ++ (u ++ o)))
  | .sv2s d a => some (0x15#6 ++ (d ++ (a ++ 0#8)))
  | _ => none

/-- The S operation whose fields stand in a word. -/
def sParse (w : Word) : Option Instr :=
  let d := w.extractLsb' 17 9
  let a := w.extractLsb' 8 9
  match (w.extractLsb' 26 6).toNat with
  | 0x00 => some .sNop
  | 0x01 => some (.salu d a (w.extractLsb' 0 8))
  | 0x02 => some (.sli d (w.extractLsb' 0 17))
  | 0x03 => some (.slhi d (w.extractLsb' 0 17))
  | 0x04 => some (.sbr (w.extractLsb' 0 22))
  | 0x05 => some (.sbrc (w.extractLsb' 22 3) (w.extractLsb' 0 22))
  | 0x06 => some .sjoin
  | 0x07 => some (.scall (w.extractLsb' 0 22))
  | 0x08 => some .sret
  | 0x09 => some .sexit
  | 0x0A => some (.strap (w.extractLsb' 0 13))
  | 0x0B => some (.sloop (w.extractLsb' 24 2) (w.extractLsb' 21 3) (w.extractLsb' 12 9) (w.extractLsb' 0 12))
  | 0x0C => some (.ssetfm (w.extractLsb' 0 5))
  | 0x0D => some (.sxset (w.extractLsb' 24 2) (w.extractLsb' 15 9) (w.extractLsb' 9 6) (w.getLsbD 8))
  | 0x0E => some (.sxidx (w.extractLsb' 24 2) (w.extractLsb' 15 9))
  | 0x0F => some (.sacq (w.extractLsb' 0 2))
  | 0x10 => some .srel
  | 0x11 => some (.skwait (w.extractLsb' 0 4))
  | 0x12 => some (.skest d (w.extractLsb' 8 4))
  | 0x13 => some (.sbar (w.extractLsb' 9 9) (w.extractLsb' 0 2))
  | 0x14 => some (.ssys (w.extractLsb' 4 9) (w.extractLsb' 0 4))
  | 0x15 => some (.sv2s d a)
  | _ => none

/-- The M-slot word of an instruction (R173). -/
def Instr.mBits? : Instr → Option (BitVec 24)
  | .mNop => some 0
  | .tstep t k f => some (1#4 ++ (t ++ (k ++ (f ++ 0#10))))
  | .tlatch t k f => some (2#4 ++ (t ++ (k ++ (f ++ 0#10))))
  | .twr t k f j => some (3#4 ++ (t ++ (k ++ (0#2 ++ (BitVec.ofBool f ++ (j ++ 0#5))))))
  | .tzero t k => some (4#4 ++ (t ++ (k ++ 0#13)))
  | _ => none

/-- The M operation whose fields stand in a word. -/
noncomputable def mParse (w : BitVec 24) : Option Instr :=
  let t := w.extractLsb' 17 3
  let k := w.extractLsb' 13 4
  match (w.extractLsb' 20 4).toNat with
  | 0 => some .mNop
  | 1 => some (.tstep t k (w.extractLsb' 10 3))
  | 2 => some (.tlatch t k (w.extractLsb' 10 3))
  | 3 => some (.twr t k (w.getLsbD 10) (w.extractLsb' 5 5))
  | 4 => some (.tzero t k)
  | _ => none

/-- The slot kind and the bits of a native operation. -/
def Instr.slot? (i : Instr) : Option (SlotKind × Nat) :=
  match i with
  | .vNop => some (.v, 0)
  | .fNop => some (.f, 0)
  | .lNop => some (.l, 0)
  | .aNop => some (.a, 0)
  | .sscl g k t pa a =>
      some (.f, (0xB#4 ++ (g ++ (0#2 ++ (k ++ (t ++ (BitVec.ofBool pa ++ (a ++ 0#5)))))) : BitVec 32).toNat)
  | i =>
    match i.vOp?, i.fOp?, i.lOp?, i.aOp?, i.sBits?, i.mBits? with
    | some (c, v), _, _, _, _, _ => some (.v, vBits c v)
    | _, some (c, o), _, _, _, _ => some (.f, fBits c o)
    | _, _, some (c, o), _, _, _ => some (.l, lBits c o)
    | _, _, _, some (c, k, d, aux), _, _ => some (.a, aBits c k d aux)
    | _, _, _, _, some w, _ => some (.s, w.toNat)
    | _, _, _, _, _, some w => some (.m, w.toNat)
    | _, _, _, _, _, _ => none

/-- The operation whose fields stand in a slot, reserved fields not yet looked at. -/
noncomputable def slotParse (k : SlotKind) (n : Nat) : Option Instr :=
  match k with
  | .s => sParse (BitVec.ofNat 32 n)
  | .m => mParse (BitVec.ofNat 24 n)
  | .v =>
    let w : BitVec 40 := BitVec.ofNat 40 n
    if n = 0 then some .vNop else
    vInstr (w.extractLsb' 34 6).toNat
      { kp := w.getLsbD 33, grd := w.extractLsb' 29 4, d := w.extractLsb' 20 9, pa := w.getLsbD 19,
        a := w.extractLsb' 10 9, pb := w.getLsbD 9, b := w.extractLsb' 0 9 }
  | .f =>
    let w : Word := BitVec.ofNat 32 n
    if n = 0 then some .fNop else
    let opc := (w.extractLsb' 28 4).toNat
    if opc = 0xB then some (.sscl (w.extractLsb' 24 4) (w.extractLsb' 18 4) (w.extractLsb' 15 3) (w.getLsbD 14)
      (w.extractLsb' 5 9))
    else fInstr opc { grd := w.extractLsb' 24 4, d := w.extractLsb' 15 9, pa := w.getLsbD 14, a := w.extractLsb' 5 9 }
  | .l =>
    let w : BitVec 40 := BitVec.ofNat 40 n
    if n = 0 then some .lNop else
    lInstr (w.extractLsb' 34 6).toNat
      { grd := w.extractLsb' 30 4, dr := w.extractLsb' 21 9, pd := w.getLsbD 20, win := w.extractLsb' 16 4,
        pa := w.getLsbD 15, a := w.extractLsb' 6 9, sz := w.extractLsb' 3 3, scp := w.extractLsb' 0 3 }
  | .a =>
    let w : Word := BitVec.ofNat 32 n
    if n = 0 then some .aNop else
    aInstr (w.extractLsb' 26 6).toNat (w.extractLsb' 22 4) (w.extractLsb' 13 9) (w.extractLsb' 0 13)

/-- The decoder of a slot field: none is the illegal-bundle trap (R160). -/
noncomputable def decodeSlot (k : SlotKind) (n : Nat) : Option Instr :=
  match slotParse k n with
  | none => none
  | some i => if i.wf && decide (i.slot? = some (k, n)) then some i else none

/-! ### The encoder -/

/-- The words of a well-formed instruction: portable words, or the words of the slot field that holds a native operation,
low word first; a machine step has no words. -/
def encode (i : Instr) : List Word :=
  match i.raw? with
  | some r => r.words
  | none =>
    match i.slot? with
    | some (.v, n) | some (.l, n) => [BitVec.ofNat 32 n, BitVec.ofNat 32 (n / 2 ^ 32)]
    | some (_, n) => [BitVec.ofNat 32 n]
    | none => []

/-- What the decoders read in an instruction of nbits bits whose bits are w, operand words zero: 24 bits an M slot, 40 bits
a V or L slot, 32 bits portable words, else an S, F or A slot. -/
noncomputable def decodeTableWord (nbits w : Nat) : Option Instr :=
  if nbits = 24 then decodeSlot .m w
  else if nbits = 40 then
    (match decodeSlot .v w with
     | some i => some i
     | none => decodeSlot .l w)
  else
    match decode (BitVec.ofNat 32 w :: List.replicate 600 0) with
    | .ok i _ => some i
    | .bad _ =>
      match decodeSlot .s w with
      | some i => some i
      | none =>
        match decodeSlot .f w with
        | some i => some i
        | none => decodeSlot .a w

end Sys2Proof
end

