-- ==== Sys2Proof/Config.lean ====
section
/-! DEFINITION. What an implementation fixes, and the free values: constants without a body, which nothing can evaluate. -/

namespace Sys2Proof.Config

/-- Item i of the n-th open choice of a run, a number (log entry 3). -/
opaque freeNat : (n i : Nat) → Nat
/-- Item i of the n-th open choice, a bit (log entry 3). -/
opaque freeBool : (n i : Nat) → Bool
/-- Item i of the n-th open choice, a byte (log entry 3). -/
opaque freeByte : (n i : Nat) → Byte
/-- How many free choices of what comes next may stand between two turns (R6; log entry 84). -/
opaque fairBound : Nat
/-- What a byte of device memory at key a, written under key (oc, og), reads as under key (rc, rg) (R358; log entry 7). -/
opaque cipherByte : (a oc og rc rg : Nat) → Byte → Byte
/-- Whether an image carries a valid RSA-3072 signature (R376; log entry 30). -/
opaque signatureValid : List Byte → Bool
/-- The bytes of an SPDM response to a request, given the four measurements (R374; log entry 31). -/
opaque spdmResponse : Nat → List Byte → List Byte → List Byte
/-- The bytes of a PLDM response to a request (R378; log entry 31). -/
opaque pldmResponse : Nat → List Byte → List Byte
/-- The firmware that the measurements of R374 digest, by index 1, 2 and 4, given the image activated last (log entry 31). -/
opaque firmwareImage : Nat → Option (List Byte) → List Byte
/-- The part number and serial number of the capability record 0x0001 (R372; log entry 32). -/
opaque identity : List Byte
/-- The 384-byte signature of the capability table (R372; log entry 32). -/
opaque capSignature : List Byte → List Byte
/-- The `.object`s that an ELF file's data section holds, in order: the 64-byte line it begins at, words, LEAF, and the words that are
references with the number of the `.object` they name. The spec gives no ELF form for them (R248; log entry 34). -/
opaque elfObjects : List Byte → List (Nat × Nat × Bool × List (Nat × Nat))
/-- The junction temperature of a die at an instant, in degrees (R377; log entry 33). -/
opaque temperature : Nat → Nat → Nat
/-- The module power averaged over the 1 s before an instant, in W (R377; log entry 33). -/
opaque power : Nat → Nat
/-- The highest 10 µs average of the module power between two instants, in W (R377; log entry 33). -/
opaque powerPeak : (t0 t1 : Nat) → Nat
/-- Whether a die passes its test at the end of bring-up (R407; log entry 36). -/
opaque diePasses : Nat → Bool
/-- The errata records that firmware appends to the capability table (R373; log entry 32). -/
opaque errata : List Byte

/-- What the spec leaves free of the native sequence of a portable instruction, given the die kind, the accumulator mode, where its operand
slots are read, where its result goes and where the header arguments of each target stand: location code, PAIR, number. Part 0 stands
before the fixed operations and part 1 after them, part 2 is the sequence where none is fixed, as slot numbers and fields; part 3 + k
fills the free bits of fixed operation k (log entry 60). -/
opaque lower : (isN : Bool) → (amode part : Nat) → Instr → (ops : List (Nat × Bool × Nat)) → (dst : Option (Nat × Bool × Nat)) →
  (args : List (List (Nat × Bool × Nat))) → List (Nat × Nat)
/-- The sequence that forms the trip count of a counted loop, and its uniform register, given the loop's compare and the instructions that
step its induction values, each with its operand locations (R146; log entry 60). -/
opaque lowerTrip : (isN : Bool) → Instr × List (Nat × Bool × Nat) → List (Instr × List (Nat × Bool × Nat)) → List (Nat × Nat) × Nat
/-- The register beyond the budget through which a value passes on its way to a spill slot, vector or uniform (log entry 60). -/
opaque scratch : (isN uniform : Bool) → Nat

/-- Latency class and rate figures change time only (R4): the length of a module tick in ns of R317. -/
def timeStep : Nat := 10

end Sys2Proof.Config
end

