-- ==== Sys2Proof/Machine/NMap.lean ====
section
/-! DEFINITION. Sparse storage: a list of (key, value) pairs in one canonical form, keys strictly rising and no value equal
to what an unlisted key reads as. -/

namespace Sys2Proof.Machine

/-- Sparse storage keyed by numbers. -/
abbrev NMap (α : Type) := List (Nat × α)

/-- The value at key k; d at a key that is not listed. -/
def NMap.get {α : Type} (d : α) : NMap α → Nat → α
  | [], _ => d
  | (k', v) :: r, k => if k = k' then v else if k < k' then d else NMap.get d r k

/-- Writes v at key k; writing d removes the entry. -/
def NMap.set {α : Type} [DecidableEq α] (d : α) : NMap α → Nat → α → NMap α
  | [], k, v => if v = d then [] else [(k, v)]
  | (k', v') :: r, k, v =>
    if k < k' then (if v = d then (k', v') :: r else (k, v) :: (k', v') :: r)
    else if k = k' then (if v = d then r else (k, v) :: r)
    else (k', v') :: NMap.set d r k v

/-- Every key of the map is above lo, the keys rise strictly, and no value is d. -/
def NMap.wfFrom {α : Type} [DecidableEq α] (d : α) : Option Nat → NMap α → Bool
  | _, [] => true
  | lo, (k, v) :: r => (match lo with | none => true | some l => decide (l < k)) && decide (v ≠ d) && NMap.wfFrom d (some k) r

/-- The canonical form. -/
def NMap.wf {α : Type} [DecidableEq α] (d : α) (m : NMap α) : Bool := NMap.wfFrom d none m

/-- Drops every entry whose key fails p. -/
def NMap.keep {α : Type} (p : Nat → Bool) (m : NMap α) : NMap α := m.filter (fun e => p e.1)

/-- Applies f to every listed value, dropping those that become d. -/
def NMap.mapVals {α : Type} [DecidableEq α] (d : α) (f : Nat → α → α) (m : NMap α) : NMap α :=
  m.filterMap (fun e => if f e.1 e.2 = d then none else some (e.1, f e.1 e.2))

/-- The element at index i of a list, d beyond its end. -/
def nth {α : Type} (d : α) (l : List α) (i : Nat) : α := l.getD i d

/-- Replaces the element at index i by f of it; nothing beyond the end. -/
def modifyAt {α : Type} (f : α → α) : List α → Nat → List α
  | [], _ => []
  | a :: r, 0 => f a :: r
  | a :: r, i + 1 => a :: modifyAt f r i

end Sys2Proof.Machine
end

