-- ==== Sys2Proof/Machine/State.lean ====
section
/-! DEFINITION. The state of the module as plain data, and the state after reset. -/

namespace Sys2Proof.Machine
open Sys2Proof

/-- Why the machine stops. No rule of the spec stops the module: every fault of R384 is taken in a next state. -/
inductive Fault
  /-- Raised by no meaning: storage outside the module's map. Safe. -/
  | noStorage (a : Nat)
  deriving DecidableEq, Repr

/-- Why the model answers without a next state. -/
inductive Refusal
  /-- An instruction that has no meaning yet, by its mnemonic. Safe. -/
  | notModelled (mnemonic : String)
  /-- Raised by a portable or native instruction executed in a state in which no side of a group issues: the spec gives
  no such event, and step never executes one there (log entry 10). Safe. -/
  | noIssuer
  deriving DecidableEq, Repr

/-! ### Values, frames and sides of a portable group -/

/-- One lane's value (R18): bits in the low bits, a ref with its tag, a register array, a token, the tile set. -/
inductive Val
  | bits (x : DWord)
  | ref (x : DWord) (tag : Bool)
  | arr (es : List DWord)
  | tok (e : Nat)
  | acc
  deriving DecidableEq, Repr

/-- The view of the sticky flags word and the first-event record (R63, R64, R65). -/
structure View where
  flags : Word
  fev : DWord
  deriving DecidableEq, Repr

/-- One call frame (R72, R73): its function, where it stands, and every value by number, a list of 128 lanes each. -/
structure Frame where
  /-- address of the function's FHDR -/
  fn : Nat
  /-- portable address of the next instruction -/
  pc : Nat
  /-- the number the next defining instruction receives (R16) -/
  next : Nat
  vals : NMap (List Val)
  /-- return values of the last call, kept for `copy.v.ret` (R72) -/
  rets : List (List Val)
  /-- the translation it runs under -/
  xlat : Option Nat := none
  deriving DecidableEq, Repr

/-- One divergence a side belongs to: its number, where the sides rejoin (none: at the function's return), the call
depth of the branch, and the side's lowest active lane at the branch (R65, R71, R148). -/
structure Join where
  id : Nat
  at? : Option Nat
  depth : Nat
  low : Nat
  /-- false of a join that the side has only from one merged into it at a segment exit: no rejoin point of its own (R327) -/
  own : Bool := true
  deriving DecidableEq, Repr

/-- What a rollback restores of a side (R388). -/
structure SideCore where
  mask : Mask
  frames : List Frame
  view : View
  joins : List Join
  deriving DecidableEq, Repr

/-- What a waiting instruction carries to its re-execution (R147, R313). -/
inductive Pend
  | none
  /-- the phase of a performed arrival of `bar` (R264) -/
  | phase (ph : Word)
  /-- the deadline of a `twait` or `nsleep`, on the time base (R313, R316) -/
  | deadline (t : Nat)
  /-- the value that satisfied a watch, and the deadline kept (R311) -/
  | hit (v : DWord)
  /-- a wait that has ended -/
  | done
  deriving DecidableEq, Repr

/-- Where a side stands. -/
inductive SideStatus
  | running
  /-- parked at the join of its innermost divergence -/
  | parked
  /-- parked at a segment exit to a block of the function (R327): target address and target segment, replica key -/
  | atExit (target seg : Nat) (mode : HopMode) (key : Word)
  | ended
  deriving DecidableEq, Repr

/-- An operation gated in the store buffer until the region commits (R181). Storage addresses are unified keys. -/
inductive GOp
  /-- a lane's plain store -/
  | store (lane : Nat) (a : Nat) (bs : List Byte)
  /-- a lane's release store, with its storage mask and scope (R216) -/
  | relStore (lane : Nat) (a : Nat) (bs : List Byte) (mask scope : BitVec 3)
  /-- a release fence of some lanes: their accesses before it go before their stores after it (R216) -/
  | fence (m : Mask) (mask scope : BitVec 3)
  /-- `stref`, `unref`: an 8-byte word with its tag -/
  | refStore (lane : Nat) (a : Nat) (w : DWord) (tag : Bool)
  /-- `objinit`: header word, span in lines, stamp -/
  | objInit (lane : Nat) (a : Nat) (w : DWord) (lines : Nat) (stamp : Half)
  /-- `objinit.retire`: span in lines -/
  | objRetire (lane : Nat) (a : Nat) (lines : Nat)
  /-- `unref`: the tag of a reference is cleared -/
  | untag (lane : Nat) (a : Nat)
  /-- an engine instruction -/
  | engine (e : Nat)
  /-- `ctrctl` (R396) -/
  | ctrctl (n : Nat) (cfg : Word) (clear : Bool)
  /-- `accrel` (R415) -/
  | accrel
  /-- the tag that the spill unit keeps beside a slot pair (R151, R386) -/
  | spillTag (lane : Nat) (a : Nat) (t : Bool)
  /-- `brkpt` (R397): code and address -/
  | brkpt (code : Nat) (pc : Nat)
  deriving DecidableEq, Repr

/-- A store that its region's MARK has passed and that has not been performed yet (R223), or a release fence among them; owed: the widest
scope whose agents must find it performed (R219; log entry 14). -/
structure Held where
  op : GOp
  owed : Nat
  deriving DecidableEq, Repr

/-- A read that a lane has performed before the load in program order that may return it (R217; log entry 14): storage key and bytes;
wrote: the narrowest scope of the lane that holds an agent which has written there since, 6 while none has. -/
structure Early where
  lane : Nat
  a : Nat
  bs : List Byte
  tag : Bool
  wrote : Nat
  deriving DecidableEq, Repr

/-- States of an accumulator tile (R118). -/
inductive TileSt | heldIdle | heldBusy | saved | lost
  deriving DecidableEq, Repr

/-- One tile of a held set (R114): elements, residue words, counter, scales; last completion token; writes in flight; the
elements that ECC has poisoned (R398, R400). -/
structure Tile where
  st : TileSt
  /-- the owner tags of its 64 rows (R118, R359) -/
  owner : List Nat
  el : NMap Word
  res : NMap Word
  ctr : Nat
  eA : NMap Int
  eB : NMap Int
  lastTok : Option Nat
  flight : List Nat
  bad : List Nat
  deriving DecidableEq, Repr

/-- The set of tiles a group holds (R115). -/
structure AccSet where
  tiles : List Tile
  /-- pool slots of tiles saved for travel (R135) -/
  pool : List Nat
  deriving DecidableEq, Repr

/-- A watch registered at an execution point (R311). -/
structure Watch where
  a : Nat
  cond : Cond
  x : DWord
  deadline : Option Nat
  hit : Option DWord
  deriving DecidableEq, Repr

/-- What a Waiting group waits for (R147, R295). -/
inductive Wait
  | translation (x : Nat)
  | tokens (es : List Nat)
  | accAcq (n : Nat)
  | tile (t : Option Nat)
  | restore
  | barrier (n : Nat) (ph : Word)
  | signal (w : Watch)
  | sleep (t : Nat)
  /-- candidates still to dispatch, and the clock that ends the yield (R318) -/
  | yielding (others : List Nat) (clk : Nat)
  | claim (w : Nat)
  | tokenFree
  | exit
  deriving DecidableEq, Repr

/-- A side of a group with its open restart region (R385). -/
structure Side where
  core : SideCore
  status : SideStatus
  pend : Pend
  /-- state at the last MARK -/
  mark : SideCore
  markPend : Pend
  markTiles : Option AccSet
  gated : List GOp
  /-- instructions executed since the MARK -/
  age : Nat
  /-- consecutive timing replays of the region (R399) -/
  replays : Nat
  /-- bundles of the region that have not passed the timing check (R387, R399) -/
  unchecked : Nat
  /-- dispatches since the side was last moved, while the divergence stack held a side (R298) -/
  turns : Nat
  /-- the instruction that a watchpoint stopped, for which watchpoints are ignored once (R365) -/
  skipWatch : Option Nat
  /-- the hook at the side's address has stopped it once (R364) -/
  skipHook : Bool
  /-- what the side waits for while another side of its group runs, and since when (R263, R298) -/
  hold : Option (Wait × Nat) := none
  deriving DecidableEq, Repr

/-- States of a group (R295). -/
inductive GSt
  | ready
  | waiting (w : Wait) (since : Nat)
  | suspended
  | travelling
  | ended
  deriving DecidableEq, Repr

/-! ### Native state of a group (R161) -/

/-- The seven slots of a bundle (R158). -/
inductive Slot | s | v0 | v1 | f | l | m | a
  deriving DecidableEq, Repr

/-- A window register (R196). -/
structure Win where
  vbase : Nat
  frame : Nat
  limit : Nat
  space : Nat
  rd : Bool
  wr : Bool
  /-- bytes of the page -/
  size : Nat
  /-- the bound pair was written since the window was set (R195) -/
  stale : Bool
  deriving DecidableEq, Repr

/-- An index register (R176). -/
structure Idx where
  base : Nat
  len : Nat
  pair : Bool
  idx : Word
  deriving DecidableEq, Repr

/-- A loop counter (R169): iterations left of n + E, trip count, head bundle, body length. -/
structure Loop where
  on : Bool
  iter : Nat
  trip : Nat
  total : Nat
  head : Nat
  len : Nat
  deriving DecidableEq, Repr

/-- A divergent branch that a native side belongs to: the side's lowest active lane at the branch, the bundle of the join at which its
sides meet, and the call depth (R65, R71, R177). -/
structure NBranch where
  low : Nat
  join : Nat
  depth : Nat
  deriving DecidableEq, Repr

/-- The first event of one slot stream (R184): the count of its bundle in dispatch order, its portable address, bundle index,
lane and flags. -/
structure NEvent where
  slot : Slot
  count : Nat
  port : Nat
  bundle : Nat
  lane : Nat
  flags : BitVec 7
  deriving DecidableEq, Repr

/-- A native PC slot or divergence-stack entry (R177). -/
structure PcSlot where
  pc : Nat
  mask : Mask
  rejoin : Nat
  view : View
  /-- the native first-event record, by slot stream (R184) -/
  events : List NEvent
  /-- parked at the join at a bundle, since a bundle count -/
  parked : Option (Nat × Nat)
  /-- bundles dispatched since the side was last moved, while the divergence stack held a side (R298) -/
  turns : Nat
  /-- return bundles of `scall` and the bytes of their frames (R169) -/
  calls : List (Nat × Nat)
  /-- the branches that it has come through, the outermost first (R65) -/
  path : List NBranch
  /-- the last bundle of its region has been dispatched, and its committing operation performed (R181) -/
  closed : Bool
  comm : Bool
  deriving DecidableEq, Repr

/-- A register named by a pending write (R162). -/
inductive Reg
  | g (n : Nat)
  | s (n : Nat)
  /-- half of a moment register, the variance when hi -/
  | m (n : Nat) (hi : Bool)
  /-- BASE, L and PAIR of an index register, and its IDX -/
  | x (n : Nat)
  | xi (n : Nat)
  | fmw
  /-- an operand buffer: 0 of V0, 1 of V1 -/
  | buf (n : Nat)
  /-- a push of the predicate register -/
  | push
  deriving DecidableEq, Repr

/-- A result not yet settled by a SYNC: the producing slot, PC slot and bundle, the bundle count at which its own stream
reads it, the lanes written and their bits (R162, R163, R180). An L result that has not arrived is late (R179). -/
structure PendW where
  slot : Slot
  side : Nat
  bundle : Nat
  ready : Nat
  reg : Reg
  mask : Mask
  vals : List DWord
  late : Bool
  deriving DecidableEq, Repr

/-- The native registers (R161). -/
structure NRegs where
  g : NMap (List Word)
  s : NMap Word
  m : NMap (List DWord)
  /-- predicate depths 0 to 7 -/
  preds : List Mask
  x : List Idx
  lc : List Loop
  fmw : BitVec 5
  /-- the owner tag of the group slot's state, and of each vector and moment register (R359) -/
  owner : Nat
  gOwn : NMap Nat
  mOwn : NMap Nat
  deriving DecidableEq, Repr

/-- An old value that a region shadows, for the lanes the region wrote (R181). -/
inductive Shadow
  | vec (side n : Nat) (m : Mask) (old : List Word)
  | uni (side n : Nat) (old : Word)
  | mom (side n : Nat) (m : Mask) (old : List DWord)
  | preds (side : Nat) (m : Mask) (old : List Mask)
  /-- index registers, loop counters and FMW -/
  | ctl (side : Nat) (x : List Idx) (lc : List Loop) (fmw : BitVec 5)
  | tok (side n : Nat) (old : Option Nat)
  deriving DecidableEq, Repr

/-- One queue entry of a slot stream (R162): the bundle's number in dispatch order and its index, the PC slot, and the mask,
the predicates and the interlocked mode as they stood at dispatch; the operation's bits. -/
structure NEntry where
  bundle : Nat
  pc : Nat
  side : Nat
  mask : Mask
  preds : List Mask
  il : Bool
  word : Nat
  deriving DecidableEq, Repr

/-- A live-map index entry of a side table (R184) with its records: value, location code, pair, number (R185). -/
structure LiveMap where
  bundle : Nat
  exit : Bool
  port : Nat
  recs : List (Nat × Nat × Bool × Nat)
  deriving DecidableEq, Repr

/-- The native state of a group (R161, R181), and what it reads of its translation: the base of its bundles in the core's
instruction store, and its side table (R183, R184). -/
structure Native where
  regs : NRegs
  slots : List (Option PcSlot)
  stack : List PcSlot
  /-- PC slots and stack as of their MARKs -/
  markSlots : List (Option PcSlot)
  markStack : List PcSlot
  /-- results unsettled when a region opened, counted from that bundle -/
  markPend : List PendW
  /-- the views of sides whose threads have ended and that have not reached their rejoin, with the branches they came through (R65) -/
  gone : List (List NBranch × View)
  shadow : List Shadow
  /-- operand buffers of V0 and V1 -/
  buf0 : List Word
  buf1 : List Word
  win : List Win
  /-- engine-instruction numbers held in k0 to k15 -/
  k : List (Option Nat)
  pend : List PendW
  queue : List (List NEntry)
  /-- gated operations with their PC slot, and each PC slot's count of entries in the store buffer -/
  gated : List (Nat × GOp)
  ngated : List Nat
  /-- bundles dispatched; a stream has issued all of them but those in its queue -/
  bundles : Nat
  /-- each `tlatch` awaiting its `tstep`: tile, format, V0 and V1 words (R173) -/
  latch : List (Nat × Nat × List Word × List Word)
  base : Nat
  /-- its side table, byte for byte -/
  table : List Byte
  deriving DecidableEq, Repr

/-! ### Groups, blocks, launches -/

/-- States of a token (R266). -/
inductive TokSt
  | pending
  | complete
  | failed (c : Cause) (origin : Nat)
  deriving DecidableEq, Repr

/-- A token of a group: the number of the engine instruction or tile write it stands for, and its state. -/
structure Tok where
  e : Nat
  st : TokSt
  /-- of a Complete token: the masks and scopes of the engine instructions whose accesses a wait on it orders (R216) -/
  cover : List (BitVec 3 × BitVec 3) := []
  deriving DecidableEq, Repr

/-- A group (R12, R295). -/
structure Group where
  block : Nat
  gid : Nat
  /-- module core number and resident slot -/
  core : Nat
  slot : Nat
  resident : Bool
  stamp : Half
  st : GSt
  /-- the side whose instruction waits, the last of all; the others' waits stand in the sides -/
  wside : Nat
  sides : List Side
  toks : List Tok
  acc : Option AccSet
  native : Option Native
  /-- log entry number of a held fault (R392) -/
  held : Option Nat
  /-- a STEP runs it alone: whether it has executed an instruction yet (R364) -/
  stepping : Option Bool
  /-- local offset and bytes of the spill area in the core's scratchpad (R151) -/
  spill : Nat
  spillLen : Nat
  /-- handler group of a post (R342) -/
  handler : Bool
  seg : Nat
  rank : Nat
  translation : Option Nat
  /-- a context-fatal or block-fatal end waits for the next MARK (R384) -/
  doomed : Option Cause
  /-- committed stores still to be performed, in program order (R217, R223) -/
  wbuf : List Held
  /-- reads performed early, oldest first (R217) -/
  early : List Early
  deriving DecidableEq, Repr

/-- States of a block (R294). -/
inductive BSt | running | suspended | draining | done | failed
  deriving DecidableEq, Repr

/-- A placed block. Barrier arrivals are counted per thread: key = barrier × 32,768 + thread (R262). -/
structure Block where
  launch : Nat
  bid : Nat
  /-- module core number of rank 0 -/
  core : Nat
  st : BSt
  arrivals : NMap Nat
  ended : NMap Bool
  /-- local scratchpad offset of the block's part on each core -/
  part : Nat
  deriving DecidableEq, Repr

/-- A travel descriptor as copied at acceptance (R323), and the launch's travel state. -/
structure Travel where
  smap : Nat
  rsrv : DWord
  pbase : Nat
  psize : Nat
  least : Bool
  msig : Nat
  /-- the working map and VER (R335) -/
  mapw : List DWord
  ver : Nat
  holds : Bool
  /-- per core of the map: since when its ring has been above the replication line (R340) -/
  above : NMap Nat
  /-- RTAIL and RHEAD of its cores' rings, saved while it is suspended (R343) -/
  rings : List (Nat × Nat × Nat) := []
  deriving DecidableEq, Repr

/-- An accepted launch (R289). -/
structure Launch where
  ctx : Nat
  queue : Nat
  entry : Nat
  prio : Nat
  obj : Nat
  kaddr : Nat
  nblk : Nat
  ntid : Nat
  budget : Nat
  crewLog : Nat
  amode : Nat
  fev : Bool
  dies : BitVec 4
  frame : Nat
  params : List Byte
  csig : Nat
  travel : Option Travel
  /-- unplaced blocks: cluster, first, one past the last (R290) -/
  ranges : List (Nat × Nat × Nat)
  finished : Nat
  complete : Bool
  /-- time at which its next block of a cluster began to wait (R293) -/
  waiting : List (Nat × Nat)
  deriving DecidableEq, Repr

/-- A record of travel that waits on a core (R330, R337): kind (1 traveller, 2 post, 3 start, 0 a group that R337 suspended),
the group that it carries, bytes, and where it stands: the ring's byte count at its start, or the offset in the parking
region. The records of a core stand in the order in which they start. -/
structure Rec where
  kind : Nat
  launch : Nat
  group : Nat
  core : Nat
  rlen : Nat
  inRing : Bool
  at_ : Nat
  deriving DecidableEq, Repr

/-! ### Engines and walks -/

/-- What an engine instruction does (R265 to R278, R309, R315, R243). Addresses are virtual. -/
inductive EngKind
  | copy (dirty tag : Bool) (dst src len rows ds ss : Nat)
  | gather (pk : Nat) (xs : List (Nat × Nat)) (e : Nat)
  | scatter (pk : Nat) (xs : List (Nat × Nat)) (e : Nat)
  | coll (kind : CollKind) (op : CollOp) (t : Ty) (dst src cnt grp seq : Nat)
  | publ (w : Nat)
  | post (g : Nat)
  | enq (q : Nat) (d : Nat) (barrier : Bool)
  | sigdec (a : Nat) (v : DWord)
  | sigset (a : Nat) (v : DWord)
  | tjoin
  /-- a tile write: mma, accwr, acczero, ldscale -/
  | tile (t : Nat)
  deriving DecidableEq, Repr

/-- States of an engine instruction. -/
inductive EngSt | gated | issued | started | finished
  deriving DecidableEq, Repr

/-- A 4-byte word of a part: its storage keys, its bytes as the engine obtains them, and the tag of the word that holds its source. -/
structure EWord where
  src : Nat
  dst : Nat
  bytes : List Byte
  tag : Bool
  deriving DecidableEq, Repr

/-- An engine instruction in flight (R221, R266). -/
structure Eng where
  id : Nat
  ctx : Nat
  group : Nat
  kind : EngKind
  scope : BitVec 3
  mask : BitVec 3
  deps : List Nat
  origin : Nat
  st : EngSt
  /-- time of the last part performed (R304), or of the start of a collective (R276) -/
  since : Nat
  /-- the parts of a transfer or collective that have been performed, by number -/
  done : List Nat
  /-- the scratchpad words that a masked copy-back has copied (R270) -/
  wrote : List Nat
  /-- the parts of a transfer that have been read and are still to be written (R222) -/
  buf : List (Nat × List EWord) := []
  deriving DecidableEq, Repr

/-- A RoCEv2 message of the host or a peer to a context's memory (R225): a write's bytes, or none of a read; the numbers of its parts still
to be performed, and what the others of a read obtained. -/
structure Msg where
  ctx : Nat
  a : Nat
  n : Nat
  data : Option (List Byte)
  rest : List Nat
  got : List (Nat × List Byte)
  deriving DecidableEq, Repr

/-- Phases of a walk (R243 to R245). -/
inductive WalkSt | claiming | failed | claimed | marked | stored
  deriving DecidableEq, Repr

/-- A Fixer walk: the objects claimed and widened in order, by header address, and the walks it waits on with the objects
recorded against each. Its queue of objects to scan, the body that it scans (storage key, next word, length), and the objects to visit;
whether its `publ` has gone on, and why its claim phase has failed. Its side is known by its lowest lane. -/
structure Walk where
  id : Nat
  group : Nat
  side : Nat
  ctx : Nat
  stamp : Half
  scope : BitVec 3
  root : DWord
  slot : Nat
  eng : Nat
  claimed : List Nat
  widened : List Nat
  waits : List (Nat × List Nat)
  queue : List Nat
  scan : Option (Nat × Nat × Nat)
  visits : List Nat
  released : Bool
  fault : Option (Cause × Nat)
  st : WalkSt
  deriving DecidableEq, Repr

/-! ### Translations, code objects, contexts, queues -/

/-- Outcome of a translation (R43, R140). -/
inductive XSt
  /-- requested, behind earlier requests to the same translator (R155) -/
  | queued
  | inProgress
  /-- written: spill slots S and divergence stack entries of R151 -/
  | ok (slots stk : Nat)
  /-- byte offset of the failing word from the image, and the cause -/
  | failed (a : Nat) (c : Cause)
  deriving DecidableEq, Repr

/-- The code of a translation: its bundles (R158), its side table (R183), the word offsets at which MARKs stand, and for the run of a
portable group the spill stores (word offset, value, slot, words) and the word offsets of the reloads (R143). -/
structure NCode where
  bundles : List Nat
  table : List Byte
  marks : List Nat
  stores : List (Nat × Nat × Nat × Nat)
  loads : List Nat
  /-- the word offsets at which resume fragments stand beside it (R403) -/
  frags : List Nat := []
  deriving DecidableEq, Repr

/-- An entry of a die's translation cache with its key (R138, R153). -/
structure Xlat where
  die : Nat
  /-- the cluster whose translator has the request -/
  cluster : Nat
  hash : BitVec 256
  fn : Nat
  obj : Nat
  budget : Nat
  crewLog : Nat
  seg : Nat
  amode : Nat
  bps : List Nat
  st : XSt
  code : Option NCode
  /-- classified as a re-translation when it started (R155) -/
  re : Bool
  /-- time of last use (R154), and whether it still stands in the cache -/
  used : Nat
  live : Bool
  deriving DecidableEq, Repr

/-- A loaded code object (R366 to R371). -/
structure Obj where
  digest : BitVec 256
  laddr : Nat
  textLen : Nat
  /-- function table: byte offset and image bytes (R367) -/
  ftab : List (Nat × Nat)
  feat : Nat
  mingen : Nat
  /-- contexts that loaded it and did not unload it, once for each load: the reference count of R371 is its length -/
  ctxs : List Nat
  /-- contexts whose mapping of it stands, because it is loaded there or a launch still uses it -/
  maps : List Nat
  data : List Byte
  dataVa : Nat
  /-- `.object`s (R248): offset in the data section, words, LEAF, and the words that are references with their target's offset -/
  objects : List (Nat × Nat × Bool × List (Nat × Nat))
  live : Bool
  deriving DecidableEq, Repr

/-- States of a context slot (R350, R352). -/
inductive CSt | free | live | halted | ending
  deriving DecidableEq, Repr

/-- A watchpoint (R365). -/
structure WPt where
  rd : Bool
  wr : Bool
  a : Nat
  len : Nat
  deriving DecidableEq, Repr

/-- A context slot (R350) with its counters (R361), debugger state and run time per die (R299). -/
structure Ctx where
  valid : Bool
  st : CSt
  hhalt : Bool
  shalt : Bool
  dbg : Bool
  root : Nat
  seed : Word
  quant : Nat
  migth : Nat
  keygen : Nat
  /-- the number of the key: the model's own name of it, 0 while the slot has had none (R358) -/
  key : Nat
  quota : List Nat
  save : Nat
  rsvd : Nat
  counts : List DWord
  cfgs : List Word
  /-- the counters stand in the counter save (R351, R361) -/
  ctrSaved : Bool
  bps : List Nat
  wps : List (Option WPt)
  /-- debug ring entries consumed (R362) -/
  dbgHead : Nat
  /-- a migration is pending (R409) -/
  migrating : Bool
  /-- time of the last resumption on each die -/
  resumed : List Nat
  /-- used slots of the tile save pool (R135) -/
  pool : List Nat
  /-- a seed waiting for the context's last resident group (R202) -/
  newSeed : Option Word
  /-- next sequence number of each collective group (R276): key = group -/
  seqs : NMap Nat
  deriving DecidableEq, Repr

/-- States of a command queue (R287). -/
inductive QSt | disabled | empty | ready | waiting | halted | error
  deriving DecidableEq, Repr

/-- A command queue (R284): the descriptor, the 64-bit count of entries consumed, the TAIL last read, and the started
entries that have not completed. -/
structure Queue where
  en : Bool
  ser : Bool
  prio : Nat
  ctx : Nat
  logn : Nat
  err : Half
  rbase : Nat
  head : Nat
  tail : Nat
  st : QSt
  before : QSt
  open_ : List Nat
  /-- KIND 2 entries that wait: entry number and watch (R310) -/
  waits : List (Nat × Watch)
  deriving DecidableEq, Repr

/-! ### Dies, clusters, cores -/

/-- One entry of a core TLB (R197). -/
structure Tlb where
  ctx : Nat
  va : Nat
  size : Nat
  pa : Nat
  rd : Bool
  wr : Bool
  deriving DecidableEq, Repr

/-- A core: TLB, clock count, issue pointer and ages of the dispatcher and of each slot unit (R296), waiting accacq requests
(R117), a matrix reset in progress, the groups that hold its miss-status entries, and rejected requests, oldest first, with their clock (R204),
arrival ring (R333), pages of the instruction store (R153), which always have owner tag 0 (R359). -/
structure Core where
  tlb : List Tlb
  clk : Nat
  ptr : Nat
  ages : NMap Nat
  uptr : List Nat
  uages : List (NMap Nat)
  accQueue : List Nat
  matrixReset : Bool
  mshr : List Nat
  mshrRej : List (Nat × Nat)
  rtail : Nat
  rhead : Nat
  pages : List (Nat × Nat)
  deriving DecidableEq, Repr

/-- A cluster: clock in MHz, SLOPE (R305), when each clock reduction of R399 ends, and the launch whose block has waited 1 ms
(R293). -/
structure Cluster where
  mhz : Nat
  slope : BitVec 8
  cuts : List Nat
  hold : Option Nat
  /-- completed barrier phases with groups that still wait, in order of completion: block, barrier, phase (R319) -/
  phases : List (Nat × Nat × Word) := []
  /-- the clock of the cluster's first core from which the next wave may leave (R319) -/
  waveAt : Nat := 0
  deriving DecidableEq, Repr

/-- A die: in service, held at 400 MHz by temperature, time it left reset, time of its last throttling step (R317, R377). -/
structure Die where
  on : Bool
  hot : Bool
  since : Nat
  last : Nat
  deriving DecidableEq, Repr

/-- TLBINV (R357): the fields, and the invalidation that runs: its context, ALL, first address and length. BUSY is 1 while one
runs. -/
structure TlbInv where
  ctx : Nat
  all : Bool
  va : Nat
  len : Nat
  run : Option (Nat × Bool × Nat × Nat)
  deriving DecidableEq, Repr

/-- The management mailbox (R349, R408): request bytes, which of bytes 0 to 7 of each request have been written, a request that
has taken effect and is pending, the SPDM control and buffer, and the capability offset. -/
structure Mbox where
  code : List Byte
  codeSeen : BitVec 8
  codeRun : Option (List Byte)
  mig : List Byte
  migSeen : BitVec 8
  migRun : Option (List Byte)
  capoff : Nat
  mlen : Nat
  rlen : Nat
  spdmSt : Byte
  spdmRun : Bool
  spdm : List Byte
  deriving DecidableEq, Repr

/-- Power control and status (R377). -/
structure Power where
  scap : Nat
  pcap : Nat
  ppkRead : Nat
  sthr : Bool
  pthr : Bool
  deriving DecidableEq, Repr

/-- Line-owner states (R231). -/
inductive LSt | shared | priv | pending
  deriving DecidableEq, Repr

/-- What issues now: nothing, a side of a portable group (with the length in words of the fetched instruction), or the
head of a slot stream of a native group. -/
inductive Issue
  | none
  | portable (g sd len : Nat)
  | slot (g : Nat) (sl : Slot)
  deriving DecidableEq, Repr

/-- One thing that may come next. -/
inductive Choice
  /-- an event of the machine; one that is not enabled changes nothing -/
  | event (i : Instr)
  /-- the first step of the agenda -/
  | outside
  /-- a slot unit of a core chooses -/
  | unit (c : Nat)
  /-- a submitted message of no known kind is refused -/
  | refuse
  /-- a message of the host or a peer goes on (R225) -/
  | message (i : Nat)
  /-- a store past its MARK is performed (R223) -/
  | store (g i : Nat)
  /-- a lane of a group performs a read early (R217) -/
  | early (g : Nat)
  deriving DecidableEq, Repr

/-- An answer to the outside world: a management response, an RDMA read, an atomic's old value. -/
structure Reply where
  kind : Nat
  bytes : List Byte
  deriving DecidableEq, Repr

/-- The module. Unified storage keys of mem, tag, owner, dirty and poison are given in Mem (log entry 4). -/
structure State where
  mem : NMap Byte
  tag : NMap Bool
  lines : NMap (LSt × Half)
  owner : NMap (Nat × Nat)
  dirty : NMap Bool
  poison : NMap Bool
  pageCnt : NMap (List Nat)
  ctxs : List Ctx
  queues : NMap Queue
  tlbinv : TlbInv
  mbox : Mbox
  power : Power
  dies : List Die
  clusters : List Cluster
  cores : List Core
  objs : List Obj
  launches : List Launch
  blocks : List Block
  groups : List Group
  recs : List Rec
  engs : List Eng
  walks : List Walk
  xlats : List Xlat
  /-- true: full service; false: early service (R9) -/
  full : Bool
  /-- the capability table as it was loaded last: none with the table of early service, else which dies were in service (R372, R374) -/
  caps : Option (List Bool)
  /-- a staged firmware image (R376), and an update flow in progress (R378) -/
  staged : Option (List Byte)
  updating : Bool
  /-- the image activated last -/
  fwImage : Option (List Byte)
  /-- the time base in ns (R317) -/
  time : Nat
  /-- messages of the host and peers that are not wholly performed, in the order posted (R225) -/
  msgs : List Msg
  /-- steps to come from outside and from hardware, taken in order (log entry 2) -/
  agenda : List Instr
  issue : Issue
  /-- the model's own: what waits for its turn, and how many choices have been made since the last (log entry 84) -/
  rota : List Choice
  since : Nat
  /-- the model's own counter of free choices (log entry 3), and of ids -/
  fresh : Nat
  ids : Nat
  /-- collective frames received by context and not yet used up (R275) -/
  frames : List (Nat × List Byte)
  /-- answers given to the outside world, newest first -/
  replies : List Reply
  deriving DecidableEq, Repr

/-! ### Reset -/

/-- A cleared view. -/
def View.reset : View := { flags := 0, fev := 0 }

/-- A free slot (R350 gives 0 for every field). -/
def Ctx.reset : Ctx :=
  { valid := false, st := .free, hhalt := false, shalt := false, dbg := false, root := 0, seed := 0, quant := 0,
    migth := 0, keygen := 0, key := 0, quota := [0, 0, 0, 0], save := 0, rsvd := 0, counts := List.replicate 16 0,
    cfgs := List.replicate 16 0, ctrSaved := false, bps := [], wps := [none, none, none, none], dbgHead := 0, migrating := false,
    resumed := [0, 0, 0, 0], pool := [], newSeed := none, seqs := [] }

/-- Slot 0 reads VALID 1 and STATE live (R348). -/
def Ctx.firmware : Ctx := { Ctx.reset with valid := true, st := .live }

/-- A disabled queue (R284 gives 0 for every field). -/
def Queue.reset : Queue :=
  { en := false, ser := false, prio := 0, ctx := 0, logn := 0, err := 0, rbase := 0, head := 0, tail := 0,
    st := .disabled, before := .disabled, open_ := [], waits := [] }

/-- A core with nothing resident; every issue pointer is 63 (R296). -/
def Core.reset : Core :=
  { tlb := [], clk := 0, ptr := 63, ages := [], uptr := List.replicate 7 63, uages := List.replicate 7 [], accQueue := [], matrixReset := false, mshr := [], mshrRej := [], rtail := 0, rhead := 0, pages := [] }

/-- A cluster: SLOPE 0x10 (R305), 400 MHz in early service (R406). -/
def Cluster.reset : Cluster :=
  { mhz := 400, slope := 0x10, cuts := [], hold := none }

/-- An empty mailbox. -/
def Mbox.reset : Mbox :=
  { code := List.replicate 64 0, codeSeen := 0, codeRun := none, mig := List.replicate 32 0, migSeen := 0,
    migRun := none, capoff := 0, mlen := 0, rlen := 0, spdmSt := 0, spdmRun := false, spdm := List.replicate 2544 0 }

/-- The module after reset: early service, die 2 brought up (R9, R406; log entry 8), nothing loaded, memory unlisted. -/
def State.reset : State :=
  { mem := [], tag := [], lines := [], owner := [], dirty := [], poison := [], pageCnt := [],
    ctxs := Ctx.firmware :: List.replicate 63 Ctx.reset,
    queues := [], tlbinv := { ctx := 0, all := false, va := 0, len := 0, run := none },
    mbox := Mbox.reset,
    power := { scap := 1500, pcap := 2000, ppkRead := 0, sthr := false, pthr := false },
    dies := [{ on := false, hot := false, since := 0, last := 0 }, { on := false, hot := false, since := 0, last := 0 },
             { on := true, hot := false, since := 0, last := 0 }, { on := false, hot := false, since := 0, last := 0 }],
    clusters := List.replicate 26 Cluster.reset, cores := List.replicate 208 Core.reset,
    objs := [], launches := [], blocks := [], groups := [], recs := [], engs := [], walks := [], xlats := [],
    full := false, caps := none, staged := none, updating := false, fwImage := none, time := 0,
    msgs := [], agenda := [], issue := .none, rota := [], since := 0, fresh := 0, ids := 0, frames := [], replies := [] }

end Sys2Proof.Machine
end

