-- ==== Sys2Proof/Machine/Flags.lean ====
section
/-! DEFINITION. Number formats, the one rounding function, and every flag computation (R49 to R61, R63, R64). -/

namespace Sys2Proof.Machine
open Sys2Proof

/-! ### Sticky flags and the first-event record -/

/-- Flags raised by one lane, in the bit order of R63. -/
abbrev Flags := BitVec 7

/-- invalid (R63) -/
def fNV : Flags := 0x01
/-- division by zero -/
def fDZ : Flags := 0x02
/-- overflow -/
def fOF : Flags := 0x04
/-- underflow -/
def fUF : Flags := 0x08
/-- inexact -/
def fNX : Flags := 0x10
/-- negative variance clamped -/
def fNEGV : Flags := 0x20
/-- residue saturation -/
def fRSAT : Flags := 0x40

/-- Some flag other than NX: the flags that fill a record (R64). -/
def Flags.recorded (f : Flags) : Bool := f &&& (~~~ fNX) != 0

/-- The union of a list of raised flags. -/
def unionFlags (evs : List (Nat × Flags)) : Flags := evs.foldl (fun a e => a ||| e.2) 0

/-- The event of the lowest lane that raised a recorded flag (R64): events of one lane are joined. -/
def firstEvent (evs : List (Nat × Flags)) : Option (Nat × Flags) :=
  let hit := evs.filter (fun e => Flags.recorded e.2)
  match hit with
  | [] => none
  | e :: r =>
    let lane := r.foldl (fun l x => min l x.1) e.1
    some (lane, unionFlags (evs.filter (fun x => x.1 == lane)))

/-- The 64-bit record of R64. -/
def fevRecord (addr lane : Nat) (f : Flags) : DWord :=
  BitVec.ofNat 64 (addr % 2 ^ 48 + (lane % 256) * 2 ^ 48 + f.toNat * 2 ^ 56 + 2 ^ 63)

/-- VALID of a first-event record. -/
def fevValid (r : DWord) : Bool := r.msb

/-- A view after an instruction at addr raised the events (R63, R64); en is the first-event enable of R24. -/
def View.raise (v : View) (en : Bool) (addr : Nat) (evs : List (Nat × Flags)) : View :=
  { flags := v.flags ||| (unionFlags evs).zeroExtend 32,
    fev := if en && !fevValid v.fev then
        match firstEvent evs with
        | none => v.fev
        | some (lane, f) => fevRecord addr lane f
      else v.fev }

/-- `clrflag`: clears the flags of m[6:0] and, with m[7], the record (R395). -/
def View.clear (v : View) (m : Word) : View :=
  { flags := v.flags &&& ~~~ (m &&& 0x7F), fev := if m.getLsbD 7 then 0 else v.fev }

/-- The order of lists of lanes, entry by entry. -/
def lanesBefore : List Nat → List Nat → Bool
  | [], _ => false
  | _ :: _, [] => false
  | a :: as, b :: bs => decide (a < b) || (a == b && lanesBefore as bs)

/-- The views of rejoining sides, ordered by the lowest active lane at the branch (R65, R71). -/
def mergeViews (vs : List View) : View :=
  { flags := vs.foldl (fun a v => a ||| v.flags) 0,
    fev := match vs.find? (fun v => fevValid v.fev) with | some v => v.fev | none => 0 }

/-! ### Integers -/

/-- The bits of x read signed or non-negative in w bits (the helper rd of the integer chapter). -/
def rdInt (sg : Bool) (w : Nat) (x : DWord) : Int :=
  let u := x.toNat % 2 ^ w
  if sg && decide (2 ^ (w - 1) ≤ u) then (u : Int) - 2 ^ w else u

/-- wrap of the integer chapter: the least non-negative remainder in w bits. -/
def wrapInt (w : Nat) (v : Int) : DWord := BitVec.ofNat 64 (v % (2 ^ w : Int)).toNat

/-- lo(w) of the integer chapter. -/
def loInt (sg : Bool) (w : Nat) : Int := if sg then -(2 ^ (w - 1)) else 0
/-- hi(w) of the integer chapter. -/
def hiInt (sg : Bool) (w : Nat) : Int := if sg then 2 ^ (w - 1) - 1 else 2 ^ w - 1

/-- The function sat of R59: the bounded value, and whether it was clamped. -/
def satInt (v lo hi : Int) : Int × Bool := if v > hi then (hi, true) else if v < lo then (lo, true) else (v, false)

/-! ### Floating-point formats -/

/-- A floating-point format (R50): width, significand width p, bias, largest finite value as sig × 2^exp. -/
structure Fmt where
  w : Nat
  p : Nat
  bias : Nat
  maxSig : Nat
  maxExp : Int
  /-- e4m3: no infinity, one NaN code -/
  noInf : Bool
  /-- e4m3 and e5m2: conversion saturates (R53) -/
  sat : Bool
  nan : Nat
  deriving DecidableEq, Repr

/-- f32 of R50. -/
def F32 : Fmt := { w := 32, p := 24, bias := 127, maxSig := 2 ^ 24 - 1, maxExp := 104, noInf := false, sat := false, nan := 0x7FC00000 }
/-- bf16 of R50. -/
def BF16 : Fmt := { w := 16, p := 8, bias := 127, maxSig := 2 ^ 8 - 1, maxExp := 120, noInf := false, sat := false, nan := 0x7FC0 }
/-- f16 of R50. -/
def F16 : Fmt := { w := 16, p := 11, bias := 15, maxSig := 2 ^ 11 - 1, maxExp := 5, noInf := false, sat := false, nan := 0x7E00 }
/-- e5m2 of R50. -/
def E5M2 : Fmt := { w := 8, p := 3, bias := 15, maxSig := 7, maxExp := 13, noInf := false, sat := true, nan := 0x7E }
/-- e4m3 of R50. -/
def E4M3 : Fmt := { w := 8, p := 4, bias := 7, maxSig := 14, maxExp := 5, noInf := true, sat := true, nan := 0x7F }

/-- f.emin of R57. -/
def Fmt.emin (f : Fmt) : Int := 1 - f.bias
/-- The all-ones exponent code. -/
def Fmt.ones (f : Fmt) : Nat := 2 ^ (f.w - f.p) - 1
/-- The bits of an infinity; in e4m3 the largest finite value (R53). -/
def Fmt.inf (f : Fmt) (neg : Bool) : Nat :=
  (if f.noInf then 0x7E else f.ones * 2 ^ (f.p - 1)) + (if neg then 2 ^ (f.w - 1) else 0)
/-- The bits of the largest finite value of a sign. -/
def Fmt.maxBits (f : Fmt) (neg : Bool) : Nat :=
  (if f.noInf then 0x7E else f.ones * 2 ^ (f.p - 1) - 1) + (if neg then 2 ^ (f.w - 1) else 0)
/-- The bits of a zero of a sign. -/
def Fmt.zero (f : Fmt) (neg : Bool) : Nat := if neg then 2 ^ (f.w - 1) else 0

/-- A decoded floating-point value: fin neg m e is ± m × 2^e, a zero when m = 0. -/
inductive FV
  | nan
  | inf (neg : Bool)
  | fin (neg : Bool) (m : Nat) (e : Int)
  deriving DecidableEq, Repr

/-- The value of a bit pattern (R50, R52). -/
def Fmt.decode (f : Fmt) (x : DWord) : FV :=
  let u := x.toNat % 2 ^ f.w
  let neg := decide (2 ^ (f.w - 1) ≤ u)
  let mag := u % 2 ^ (f.w - 1)
  let ex := mag / 2 ^ (f.p - 1)
  let fr := mag % 2 ^ (f.p - 1)
  if f.noInf && mag == 0x7F then .nan
  else if !f.noInf && ex == f.ones then (if fr = 0 then .inf neg else .nan)
  else if ex = 0 then .fin neg fr (f.emin - (f.p - 1))
  else .fin neg (fr + 2 ^ (f.p - 1)) ((ex : Int) - f.bias - (f.p - 1))

/-- A subnormal pattern (R50). -/
def Fmt.isSub (f : Fmt) (x : DWord) : Bool :=
  let mag := x.toNat % 2 ^ (f.w - 1)
  mag / 2 ^ (f.p - 1) == 0 && mag != 0

/-- Sign bit of a pattern. -/
def Fmt.isNeg (f : Fmt) (x : DWord) : Bool := x.getLsbD (f.w - 1)

/-- A subnormal input replaced by zero of its sign unless honoured (R58). -/
def Fmt.flush (f : Fmt) (h : Bool) (x : DWord) : DWord :=
  if !h && f.isSub x then BitVec.ofNat 64 (f.zero (f.isNeg x)) else x

/-! ### Rounding (R57) -/

/-- num × 2^k as a numerator, or as a factor of the denominator when k is negative. -/
def scaleUp (n : Nat) (k : Int) : Nat := if k ≥ 0 then n * 2 ^ k.toNat else n

/-- floor(log2(num / den × 2^e)) of a positive rational. -/
def floorLog2 (num den : Nat) (e : Int) : Int :=
  let k : Int := (Nat.log2 num : Int) - Nat.log2 den
  let ge := decide (scaleUp num (-k) ≥ scaleUp den k)
  (if ge then k else k - 1) + e

/-- The function rnd of R57: the integer n with result n × 2^(ex − p + 1), and whether it is inexact. -/
def rnd (num den : Nat) (e : Int) (p : Nat) (ex : Int) (m : RM) (neg : Bool) : Nat × Bool :=
  let k := e + (p : Int) - 1 - ex
  let n := scaleUp num k
  let d := scaleUp den (-k)
  let q := n / d
  let r := n % d
  let up := match m with
    | .rne => decide (2 * r > d) || (decide (2 * r = d) && q % 2 == 1)
    | .ru => r != 0 && !neg
    | .rd => r != 0 && neg
    | .rz => false
  (if up then q + 1 else q, r != 0)

/-- The overflow_value table of R57, with R53's replacement for saturating formats. -/
def Fmt.overflow (f : Fmt) (m : RM) (neg : Bool) : Nat :=
  let infinite := match m with | .rne => true | .rz => false | .ru => !neg | .rd => neg
  if infinite && !f.sat then f.inf neg else f.maxBits neg

/-- n × 2^q > largest finite value. -/
def Fmt.above (f : Fmt) (n : Nat) (q : Int) : Bool :=
  decide (scaleUp n (q - f.maxExp) > scaleUp f.maxSig (f.maxExp - q))

/-- n × 2^q < 2^emin. -/
def Fmt.tiny (f : Fmt) (n : Nat) (q : Int) : Bool :=
  decide (scaleUp n (q - f.emin) < scaleUp 1 (f.emin - q))

/-- The bits of n × 2^q, n ≤ 2^p, a value of the format. -/
def Fmt.encode (f : Fmt) (neg : Bool) (n : Nat) (q : Int) : Nat :=
  let (n, q) := if n = 2 ^ f.p then (2 ^ (f.p - 1), q + 1) else (n, q)
  let mag := if n < 2 ^ (f.p - 1) then n
    else n + (q + f.p - 1 + f.bias - 1).toNat * 2 ^ (f.p - 1)
  mag + (if neg then 2 ^ (f.w - 1) else 0)

/-- The function round of R57 on the positive rational num / den × 2^e with a sign. A value far below the smallest
subnormal or far above the largest finite value is first
replaced by another such value, which rounds alike in every mode. -/
def roundQ (f : Fmt) (m : RM) (h : Bool) (neg : Bool) (num den : Nat) (e : Int) : DWord × Flags :=
  let l0 := floorLog2 num den e
  let low := f.emin - f.p - 3
  let high := f.maxExp + f.p + 4
  let (num, den, e, l) := if l0 < low then (3, 1, low - 2, low - 1) else if l0 > high then (3, 1, high, high + 1)
    else (num, den, e, l0)
  let (nu, xu) := rnd num den e f.p l m neg
  let qu := l - f.p + 1
  let eh := if l < f.emin then f.emin else l
  let (n, x) := if h then rnd num den e f.p eh m neg else (nu, xu)
  let q := if h then eh - f.p + 1 else qu
  let nx := if x then fNX else 0
  if f.above n q then (BitVec.ofNat 64 (f.overflow m neg), nx ||| fOF ||| fNX)
  else if f.tiny nu qu then
    if h then (BitVec.ofNat 64 (f.encode neg n q), nx ||| (if x then fUF else 0))
    else (BitVec.ofNat 64 (f.zero neg), nx ||| fUF ||| fNX)
  else (BitVec.ofNat 64 (f.encode neg n q), nx)

/-- round of a decoded value; an infinity stays (±448 with OF in e4m3, R53), NaN is the default NaN, a zero keeps its sign. -/
def roundFV (f : Fmt) (m : RM) (h : Bool) : FV → DWord × Flags
  | .nan => (BitVec.ofNat 64 f.nan, 0)
  | .inf neg => (BitVec.ofNat 64 (f.inf neg), if f.noInf then fOF else 0)
  | .fin neg mm e => if mm = 0 then (BitVec.ofNat 64 (f.zero neg), 0) else roundQ f m h neg mm 1 e

/-! ### Exact arithmetic on decoded values: the value and whether the operation is invalid (R52, R83) -/

/-- Exact product. -/
def FV.mul : FV → FV → FV × Bool
  | .nan, _ => (.nan, false)
  | _, .nan => (.nan, false)
  | .inf a, .inf b => (.inf (a != b), false)
  | .inf a, .fin b m _ => if m = 0 then (.nan, true) else (.inf (a != b), false)
  | .fin a m _, .inf b => if m = 0 then (.nan, true) else (.inf (a != b), false)
  | .fin a m e, .fin b n g => (.fin (a != b) (m * n) (e + g), false)

/-- Exact sum; down tells the sign of an exact zero sum of opposite signs (R52). -/
def FV.add (down : Bool) : FV → FV → FV × Bool
  | .nan, _ => (.nan, false)
  | _, .nan => (.nan, false)
  | .inf a, .inf b => if a = b then (.inf a, false) else (.nan, true)
  | .inf a, .fin _ _ _ => (.inf a, false)
  | .fin _ _ _, .inf b => (.inf b, false)
  | .fin a m e, .fin b n g =>
    if m = 0 && n = 0 then (.fin (if a = b then a else down) 0 0, false)
    else if m = 0 then (.fin b n g, false)
    else if n = 0 then (.fin a m e, false)
    else
      let k := if e < g then e else g
      let x : Int := m * 2 ^ (e - k).toNat
      let y : Int := n * 2 ^ (g - k).toNat
      let s := (if a then -x else x) + (if b then -y else y)
      if s = 0 then (.fin down 0 0, false) else (.fin (decide (s < 0)) s.natAbs k, false)

/-- The opposite. -/
def FV.neg : FV → FV
  | .nan => .nan
  | .inf a => .inf (!a)
  | .fin a m e => .fin (!a) m e

/-- Rounds an exact result, raising NV when the operation is invalid. -/
def finish (f : Fmt) (m : RM) (h : Bool) (r : FV × Bool) : DWord × Flags :=
  if r.2 then (BitVec.ofNat 64 f.nan, fNV) else roundFV f m h r.1

/-- fadd (R83). -/
def fpAdd (f : Fmt) (m : RM) (h : Bool) (a b : DWord) : DWord × Flags :=
  finish f m h (FV.add (m == .rd) (f.decode (f.flush h a)) (f.decode (f.flush h b)))

/-- fsub (R83). -/
def fpSub (f : Fmt) (m : RM) (h : Bool) (a b : DWord) : DWord × Flags :=
  finish f m h (FV.add (m == .rd) (f.decode (f.flush h a)) (FV.neg (f.decode (f.flush h b))))

/-- fmul (R83). -/
def fpMul (f : Fmt) (m : RM) (h : Bool) (a b : DWord) : DWord × Flags :=
  finish f m h (FV.mul (f.decode (f.flush h a)) (f.decode (f.flush h b)))

/-- fma (R83): one rounding of the exact product-sum. 0 × ∞ is invalid whatever c is; else a NaN operand yields NaN with no flag (R52). -/
def fpFma (f : Fmt) (m : RM) (h : Bool) (a b c : DWord) : DWord × Flags :=
  let p := FV.mul (f.decode (f.flush h a)) (f.decode (f.flush h b))
  match p, f.decode (f.flush h c) with
  | (_, true), _ => (BitVec.ofNat 64 f.nan, fNV)
  | _, .nan => (BitVec.ofNat 64 f.nan, 0)
  | (x, _), v => finish f m h (FV.add (m == .rd) x v)

/-- fdiv (R83). -/
def fpDiv (f : Fmt) (m : RM) (h : Bool) (a b : DWord) : DWord × Flags :=
  match f.decode (f.flush h a), f.decode (f.flush h b) with
  | .nan, _ => (BitVec.ofNat 64 f.nan, 0)
  | _, .nan => (BitVec.ofNat 64 f.nan, 0)
  | .inf _, .inf _ => (BitVec.ofNat 64 f.nan, fNV)
  | .inf s, .fin t _ _ => (BitVec.ofNat 64 (f.inf (s != t)), 0)
  | .fin s _ _, .inf t => (BitVec.ofNat 64 (f.zero (s != t)), 0)
  | .fin s m1 e1, .fin t m2 e2 =>
    if m2 = 0 then (if m1 = 0 then (BitVec.ofNat 64 f.nan, fNV) else (BitVec.ofNat 64 (f.inf (s != t)), fDZ))
    else if m1 = 0 then (BitVec.ofNat 64 (f.zero (s != t)), 0)
    else roundQ f m h (s != t) m1 m2 (e1 - e2)

/-- a < b of two decoded values, zeros equal. -/
def FV.lt : FV → FV → Bool
  | .fin a m e, .fin b n g =>
    let k := if e < g then e else g
    let x : Int := m * 2 ^ (e - k).toNat
    let y : Int := n * 2 ^ (g - k).toNat
    decide ((if a then -x else x) < (if b then -y else y))
  | .inf a, .inf b => a && !b
  | .inf a, .fin _ _ _ => a
  | .fin _ _ _, .inf b => !b
  | _, _ => false

/-- Neither less nor greater, neither NaN. -/
def FV.eqv (a b : FV) : Bool :=
  match a, b with
  | .nan, _ => false
  | _, .nan => false
  | a, b => !FV.lt a b && !FV.lt b a

/-- fmin and fmax (R84): −0 below +0, NaN skipped, no flag. -/
def fpMinMax (isMax : Bool) (f : Fmt) (h : Bool) (a b : DWord) : DWord :=
  let a := f.flush h a
  let b := f.flush h b
  match f.decode a, f.decode b with
  | .nan, .nan => BitVec.ofNat 64 f.nan
  | .nan, _ => b
  | _, .nan => a
  | x, y =>
    let aLow := FV.lt x y || (FV.eqv x y && f.isNeg a)
    if aLow != isMax then a else b

/-- fcmp (R85). -/
def fpCmp (f : Fmt) (h : Bool) (cc : FCond) (a b : DWord) : Bool :=
  let x := f.decode (f.flush h a)
  let y := f.decode (f.flush h b)
  let un := decide (x = .nan) || decide (y = .nan)
  match cc with
  | .eq => FV.eqv x y
  | .ne => !FV.eqv x y
  | .lt => FV.lt x y
  | .le => FV.lt x y || FV.eqv x y
  | .gt => FV.lt y x
  | .ge => FV.lt y x || FV.eqv x y
  | .ord => !un
  | .uno => un

/-- fclass (R85): a one-hot mask of the stored bits. -/
def fpClass (f : Fmt) (x : DWord) : DWord :=
  let bit : Nat := match f.decode x with
    | .nan => 8
    | .inf neg => if neg then 0 else 7
    | .fin neg m _ =>
      if m = 0 then (if neg then 3 else 4)
      else if f.isSub x then (if neg then 2 else 5)
      else if neg then 1 else 6
  BitVec.ofNat 64 (2 ^ bit)

/-- An exact value rounded to an integer by the mode: magnitude, and whether inexact. -/
def roundInt (m : RM) (neg : Bool) (mm : Nat) (e : Int) : Nat × Bool :=
  if e ≥ 0 then (mm * 2 ^ e.toNat, false)
  else if e < -2000 then
    (match m with | .ru => (if neg then 0 else 1) | .rd => (if neg then 1 else 0) | _ => 0, true)
  else rnd mm 1 e 1 0 m neg

/-- frnd (R83): no flag, the sign of a zero kept. -/
def fpRnd (f : Fmt) (m : RM) (h : Bool) (a : DWord) : DWord :=
  let a := f.flush h a
  match f.decode a with
  | .nan => BitVec.ofNat 64 f.nan
  | .inf _ => a
  | .fin neg mm e =>
    let (n, _) := roundInt m neg mm e
    if mm = 0 || n = 0 then BitVec.ofNat 64 (f.zero neg) else (roundQ f .rne true neg n 1 0).1

/-- fscale (R83). -/
def fpScale (f : Fmt) (m : RM) (h : Bool) (a : DWord) (n : Int) : DWord × Flags :=
  let a := f.flush h a
  match f.decode a with
  | .nan => (BitVec.ofNat 64 f.nan, 0)
  | .inf _ => (a, 0)
  | .fin neg mm e => if mm = 0 then (a, 0) else roundQ f m h neg mm 1 (e + n)

/-- cvt between floating-point formats (R53, R58, R86). -/
def fpCvt (s t : Fmt) (m : RM) (h : Bool) (a : DWord) : DWord × Flags :=
  roundFV t m h (s.decode (s.flush h a))

/-- cvt from an integer (R86). -/
def intToFp (t : Fmt) (m : RM) (v : Int) : DWord × Flags :=
  if v = 0 then (0, 0) else roundQ t m true (decide (v < 0)) v.natAbs 1 0

/-- cvt to an integer of width w (R87). -/
def fpToInt (s : Fmt) (m : RM) (sg : Bool) (w : Nat) (a : DWord) : DWord × Flags :=
  match s.decode a with
  | .nan => (0, fNV)
  | .inf neg => (wrapInt w (if neg then loInt sg w else hiInt sg w), fNV)
  | .fin neg mm e =>
    let (n, x) := roundInt m neg mm e
    let y : Int := if neg then -(n : Int) else n
    let (v, c) := satInt y (loInt sg w) (hiInt sg w)
    (wrapInt w v, if c then fNV else if x then fNX else 0)

/-! ### Residues (R55, R56, R61) -/

/-- The residue modulus M of R55. -/
def residueM : Nat := 134217216

/-- A canonical residue word of channels. -/
def rsdWord (ra rb rc : Nat) : Word := BitVec.ofNat 32 (ra + rb * 2 ^ 9 + rc * 2 ^ 18)

/-- enc of R61. -/
def rsdEnc (v : Int) : Word := rsdWord (v % 511).toNat (v % 512).toNat (v % 513).toNat

/-- The channels of a word reduced modulo their moduli, and whether the word was canonical (R56). -/
def rsdChannels (w : Word) : (Nat × Nat × Nat) × Bool :=
  let u := w.toNat
  let ra := u % 512
  let rb := u / 2 ^ 9 % 512
  let rc := u / 2 ^ 18 % 1024
  ((ra % 511, rb, rc % 513), decide (u / 2 ^ 28 = 0) && decide (ra ≤ 510) && decide (rc ≤ 512))

/-- crt of R61 on reduced channels. -/
def crt (ra rb rc : Nat) : Int :=
  let v := (ra * 256 * 262656 + rb * 511 * 262143 + rc * 257 * 261632) % residueM
  if v ≥ residueM / 2 then (v : Int) - residueM else v

/-- crt of a word. -/
def crtWord (w : Word) : Int := let ((a, b, c), _) := rsdChannels w; crt a b c

/-- mac of R61. -/
def rsdMac (w : Word) (a b : Int) : Word :=
  let ((ra, rb, rc), _) := rsdChannels w
  rsdWord (((ra : Int) + (a % 511) * (b % 511)) % 511).toNat
    (((rb : Int) + (a % 512) * (b % 512)) % 512).toNat
    (((rc : Int) + (a % 513) * (b % 513)) % 513).toNat

/-- A residue word as an instruction reads it, with NV where it was not canonical (R56). -/
def rsdRead (w : Word) : Word × Flags :=
  let ((a, b, c), ok) := rsdChannels w
  (rsdWord a b c, if ok then 0 else fNV)

/-- fold_s8 of R61, of a word that need not be canonical (R56). -/
def foldS8 (shadow : Word) (w : Word) : Word × Flags :=
  let (v, c) := satInt (rdInt true 32 (shadow.zeroExtend 64) + crtWord w) (-2147483648) 2147483647
  ((wrapInt 32 v).truncate 32, (rsdRead w).2 ||| if c then fRSAT else 0)

/-- acc + v × 2^k rounded to f32 by rne (R61). A sum v of 0 is +0, so that it turns an accumulator of −0 to +0: DESIGN CHOICE, log entry
79. -/
def foldAdd (acc : Word) (v : Int) (k : Int) : Word × Flags :=
  let (r, fl) := finish F32 .rne true
    (FV.add false (F32.decode (acc.zeroExtend 64)) (.fin (decide (v < 0)) v.natAbs k))
  (r.truncate 32, fl)

/-- fold_f8 of R61. -/
def foldF8 (acc w : Word) (sa sb : Int) : Word × Flags := foldAdd acc (crtWord w) (sa + sb)

/-- fold_f16 of R61. -/
def foldF16 (acc whh whl wlh wll : Word) (sa sb : Int) : Word × Flags :=
  foldAdd acc (crtWord whh * 65536 + crtWord whl * 256 + crtWord wlh * 256 + crtWord wll) (sa + sb)

/-! ### Block alignment (R60) -/

/-- expo of R60 for a non-zero finite value of the format. -/
def expo (f : Fmt) (x : DWord) : Int :=
  match f.decode x with
  | .fin _ m e => if f.isSub x then f.emin else (Nat.log2 m : Int) + e
  | _ => 0

/-- rni of R60: ± m × 2^e to the nearest integer, ties to even. -/
def rni (neg : Bool) (m : Nat) (e : Int) : Int :=
  let n := (roundInt .rne neg m e).1
  if neg then -(n : Int) else n

/-- Whether a block holds a NaN or an infinity. -/
def blockSpecial (f : Fmt) (xs : List DWord) : Bool :=
  xs.any (fun x => match f.decode x with | .fin _ _ _ => false | _ => true)

/-- align8 and align16 before the digit split: the scale with shift k (7 or 14) and the integers (R60). -/
def alignBlock (f : Fmt) (k : Int) (xs : List DWord) : Option (Int × List Int) :=
  if blockSpecial f xs then none else
  let nz := xs.filter (fun x => match f.decode x with | .fin _ m _ => m != 0 | _ => false)
  match nz with
  | [] => some (0, xs.map (fun _ => 0))
  | y :: r =>
    let top := r.foldl (fun a x => max a (expo f x)) (expo f y)
    let s := top - k
    some (s, xs.map (fun x => match f.decode x with | .fin n m e => rni n m (e - s) | _ => 0))

/-- The digits of align16: lo = q mod 256, hi = (q − lo) / 256 (R60). -/
def digits16 (q : Int) : Int × Int := (q / 256, q % 256)

end Sys2Proof.Machine
end

