-- ==== Sys2Proof/Machine/Sfu.lean ====
section
/-! DEFINITION. The special functions, correctly rounded (R98 to R100). Irrational results are computed in fixed point of
N fractional bits with an error bound, and rounded where both ends of the error interval round alike (log entry 12). -/

namespace Sys2Proof.Machine
open Sys2Proof

/-- floor of the square root of x, by bits from 2^n down; s is the root so far. -/
def isqrtFrom (x : Nat) : Nat → Nat → Nat
  | 0, s => s
  | n + 1, s => isqrtFrom x n (if (s + 2 ^ n) * (s + 2 ^ n) ≤ x then s + 2 ^ n else s)

/-- floor of the square root. -/
def isqrt (x : Nat) : Nat := isqrtFrom x (Nat.log2 x / 2 + 1) 0

/-- Σ of the terms t, t·step(1), t·step(1)·step(2), … in fixed point, where step k is x·num k / (den k · 2^N). -/
def series (N : Nat) (x : Int) (num den : Nat → Int) : Nat → Nat → Int → Int → Int
  | 0, _, _, acc => acc
  | fuel + 1, k, t, acc =>
    if t = 0 then acc
    else series N x num den fuel (k + 1) (t * x * num k / (den k * 2 ^ N)) (acc + t)

/-- e^t − 1 for |t| ≤ 2, in fixed point. -/
def expm1Fx (N : Nat) (t : Int) : Int := series N t (fun _ => 1) (fun k => (k : Int) + 1) 4000 1 t 0

/-- Σ z^(2k+1) / (2k+1) with the sign of z² taken from s: atanh for s = 1, atan for s = −1; z = 1/d. -/
def atSeries (N : Nat) (s : Int) (z2num z2den : Int) : Nat → Nat → Int → Int → Int
  | 0, _, _, acc => acc
  | fuel + 1, k, p, acc =>
    if p = 0 then acc
    else atSeries N s z2num z2den fuel (k + 1) (s * p * z2num / z2den) (acc + p / (2 * k + 1))

/-- atan(1/d) in fixed point. -/
def atanInv (N d : Nat) : Int := atSeries N (-1) 1 (d * d) 4000 0 (2 ^ N / d) 0

/-- π in fixed point, by Machin's formula. -/
def piFx (N : Nat) : Int := 16 * atanInv N 5 - 4 * atanInv N 239

/-- ln 2 in fixed point: 2 atanh(1/3). -/
def ln2Fx (N : Nat) : Int := 2 * atSeries N 1 1 9 4000 0 (2 ^ N / 3) 0

/-- ln m for m in [1, 2) given in fixed point: 2 atanh((m − 1)/(m + 1)). -/
def lnFx (N : Nat) (m : Int) : Int :=
  let z := (m - 2 ^ N) * 2 ^ N / (m + 2 ^ N)
  2 * atSeries N 1 (z * z) (2 ^ (2 * N)) 4000 0 z 0

/-- e^(−t) for t ≥ 0 in fixed point: the value v and exponent k with v × 2^(−N−k). -/
def expNegFx (N : Nat) (t : Int) : Int × Nat :=
  let l := ln2Fx N
  let k := t / l
  let r := t - k * l
  (2 ^ N + expm1Fx N (-r), k.toNat)

/-- sin(π y) for y in [0, 1/2] in fixed point. -/
def sinPiFx (N : Nat) (y : Int) : Int :=
  let t := piFx N * y / 2 ^ N
  let t2 := t * t / 2 ^ N
  series N t2 (fun _ => -1) (fun k => (2 * (k : Int)) * (2 * k + 1)) 4000 1 t 0

/-- erf(x) for 0 ≤ x < 16 in fixed point: 2/√π · e^(−x²) · Σ 2^n x^(2n+1)/(2n+1)!!. -/
def erfFx (N0 : Nat) (x0 : Int) : Int :=
  let N := N0 + 512
  let x := x0 * 2 ^ 512
  let x2 := x * x / 2 ^ N
  let s := series N x2 (fun _ => 2) (fun k => 2 * (k : Int) + 1) 8000 1 x 0
  let (v, k) := expNegFx N x2
  let sp : Int := isqrt ((piFx N).toNat * 2 ^ N)
  (2 * s * v / 2 ^ (N + k)) * 2 ^ N / sp / 2 ^ 512

/-- Rounds v × 2^e known within 2^(N/3) units: at working precisions 640, 1280 and 2560 until both ends of the interval
round alike; the middle with a sticky bit after that. -/
def zivRound (h neg : Bool) (f : Nat → Int × Int) : DWord × Flags :=
  let try1 (N : Nat) : Option (DWord × Flags) :=
    let (v, e) := f N
    let lo := roundQ F32 .rne h neg (v - 2 ^ (N / 3)).toNat 1 e
    let hi := roundQ F32 .rne h neg (v + 2 ^ (N / 3)).toNat 1 e
    if decide (lo = hi) && decide (v > 2 ^ (N / 3)) then some lo else none
  match try1 640 with
  | some r => r
  | none => match try1 1280 with
    | some r => r
    | none => match try1 2560 with
      | some r => r
      | none => let (v, e) := f 2560; roundQ F32 .rne h neg (2 * v + 1).toNat 1 (e - 1)

/-- The magnitude m × 2^e in fixed point. -/
def fx (N : Nat) (m : Nat) (e : Int) : Int := (scaleUp m (e + N) : Int) / (scaleUp 1 (-(e + N)) : Int)

/-- The default NaN of f32. -/
def nan32 : DWord := 0x7FC00000

/-- m × 2^e is an integer. -/
def isIntQ (m : Nat) (e : Int) : Bool := decide (e ≥ 0) || (decide (e > -400) && m % 2 ^ (-e).toNat == 0)

/-- f32 operand after the flush of R99. -/
def sfuArg (h : Bool) (x : DWord) : FV := F32.decode (F32.flush h x)

/-- An f32 result of a sign and an exact positive rational. -/
def exact32 (h neg : Bool) (num den : Nat) (e : Int) : DWord × Flags := roundQ F32 .rne h neg num den e

/-- exp2 (R99, R100). -/
def sfExp2 (h : Bool) (x : DWord) : DWord × Flags :=
  match sfuArg h x with
  | .nan => (nan32, 0)
  | .inf neg => (if neg then 0 else 0x7F800000, 0)
  | .fin neg m e =>
    if m = 0 then (0x3F800000, 0)
    else if floorLog2 m 1 e ≥ 9 then exact32 h false 1 1 (if neg then -512 else 512)
    else if isIntQ m e then
      let n := (fx 0 m e)
      exact32 h false 1 1 (if neg then -n else n)
    else zivRound h false (fun N =>
      let a := if neg then -(fx N m e) else fx N m e
      let k := a / 2 ^ N
      let r := a - k * 2 ^ N
      (2 ^ N + expm1Fx N (r * ln2Fx N / 2 ^ N), k - N))

/-- log2 (R99, R100). -/
def sfLog2 (h : Bool) (x : DWord) : DWord × Flags :=
  match sfuArg h x with
  | .nan => (nan32, 0)
  | .inf neg => if neg then (nan32, fNV) else (0x7F800000, 0)
  | .fin neg m e =>
    if m = 0 then (0xFF800000, fDZ)
    else if neg then (nan32, fNV)
    else
      let k := floorLog2 m 1 e
      if m = 2 ^ Nat.log2 m then
        (if k = 0 then (0, 0) else exact32 h (decide (k < 0)) k.natAbs 1 0)
      else
        let neg := decide (k < 0)
        zivRound h neg (fun N =>
          let y := (m : Int) * 2 ^ (N - Nat.log2 m)
          let v := k * 2 ^ N + lnFx N y * 2 ^ N / ln2Fx N
          (if neg then -v else v, -(N : Int)))

/-- rcp (R99, R100). -/
def sfRcp (h : Bool) (x : DWord) : DWord × Flags :=
  match sfuArg h x with
  | .nan => (nan32, 0)
  | .inf neg => (BitVec.ofNat 64 (F32.zero neg), 0)
  | .fin neg m e => if m = 0 then (BitVec.ofNat 64 (F32.inf neg), fDZ) else exact32 h neg 1 m (-e)

/-- m × 2^e with an even exponent. -/
def evenExp (m : Nat) (e : Int) : Nat × Int := if e % 2 = 0 then (m, e) else (2 * m, e - 1)

/-- sqrt (R99, R100): an inexact root gets a sticky bit far below every rounding position. -/
def sfSqrt (h : Bool) (x : DWord) : DWord × Flags :=
  match sfuArg h x with
  | .nan => (nan32, 0)
  | .inf neg => if neg then (nan32, fNV) else (0x7F800000, 0)
  | .fin neg m e =>
    if m = 0 then (BitVec.ofNat 64 (F32.zero neg), 0)
    else if neg then (nan32, fNV)
    else
      let (m, e) := evenExp m e
      let s := isqrt (m * 2 ^ 128)
      if s * s = m * 2 ^ 128 then exact32 h false s 1 (e / 2 - 64) else exact32 h false (2 * s + 1) 1 (e / 2 - 65)

/-- rsqrt (R99, R100). -/
def sfRsqrt (h : Bool) (x : DWord) : DWord × Flags :=
  match sfuArg h x with
  | .nan => (nan32, 0)
  | .inf neg => if neg then (nan32, fNV) else (0, 0)
  | .fin neg m e =>
    if m = 0 then (BitVec.ofNat 64 (F32.inf neg), fDZ)
    else if neg then (nan32, fNV)
    else
      let (m, e) := evenExp m e
      let s := isqrt (2 ^ 256 / m)
      if s * s * m = 2 ^ 256 then exact32 h false s 1 (-(e / 2) - 128) else exact32 h false (2 * s + 1) 1 (-(e / 2) - 129)

/-- sinpi (R99, R100). -/
def sfSinpi (h : Bool) (x : DWord) : DWord × Flags :=
  match sfuArg h x with
  | .nan => (nan32, 0)
  | .inf _ => (nan32, fNV)
  | .fin neg m e =>
    if m = 0 || isIntQ m e then (BitVec.ofNat 64 (F32.zero neg), 0)
    else
      -- twice the argument as an integer: a half-integer
      if isIntQ m (e + 1) then
        let n := (fx 1 m e - 1) / 2
        -- |x| = n + 1/2; for negative x, x = −(n + 1) + 1/2
        let odd := if neg then n % 2 == 0 else n % 2 == 1
        (if odd then 0xBF800000 else 0x3F800000, 0)
      else
        let y0 (N : Nat) := fx N m e % (2 * 2 ^ N)
        let flip := decide (y0 200 > 2 ^ 200)
        zivRound h (neg != flip) (fun N =>
          let y := y0 N
          let y := if y > 2 ^ N then y - 2 ^ N else y
          let y := if 2 * y > 2 ^ N then 2 ^ N - y else y
          (sinPiFx N y, -(N : Int)))

/-- cospi (R99, R100). -/
def sfCospi (h : Bool) (x : DWord) : DWord × Flags :=
  match sfuArg h x with
  | .nan => (nan32, 0)
  | .inf _ => (nan32, fNV)
  | .fin _ m e =>
    if m = 0 then (0x3F800000, 0)
    else if isIntQ m e then
      (if isIntQ m (e - 1) then 0x3F800000 else 0xBF800000, 0)
    else if isIntQ m (e + 1) then (0, 0)
    else
      let y0 (N : Nat) :=
        let y := fx N m e % (2 * 2 ^ N)
        if y > 2 ^ N then 2 * 2 ^ N - y else y
      let neg := decide (2 * y0 200 > 2 ^ 200)
      zivRound h neg (fun N =>
        let y := y0 N
        let y := if 2 * y > 2 ^ N then 2 ^ N - y else y
        (sinPiFx N (2 ^ N / 2 - y), -(N : Int)))

/-- tanh (R99, R100). -/
def sfTanh (h : Bool) (x : DWord) : DWord × Flags :=
  match sfuArg h x with
  | .nan => (nan32, 0)
  | .inf neg => (if neg then 0xBF800000 else 0x3F800000, 0)
  | .fin neg m e =>
    if m = 0 then (BitVec.ofNat 64 (F32.zero neg), 0)
    else if floorLog2 m 1 e ≥ 6 then exact32 h neg (2 ^ 80 - 1) 1 (-80)
    else zivRound h neg (fun N =>
      let t := 2 * fx N m e
      let em := if t ≤ 2 ^ N then expm1Fx N t
        else let (v, k) := expNegFx N t; 2 ^ (2 * N + k) / v - 2 ^ N
      (em * 2 ^ N / (em + 2 * 2 ^ N), -(N : Int)))

/-- sigmoid (R99, R100). -/
def sfSigmoid (h : Bool) (x : DWord) : DWord × Flags :=
  match sfuArg h x with
  | .nan => (nan32, 0)
  | .inf neg => (if neg then 0 else 0x3F800000, 0)
  | .fin neg m e =>
    if m = 0 then (0x3F000000, 0)
    else if floorLog2 m 1 e ≥ 8 then
      (if neg then exact32 h false 3 1 (-300) else exact32 h false (2 ^ 80 - 1) 1 (-80))
    else zivRound h false (fun N =>
      let (v, k) := expNegFx N (fx N m e)
      -- u = e^(−|x|) = v × 2^(−N−k)
      let den := 2 ^ (N + k) + v
      if neg then (v * 2 ^ (N + 400) / den, -((N : Int) + 400)) else (2 ^ (2 * N + k) / den, -(N : Int)))

/-- erf (R99, R100). -/
def sfErf (h : Bool) (x : DWord) : DWord × Flags :=
  match sfuArg h x with
  | .nan => (nan32, 0)
  | .inf neg => (if neg then 0xBF800000 else 0x3F800000, 0)
  | .fin neg m e =>
    if m = 0 then (BitVec.ofNat 64 (F32.zero neg), 0)
    else if floorLog2 m 1 e ≥ 4 then exact32 h neg (2 ^ 80 - 1) 1 (-80)
    else zivRound h neg (fun N => (erfFx N (fx N m e), -(N : Int)))

end Sys2Proof.Machine
end

