-- ==== Sys2Proof/Machine/Arith.lean ====
section
/-! DEFINITION. Lane results of the integer, conversion and moment instructions (R77 to R89, R104 to R110). -/

namespace Sys2Proof.Machine
open Sys2Proof

/-- Width in bits of a value's data (R18); tok and acc have none. -/
def Ty.bits : Ty → Nat
  | .b1 => 1 | .i8 => 8 | .i16 => 16 | .i32 => 32 | .i64 => 64 | .f16 => 16 | .bf16 => 16 | .f32 => 32
  | .e4m3 => 8 | .e5m2 => 8 | .mo => 64 | .ref => 64 | .tok => 0 | .acc => 0

/-- Bytes of a stored value of the type. -/
def Ty.bytes (t : Ty) : Nat := Ty.bits t / 8

/-- The floating-point format of a type; f32 for a type that is none. -/
def Ty.fmt : Ty → Fmt
  | .f16 => F16 | .bf16 => BF16 | .e4m3 => E4M3 | .e5m2 => E5M2 | _ => F32

/-- The low w bits. -/
def lowBits (w : Nat) (x : DWord) : DWord := BitVec.ofNat 64 (x.toNat % 2 ^ w)

/-! ### Integer results (R77) -/

/-- add: wrap(a + b). -/
def iAdd (w : Nat) (a b : DWord) : DWord := lowBits w (a + b)
/-- sub: wrap(a − b). -/
def iSub (w : Nat) (a b : DWord) : DWord := lowBits w (a - b)
/-- mul, wrapped or saturated. -/
def iMul (sg sat : Bool) (w : Nat) (a b : DWord) : DWord :=
  let v := rdInt sg w a * rdInt sg w b
  wrapInt w (if sat then (satInt v (loInt sg w) (hiInt sg w)).1 else v)
/-- mulhi: wrap(floor(a × b / 2^w)). -/
def iMulhi (sg : Bool) (w : Nat) (a b : DWord) : DWord := wrapInt w (rdInt sg w a * rdInt sg w b / 2 ^ w)
/-- mad: wrap(a × b + c). -/
def iMad (sg : Bool) (w : Nat) (a b c : DWord) : DWord := wrapInt w (rdInt sg w a * rdInt sg w b + rdInt sg w c)
/-- Quotient and remainder of R78. -/
def iDivRem (sg : Bool) (w : Nat) (a b : DWord) : DWord × DWord :=
  let x := rdInt sg w a
  let y := rdInt sg w b
  if y = 0 then (wrapInt w (2 ^ w - 1), lowBits w a)
  else if sg && decide (x = -(2 ^ (w - 1))) && decide (y = -1) then (lowBits w a, 0)
  else (wrapInt w (x.tdiv y), wrapInt w (x - x.tdiv y * y))
/-- neg, wrapped or saturated. -/
def iNeg (sat : Bool) (w : Nat) (a : DWord) : DWord :=
  let v := -(rdInt true w a)
  wrapInt w (if sat then (satInt v (loInt true w) (hiInt true w)).1 else v)
/-- abs, wrapped or saturated. -/
def iAbs (sat : Bool) (w : Nat) (a : DWord) : DWord :=
  let v : Int := (rdInt true w a).natAbs
  wrapInt w (if sat then (satInt v (loInt true w) (hiInt true w)).1 else v)
/-- min and max. -/
def iMin (sg : Bool) (w : Nat) (a b : DWord) : DWord := if rdInt sg w a ≤ rdInt sg w b then lowBits w a else lowBits w b
/-- max. -/
def iMax (sg : Bool) (w : Nat) (a b : DWord) : DWord := if rdInt sg w a ≥ rdInt sg w b then lowBits w a else lowBits w b
/-- not. -/
def iNot (w : Nat) (a : DWord) : DWord := lowBits w (~~~ a)
/-- shl: 0 when n ≥ w. -/
def iShl (w : Nat) (a : DWord) (n : Nat) : DWord := if n ≥ w then 0 else lowBits w (a <<< n)
/-- shr: floor(a / 2^n); 0, or −1 by sign, when n ≥ w. -/
def iShr (sg : Bool) (w : Nat) (a : DWord) (n : Nat) : DWord :=
  wrapInt w (rdInt sg w a / 2 ^ (if n ≥ w then w else n))
/-- rotl by n mod w. -/
def iRotl (w : Nat) (a : DWord) (n : Nat) : DWord :=
  let u := a.toNat % 2 ^ w
  let k := n % w
  BitVec.ofNat 64 (u * 2 ^ k % 2 ^ w + u / 2 ^ (w - k))
/-- Count of leading zero bits; w for 0. -/
def iClz (w : Nat) (a : DWord) : DWord :=
  let u := a.toNat % 2 ^ w
  BitVec.ofNat 64 (if u = 0 then w else w - 1 - Nat.log2 u)
/-- Count of one bits. -/
def iPopc (w : Nat) (a : DWord) : DWord := BitVec.ofNat 64 ((List.range w).countP (fun i => a.getLsbD i))
/-- Bit i moves to bit w − 1 − i. -/
def iBrev (w : Nat) (a : DWord) : DWord :=
  BitVec.ofNat 64 ((List.range w).foldl (fun acc i => acc + if a.getLsbD i then 2 ^ (w - 1 - i) else 0) 0)
/-- bfx (R79). -/
def iBfx (sg : Bool) (w : Nat) (a : DWord) (p l : Nat) : DWord :=
  if p ≥ w || l = 0 then 0
  else
    let l := min l (w - p)
    wrapInt w (rdInt sg l (BitVec.ofNat 64 (a.toNat / 2 ^ p)))
/-- bfi (R79). -/
def iBfi (w : Nat) (base ins : DWord) (p l : Nat) : DWord :=
  if p ≥ w || l = 0 then lowBits w base
  else
    let l := min l (w - p)
    let m : DWord := BitVec.ofNat 64 ((2 ^ l - 1) * 2 ^ p)
    lowBits w ((base &&& ~~~ m) ||| ((ins <<< p) &&& m))
/-- cmp (R80). -/
def intCond (cc : Cond) (x y : Int) : Bool :=
  match cc with
  | .eq => decide (x = y) | .ne => decide (x ≠ y) | .lt => decide (x < y)
  | .le => decide (x ≤ y) | .gt => decide (x > y) | .ge => decide (x ≥ y)
/-- A b1 result. -/
def b1 (b : Bool) : DWord := if b then 1 else 0
/-- ext from sw to w bits (R81). -/
def iExt (sg : Bool) (sw w : Nat) (a : DWord) : DWord := wrapInt w (rdInt sg sw a)
/-- trunc from sw to w bits (R81). -/
def iTrunc (sg sat : Bool) (sw w : Nat) (a : DWord) : DWord :=
  if sat then wrapInt w (satInt (rdInt sg sw a) (loInt sg w) (hiInt sg w)).1 else lowBits w a
/-- addsat. -/
def iAddsat (sg : Bool) (w : Nat) (a b : DWord) : DWord :=
  wrapInt w (satInt (rdInt sg w a + rdInt sg w b) (loInt sg w) (hiInt sg w)).1
/-- subsat. -/
def iSubsat (sg : Bool) (w : Nat) (a b : DWord) : DWord :=
  wrapInt w (satInt (rdInt sg w a - rdInt sg w b) (loInt sg w) (hiInt sg w)).1
/-- lea (R82). -/
def iLea (sg : Bool) (w sw k : Nat) (base idx disp : DWord) : DWord :=
  wrapInt w ((base.toNat : Int) + rdInt sg sw idx * 2 ^ k + disp.toNat)

/-- fneg, fabs, fcopysign: sign bits only (R83). -/
def fpNeg (f : Fmt) (a : DWord) : DWord := a ^^^ BitVec.ofNat 64 (2 ^ (f.w - 1))
/-- fabs. -/
def fpAbs (f : Fmt) (a : DWord) : DWord := a &&& BitVec.ofNat 64 (2 ^ (f.w - 1) - 1)
/-- fcopysign. -/
def fpCopysign (f : Fmt) (a b : DWord) : DWord := fpAbs f a ||| (b &&& BitVec.ofNat 64 (2 ^ (f.w - 1)))

/-! ### Conversions (R86, R87) -/

/-- The result of `cvt` on one lane. -/
def cvtLane (k : CvtKind) (t s : CTy) (rm : RM) (dn : Bool) (a : DWord) : DWord × Flags :=
  let sg := decide (k = .s)
  match k, s, t with
  | .ff, .ty s, .ty t => fpCvt (Ty.fmt s) (Ty.fmt t) rm dn a
  | _, .s8, .ty t => (iExt true 8 (Ty.bits t) a, 0)
  | _, .ty s, .s8 => (wrapInt 8 (satInt (rdInt true (Ty.bits s) a) (-128) 127).1, 0)
  | _, .ty s, .ty t =>
    match s with
    | .f16 | .bf16 | .f32 => fpToInt (Ty.fmt s) rm sg (Ty.bits t) a
    | _ => intToFp (Ty.fmt t) rm (rdInt sg (Ty.bits s) a)
  | _, .s8, .s8 => (a, 0)

/-- Bits of a pack element (R88). -/
def CTy.bits : CTy → Nat
  | .s8 => 8
  | .ty t => Ty.bits t

/-- pack: element k in bits [wk + w − 1 : wk] (R88). -/
def packLane (w : Nat) (xs : List DWord) : DWord :=
  BitVec.ofNat 64 (xs.foldr (fun x acc => acc * 2 ^ w + x.toNat % 2 ^ w) 0)

/-- unpack: element n (R88). -/
def unpackLane (w n : Nat) (x : DWord) : DWord := BitVec.ofNat 64 (x.toNat / 2 ^ (w * n) % 2 ^ w)

/-- rsdenc (R89). -/
def rsdencLane (sg : Bool) (x : DWord) : DWord × Flags :=
  let v := rdInt sg 32 x
  ((rsdEnc v).zeroExtend 64, if v < -67108608 ∨ v > 67108607 then fNV else 0)

/-- rsddec (R56, R89). -/
def rsddecLane (w : DWord) : DWord × Flags :=
  let ((a, b, c), ok) := rsdChannels (w.truncate 32)
  (wrapInt 32 (crt a b c), if ok then 0 else fNV)

/-! ### Moment pairs (R54, R104 to R110) -/

/-- A moment pair with the flags raised so far. -/
structure Mo where
  m : DWord
  v : DWord
  deriving DecidableEq, Repr

/-- The pair of a 64-bit value: mean low, variance high (R54). -/
def Mo.ofBits (x : DWord) : Mo := { m := lowBits 32 x, v := x >>> 32 }
/-- The 64-bit value of a pair. -/
def Mo.toBits (p : Mo) : DWord := lowBits 32 p.m ||| (p.v <<< 32)

/-- A variance is invalid when NaN, or below zero and not −0 (R106). -/
def badVar (v : DWord) : Bool :=
  match F32.decode v with
  | .nan => true
  | .inf neg => neg
  | .fin neg m _ => neg && m != 0

/-- −0 read and written as +0 (R54). -/
def posZero (v : DWord) : DWord := if v = 0x80000000 then 0 else v

/-- A step with its flags: the value, and the union of flags raised. -/
abbrev Step := DWord × Flags

/-- r(a + b) (R104). -/
def rAdd (a b : Step) : Step := let r := fpAdd F32 .rne false a.1 b.1; (r.1, a.2 ||| b.2 ||| r.2)
/-- r(a − b). -/
def rSub (a b : Step) : Step := let r := fpSub F32 .rne false a.1 b.1; (r.1, a.2 ||| b.2 ||| r.2)
/-- r(a × b). -/
def rMul (a b : Step) : Step := let r := fpMul F32 .rne false a.1 b.1; (r.1, a.2 ||| b.2 ||| r.2)
/-- round(a / b). -/
def rDiv (a b : Step) : Step := let r := fpDiv F32 .rne false a.1 b.1; (r.1, a.2 ||| b.2 ||| r.2)
/-- fma1 of R107. -/
def rFma (a b c : Step) : Step := let r := fpFma F32 .rne false a.1 b.1 c.1; (r.1, a.2 ||| b.2 ||| c.2 ||| r.2)
/-- A special function step with DN = 0. -/
def rSf (f : Bool → DWord → DWord × Flags) (a : Step) : Step := let r := f false a.1; (r.1, a.2 ||| r.2)
/-- A value with no flag. -/
def kst (x : DWord) : Step := (x, 0)
/-- The opposite of a step's value: sign inverted, no flag; NaN stays the default NaN. -/
def rNeg (a : Step) : Step := (if F32.decode a.1 = .nan then nan32 else fpNeg F32 a.1, a.2)

/-- The constants of R108. -/
def kLE : Step := kst 0x3FB8AA3B
/-- π / 8 -/
def kPI8 : Step := kst 0x3EC90FDB
/-- 1 / √2 -/
def kIS2 : Step := kst 0x3F3504F3
/-- 1 / √(2π) -/
def kISP : Step := kst 0x3ECC422A
/-- 1.0 -/
def kOne : Step := kst 0x3F800000
/-- 2.0 -/
def kTwo : Step := kst 0x40000000
/-- 4.0 -/
def kFour : Step := kst 0x40800000
/-- 0.5 -/
def kHalf : Step := kst 0x3F000000
/-- −0.5 -/
def kMHalf : Step := kst 0xBF000000

/-- cov of R105; none under `.ind`. -/
def covStep (cv : Cov) (a b : Mo) (c : DWord) : Option Step :=
  let p := rMul (rSf sfSqrt (kst a.v)) (rSf sfSqrt (kst b.v))
  match cv with
  | .ind => none
  | .cor => some p
  | .anti => some (rNeg p)
  | .cov => some (kst c)

/-- madd (R107). -/
def moAdd (cv : Cov) (a b : Mo) (c : DWord) : Step × Step :=
  let v := rAdd (kst a.v) (kst b.v)
  (rAdd (kst a.m) (kst b.m), match covStep cv a b c with | none => v | some k => rAdd v (rMul kTwo k))

/-- msub (R107). -/
def moSub (cv : Cov) (a b : Mo) (c : DWord) : Step × Step :=
  let v := rAdd (kst a.v) (kst b.v)
  (rSub (kst a.m) (kst b.m), match covStep cv a b c with | none => v | some k => rSub v (rMul kTwo k))

/-- prod of R107: p, c and vp. -/
def moProd (cv : Cov) (a b : Mo) (c : DWord) : Step × Option Step × Step :=
  let p := rMul (kst a.m) (kst b.m)
  let t1 := rMul (rMul (kst a.m) (kst a.m)) (kst b.v)
  let t2 := rMul (rMul (kst b.m) (kst b.m)) (kst a.v)
  let t3 := rMul (kst a.v) (kst b.v)
  let vp := rAdd (rAdd t1 t2) t3
  match covStep cv a b c with
  | none => (p, none, vp)
  | some k => (p, some k, rAdd (rAdd vp (rMul (rMul kTwo p) k)) (rMul k k))

/-- mmul (R107). -/
def moMul (cv : Cov) (a b : Mo) (c : DWord) : Step × Step :=
  let (p, k, vp) := moProd cv a b c
  (match k with | none => p | some k => rAdd p k, vp)

/-- mfma (R107). -/
def moFma (cv : Cov) (a b d : Mo) (c : DWord) : Step × Step :=
  let (p, k, vp) := moProd cv a b c
  let mu := match k with
    | none => rFma (kst a.m) (kst b.m) (kst d.m)
    | some k => rAdd (rFma (kst a.m) (kst b.m) k) (kst d.m)
  ((mu.1, mu.2 ||| p.2), rAdd vp (kst d.v))

/-- mscale (R107). -/
def moScale (a : Mo) (s t : DWord) : Step × Step :=
  (rFma (kst s) (kst a.m) (kst t), rMul (rMul (kst s) (kst s)) (kst a.v))

/-- gauss of R109. -/
def gauss (al : Step) : Step × Step :=
  (rMul kHalf (rAdd kOne (rSf sfErf (rMul al kIS2))),
   rMul (rSf sfExp2 (rMul (rMul (rMul al al) kMHalf) kLE)) kISP)

/-- mexp (R109). -/
def moExp (a : Mo) : Step × Step :=
  let mu := rSf sfExp2 (rMul (rAdd (kst a.m) (rMul (kst a.v) kHalf)) kLE)
  let ev := rSf sfExp2 (rMul (kst a.v) kLE)
  (mu, rMul (rSub ev kOne) (rMul mu mu))

/-- mrelu (R109). -/
def moRelu (a : Mo) : Step × Step :=
  if F32.decode a.v = F32.decode 0 then
    (if FV.lt (F32.decode 0) (F32.decode a.m) then kst a.m else kst 0, kst 0)
  else
    let s := rSf sfSqrt (kst a.v)
    let al := rDiv (kst a.m) s
    let (cdf, pdf) := gauss al
    let m1 := rAdd (rMul (kst a.m) cdf) (rMul s pdf)
    let m2 := rAdd (rMul (rAdd (rMul (kst a.m) (kst a.m)) (kst a.v)) cdf) (rMul (rMul (kst a.m) s) pdf)
    (m1, rSub m2 (rMul m1 m1))

/-- msig (R109). -/
def moSig (m v : Step) : Step × Step :=
  let k := rSf sfRsqrt (rAdd kOne (rMul v kPI8))
  let p := rSf sfSigmoid (rMul k m)
  (p, rMul (rMul p (rSub kOne p)) (rSub kOne k))

/-- mtanh (R109). -/
def moTanh (a : Mo) : Step × Step :=
  let (p, q) := moSig (rMul kTwo (kst a.m)) (rMul kFour (kst a.v))
  (rSub (rMul kTwo p) kOne, rMul kFour q)

/-- mgelu (R109). -/
def moGelu (a : Mo) : Step × Step :=
  let k2 := rAdd kOne (kst a.v)
  let k := rSf sfSqrt k2
  let al := rDiv (kst a.m) k
  let (cdf, pdf) := gauss al
  let mu := rAdd (rMul (kst a.m) cdf) (rDiv (rMul (kst a.v) pdf) k)
  let d := rAdd cdf (rDiv (rMul al pdf) k2)
  (mu, rMul (rMul d d) (kst a.v))

/-- A lane's moment result: the value, its flags, or an invalid variance without `.clamp` (R106). -/
inductive MoRes
  | ok (x : DWord) (f : Flags)
  | bad
  deriving DecidableEq, Repr

/-- Steps 1 and 2 of the frame: flushes, and the check of one operand's variance (R104, R106). -/
def moOperand (cl : Bool) (x : DWord) : Option (Mo × Flags) :=
  let p := Mo.ofBits x
  let p : Mo := { m := F32.flush false p.m, v := F32.flush false p.v }
  if badVar p.v then (if cl then some ({ p with v := 0 }, fNEGV) else none) else some ({ p with v := posZero p.v }, 0)

/-- All operands checked: the pairs and the flags of clamped ones. -/
def moOperands (cl : Bool) : List DWord → Option (List Mo × Flags)
  | [] => some ([], 0)
  | x :: r => match moOperand cl x, moOperands cl r with
    | some (p, f), some (ps, g) => some (p :: ps, f ||| g)
    | _, _ => none

/-- Step 5 of the frame: the result variance (R104, R106). -/
def moResult (cl : Bool) (f : Flags) (r : Step × Step) : MoRes :=
  let (m, v) := r
  let fl := f ||| m.2 ||| v.2
  if badVar v.1 then (if cl then .ok (Mo.toBits { m := m.1, v := 0 }) (fl ||| fNEGV) else .bad)
  else .ok (Mo.toBits { m := m.1, v := posZero v.1 }) fl

/-- The frame of R104 around a rule; a NaN mean gives (NaN, +∞) with no flag of the rule. A clamped operand of such a
lane still sets NEGV, by step 2 (log entry 13). -/
def moFrame (cl : Bool) (xs : List DWord) (rule : List Mo → Step × Step) : MoRes :=
  match moOperands cl xs with
  | none => .bad
  | some (ps, f) =>
    if ps.any (fun p => decide (F32.decode p.m = .nan)) then .ok (Mo.toBits { m := nan32, v := 0x7F800000 }) f
    else moResult cl f (rule ps)

/-- An f32 operand after step 1. -/
def moF32 (x : DWord) : DWord := F32.flush false (lowBits 32 x)

/-- mmake (R107): a NaN mean becomes the default NaN. -/
def moMake (cl : Bool) (mu v : DWord) : MoRes :=
  let m := moF32 mu
  moResult cl 0 (kst (if F32.decode m = .nan then nan32 else m), kst (moF32 v))

/-- mcol (R110). -/
def moCol (sel : ColSel) (cl : Bool) (a k : DWord) : MoRes :=
  match moOperand cl a with
  | none => .bad
  | some (p, f) =>
    let out (r : Step) : MoRes := .ok r.1 (f ||| r.2)
    let sd := rSf sfSqrt (kst p.v)
    match sel with
    | .mean => out (kst (if F32.decode p.m = .nan then nan32 else p.m))
    | .var => out (kst p.v)
    | .sd => out sd
    | .hi => out (rFma (kst (moF32 k)) sd (kst p.m))
    | .lo => out (rFma (rNeg (kst (moF32 k))) sd (kst p.m))

end Sys2Proof.Machine
end

