-- ==== Sys2Proof/Machine/Operands.lean ====
section
/-! DEFINITION. The site of a portable instruction, its operand slots (R16, R22, R33 to R35) and the addresses of its memory
operands (R193). -/

namespace Sys2Proof.Machine
open Sys2Proof

/-! ### Lanes -/

/-- The lanes of a mask, in increasing order. -/
def lanesOf (m : Mask) : List Nat := (List.range 128).filter (fun i => m.getLsbD i)

/-- The lowest lane of a mask; 0 for an empty one. -/
def lowLane (m : Mask) : Nat := (lanesOf m).headD 0

/-- The mask of the lanes that satisfy p. -/
def maskOf (p : Nat → Bool) : Mask :=
  BitVec.ofNat 128 ((List.range 128).foldl (fun a i => if p i then a + 2 ^ i else a) 0)

/-- Lane by lane from lane i: f of the value at each active lane, d at an inactive one; none if some active lane has none. -/
def onLanesFrom {α β : Type} (m : Mask) (d : β) (f : α → Option β) : Nat → Nat → List α → Option (List β)
  | 0, _, _ => some []
  | k + 1, i, vs =>
    let rest := onLanesFrom m d f k (i + 1) vs.tail
    if m.getLsbD i then
      match vs.head?.bind f, rest with
      | some b, some r => some (b :: r)
      | _, _ => none
    else rest.map (fun r => d :: r)

/-- The 128 lanes. -/
def onLanes {α β : Type} (m : Mask) (d : β) (f : α → Option β) (vs : List α) : Option (List β) := onLanesFrom m d f 128 0 vs

/-- Lanes of `new` where the mask is 1, else of `old`; a lane that neither holds is an untagged zero. -/
def mergeLanes (m : Mask) (old new : List Val) : List Val :=
  (List.range 128).map (fun i => if m.getLsbD i then nth (.bits 0) new i else nth (.bits 0) old i)

/-! ### Code -/

/-- Storage key of a code-window address (log entry 4). -/
def keyCode (va : Nat) : Nat := 2 ^ 44 + va

/-- The number of little-endian bytes. -/
def leNat : List Byte → Nat
  | [] => 0
  | b :: r => b.toNat + 256 * leNat r

/-- n little-endian bytes of a number. -/
def leBytes : Nat → Nat → List Byte
  | 0, _ => []
  | n + 1, v => BitVec.ofNat 8 v :: leBytes n (v / 256)

/-- n bytes of storage from key a, whatever their owner. -/
def rawBytes (s : State) (a : Nat) : Nat → List Byte
  | 0 => []
  | n + 1 => NMap.get 0 s.mem a :: rawBytes s (a + 1) n

/-- The code word at a portable address. -/
def codeWord (s : State) (va : Nat) : Word := BitVec.ofNat 32 (leNat (rawBytes s (keyCode va) 4))

/-- n code words from a portable address. -/
def codeWords (s : State) (va : Nat) : Nat → List Word
  | 0 => []
  | n + 1 => codeWord s va :: codeWords s (va + 4) n

/-- CLEN and PCNT of the image at fn (R26). -/
def imgClen (s : State) (fn : Nat) : Nat := (codeWord s (fn + 4)).toNat
/-- PCNT (R26). -/
def imgPcnt (s : State) (fn : Nat) : Nat := (codeWord s (fn + 8)).toNat
/-- FRET[31:8]: block shared memory in bytes (R26). -/
def imgShared (s : State) (fn : Nat) : Nat := (codeWord s (fn + 12)).toNat / 256
/-- FHDR (R26). -/
def imgFhdr (s : State) (fn : Nat) : Word := codeWord s fn
/-- FHDR[31:16], the register cap (R26). -/
def imgCap (s : State) (fn : Nat) : Nat := (codeWord s fn).toNat / 2 ^ 16
/-- Address of the pool (R26). -/
def imgPool (s : State) (fn : Nat) : Nat := fn + 0x20 + (4 * imgClen s fn + 7) / 8 * 8
/-- Pool entry i (R35). -/
def poolEntry (s : State) (fn i : Nat) : DWord := BitVec.ofNat 64 (leNat (rawBytes s (keyCode (imgPool s fn + 8 * i)) 8))

/-! ### Dies and cores -/

/-- The die of a module core: dies 0 and 1 have 64 cores, dies 2 and 3 have 40. -/
def dieOf (c : Nat) : Nat := if c < 64 then 0 else if c < 128 then 1 else if c < 168 then 2 else 3
/-- The first core of a die. -/
def dieBase (d : Nat) : Nat := match d with | 0 => 0 | 1 => 64 | 2 => 128 | _ => 168
/-- The cores of a die. -/
def dieCores (d : Nat) : Nat := if d < 2 then 64 else 40
/-- A die of kind N. -/
def dieIsN (d : Nat) : Bool := decide (2 ≤ d)

/-- The effective budget of R139 on a die for the first of some functions, called by the second and so on: a callee runs under
its caller's budget (R73), and each image's own cap lowers it. -/
def budgetOn (s : State) (L : Launch) (d : Nat) (fns : List Nat) : Nat :=
  fns.foldl (fun b fn => if imgCap s fn = 0 then b else min b (imgCap s fn)) (min L.budget (if dieIsN d then 254 else 510))

/-- The functions of a side's frames, the innermost first. -/
def SideCore.fns (c : SideCore) : List Nat := c.frames.map (·.fn)

/-! ### The site of a portable instruction -/

/-- Where a portable instruction issues: group, side, length in words, and what they hold. -/
structure Site where
  g : Nat
  sd : Nat
  len : Nat
  grp : Group
  side : Side
  fr : Frame
  blk : Block
  lau : Launch
  deriving DecidableEq, Repr

/-- The site of side sd of group g. -/
def siteOf (s : State) (g sd len : Nat) : Option Site :=
  match s.groups[g]? with
  | none => none
  | some G =>
    match G.sides[sd]?, s.blocks[G.block]? with
    | some S, some B =>
      match S.core.frames, s.launches[B.launch]? with
      | F :: _, some L => some { g := g, sd := sd, len := len, grp := G, side := S, fr := F, blk := B, lau := L }
      | _, _ => none
    | _, _ => none

/-- The site of the issuing portable instruction. -/
def site? (s : State) : Option Site :=
  match s.issue with
  | .portable g sd len => siteOf s g sd len
  | _ => none

/-- The active mask. -/
def Site.mask (p : Site) : Mask := p.side.core.mask
/-- Portable address of the instruction. -/
def Site.pc (p : Site) : Nat := p.fr.pc
/-- The context. -/
def Site.ctx (p : Site) : Nat := p.lau.ctx
/-- The lowest active lane. -/
def Site.low (p : Site) : Nat := lowLane p.mask

/-! ### Operands -/

/-- A special operand's value in a lane of a group that runs the first of some functions, the others its callers (R22). %seg is the group's current segment, as R22 and R321 have it, so travel may change it;
R23 lists %coreid and %budget alone as changing there (log entry 67). -/
def specOf (s : State) (G : Group) (B : Block) (L : Launch) (fns : List Nat) (c lane : Nat) : DWord :=
  BitVec.ofNat 64 (match c with
    | 0 => G.gid * 128 + lane
    | 1 => lane
    | 2 => G.gid
    | 3 => B.bid
    | 4 => L.ntid
    | 5 => L.ntid / 128
    | 6 => L.nblk
    | 7 => G.rank
    | 8 => 2 ^ L.crewLog
    | 9 => G.core
    | 10 => G.seg
    | _ => budgetOn s L (dieOf G.core) fns)

/-- The value at a site. -/
def specVal (s : State) (p : Site) (c lane : Nat) : DWord := specOf s p.grp p.blk p.lau p.side.core.fns c lane

/-- An immediate in the slot's type (R34). -/
def immVal (t : Ty) (i : BitVec 14) : DWord :=
  match t with
  | .f16 | .bf16 | .f32 => (intToFp (Ty.fmt t) .rne i.toInt).1
  | _ => wrapInt (Ty.bits t) i.toInt

/-- The lanes of a value operand: none for a distance that names nothing. -/
def valLanes (p : Site) (d : BitVec 14) : Option (List Val) :=
  if d = 0 ∨ p.fr.next < d.toNat then none
  else
    match NMap.get [] p.fr.vals (p.fr.next - d.toNat) with
    | [] => none
    | vs => some vs

/-- Bits of a value. -/
def Val.bits? : Val → Option DWord
  | .bits x => some x
  | _ => none
/-- Address and tag of a ref. -/
def Val.ref? : Val → Option (DWord × Bool)
  | .ref x t => some (x, t)
  | _ => none
/-- Elements of an array. -/
def Val.arr? : Val → Option (List DWord)
  | .arr es => some es
  | _ => none

/-- The bits of an operand slot of type t in every lane: 0 in inactive lanes; none when the slot names nothing of that kind. -/
def opndBits (s : State) (p : Site) (t : Ty) (o : Opnd) : Option (List DWord) :=
  match o with
  | .val d => (valLanes p d).bind (onLanes p.mask 0 Val.bits?)
  | .imm i => if immOk t i then some (List.replicate 128 (immVal t i)) else none
  | .pool i =>
    if t.isPool && decide (i.toNat < imgPcnt s p.fr.fn) then some (List.replicate 128 (poolEntry s p.fr.fn i.toNat)) else none
  | .spec c => if t == .i32 && decide (c.toNat < 12) then some ((List.range 128).map (specVal s p c.toNat)) else none
  | .blk _ => none

/-- The refs of an operand slot (R34: the immediate 0 is null). -/
def opndRefs (p : Site) (o : Opnd) : Option (List (DWord × Bool)) :=
  match o with
  | .val d => (valLanes p d).bind (onLanes p.mask (0, false) Val.ref?)
  | .imm i => if i = 0 then some (List.replicate 128 (0, false)) else none
  | _ => none

/-- The arrays of a value slot. -/
def opndArrs (p : Site) (o : Opnd) : Option (List (List DWord)) :=
  match o with
  | .val d => (valLanes p d).bind (onLanes p.mask [] Val.arr?)
  | _ => none

/-- The token of a value slot: the engine number it stands for, the same in every lane (R21). -/
def opndTok (p : Site) (o : Opnd) : Option Nat :=
  match o with
  | .val d =>
    (match (valLanes p d).bind (fun vs => vs[p.low]?) with
     | some (.tok e) => some e
     | _ => none)
  | _ => none

/-- The tokens of a list of value slots. -/
def opndToks (p : Site) : List Opnd → Option (List Nat)
  | [] => some []
  | o :: r =>
    match opndTok p o, opndToks p r with
    | some e, some es => some (e :: es)
    | _, _ => none

/-- An acc value slot that holds the group's set. -/
def opndAcc (p : Site) (o : Opnd) : Bool :=
  match o with
  | .val d => decide ((valLanes p d).bind (fun vs => vs[p.low]?) = some .acc)
  | _ => false

/-- The bits of a value slot, whatever its type. -/
def opndValBits (p : Site) (o : Opnd) : Option (List DWord) :=
  match o with
  | .val d => (valLanes p d).bind (onLanes p.mask 0 Val.bits?)
  | _ => none

/-- The lanes of any operand slot whose type a descriptor gives. -/
def opndVals (s : State) (p : Site) (t : TyD) (o : Opnd) : Option (List Val) :=
  match t with
  | .ty .ref => (opndRefs p o).map (fun xs => xs.map (fun (a, b) => .ref a b))
  | .ty .tok | .ty .acc => (match o with | .val d => valLanes p d | _ => none)
  | .ty t => (opndBits s p t o).map (fun xs => xs.map .bits)
  | .arr _ _ => (opndArrs p o).map (fun xs => xs.map .arr)
  | .s8 => (opndValBits p o).map (fun xs => xs.map .bits)

/-- Bits of a slot of a conversion element. -/
def opndC (s : State) (p : Site) (t : CTy) (o : Opnd) : Option (List DWord) :=
  match t with
  | .ty t => opndBits s p t o
  | .s8 => opndValBits p o

/-- The lowest active lane's bits of a slot. -/
def opndOne (s : State) (p : Site) (t : Ty) (o : Opnd) : Option DWord := (opndBits s p t o).map (fun xs => nth 0 xs p.low)

/-- An immediate's number. -/
def immNat (o : Opnd) : Nat := match o with | .imm i => i.toInt.toNat | _ => 0

/-- Bits of several slots of one type. -/
def opndAll (s : State) (p : Site) (t : Ty) : List Opnd → Option (List (List DWord))
  | [] => some []
  | o :: r =>
    match opndBits s p t o, opndAll s p t r with
    | some x, some xs => some (x :: xs)
    | _, _ => none

/-- Bits of several slots of one conversion element. -/
def opndAllC (s : State) (p : Site) (t : CTy) : List Opnd → Option (List (List DWord))
  | [] => some []
  | o :: r =>
    match opndC s p t o, opndAllC s p t r with
    | some x, some xs => some (x :: xs)
    | _, _ => none

/-- The 64-bit address of a memory operand in every lane (R193): b, b + o with o read as non-negative, or b + n. -/
def memLanes (s : State) (p : Site) (m : MemOp) : Option (List DWord) :=
  match opndBits s p .i64 m.base with
  | none => none
  | some bs =>
    match m.off with
    | .imm i => if 0 ≤ i.toInt then some (bs.map (fun b => b + BitVec.ofInt 64 i.toInt)) else none
    | .val d =>
      ((valLanes p d).bind (onLanes p.mask 0 Val.bits?)).map (fun os => List.zipWith (fun b o => b + lowBits 32 o) bs os)
    | _ => none

/-! ### Updates of a side -/

/-- Changes group g. -/
def State.updGroup (s : State) (g : Nat) (f : Group → Group) : State := { s with groups := modifyAt f s.groups g }

/-- Changes side sd of group g. -/
def State.updSide (s : State) (g sd : Nat) (f : Side → Side) : State :=
  s.updGroup g (fun G => { G with sides := modifyAt f G.sides sd })

/-- Changes what a rollback restores of a side. -/
def State.updCore (s : State) (g sd : Nat) (f : SideCore → SideCore) : State :=
  s.updSide g sd (fun S => { S with core := f S.core })

/-- Changes the innermost frame. -/
def SideCore.onFrame (f : Frame → Frame) (c : SideCore) : SideCore :=
  { c with frames := match c.frames with | [] => [] | F :: r => f F :: r }

/-- The frame after an instruction that defines a value: value `next` holds vs in the lanes of m; the next number; the pc. -/
def Frame.define (m : Mask) (vs : List Val) (len : Nat) (F : Frame) : Frame :=
  { F with vals := NMap.set [] F.vals F.next (mergeLanes m (NMap.get [] F.vals F.next) vs), next := F.next + 1,
           pc := F.pc + 4 * len }

/-- The instruction defines vs in the active lanes and the side goes on. -/
def define (p : Site) (vs : List Val) (s : State) : State :=
  s.updCore p.g p.sd (SideCore.onFrame (Frame.define p.mask vs p.len))

/-- The instruction defines bits in the active lanes. -/
def defineBits (p : Site) (xs : List DWord) (s : State) : State := define p (xs.map .bits) s

/-- The side goes on after an instruction that defines nothing. -/
def advance (p : Site) (s : State) : State :=
  s.updCore p.g p.sd (SideCore.onFrame (fun F => { F with pc := F.pc + 4 * p.len }))

/-- Raises the flags of lanes in the side's view (R63, R64). -/
def raiseFlags (p : Site) (evs : List (Nat × Flags)) (s : State) : State :=
  s.updCore p.g p.sd (fun c => { c with view := c.view.raise p.lau.fev p.pc evs })

/-- The flag events of the active lanes. -/
def laneEvents (m : Mask) (fs : List Flags) : List (Nat × Flags) := (lanesOf m).map (fun i => (i, nth 0 fs i))

end Sys2Proof.Machine
end

