-- ==== Sys2Proof/Machine/Mem.lean ====
section
/-! DEFINITION. Storage: bytes with owners, tags, line owners, poison and dirty bits (R205, R228 to R236, R358, R359, R400),
the page walk and TLB (R197, R353 to R355), and the checks of an address (R194). -/

namespace Sys2Proof.Machine
open Sys2Proof

/-! ### Keys of the unified storage (log entry 4) -/

/-- Scratchpad of core c, local offset o. -/
def keyScratch (c o : Nat) : Nat := 2 ^ 40 + c * 2 ^ 21 + o
/-- Instruction store of core c. -/
def keyIstore (c o : Nat) : Nat := 2 ^ 42 + c * 2 ^ 18 + o
/-- The table pool (R353). -/
def keyPool (o : Nat) : Nat := 2 ^ 43 + o
/-- The die-store pages that hold a context's copy of `.data` (R370). -/
def keyData (x va : Nat) : Nat := 2 ^ 45 + x * 2 ^ 32 + va
/-- The tag that the spill unit of group g keeps beside the slot pair from n, in a lane (R151). -/
def keySlotTag (g n lane : Nat) : Nat := 2 ^ 46 + 8 * (g * 2 ^ 24 + n * 128 + lane)
/-- Die store (R198). -/
def isDS (k : Nat) : Bool := (decide (2 ^ 39 ≤ k) && decide (k < 2 ^ 40)) || decide (2 ^ 45 ≤ k)
/-- Scratchpad. -/
def isSP (k : Nat) : Bool := decide (2 ^ 40 ≤ k) && decide (k < 2 ^ 42)
/-- On-die storage, whose granules carry owner tags (R359). -/
def onDie (k : Nat) : Bool := isDS k || isSP k
/-- The home die of a storage key. The die-store frames of a code object's `.data` stand on die 2, which is in service in every
state of the module (DESIGN CHOICE, log entry 76). -/
def homeDie (k : Nat) : Nat :=
  if k < 2 ^ 39 then k / 2 ^ 37 else if k < 2 ^ 40 then k / 2 ^ 36 % 4 else if k < 2 ^ 42 then dieOf ((k - 2 ^ 40) / 2 ^ 21) else 2

/-! ### Owners (R358, R359) -/

/-- The slot of a context. -/
def ctxAt (s : State) (x : Nat) : Ctx := nth Ctx.reset s.ctxs x
/-- The owner word that context x writes with: the slot and the number of its key, which no other key ever has. -/
def ownerWord (s : State) (x : Nat) : Nat × Nat := (x, (ctxAt s x).key)

/-- Sets n bytes from key a. -/
def setBytes (m : NMap Byte) (a : Nat) : List Byte → NMap Byte
  | [] => m
  | b :: r => setBytes (NMap.set 0 m a b) (a + 1) r

/-- Clears the tags of the 8-byte words from word w, n of them. -/
def clearTags (m : NMap Bool) (w : Nat) : Nat → NMap Bool
  | 0 => m
  | n + 1 => clearTags (NMap.set false m w false) (w + 1) n

/-- The byte that context x sees of the stored byte b at key a. -/
def seenByte (s : State) (x a : Nat) (b : Byte) : Byte :=
  let o := NMap.get (0, 0) s.owner (a / 64)
  if onDie a then (if o.1 = x then b else 0)
  else if o = ownerWord s x ∨ o = (0, 0) ∨ 2 ^ 40 ≤ a then b
  else Config.cipherByte a o.1 o.2 x (ctxAt s x).key b

/-- A word's tag (R228). -/
def tagAt (s : State) (a : Nat) : Bool := NMap.get false s.tag (a / 8)
/-- The 8-byte word that holds key a, as stored. -/
def wordAt (s : State) (a : Nat) : DWord := BitVec.ofNat 64 (leNat (rawBytes s (a / 8 * 8) 8))
/-- A word's tag as context x sees it: none in an on-die granule of another owner (R359). -/
def seenTag (s : State) (x a : Nat) : Bool := tagAt s a && (!onDie a || (NMap.get (0, 0) s.owner (a / 64)).1 == x)
/-- The 8-byte word that holds key a, as context x sees it. -/
def seenWord (s : State) (x a : Nat) : DWord :=
  BitVec.ofNat 64 (leNat ((List.range 8).map (fun i => seenByte s x (a / 8 * 8 + i) (NMap.get 0 s.mem (a / 8 * 8 + i)))))
/-- A header word: tagged, with [63:60] = 0b1011 (R235). -/
def headerAt (s : State) (a : Nat) : Bool := tagAt s a && (wordAt s a).extractLsb' 60 4 == 0xB

/-- An on-die granule that carries the tag of an owner other than context x: it reads zero (R359). -/
def foreign (s : State) (x a : Nat) : Bool := onDie a && (NMap.get (0, 0) s.owner (a / 64)).1 != x

/-- The bits of a header that can be read: OWNER and STAMP read as zero (R230). -/
def hdrSeen : DWord := 0xF000003FFFFFFFFF

/-- The byte a load, an engine or the host obtains: OWNER and STAMP of a header read as zero (R230). -/
def loadByte (s : State) (x a : Nat) : Byte :=
  let b := seenByte s x a (NMap.get 0 s.mem a)
  if headerAt s a then
    b &&& hdrSeen.extractLsb' (8 * (a % 8)) 8
  else b

/-- n bytes as context x loads them. -/
def loadBytes (s : State) (x a : Nat) : Nat → List Byte
  | 0 => []
  | n + 1 => loadByte s x a :: loadBytes s x (a + 1) n

/-- A 64-bit word as context x loads it. -/
def loadWord (s : State) (x a : Nat) : DWord := BitVec.ofNat 64 (leNat (loadBytes s x a 8))

/-- Context x takes the granule ln: an on-die granule of another owner becomes zero (R359); a device-memory line of another
key keeps what x reads of it (R358). -/
def claimLine (s : State) (x ln : Nat) : State :=
  let o := NMap.get (0, 0) s.owner ln
  let w := ownerWord s x
  if o = w then s
  else if onDie (64 * ln) then
    if o.1 = x then { s with owner := NMap.set (0, 0) s.owner ln w }
    else { s with mem := NMap.keep (fun k => decide (k / 64 ≠ ln)) s.mem, tag := NMap.keep (fun k => decide (k / 8 ≠ ln)) s.tag,
                  lines := NMap.set (.shared, 0) s.lines ln (.shared, 0), poison := NMap.keep (fun k => decide (k / 16 ≠ ln)) s.poison,
                  owner := NMap.set (0, 0) s.owner ln w }
  else if o = (0, 0) ∨ 2 ^ 40 ≤ 64 * ln then { s with owner := NMap.set (0, 0) s.owner ln w }
  else
    { s with mem := setBytes s.mem (64 * ln) ((List.range 64).map (fun i => seenByte s x (64 * ln + i) (NMap.get 0 s.mem (64 * ln + i)))),
             owner := NMap.set (0, 0) s.owner ln w }

/-- Context x takes n granules from ln. -/
def claimLines (s : State) (x ln : Nat) : Nat → State
  | 0 => s
  | n + 1 => claimLines (claimLine s x ln) x (ln + 1) n

/-- Sets the dirty bits of n scratchpad words from word w (R205). -/
def setDirty (m : NMap Bool) (v : Bool) (w : Nat) : Nat → NMap Bool
  | 0 => m
  | n + 1 => setDirty (NMap.set false m w v) v (w + 1) n

/-! ### Watches (R311) -/

/-- A condition of a watch, both sides read signed (R308). -/
def condMet (c : Cond) (v x : DWord) : Bool := intCond c v.toInt x.toInt

/-- A watch after a write of n bytes at key a: the first value that meets the condition before the deadline is kept (R311,
R312), as a load obtains it (R230); also where the line has become private since its registration (DESIGN CHOICE, log entry 92). -/
def Watch.note (s : State) (a n : Nat) (w : Watch) : Watch :=
  let v := if headerAt s w.a then wordAt s w.a &&& hdrSeen else wordAt s w.a
  if w.hit = none ∧ w.a < a + n ∧ a < w.a + 8 ∧ w.deadline.all (fun t => decide (s.time < t)) ∧ condMet w.cond v w.x then
    { w with hit := some v }
  else w

/-- Changes what a group and its sides wait for. -/
def Group.mapWaits (f : Wait → Wait) (G : Group) : Group :=
  { G with st := (match G.st with | .waiting w t => .waiting (f w) t | st => st),
           sides := G.sides.map (fun S => { S with hold := S.hold.map (fun h => (f h.1, h.2)) }) }

/-- What a write does to a wait. -/
def Wait.note (s : State) (a n : Nat) : Wait → Wait
  | .signal w => .signal (w.note s a n)
  | w => w

/-- Every watch sees a write of n bytes at key a. -/
def noteWatches (a n : Nat) (s : State) : State :=
  { s with groups := s.groups.map (Group.mapWaits (Wait.note s a n)),
           queues := s.queues.map (fun (i, q) => (i, { q with waits := q.waits.map (fun (e, w) => (e, w.note s a n)) })) }

/-! ### Writes -/

/-- Context x writes bytes at key a: owner tags, tags of the covered words, dirty bits, poison, and watches. -/
def storeBytes (x a : Nat) (bs : List Byte) (s : State) : State :=
  let n := bs.length
  if n = 0 then s else
  let s := claimLines s x (a / 64) ((a + n - 1) / 64 - a / 64 + 1)
  let w4 := (a + 3) / 4
  noteWatches a n
    { s with mem := setBytes s.mem a bs, tag := clearTags s.tag (a / 8) ((a + n - 1) / 8 - a / 8 + 1),
             dirty := if isSP a then setDirty s.dirty true (a / 4) ((a + n - 1) / 4 - a / 4 + 1) else s.dirty,
             poison := setDirty s.poison false w4 ((a + n) / 4 - w4) }

/-- Writes a little-endian 64-bit word. -/
def storeWord (x a : Nat) (v : DWord) (s : State) : State := storeBytes x a (leBytes 8 v.toNat) s

/-- Sets or clears the tag of a word. -/
def setTag (a : Nat) (t : Bool) (s : State) : State := { s with tag := NMap.set false s.tag (a / 8) t }

/-- Writes an 8-byte word with its tag. -/
def storeTagged (x a : Nat) (v : DWord) (t : Bool) (s : State) : State := setTag a t (storeWord x a v s)

/-- Sets the line state of n lines from ln. -/
def setLines (m : NMap (LSt × Half)) (v : LSt × Half) (ln : Nat) : Nat → NMap (LSt × Half)
  | 0 => m
  | n + 1 => setLines (NMap.set (.shared, 0) m ln v) v (ln + 1) n

/-! ### Page tables (R353 to R355) -/

/-- A leaf found by a walk: the page, its frame, its rights, its owner and where its entry stands. -/
structure Leaf where
  va : Nat
  size : Nat
  pa : Nat
  rd : Bool
  wr : Bool
  nomig : Bool
  owner : Nat
  pte : Nat
  deriving DecidableEq, Repr

/-- Bytes of a die's die store (R1): 1.125 GiB on a W-die, 0.75 GiB on an N-die. -/
def dsBytes (d : Nat) : Nat := if dieIsN d then 0x30000000 else 0x48000000

/-- There is storage at a physical address: one in a form of R198 within the die's store (R1; log entry 63); only of a die in
service (R407), and in early service of its device memory the 64 MiB window (R9, R406). Keys above the physical addresses are those of the loader's pages. -/
def paOk (s : State) (pa : Nat) : Bool :=
  if pa < 2 ^ 39 then (s.full || decide (pa % 2 ^ 37 < 2 ^ 26))
    && (match s.dies[pa / 2 ^ 37]? with | some d => d.on | none => false)
  else if pa < 2 ^ 40 then decide (pa / 2 ^ 38 = 2) && decide (pa / 2 ^ 31 % 32 = 0) && decide (pa % 2 ^ 31 < dsBytes (pa / 2 ^ 36 % 4))
    && (match s.dies[pa / 2 ^ 36 % 4]? with | some d => d.on | none => false)
  else true

/-- The walk through the levels: index shift, entries, log2 of a table's bytes. -/
def walkFrom (s : State) (va : Nat) (lvl off : Nat) : List (Nat × Nat × Nat) → Option Leaf
  | [] => none
  | (sh, n, lg) :: more =>
    let ea := keyPool (off + 8 * (va / 2 ^ sh % n))
    let e := leNat (rawBytes s ea 8)
    let addr := e / 2 ^ 8 % 2 ^ 32 * 2 ^ 8
    let leaf := decide (e / 2 % 2 = 1)
    let bad := e / 2 ^ 5 % 8 ≠ 0 ∨ e / 2 ^ 40 % 2 ^ 8 ≠ 0 ∨ e / 2 ^ 54 ≠ 0 ∨ off % 2 ^ lg ≠ 0 ∨ 2 ^ 28 < off + 2 ^ lg
    if e % 2 = 0 ∨ bad then none
    else if leaf then
      if lvl = 0 ∨ addr % 2 ^ sh ≠ 0 ∨ !paOk s (addr + va % 2 ^ sh) then none
      else some { va := va / 2 ^ sh * 2 ^ sh, size := 2 ^ sh, pa := addr, rd := decide (e / 4 % 2 = 1), wr := decide (e / 8 % 2 = 1),
                  nomig := decide (e / 16 % 2 = 1), owner := e / 2 ^ 48 % 64, pte := ea }
    else
      match more with
      | [] => none
      | _ => walkFrom s va (lvl + 1) addr more

/-- Lowest address of the code window and the address past its end (R370). -/
def codeLo : Nat := 0x800000
/-- Address past the code window. -/
def codeHi : Nat := 0x100000000

/-- The code-window page of a context: text in pages that the firmware owns, data in the context's own frames (R370). -/
def codeLeaf (s : State) (x va : Nat) : Option Leaf :=
  match s.objs.find? (fun o => o.live && o.maps.contains x && decide (o.laddr ≤ va)
      && decide (va < ((if o.data.length = 0 then o.laddr + o.textLen else o.dataVa + o.data.length) + 65535) / 65536 * 65536)) with
  | none => none
  | some o =>
    let b := va / 65536 * 65536
    if o.data.length ≠ 0 ∧ o.dataVa ≤ va then
      some { va := b, size := 65536, pa := keyData x b, rd := true, wr := true, nomig := true, owner := x, pte := 0 }
    else some { va := b, size := 65536, pa := keyCode b, rd := true, wr := false, nomig := true, owner := 0, pte := 0 }

/-- The walk of context x (R353, R355): the entries that the loader wrote for its code objects, else the driver's tables; none is the
page fault. -/
def walk (s : State) (x va : Nat) : Option Leaf :=
  match codeLeaf s x va with
  | some l => some l
  | none => walkFrom s va 0 (ctxAt s x).root [(39, 512, 12), (30, 512, 12), (21, 512, 12), (16, 32, 8)]

/-- The entry that the TLB of core c holds for an address. -/
def tlbHit (s : State) (c x va : Nat) : Option Tlb :=
  (nth Core.reset s.cores c).tlb.find? (fun e => decide (e.ctx = x) && decide (e.va ≤ va) && decide (va < e.va + e.size))

/-- The page of an address on core c, and whether its owner is the context: the TLB entry where one stands, else the walk;
none where there is no storage. -/
def pageOf (s : State) (c x va : Nat) : Option (Tlb × Bool) :=
  match tlbHit s c x va with
  | some e => if paOk s (e.pa + (va - e.va)) then some (e, true) else none
  | none => (walk s x va).map (fun l =>
      ({ ctx := x, va := l.va, size := l.size, pa := l.pa, rd := l.rd, wr := l.wr }, decide (l.owner = x)))

/-! ### Counters (R361) -/

/-- Adds n to every enabled counter of a context whose event code is ev. -/
def Ctx.count (ev n : Nat) (c : Ctx) : Ctx :=
  let f := fun (v : DWord) (cfg : Word) => if cfg.toNat % 2 ^ 16 = ev ∧ cfg.getLsbD 16 then v + BitVec.ofNat 64 n else v
  { c with counts := List.zipWith f c.counts c.cfgs }

/-- Counts n events of code ev in context x. -/
def countEv (x ev n : Nat) (s : State) : State := { s with ctxs := modifyAt (Ctx.count ev n) s.ctxs x }

/-- The storage key of a context's counter save (R351). -/
def ctrKey (s : State) (x : Nat) : Nat := (ctxAt s x).rsvd + 0x1000

/-- The counters of context x go to its counter save: 16 counts, then 16 configuration words (R361). -/
def saveCounts (x : Nat) (s : State) : State :=
  let C := ctxAt s x
  let s := storeBytes x (ctrKey s x) (C.counts.flatMap (fun v => leBytes 8 v.toNat) ++ C.cfgs.flatMap (fun v => leBytes 4 v.toNat)) s
  { s with ctxs := modifyAt (fun C => { C with ctrSaved := true }) s.ctxs x }

/-- The counters of context x come from its counter save. -/
def loadCounts (x : Nat) (s : State) : State :=
  let bs := loadBytes s x (ctrKey s x) 192
  { s with ctxs := modifyAt (fun C => { C with
      counts := (List.range 16).map (fun i => BitVec.ofNat 64 (leNat ((bs.drop (8 * i)).take 8))),
      cfgs := (List.range 16).map (fun i => BitVec.ofNat 32 (leNat ((bs.drop (128 + 4 * i)).take 4))),
      ctrSaved := false }) s.ctxs x }

/-- Counts n events charged to context x by what is not a resident group: in the save area while the context is not resident (R361). -/
def chargeEv (x ev n : Nat) (s : State) : State :=
  if (ctxAt s x).ctrSaved then saveCounts x (countEv x ev n (loadCounts x s)) else countEv x ev n s

/-- A group of context x becomes resident: saved counters are restored (R361). -/
def comeBack (x : Nat) (s : State) : State := if (ctxAt s x).ctrSaved then loadCounts x s else s

/-! ### The checks of an address (R194, R234, R235) -/

/-- Who accesses: context, core of issue, block of a thread or engine, stamp. -/
structure Who where
  x : Nat
  core : Nat
  blk : Option Nat
  stamp : Half
  deriving DecidableEq, Repr

/-- A storage space of R190. -/
inductive Space | sp | ds | dm
  deriving DecidableEq, Repr

/-- The mask bit of a space: scratchpad, die store, device memory. -/
def Space.inMask (m : BitVec 3) : Space → Bool
  | .sp => m.getLsbD 0
  | .ds => m.getLsbD 1
  | .dm => m.getLsbD 2

/-- The space of a storage key. -/
def keySpace (k : Nat) : Space := if isSP k then .sp else if isDS k then .ds else .dm

/-- Two key ranges that meet. -/
def meets (a m b n : Nat) : Bool := decide (a < b + n) && decide (b < a + m)

/-- A resolved access: its storage key, its space, and the page it lies in. -/
structure Acc where
  key : Nat
  space : Space
  page : Option Tlb
  deriving DecidableEq, Repr

/-- One run of consecutive bytes of a transfer: destination, source, length, lane. -/
structure Move where
  dst : Nat
  src : Nat
  n : Nat
  lane : Nat
  deriving DecidableEq, Repr

/-- The moves of a transfer (R270, R271). -/
def engMoves : EngKind → List Move
  | .copy _ _ d a n rows ds ss => (List.range rows).map (fun r => { dst := d + r * ds, src := a + r * ss, n := n, lane := 0 })
  | .gather pk xs e => xs.map (fun (i, x) => { dst := pk + i * e, src := x, n := e, lane := i })
  | .scatter pk xs e => xs.map (fun (i, x) => { dst := x, src := pk + i * e, n := e, lane := i })
  | _ => []

/-- Block shared memory, part size and crew of a block (R192). -/
def partSize (fret crewLog : Nat) : Nat := ((fret + 2 ^ crewLog - 1) / 2 ^ crewLog + 4095) / 4096 * 4096

/-- An engine instruction of block b that has not completed reaches into the part of rank r (R203, R270). -/
def partBusy (s : State) (b r : Nat) : Bool :=
  match (s.blocks[b]?).bind (fun B => s.launches[B.launch]?) with
  | none => false
  | some L =>
    let P := partSize (imgShared s L.kaddr) L.crewLog
    let hit := fun (va n : Nat) => decide (va / 2 ^ 40 = 0xFF) && decide (va % 2 ^ 40 < (r + 1) * P) && decide (r * P < va % 2 ^ 40 + n)
    s.engs.any (fun e => (match s.groups[e.group]? with | some G => decide (G.block = b) | none => false)
      && (engMoves e.kind).any (fun m => hit m.dst m.n || hit m.src m.n))

/-- The part of rank r of block b has been released: every group of the block on that rank has ended, the block does not
hold its crew, and no engine instruction in flight reaches into it, be the part its target or its source (R203, R206; log entry 94). No exit
releases the part of a rank that no group falls to: it stands until the block's last group has ended (log entry 94). -/
def partReleased (s : State) (b r : Nat) (hold : Bool) : Bool :=
  let block := s.groups.filter (fun G => decide (G.block = b))
  let mine := block.filter (fun G => decide (G.rank = r))
  !hold && !partBusy s b r && (if mine.isEmpty then block else mine).all (fun G => G.st == .ended)

/-- Scratchpad key k lies in a part of block b that has been released (R206, R282). -/
def partGone (s : State) (b k : Nat) : Bool :=
  match (s.blocks[b]?).bind (fun B => (s.launches[B.launch]?).map (fun L => (B, L))) with
  | none => false
  | some (B, L) =>
    let c := (k - 2 ^ 40) / 2 ^ 21
    let o := k % 2 ^ 21
    isSP k && L.travel.isNone && decide (B.core ≤ c) && decide (c < B.core + 2 ^ L.crewLog) && decide (B.part ≤ o)
      && decide (o < B.part + partSize (imgShared s L.kaddr) L.crewLog) && partReleased s b (c - B.core) ((imgFhdr s L.kaddr).getLsbD 6)

/-- The scratchpad byte at an aperture offset: none when the part has been released (R192, R206, R322). -/
def aperture (s : State) (w : Who) (o : Nat) : Option Nat :=
  match w.blk.bind (fun b => s.blocks[b]?) with
  | none => none
  | some B =>
    match s.launches[B.launch]? with
    | none => none
    | some L =>
      if L.travel.isSome then some (keyScratch w.core o)
      else
        let P := partSize (imgShared s L.kaddr) L.crewLog
        let r := o / P
        if partReleased s (w.blk.getD 0) r ((imgFhdr s L.kaddr).getLsbD 6) then none else some (keyScratch (B.core + r) (B.part + o % P))

/-- The shared-memory bytes of a block's kernel. -/
def fretOf (s : State) (w : Who) : Nat :=
  match w.blk.bind (fun b => s.blocks[b]?) with
  | none => 0
  | some B => match s.launches[B.launch]? with | none => 0 | some L => imgShared s L.kaddr

/-- The line of key a may be accessed by w (R234): under another owner's tag it has no state for w (R359). An access by another group to a
private object of a group that has ended faults until the stamp is used again (R231 leaves it open; DESIGN CHOICE, log entry 93). -/
def lineOk (s : State) (w : Who) (a : Nat) : Bool :=
  if isDS a then
    let (st, stamp) := NMap.get (.shared, 0) s.lines (a / 64)
    st == .shared || foreign s w.x a || stamp == 0 || stamp == w.stamp
  else true

/-- A private or pending line of context x, closed to the host, peers, and what acts for no group (R234). -/
def hiddenLine (s : State) (x k : Nat) : Bool := isDS k && (NMap.get (.shared, 0) s.lines (k / 64)).1 != .shared && !foreign s x k

/-- Every line of n bytes from key a may be accessed. -/
def linesOk (s : State) (w : Who) (a n : Nat) : Bool :=
  (List.range ((a + n - 1) / 64 - a / 64 + 1)).all (fun i => lineOk s w ((a / 64 + i) * 64))

/-- No byte of n bytes from key a lies in a header word of context x (R235). -/
def noHeader (s : State) (x a n : Nat) : Bool :=
  (List.range ((a + n - 1) / 8 - a / 8 + 1)).all (fun i => !headerAt s ((a / 8 + i) * 8) || foreign s x ((a / 8 + i) * 8))

/-- Every line of a span is shared and holds no header word, for context x (R240). -/
def linesFree (v : State) (x k n : Nat) : Bool :=
  (List.range n).all (fun j => (NMap.get (.shared, 0) v.lines (k / 64 + j)).1 == .shared || foreign v x (64 * (k / 64 + j))) && noHeader v x k (64 * n)

/-- A poisoned word that context x reads in n bytes from key a (R400): under another owner's tag there is none (R359). -/
def poisoned (s : State) (x a n : Nat) : Bool :=
  (List.range ((a + n - 1) / 4 - a / 4 + 1)).any (fun i => NMap.get false s.poison (a / 4 + i) && !foreign s x (4 * (a / 4 + i)))

/-- The checks of R194 for n bytes at an address that must be a multiple of al, in the order of R194; ecc: a read also checks for
poison (R400). -/
def resolveAt (ecc : Bool) (s : State) (w : Who) (va n al : Nat) (mask : BitVec 3) (wr : Bool) : Except Cause Acc :=
  if 2 ^ 48 ≤ va then .error .addressRange
  else if va / 2 ^ 40 = 0xFF then
    let o := va % 2 ^ 40
    if fretOf s w < o + n then .error .addressRange
    else if va % al ≠ 0 then .error .misalignment
    else if !Space.inMask mask .sp then .error .space
    else
      match aperture s w o with
      | none => .error .peerGone
      | some k => if ecc && !wr && poisoned s w.x k n then .error .uncorrectableData else .ok { key := k, space := .sp, page := none }
  else if va % al ≠ 0 then .error .misalignment
  else
    match pageOf s w.core w.x va with
    | none => .error .page
    | some (e, own) =>
      let spc : Space := if isDS e.pa then .ds else .dm
      let k := e.pa + (va - e.va)
      if !Space.inMask mask spc then .error .space
      else if !own || (wr && !e.wr) || (!wr && !e.rd) then .error .permission
      else if !linesOk s w k n then .error .privateAccess
      else if wr && !noHeader s w.x k n then .error .header
      else if ecc && !wr && poisoned s w.x k n then .error .uncorrectableData
      else .ok { key := k, space := spc, page := some e }

/-- The checks of an access of a thread. -/
def resolve (s : State) (w : Who) (va n al : Nat) (mask : BitVec 3) (wr : Bool) : Except Cause Acc := resolveAt true s w va n al mask wr

/-- The checks of an access that reads, writes or does both: as a write first. -/
def resolveRW (s : State) (w : Who) (va n al : Nat) (mask : BitVec 3) (rd wr : Bool) : Except Cause Acc :=
  match resolve s w va n al mask wr with
  | .error c => .error c
  | .ok a => if rd && wr then (match resolve s w va n al mask false with | .error c => .error c | .ok _ => .ok a) else .ok a

/-- The lanes' accesses: the first active lane that fails, with its cause, or every lane's access. -/
def resolveLanes (s : State) (w : Who) (m : Mask) (n al : Nat) (mask : BitVec 3) (rd wr : Bool) :
    Nat → Nat → List DWord → Except (Nat × Cause) (List (Nat × Acc))
  | 0, _, _ => .ok []
  | k + 1, i, as =>
    if m.getLsbD i then
      let a := (as.headD 0).toNat
      match resolveRW s w a n al mask rd wr with
      | .error c => .error (i, c)
      | .ok acc =>
        match resolveLanes s w m n al mask rd wr k (i + 1) as.tail with
        | .error e => .error e
        | .ok r => .ok ((i, acc) :: r)
    else resolveLanes s w m n al mask rd wr k (i + 1) as.tail

/-! ### TLB entries and migration counters (R197, R199) -/

/-- The TLB with an entry: at most 256, the oldest leaves (log entry 5). -/
def tlbAdd (e : Tlb) (t : List Tlb) : List Tlb := if t.contains e then t else (t ++ [e]).drop ((t.length + 1) - 256)

/-- One access of a group instruction to a page: the TLB entry, unless another context owns the page, event 0x0060 on a miss, and the
die's counter (R197, R199). -/
def touchPage (c x : Nat) (q : Tlb × Bool) (s : State) : State :=
  let e := q.1
  let miss := !(nth Core.reset s.cores c).tlb.contains e
  let fill := fun (s : State) => if q.2 then { s with cores := modifyAt (fun C => { C with tlb := tlbAdd e C.tlb }) s.cores c } else s
  let s := if miss then countEv x 0x60 1 (fill s) else s
  if isDS e.pa && decide (e.size < 2 ^ 30) then
    let ks := NMap.get [0, 0, 0, 0] s.pageCnt e.pa
    { s with pageCnt := NMap.set [0, 0, 0, 0] s.pageCnt e.pa (modifyAt (fun n => min (n + 1) 65535) ks (dieOf c)) }
  else s

/-- The elements of a list, each once. -/
def uniq {α : Type} [DecidableEq α] (l : List α) : List α := l.foldr (fun a r => if r.contains a then r else a :: r) []

/-- The pages an instruction accessed, each counted once. -/
def touchPages (c x : Nat) (es : List (Tlb × Bool)) (s : State) : State := es.foldl (fun s e => touchPage c x e s) s

/-- The addresses of accesses whose page is looked up: those that pass the range and alignment checks (R194). -/
def pageLooks (al : Nat) (vas : List Nat) : List Nat :=
  vas.filter (fun va => decide (va < 2 ^ 48) && decide (va / 2 ^ 40 ≠ 0xFF) && decide (va % al = 0))

/-- The pages that an instruction's accesses at addresses look up, counted once each whether or not the instruction then faults: TLB
entries, event 0x0060 for each miss, one for an address without a mapping too, and the die's counters (R197, R199). more: pages that it
also accesses. -/
def touchWith (w : Who) (al : Nat) (vas : List Nat) (more : List Tlb) (s : State) : State :=
  let looks := (pageLooks al vas).map (fun va => (va, pageOf s w.core w.x va))
  let lost := uniq (looks.filterMap (fun e => if e.2.isNone then some (e.1 / 65536) else none))
  touchPages w.core w.x (uniq (looks.filterMap (·.2) ++ more.map (fun e => (e, true)))) (if lost.isEmpty then s else countEv w.x 0x60 lost.length s)

/-- The pages of an instruction that accesses addresses of its own only. -/
def touchAddrs (w : Who) (al : Nat) (vas : List Nat) (s : State) : State := touchWith w al vas [] s

/-! ### Slices and miss-status entries (R201, R204) -/

/-- Slices of a die. -/
def sliceCount (d : Nat) : Nat := if dieIsN d then 40 else 64

/-- The slice of n that serves a physical address under a seed (R201). -/
def slice (pa seed n : Nat) : Nat :=
  let x := Nat.xor (pa / 64 % 2 ^ 34) seed
  Nat.xor (Nat.xor (x % 2 ^ 16) (x / 2 ^ 16 % 2 ^ 16)) (x / 2 ^ 32 % 4) % n

/-- The home die and slice of a line of die store or device memory for context x: where its accesses are performed (R201, R214). -/
def homeSlice (s : State) (x pa : Nat) : Nat × Nat := (homeDie pa, slice pa (ctxAt s x).seed.toNat (sliceCount (homeDie pa)))

/-- Miss-status entries of a core (R204). -/
def mshrCap (c : Nat) : Nat := if dieIsN (dieOf c) then 64 else 96

/-- A request of group g that has been rejected and not yet retried. -/
def rejected (s : State) (c g : Nat) : Bool := (nth Core.reset s.cores c).mshrRej.any (fun r => r.1 == g)

/-- A request rejected for more than 256 clocks reserves the next entry freed. -/
def Core.reserved (C : Core) : Bool := C.mshrRej.any (fun r => decide (r.2 + 256 < C.clk))

/-- Group g of context x makes n die-store and page-walk requests on core c: each takes an entry, and one that finds none free, or only
a reserved one, is rejected to its group and counts event 0x0061 (R204). -/
def request (c x g n : Nat) (s : State) : State :=
  let C := nth Core.reset s.cores c
  let k := min n (if C.reserved then 0 else mshrCap c - C.mshr.length)
  if n = 0 then s
  else
    let s := { s with cores := modifyAt (fun C => { C with mshr := C.mshr ++ List.replicate k g,
                                                           mshrRej := C.mshrRej ++ List.replicate (n - k) (g, C.clk) }) s.cores c }
    if n = k then s else countEv x 0x61 (n - k) s

/-- The requests that accesses make: one for each lane in die store, and one for each page that the TLB does not hold. -/
def requestsOf (s : State) (w : Who) (al : Nat) (vas : List Nat) (accs : List (Nat × Acc)) : Nat :=
  (accs.filter (fun e => e.2.space == .ds)).length + (uniq ((pageLooks al vas).filterMap (fun va => match pageOf s w.core w.x va with
    | some (e, _) => if (nth Core.reset s.cores w.core).tlb.contains e then none else some e
    | none => none))).length

end Sys2Proof.Machine
end

