-- ==== Sys2Proof/Machine/Code.lean ====
section
/-! DEFINITION. A function image as blocks (R26, R27, R37), its control-flow graph with post-dominators (R71, R148), the
loop headers, the points at which a MARK stands (R147), and liveness (R141). -/

namespace Sys2Proof

/-- The type of the value an instruction defines (R28); none for one that defines nothing. -/
def Instr.resultTy (i : Instr) : Option TyD :=
  match i with
  | .st .. | .strel .. | .stw .. | .stref .. | .objst .. | .accrel .. => none
  | .coll .. => some (.ty .tok)
  | i =>
    match i.raw? with
    | none => none
    | some r => if r.ty = 0 then none else r.tyD

/-- The targets of a transfer. -/
def Instr.targets : Instr → List Target
  | .br _ t => [t]
  | .cbr _ _ t f => [t, f]
  | .switch _ _ d cs => d :: cs
  | .hop _ _ _ t => [t]
  | _ => []

/-- A control transfer (R27). -/
def Instr.isTransfer : Instr → Bool
  | .br .. | .cbr .. | .switch .. | .ret .. | .exit .. | .hop .. => true
  | _ => false

/-- Every operand slot of an instruction. -/
def Instr.slots (i : Instr) : List Opnd := match i.raw? with | none => [] | some r => r.slots

/-- How many gated operations of a restart region an instruction is (R147): `stw` one for each 16 bytes (log entry 60). -/
def Instr.gateWeight : Instr → Nat
  | .stw _ e l _ _ _ => (Machine.Ty.bytes e * (l.toNat + 1) + 15) / 16
  | .st .. | .strel .. | .stref .. | .unref .. | .objinit .. | .objinitRetire .. | .objst .. | .copy .. | .gather .. | .scatter .. | .coll ..
  | .tjoin .. | .ctrctl .. | .accrel .. => 1
  | _ => 0

end Sys2Proof

namespace Sys2Proof.Machine
open Sys2Proof

/-! ### Blocks -/

/-- An instruction of a block: word offset in the code, length in words, the number the next definition receives (R16). -/
structure CInstr where
  off : Nat
  len : Nat
  num : Nat
  i : Instr
  deriving DecidableEq, Repr

/-- A block: header offset, segment, argument types, number of its first argument, instructions. -/
structure CBlk where
  off : Nat
  seg : Nat
  args : List TyD
  first : Nat
  body : List CInstr
  deriving DecidableEq, Repr

/-- The argument types of a block header word sequence (R37), with its length; none for a malformed one. -/
def readHeader (ws : List Word) : Option (Nat × List TyD × Nat) :=
  match readRaw ws with
  | none => none
  | some (r, n) =>
    if r.op = 0x0F ∧ r.ty = 0 ∧ r.dn = false ∧ r.hi = 0 ∧ r.hr = 0 ∧ r.sub = 0 ∧ r.slots.length ≤ 64 ∧ r.words = ws.take n then
      let ts := r.slots.filterMap (fun o => TyD.ofHalf o.half)
      if ts.length = r.slots.length then some (r.md.toNat, ts, n) else none
    else none

/-- Reads blocks from word offset off, the next definition having number num; cur is the open block. Reading stops at the
end of the code or at a word that is no instruction. -/
def scanCode : Nat → List Word → (off num : Nat) → (cur : Option CBlk) → List CBlk → List CBlk
  | 0, _, _, _, cur, acc => acc ++ cur.toList
  | _ + 1, [], _, _, cur, acc => acc ++ cur.toList
  | fuel + 1, w :: ws, off, num, cur, acc =>
    if w.extractLsb' 24 8 = 0x0F then
      match readHeader (w :: ws) with
      | none => acc ++ cur.toList
      | some (sg, ts, n) =>
        scanCode fuel ((w :: ws).drop n) (off + n) (num + ts.length)
          (some { off := off, seg := sg, args := ts, first := num, body := [] }) (acc ++ cur.toList)
    else
      match decode (w :: ws), cur with
      | .ok i n, some b =>
        scanCode fuel ((w :: ws).drop n) (off + n) (if i.resultTy.isSome then num + 1 else num)
          (some { b with body := b.body ++ [{ off := off, len := n, num := num, i := i }] }) acc
      | _, _ => acc ++ cur.toList

/-- The blocks of the image at fn, in order. -/
def blocksOf (s : State) (fn : Nat) : List CBlk :=
  let n := imgClen s fn
  scanCode (n + 1) (codeWords s (fn + 0x20) n) 0 0 none []

/-- The last instruction of a block. -/
def CBlk.last? (b : CBlk) : Option Instr := b.body.getLast?.map (·.i)

/-- The blocks that a block's transfer may reach; the number n of blocks stands for the function's return. -/
def CBlk.succs (n : Nat) (b : CBlk) : List Nat :=
  match b.last? with
  | none => []
  | some i =>
    match i.targets with
    | [] => [n]
    | ts => ts.map (fun t => t.blk.toNat)

/-- The control-flow graph: successors of every block; the last entry is the return. -/
abbrev Cfg := List (List Nat)

/-- The graph of a list of blocks. -/
def cfgOf (bs : List CBlk) : Cfg := bs.map (CBlk.succs bs.length) ++ [[]]

/-- One round of the post-dominator sets. -/
def pdomRound (g : Cfg) (sets : List (List Nat)) : List (List Nat) :=
  g.zipIdx.map (fun (ss, b) =>
    if b + 1 = g.length then [b]
    else b :: (List.range g.length).filter (fun k => k != b && !ss.isEmpty && ss.all (fun c => (nth [] sets c).contains k)))

/-- n rounds. -/
def pdomIter (g : Cfg) : Nat → List (List Nat) → List (List Nat)
  | 0, sets => sets
  | n + 1, sets => pdomIter g n (pdomRound g sets)

/-- The post-dominators of every block. -/
def pdoms (g : Cfg) : List (List Nat) := pdomIter g (g.length + 1) (g.map (fun _ => List.range g.length))

/-- The blocks reached from a list of blocks without passing block a. -/
def reachOff (g : Cfg) (a : Nat) (bs : List Nat) : List Nat :=
  (List.replicate (g.length + 1) ()).foldl (fun seen _ =>
    uniq (seen ++ (seen.flatMap (nth [] g)).filter (· != a))) (bs.filter (· != a))

/-- A path from the blocks can run on forever without passing block a. -/
def endlessOff (g : Cfg) (a : Nat) (bs : List Nat) : Bool :=
  let r := reachOff g a bs
  r.any (fun c => (reachOff g a (nth [] g c)).contains c)

/-- The first block that every path from block b passes, b reaching no return (log entry 66). -/
def endlessJoin (g : Cfg) (b : Nat) : Option Nat :=
  let ss := nth [] g b
  let cands := (List.range g.length).filter (fun p => !endlessOff g p ss)
  cands.find? (fun p => cands.all (fun q => q == p || (reachOff g q ss).contains p))

/-- The immediate post-dominator of block b: none when it is the return (R148). Paths that end nothing do not count against one
that returns; where no path from b returns, every path counts. -/
def ipdom (g : Cfg) (b : Nat) : Option Nat :=
  if (reachOff g g.length (nth [] g b)).contains (g.length - 1) then
    let sets := pdoms g
    let mine := (nth [] sets b).filter (· != b)
    mine.find? (fun p => (nth [] sets p).length = mine.length && p + 1 < g.length)
  else endlessJoin g b

/-- A branch at which a group may diverge. -/
def CBlk.diverges (b : CBlk) : Bool := match b.last? with | some (.cbr ..) => true | some (.switch ..) => true | _ => false

/-- A block whose first bundle is a MARK (R147): a loop header, a target of a diverging branch, or a join. -/
def isMarkBlk (bs : List CBlk) (k : Nat) : Bool :=
  let g := cfgOf bs
  bs.zipIdx.any (fun (b, j) =>
    (decide (k ≤ j) && (nth [] g j).contains k)
    || (b.diverges && ((nth [] g j).contains k || ipdom g j == some k)))

/-- The block that holds the code word at an offset. -/
def blkAt (bs : List CBlk) (off : Nat) : Option Nat := (bs.zipIdx.filter (fun (b, _) => b.off ≤ off)).getLast?.map (·.2)

/-- The instruction at a portable address of the function at fn, with its block. -/
def instrAt (bs : List CBlk) (fn va : Nat) : Option (Nat × CInstr) :=
  let off := (va - fn - 0x20) / 4
  match blkAt bs off with
  | none => none
  | some k => (bs[k]?.bind (fun b => b.body.find? (fun c => c.off = off))).map (fun c => (k, c))

/-- Address of the first instruction of block k. -/
def blkStart (bs : List CBlk) (fn k : Nat) : Nat :=
  match bs[k]? with
  | none => fn
  | some b => fn + 0x20 + 4 * (match b.body with | [] => b.off + 1 | c :: _ => c.off)

/-! ### Liveness (R141) -/

/-- The values an instruction uses. -/
def CInstr.uses (c : CInstr) : List Nat :=
  c.i.slots.filterMap (fun o => match o with | .val d => if d.toNat ≤ c.num then some (c.num - d.toNat) else none | _ => none)

/-- The linear order: headers and instructions with the offset, the values defined and the values used. -/
def linear (bs : List CBlk) : List (Nat × List Nat × List Nat) :=
  bs.flatMap (fun b => (b.off, (List.range b.args.length).map (b.first + ·), []) ::
    b.body.map (fun c => (c.off, (if c.i.resultTy.isSome then [c.num] else []), c.uses)))

/-- The position in the linear order at which value v is defined. -/
def defPos (lin : List (Nat × List Nat × List Nat)) (v : Nat) : Nat := lin.findIdx (fun e => e.2.1.contains v)

/-- The last position that uses value v; its definition when nothing does. -/
def lastUse (lin : List (Nat × List Nat × List Nat)) (v : Nat) : Nat :=
  lin.zipIdx.foldl (fun m (e, i) => if e.2.2.contains v then i else m) (defPos lin v)

/-- Position of a block's header. -/
def headPos (bs : List CBlk) (k : Nat) : Nat := ((bs.take k).map (fun b => b.body.length + 1)).foldl (· + ·) 0

/-- The loops: header block and last block of each back edge. -/
def loopsOf (bs : List CBlk) : List (Nat × Nat) :=
  (cfgOf bs).zipIdx.flatMap (fun (ss, j) => (ss.filter (fun k => decide (k ≤ j))).map (fun k => (k, j)))

/-- The end of a value's interval: its last use, extended to the end of the last block of a loop that it enters, and of a
header's own argument to the end of the header's block (R141). -/
def liveEnd (bs : List CBlk) (v : Nat) : Nat :=
  let lin := linear bs
  let d := defPos lin v
  let grow := fun (e : Nat) (l : Nat × Nat) =>
    let h := headPos bs l.1
    if d < h ∧ h ≤ e then max e (headPos bs (l.2 + 1) - 1)
    else if d = h then max e (headPos bs (l.1 + 1) - 1)
    else e
  let ls := loopsOf bs
  -- an extension may carry the interval into another loop
  (List.replicate (ls.length + 1) ()).foldl (fun e _ => ls.foldl grow e) (lastUse lin v)

/-- The values live at the instruction at a word offset: defined before it and used at or after it (R141). At the first
instruction of a block the point is the block's header, so that its arguments count. -/
def liveAt (bs : List CBlk) (off : Nat) : List Nat :=
  let lin := linear bs
  let p := lin.findIdx (fun e => decide (off ≤ e.1))
  let n := (lin.map (fun e => e.2.1.length)).foldl (· + ·) 0
  (List.range n).filter (fun v => decide (defPos lin v < p) && decide (p ≤ liveEnd bs v))

end Sys2Proof.Machine
end

