-- ==== Sys2Proof/Machine/Ops.lean ====
section
/-! DEFINITION. The shared operations on the machine: taking a fault with rollback, the fault log and the fault classes
(R383 to R393), the gated operations and their commit (R147, R181, R223, R387), ends of sides, groups, blocks and contexts
(R74, R294, R352), waits (R295), and the combinators the portable meanings are written with. -/

namespace Sys2Proof.Machine
open Sys2Proof

/-! ### Causes (R383, R384) -/

/-- The cause codes of R384. -/
def causeCode : Cause → Nat
  | .illegalOpcode => 0x01 | .illegalEncoding => 0x02 | .trappingHint => 0x03 | .unsupportedFeature => 0x04
  | .regionLimit => 0x05 | .addressRange => 0x08 | .misalignment => 0x09 | .space => 0x0A | .page => 0x0B
  | .permission => 0x0C | .peerGone => 0x0D | .uncorrectableData => 0x0E | .privateAccess => 0x10 | .escape => 0x11
  | .header => 0x12 | .brokenReference => 0x13 | .notAReference => 0x14 | .closureOverflow => 0x15
  | .arrayBounds => 0x18 | .callDepth => 0x19 | .userTrap => 0x1A | .assertion => 0x1B | .negativeVariance => 0x1C
  | .barrierMisuse => 0x1D | .enqueue => 0x1E | .accessWithoutToken => 0x20 | .divergentMatrix => 0x21
  | .accumulatorLost => 0x22 | .engineFailure => 0x23 | .engineLost => 0x24 | .collectiveMismatch => 0x25
  | .collectiveTimeout => 0x26 | .travelOverflow => 0x28 | .illegalBundle => 0x29 | .uncorrectableState => 0x2A
  | .dieReset => 0x2B | .breakpoint => 0x30 | .watchpoint => 0x31 | .programBreakpoint => 0x32 | .stepComplete => 0x33

/-- The class codes of R383 as R384 assigns them. -/
def causeClass : Cause → Nat
  | .accumulatorLost | .engineLost | .travelOverflow => 2
  | .illegalBundle | .dieReset => 3
  | .breakpoint | .watchpoint | .programBreakpoint | .stepComplete => 7
  | _ => 1

/-! ### Where a group belongs -/

/-- The launch of a block. -/
def launchOfBlk (s : State) (b : Nat) : Option Launch := (s.blocks[b]?).bind (fun B => s.launches[B.launch]?)
/-- The context of a group; 0 where there is none. -/
def groupCtx (s : State) (G : Group) : Nat := match launchOfBlk s G.block with | none => 0 | some L => L.ctx
/-- The groups of a context, by number. -/
def groupsOf (s : State) (x : Nat) : List Nat :=
  (s.groups.zipIdx.filter (fun (G, _) => decide (groupCtx s G = x) && G.st != .ended)).map (·.2)
/-- A live side: one that has not ended. -/
def Side.live (S : Side) : Bool := S.status != .ended
/-- The live sides of a group. -/
def Group.liveSides (G : Group) : List Side := G.sides.filter Side.live

/-! ### Stores that a MARK has passed (R208, R209, R214 to R219, R223) -/

/-- An agent (R208): a lane of a group, an engine instruction of a group, or the host or a peer. -/
inductive Agent
  | thread (g l : Nat)
  | engine (g : Nat)
  | outside
  deriving DecidableEq, Repr

/-- The narrowest scope code that holds agents of two groups (R209). -/
def groupScope (s : State) (g h : Nat) : Nat :=
  if g = h then 1
  else
    match s.groups[g]?, s.groups[h]? with
    | some G, some H => if G.block = H.block then 2 else if dieOf G.core = dieOf H.core then 3 else 4
    | _, _ => 4

/-- The narrowest scope of lane l of group g whose instance holds an agent (R209). -/
def scopeOf (s : State) (g l : Nat) : Agent → Nat
  | .thread h k => if g = h ∧ l = k then 0 else groupScope s g h
  | .engine h => groupScope s g h
  | .outside => 5

/-- Groups of one travel launch on one core, which share its region (R322). -/
def sharesRegion (s : State) (g : Nat) : Agent → Bool
  | .thread h _ | .engine h =>
    (match s.groups[g]?, s.groups[h]? with
     | some G, some H => decide (G.core = H.core) && (match s.blocks[G.block]?, s.blocks[H.block]? with
       | some B, some C => decide (B.launch = C.launch) && (s.launches[B.launch]?).any (fun L => L.travel.isSome)
       | _, _ => false)
     | _, _ => false)
  | .outside => false

/-- The same for accesses at key a: in the region of a travel launch's core, block scope holds every group of the launch there (R322). -/
def scopeAt (s : State) (g l a : Nat) (B : Agent) : Nat :=
  if isSP a && sharesRegion s g B then min 2 (scopeOf s g l B) else scopeOf s g l B

/-- Lane, storage key and bytes of a store. -/
def GOp.span : GOp → Option (Nat × Nat × Nat)
  | .store l a bs => some (l, a, bs.length)
  | .relStore l a bs _ _ => some (l, a, bs.length)
  | .refStore l a _ _ => some (l, a, 8)
  | _ => none

/-- A store of context x takes place, also on a line that another group has made private, or whose header it has written, since the store was
checked at its issue (DESIGN CHOICE, log entry 92). -/
def performStore (x : Nat) (o : GOp) (s : State) : State :=
  match o with
  | .store _ a bs => storeBytes x a bs s
  | .relStore _ a bs _ _ => storeBytes x a bs s
  | .refStore _ a w t => storeTagged x a w t s
  | _ => s

/-- The stores to perform, of a buffer with the latest first: those wanted, and before each the earlier ones it meets (R214). Of the others,
those that a release or release fence of the same lane puts before one performed become owed to its scope (R216, R219). seen: lane, key and
bytes of those performed; rels: lane, mask and scope of the releases passed. -/
def splitHeld (want : Held → Bool) : List Held → (seen : List (Nat × Nat × Nat)) → (rels : List (Nat × BitVec 3 × Nat)) →
    List Held × List Held
  | [], _, _ => ([], [])
  | e :: r, seen, rels =>
    match e.op.span, e.op with
    | some (l, a, n), o =>
      if want e || seen.any (fun q => meets a n q.2.1 q.2.2) then
        let t := splitHeld want r ((l, a, n) :: seen) (match o with | .relStore _ _ _ mask sc => (l, mask, sc.toNat) :: rels | _ => rels)
        (e :: t.1, t.2)
      else
        let t := splitHeld want r seen rels
        (t.1, { e with owed := rels.foldl (fun m q => if q.1 = l ∧ (keySpace a).inMask q.2.1 then max m q.2.2 else m) e.owed } :: t.2)
    | none, .fence m mask sc =>
      let ls := uniq ((seen.filter (fun q => m.getLsbD q.1 && (keySpace q.2.1).inMask mask)).map (·.1))
      let t := splitHeld want r seen (ls.map (fun l => (l, mask, sc.toNat)) ++ rels)
      (t.1, e :: t.2)
    | none, _ => let t := splitHeld want r seen rels; (t.1, e :: t.2)

/-- Reads performed early where an agent writes are noted: they have become older than the write. -/
def noteEarly (B : Agent) (a n : Nat) (s : State) : State :=
  { s with groups := s.groups.zipIdx.map (fun (G, g) => { G with early := G.early.map (fun r =>
      if meets a n r.a r.bs.length then { r with wrote := min r.wrote (scopeAt s g r.lane a B) } else r) }) }

/-- Performs stores of the first n of group g's buffer: those wanted, with those that must come before them. force: what each first finds
owed to its lane. -/
def landHeld (force : Agent → Nat → Nat → State → State) (g n : Nat) (want : Held → Bool) (seen : List (Nat × Nat × Nat)) (s : State) : State :=
  match s.groups[g]? with
  | none => s
  | some G =>
    if G.wbuf.isEmpty then s
    else
      let t := splitHeld want (G.wbuf.take n).reverse seen []
      let kept := (t.2.reverse ++ G.wbuf.drop n).dropWhile (fun e => e.op.span.isNone)
      t.1.reverse.foldl (fun s e => match e.op.span with
        | some (l, a, k) => performStore (groupCtx s G) e.op (noteEarly (.thread g l) a k (force (.thread g l) a k s))
        | none => s) (s.updGroup g (fun G => { G with wbuf := kept }))

/-- An agent is about to access n bytes at key a: stores there that are owed to it are performed first (R219). -/
def force : Nat → Agent → (a n : Nat) → State → State
  | 0, _, _, _, s => s
  | f + 1, B, a, n, s =>
    (List.range s.groups.length).foldl (fun s g =>
      landHeld (force f) g ((s.groups[g]?).map (fun G => G.wbuf.length) |>.getD 0) (fun e => match e.op.span with
        | some (l, k, m) => meets a n k m && decide (1 ≤ scopeAt s g l a B) && decide (scopeAt s g l a B ≤ e.owed)
        | none => false) [] s) s

/-- An agent accesses n bytes at key a. -/
def reach (B : Agent) (wr : Bool) (a n : Nat) (s : State) : State :=
  let s := force s.groups.length B a n s
  if wr then noteEarly B a n s else s

/-- Group g's buffered stores that are wanted are performed. -/
def landWhere (g : Nat) (want : Held → Bool) (s : State) : State :=
  landHeld (force s.groups.length) g ((s.groups[g]?).map (fun G => G.wbuf.length) |>.getD 0) want [] s

/-- All of group g's buffered stores. -/
def landAll (g : Nat) (s : State) : State := landWhere g (fun _ => true) s

/-- A buffered store is to a space of a mask. -/
def Held.inMask (mask : BitVec 3) (e : Held) : Bool := match e.op.span with | some (_, a, _) => (keySpace a).inMask mask | none => false

/-- Those in the spaces of a mask. -/
def landMask (mask : BitVec 3) (g : Nat) (s : State) : State := landWhere g (Held.inMask mask) s

/-- Those of them that stand before engine instruction i in program order (R221): the ones before its mark in the buffer. With no mark all
earlier ones have been performed. -/
def landBefore (mask : BitVec 3) (i g : Nat) (s : State) : State :=
  match ((s.groups[g]?).map (fun G => G.wbuf.findIdx (fun e => e.op == .engine i))) with
  | some n => if ((s.groups[g]?).bind (fun G => G.wbuf[n]?)).isSome then landHeld (force s.groups.length) g n (Held.inMask mask) [] s else s
  | none => s

/-- Those that meet n bytes at key a. -/
def landOver (a n g : Nat) (s : State) : State :=
  landWhere g (fun e => match e.op.span with | some (_, k, m) => meets a n k m | none => false) s

/-- Buffered store i of group g, in no stated order against stores elsewhere (R217). -/
def landOne (g i : Nat) (s : State) : State :=
  match (s.groups[g]?).bind (fun G => G.wbuf[i]?) with
  | some e => (match e.op.span with
    | some q => landHeld (force s.groups.length) g (i + 1) (fun _ => false) [q] s
    | none => s)
  | none => s

/-- Every group's, as where pages or keys change. -/
def landEvery (s : State) : State := (List.range s.groups.length).foldl (fun s g => landAll g s) s

/-- The lanes of m have a release, a full fence or an arrival behind them: their stores before it in the mask's spaces are owed to its scope
(R216, R219). -/
def owe (g : Nat) (m : Mask) (mask : BitVec 3) (sc : Nat) (s : State) : State :=
  s.updGroup g (fun G => { G with wbuf := G.wbuf.map (fun e => match e.op.span with
    | some (l, a, _) => if m.getLsbD l ∧ (keySpace a).inMask mask then { e with owed := max e.owed sc } else e
    | none => e) })

/-- A store before a stop is owed at the scope of the stop's implied release (R224). -/
def Held.release (sc : Nat) (e : Held) : Held := { e with owed := max e.owed sc }

/-- A store to n bytes from key a is owed to lane l of group g within scope sc, though it has not been performed yet. -/
def owedTo (s : State) (g l a n sc : Nat) : Bool :=
  s.groups.zipIdx.any (fun (H, h) => H.wbuf.any (fun e => match e.op.span with
    | some (k, b, m) => meets a n b m && (let d := scopeAt s h k b (.thread g l); decide (1 ≤ d) && decide (d ≤ min e.owed sc))
    | none => false))

/-- The lanes of m acquire at a scope over a mask: reads performed early no longer count where an agent within the scope has since written,
or owes a store that it has released (R216, R219). -/
def acquire (g : Nat) (m : Mask) (mask : BitVec 3) (sc : Nat) (s : State) : State :=
  s.updGroup g (fun G => { G with early := G.early.filter (fun r => !(m.getLsbD r.lane && (keySpace r.a).inMask mask
    && (decide (r.wrote ≤ sc) || owedTo s g r.lane r.a r.bs.length sc))) })

/-- What is owed to group g where it stands, and what it owes, is performed before it goes to another core: a scope counts the agents of
the place where its operation was performed (R209). -/
def settleScopes (g : Nat) (s : State) : State :=
  (List.range s.groups.length).foldl (fun s h => landWhere h (fun e => match e.op.span with
    | some (l, a, _) => if h = g then decide (1 ≤ e.owed) else decide (1 ≤ scopeAt s h l a (.thread g 0)) && decide (scopeAt s h l a (.thread g 0) ≤ e.owed)
    | none => false) s) s

/-- A lane of group g has read or written n bytes at key a now: what it read there earlier no longer counts (R214). -/
def dropEarly (g l a n : Nat) (s : State) : State :=
  s.updGroup g (fun G => { G with early := G.early.filter (fun r => !(decide (r.lane = l) && meets a n r.a r.bs.length)) })

/-- The operations of a group that its lanes hold gated or in the buffer. -/
def Group.ownOps (G : Group) : List GOp :=
  G.wbuf.map (·.op) ++ G.sides.flatMap (·.gated) ++ ((G.native.map (fun N => N.gated.map (·.2))).getD [])

/-- The keys that an operation writes, with its lane. -/
def GOp.reach? : GOp → Option (Nat × Nat × Nat)
  | .objInit l a _ n _ | .objRetire l a n => some (l, a, 64 * n)
  | .untag l a => some (l, a, 8)
  | o => o.span

/-- A lane of group g reads n bytes at key a early, within 16 (R211): not past a store of its own to the place (R214). -/
def readEarly (g l a n : Nat) (s : State) : State :=
  match s.groups[g]? with
  | none => s
  | some G =>
    if 16 < a % 16 + n ∨ G.ownOps.any (fun o => match o.reach? with | some (k, b, m) => k == l && meets a n b m | none => false) then s
    else
      let s := reach (.thread g l) false a n s
      let x := groupCtx s G
      s.updGroup g (fun H => { H with early := H.early ++
        [{ lane := l, a := a, bs := loadBytes s x a n, tag := decide (a % 8 = 0) && seenTag s x a, wrote := 6 }] })

/-! ### Signals from hardware (R389, R294, R308) -/

/-- The storage key of a signal address of context x: a multiple of 8 in mapped device memory or die store. -/
def signalKey (s : State) (x va : Nat) : Option Nat :=
  if va % 8 ≠ 0 ∨ va = 0 ∨ 2 ^ 48 ≤ va ∨ va / 2 ^ 40 = 0xFF then none
  else (walk s x va).bind (fun l => if l.owner = x then some (l.pa + (va - l.va)) else none)

/-- Hardware that acts for no group writes the signal at key k of context x at system scope. On a private or pending line, and over a header
word, the write has no effect and counts event 0x0074, as a host's (R234, R235; DESIGN CHOICE, log entry 91). -/
def hwSignal (x k : Nat) (f : DWord → DWord) (s : State) : State :=
  let s := reach .outside true k 8 s
  if hiddenLine s x k || !noHeader s x k 8 then chargeEv x 0x74 1 s else storeWord x k (f (loadWord s x k)) s

/-- Decrements the signal at va by v, as hardware does at system scope; nothing when it is not mapped. -/
def hwDecrement (x va : Nat) (v : DWord) (s : State) : State :=
  match signalKey s x va with
  | none => s
  | some k => hwSignal x k (· - v) s

/-! ### The fault log (R390, R391) -/

/-- The control line of the fault log of a context. -/
def faultCtl (s : State) (x : Nat) : Nat := (ctxAt s x).rsvd + 0x8000
/-- Entry n of the fault log. -/
def faultEntry (s : State) (x n : Nat) : Nat := (ctxAt s x).rsvd + 0x9000 + 512 * (n % 64)

/-- What a fault-log entry says (R391). -/
structure FaultRec where
  cause : Cause
  lane : Nat
  stamp : Half
  flg : Nat
  paddr : Nat
  maddr : Nat
  bid : Nat
  gid : Nat
  core : Nat
  seg : Nat
  aux : DWord
  flags : Word
  /-- values live at the MARK with a live record: number, tag, words, bits -/
  vals : List (Nat × Bool × Nat × DWord)
  deriving DecidableEq, Repr

/-- One value entry of 16 bytes. -/
def valEntry (v : Nat × Bool × Nat × DWord) : List Byte :=
  leBytes 8 (v.1 % 2 ^ 16 + (if v.2.1 then 2 ^ 16 else 0) + v.2.2.1 * 2 ^ 17) ++ leBytes 8 v.2.2.2.toNat

/-- The 512 bytes of an entry. -/
def faultBytes (s : State) (f : FaultRec) : List Byte :=
  let kept := f.vals.take 28
  let flg := f.flg ||| (if 28 < f.vals.length then 2 else 0)
  leBytes 2 (causeCode f.cause) ++ leBytes 1 (causeClass f.cause) ++ leBytes 1 f.lane ++ leBytes 2 f.stamp.toNat
    ++ leBytes 1 0 ++ leBytes 1 flg ++ leBytes 8 f.paddr ++ leBytes 8 f.maddr ++ leBytes 4 f.bid ++ leBytes 2 f.gid
    ++ leBytes 1 f.core ++ leBytes 1 f.seg ++ leBytes 8 f.aux.toNat ++ leBytes 8 s.time ++ leBytes 4 f.flags.toNat
    ++ leBytes 2 f.vals.length ++ leBytes 2 kept.length ++ leBytes 8 0
    ++ (kept.flatMap valEntry) ++ List.replicate (448 - 16 * kept.length) 0

/-- The number the next entry gets: none when TAIL − HEAD is 64 (R390). -/
def faultRoom (s : State) (x : Nat) : Option Nat :=
  let k := faultCtl s x
  let t := (loadWord s x k).toNat
  if 64 ≤ t - (loadWord s x (k + 8)).toNat then none else some t

/-- Writes the entry, then TAIL, then decrements FSIG; a full log only counts LOST (R390). -/
def writeFault (x : Nat) (f : FaultRec) (s : State) : State :=
  let k := faultCtl s x
  match faultRoom s x with
  | none => storeWord x (k + 32) (loadWord s x (k + 32) + 1) s
  | some n =>
    let s := storeBytes x (faultEntry s x n) (faultBytes s f) s
    let s := storeWord x k (BitVec.ofNat 64 (n + 1)) s
    hwDecrement x (loadWord s x (k + 16)).toNat 1 s

/-- HOLD has the bit of a cause (R390). -/
def holdBit (s : State) (x : Nat) (c : Cause) : Bool := (loadWord s x (faultCtl s x + 24)).getLsbD (causeCode c)

/-! ### Values at a portable point (R389, R391) -/

/-- The type of value v of the function whose blocks are bs. -/
def valTy (bs : List CBlk) (v : Nat) : Option TyD :=
  match bs.find? (fun b => decide (b.first ≤ v) && decide (v < b.first + b.args.length)) with
  | some b => b.args[v - b.first]?
  | none => ((bs.flatMap (·.body)).find? (fun c => c.num = v && c.i.resultTy.isSome)).bind (fun c => c.i.resultTy)

/-- The words field of a value's entry: 2 for a pair, 3 for an array (R391, R414). -/
def tyWords : TyD → Nat
  | .ty t => if t == .i64 || t == .mo || t == .ref then 2 else 1
  | .arr _ _ => 3
  | .s8 => 1

/-- A lane's tag and bits of a value; none of an array (R414). -/
def Val.tagBits : Val → Bool × DWord
  | .bits x => (false, x)
  | .ref x t => (t, x)
  | .arr _ => (false, 0)
  | .tok _ | .acc => (false, 0)

/-- The values of the innermost frame of a side's state, live at its pc, that have a live record. -/
def liveVals (s : State) (c : SideCore) (lane : Nat) : List (Nat × Bool × Nat × DWord) :=
  match c.frames with
  | [] => []
  | F :: _ =>
    let bs := blocksOf s F.fn
    (liveAt bs ((F.pc - F.fn - 0x20) / 4)).filterMap (fun v =>
      match valTy bs v with
      | none | some (.ty .tok) | some (.ty .acc) => none
      | some t =>
        let tb := (nth (.bits 0) (NMap.get [] F.vals v) lane).tagBits
        some (v, tb.1, tyWords t, tb.2))

/-- The candidates of a group slot begin with age 0 (R296). -/
def Core.fresh (slot : Nat) (C : Core) : Core :=
  let z := fun (m : NMap Nat) => NMap.set 0 (NMap.set 0 m (2 * slot) 0) (2 * slot + 1) 0
  { C with ages := z C.ages, uages := C.uages.map z }

/-! ### Ends (R74, R262, R294, R352) -/

/-- A write to a tile of the set is in flight. -/
def AccSet.busy (A : AccSet) : Bool := A.tiles.any (fun T => !T.flight.isEmpty)

/-- The set that a group which ends still holds: none once no step is in flight (R119). -/
def AccSet.left (A : AccSet) : Option AccSet := if A.busy then some A else none

/-- The tiles of a group return to Free, its set when the steps in flight on it have completed (R119); its tokens no longer count. -/
def Group.freed (G : Group) : Group := { G with acc := G.acc.bind AccSet.left, held := none, translation := none, native := none }

/-- The slots of a block's ended groups are given back (R294). -/
def freeBlock (b : Nat) (s : State) : State :=
  { s with groups := s.groups.map (fun G => if G.block = b ∧ G.st = .ended then { G with resident := false } else G) }

/-- The launch's completion (R294): every block Done or Failed, then CSIG is decremented by 1. -/
def finishLaunch (l : Nat) (s : State) : State :=
  match s.launches[l]? with
  | none => s
  | some L =>
    if L.complete ∨ L.finished < L.nblk then s
    else
      let s := { s with launches := modifyAt (fun L => { L with complete := true }) s.launches l }
      if L.csig = 0 then s else hwDecrement L.ctx L.csig 1 s

/-- A block leaves: Done, or Failed under a fault that does not end the context. -/
def endBlock (b : Nat) (st : BSt) (s : State) : State :=
  match s.blocks[b]? with
  | none => s
  | some B =>
    if B.st = .done ∨ B.st = .failed then s
    else
      let s := freeBlock b { s with blocks := modifyAt (fun B => { B with st := st }) s.blocks b }
      finishLaunch B.launch { s with launches := modifyAt (fun L => { L with finished := L.finished + 1 }) s.launches B.launch }

/-- What a group and its sides wait for: side, wait, since when. -/
def Group.waits (G : Group) : List (Nat × Wait × Nat) :=
  (match G.st with | .waiting w t => [(G.wside, w, t)] | _ => []) ++ G.sides.zipIdx.filterMap (fun (S, i) => S.hold.map (fun h => (i, h)))

/-- Arrival count of thread t on barrier n. -/
def arrivalCount (B : Block) (n t : Nat) : Nat := NMap.get 0 B.arrivals (n * 32768 + t)

/-- The thread's last arrival phase. -/
def lastPhase (B : Block) (n t : Nat) : Word := BitVec.ofNat 32 (arrivalCount B n t) - 1

/-- Phase ph of barrier n is complete: every thread has arrived in it or ended. -/
def phaseDone (B : Block) (ntid n : Nat) (ph : Word) : Bool :=
  (List.range ntid).all (fun t => NMap.get false B.ended t || !(lastPhase B n t - ph).msb)

/-- The waits of a group on a completed phase of block b, whose threads are ntid: barrier and phase. -/
def overWaits (B : Block) (ntid : Nat) (G : Group) : List (Nat × Word) :=
  G.waits.filterMap (fun e => match e.2.1 with | .barrier n ph => if phaseDone B ntid n ph then some (n, ph) else none | _ => none)

/-- The phases of block b that are complete, with groups that wait on them, take their place behind those of the block's cluster (R319). -/
def notePhases (b : Nat) (s : State) : State :=
  match (s.blocks[b]?).bind (fun B => (s.launches[B.launch]?).map (fun L => (B, L))) with
  | none => s
  | some (B, L) =>
    let new := uniq ((s.groups.filter (fun G => decide (G.block = b))).flatMap (fun G => (overWaits B L.ntid G).map (fun e => (b, e.1, e.2))))
    { s with clusters := modifyAt (fun C => { C with phases := C.phases ++ new.filter (fun q => !C.phases.contains q) }) s.clusters (B.core / 8) }

/-- The threads of a mask of group g have ended: they count as arrived at every later phase (R262). -/
def endThreads (g : Nat) (m : Mask) (s : State) : State :=
  match s.groups[g]? with
  | none => s
  | some G =>
    if G.handler then s else
    notePhases G.block { s with blocks := modifyAt (fun B =>
        { B with ended := (lanesOf m).foldl (fun e l => NMap.set false e (G.gid * 128 + l) true) B.ended }) s.blocks G.block }

/-- When every group of a block has ended, handlers of its posts apart, the block drains (R294, R342). -/
def checkDrain (b : Nat) (s : State) : State :=
  if s.groups.all (fun G => G.block != b || G.handler || G.st == .ended) then
    { s with blocks := modifyAt (fun B => if B.st = .running then { B with st := .draining } else B) s.blocks b }
  else s

/-- The slots of the tile save pool that group g holds are free (R135). -/
def freePool (g : Nat) (s : State) : State :=
  match s.groups[g]? with
  | none => s
  | some G =>
    match G.acc with
    | none => s
    | some A => { s with ctxs := modifyAt (fun C => { C with pool := C.pool.filter (fun i => !A.pool.contains i) }) s.ctxs (groupCtx s G) }

/-- The stores of block b's groups into the part of rank r are performed, before the part is released with a group that ends there
(R282). -/
def landPart (b r : Nat) (s : State) : State :=
  match (s.blocks[b]?).bind (fun B => (s.launches[B.launch]?).map (fun L => (B, L))) with
  | none => s
  | some (B, L) =>
    (s.groups.zipIdx.filter (fun e => decide (e.1.block = b))).foldl (fun s e => landWhere e.2 (fun h => match h.op.span with
      | some (_, a, n) => meets a n (keyScratch (B.core + r) B.part) (partSize (imgShared s L.kaddr) L.crewLog)
      | none => false) s) s

/-- The group ends: every thread ended, tiles released (R119), engine instructions still gated dropped. -/
def endGroup (g : Nat) (s : State) : State :=
  match s.groups[g]? with
  | none => s
  | some G =>
    let m := G.sides.foldl (fun (a : Mask) S => if S.live then a ||| S.core.mask ||| S.mark.mask else a) 0
    let s := endThreads g m (freePool g (landPart G.block G.rank (landAll g s)))
    let s := { s with engs := s.engs.filter (fun e => !(decide (e.group = g) && e.st == EngSt.gated)) }
    let s := s.updGroup g (fun G => { G.freed with st := .ended, early := [], sides := G.sides.map (fun S =>
      { S with status := .ended, gated := [], pend := .none }) })
    let failed : Bool := match s.blocks[G.block]? with | some B => decide (B.st = .failed) | none => false
    if failed then freeBlock G.block s else checkDrain G.block s

/-- Every resident group of a block ends. -/
def endBlockGroups (b : Nat) (s : State) : State :=
  (s.groups.zipIdx.filter (fun (G, _) => decide (G.block = b))).foldl (fun s (_, g) => endGroup g s) s

/-- A context ends (R352): ending, queues disabled, groups discarded; its engine instructions drain. -/
def endContext (x : Nat) (s : State) : State :=
  let gs := groupsOf s x
  let bs := (s.blocks.zipIdx.filter (fun (B, _) => (match s.launches[B.launch]? with | some L => decide (L.ctx = x) | none => false))).map (·.2)
  let s := gs.foldl (fun s g => endGroup g s) s
  let s := bs.foldl (fun s b => freeBlock b { s with blocks := modifyAt (fun B => if B.st = .done then B else { B with st := .failed }) s.blocks b }) s
  { s with
    ctxs := modifyAt (fun C => { C with valid := false, st := .ending }) s.ctxs x,
    launches := s.launches.map (fun L => if L.ctx = x then { L with ranges := [], complete := true } else L),
    recs := s.recs.filter (fun r => decide (¬(s.launches[r.launch]?).map (·.ctx) = some x)),
    queues := s.queues.map (fun (i, q) => (i, if q.ctx = x ∧ q.en then { q with en := false, st := .disabled, waits := [] } else q)) }

/-! ### Rollback (R388) -/

/-- The engine instructions that a side holds gated. -/
def gatedEngines (ops : List GOp) : List Nat := ops.filterMap (fun o => match o with | .engine e => some e | _ => none)

/-- A side that begins at a core, its region open and empty. -/
def Side.begin (c : SideCore) (tiles : Option AccSet) (st : SideStatus) : Side :=
  { core := c, status := st, pend := .none, mark := c, markPend := .none, markTiles := tiles, gated := [], age := 0, replays := 0,
    unchecked := 0, turns := 0, skipWatch := none, skipHook := false }

/-- A side put back to its last MARK: gated operations discarded, every shadow and view restored. -/
def Side.rolledBack (S : Side) : Side :=
  { S with core := S.mark, pend := S.markPend, gated := [], age := 0, unchecked := 0, hold := none,
           status := match S.status with | .atExit _ _ _ _ => .running | x => x }

/-- A tile whose writes in flight have drained (R118, R388). -/
def Tile.drained (T : Tile) : Tile := { T with flight := [], st := match T.st with | .heldBusy => .heldIdle | x => x }

/-- The engine numbers of the tile writes of a group. -/
def tileWrites (s : State) (g : Nat) : List Nat :=
  (s.engs.filter (fun e => decide (e.group = g) && (match e.kind with | .tile _ => true | _ => false))).map (·.id)

/-- A lane list in which the lanes of m have their old values. -/
def backLanes {α : Type} (d : α) (m : Mask) (now old : List α) : List α :=
  (List.range 128).map (fun i => if m.getLsbD i then nth d old i else nth d now i)

/-- One shadowed item restored (R181). -/
def Shadow.undo (r : NRegs) : Shadow → NRegs
  | .vec _ n m old => { r with g := NMap.set [] r.g n (backLanes 0 m (NMap.get [] r.g n) old) }
  | .uni _ n old => { r with s := NMap.set 0 r.s n old }
  | .mom _ n m old => { r with m := NMap.set [] r.m n (backLanes 0 m (NMap.get [] r.m n) old) }
  | .preds _ m old => { r with preds := List.zipWith (fun (a b : Mask) => (a &&& ~~~m) ||| (b &&& m)) r.preds old }
  | .ctl _ x lc fmw => { r with x := x, lc := lc, fmw := fmw }
  | .tok .. => r

/-- The windows bound to uniform register n no longer hold its translation (R195). -/
def staleWin (n : Nat) (ws : List Win) : List Win :=
  if n = 0 then ws else modifyAt (fun w => { w with stale := true }) ws ((n + 1) / 2)

/-- The windows after a shadow is restored: those of a uniform register are stale (R195). -/
def Shadow.unwin (ws : List Win) : Shadow → List Win
  | .uni _ n _ => staleWin n ws
  | _ => ws

/-- The tokens after a shadow is restored. -/
def Shadow.untok (k : List (Option Nat)) : Shadow → List (Option Nat)
  | .tok _ n old => modifyAt (fun _ => old) k n
  | _ => k

/-- A result whose bundles count from b on. -/
def PendW.shift (b : Nat) (w : PendW) : PendW := { w with bundle := b + w.bundle, ready := b + w.ready }

/-- A PC slot back at its MARK: after a committing operation the region stays closed until the next MARK (R181). -/
def PcSlot.reopened (P : PcSlot) : PcSlot := { P with closed := P.comm }

/-- A native group back at its MARKs: queues, the region's results and gated operations are gone, shadows are restored
newest first, and each PC slot stands at its MARK (R385, R388). -/
def Native.rolledBack (N : Native) : Native :=
  { N with regs := N.shadow.foldl Shadow.undo N.regs, win := N.shadow.foldl Shadow.unwin N.win, k := N.shadow.foldl Shadow.untok N.k, shadow := [], pend := N.markPend.map (PendW.shift N.bundles), gated := [], ngated := [0, 0],
           latch := [], queue := N.queue.map (fun _ => []), slots := N.markSlots.map (Option.map PcSlot.reopened), stack := N.markStack }

/-- The gated operations of PC slot sd. -/
def Native.gatedOf (N : Native) (sd : Nat) : List GOp := (N.gated.filter (fun e => e.1 = sd)).map (·.2)

/-- The engine instructions that a native group holds gated. -/
def Native.gatedEngs (N : Native) : List Nat := gatedEngines (N.gated.map (·.2))

/-- Every live side of a group goes back to its last MARK; its gated engine instructions never existed, tile writes drain,
and the tiles that a side's region wrote, or was granted, return to what they were (R388, R415). -/
def rollback (g : Nat) (s : State) : State :=
  match s.groups[g]? with
  | none => s
  | some G =>
    let es := G.liveSides.flatMap (fun S => gatedEngines S.gated) ++ (G.native.map Native.gatedEngs).getD []
    let tw := tileWrites s g
    let acc := match G.liveSides with | S :: _ => S.markTiles | [] => G.acc
    let s := { s with engs := s.engs.filter (fun e => !es.contains e.id && !tw.contains e.id) }
    s.updGroup g (fun G => { G with
      sides := G.sides.map (fun S => if S.live then S.rolledBack else S),
      native := G.native.map Native.rolledBack,
      acc := acc.map (fun A => { A with tiles := A.tiles.map Tile.drained }),
      toks := (G.toks.filter (fun t => !es.contains t.e)).map (fun t => if tw.contains t.e ∧ t.st = .pending then { t with st := .complete } else t) })

/-- A walk of group g is in its claim phase, or has ended it, and its `publ` has not gone on. -/
def walkOpen (s : State) (g : Nat) : Bool := s.walks.any (fun W => decide (W.group = g) && !W.released)

/-- A group put back to its MARKs and suspended (R301); its wait is re-executed when it resumes (R147). The region of a `publ` whose walk has
begun stays as it is: its phases go on unchanged (R243). -/
def suspendGroup (g : Nat) (s : State) : State :=
  match s.groups[g]? with
  | none => s
  | some G =>
    match G.st with
    | .ready | .waiting _ _ => (landMask 1 g (if walkOpen s g then s else rollback g s)).updGroup g (fun G => { G with st := .suspended, early := [] })
    | _ => s

/-- A live context halts: its groups are suspended under R301 and its queues are Halted (R287, R352). -/
def haltContext (x : Nat) (s : State) : State :=
  let s := (groupsOf s x).foldl (fun s g => suspendGroup g s) s
  { s with
    ctxs := modifyAt (fun C => if C.st = .live then { C with st := .halted } else C) s.ctxs x,
    queues := s.queues.map (fun (i, q) =>
      (i, if q.ctx = x ∧ (q.st = .ready ∨ q.st = .waiting) then { q with st := .halted, before := q.st } else q)) }

/-- The host debugger's hold (R363). -/
def hostHold (x : Nat) (s : State) : State :=
  haltContext x { s with ctxs := modifyAt (fun C => { C with hhalt := true }) s.ctxs x }

/-! ### Taking a fault (R384, R388 to R393) -/

/-! ### Side tables (R183 to R185) -/

/-- Scratchpad bytes of a core (R1). -/
def scratchBytes : Nat := 1572864

/-- Core c's scratchpad in the save area of context x: SAVE + 1,572,864 × c (R302, R351; log entry 52). -/
def saveKey (s : State) (x c o : Nat) : Nat := (ctxAt s x).save + scratchBytes * c + o

/-- The storage that holds a group's spill area: its core's scratchpad, or the save area once its crew is saved (R302). -/
def spillKey (s : State) (G : Group) (o : Nat) : Nat :=
  if G.resident then keyScratch G.core (G.spill + o) else saveKey s (groupCtx s G) G.core (G.spill + o)

/-- The bytes of a live record. -/
def liveRecBytes (r : Nat × Nat × Bool × Nat) : List Byte :=
  leBytes 4 (r.1 % 2 ^ 16 + r.2.1 % 8 * 2 ^ 16 + (if r.2.2.1 then 2 ^ 19 else 0)) ++ leBytes 4 r.2.2.2

/-- A side table for a function's first code word at a portable address: bundles, bundle map, live maps, slots and stack entries. -/
def tableBytes (fbase nbnd : Nat) (bmap : List (Nat × Nat)) (lmap : List LiveMap) (slots stk : Nat) : List Byte :=
  let liv := 0x30 + 8 * bmap.length
  let rec_ := liv + 16 * lmap.length
  let recs := lmap.flatMap (·.recs)
  leBytes 4 1 ++ leBytes 4 nbnd ++ leBytes 4 bmap.length ++ leBytes 4 lmap.length ++ leBytes 8 fbase ++ leBytes 4 0x30
    ++ leBytes 4 liv ++ leBytes 4 rec_ ++ leBytes 4 (rec_ + 8 * recs.length) ++ leBytes 4 slots ++ leBytes 4 stk
    ++ bmap.flatMap (fun e => leBytes 4 e.1 ++ leBytes 4 e.2)
    ++ (lmap.foldl (fun (a : Nat × List Byte) m =>
        (a.1 + 8 * m.recs.length, a.2 ++ leBytes 4 m.bundle ++ leBytes 1 (if m.exit then 1 else 0) ++ leBytes 1 0 ++ leBytes 2 m.recs.length
          ++ leBytes 4 a.1 ++ leBytes 4 m.port)) (rec_, [])).2
    ++ recs.flatMap liveRecBytes

/-- The number in n bytes of a table from an offset. -/
def tableNat (t : List Byte) (o n : Nat) : Nat := leNat ((t.drop o).take n)

/-- NBND. -/
def Native.nbnd (N : Native) : Nat := tableNat N.table 4 4
/-- The function: FBASE less the 32 bytes before its code. -/
def Native.fn (N : Native) : Nat := tableNat N.table 0x10 8 - 0x20
/-- The bundle map: first bundle and word offset. -/
def Native.bmap (N : Native) : List (Nat × Nat) :=
  (List.range (tableNat N.table 8 4)).map (fun i =>
    let o := tableNat N.table 0x18 4 + 8 * i
    (tableNat N.table o 4, tableNat N.table (o + 4) 4))

/-- The live record at an offset. -/
def readRec (t : List Byte) (o : Nat) : Nat × Nat × Bool × Nat :=
  (tableNat t o 2, tableNat t (o + 2) 1 % 8, tableNat t (o + 2) 1 / 8 % 2 == 1, tableNat t (o + 4) 4)

/-- The live maps of a side table. -/
def tableMaps (t : List Byte) : List LiveMap :=
  (List.range (tableNat t 0xC 4)).map (fun i =>
    let o := tableNat t 0x1C 4 + 16 * i
    { bundle := tableNat t o 4, exit := tableNat t (o + 4) 1 == 1, port := tableNat t (o + 12) 4,
      recs := (List.range (tableNat t (o + 6) 2)).map (fun j => readRec t (tableNat t (o + 8) 4 + 8 * j)) })

/-- The live maps of a native group. -/
def Native.lmap (N : Native) : List LiveMap := tableMaps N.table

/-- The portable address of a bundle of a native group, through the bundle map (R184): 0 where no entry covers it. -/
def Native.port (N : Native) (b : Nat) : Nat :=
  match (N.bmap.filter (fun e => e.1 ≤ b)).getLast? with
  | some e => N.fn + 0x20 + 4 * e.2
  | none => 0

/-- The live map of the MARK at bundle b. -/
def Native.mapAt (N : Native) (b : Nat) : Option LiveMap := N.lmap.find? (fun m => m.bundle = b && !m.exit)

/-- What a C record gives a value of a type (R185): an immediate in the form of R34, a pool constant or a special operand. -/
def constBitsOf (s : State) (G : Group) (N : Native) (t : TyD) (lane n : Nat) : DWord :=
  match n / 2 ^ 30, t, s.blocks[G.block]?, launchOfBlk s G.block with
  | 0, .ty t, _, _ => immVal t (BitVec.ofNat 14 n)
  | 0, _, _, _ => BitVec.ofNat 64 (n % 2 ^ 14)
  | 1, _, _, _ => poolEntry s N.fn (n % 2 ^ 30)
  | 2, _, some B, some L => specOf s G B L [N.fn] (n % 2 ^ 13) lane
  | _, _, _, _ => 0

/-- A location's words in a lane (R389); none for X. -/
def locBits (s : State) (G : Group) (N : Native) (lane : Nat) (r : Nat × Nat × Bool × Nat) : Option (Nat × DWord) :=
  let (_, loc, pair, n) := r
  let two := fun (f : Nat → Nat) => if pair then f n % 2 ^ 32 + f (n + 1) % 2 ^ 32 * 2 ^ 32 else f n % 2 ^ 32
  let w := if pair then 2 else 1
  match loc with
  | 0 => some (w, BitVec.ofNat 64 (two (fun k => (nth 0 (NMap.get [] N.regs.g k) lane).toNat)))
  | 1 => some (w, BitVec.ofNat 64 (two (fun k => (NMap.get 0 N.regs.s k).toNat)))
  | 2 => some (2, nth 0 (NMap.get [] N.regs.m n) lane)
  | 3 => some (w, BitVec.ofNat 64 (two (fun k => (loadWord s (groupCtx s G) (spillKey s G (512 * k + 4 * lane))).toNat)))
  | 4 =>
    let t := (valTy (blocksOf s N.fn) r.1).getD (.ty .i32)
    some (tyWords t, constBitsOf s G N t lane n)
  | _ => none

/-- The values of a native group at the MARK of bundle b (R389). -/
def Native.vals (s : State) (G : Group) (N : Native) (b lane : Nat) : List (Nat × Bool × Nat × DWord) :=
  match N.mapAt b with
  | none => []
  | some m =>
    let bs := blocksOf s N.fn
    m.recs.map (fun r => match valTy bs r.1, locBits s G N lane r with
      | some (.arr _ _), some _ => (r.1, false, 3, 0)
      | _, some (w, x) => (r.1, false, w, x)
      | _, none => (r.1, false, 0, 0))

/-- The entry of a fault of PC slot sd of a native group, after rollback. -/
def nativeRec (s : State) (G : Group) (N : Native) (bid sd : Nat) (c : Cause) (pc : Nat) (lane : Option Nat) (aux : DWord) : FaultRec :=
  let S := nth none N.slots sd
  let b := match S with | some p => p.pc | none => 0
  { cause := c, lane := lane.getD 0xFF, stamp := G.stamp, flg := 0, paddr := pc,
    maddr := (match N.mapAt b with | some m => N.fn + 0x20 + 4 * m.port | none => N.port b), bid := bid, gid := G.gid,
    core := G.core, seg := G.seg, aux := aux, flags := (match S with | some p => p.view.flags | none => 0),
    vals := N.vals s G b (lane.getD 0) }

/-- The entry of a fault of side sd of group g, after rollback. -/
def faultRec (s : State) (g sd : Nat) (c : Cause) (pc : Nat) (lane : Option Nat) (aux : DWord) : FaultRec :=
  match s.groups[g]? with
  | none => { cause := c, lane := 0xFF, stamp := 0, flg := 4, paddr := pc, maddr := 0, bid := 0, gid := 0, core := 0, seg := 0,
              aux := aux, flags := 0, vals := [] }
  | some G =>
    let bid := match s.blocks[G.block]? with | some B => B.bid | none => 0
    match G.native, G.sides[sd]? with
    | some N, _ => nativeRec s G N bid sd c pc lane aux
    | none, none =>
      { cause := c, lane := 0xFF, stamp := G.stamp, flg := 4, paddr := pc, maddr := pc, bid := bid, gid := G.gid, core := G.core,
        seg := G.seg, aux := aux, flags := 0, vals := [] }
    | none, some S =>
      { cause := c, lane := lane.getD 0xFF, stamp := G.stamp, flg := 0, paddr := pc,
        maddr := (match S.core.frames with | F :: _ => F.pc | [] => pc), bid := bid, gid := G.gid, core := G.core, seg := G.seg,
        aux := aux, flags := S.core.view.flags, vals := liveVals s S.core (lane.getD 0) }

/-- A group marked to end at its next MARK, or at once when it stands at one (R384). -/
def doomGroup (c : Cause) (g : Nat) (s : State) : State :=
  match s.groups[g]? with
  | none => s
  | some G =>
    match G.st with
    | .ready => s.updGroup g (fun G => { G with doomed := some c })
    | .ended => s
    | _ => endGroup g s

/-- The block-fatal class: the block is Failed; the faulting group and the groups at a MARK end, the others at their next
MARK (R383, R384). -/
def failBlock (b g : Nat) (c : Cause) (s : State) : State :=
  let s := endBlock b .failed s
  let s := endGroup g s
  let others := (s.groups.zipIdx.filter (fun (G, i) => decide (G.block = b) && decide (i ≠ g))).map (·.2)
  others.foldl (fun s i => doomGroup c i s) s

/-- What the class of a cause takes from the machine (R383). -/
def classEffect (g : Nat) (c : Cause) (s : State) : State :=
  match s.groups[g]? with
  | none => s
  | some G =>
    match causeClass c with
    | 2 => failBlock G.block g c s
    | 3 => endContext (groupCtx s G) s
    | 7 => hostHold (groupCtx s G) s
    | _ => endGroup g s

/-- Reports a fault of a group that stands at its MARKs and gives it its effect: held, or the class's (R390, R392, R393). -/
def report (g sd : Nat) (c : Cause) (pc : Nat) (lane : Option Nat) (aux : DWord) (s : State) : State :=
  match s.groups[g]? with
  | none => s
  | some G =>
    let x := groupCtx s G
    let dbg := (ctxAt s x).dbg
    let f := faultRec s g sd c pc lane aux
    let held := decide (causeClass c = 1) && (dbg || holdBit s x c)
    match faultRoom s x with
    | none => classEffect g c (writeFault x f s)
    | some n =>
      if held then
        let s := writeFault x { f with flg := f.flg ||| 1 } s
        let s := s.updGroup g (fun G => { G with st := .suspended, held := some n })
        if dbg then hostHold x s else s
      else classEffect g c (writeFault x f s)

/-- A fault at portable address pc of side sd of group g: rollback, then the report. -/
def faultAt (g sd : Nat) (c : Cause) (pc : Nat) (lane : Option Nat) (aux : DWord) (s : State) : State :=
  report g sd c pc lane aux (rollback g s)

/-- A fault of the issuing portable instruction. -/
def takeFault (p : Site) (c : Cause) (lane : Option Nat) (aux : DWord) (s : State) : State :=
  faultAt p.g p.sd c p.pc lane aux s

/-- An operand that names nothing of the type required: illegal encoding (R17, R42). -/
def badOperand (p : Site) (s : State) : State := takeFault p .illegalEncoding none 0 s

/-! ### Gated operations and commit (R147, R181, R386, R387) -/

/-- Creates a private object of n lines: its header, body tags cleared, its lines private with a stamp (R231, R233, R240). -/
def performObjInit (x a : Nat) (w : DWord) (n : Nat) (stamp : Half) (s : State) : State :=
  let s := claimLines s x (a / 64) n
  let s := storeTagged x a w true { s with tag := clearTags s.tag (a / 8) (w.toNat % 2 ^ 32 + 1) }
  { s with lines := setLines s.lines (.priv, stamp) (a / 64) n }

/-- Retires a private object of n lines: header word 0 and untagged, body tags cleared, lines shared (R233). -/
def performObjRetire (x a n : Nat) (s : State) : State :=
  let len := (wordAt s a).toNat % 2 ^ 32
  let s := storeWord x a 0 s
  { s with tag := clearTags s.tag (a / 8) (len + 1), lines := setLines s.lines (.shared, 0) (a / 64) n }

/-- A gated engine instruction issues; a collective takes its sequence number (R276). -/
def issueGated (x e : Nat) (s : State) : State :=
  match s.engs.find? (fun E => decide (E.id = e) && E.st == .gated) with
  | none => s
  | some E =>
    let put := fun (k : EngKind) (s : State) =>
      { s with engs := s.engs.map (fun F => if F.id = e then { F with st := .issued, since := s.time, kind := k } else F) }
    match E.kind with
    | .coll kind op t d a cnt grp _ =>
      let q := NMap.get 0 (ctxAt s x).seqs grp
      put (.coll kind op t d a cnt grp q) { s with ctxs := modifyAt (fun C => { C with seqs := NMap.set 0 C.seqs grp (q + 1) }) s.ctxs x }
    | k => put k s

/-- Performs a gated operation of group g, side sd, in context x. -/
def performGop (x g sd : Nat) (o : GOp) (s : State) : State :=
  match o with
  | .store .. | .relStore .. | .refStore .. => performStore x o s
  | .fence .. => s
  | .objInit _ a w n st => performObjInit x a w n st s
  | .objRetire _ a n => performObjRetire x a n s
  | .untag _ a => if headerAt s a || !seenTag s x a then s else setTag a false s
  | .engine e => issueGated x e s
  | .ctrctl n cfg clear =>
    { s with ctxs := modifyAt (fun C => { C with
        cfgs := modifyAt (fun _ => cfg &&& 0x1FFFF) C.cfgs n,
        counts := if clear then modifyAt (fun _ => 0) C.counts n else C.counts }) s.ctxs x }
  | .accrel => s.updGroup g (fun G => { G with acc := none })
  | .spillTag _ a t => setTag a t s
  | .brkpt code pc =>
    if (ctxAt s x).dbg then report g sd .programBreakpoint pc none (BitVec.ofNat 64 code) s else s

/-- The side's region closes with what it holds now. -/
def Side.committed (acc : Option AccSet) (S : Side) : Side :=
  { S with mark := S.core, markPend := S.pend, markTiles := acc, gated := [], age := 0, replays := 0, unchecked := 0 }

/-- A gated operation whose check no longer holds: of a read-modify-write of an object, since another write fell between its check and its
performance (R215, R237, R240); of a store, since its line has become another group's, a header stands there, or the peer part has been
released (R234, R235, R282). -/
def GOp.stale (w : Who) (v : State) (o : GOp) : Bool :=
  match o with
  | .objInit _ a _ n _ => !linesFree v w.x a n
  | .objRetire _ a _ => !headerAt v a || (wordAt v a).toNat / 2 ^ 32 % 4 != 0
  | .untag _ a => headerAt v a
  | _ => match o.span with
    | some (_, a, n) => if isSP a then partGone v (w.blk.getD v.blocks.length) a else !linesOk v w a n || !noHeader v w.x a n
    | none => false

/-- An operation of a list is stale when its turn comes. -/
def staleOps (w : Who) (g sd : Nat) : List GOp → State → Bool
  | [], _ => false
  | o :: r, v => o.stale w v || staleOps w g sd r (performGop w.x g sd o v)

/-- A side of group g holds a stale operation: its region cannot commit, and is replayed, so that the instruction checks again
(R215; DEDUCED, log entry 88). A store counts only where it would fail as things stand now, its own region's operations apart. -/
def groupStale (s : State) (g : Nat) : Bool :=
  match s.groups[g]? with
  | none => false
  | some G =>
    let obj := fun (o : GOp) => match o with | .objInit .. | .objRetire .. | .untag .. => true | _ => false
    let w : Who := { x := groupCtx s G, core := G.core, blk := some G.block, stamp := G.stamp }
    let stale := fun (sd : Nat) (ops : List GOp) => ops.any (fun o => obj o || o.stale w s) && staleOps w g sd ops (landAll g s)
    match G.native with
    | some N => [0, 1].any (fun sd => stale sd (N.gatedOf sd))
    | none => G.sides.zipIdx.any (fun (S, sd) => S.live && stale sd S.gated)

/-- A MARK passes a gated operation: a store enters the buffer of stores to perform (R223); an operation on an object comes after all of
them; any other is performed. -/
def land (x g sd : Nat) (o : GOp) (s : State) : State :=
  match o with
  | .store .. | .relStore .. | .refStore .. => s.updGroup g (fun G => { G with wbuf := G.wbuf ++ [{ op := o, owed := 0 }] })
  | .fence .. => s.updGroup g (fun G => if G.wbuf.isEmpty then G else { G with wbuf := G.wbuf ++ [{ op := o, owed := 0 }] })
  | .objInit l a _ n _ | .objRetire l a n => performGop x g sd o (reach (.thread g l) true a (64 * n) (landAll g s))
  | .untag l a => performGop x g sd o (reach (.thread g l) true a 8 (landAll g s))
  | .engine e => performGop x g sd o (s.updGroup g (fun G => if G.wbuf.isEmpty then G else { G with wbuf := G.wbuf ++ [{ op := .engine e, owed := 0 }] }))
  | .ctrctl .. | .accrel | .spillTag .. | .brkpt .. => performGop x g sd o s

/-- An operation is performed at once. -/
def performNow (x g sd : Nat) (o : GOp) (s : State) : State :=
  performGop x g sd o (match o.span with | some (l, a, n) => reach (.thread g l) true a n s | none => s)

/-- A MARK: the gated operations of the side's region pass it in order and a new region opens (R387). A group that a
block-fatal fault waits for ends here (R384). -/
def commit (g sd : Nat) (s : State) : State :=
  match s.groups[g]? with
  | none => s
  | some G =>
    match G.sides[sd]? with
    | none => s
    | some S =>
      let x := groupCtx s G
      let acc := if S.gated.contains .accrel then none else G.acc
      let s := s.updGroup g (fun G => { G with sides := (modifyAt (Side.committed acc) G.sides sd).map (fun T => { T with markTiles := acc }) })
      let s := S.gated.foldl (fun s o => land x g sd o s) s
      if G.doomed.isSome then endGroup g s else s

/-- The gated operations of the side's region pass, before a committing operation that closes it (R181). -/
def flush (g sd : Nat) (s : State) : State :=
  match (s.groups[g]?).bind (fun G => (G.sides[sd]?).map (fun S => (G, S))) with
  | none => s
  | some (G, S) =>
    (S.gated.filter (fun o => match o with | .brkpt _ _ | .accrel => false | _ => true)).foldl (fun s o => land (groupCtx s G) g sd o s)
      (s.updSide g sd (fun S => { S with gated := S.gated.filter (fun o => match o with | .brkpt _ _ | .accrel => true | _ => false) }))

/-- How many gated operations the operations of one instruction count: one for each part of its first lane's store (log entry 60). -/
def gateCount (ops : List GOp) : Nat :=
  match ops with
  | .store l _ _ :: _ => ops.countP (fun o => match o with | .store k _ _ => k == l | _ => false)
  | [.fence ..] => 0
  | _ => 1

/-- Adds gated operations of one instruction to the side's region. -/
def gate (p : Site) (ops : List GOp) (s : State) : State :=
  s.updSide p.g p.sd (fun S => { S with gated := S.gated ++ ops, age := S.age + gateCount ops })

/-! ### What a side reads of its own gated operations (R181, R386) -/

/-- The byte that a gated operation leaves at key a. -/
def GOp.byteAt (a : Nat) (o : GOp) : Option Byte :=
  match o with
  | .store _ k bs => if k ≤ a then bs[a - k]? else none
  | .relStore _ k bs _ _ => if k ≤ a then bs[a - k]? else none
  | .refStore _ k w _ => if k ≤ a ∧ a < k + 8 then some (w.extractLsb' (8 * (a - k)) 8) else none
  | .objInit _ k w _ _ => if k ≤ a ∧ a < k + 8 then some ((w &&& hdrSeen).extractLsb' (8 * (a - k)) 8) else none
  | .objRetire _ k _ => if k ≤ a ∧ a < k + 8 then some 0 else none
  | _ => none

/-- The lane of a gated store. -/
def GOp.lane? : GOp → Option Nat
  | .store l _ _ => some l
  | .relStore l _ _ _ _ => some l
  | .refStore l _ _ _ => some l
  | .objInit l _ _ _ _ => some l
  | .objRetire l _ _ => some l
  | .untag l _ => some l
  | _ => none

/-- The operations of a group's side that are not performed yet: the buffered ones, then the gated ones. -/
def ownOps (s : State) (g : Nat) (gated : List GOp) : List GOp :=
  ((s.groups[g]?).map (fun G => G.wbuf.map (·.op))).getD [] ++ gated

/-- The byte at key a as lane l of a side reads it: its own latest store not performed yet, else storage. -/
def laneByte (s : State) (x : Nat) (ops : List GOp) (l a : Nat) : Byte :=
  match (ops.filterMap (fun o => if o.lane? = some l then o.byteAt a else none)).getLast? with
  | some b => b
  | none => loadByte s x a

/-- n bytes as lane l reads them. -/
def laneBytes (s : State) (x : Nat) (ops : List GOp) (l a : Nat) : Nat → List Byte
  | 0 => []
  | n + 1 => laneByte s x ops l a :: laneBytes s x ops l (a + 1) n

/-- The little-endian value of n bytes as lane l reads them. -/
def laneWord (s : State) (x : Nat) (ops : List GOp) (l a n : Nat) : DWord := BitVec.ofNat 64 (leNat (laneBytes s x ops l a n))

/-- Storage as a side sees it with all its gated object operations performed. -/
def sideView (s : State) (x g sd : Nat) (ops : List GOp) : State :=
  (ops.filter (fun o => o.lane?.isSome)).foldl (fun s o => performGop x g sd o s) s

/-- Where a storage key goes when n bytes move from a to b. -/
def moveKey (a b n k : Nat) : Nat := if a ≤ k ∧ k < a + n then b + (k - a) else k

/-- A gated operation on moved storage. -/
def GOp.moved (f : Nat → Nat) : GOp → GOp
  | .store l a bs => .store l (f a) bs
  | .relStore l a bs m sc => .relStore l (f a) bs m sc
  | .refStore l a w t => .refStore l (f a) w t
  | .objInit l a w n st => .objInit l (f a) w n st
  | .objRetire l a n => .objRetire l (f a) n
  | .untag l a => .untag l (f a)
  | o => o

/-! ### Waits (R295) -/

/-- A side that can run. -/
def Side.canRun (S : Side) : Bool := S.status == .running && S.hold.isNone

/-- A side other than sd can run; of a native group one in the other PC slot. -/
def Group.othersRun (sd : Nat) (G : Group) : Bool :=
  match G.native with
  | none => G.sides.zipIdx.any (fun (S, i) => i != sd && S.canRun)
  | some N => (nth none N.slots (1 - sd)).any (fun P => P.parked.isNone) && ((G.sides[1 - sd]?).map Side.hold).all Option.isNone

/-- A wait of the whole group, whatever its sides do: one that no other side of it could end. -/
def Wait.whole : Wait → Bool
  | .translation _ | .restore | .claim _ => true
  | _ => false

/-- Side sd waits: while another side can run it alone does, else the group is Waiting (R263, R295, R298). -/
def Group.holdAt (sd : Nat) (w : Wait) (now : Nat) (G : Group) : Group :=
  if G.st ≠ .ready then G
  else if !w.whole && G.othersRun sd then { G with sides := modifyAt (fun S => { S with hold := some (w, now) }) G.sides sd }
  else { G with st := .waiting w now, wside := sd }

/-- The wait of side sd is over; a group that was Waiting for another side's wait is Ready, and that side alone waits on. -/
def Group.endWait (sd : Nat) (G : Group) : Group :=
  let free := modifyAt (fun (S : Side) => { S with hold := none })
  match G.st with
  | .waiting w t =>
    if w.whole then { G with sides := free G.sides sd }
    else if G.wside = sd then { G with st := .ready }
    else if ((G.sides[sd]?).bind Side.hold).isSome then
      { G with st := .ready, sides := free (modifyAt (fun S => { S with hold := some (w, t) }) G.sides G.wside) sd }
    else G
  | _ => { G with sides := free G.sides sd }

/-- Ends every wait that is over. -/
def Group.endWaits (ends : Wait → Bool) (G : Group) : Group :=
  (G.waits.filter (fun e => ends e.2.1)).foldl (fun G e => G.endWait e.1) G

/-- A Ready group none of whose sides can run, with one that waits, is Waiting. -/
def Group.settleHolds (G : Group) : Group :=
  let idle : Bool := match G.native with
    | none => !G.sides.any Side.canRun
    | some N => [0, 1].all (fun i => (nth none N.slots i).all (fun P => P.parked.isSome) || ((G.sides[i]?).bind Side.hold).isSome)
        && N.queue.all List.isEmpty
  match G.waits with
  | (sd, w, t) :: _ =>
    if G.st = .ready ∧ idle then
      { G with st := .waiting w t, wside := sd, sides := modifyAt (fun S => { S with hold := none }) G.sides sd }
    else G
  | [] => G

/-- The side waits, its pc unchanged; of a native group, whose streams issue in order, the whole group. -/
def waitFor (p : Site) (w : Wait) (s : State) : State :=
  s.updGroup p.g (fun G =>
    if G.native.isNone then G.holdAt p.sd w s.time
    else if G.st = .ready then { G with st := .waiting w s.time, wside := p.sd } else G)

/-- Group g waits for its Saved tiles, ahead of every request of its core that is not served yet (R117). -/
def requestRestore (g sd : Nat) (s : State) : State :=
  match s.groups[g]? with
  | none => s
  | some G =>
    if G.st ≠ .ready then s
    else
      { s.updGroup g (fun G => { G with st := .waiting .restore s.time, wside := sd }) with
        cores := modifyAt (fun C => { C with accQueue := g :: C.accQueue.filter (fun h => decide (h ≠ g)) }) s.cores G.core }

/-- What the side carries to its re-execution. -/
def setPend (p : Site) (q : Pend) (s : State) : State := s.updSide p.g p.sd (fun S => { S with pend := q })

/-- A waiting group becomes Ready. -/
def wake (g : Nat) (s : State) : State :=
  s.updGroup g (fun G => match G.st with | .waiting _ _ => { G with st := .ready } | _ => G)

/-- The wait of side sd of group g ends. -/
def wakeSide (g sd : Nat) (s : State) : State := s.updGroup g (Group.endWait sd)

/-! ### Free choices -/

/-- The next number of the counter of free choices (log entry 3). -/
def State.tick (s : State) : State := { s with fresh := s.fresh + 1 }
/-- A new number for an engine instruction, a walk or a divergence. -/
def State.newId (s : State) : Nat × State := (s.ids, { s with ids := s.ids + 1 })

/-! ### Outcomes of a portable meaning -/

/-- What an instruction answers. -/
abbrev Out := Host.Outcome State Fault Refusal

/-- A portable instruction acts at the issuing side; none issuing is noIssuer (log entry 10). -/
def portable (s : State) (k : Site → State → State) : Out :=
  match site? s with
  | none => .refused .noIssuer
  | some p => .next (k p s)

/-- Lane by lane results of one operand of type t. -/
def lanes1 (s : State) (t : Ty) (a : Opnd) (f : DWord → DWord) : Out :=
  portable s (fun p s =>
    match opndBits s p t a with
    | some xs => defineBits p (xs.map f) s
    | none => badOperand p s)

/-- Of two operands of type t. -/
def lanes2 (s : State) (ta tb : Ty) (a b : Opnd) (f : DWord → DWord → DWord) : Out :=
  portable s (fun p s =>
    match opndBits s p ta a, opndBits s p tb b with
    | some xs, some ys => defineBits p (List.zipWith f xs ys) s
    | _, _ => badOperand p s)

/-- f of the lanes of several operands, each a list of lanes. -/
def zipLanes {β : Type} (f : List DWord → β) (xss : List (List DWord)) : List β :=
  (List.range 128).map (fun i => f (xss.map (fun xs => nth 0 xs i)))

/-- Of any number of operands of given types. -/
def lanesN (s : State) (ops : List (Ty × Opnd)) (f : List DWord → DWord) : Out :=
  portable s (fun p s =>
    match ops.foldr (fun (t, o) r => match opndBits s p t o, r with | some x, some xs => some (x :: xs) | _, _ => none) (some []) with
    | some xss => defineBits p (zipLanes f xss) s
    | none => badOperand p s)

/-- Lane by lane results with flags, raised in the side's view (R63). -/
def lanesFlags (s : State) (ops : List (Ty × Opnd)) (f : List DWord → DWord × Flags) : Out :=
  portable s (fun p s =>
    match ops.foldr (fun (t, o) r => match opndBits s p t o, r with | some x, some xs => some (x :: xs) | _, _ => none) (some []) with
    | some xss =>
      let rs := zipLanes f xss
      defineBits p (rs.map (·.1)) (raiseFlags p (laneEvents p.mask (rs.map (·.2))) s)
    | none => badOperand p s)

/-- A value the same in every lane. -/
def defineAll (p : Site) (x : DWord) (s : State) : State := defineBits p (List.replicate 128 x) s

end Sys2Proof.Machine
end

