-- ==== Sys2Proof/Machine/Control.lean ====
section
/-! DEFINITION. Control transfers, divergence and joins, calls and returns (R14, R65, R69 to R76, R147, R148, R385), and the
meanings of the control family. -/

namespace Sys2Proof.Machine
open Sys2Proof

/-! ### Joins (R14, R65, R71, R148) -/

/-- The lanes of mask m of frame b laid over frame a. -/
def mergeFrame (m : Mask) (a b : Frame) : Frame :=
  { a with
    vals := b.vals.foldl (fun acc (k, vs) => NMap.set [] acc k (mergeLanes m (NMap.get [] acc k) vs)) a.vals,
    rets := List.zipWith (mergeLanes m) a.rets b.rets }

/-- Frames of two sides at one join, innermost first. -/
def mergeFrames (m : Mask) (fa fb : List Frame) : List Frame := List.zipWith (mergeFrame m) fa fb

/-- The entry of divergence j in a side. -/
def Side.joinOf (j : Nat) (S : Side) : Option Join := S.core.joins.find? (fun J => J.id = j)

/-- A side waits at divergence j: parked, and j is its innermost. -/
def Side.parkedAt (j : Nat) (S : Side) : Bool :=
  S.status == .parked && (match S.core.joins with | J :: _ => J.id == j | [] => false)

/-- Every side that divergence j made has parked at it or ended. -/
def joinReady (j : Nat) (sides : List Side) : Bool :=
  sides.any (Side.parkedAt j) && sides.all (fun S => (S.joinOf j).isNone || S.parkedAt j || S.status == .ended)

/-- The lowest active lane of a side at each branch it belongs to, the outermost first: the order of views (R65, R71). -/
def SideCore.order (c : SideCore) : List Nat := (c.joins.map (·.low)).reverse

/-- Inserts a side into a list sorted by that order. -/
def insertSide (S : Side) : List Side → List Side
  | [] => [S]
  | T :: r => if lanesBefore S.core.order T.core.order then S :: T :: r else T :: insertSide S r

/-- The views of sides, ended ones too, merged as the rule of each branch has it (R65, R71). -/
def viewOf (sides : List Side) : View := mergeViews ((sides.foldl (fun l T => insertSide T l) []).map (fun T => T.core.view))

/-- Whether a side stands at its innermost join. -/
def SideCore.atJoin (c : SideCore) : Bool :=
  match c.joins, c.frames with
  | J :: _, F :: _ => decide (J.at? = some F.pc) && decide (J.depth = c.frames.length)
  | _, _ => false

/-- The side that the parked sides of divergence j become. -/
def mergedSide (j : Nat) (sides : List Side) : Option Side :=
  let all := sides.filter (fun S => (S.joinOf j).isSome)
  match all.filter (Side.parkedAt j) with
  | [] => none
  | S :: rest =>
    let core := rest.foldl (fun (c : SideCore) T =>
      { c with mask := c.mask ||| T.core.mask, frames := mergeFrames T.core.mask c.frames T.core.frames,
               joins := if c.joins.length < T.core.joins.length then T.core.joins else c.joins }) S.core
    let core := { core with view := viewOf all, joins := core.joins.tail }
    some { S with core := core, mark := core, gated := [], age := 0,
                  status := if core.atJoin then .parked else .running, pend := .none, markPend := .none }

/-! ### Returns (R72, R74) -/

/-- The caller's frame after a return: the first return value is defined, the others can be fetched. -/
def returned (m : Mask) (rets : List (List Val)) (C : Frame) : Frame :=
  match rets with
  | [] => { C with rets := [] }
  | r :: _ => { C.define m r 0 with rets := rets }

/-- The side returns to its caller with the values its frame keeps. -/
def SideCore.ret (c : SideCore) : SideCore :=
  match c.frames with
  | F :: C :: rest => { c with frames := returned c.mask F.rets C :: rest }
  | _ => c

/-- A side that a return merge has made, whose innermost divergence does not join at this return too, returns (R148). -/
def Side.afterMerge (ret : Bool) (S : Side) : Side :=
  if !ret then S
  else
    match S.core.joins with
    | J :: _ =>
      if J.at? = none ∧ J.depth = S.core.frames.length then { S with status := .parked }
      else { S with core := S.core.ret }
    | [] => { S with core := S.core.ret }

/-- A side that waits at a return join. -/
def Side.atReturn (S : Side) : Bool :=
  S.status == .parked && (match S.core.joins with | J :: _ => J.at?.isNone | [] => false)

/-- Merges every ready divergence of a group; the group ends when no side is live. -/
def settleSides : Nat → List Side → List Side
  | 0, sides => sides
  | n + 1, sides =>
    match (sides.flatMap (fun S => match S.core.joins with | J :: _ => [(J.id, J.at?.isNone)] | [] => [])).find?
        (fun e => joinReady e.1 sides) with
    | none => sides
    | some (j, ret) =>
      match mergedSide j sides with
      | none => sides
      | some M => settleSides n (sides.filter (fun S => (S.joinOf j).isNone) ++ [M.afterMerge ret])

/-- A value that is rematerialised and never stored (R144). -/
def isConstDef (bs : List CBlk) (v : Nat) : Bool :=
  match (bs.flatMap (·.body)).find? (fun c => c.num = v && c.i.resultTy.isSome) with
  | some c => (match c.i with | .copyV _ _ (.val _) => false | .copyV _ _ (.spec 9) => false | .copyV .. => true | _ => false)
  | none => false

/-- The values that stand in a caller's frame while its callee runs (R151), each with its slots: those live across the call and
not rematerialised. -/
def frameLive (s : State) (F : Frame) : List (Nat × Nat) :=
  let bs := blocksOf s F.fn
  (liveAt bs ((F.pc - F.fn - 0x20) / 4)).filterMap (fun v =>
    if v = F.next || isConstDef bs v then none
    else match valTy bs v with
      | none | some (.ty .tok) | some (.ty .acc) => none
      | some (.arr e len) => some (v, (len.toNat + 1) * (if e == .i64 then 2 else 1))
      | some t => some (v, tyWords t))

/-- The bytes of the frame of a caller that stands after its call (R151): its live values in slots, and 32 bytes. -/
def frameBytes (s : State) (F : Frame) : Nat := 32 + 512 * (frameLive s F).foldl (fun n e => n + e.2) 0

/-- A return into frame F reloads every value of it (R151, R155). -/
def reloadFrame (x : Nat) (F : Frame) (s : State) : State := countEv x 0x47 (frameLive s F).length s

/-- The frame that a return join of a group's sides has returned to: the caller of the side that waited. -/
def joinedFrames (old new : List Side) : List Frame :=
  new.filterMap (fun S => match S.core.frames with
    | F :: _ => if S.status == .running && old.any (fun T => T.atReturn && decide (T.core.frames.length = S.core.frames.length + 1)) then some F
        else none
    | [] => none)

/-- The other segment in which block k of the function at fn lies for group G of launch L (R321, R326). -/
def exitSeg (s : State) (G : Group) (L : Launch) (fn k : Nat) : Option Nat :=
  if L.travel.isSome && (imgFhdr s fn).getLsbD 2 then
    match (blocksOf s fn)[k]? with
    | some b => if b.seg = G.seg then none else some b.seg
    | none => none
  else none

/-- The other segment in which the continuation of a return into frame F lies (R326). -/
def Frame.exitSeg (s : State) (G : Group) (L : Launch) (F : Frame) : Option Nat :=
  (blkAt (blocksOf s F.fn) ((F.pc - F.fn - 0x20) / 4)).bind (Machine.exitSeg s G L F.fn)

/-- A side that has crossed to another segment parks at the exit: a rollback returns it to the exit MARK (R326, R327). -/
def Side.park (sg : Nat) (mode : HopMode) (key : Word) (S : Side) : Side :=
  { S with status := .atExit (match S.core.frames with | F :: _ => F.pc | [] => 0) sg mode key }

/-- The fetches that stand at a side's pc, at most n of them (R72). -/
def SideCore.fetchRets (bs : List CBlk) : Nat → SideCore → SideCore
  | 0, c => c
  | n + 1, c =>
    match c.frames with
    | [] => c
    | F :: rest =>
      match instrAt bs F.fn F.pc with
      | some (_, ⟨_, len, _, .copyVRet _ _ k⟩) =>
        (match F.rets[immNat k]? with
         | some vs => SideCore.fetchRets bs n { c with frames := F.define c.mask vs len :: rest }
         | none => c)
      | _ => c

/-- A side that has returned into another segment: the return carries the values that the call and its fetches define, and goes on behind
them (R326). -/
def Side.returnExit (s : State) (sg : Nat) (S : Side) : Side :=
  match S.core.frames with
  | F :: _ => Side.park sg .dflt 0 { S with core := S.core.fetchRets (blocksOf s F.fn) F.rets.length }
  | [] => S

/-- A side that a join has made goes on from a MARK, or parks where its return leaves the segment of its group (R147, R326). -/
def Side.settled (s : State) (G : Group) (S : Side) : Side :=
  match S.status, S.core.frames, launchOfBlk s G.block with
  | .running, F :: _, some L =>
    (match F.exitSeg s G L with
     | some sg => S.returnExit s sg
     | none => { S with mark := S.core })
  | _, _, _ => S

/-- Joins of group g, and its end. -/
def settleGroup (g : Nat) (s : State) : State :=
  match s.groups[g]? with
  | none => s
  | some G =>
    let n := G.sides.foldl (fun n S => n + S.core.joins.length) 1
    let raw := settleSides n G.sides
    let sides := raw.map (fun S => if G.sides.contains S then S else S.settled s G)
    let s := s.updGroup g (fun G => { G with sides := sides })
    let s := (joinedFrames G.sides (raw.filter (fun S => !G.sides.contains S))).foldl (fun s F => reloadFrame (groupCtx s G) F s) s
    if sides.any Side.live then s else endGroup g s

/-! ### Arrival at a block -/

/-- Places a side at block k of the current function with the header's arguments (R15, R16). -/
def enterBlock (bs : List CBlk) (k : Nat) (args : List (List Val)) (c : SideCore) : SideCore :=
  match bs[k]? with
  | none => c
  | some b =>
    SideCore.onFrame (fun F =>
      { F with
        vals := args.zipIdx.foldl (fun m (vs, j) => NMap.set [] m (b.first + j) (mergeLanes c.mask (NMap.get [] m (b.first + j)) vs)) F.vals,
        next := b.first + b.args.length, pc := blkStart bs F.fn k }) c

/-- A side that has reached a block: at its join it commits and parks; at another MARK it commits (R147, R385). -/
def arrive (g sd : Nat) (mark : Bool) (s : State) : State :=
  match (s.groups[g]?).bind (fun G => G.sides[sd]?) with
  | none => s
  | some S =>
    if S.status ≠ .running then s
    else if S.core.atJoin then (commit g sd s).updSide g sd (fun S => if S.live then { S with status := .parked } else S)
    else if mark then commit g sd s
    else s

/-- The values a transfer passes, one for each header argument of its target: none when they do not agree (R15). -/
def targetArgs (s : State) (p : Site) (b : CBlk) (t : Target) : Option (List (List Val)) :=
  if t.args.length ≠ b.args.length then none
  else (List.zip b.args t.args).foldr (fun (ty, o) r =>
    match opndVals s p ty o, r with | some v, some vs => some (v :: vs) | _, _ => none) (some [])

/-- The sides of a transfer: the lanes that take each target, with the values passed. -/
def transferParts (s : State) (p : Site) (bs : List CBlk) : List (Mask × Target) → Option (List (Mask × Nat × List (List Val)))
  | [] => some []
  | (m, t) :: r =>
    if m = 0 then transferParts s p bs r
    else
      match bs[t.blk.toNat]?, transferParts s p bs r with
      | some b, some ps => (targetArgs s p b t).map (fun vs => (m, t.blk.toNat, vs) :: ps)
      | _, _ => none

/-- A side of a new divergence; one whose target lies in another segment parks at the exit (R327). -/
def splitSide (s : State) (p : Site) (bs : List CBlk) (mode : HopMode) (key : Word) (J : Join) (S : Side)
    (part : Mask × Nat × List (List Val)) : Side :=
  let c0 := { S.core with mask := part.1, joins := { J with low := lowLane part.1 } :: S.core.joins }
  let c := enterBlock bs part.2.1 part.2.2 c0
  let S' := { S with core := c, mark := c, pend := .none, markPend := .none, gated := [], age := 0, turns := 0 }
  match exitSeg s p.grp p.lau p.fr.fn part.2.1 with
  | some sg => { S'.park sg mode key with mark := c0 }
  | none => S'

/-- A transfer of the issuing side (R70): to one target, or a divergence with a join at the branch's immediate
post-dominator (R148). A target in another segment is a segment exit, at which the side parks (R326, R327). -/
def transferBy (mode : HopMode) (key : Word) (parts : List (Mask × Target)) (p : Site) (s : State) : State :=
  let bs := blocksOf s p.fr.fn
  match transferParts s p bs parts with
  | none => badOperand p s
  | some [] => badOperand p s
  | some [(_, k, vs)] =>
    (match exitSeg s p.grp p.lau p.fr.fn k with
     | some sg => ((commit p.g p.sd s).updCore p.g p.sd (enterBlock bs k vs)).updSide p.g p.sd (Side.park sg mode key)
     | none =>
       let s := s.updCore p.g p.sd (enterBlock bs k vs)
       settleGroup p.g (arrive p.g p.sd (isMarkBlk bs k) s))
  | some ((m, k, vs) :: more) =>
    let s := commit p.g p.sd s
    let (id, s) := s.newId
    let cur := (blkAt bs ((p.pc - p.fr.fn - 0x20) / 4)).getD 0
    let J : Join := { id := id, at? := (ipdom (cfgOf bs) cur).map (blkStart bs p.fr.fn), depth := p.side.core.frames.length, low := 0 }
    let n := p.grp.sides.length
    let s' := s.updGroup p.g (fun G =>
      match G.sides[p.sd]? with
      | none => G
      | some S => { G with sides := modifyAt (fun S => splitSide s p bs mode key J S (m, k, vs)) G.sides p.sd
                                     ++ more.map (splitSide s p bs mode key J S) })
    let s' := arrive p.g p.sd true s'
    settleGroup p.g ((List.range more.length).foldl (fun s i => arrive p.g (n + i) true s) s')

/-- A transfer with the launch's own replica choice. -/
def transfer (parts : List (Mask × Target)) (p : Site) (s : State) : State := transferBy .dflt 0 parts p s

/-- The lanes of the active mask whose element of a list satisfies f. -/
def pick (p : Site) (xs : List DWord) (f : DWord → Bool) : Mask := p.mask &&& maskOf (fun i => f (nth 0 xs i))

/-! ### Functions of a code object (R72, R367) -/

/-- The live object that holds a portable address for a context. -/
def objectAt (s : State) (x va : Nat) : Option (Nat × Obj) :=
  (s.objs.zipIdx.find? (fun (o, _) => o.live && o.maps.contains x && decide (o.laddr ≤ va) && decide (va < o.laddr + o.textLen))).map
    (fun (o, i) => (i, o))

/-- The image at index i of an object's function table. -/
def tableFn (o : Obj) (i : Nat) : Option Nat := (o.ftab[i]?).map (fun e => o.laddr + e.1)

/-- The functions of the object that holds an address for a context. -/
def objFns (s : State) (x va : Nat) : List Nat :=
  match objectAt s x va with | some (_, o) => o.ftab.map (fun e => o.laddr + e.1) | none => []

/-- The entry for a callee operand: an immediate or an i32 constant (R69). -/
def calleeIndex (s : State) (p : Site) (o : Opnd) : Option Nat :=
  match o with
  | .imm i => if 0 ≤ i.toInt then some i.toInt.toNat else none
  | .pool i => some (poolEntry s p.fr.fn i.toNat).toNat
  | _ => none

/-! ### Translations a group runs under (R138, R153, R156) -/

/-- The breakpoints enabled in the function at fn: addresses in its image. -/
def fnBreaks (s : State) (x fn : Nat) : List Nat :=
  (ctxAt s x).bps.filter (fun a => decide (fn ≤ a) && decide (a < imgPool s fn + 8 * imgPcnt s fn))

/-- The image bytes of the function at fn (R26): from offset 0 to the end of the pool. -/
def imgBytes (s : State) (fn : Nat) : List Byte := rawBytes s (keyCode fn) (imgPool s fn + 8 * imgPcnt s fn - fn)

/-- The segment of a key: a function without the travel bit has none of its own (R138, R321). -/
def unitSeg (s : State) (seg fn : Nat) : Nat := if (imgFhdr s fn).getLsbD 2 then seg else 0

/-- Entry t has the key of R138 with which launch L enters the first of some functions, the others its callers, in a segment on a
die. -/
def Xlat.keyed (s : State) (L : Launch) (d seg : Nat) (fns : List Nat) (t : Xlat) : Bool :=
  let fn := fns.headD 0
  t.live && decide (t.die = d) && decide (t.hash = digestOf (imgBytes s fn)) && decide (t.budget = budgetOn s L d fns)
    && decide (t.crewLog = L.crewLog) && decide (t.seg = unitSeg s seg fn) && decide (t.amode = L.amode) && decide (t.bps = fnBreaks s L.ctx fn)

/-- The translation under which group G of launch L enters the first of some functions: cached, queued, in progress or failed. -/
def findXlat (s : State) (G : Group) (L : Launch) (fns : List Nat) : Option (Nat × Xlat) :=
  (s.xlats.zipIdx.find? (fun (t, _) => t.keyed s L (dieOf G.core) G.seg fns)).map (fun (t, i) => (i, t))

/-- The groups that wait for translation x, with their contexts. -/
def xlatWaiters (s : State) (x : Nat) : List (Nat × Nat) :=
  s.groups.zipIdx.filterMap (fun (G, g) => match G.st with
    | .waiting (.translation y) _ => if x = y then some (g, groupCtx s G) else none
    | _ => none)

/-- The event of a group that enters a key whose translation is not written (R155). -/
def xlatEvent (x : Nat) (re : Bool) (s : State) : State := countEv x (if re then 0x43 else 0x40) 1 s

/-- Translation x starts: it is classified, and every group that waits for it counts its event (R155, R156). -/
def startTranslation (x : Nat) (s : State) : State :=
  match s.xlats[x]? with
  | none => s
  | some t =>
    let re := s.xlats.any (fun u => u.live && decide (u.die = t.die) && decide (u.hash = t.hash)
      && (match u.st with | .ok _ _ => true | _ => false))
    (xlatWaiters s x).foldl (fun s e => xlatEvent e.2 re s)
      { s with xlats := modifyAt (fun t => { t with st := .inProgress, re := re }) s.xlats x }

/-- The translator of a cluster serves its requests in arrival order (R155): the next one starts when none is in progress. -/
def nextTranslation (cl : Nat) (s : State) : State :=
  let mine := s.xlats.zipIdx.filter (fun (t, _) => t.live && decide (t.cluster = cl))
  if mine.any (fun (t, _) => t.st == .inProgress) then s
  else
    match mine.find? (fun (t, _) => t.st == .queued) with
    | none => s
    | some (_, x) => startTranslation x s

/-- Group g enters an absent key: it waits on the one translation of the key (R156), which its cluster's translator has when the
request is the first. The event is counted once the translation has been classified (R155). -/
def missTranslation (g : Nat) (fns : List Nat) (s : State) : State :=
  match s.groups[g]? with
  | none => s
  | some G =>
    match launchOfBlk s G.block with
    | none => s
    | some L =>
      let fn := fns.headD 0
      let wait := fun (i : Nat) (s : State) => s.updGroup g (fun G => { G with st := .waiting (.translation i) s.time })
      match findXlat s G L fns with
      | some (i, t) => wait i (if t.st = .queued then s else xlatEvent L.ctx t.re s)
      | none =>
        let d := dieOf G.core
        let t : Xlat := { die := d, cluster := G.core / 8, hash := digestOf (imgBytes s fn), fn := fn,
                          obj := (match objectAt s L.ctx fn with | some (i, _) => i | none => 0),
                          budget := budgetOn s L d fns, crewLog := L.crewLog, seg := unitSeg s G.seg fn, amode := L.amode,
                          bps := fnBreaks s L.ctx fn, st := .queued, code := none, re := false, used := s.time, live := true }
        nextTranslation (G.core / 8) (wait s.xlats.length { s with xlats := s.xlats ++ [t] })

/-! ### Frames (R73, R151) -/

/-- Word k of a lane's value, an array's elements one after another. -/
def Val.word (wide : Bool) (k : Nat) : Val → Nat
  | .bits x => x.toNat / 2 ^ (32 * k) % 2 ^ 32
  | .ref x _ => x.toNat / 2 ^ (32 * k) % 2 ^ 32
  | .arr es => if wide then (nth 0 es (k / 2)).toNat / 2 ^ (32 * (k % 2)) % 2 ^ 32 else (nth 0 es k).toNat % 2 ^ 32
  | .tok _ | .acc => 0

/-- The value v of a frame written to n slots of group g from slot k of an area at scratchpad offset o, in the lanes of a mask; a
reference's tag goes beside the slots, at place j of the spill unit's tags (R151). -/
def spillVal (g x core o j : Nat) (m : Mask) (F : Frame) (v n k : Nat) (s : State) : State :=
  let wide : Bool := match valTy (blocksOf s F.fn) v with | some (.arr .i64 _) => true | _ => false
  (lanesOf m).foldl (fun s l =>
    let w := nth (.bits 0) (NMap.get [] F.vals v) l
    let s := (List.range n).foldl (fun s j => storeBytes x (keyScratch core (o + 512 * (k + j) + 4 * l)) (leBytes 4 (w.word wide j)) s) s
    match w with
    | .ref _ t => setTag (keySlotTag g j l) t s
    | _ => s) s

/-- The tag bits of the slot pair from slot k of a frame that used bytes of the reserve lie before: behind those of all spill slots. -/
def frameTag (used k : Nat) : Nat := 4096 + used / 32 + 16 * k

/-- The call stores the live values of the caller's frame, one store each (R151, R155); used bytes of the reserve lie before it. -/
def storeFrame (p : Site) (used : Nat) (F : Frame) (s : State) : State :=
  let o := p.grp.spill + (p.grp.spillLen - p.lau.frame) + used
  let vs := frameLive s F
  countEv p.ctx 0x46 vs.length (vs.foldl (fun (e : Nat × State) v =>
    (e.1 + v.2, spillVal p.g p.ctx p.grp.core o (frameTag used e.1) p.mask F v.1 v.2 e.1 e.2)) (0, s)).2

/-- The frame of a function entered with arguments (R16). -/
def entryFrame (bs : List CBlk) (fn : Nat) (m : Mask) (args : List (List Val)) : Frame :=
  { fn := fn, pc := blkStart bs fn 0,
    next := args.length,
    vals := args.zipIdx.foldl (fun acc (vs, j) => NMap.set [] acc j (mergeLanes m [] vs)) [], rets := [] }

/-- The bytes of the frames of the issuing side's callers. -/
def outerBytes (p : Site) (s : State) : Nat := (p.side.core.frames.drop 1).foldl (fun n F => n + frameBytes s F) 0

/-- The issuing side's frame as a call leaves it. -/
def Site.callFrame (p : Site) : Frame := { p.fr with pc := p.pc + 4 * p.len }

/-- The call itself, its arguments read (R72, R73): the caller's frame is stored, and the callee runs under translation x, or, where its
entry lies in another segment, under none until the group has arrived there (R326). -/
def enterCallee (p : Site) (fn : Nat) (x : Option Nat) (vals : List (List Val)) (s : State) : State :=
  let bs := blocksOf s fn
  let s := storeFrame p (outerBytes p s) p.callFrame { s with xlats := match x with
    | some x => modifyAt (fun t => { t with used := s.time }) s.xlats x
    | none => s.xlats }
  let s := s.updCore p.g p.sd (fun c =>
    match c.frames with
    | [] => c
    | F :: rest => { c with frames := { entryFrame bs fn c.mask vals with xlat := x } :: { F with pc := F.pc + 4 * p.len } :: rest })
  match exitSeg s p.grp p.lau fn 0 with
  | some sg => s.updSide p.g p.sd (Side.park sg .dflt 0)
  | none => commit p.g p.sd s

/-! ### The meanings -/

/-- NOP (R69). -/
def execNop (s : State) : Out := portable s advance

/-- BR (R70). -/
def execBr (t : Target) (s : State) : Out := portable s (fun p s => transfer [(p.mask, t)] p s)

/-- CBR (R70): each active thread goes to the first target when its condition is 1, else to the second. -/
def execCbr (c : Opnd) (t f : Target) (s : State) : Out :=
  portable s (fun p s =>
    match opndBits s p .b1 c with
    | none => badOperand p s
    | some xs => transfer [(pick p xs (· = 1), t), (pick p xs (· ≠ 1), f)] p s)

/-- SWITCH (R70): case i for a selector i below the case count, else the default target. -/
def execSwitch (i : Opnd) (d : Target) (cs : List Target) (s : State) : Out :=
  portable s (fun p s =>
    match opndBits s p .i32 i with
    | none => badOperand p s
    | some xs =>
      transfer ((pick p xs (fun x => decide (cs.length ≤ x.toNat)), d)
        :: cs.zipIdx.map (fun (t, k) => (pick p xs (fun x => x.toNat = k), t))) p s)

/-- CALL (R72, R73): the translation of the callee is awaited; its failure is delivered here (R43). A callee whose entry lies in another
segment is entered there (R326). -/
def execCall (callee : Opnd) (args : List Opnd) (s : State) : Out :=
  portable s (fun p s =>
    match calleeIndex s p callee, objectAt s p.ctx p.fr.fn with
    | some i, some (_, o) =>
      (match tableFn o i with
       | none => badOperand p s
       | some fn =>
         let depth := p.side.core.frames.length
         if 64 < depth ∨ p.lau.frame < outerBytes p s + frameBytes s p.callFrame then takeFault p .callDepth none (BitVec.ofNat 64 depth) s
         else
           let fns := fn :: p.side.core.fns
           let enter := fun (x : Option Nat) => (match (blocksOf s fn).head?.bind (fun b => targetArgs s p b { blk := 0, args := args }) with
             | some vals => enterCallee p fn x vals s
             | none => badOperand p s)
           if (exitSeg s p.grp p.lau fn 0).isSome then enter none
           else
             match findXlat s p.grp p.lau fns with
             | none => missTranslation p.g fns s
             | some (x, t) =>
               match t.st with
               | .queued | .inProgress => missTranslation p.g fns s
               | .failed a c => faultAt p.g p.sd c (fn + a) none 0 (countEv p.ctx 0x44 1 s)
               | .ok _ _ => enter (some x))
    | _, _ => badOperand p s)

/-- The tokens of a group that are Pending (R266). -/
def Group.pendingToks (G : Group) : List Nat := (G.toks.filter (fun t => t.st == .pending)).map (·.e)

/-- The threads of the issuing side end (R74): its region commits first (R189). The last side of a group with a Pending
token waits for it (R266). -/
def endSide (p : Site) (s : State) : State :=
  let s := commit p.g p.sd s
  match s.groups[p.g]? with
  | none => s
  | some G =>
    if G.st ≠ .ready then s
    else if G.liveSides.length ≤ 1 ∧ G.pendingToks ≠ [] then waitFor p (.tokens G.pendingToks) s
    else
      let s := endThreads p.g p.mask s
      settleGroup p.g (s.updSide p.g p.sd (fun S => { S with status := .ended }))

/-- The return values read for a `ret`. -/
def retVals (s : State) (p : Site) (args : List Opnd) : Option (List (List Val)) :=
  (args.zipIdx).foldr (fun (o, j) r =>
    match (TyD.ofHalf ((codeWord s (p.fr.fn + 16 + 4 * (j / 2))).extractLsb' (16 * (j % 2)) 16)).bind (fun t => opndVals s p t o), r with
    | some v, some vs => some (v :: vs)
    | _, _ => none) (some [])

/-- The other segment in which the continuation of a `ret` lies (R326). -/
def retSeg (s : State) (p : Site) : Option Nat :=
  match p.side.core.frames with
  | _ :: C :: _ => C.exitSeg s p.grp p.lau
  | _ => none

/-- RET (R74, R342): in a kernel or a handler the threads end; in a procedure the side waits at a return join or returns. -/
def execRet (args : List Opnd) (s : State) : Out :=
  portable s (fun p s =>
    match p.side.core.frames with
    | _ :: _ :: _ =>
      (match retVals s p args with
       | none => badOperand p s
       | some vs =>
         let keep := s.updCore p.g p.sd (SideCore.onFrame (fun F => { F with rets := vs }))
         let back := fun (s : State) => match p.side.core.frames with | _ :: C :: _ => reloadFrame p.ctx C s | _ => s
         let park := match p.side.core.joins with
           | J :: _ => decide (J.at? = none ∧ J.depth = p.side.core.frames.length)
           | [] => false
         if park then settleGroup p.g ((commit p.g p.sd keep).updSide p.g p.sd (fun S => { S with status := .parked }))
         else
           match retSeg s p with
           | some sg => ((commit p.g p.sd (back s)).updCore p.g p.sd (fun c => (SideCore.onFrame (fun F => { F with rets := vs }) c).ret)).updSide
               p.g p.sd (Side.returnExit s sg)
           | none => commit p.g p.sd (back (keep.updCore p.g p.sd SideCore.ret)))
    | _ => if args.isEmpty || p.grp.handler then endSide p s else badOperand p s)

/-- EXIT (R74). -/
def execExit (s : State) : Out := portable s endSide

/-- TRAP (R75): the user-trap fault, lane the lowest active lane, AUX the code. -/
def execTrap (code : Opnd) (s : State) : Out :=
  portable s (fun p s => takeFault p .userTrap (some p.low) (BitVec.ofNat 64 (immNat code)) s)

/-- COPY_V (R76). -/
def execCopyV (t : TyD) (a : Opnd) (s : State) : Out :=
  portable s (fun p s =>
    match opndVals s p t a with
    | some vs => define p vs s
    | none => badOperand p s)

/-- COPY_V_RET (R72): return value k of the call before it. -/
def execCopyVRet (k : Opnd) (s : State) : Out :=
  portable s (fun p s =>
    match p.fr.rets[immNat k]? with
    | some vs => define p vs s
    | none => badOperand p s)

end Sys2Proof.Machine
end

