-- ==== Sys2Proof/Machine/Memory.lean ====
section
/-! DEFINITION. Accesses of portable threads (R193, R194, R200, R251, R365) and the meanings of the load, store, atomic,
fence and barrier instructions (R253 to R264). -/

namespace Sys2Proof.Machine
open Sys2Proof

/-! ### Checked accesses -/

/-- The accessor of a portable side. -/
def Site.who (p : Site) : Who := { x := p.ctx, core := p.grp.core, blk := some p.grp.block, stamp := p.grp.stamp }

/-- Storage as the issuing side sees it for its checks: with its own gated operations on objects performed. -/
def Site.view (p : Site) (s : State) : State := sideView s p.ctx p.g p.sd (p.side.gated.filter (fun o => match o with | .store _ _ _ => false | _ => true))

/-- The die-store watchpoint that n bytes at address va touch (R365). -/
def watched (s : State) (x va n : Nat) (wr rd : Bool) : Bool :=
  (ctxAt s x).wps.any (fun w => match w with
    | none => false
    | some w => ((wr && w.wr) || (rd && w.rd)) && decide (w.a < va + n) && decide (va < w.a + w.len))

/-- The lanes' accesses of n bytes: the first failing lane with its cause, or every lane's access. Where rd and wr are both
set the access both reads and writes. -/
def checkLanes (s : State) (p : Site) (n al : Nat) (mask : BitVec 3) (rd wr : Bool) (as : List DWord) :
    Except (Nat × Cause) (List (Nat × Acc)) :=
  resolveLanes (p.view s) p.who p.mask n al mask rd wr 128 0 as

/-- The lowest lane that touches a watchpoint. -/
def watchLane (s : State) (p : Site) (n : Nat) (rd wr : Bool) (as : List DWord) (accs : List (Nat × Acc)) : Option Nat :=
  if (ctxAt s p.ctx).dbg && p.side.skipWatch != some p.pc then
    (accs.find? (fun (i, a) => a.space == .ds && watched s p.ctx (nth 0 as i).toNat n wr rd)).map (·.1)
  else none

/-- The addresses of the active lanes. -/
def Site.addrs (p : Site) (as : List DWord) : List Nat := (lanesOf p.mask).map (fun i => (nth 0 as i).toNat)

/-- The pages of the active lanes' addresses are looked up and counted (R197, R199). -/
def Site.touch (p : Site) (al : Nat) (as : List DWord) (s : State) : State := touchAddrs p.who al (p.addrs as) s

/-- The requests of the active lanes' accesses, counted in state t (R204). -/
def Site.requests (p : Site) (t : State) (al : Nat) (as : List DWord) (accs : List (Nat × Acc)) (s : State) : State :=
  request p.grp.core p.ctx p.g (requestsOf t p.who al (p.addrs as) accs) s

/-- The checks have passed: a watchpoint that was ignored once is back in force (R365). -/
def Site.rearm (p : Site) (s : State) : State :=
  if p.side.skipWatch = some p.pc then s.updSide p.g p.sd (fun S => { S with skipWatch := none }) else s

/-- An access of every active lane: faults, watchpoints, then k with the lanes' accesses; the pages are counted whether or not it
faults (R199, R204). -/
def access (p : Site) (n al : Nat) (mask : BitVec 3) (rd wr : Bool) (as : List DWord) (k : List (Nat × Acc) → State → State)
    (s : State) : State :=
  let t := p.touch al as s
  match checkLanes s p n al mask rd wr as with
  | .error (i, c) => takeFault p c (some i) (nth 0 as i) t
  | .ok accs =>
    match watchLane s p n rd wr as accs with
    | some i =>
      (takeFault p .watchpoint (some i) (nth 0 as i) t).updSide p.g p.sd (fun S => { S with skipWatch := some p.pc })
    | none => k accs (p.requests s al as accs (p.rearm t))

/-- The access of lane i. -/
def accAt (accs : List (Nat × Acc)) (i : Nat) : Option Acc := (accs.find? (fun e => e.1 = i)).map (·.2)

/-- The value of n bytes that each lane loads: its own stores not performed yet come first. -/
def loadLanes (s : State) (p : Site) (n : Nat) (accs : List (Nat × Acc)) : List DWord :=
  let ops := ownOps s p.g p.side.gated
  (List.range 128).map (fun i => match accAt accs i with | some a => laneWord s p.ctx ops i a.key n | none => 0)

/-- The lanes perform their accesses of n bytes: what is owed to each there comes first (R219). -/
def reachLanes (p : Site) (wr : Bool) (n : Nat) (accs : List (Nat × Acc)) (s : State) : State :=
  accs.foldl (fun s e => reach (.thread p.g e.1) wr e.2.key n s) s

/-- What the lanes read early in the places they now access no longer counts. -/
def dropLanes (p : Site) (n : Nat) (accs : List (Nat × Acc)) (s : State) : State :=
  accs.foldl (fun s e => dropEarly p.g e.1 e.2.key n s) s

/-- The result of an instruction follows a value that an access returned: a load's address that is computed from it depends on that access
(R216). -/
def Instr.fromMemory : Instr → Bool
  | .ld .. | .ldacq .. | .ldw .. | .ldref .. | .mkref .. | .atom .. | .cas .. | .sigwait .. | .sigrd .. | .twait .. | .ktest .. | .ldfrag ..
  | .accrd .. | .rsdraw .. | .call .. | .copyVRet .. => true
  | _ => false

/-- The value numbers of operands of an instruction whose next definition is num. -/
def valNums (num : Nat) (os : List Opnd) : List Nat := os.filterMap (fun o => match o with | .val d => some (num - d.toNat) | _ => none)

/-- The values of a function that depend on an access: entry says whether its parameters do. -/
def dependent (bs : List CBlk) (entry : Bool) : List Nat :=
  let ins := bs.flatMap (·.body)
  let base := (if entry then (bs.head?.map (fun b => (List.range b.args.length).map (b.first + ·))).getD [] else [])
    ++ (ins.filter (fun c => Instr.fromMemory c.i)).map (·.num)
  let round := fun (D : List Nat) =>
    uniq (D ++ (ins.filter (fun c => (valNums c.num c.i.slots).any D.contains)).map (·.num)
      ++ ins.flatMap (fun c => c.i.targets.flatMap (fun t =>
          (t.args.zipIdx.filter (fun e => (valNums c.num [e.1]).any D.contains)).map (fun e =>
            match bs[t.blk.toNat]? with | some b => b.first + e.2 | none => 0))))
  (List.range (ins.length + bs.length + 1)).foldl (fun D _ => round D) base

/-- Operands of an address depend on no earlier access (log entry 14). -/
def freeOpnds (s : State) (p : Site) (os : List Opnd) : Bool :=
  let D := dependent (blocksOf s p.fr.fn) (p.grp.handler || decide (1 < p.side.core.frames.length))
  !(valNums p.fr.next os).any D.contains

/-- The address of a memory operand depends on no earlier access. -/
def freeAddr (s : State) (p : Site) (m : MemOp) : Bool := freeOpnds s p [m.base, m.off]

/-- Reads of lane l at n bytes from key a performed early, with their places in the group's list. -/
def earlyAt (G : Group) (l a n : Nat) : List (Early × Nat) :=
  G.early.zipIdx.filter (fun e => e.1.lane == l && e.1.a == a && e.1.bs.length == n)

/-- A lane's access to n bytes at key a obtains, by free choice, one of its early reads of the place, or none: the value now. -/
def pickEarly (s : State) (g l a n : Nat) : Option (Early × Nat) :=
  match s.groups[g]? with
  | none => none
  | some G =>
    let rs := earlyAt G l a n
    let k := Config.freeNat s.fresh (128 * a + l) % (rs.length + 1)
    if k = 0 then none else rs[k - 1]?

/-- What the accesses of places (lane, key, bytes) leave of the early reads: from the one obtained on, none of a place may precede (R214). -/
def useEarly (g : Nat) (qs : List (Nat × Nat × Nat)) (s : State) : State :=
  (s.updGroup g (fun G => { G with early := (G.early.zipIdx.filter (fun e => !qs.any (fun q => q.1 == e.1.lane
    && meets q.2.1 q.2.2 e.1.a e.1.bs.length
    && (match pickEarly s g q.1 q.2.1 q.2.2 with | some r => decide (e.2 ≤ r.2) | none => true)))).map (·.1) })).tick

/-- The value that each lane loads where a load may have been performed early (R214, R217). -/
def loadEarly (p : Site) (n : Nat) (accs : List (Nat × Acc)) (s : State) : List DWord × State :=
  let now := loadLanes s p n accs
  ((List.range 128).map (fun i => match (accAt accs i).bind (fun a => pickEarly s p.g i a.key n) with
     | some r => BitVec.ofNat 64 (leNat r.1.bs)
     | none => nth 0 now i),
   useEarly p.g (accs.map (fun e => (e.1, e.2.key, n))) s)

/-- The lanes' loads: what is owed to them is performed, then each obtains its value. free: the addresses depend on no earlier access. -/
def loadNow (p : Site) (n : Nat) (free : State → Bool) (accs : List (Nat × Acc)) (s : State) : List DWord × State :=
  let s := reachLanes p false n accs s
  if (s.groups[p.g]?).all (fun G => G.early.isEmpty) then (loadLanes s p n accs, s)
  else if free s then loadEarly p n accs s
  else (loadLanes s p n accs, dropLanes p n accs s)

/-- The stores of the lanes, in increasing lane order (R213, R254). -/
def storeOps (n : Nat) (accs : List (Nat × Acc)) (vs : List DWord) (op : Nat → Nat → List Byte → GOp) : List GOp :=
  accs.map (fun (i, a) => op i a.key (leBytes n (nth 0 vs i).toNat))

/-- The mask of a one-space operand. -/
def spaceMask (ds : Bool) : BitVec 3 := if ds then 2 else 1

/-- A load of every active lane (R254): free, where it may have been performed early; acq, the scope of an acquire load (R220). -/
def loadInstr (s : State) (t : Ty) (mask : BitVec 3) (m : MemOp) (acq : Option (BitVec 3)) : Out :=
  portable s (fun p s =>
    match memLanes s p m with
    | none => badOperand p s
    | some as =>
      access p (Ty.bytes t) (Ty.bytes t) mask true false as (fun accs s =>
        let r := loadNow p (Ty.bytes t) (fun s => acq.isNone && freeAddr s p m) accs s
        defineBits p r.1 (match acq with | some sc => acquire p.g p.mask mask sc.toNat r.2 | none => r.2)) s)

/-- A store of every active lane, gated to the region's commit (R181, R254). -/
def storeInstr (s : State) (t : Ty) (mask : BitVec 3) (m : MemOp) (v : Opnd) (op : Nat → Nat → List Byte → GOp) : Out :=
  portable s (fun p s =>
    match memLanes s p m, opndBits s p t v with
    | some as, some vs =>
      access p (Ty.bytes t) (Ty.bytes t) mask false true as
        (fun accs s => advance p (gate p (storeOps (Ty.bytes t) accs vs op) (dropLanes p (Ty.bytes t) accs s))) s
    | _, _ => badOperand p s)

/-! ### Loads and stores -/

/-- LD (R254). -/
def execLd (t : Ty) (ds : Bool) (m : MemOp) (s : State) : Out := loadInstr s t (spaceMask ds) m none
/-- ST (R254). -/
def execSt (t : Ty) (ds : Bool) (m : MemOp) (v : Opnd) (s : State) : Out := storeInstr s t (spaceMask ds) m v .store
/-- LDACQ (R254): an acquire load. -/
def execLdacq (sc : BitVec 3) (t : Ty) (ds : Bool) (m : MemOp) (s : State) : Out := loadInstr s t (spaceMask ds) m (some sc)
/-- STREL (R254): a release store. -/
def execStrel (sc : BitVec 3) (t : Ty) (ds : Bool) (m : MemOp) (v : Opnd) (s : State) : Out :=
  storeInstr s t (spaceMask ds) m v (fun l a bs => .relStore l a bs (spaceMask ds) sc)

/-- The element accesses of a register array, element by element; the first failing lane is the lowest (R200, R255), and of its span an
address range comes before any other cause (R194). -/
def elemAccs (s : State) (p : Site) (e : Nat) (mask : BitVec 3) (wr : Bool) (as : List DWord) :
    Nat → Nat → Except (Nat × Cause) (List (List (Nat × Acc)))
  | 0, _ => .ok []
  | n + 1, j =>
    match checkLanes s p e e mask (!wr) wr (as.map (· + BitVec.ofNat 64 (e * j))), elemAccs s p e mask wr as n (j + 1) with
    | .error (i, c), .error (i', c') => if i' < i ∨ (i' = i ∧ c' = .addressRange) then .error (i', c') else .error (i, c)
    | .error x, _ => .error x
    | _, .error x => .error x
    | .ok a, .ok r => .ok (a :: r)

/-- The first watched lane among the elements' accesses. -/
def elemWatch (s : State) (p : Site) (e : Nat) (wr : Bool) (as : List DWord) (accss : List (List (Nat × Acc))) : Option Nat :=
  ((accss.zipIdx.filterMap (fun (accs, j) => watchLane s p e (!wr) wr (as.map (· + BitVec.ofNat 64 (e * j))) accs)).foldl
    (fun m i => match m with | none => some i | some k => some (min k i)) none)

/-- Accesses of whole register arrays of n elements of e bytes (R255). -/
def accessArr (p : Site) (e n : Nat) (mask : BitVec 3) (wr : Bool) (as : List DWord)
    (k : List (List (Nat × Acc)) → State → State) (s : State) : State :=
  let vas := (List.range n).flatMap (fun j => p.addrs (as.map (· + BitVec.ofNat 64 (e * j))))
  let t := touchAddrs p.who e vas s
  match elemAccs s p e mask wr as n 0 with
  | .error (i, c) => takeFault p c (some i) (nth 0 as i) t
  | .ok accss =>
    match elemWatch s p e wr as accss with
    | some i => (takeFault p .watchpoint (some i) (nth 0 as i) t).updSide p.g p.sd (fun S => { S with skipWatch := some p.pc })
    | none => k accss (request p.grp.core p.ctx p.g (requestsOf s p.who e vas (accss.flatMap id)) (p.rearm t))

/-- The parts of elements of e bytes at rising keys: each the longest that crosses no 16-byte boundary (R211, R255). -/
def partsOf (e : Nat) : List Nat → List (Nat × Nat)
  | [] => []
  | k :: r =>
    match partsOf e r with
    | (b, n) :: t => if b = k + e ∧ k / 16 = b / 16 then (k, n + e) :: t else (k, e) :: (b, n) :: t
    | [] => [(k, e)]

/-- The parts of lane i's access to a register array. -/
def laneParts (e : Nat) (accss : List (List (Nat × Acc))) (i : Nat) : List (Nat × Nat) :=
  partsOf e (accss.filterMap (fun accs => (accAt accs i).map Acc.key))

/-- The places of the lanes' parts: lane, key, bytes. -/
def arrPlaces (p : Site) (e : Nat) (accss : List (List (Nat × Acc))) : List (Nat × Nat × Nat) :=
  (lanesOf p.mask).flatMap (fun i => (laneParts e accss i).map (fun q => (i, q.1, q.2)))

/-- The bytes of lane i's parts, each read as one access: an early read of it by free choice, where it may be, else now. -/
def arrBytes (p : Site) (e : Nat) (free : Bool) (accss : List (List (Nat × Acc))) (s : State) (i : Nat) : List Byte :=
  (laneParts e accss i).flatMap (fun q => match (if free then pickEarly s p.g i q.1 q.2 else none) with
    | some r => r.1.bs
    | none => laneBytes s p.ctx (ownOps s p.g p.side.gated) i q.1 q.2)

/-- Elements of e bytes in order. -/
def elemsOf (e n : Nat) (bs : List Byte) : List DWord := (List.range n).map (fun j => BitVec.ofNat 64 (leNat ((bs.drop (e * j)).take e)))

/-- A load of the lanes' register arrays of n elements, part by part (R217, R255). -/
def loadArr (p : Site) (e n : Nat) (free : Bool) (accss : List (List (Nat × Acc))) (s : State) : List Val × State :=
  let s := accss.foldl (fun s accs => reachLanes p false e accs s) s
  ((List.range 128).map (fun i => .arr (elemsOf e n (arrBytes p e free accss s i))),
   if free then useEarly p.g (arrPlaces p e accss) s else accss.foldl (fun s accs => dropLanes p e accs s) s)

/-- LDW (R255). -/
def execLdw (e : Ty) (l : BitVec 6) (ds : Bool) (m : MemOp) (s : State) : Out :=
  portable s (fun p s =>
    match memLanes s p m with
    | none => badOperand p s
    | some as =>
      accessArr p (Ty.bytes e) (l.toNat + 1) (spaceMask ds) false as (fun accss s =>
        let r := loadArr p (Ty.bytes e) (l.toNat + 1) (freeAddr s p m) accss s
        define p r.1 r.2) s)

/-- The stores of lane i's elements, one for each part (R211, R255). -/
def arrStores (e : Nat) (accss : List (List (Nat × Acc))) (xs : List DWord) (i : Nat) : List GOp :=
  ((laneParts e accss i).foldl (fun (r : List GOp × List Byte) q => (r.1 ++ [.store i q.1 (r.2.take q.2)], r.2.drop q.2))
    ([], (List.range accss.length).flatMap (fun j => leBytes e (nth 0 xs j).toNat))).1

/-- STW (R255): the lanes in increasing order, each lane's parts together. -/
def execStw (e : Ty) (ds : Bool) (m : MemOp) (x : Opnd) (l : BitVec 6) (s : State) : Out :=
  portable s (fun p s =>
    match memLanes s p m, opndArrs p x with
    | some as, some arrs =>
      accessArr p (Ty.bytes e) (l.toNat + 1) (spaceMask ds) true as (fun accss s =>
        let s := accss.foldl (fun s accs => dropLanes p (Ty.bytes e) accs s) s
        advance p (gate p ((lanesOf p.mask).flatMap (fun i => arrStores (Ty.bytes e) accss (nth [] arrs i) i)) s)) s
    | _, _ => badOperand p s)

/-- PREFETCH (R256): changes time only. -/
def execPrefetch (m : MemOp) (s : State) : Out :=
  portable s (fun p s => match memLanes s p m with | some _ => advance p s | none => badOperand p s)

/-! ### Atomics (R257 to R259) -/

/-- The new value of an atomic (R257). -/
def atomNew (op : AtomOp) (w : Nat) (old v : DWord) : DWord :=
  match op with
  | .add => iAdd w old v
  | .mins => iMin true w old v
  | .minn => iMin false w old v
  | .maxs => iMax true w old v
  | .maxn => iMax false w old v
  | .and => lowBits w (old &&& v)
  | .or => lowBits w (old ||| v)
  | .xor => lowBits w (old ^^^ v)
  | .xchg => lowBits w v

/-- One lane's atomic on n bytes: stores there of its group, and those owed to it, are performed before it; the old value is returned, the
new one stored (R215). -/
def atomAt (g x n : Nat) (f : Nat → DWord → DWord) (r : NMap DWord × State) (e : Nat × Acc) : NMap DWord × State :=
  let s := reach (.thread g e.1) true e.2.key n (dropEarly g e.1 e.2.key n (landOver e.2.key n g r.2))
  let old := BitVec.ofNat 64 (leNat (loadBytes s x e.2.key n))
  (NMap.set 0 r.1 e.1 old, storeBytes x e.2.key (leBytes n (f e.1 old).toNat) s)

/-- A release of the lanes of m, of a kind of R257. -/
def AtomKind.releases : AtomKind → Bool
  | .rel | .ar => true
  | .rlx | .acq => false

/-- An acquire. -/
def AtomKind.acquires : AtomKind → Bool
  | .acq | .ar => true
  | .rlx | .rel => false

/-- A committing operation on every active lane's word, in increasing lane order: the region's gated operations, then the
atomics, then the MARK (R147, R258). -/
def atomInstr (p : Site) (k : AtomKind) (sc : BitVec 3) (t : Ty) (mask : BitVec 3) (as : List DWord) (f : Nat → DWord → DWord)
    (s : State) : State :=
  access p (Ty.bytes t) (Ty.bytes t) mask true true as (fun accs s =>
    let s := flush p.g p.sd s
    let s := if AtomKind.releases k then owe p.g p.mask mask sc.toNat s else s
    let r := accs.foldl (atomAt p.g p.ctx (Ty.bytes t) f) ([], s)
    let s := if AtomKind.acquires k then acquire p.g p.mask mask sc.toNat r.2 else r.2
    commit p.g p.sd (defineBits p ((List.range 128).map (fun i => NMap.get 0 r.1 i)) s)) s

/-- ATOM (R257, R258). -/
def execAtom (op : AtomOp) (k : AtomKind) (sc : BitVec 3) (t : Ty) (ds : Bool) (m : MemOp) (v : Opnd) (s : State) : Out :=
  portable s (fun p s =>
    match memLanes s p m, opndBits s p t v with
    | some as, some vs => atomInstr p k sc t (spaceMask ds) as (fun i old => atomNew op (Ty.bits t) old (nth 0 vs i)) s
    | _, _ => badOperand p s)

/-- CAS (R258): bits are compared. -/
def execCas (k : AtomKind) (sc : BitVec 3) (t : Ty) (ds : Bool) (m : MemOp) (c v : Opnd) (s : State) : Out :=
  portable s (fun p s =>
    match memLanes s p m, opndBits s p t c, opndBits s p t v with
    | some as, some cs, some vs => atomInstr p k sc t (spaceMask ds) as (fun i old => if old = nth 0 cs i then nth 0 vs i else old) s
    | _, _, _ => badOperand p s)

/-- FENCE (R216, R260): it makes no access. A release fence stands among the lanes' stores; a full fence closes the region, so that the
stores before it are past a MARK, and they are owed to its scope from then on (log entries 14 and 73); an acquire fence ends the lanes' early
reads. -/
def execFence (k : FenceKind) (sc mask : BitVec 3) (s : State) : Out :=
  portable s (fun p s =>
    match k with
    | .rel => advance p (gate p [.fence p.mask mask sc] s)
    | .acq => advance p (acquire p.g p.mask mask sc.toNat s)
    | .ar =>
      let s := acquire p.g p.mask mask sc.toNat s
      let s := if p.side.gated.isEmpty then advance p s else commit p.g p.sd (advance p s)
      owe p.g p.mask mask sc.toNat s)

/-! ### Block barriers (R262 to R264) -/

/-- The block as it stands. -/
def Site.block (p : Site) (s : State) : Block := (s.blocks[p.grp.block]?).getD p.blk

/-- The thread of lane i. -/
def Site.thread (p : Site) (i : Nat) : Nat := p.grp.gid * 128 + i

/-- The lowest lane whose previous arrival on n is in a phase not yet complete (R262). -/
def arriveMisuse (p : Site) (B : Block) (n : Nat) : Option Nat :=
  (lanesOf p.mask).find? (fun i =>
    decide (arrivalCount B n (p.thread i) ≠ 0) && !phaseDone B p.lau.ntid n (lastPhase B n (p.thread i)))

/-- Every active thread arrives on barrier n. -/
def arriveAll (p : Site) (n : Nat) (s : State) : State :=
  notePhases p.grp.block { s with blocks := modifyAt (fun B =>
      { B with arrivals := (lanesOf p.mask).foldl (fun m i =>
          NMap.set 0 m (n * 32768 + p.thread i) (NMap.get 0 m (n * 32768 + p.thread i) + 1)) B.arrivals }) s.blocks p.grp.block }

/-- The barrier number of an operand. -/
def barNum (o : Opnd) : Nat := immNat o % 16

/-- The phases that the active threads wait on are complete. -/
def barDone (p : Site) (B : Block) (n : Nat) (phs : List Word) : Bool :=
  (uniq ((lanesOf p.mask).map (fun i => nth 0 phs i))).all (fun ph => phaseDone B p.lau.ntid n ph)

/-- The last arrival phase of each lane. -/
def lanePhases (p : Site) (B : Block) (n : Nat) : List Word := (List.range 128).map (fun i => lastPhase B n (p.thread i))

/-- BAR (R262, R264): the arrival commits; the wait after its MARK goes on when the phase is complete. -/
def execBar (mask : BitVec 3) (n : Opnd) (s : State) : Out :=
  portable s (fun p s =>
    let b := barNum n
    let rest := fun (s : State) =>
      if barDone p (p.block s) b (lanePhases p (p.block s) b) then advance p (setPend p .none (acquire p.g p.mask mask 2 s))
      else waitFor p (.barrier b (nth 0 (lanePhases p (p.block s) b) p.low)) s
    match p.side.pend with
    | .phase _ => rest s
    | _ =>
      match arriveMisuse p (p.block s) b with
      | some i => takeFault p .barrierMisuse (some i) (BitVec.ofNat 64 b) s
      | none =>
        let s := arriveAll p b (owe p.g p.mask mask 2 (flush p.g p.sd s))
        rest (commit p.g p.sd (setPend p (.phase 0) s)))

/-- BARAR (R262): every active thread arrives and receives its phase. -/
def execBarar (mask : BitVec 3) (n : Opnd) (s : State) : Out :=
  portable s (fun p s =>
    let b := barNum n
    match arriveMisuse p (p.block s) b with
    | some i => takeFault p .barrierMisuse (some i) (BitVec.ofNat 64 b) s
    | none =>
      let s := arriveAll p b (owe p.g p.mask mask 2 (flush p.g p.sd s))
      commit p.g p.sd (defineBits p ((lanePhases p (p.block s) b).map (fun w => w.zeroExtend 64)) s))

/-- BARWT (R262): waits until the phase of every active thread is complete. -/
def execBarwt (mask : BitVec 3) (n ph : Opnd) (s : State) : Out :=
  portable s (fun p s =>
    let b := barNum n
    match opndBits s p .i32 ph with
    | none => badOperand p s
    | some xs =>
      let phs := xs.map (fun x => x.truncate 32)
      let B := p.block s
      match (lanesOf p.mask).find? (fun i =>
          let d : Word := nth 0 phs i - lastPhase B b (p.thread i)
          decide (1 ≤ d.toNat) && decide (d.toNat < 2 ^ 31)) with
      | some i => takeFault p .barrierMisuse (some i) (BitVec.ofNat 64 b) s
      | none =>
        if barDone p B b phs then advance p (acquire p.g p.mask mask 2 s)
        else waitFor p (.barrier b (nth 0 phs p.low)) s)

end Sys2Proof.Machine
end

