-- ==== Sys2Proof/Machine/Tokens.lean ====
section
/-! DEFINITION. Tokens and engine instructions in flight (R221, R265 to R269), and the meanings of the token instructions. -/

namespace Sys2Proof.Machine
open Sys2Proof

/-! ### Token states (R266) -/

/-- The state of a group's token. -/
def tokState (G : Group) (e : Nat) : Option TokSt := (G.toks.find? (fun t => t.e = e)).map (·.st)

/-- The engine number of a token value. -/
def Val.tok? : Val → Option Nat
  | .tok e => some e
  | _ => none

/-- The tokens that live values of a group's sides name: the current frame's live values, and every value of outer frames. -/
def liveToks (s : State) (G : Group) : List Nat :=
  (G.liveSides.flatMap (fun S => S.core.frames ++ S.mark.frames)).flatMap (fun F =>
    let bs := blocksOf s F.fn
    (liveAt bs ((F.pc - F.fn - 0x20) / 4)).filterMap (fun v =>
      (NMap.get [] F.vals v).findSome? Val.tok?))

/-- The tokens that stay allocated: Pending, named by a live value, or consumed by an instruction that has not finished. -/
def heldToks (s : State) (G : Group) : List Tok :=
  let live := liveToks s G ++ ((G.native.map (fun N => N.k.filterMap id)).getD [])
  let deps := (s.engs.filter (fun e => e.st == .gated || e.st == .issued)).flatMap (·.deps)
  G.toks.filter (fun t => t.st == .pending || live.contains t.e || deps.contains t.e)

/-- A token is free for an engine instruction: fewer than 16 are allocated (R266). -/
def tokenFree (s : State) (G : Group) : Bool := decide ((heldToks s G).length < 16)

/-- The issuing group stalls until a token is freed (R266). -/
def stallForToken (p : Site) (s : State) : State := waitFor p .tokenFree s

/-- Gives the group a Pending token for engine instruction e; tokens no longer held are Free. -/
def addToken (p : Site) (e : Nat) (s : State) : State :=
  s.updGroup p.g (fun G => { G with toks := heldToks s G ++ [{ e := e, st := .pending }] })

/-- A token's value in every lane (R21). -/
def tokVals (e : Nat) : List Val := List.replicate 128 (.tok e)

/-! ### Ends of engine instructions (R266, R267) -/

/-- A wait ends when its tokens are no longer Pending, when a token is free, or when the tile has no write in flight. -/
def wakeOnTokens (s : State) (G : Group) : Group :=
  G.endWaits (fun w => match w with
    | .tokens es => es.all (fun e => tokState G e ≠ some .pending)
    | .tokenFree => tokenFree s G
    | .tile t =>
      (match G.acc with
       | none => true
       | some A => (match t with | none => !A.busy | some i => (match A.tiles[i]? with | some T => T.flight.isEmpty | none => true)))
    | _ => false)

/-- A tile after write e has completed (R118). -/
def Tile.finish (e : Nat) (T : Tile) : Tile :=
  if T.flight.contains e then
    let f := T.flight.filter (fun k => k != e)
    { T with flight := f, st := if f = [] ∧ T.st = .heldBusy then .heldIdle else T.st }
  else T

/-- A group in which token e leaves Pending; one that has ended gives its set back with the last step (R119). -/
def Group.settleTok (e : Nat) (st : TokSt) (cover : List (BitVec 3 × BitVec 3)) (G : Group) : Group :=
  { G with
    toks := G.toks.map (fun t => if t.e = e ∧ t.st = .pending then { t with st := st, cover := cover } else t)
    acc :=
      let acc := G.acc.map (fun A => { A with tiles := A.tiles.map (Tile.finish e) })
      if G.st = .ended then acc.bind AccSet.left else acc }

/-- What a wait on the token of engine instruction e orders: the accesses of the instruction at its mask and scope, and those of every
token that it consumed, whose accesses come before its own (R216, R221). -/
def coverOf (s : State) (e : Nat) : List (BitVec 3 × BitVec 3) :=
  match s.engs.find? (fun E => E.id = e) with
  | none => []
  | some E =>
    let own := match E.kind with | .tjoin => [] | _ => [(E.mask, E.scope)]
    uniq (own ++ E.deps.flatMap (fun d => match s.groups[E.group]? with
      | some G => ((G.toks.find? (fun t => t.e = d)).map Tok.cover).getD []
      | none => []))

/-- The token of engine instruction e takes a state; the instruction is done, and groups that waited on it go on. -/
def settleToken (e : Nat) (st : TokSt) (s : State) : State :=
  let c := coverOf s e
  let s := { s with engs := s.engs.filter (fun E => decide (E.id ≠ e)), groups := s.groups.map (Group.settleTok e st c) }
  { s with groups := s.groups.map (wakeOnTokens s) }

/-- Every access of e is performed. -/
def completeToken (e : Nat) (s : State) : State := settleToken e .complete s

/-- e fails with a cause; origin is the portable address of the instruction whose own failure began the chain. -/
def failToken (e : Nat) (c : Cause) (origin : Nat) (s : State) : State := settleToken e (.failed c origin) s

/-- The AUX of the engine-failure fault (R384): the origin, and the failure's cause in [63:56]. -/
def failAux (c : Cause) (origin : Nat) : DWord := BitVec.ofNat 64 (origin % 2 ^ 48 + causeCode c * 2 ^ 56)

/-- The first Failed token of a list. -/
def failedTok (G : Group) (es : List Nat) : Option (Cause × Nat) :=
  (es.filterMap (fun e => match tokState G e with | some (.failed c o) => some (c, o) | _ => none)).head?

/-! ### Issue -/

/-- An engine instruction of the issuing side: it takes a token, is gated, and defines its token (R265, R268). -/
def issueEngine (p : Site) (kind : EngKind) (scope mask : BitVec 3) (deps : List Nat) (s : State) : State :=
  let (id, s) := s.newId
  let E : Eng := { id := id, ctx := p.ctx, group := p.g, kind := kind, scope := scope, mask := mask, deps := deps,
                   origin := p.pc, st := .gated, since := s.time, done := [], wrote := [] }
  let s := addToken p id { s with engs := s.engs ++ [E] }
  define p (tokVals id) (gate p [.engine id] s)

/-- An engine instruction that is a committing operation: the region's gated operations, then itself, then the MARK. -/
def commitEngine (p : Site) (kind : EngKind) (scope mask : BitVec 3) (deps : List Nat) (s : State) : State :=
  commit p.g p.sd (issueEngine p kind scope mask deps s)

/-- How an instruction of either level waits, takes a token, and closes its region (R265, R266). -/
structure Port where
  site : Site
  wait : Wait → State → State
  /-- a token can be taken -/
  free : State → Bool
  /-- a gated engine instruction, its token defined -/
  issue : EngKind → (scope mask : BitVec 3) → (deps : List Nat) → State → State
  /-- an engine instruction that is its region's committing operation -/
  commit : EngKind → (scope mask : BitVec 3) → (deps : List Nat) → State → State
  /-- the region's gated operations are performed -/
  flush : State → State
  /-- token e is defined and the region's MARK commits -/
  close : (e : Nat) → State → State

/-- The portable level. -/
def Site.port (p : Site) : Port :=
  { site := p, wait := waitFor p, free := fun s => tokenFree s p.grp, issue := issueEngine p, commit := commitEngine p,
    flush := Sys2Proof.Machine.flush p.g p.sd,
    close := fun e s => Sys2Proof.Machine.commit p.g p.sd (define p (tokVals e) (setPend p .none s)) }

/-- The issue of an engine instruction once a token is free. -/
def Port.withFree (q : Port) (k : State → State) (s : State) : State := if q.free s then k s else q.wait .tokenFree s

/-- The issue of an engine instruction once its tokens are read and one is free. -/
def withToken (p : Site) (ks : List Opnd) (k : List Nat → State → State) (s : State) : State :=
  match opndToks p ks with
  | none => badOperand p s
  | some es => p.port.withFree (k es) s

/-! ### The meanings -/

/-- TJOIN (R267): the join completes when every operand is Complete. -/
def execTjoin (ks : List Opnd) (s : State) : Out :=
  portable s (fun p s => withToken p ks (fun es s => issueEngine p .tjoin 0 0 es s) s)

/-- A wait on tokens is over, or a test found one Complete: later accesses come after those of their engine instructions, within each
mask and scope (R210, R216). -/
def Site.acquireToks (p : Site) (es : List Nat) (s : State) : State :=
  (es.flatMap (fun e => ((p.grp.toks.find? (fun t => t.e = e)).map Tok.cover).getD [])).foldl
    (fun s c => acquire p.g p.mask c.1 c.2.toNat s) s

/-- KWAIT (R267): waits until every token is Complete; a Failed one is the engine-failure fault. -/
def execKwait (ks : List Opnd) (s : State) : Out :=
  portable s (fun p s =>
    match opndToks p ks with
    | none => badOperand p s
    | some es =>
      match failedTok p.grp es with
      | some (c, o) => takeFault p .engineFailure none (failAux c o) s
      | none => if es.any (fun e => tokState p.grp e = some .pending) then waitFor p (.tokens es) s else advance p (p.acquireToks es s))

/-- KTEST (R267). -/
def execKtest (k : Opnd) (s : State) : Out :=
  portable s (fun p s =>
    match opndTok p k with
    | none => badOperand p s
    | some e =>
      match tokState p.grp e with
      | some (.failed c o) => takeFault p .engineFailure none (failAux c o) s
      | some .pending => defineAll p 0 s
      | _ => defineAll p 1 (p.acquireToks [e] s))

end Sys2Proof.Machine
end

