-- ==== Sys2Proof/Machine/Matrix.lean ====
section
/-! DEFINITION. Accumulator tiles (R114 to R120, R415), array steps (R121 to R129), readout (R130 to R132), and the meanings
of the matrix instructions. -/

namespace Sys2Proof.Machine
open Sys2Proof

/-! ### Sparse and dense tiles -/

/-- n consecutive elements of sparse storage from key k. -/
def denseFrom {α : Type} (d : α) (m : NMap α) : Nat → Nat → List α
  | 0, _ => []
  | n + 1, k =>
    match m with
    | [] => d :: denseFrom d [] n (k + 1)
    | (j, v) :: r => if j = k then v :: denseFrom d r n (k + 1) else d :: denseFrom d ((j, v) :: r) n (k + 1)

/-- The 4,096 elements of a tile in row order. -/
def dense (m : NMap Word) : List Word := denseFrom 0 m 4096 0

/-- Sparse storage of consecutive elements from key k. -/
def sparseFrom (k : Nat) : List Word → NMap Word
  | [] => []
  | w :: r => if w = 0 then sparseFrom (k + 1) r else (k, w) :: sparseFrom (k + 1) r

/-- A tile as `accacq` grants it to context x (R115, R118). -/
def Tile.fresh (x : Nat) : Tile := { owner := List.replicate 64 x, st := .heldIdle, el := [], res := [], ctr := 0, eA := [], eB := [], lastTok := none, flight := [], bad := [] }

/-- The number of physical tiles of a core (R114). -/
def coreTiles : Nat := 8

/-- The tiles of a core in use: held by a group of the core and not Saved (R118). -/
def usedTiles (s : State) (c : Nat) : Nat :=
  (s.groups.map (fun G => if G.core = c then (match G.acc with
    | none => 0
    | some A => (A.tiles.filter (fun T => T.st != .saved)).length) else 0)).foldl (· + ·) 0

/-- Tiles that an `accacq.n` needs: pairs in moment mode. -/
def tilesOf (L : Launch) (n : Nat) : Nat := if L.amode = 1 then 2 * n else n

/-- A set of n tiles granted to context x. -/
def freshSet (x n : Nat) : AccSet := { tiles := List.replicate n (Tile.fresh x), pool := [] }

/-- A tile as context x reads it: rows of another owner read as zero (R359). -/
def Tile.seenBy (x : Nat) (T : Tile) : Tile :=
  if T.owner.all (· == x) then T
  else
    let mine := fun (r : Nat) => nth 0 T.owner r == x
    { T with el := T.el.filter (fun e => mine (e.1 / 64)), res := T.res.filter (fun e => mine (e.1 / 64)), eA := T.eA.filter (fun e => mine e.1),
             ctr := if T.owner.contains x then T.ctr else 0, eB := if T.owner.contains x then T.eB else [], owner := List.replicate 64 x }

/-- A set as context x reads it. -/
def AccSet.seenBy (x : Nat) (A : AccSet) : AccSet := { A with tiles := A.tiles.map (Tile.seenBy x) }

/-- A tile of the set is Saved. -/
def AccSet.anySaved (A : AccSet) : Bool := A.tiles.any (fun T => T.st == .saved)

/-- The group is converged: every thread that has not ended is on one side (R120). -/
def Site.converged (p : Site) : Bool := decide (p.grp.liveSides.length ≤ 1)

/-- Moment mode, relaxed mode (R24). -/
def Site.moment (p : Site) : Bool := p.lau.amode == 1
/-- Relaxed mode. -/
def Site.relaxed (p : Site) : Bool := p.lau.amode == 2

/-- The index in the set of tile t: the even tile of pair t in moment mode. -/
def Site.tileIx (p : Site) (t : Nat) : Nat := if p.moment then 2 * t else t

/-- The checks of an access to tile t of the set that slot c holds: the faults of R118, R131 and R173, and the wait of a
saved set (R117). -/
def withTile (p : Site) (c : Opnd) (t : Nat) (k : AccSet → Tile → State → State) (s : State) : State :=
  if !opndAcc p c then badOperand p s
  else
    match p.grp.acc.map (AccSet.seenBy p.ctx) with
    | none => takeFault p .accessWithoutToken none (BitVec.ofNat 64 t) s
    | some A =>
      if A.anySaved then requestRestore p.g p.sd s
      else
        match A.tiles[p.tileIx t]? with
        | none => takeFault p .accessWithoutToken none (BitVec.ofNat 64 t) s
        | some T => if T.st = .lost then takeFault p .accessWithoutToken none (BitVec.ofNat 64 t) s else k A T s

/-- The converged form of a writing instruction (R120): also a token must be free. -/
def withWrite (p : Site) (c : Opnd) (t : Nat) (k : AccSet → Tile → State → State) (s : State) : State :=
  if !p.converged then takeFault p .divergentMatrix none 0 s
  else withTile p c t (fun A T s => if tokenFree s p.grp then k A T s else stallForToken p s) s

/-- Flags of an instruction that acts once for the group: lane 0xFF (R64). -/
def raiseGroup (p : Site) (f : Flags) (s : State) : State := raiseFlags p [(0xFF, f)] s

/-- A tile with write id in flight. -/
def Tile.writing (id : Nat) (T : Tile) : Tile := { T with st := .heldBusy, lastTok := some id, flight := T.flight ++ [id] }

/-- A tile write: the tiles from index i of the set take new contents, under a completion token with number id (R118, R131). -/
def putTiles (p : Site) (i id : Nat) (new : List Tile) (s : State) : State :=
  let E : Eng := { id := id, ctx := p.ctx, group := p.g, kind := .tile i, scope := 0, mask := 0, deps := [], origin := p.pc,
                   st := .started, since := s.time, done := [], wrote := [] }
  let s := addToken p id { s with engs := s.engs ++ [E] }
  s.updGroup p.g (fun G => { G with acc := G.acc.map (fun A =>
    { A with tiles := (new.map (Tile.writing id)).zipIdx.foldl (fun ts (T, j) => modifyAt (fun _ => T) ts (i + j)) A.tiles }) })

/-- A tile write of the issuing portable instruction, which defines the token. -/
def writeTiles (p : Site) (t : Nat) (new : List Tile) (s : State) : State :=
  let (id, s) := s.newId
  define p (tokVals id) (putTiles p (p.tileIx t) id new s)

/-! ### Folding (R129) -/

/-- fold_tile: every pending residue folds into its element. -/
def foldTile (T : Tile) : Tile × Flags :=
  if T.ctr = 0 then (T, 0)
  else
    let rs := List.zipWith foldS8 (dense T.el) (dense T.res)
    ({ T with el := sparseFrom 0 (rs.map (·.1)), res := [], ctr := 0 }, rs.foldl (fun f r => f ||| r.2) 0)

/-! ### Array steps (R121, R122, R125 to R128) -/

/-- The byte b of a word. -/
def wordByte (w : DWord) (b : Nat) : DWord := BitVec.ofNat 64 (w.toNat / 2 ^ (8 * b) % 256)
/-- The half m of a word. -/
def wordHalf (w : DWord) (m : Nat) : DWord := BitVec.ofNat 64 (w.toNat / 2 ^ (16 * m) % 65536)

/-- The eight elements of row or column q of an 8-bit fragment (R121). -/
def frag8 (ws : List DWord) (q : Nat) : List DWord :=
  (List.range 8).map (fun k => wordByte (nth 0 ws (64 * (k / 4) + q)) (k % 4))

/-- The eight elements of row or column q of a 16-bit fragment of two words (R122). -/
def frag16 (w0 w1 : List DWord) (q : Nat) : List DWord :=
  (List.range 8).map (fun k =>
    let h := k / 4
    let j := k / 2 % 2
    wordHalf (nth 0 (if j = 0 then w0 else w1) (64 * h + q)) (k % 2))

/-- special_step of R127 on element x of the tile. -/
def specialStep (fa fb : Fmt) (a b : List DWord) (x : Word) : Word × Flags :=
  let ps := List.zipWith (fun u v => FV.mul (fa.decode u) (fb.decode v)) a b
  let anyNan := (a.any (fun u => fa.decode u = .nan)) || (b.any (fun v => fb.decode v = .nan))
  let infs := ps.filterMap (fun r => match r.1 with | .inf n => some n | _ => none)
  let bad := ps.any (fun r => r.1 == .nan) || (infs.contains true && infs.contains false)
  let r : FV × Flags := if anyNan then (.nan, 0) else if bad then (.nan, fNV) else (.inf (infs.contains true), 0)
  let f := finish F32 .rne true (FV.add false (F32.decode (x.zeroExtend 64)) r.1)
  (f.1.truncate 32, f.2 ||| r.2)

/-- An FP8 step of one element (R126). -/
def step8 (fa fb : Fmt) (a b : List DWord) (ea eb : Int) (x : Word) : Word × Flags :=
  match alignBlock fa 7 a, alignBlock fb 7 b with
  | some (sa, qa), some (sb, qb) =>
    foldF8 x ((List.zip qa qb).foldl (fun w e => rsdMac w e.1 e.2) 0) (sa + ea) (sb + eb)
  | _, _ => specialStep fa fb a b x

/-- A bf16 or f16 step of one element (R126). -/
def step16 (f : Fmt) (a b : List DWord) (ea eb : Int) (x : Word) : Word × Flags :=
  match alignBlock f 14 a, alignBlock f 14 b with
  | some (sa, qa), some (sb, qb) =>
    let da := qa.map digits16
    let db := qb.map digits16
    let sum := fun (g h : Int × Int → Int) => (List.zip da db).foldl (fun w e => rsdMac w (g e.1) (h e.2)) (0 : Word)
    foldF16 x (sum (·.1) (·.1)) (sum (·.1) (·.2)) (sum (·.2) (·.1)) (sum (·.2) (·.2)) (sa + ea) (sb + eb)
  | _, _ => specialStep f f a b x

/-- The variance pass of the moment form (R128): B² is re-aligned from the integers of B. -/
def stepVar (a b : List DWord) (ea eb : Int) (x : Word) : Word × Flags :=
  match alignBlock E4M3 7 a, alignBlock E4M3 7 b with
  | some (sv, qv), some (sb, qb) =>
    let q2 := qb.map (fun q => rni false (q * q).natAbs (-8))
    foldF8 x ((List.zip qv q2).foldl (fun w e => rsdMac w e.1 e.2) 0) (sv + 2 * ea) (2 * (sb + eb) + 8)
  | _, _ => specialStep E4M3 E4M3 a b x

/-- Every element of a tile through a step of its row and its column. -/
def stepTile (rowA : Nat → List DWord) (colB : Nat → List DWord) (eA eB : NMap Int)
    (f : List DWord → List DWord → Int → Int → Word → Word × Flags) (el : NMap Word) : NMap Word × Flags :=
  let cols := (List.range 64).map (fun c => (colB c, NMap.get 0 eB c))
  let rs := (List.range 64).flatMap (fun r =>
    let a := rowA r
    let ea := NMap.get 0 eA r
    List.zipWith (fun (col : List DWord × Int) x => f a col.1 ea col.2 x) cols (((dense el).drop (64 * r)).take 64))
  (sparseFrom 0 (rs.map (·.1)), rs.foldl (fun g r => g ||| r.2) 0)

/-- An FP step of a tile; a pending s8 residue folds first (R129). -/
def fpStep (T : Tile) (rowA colB : Nat → List DWord) (f : List DWord → List DWord → Int → Int → Word → Word × Flags) : Tile × Flags :=
  let (T, g) := foldTile T
  let (el, h) := stepTile rowA colB T.eA T.eB f T.el
  ({ T with el := el }, g ||| h)

/-- An s8 step (R129): residues accumulate, and the 64th step folds. -/
def s8Step (T : Tile) (rowA colB : Nat → List DWord) : Tile × Flags :=
  let cols := (List.range 64).map colB
  let old := dense T.res
  let new := (List.range 64).flatMap (fun r =>
    let a := (rowA r).map (rdInt true 8)
    List.zipWith (fun (b : List DWord) w => (List.zip a (b.map (rdInt true 8))).foldl (fun w e => rsdMac w e.1 e.2) w)
      cols ((old.drop (64 * r)).take 64))
  let odd := old.foldl (fun (f : Flags) w => f ||| (rsdRead w).2) 0
  let T := { T with res := sparseFrom 0 new, ctr := T.ctr + 1 }
  if T.ctr = 64 then ((foldTile T).1, odd ||| (foldTile T).2) else (T, odd)

/-- A variance byte that R128 refuses: NaN, or negative and non-zero. -/
def badVarByte (x : DWord) : Bool :=
  let v := x.toNat % 256
  decide (v = 0x7F) || decide (0x80 < v)

/-- The lowest lane with a bad variance byte. -/
def badVarLane (ws : List DWord) : Option Nat :=
  (List.range 128).find? (fun i => (List.range 4).any (fun b => badVarByte (wordByte (nth 0 ws i) b)))

/-- −0 read as +0 in a variance byte (R128). -/
def varByte (x : DWord) : DWord := if x = 0x80 then 0 else x

/-- The tile, or pair of tiles, after a step of a form on fragment words; formats by R125. -/
def mmaTiles (fm : MmaForm) (T U : Tile) (fs : List (List DWord)) : List Tile × Flags :=
  let w := fun (i : Nat) => nth [] fs i
  let one := fun (r : Tile × Flags) => ([r.1], r.2)
  let s8 := fun (fa fb : Fmt) => one (fpStep T (frag8 (w 0)) (frag8 (w 1)) (step8 fa fb))
  match fm with
  | .s8 => one (s8Step T (frag8 (w 0)) (frag8 (w 1)))
  | .e4m3 => s8 E4M3 E4M3
  | .e5m2 => s8 E5M2 E5M2
  | .e4m3e5m2 => s8 E4M3 E5M2
  | .e5m2e4m3 => s8 E5M2 E4M3
  | .bf16 => one (fpStep T (frag16 (w 0) (w 1)) (frag16 (w 2) (w 3)) (step16 BF16))
  | .f16 => one (fpStep T (frag16 (w 0) (w 1)) (frag16 (w 2) (w 3)) (step16 F16))
  | .mo =>
    let m := fpStep T (frag8 (w 0)) (frag8 (w 2)) (step8 E4M3 E4M3)
    let v := fpStep { U with eA := T.eA, eB := T.eB } (fun r => (frag8 (w 1) r).map varByte) (frag8 (w 2)) stepVar
    ([m.1, v.1], m.2 ||| v.2)

/-! ### The meanings -/

/-- ACCACQ (R115, R117, R120): waits its turn for free tiles. A group that still holds a set, which verification does not see where a callee
acquires or an acc value died unreleased, takes R115's region limit here: DESIGN CHOICE, log entry 81. -/
def execAccacq (n : BitVec 2) (s : State) : Out :=
  portable s (fun p s =>
    let need := tilesOf p.lau (2 ^ n.toNat)
    if !p.converged then takeFault p .divergentMatrix none 0 s
    else if p.grp.acc.isSome then
      if p.side.pend = .done then define p (List.replicate 128 .acc) (setPend p .none s) else takeFault p .regionLimit none 0 s
    else if coreTiles < need then badOperand p s
    else
      let C := nth Core.reset s.cores p.grp.core
      if C.accQueue = [] ∧ usedTiles s p.grp.core + need ≤ coreTiles ∧ !C.matrixReset then
        define p (List.replicate 128 .acc) (s.updGroup p.g (fun G => { G with acc := some (freshSet p.ctx need) }))
      else
        let s := waitFor p (.accAcq need) s
        if C.accQueue.contains p.g then s
        else { s with cores := modifyAt (fun C => { C with accQueue := C.accQueue ++ [p.g] }) s.cores p.grp.core })

/-- ACCREL (R119, R415): waits for Saved tiles (R117) and for the steps in flight; the release takes effect when its region commits. A
group that holds no set (a callee released it) is refused as a tile access is, with AUX 0: DESIGN CHOICE, log entry 82. -/
def execAccrel (c : Opnd) (s : State) : Out :=
  portable s (fun p s =>
    if !p.converged then takeFault p .divergentMatrix none 0 s
    else if !opndAcc p c then badOperand p s
    else
      match p.grp.acc with
      | none => takeFault p .accessWithoutToken none 0 s
      | some A =>
        if A.anySaved then requestRestore p.g p.sd s
        else if A.busy then waitFor p (.tile none) s
        else advance p (gate p [.accrel] s))

/-- LDFRAG (R123): the word of each lane's fragment position. -/
def execLdfrag (w16 j ds : Bool) (m : MemOp) (s_ : Opnd) (s : State) : Out :=
  portable s (fun p s =>
    match memLanes s p m, opndBits s p .i32 s_ with
    | some as, some ss =>
      let addrs := (List.range 128).map (fun i =>
        let h := i / 64
        let off := if w16 then 8 * h + (if j then 4 else 0) else 4 * h
        nth 0 as i + BitVec.ofNat 64 (i % 64 * (nth 0 ss i).toNat + off))
      access p 4 4 (spaceMask ds) true false addrs (fun accs s =>
        let r := loadNow p 4 (fun s => freeOpnds s p [m.base, m.off, s_]) accs s
        defineBits p r.1 r.2) s
    | _, _ => badOperand p s)

/-- The scale that lane i supplies, saturated, and whether it was. -/
def laneScale (es : List DWord) (i : Nat) : Int × Bool := satInt (rdInt true 32 (nth 0 es i)) (-32) 31

/-- A tile with the scales of the lanes of m: lanes 0 to 63 the rows of A, the others the columns of B (R124). -/
def Tile.scaled (m : Mask) (es : List DWord) (T : Tile) : Tile :=
  { T with
    eA := (lanesOf m).foldl (fun e i => if i < 64 then NMap.set 0 e i (laneScale es i).1 else e) T.eA,
    eB := (lanesOf m).foldl (fun e i => if i < 64 then e else NMap.set 0 e (i - 64) (laneScale es i).1) T.eB }

/-- The flags of a scale load: NV in a lane whose scale was saturated. An instruction that defines a token acts once for its group (R21), and
each lane gives its own scale (R124): that the event names the lane is a DESIGN CHOICE (log entry 80). -/
def scaleEvents (m : Mask) (es : List DWord) : List (Nat × Flags) :=
  (lanesOf m).map (fun i => (i, if (laneScale es i).2 then fNV else 0))

/-- LDSCALE (R124): saturated scales; an inactive lane leaves its scale. -/
def execLdscale (c t e : Opnd) (s : State) : Out :=
  portable s (fun p s =>
    match opndBits s p .i32 e with
    | none => badOperand p s
    | some es =>
      withWrite p c (immNat t) (fun _ T s =>
        writeTiles p (immNat t) [T.scaled p.mask es] (raiseFlags p (scaleEvents p.mask es) s)) s)

/-- Fragment words: a thread that has ended supplies zero, whatever the operand's form (R120). -/
def fragWords (m : Mask) (ws : List (List DWord)) : List (List DWord) :=
  ws.map (fun w => (List.range 128).map (fun i => if m.getLsbD i then nth 0 w i else 0))

/-- MMA (R125 to R129): threads that are not active supply zero words. -/
def execMma (fm : MmaForm) (c t : Opnd) (fs : List Opnd) (s : State) : Out :=
  portable s (fun p s =>
    match opndAll s p .i32 fs with
    | none => badOperand p s
    | some ws =>
      let ws := fragWords p.mask ws
      if fm = .mo ∧ !p.moment then takeFault p .unsupportedFeature none 0 s
      else
        withWrite p c (immNat t) (fun A T s =>
          match (if fm = .mo then badVarLane (nth [] ws 1) else none) with
          | some i => takeFault p .negativeVariance (some i) 0 s
          | none =>
            let r := mmaTiles fm T ((A.tiles[p.tileIx (immNat t) + 1]?).getD T) ws
            writeTiles p (immNat t) r.1 (raiseGroup p r.2 s)) s)

/-- ACCZERO (R130): scales stay. -/
def execAcczero (c t : Opnd) (s : State) : Out :=
  portable s (fun p s =>
    withWrite p c (immNat t) (fun A T s =>
      let z := fun (T : Tile) => { T with el := [], res := [], ctr := 0, bad := [] }
      let g := (foldTile T).2
      let new := if p.moment then [z T, z ((A.tiles[p.tileIx (immNat t) + 1]?).getD T)] else [z T]
      writeTiles p (immNat t) new (raiseGroup p g s)) s)

/-- The elements of slice j: element 128·j + i in lane i (R130). -/
def sliceWords (el : NMap Word) (j : Nat) : List DWord := (List.range 128).map (fun i => (NMap.get 0 el (128 * j + i)).zeroExtend 64)

/-- Elements of slice j replaced in the active lanes. -/
def setSlice (m : Mask) (el : NMap Word) (j : Nat) (vs : List DWord) : NMap Word :=
  (lanesOf m).foldl (fun e i => NMap.set 0 e (128 * j + i) ((nth 0 vs i).truncate 32)) el

/-- The elements of slice j that an active lane writes. -/
def Tile.written (m : Mask) (j : Nat) (T : Tile) : Tile :=
  { T with bad := T.bad.filter (fun i => !(decide (i / 128 = j) && m.getLsbD (i % 128))) }

/-- The lowest active lane whose element of slice j is poisoned (R400). -/
def Tile.badLane (m : Mask) (j : Nat) (T : Tile) : Option Nat := (lanesOf m).find? (fun i => T.bad.contains (128 * j + i))

/-- The operand type of `accrd` and `accwr`. -/
def AccTy.ty : AccTy → Ty
  | .i32 => .i32
  | .f32 => .f32
  | .mo => .mo

/-- ACCWR (R130): a mo operand's variance is checked without clamp. -/
def execAccwr (ty : AccTy) (c t j v : Opnd) (s : State) : Out :=
  portable s (fun p s =>
    match opndBits s p (AccTy.ty ty) v with
    | none => badOperand p s
    | some vs =>
      if ty = .mo ∧ !p.moment then takeFault p .unsupportedFeature none 0 s
      else
        withWrite p c (immNat t) (fun A T s =>
          match (if ty = .mo then (lanesOf p.mask).find? (fun i => badVar (Mo.ofBits (nth 0 vs i)).v) else none) with
          | some i => takeFault p .negativeVariance (some i) 0 s
          | none =>
            let (T, g) := foldTile T
            let T' := Tile.written p.mask (immNat j) { T with el := setSlice p.mask T.el (immNat j) vs }
            if ty = .mo then
              let U := (A.tiles[p.tileIx (immNat t) + 1]?).getD T
              let U' := Tile.written p.mask (immNat j) { U with el := setSlice p.mask U.el (immNat j) (vs.map (fun (x : DWord) => posZero (x >>> 32))) }
              writeTiles p (immNat t) [T', U'] (raiseGroup p g s)
            else writeTiles p (immNat t) [T'] (raiseGroup p g s)) s)

/-- The token rule of a read (R131, R132), then k with the tile. -/
def withRead (p : Site) (c t : Opnd) (k? : Option Opnd) (k : AccSet → Tile → State → State) (s : State) : State :=
  withTile p c (immNat t) (fun A T s =>
    match k? with
    | none =>
      if !p.relaxed then takeFault p .unsupportedFeature none 0 s
      else if T.flight.isEmpty then k A T s else waitFor p (.tile (some (p.tileIx (immNat t)))) s
    | some o =>
      match opndTok p o with
      | none => badOperand p s
      | some e =>
        if p.relaxed then
          if T.flight.isEmpty then k A T s else waitFor p (.tile (some (p.tileIx (immNat t)))) s
        else if T.lastTok ≠ some e then takeFault p .accessWithoutToken none (BitVec.ofNat 64 (immNat t)) s
        else if tokState p.grp e = some .pending then waitFor p (.tokens [e]) s
        else k A T s) s

/-- ACCRD (R129 to R132): a pending residue folds before the read. The fold acts on the whole tile, so its flags have LANE 0xFF (R64): DESIGN
CHOICE, log entry 80. -/
def execAccrd (ty : AccTy) (c t j : Opnd) (k : Option Opnd) (s : State) : Out :=
  portable s (fun p s =>
    if ty = .mo ∧ !p.moment then takeFault p .unsupportedFeature none 0 s
    else
      withRead p c t k (fun A T s =>
        let U := (A.tiles[p.tileIx (immNat t) + 1]?).getD T
        match (if ty = .mo then { T with bad := T.bad ++ U.bad } else T).badLane p.mask (immNat j) with
        | some i => takeFault p .uncorrectableData (some i) 0 s
        | none =>
        let (T', g) := foldTile T
        let ms := sliceWords T'.el (immNat j)
        let xs := match ty with
          | .mo => List.zipWith (fun (m v : DWord) => m ||| (v <<< 32)) ms (sliceWords U.el (immNat j))
          | _ => ms
        let s := s.updGroup p.g (fun G => { G with acc := G.acc.map (fun A => { A with tiles := modifyAt (fun _ => T') A.tiles (p.tileIx (immNat t)) }) })
        defineBits p xs (raiseGroup p g s)) s)

/-- Residue words as read into lanes, with each lane's flags (R56). -/
def readRsd (ws : List DWord) : List (DWord × Flags) := ws.map (fun w => ((rsdRead (w.truncate 32)).1.zeroExtend 64, (rsdRead (w.truncate 32)).2))

/-- RSDRAW (R56, R130): the residue word, without folding. -/
def execRsdraw (c t j : Opnd) (k : Option Opnd) (s : State) : Out :=
  portable s (fun p s => withRead p c t k (fun _ T s =>
    match T.badLane p.mask (immNat j) with
    | some i => takeFault p .uncorrectableData (some i) 0 s
    | none =>
      let rs := readRsd (sliceWords T.res (immNat j))
      defineBits p (rs.map (·.1)) (raiseFlags p (laneEvents p.mask (rs.map (·.2))) s)) s)

end Sys2Proof.Machine
end

