-- ==== Sys2Proof/Machine/Ready.lean ====
section
/-! DEFINITION. The bundle fields that the sequencer reads, the code of a native group as its core sees it, and the ready candidates of a
core (R153, R158, R159, R162, R163, R296, R385). -/

namespace Sys2Proof.Machine
open Sys2Proof

/-! ### Fields (R158, R159) -/

/-- Bits [lo + n − 1 : lo] of a number. -/
def bits (w lo n : Nat) : Nat := w / 2 ^ lo % 2 ^ n

/-- The field of a slot in a bundle (R158). -/
def slotField (w : Nat) : Slot → Nat
  | .s => bits w 16 32 | .v0 => bits w 48 40 | .v1 => bits w 88 40 | .f => bits w 128 32 | .l => bits w 160 40
  | .m => bits w 200 24 | .a => bits w 224 32

/-- The opcode of a slot field (R166 to R174). -/
def slotOpc (w : Nat) : Slot → Nat
  | .s => bits w 26 6 | .v0 | .v1 => bits w 34 6 | .f => bits w 28 4 | .l => bits w 34 6 | .m => bits w 20 4 | .a => bits w 26 6

/-- STOP, SYNC, MARK and IL of a header (R159). -/
def isStop (w : Nat) : Bool := w.testBit 0
/-- SYNC. -/
def isSync (w : Nat) : Bool := w.testBit 1
/-- MARK. -/
def isMark (w : Nat) : Bool := w.testBit 2
/-- IL. -/
def isIl (w : Nat) : Bool := w.testBit 3

/-! ### Code (R153) -/

/-- The bundles of a native group: its translation's, which its core's instruction store holds page by page; the store's own bytes where
the group names no translation. -/
def codeOf (s : State) (G : Group) (N : Native) (b : Nat) : Nat :=
  match G.translation.bind (fun x => s.xlats[x]?) with
  | some t => (match t.code with | some C => nth 0 C.bundles b | none => 0)
  | none => leNat (rawBytes s (keyIstore G.core ((N.base + 32 * b) % 2 ^ 18)) 32)

/-- Bundle b of the group stands in its core's instruction store (R153, R296): 128 bundles a page. -/
def inStore (s : State) (G : Group) (b : Nat) : Bool :=
  match G.translation with
  | some x => (nth Core.reset s.cores G.core).pages.contains (x, b / 128)
  | none => true

/-! ### Readiness (R162, R163, R296, R385) -/

/-- An S operation of PC slot i is still to issue, so its next bundle is not known. -/
def Native.branchOpen (N : Native) (i : Nat) : Bool := (nth [] N.queue 0).any (fun e => e.side == i)

/-- A fence of PC slot i is still to issue: no later access of its side may be performed before it (R260). -/
def Native.fenceOpen (N : Native) (i : Nat) : Bool := (nth [] N.queue 4).any (fun e => e.side == i && slotOpc e.word .l == 0x11)

/-- PC slot i of a native group may dispatch its next bundle, which is in the store: no slot queue is full at 16 entries, a SYNC waits until
every stream has issued and every result has arrived (R163), and a MARK does so for its own side (R385). -/
def nativeReady (s : State) (G : Group) (N : Native) (i : Nat) : Bool :=
  match nth none N.slots i with
  | none => false
  | some P =>
    let w := codeOf s G N P.pc
    P.parked.isNone && !N.branchOpen i && !N.fenceOpen i && inStore s G P.pc && N.queue.all (fun q => decide (q.length < 16)) &&
      (!isSync w || (N.queue.all List.isEmpty && N.pend.all (fun p => !p.late))) &&
      (!isMark w || (N.queue.all (List.all · (fun e => e.side != i)) && N.pend.all (fun p => !p.late || p.side != i)))

/-- The live PC slots of a group: PC slot and side. Portable sides stand in the PC slots in their order, those that wait giving way
(log entry 83). -/
def Group.pcSlots (G : Group) : List (Nat × Nat) :=
  match G.native with
  | some N => (N.slots.zipIdx.filter (fun (p, i) => p.any (fun P => P.parked.isNone) && ((G.sides[i]?).bind Side.hold).isNone)).map (fun (_, i) => (i, i))
  | none => ((G.sides.zipIdx.filter (fun (S, _) => S.canRun)).take 2).zipIdx.map (fun ((_, sd), i) => (i, sd))

/-- The divergence stack of a group holds a side: a portable group's sides after the first two that can run stand in it. -/
def Group.stacked (G : Group) : Bool :=
  match G.native with
  | some N => !N.stack.isEmpty
  | none => decide (2 < (G.sides.filter Side.canRun).length)

/-- The candidates of a core (R296): 2 × group slot + PC slot. -/
def candidates (s : State) (c : Nat) : List (Nat × Nat × Nat) :=
  s.groups.zipIdx.flatMap (fun (G, g) =>
    if G.core = c ∧ G.resident ∧ G.st = .ready then G.pcSlots.map (fun (i, sd) => (2 * G.slot + i, g, sd)) else [])

/-- The ready candidates of a core. A portable group's instructions take no bundle from the store. -/
def readyCands (s : State) (c : Nat) : List (Nat × Nat × Nat) :=
  (candidates s c).filter (fun e => match s.groups[e.2.1]? with
    | some G => (match G.native with | some N => nativeReady s G N e.2.2 | none => true)
    | none => false)

/-- The candidates that a `yield` of side sd of group g on core c waits for: every other one ready now (R318). -/
def yieldedTo (s : State) (c g sd : Nat) : List Nat :=
  (readyCands s c).filterMap (fun (i, h, sd') => if h = g ∧ sd' = sd then none else some i)

end Sys2Proof.Machine
end

