-- ==== Sys2Proof/Machine/Ring.lean ====
section
/-! DEFINITION. Command-queue rings as the queues and `enq` see them (R285, R287, R288), and addresses that hardware reads or
writes for a context. -/

namespace Sys2Proof.Machine
open Sys2Proof

/-! ### Addresses of a context (R225, R285) -/

/-- The storage key of a virtual address of context x that is mapped with a right and owned by x; none otherwise. -/
def ctxKey (s : State) (x va : Nat) (wr : Bool) : Option Nat :=
  if 2 ^ 48 ≤ va ∨ va / 2 ^ 40 = 0xFF then none
  else (walk s x va).bind (fun l =>
    if l.owner = x ∧ (if wr then l.wr else l.rd) then some (l.pa + (va - l.va)) else none)

/-- A range of n bytes wholly in mapped, readable device memory of context x, looked up at each 64 KiB page it touches. -/
def dmRange (s : State) (x va n : Nat) : Bool :=
  (List.range ((va % 65536 + n + 65535) / 65536)).all (fun i =>
    match ctxKey s x (if i = 0 then va else (va / 65536 + i) * 65536) false with
    | some k => !isDS k
    | none => false)

/-- n bytes of a context's memory from a virtual address; a byte that is not mapped reads 0. -/
def ctxBytes (s : State) (x va : Nat) : Nat → List Byte
  | 0 => []
  | n + 1 => (match ctxKey s x va false with | some k => loadByte s x k | none => 0) :: ctxBytes s x (va + 1) n

/-- Hardware of a context reads n bytes from a virtual address: stores there that are owed at system scope are performed first (R219). -/
def reachVa (x va n : Nat) (s : State) : State :=
  (List.range ((n + 7) / 8)).foldl (fun s i => match ctxKey s x (va + 8 * i) false with
    | some k => reach .outside false k 8 s
    | none => s) s

/-! ### Queues (R284 to R288) -/

/-- Queue q as it stands. -/
def queueAt (s : State) (q : Nat) : Queue := NMap.get Queue.reset s.queues q
/-- Changes queue q. -/
def updQueue (q : Nat) (f : Queue → Queue) (s : State) : State :=
  { s with queues := NMap.set Queue.reset s.queues q (f (queueAt s q)) }

/-- Entries of the ring. -/
def Queue.size (Q : Queue) : Nat := 2 ^ (Q.logn + 4)
/-- Virtual address of entry n. -/
def Queue.entry (Q : Queue) (n : Nat) : Nat := Q.rbase + 64 + 64 * (n % Q.size)

/-- TAIL in the ring's control line; none when the line cannot be read. -/
def ringTail (s : State) (q : Nat) : Option Nat :=
  let Q := queueAt s q
  (ctxKey s Q.ctx Q.rbase false).map (fun k => (loadWord s Q.ctx k).toNat)

/-- A refusal: the queue enters Error, and the driver is told (R287, R288). -/
def queueFail (q code : Nat) (s : State) : State :=
  let s := updQueue q (fun Q => { Q with st := .error, err := BitVec.ofNat 16 code }) s
  { s with replies := { kind := 0x50, bytes := leBytes 2 q ++ leBytes 2 code } :: s.replies }

/-- The state of a queue with work: Halted for a halted context (R287). -/
def readyState (s : State) (Q : Queue) : Queue :=
  if (ctxAt s Q.ctx).st = .halted then { Q with st := .halted, before := .ready } else { Q with st := .ready }

/-- The queue reads TAIL: Error 0x000C when it cannot, else Empty becomes Ready when TAIL is above the count of entries
consumed (R285, R287). -/
def readTail (q : Nat) (s : State) : State :=
  let Q := queueAt s q
  if Q.st = .disabled ∨ Q.st = .error then s
  else
    let s := reachVa Q.ctx Q.rbase 8 s
    match ringTail s q with
    | none => queueFail q 0x000C s
    | some t => updQueue q (fun Q =>
        let Q := { Q with tail := t }
        if Q.st = .empty ∧ Q.head < t then readyState s Q else Q) s

/-- The 64 bytes of an entry (R285). -/
def entryBytes (kind flags arg0 arg1 : Nat) : List Byte :=
  leBytes 1 kind ++ leBytes 1 flags ++ List.replicate 6 0 ++ leBytes 8 arg0 ++ leBytes 8 arg1 ++ List.replicate 40 0

/-- `enq` of group g performs: the entry and TAIL are written and the queue reads TAIL; none while the ring is full (R315). -/
def enqPerform (g x q d : Nat) (barrier : Bool) (s : State) : Option (Except Cause State) :=
  let Q := queueAt s q
  match ringTail s q with
  | none => some (.error .page)
  | some t =>
    if Q.size ≤ t - Q.head then none
    else
      match ctxKey s x (Q.entry t) true, ctxKey s x Q.rbase true with
      | some ke, some kl =>
        let s := reach (.engine g) true kl 8 (reach (.engine g) true ke 64 s)
        some (.ok (readTail q (storeWord x kl (BitVec.ofNat 64 (t + 1)) (storeBytes x ke (entryBytes 1 (if barrier then 1 else 0) d 0) s))))
      | _, _ => some (.error .permission)

end Sys2Proof.Machine
end

