-- ==== Sys2Proof/Machine/Signals.lean ====
section
/-! DEFINITION. Signals, waits and time (R307 to R319): the meanings of the signal, enqueue and time instructions, and the
events that end their waits. -/

namespace Sys2Proof.Machine
open Sys2Proof

/-! ### Writing a signal (R309) -/

/-- The lowest active lane's address of a memory operand. -/
def lowAddr (s : State) (p : Site) (m : MemOp) : Option DWord := (memLanes s p m).map (fun as => nth 0 as p.low)

/-- A signal write at address a: the checks of R268 at access size 8, then a committing operation. -/
def signalAt (q : Port) (rd : Bool) (sc mask : BitVec 3) (a : DWord) (kind : EngKind) (es : List Nat) (s : State) : State :=
  let p := q.site
  let view := p.view s
  let s := touchAddrs p.who 8 [a.toNat] s
  match resolve view p.who a.toNat 8 8 mask true, (if rd then resolve view p.who a.toNat 8 8 mask false else .ok ⟨0, .dm, none⟩) with
  | .error c, _ => takeFault p c (some p.low) a s
  | _, .error c => takeFault p c (some p.low) a s
  | .ok _, .ok _ => q.commit kind sc mask es s

/-- The issue of `sigdec` and `sigset`. -/
def signalWrite (s : State) (rd : Bool) (sc mask : BitVec 3) (m : MemOp) (v : Opnd) (ks : List Opnd)
    (kind : Nat → DWord → EngKind) : Out :=
  portable s (fun p s =>
    match lowAddr s p m, opndOne s p .i64 v with
    | some a, some x => withToken p ks (signalAt p.port rd sc mask a (kind a.toNat x)) s
    | _, _ => badOperand p s)

/-- SIGDEC (R309). -/
def execSigdec (sc mask : BitVec 3) (m : MemOp) (v : Opnd) (ks : List Opnd) (s : State) : Out :=
  signalWrite s true sc mask m v ks (fun a x => .sigdec a x)

/-- SIGSET (R309). -/
def execSigset (sc mask : BitVec 3) (m : MemOp) (v : Opnd) (ks : List Opnd) (s : State) : Out :=
  signalWrite s false sc mask m v ks (fun a x => .sigset a x)

/-- The write of a signal: none when its address no longer stands. -/
def signalPerform (s : State) (E : Eng) : Except Cause State :=
  let w : Who := match s.groups[E.group]? with
    | none => { x := E.ctx, core := 0, blk := none, stamp := 0 }
    | some G => { x := E.ctx, core := G.core, blk := some G.block, stamp := G.stamp }
  match E.kind with
  | .sigdec a v =>
    (match resolveRW s w a 8 8 E.mask true true with
     | .error c => .error c
     | .ok k =>
       let s := reach (.engine E.group) true k.key 8 s
       .ok (storeWord E.ctx k.key (loadWord s E.ctx k.key - v) s))
  | .sigset a v =>
    (match resolve s w a 8 8 E.mask true with
     | .error c => .error c
     | .ok k => .ok (storeWord E.ctx k.key v (reach (.engine E.group) true k.key 8 s)))
  | _ => .ok s

/-! ### Waiting on a signal (R311 to R314) -/

/-- Every active thread reads the word at key a: the group's stores there come first, those of its region with a MARK before the
instruction (log entry 14), and what a lane read there early no longer counts (R214). -/
def Site.readsWord (p : Site) (a : Nat) (s : State) : State :=
  let s := if p.side.gated.any (fun o => match o.reach? with | some (_, b, n) => meets a 8 b n | none => false) then commit p.g p.sd s else s
  let s := reach (.thread p.g p.low) false a 8 (landOver a 8 p.g s)
  (lanesOf p.mask).foldl (fun s l => dropEarly p.g l a 8 s) s

/-- What the active threads read early of the signal no longer counts: their wait has obtained a later value (R214, R311). -/
def Site.forget (p : Site) (mask : BitVec 3) (m : MemOp) (s : State) : State :=
  match lowAddr s p m with
  | none => s
  | some a =>
    match resolve s p.who a.toNat 8 8 mask false with
    | .error _ => s
    | .ok acc => (lanesOf p.mask).foldl (fun s l => dropEarly p.g l acc.key 8 s) s

/-- The read of a signal by the group: its key, or the precise fault with lane 0xFF (R314). -/
def withSignal (p : Site) (mask : BitVec 3) (m : MemOp) (k : DWord → Acc → State → State) (s : State) : State :=
  match lowAddr s p m with
  | none => badOperand p s
  | some a =>
    let t := touchAddrs p.who 8 [a.toNat] s
    match resolve (p.view s) p.who a.toNat 8 8 mask false with
    | .error c => takeFault p c none a t
    | .ok acc => k a acc (p.readsWord acc.key t)

/-- The signal word as the group reads it. -/
def Site.signal (p : Site) (acc : Acc) (s : State) : DWord := loadWord s p.ctx acc.key

/-- The evaluation that satisfies a wait, or `sigrd`, is an acquire load by every active thread (R311, R314). -/
def Site.acquires (p : Site) (sc mask : BitVec 3) (s : State) : State := acquire p.g p.mask mask sc.toNat s

/-- SIGRD (R314): an acquire load, the same value in every active lane. -/
def execSigrd (sc mask : BitVec 3) (m : MemOp) (s : State) : Out :=
  portable s (fun p s => withSignal p mask m (fun _ acc s => defineAll p (p.signal acc s) (p.acquires sc mask s)) s)

/-- SIGWAIT (R311, R313): evaluated at registration, then on every later write; ended by WATCH_SATISFIED. -/
def execSigwait (cc : Cond) (sc mask : BitVec 3) (m : MemOp) (x : Opnd) (s : State) : Out :=
  portable s (fun p s =>
    match p.side.pend with
    | .hit v => defineAll p v (setPend p .none (p.acquires sc mask (p.forget mask m s)))
    | _ =>
      match opndOne s p .i64 x with
      | none => badOperand p s
      | some x =>
        withSignal p mask m (fun _ acc s =>
          let v := p.signal acc s
          if condMet cc v x then defineAll p v (p.acquires sc mask s)
          else waitFor p (.signal { a := acc.key, cond := cc, x := x, deadline := none, hit := none }) s) s)

/-- TWAIT (R312, R313): the deadline is taken at the first issue and stays across suspension. -/
def execTwait (cc : Cond) (sc mask : BitVec 3) (m : MemOp) (x n : Opnd) (s : State) : Out :=
  portable s (fun p s =>
    match p.side.pend with
    | .hit _ => defineAll p 1 (setPend p .none (p.acquires sc mask (p.forget mask m s)))
    | .done => defineAll p 0 (setPend p .none s)
    | q =>
      match opndOne s p .i64 x, opndOne s p .i32 n with
      | some x, some n =>
        let t := match q with | .deadline t => t | _ => s.time + n.toNat
        withSignal p mask m (fun _ acc s =>
          let v := p.signal acc s
          if condMet cc v x then defineAll p 1 (setPend p .none (p.acquires sc mask s))
          else if t ≤ s.time then defineAll p 0 (setPend p .none s)
          else
            waitFor p (.signal { a := acc.key, cond := cc, x := x, deadline := some t, hit := none })
              (commit p.g p.sd (setPend p (.deadline t) s))) s
      | _, _ => badOperand p s)

/-- Side sd goes on with what its wait carries. -/
def resumeWait (g sd : Nat) (q : Pend) (s : State) : State :=
  wakeSide g sd (s.updSide g sd (fun S => { S with pend := q }))

/-- The first wait of group g for which f gives what it carries goes on. -/
def resumeFirst (g : Nat) (f : Wait → Option Pend) (s : State) : State :=
  match (s.groups[g]?).bind (fun G => G.waits.findSome? (fun e => (f e.2.1).map (fun q => (e.1, q)))) with
  | some (sd, q) => resumeWait g sd q s
  | none => s

/-- The first wait of group g on a signal for which f gives an end: the MARK before the wait keeps it, so that a rollback does not wait
again (R311). -/
def endSignal (g : Nat) (f : Watch → Option Pend) (s : State) : State :=
  let f := fun (w : Wait) => match w with | .signal w => f w | _ => none
  match (s.groups[g]?).bind (fun G => G.waits.findSome? (fun e => (f e.2.1).map (fun q => (e.1, q)))) with
  | some (sd, q) => resumeWait g sd q (s.updSide g sd (fun S => { S with markPend := q }))
  | none => s

/-- WATCH_SATISFIED (R311): the satisfying value is kept for the re-executed wait. -/
def execWatchSatisfied (g : Nat) (s : State) : Out :=
  .next (endSignal g (fun w => w.hit.map Pend.hit) s)

/-- TWAIT_DEADLINE (R312): the deadline has passed with no satisfying value before it. -/
def execTwaitDeadline (g : Nat) (s : State) : Out :=
  .next (endSignal g (fun w => match w.hit, w.deadline with | none, some t => if t ≤ s.time then some .done else none | _, _ => none) s)

/-! ### Enqueue (R315) -/

/-- The enqueue fault's conditions (R315). -/
def enqBad (s : State) (x : Nat) (q : Nat) (d : DWord) : Bool :=
  let Q := queueAt s q
  decide (1023 < q) || Q.st == .disabled || Q.st == .error || Q.ctx != x || decide (d.toNat % 64 ≠ 0)
    || !(match walk s x d.toNat with
        | some l => decide (d.toNat < 2 ^ 48) && decide (d.toNat / 2 ^ 40 ≠ 0xFF) && l.owner == x && !isDS (l.pa + (d.toNat - l.va))
        | none => false)

/-- An enqueue: the checks at issue, then a committing operation (R315). -/
def enqAt (p : Port) (barrier : Bool) (sc mask : BitVec 3) (q d : DWord) (es : List Nat) (s : State) : State :=
  if enqBad s p.site.ctx q.toNat d then takeFault p.site .enqueue none q s
  else p.commit (.enq q.toNat d.toNat barrier) sc mask es s

/-- ENQ (R315). -/
def execEnq (barrier : Bool) (sc mask : BitVec 3) (q d : Opnd) (ks : List Opnd) (s : State) : Out :=
  portable s (fun p s =>
    match opndOne s p .i32 q, opndOne s p .i64 d with
    | some q, some d => withToken p ks (enqAt p.port barrier sc mask q d) s
    | _, _ => badOperand p s)

/-! ### Sleeping and time (R316 to R318) -/

/-- NSLEEP (R316): the deadline is on the module time base; `nsleep 0` returns at once. -/
def execNsleep (n : Opnd) (s : State) : Out :=
  portable s (fun p s =>
    match p.side.pend, opndOne s p .i32 n with
    | .deadline t, some _ => if t ≤ s.time then advance p (setPend p .none s) else waitFor p (.sleep t) s
    | _, some n =>
      if n = 0 then advance p s
      else waitFor p (.sleep (s.time + n.toNat)) (commit p.g p.sd (setPend p (.deadline (s.time + n.toNat)) s))
    | _, none => badOperand p s)

/-- NSLEEP_EXPIRY (R316): at least n ns have passed. -/
def execNsleepExpiry (g : Nat) (s : State) : Out :=
  .next (s.updGroup g (Group.endWaits (fun w => match w with | .sleep t => decide (t ≤ s.time) | _ => false)))

/-- RDCLK (R317): the issuing core's count of clocks. -/
def execRdclk (s : State) : Out :=
  portable s (fun p s => defineAll p (BitVec.ofNat 64 (nth Core.reset s.cores p.grp.core).clk) s)

/-- RDTIME (R317): the module time base in nanoseconds. -/
def execRdtime (s : State) : Out := portable s (fun p s => defineAll p (BitVec.ofNat 64 s.time) s)

/-- YIELD (R318): the other candidates ready now are noted. -/
def execYield (s : State) : Out :=
  portable s (fun p s =>
    match p.side.pend with
    | .done => advance p (setPend p .none s)
    | _ =>
      let others := yieldedTo s p.grp.core p.g p.sd
      if others.isEmpty then advance p s
      else waitFor p (.yielding others ((nth Core.reset s.cores p.grp.core).clk + 64)) s)

/-- YIELD_END (R318): every noted candidate has been dispatched once, or 64 clocks have passed. -/
def execYieldEnd (g : Nat) (s : State) : Out :=
  .next (match s.groups[g]? with
    | none => s
    | some G => resumeFirst g (fun w => match w with
      | .yielding others t => if others.isEmpty ∨ t ≤ (nth Core.reset s.cores G.core).clk then some .done else none
      | _ => none) s)

/-- A dispatch of candidate i on core c, as waiting yields see it. -/
def noteDispatch (c i : Nat) (s : State) : State :=
  { s with groups := s.groups.map (fun G =>
      if G.core = c then G.mapWaits (fun w => match w with | .yielding others t => .yielding (others.filter (· != i)) t | w => w) else G) }

/-- FREQUENCY_TRANSITION (R316): the cluster's clock changes, from 400 MHz to 800 MHz (R1, R9); deadlines stand on the time base. In early
service it stays at 400 MHz. -/
def execFrequencyTransition (cl mhz : Nat) (s : State) : Out :=
  .next (if 400 ≤ mhz ∧ mhz ≤ 800 ∧ (s.full ∨ mhz = 400) then { s with clusters := modifyAt (fun C => { C with mhz := mhz }) s.clusters cl } else s)

/-! ### Staggered barrier release (R319) -/

/-- Inserts a group into a list by %gid. -/
def insertGid (s : State) (g : Nat) : List Nat → List Nat
  | [] => [g]
  | h :: r =>
    match s.groups[g]?, s.groups[h]? with
    | some G, some H => if G.gid < H.gid then g :: h :: r else h :: insertGid s g r
    | _, _ => g :: h :: r

/-- A wait on a phase of a barrier. -/
def Wait.onPhase (q : Nat × Nat × Word) (w : Wait) : Bool := match w with | .barrier n ph => n == q.2.1 && ph == q.2.2 | _ => false

/-- The groups that wait on a completed phase, in increasing %gid, each with the phase. -/
def phaseWaiters (s : State) (q : Nat × Nat × Word) : List (Nat × Nat × Nat × Word) :=
  (((s.groups.zipIdx.filter (fun e => decide (e.1.block = q.1) && e.1.waits.any (fun w => Wait.onPhase q w.2.1))).map (·.2)).foldl
    (fun l g => insertGid s g l) []).map (fun g => (g, q))

/-- BARRIER_RELEASE_WAVE (R319): a wave of cluster cl leaves, 64 clocks after the one before it or at the completion of a phase: it makes
Ready at most max(SLOPE, 1) groups, of the phases in their order of completion and in increasing %gid. -/
def execBarrierReleaseWave (cl : Nat) (s : State) : Out :=
  .next (
    let C := nth Cluster.reset s.clusters cl
    let clk := (nth Core.reset s.cores (8 * cl)).clk
    let ws := C.phases.flatMap (phaseWaiters s)
    if clk < C.waveAt ∨ C.phases.isEmpty then s
    else
      let now := ws.take (max C.slope.toNat 1)
      let s := now.foldl (fun t e => t.updGroup e.1 (Group.endWaits (Wait.onPhase e.2))) s
      { s with clusters := modifyAt (fun C => { C with phases := C.phases.filter (fun q => !(phaseWaiters s q).isEmpty),
                                                       waveAt := if now.isEmpty then C.waveAt else clk + 64 }) s.clusters cl })

end Sys2Proof.Machine
end

