-- ==== Sys2Proof/Machine/Native.lean ====
section
/-! DEFINITION. The native level of a group (R158 to R182): what an operation of a slot stream reads and writes, pending results
and their latencies, MARKs, waits and faults. -/

namespace Sys2Proof.Machine
open Sys2Proof

/-! ### The site of a native operation -/

/-- The place of a slot in a bundle. -/
def slotIx : Slot → Nat
  | .s => 0 | .v0 => 1 | .v1 => 2 | .f => 3 | .l => 4 | .m => 5 | .a => 6

/-- The slots in their order. -/
def allSlots : List Slot := [.s, .v0, .v1, .f, .l, .m, .a]

/-- Where a native operation issues, with the pending writes that it sees, in the order in which they act. -/
structure NSite where
  g : Nat
  sl : Slot
  e : NEntry
  grp : Group
  nat : Native
  blk : Block
  lau : Launch
  vis : List PendW
  deriving DecidableEq, Repr

/-- A window register whose pair has not been translated (R195, R196). -/
def Win.unset : Win := { vbase := 0, frame := 0, limit := 0, space := 0, rd := false, wr := false, size := 0, stale := true }

/-- No join: a rejoin point that no bundle has (log entry 43). -/
def noJoin : Nat := 2 ^ 48 - 1

/-- The PC slot of a converged native group at bundle b, with no join ahead. -/
def PcSlot.start (b : Nat) (m : Mask) : PcSlot :=
  { pc := b, mask := m, rejoin := noJoin, view := View.reset, events := [], parked := none, turns := 0, calls := [], path := [],
    closed := false, comm := false }

/-- The head entry of a slot stream. -/
def Native.head (N : Native) (sl : Slot) : Option NEntry := (nth [] N.queue (slotIx sl)).head?

/-- Inserts a pending write by the count at which it becomes readable. -/
def insReady (w : PendW) : List PendW → List PendW
  | [] => [w]
  | v :: r => if w.ready < v.ready then w :: v :: r else v :: insReady w r

/-- Pending writes in the order of R162: by the count at which they become readable. -/
def byReady (ws : List PendW) : List PendW := ws.foldl (fun acc w => insReady w acc) []

/-- The pending writes that entry e of stream sl sees: those of its own stream whose latency has passed, or all of them in
interlocked mode; of another stream, with no SYNC between, the new value or the prior one, by free choice n (R162 to R164). What another slot
of e's own bundle writes or pushes it never sees (R175). Where two writes of one register are unfinished in interlocked mode, the one
whose latency ends later stands (DESIGN CHOICE, log entry 72). -/
def visible (N : Native) (sl : Slot) (e : NEntry) (n : Nat) : List PendW :=
  let own := N.pend.filter (fun w => w.slot == sl && (e.il || decide (w.ready ≤ e.bundle)))
  let other := N.pend.zipIdx.filter (fun (w, i) => w.slot != sl && w.bundle != e.bundle && Config.freeBool n i)
  byReady own ++ byReady (other.map (·.1))

/-- A group's registers as context x reads them: zero under another owner's tag (R359). -/
def NRegs.seenBy (x : Nat) (R : NRegs) : NRegs :=
  let R := { R with g := R.g.filter (fun e => NMap.get 0 R.gOwn e.1 == x), m := R.m.filter (fun e => NMap.get 0 R.mOwn e.1 == x) }
  if R.owner = x then R
  else
    { R with s := [], preds := R.preds.map (fun _ => 0), x := R.x.map (fun _ => { base := 0, len := 0, pair := false, idx := 0 }), fmw := 0, owner := x }

/-- The site of the issuing slot operation. -/
def nsite? (s : State) : Option NSite :=
  match s.issue with
  | .slot g sl =>
    (match s.groups[g]? with
     | none => none
     | some G =>
       match G.native, s.blocks[G.block]? with
       | some N, some B =>
         (match N.head sl, s.launches[B.launch]? with
          | some e, some L => some { g := g, sl := sl, e := e, grp := G, nat := { N with regs := N.regs.seenBy L.ctx }, blk := B, lau := L, vis := visible N sl e s.fresh }
          | _, _ => none)
       | _, _ => none)
  | _ => none

/-- Changes the native state of group g. -/
def State.updNative (s : State) (g : Nat) (f : Native → Native) : State :=
  s.updGroup g (fun G => { G with native := G.native.map f })

/-- The entry leaves its queue. -/
def NSite.pop (p : NSite) (s : State) : State :=
  (s.updNative p.g (fun N => { N with queue := modifyAt List.tail N.queue (slotIx p.sl) })).tick

/-- The entry stands in its queue again, for a wait. -/
def NSite.unpop (p : NSite) (s : State) : State :=
  s.updNative p.g (fun N => { N with queue := modifyAt (fun q => p.e :: q) N.queue (slotIx p.sl) })

/-- A slot operation acts at the issuing stream; none issuing is noIssuer (log entry 10). -/
def native (s : State) (k : NSite → State → State) : Out :=
  match nsite? s with
  | none => .refused .noIssuer
  | some p => .next (k p (p.pop s))

/-- The operation as a portable site: its lanes, the portable address of its instruction (R184), its gated operations. -/
def NSite.site (p : NSite) : Site :=
  let core : SideCore := { mask := p.e.mask, frames := [], view := (match nth none p.nat.slots p.e.side with | some P => P.view | none => View.reset), joins := [] }
  { g := p.g, sd := p.e.side, len := 0, grp := p.grp,
    side := { core := core, status := .running, pend := (match p.grp.sides[p.e.side]? with | some S => S.pend | none => .none),
              mark := core, markPend := .none, markTiles := none, gated := p.nat.gatedOf p.e.side, age := 0, replays := 0,
              unchecked := 0, turns := 0, skipWatch := (match p.grp.sides[p.e.side]? with | some S => S.skipWatch | none => none),
              skipHook := false },
    fr := { fn := p.nat.fn, pc := p.nat.port p.e.pc, next := 0, vals := [], rets := [] }, blk := p.blk, lau := p.lau }

/-- An N-core. -/
def NSite.isN (p : NSite) : Bool := dieIsN (dieOf p.grp.core)
/-- A latency of R178 by the kind of die. -/
def NSite.lat (p : NSite) (w n : Nat) : Nat := if p.isN then n else w
/-- The index at which a V slot reads its operand buffer (R161, R165). -/
def NSite.bufIx (p : NSite) : Nat := if p.isN then 255 else 511
/-- The context. -/
def NSite.ctx (p : NSite) : Nat := p.lau.ctx
/-- The lowest active lane. -/
def NSite.low (p : NSite) : Nat := lowLane p.e.mask

/-- A fault of the operation, at the portable address of its instruction. -/
def NSite.fault (p : NSite) (c : Cause) (lane : Option Nat) (aux : DWord) (s : State) : State := takeFault p.site c lane aux s

/-- The illegal-bundle trap at the operation's bundle: AUX is the bundle index (R182, R384). -/
def NSite.illegal (p : NSite) (s : State) : State := p.fault .illegalBundle none (BitVec.ofNat 64 p.e.pc) s

/-- The group waits; the operation stands at the head of its queue. -/
def NSite.wait (p : NSite) (w : Wait) (s : State) : State := waitFor p.site w (p.unpop s)

/-- Sides 0 and 1 of a native group hold the waits of its PC slots; the sides of its hops stand after them. -/
def Group.twoSides (G : Group) : List Side :=
  let S := Side.begin { mask := 0, frames := [], view := View.reset, joins := [] } (G.sides.head?.bind Side.markTiles) .running
  G.sides ++ List.replicate (2 - G.sides.length) S

/-- A PC slot that a side newly takes waits for nothing. -/
def Group.takeSlot (i : Nat) (G : Group) : Group :=
  { G with sides := modifyAt (fun S => { S with pend := .none, markPend := .none, hold := none }) G.twoSides i }

/-- What the side carries to its re-execution, also from its MARK. -/
def NSite.keepPend (p : NSite) (q : Pend) (s : State) : State :=
  s.updSide p.g p.e.side (fun S => { S with pend := q, markPend := q })

/-! ### Reads -/

/-- Lists of 128 lanes laid over each other. -/
def overlay (ws : List PendW) (v : List DWord) : List DWord := ws.foldl (fun v w => backLanes 0 w.mask v w.vals) v

/-- The writes of a register that the operation sees. -/
def NSite.seen (p : NSite) (r : Reg) : List PendW := p.vis.filter (fun w => w.reg = r)

/-- Lanes of words. -/
def wordsOf (ws : List Word) : List DWord := (List.range 128).map (fun i => (nth 0 ws i).zeroExtend 64)

/-- An operand buffer. -/
def NSite.buf (p : NSite) (n : Nat) : List DWord :=
  overlay (p.seen (.buf n)) (wordsOf (if n = 0 then p.nat.buf0 else p.nat.buf1))

/-- A vector register: g0 reads zero; in a V slot the last index reads the slot's operand buffer (R161, R165). -/
def NSite.g_ (p : NSite) (n : Nat) : List DWord :=
  if n = 0 then List.replicate 128 0
  else if n = p.bufIx ∧ p.sl = .v0 then p.buf 0
  else if n = p.bufIx ∧ p.sl = .v1 then p.buf 1
  else overlay (p.seen (.g n)) (wordsOf (NMap.get [] p.nat.regs.g n))

/-- A uniform register. -/
def NSite.s_ (p : NSite) (n : Nat) : Word :=
  match (p.seen (.s n)).getLast? with
  | some w => (nth 0 w.vals 0).truncate 32
  | none => NMap.get 0 p.nat.regs.s n

/-- A uniform pair, low word first. -/
def NSite.s2 (p : NSite) (n : Nat) : DWord := (p.s_ n).zeroExtend 64 ||| ((p.s_ (n + 1)).zeroExtend 64 <<< 32)

/-- A 64-bit pair with one half replaced: the high one when hi. -/
def setHalf (hi : Bool) (old x : DWord) : DWord := if hi then lowBits 32 old ||| (x <<< 32) else (old >>> 32 <<< 32) ||| lowBits 32 x

/-- A write of half of a moment register laid over the old pairs. -/
def overHalf (hi : Bool) (w : PendW) (v : List DWord) : List DWord :=
  backLanes 0 w.mask v ((List.range 128).map (fun i => setHalf hi (nth 0 v i) (nth 0 w.vals i)))

/-- A moment register. -/
def NSite.m_ (p : NSite) (n : Nat) : List DWord :=
  p.vis.foldl (fun v w => match w.reg with | .m k hi => if k = n then overHalf hi w v else v | _ => v) (NMap.get [] p.nat.regs.m n)

/-- A push (R175): depth d moves to d + 1 in the lanes of m, and depth 0 takes the bits of v. -/
def pushPreds (m v : Mask) (ps : List Mask) : List Mask :=
  (List.range 8).map (fun d => (nth 0 ps d &&& ~~~m) ||| ((if d = 0 then v else nth 0 ps (d - 1)) &&& m))

/-- Inserts a push by bundle, V0 before V1 (R175). -/
def insPush (w : PendW) : List PendW → List PendW
  | [] => [w]
  | v :: r => if w.bundle < v.bundle ∨ (w.bundle = v.bundle ∧ slotIx w.slot < slotIx v.slot) then w :: v :: r else v :: insPush w r

/-- The pushes of a list in their order. -/
def pushesOf (ws : List PendW) : List PendW := (ws.filter (fun w => w.reg = .push)).foldl (fun acc w => insPush w acc) []

/-- The bits that a push writes. -/
def PendW.bits (w : PendW) : Mask := maskOf (fun i => nth 0 w.vals i = 1)

/-- Predicates with pushes applied. -/
def applyPushes (ws : List PendW) (ps : List Mask) : List Mask := ws.foldl (fun ps w => pushPreds w.mask w.bits ps) ps

/-- The predicate register as the operation sees it. -/
def NSite.preds (p : NSite) : List Mask := applyPushes (pushesOf p.vis) p.e.preds

/-- The lanes in which the operation acts: active, and with guard 1 where it has one (R167). -/
def NSite.act (p : NSite) (grd : BitVec 4) : Mask :=
  if grd.getLsbD 3 then p.e.mask &&& nth 0 p.preds (grd.toNat % 8) else p.e.mask

/-- The float mode word (R161). -/
def NSite.fmw (p : NSite) : BitVec 5 :=
  match (p.seen .fmw).getLast? with
  | some w => (nth 0 w.vals 0).truncate 5
  | none => p.nat.regs.fmw

/-- Index register n: what `sxset` and `sxidx` wrote. -/
def NSite.x_ (p : NSite) (n : Nat) : Idx :=
  let X := nth { base := 0, len := 0, pair := false, idx := 0 } p.nat.regs.x n
  let X := match (p.seen (.x n)).getLast? with
    | some w =>
      let v := (nth 0 w.vals 0).toNat
      { X with base := v % 512, len := v / 512 % 128, pair := decide (v / 2 ^ 16 % 2 = 1) }
    | none => X
  match (p.seen (.xi n)).getLast? with
  | some w => { X with idx := (nth 0 w.vals 0).truncate 32 }
  | none => X

/-! ### Writes -/

/-- Adds a pending write of the operation. -/
def NSite.put (p : NSite) (r : Reg) (lat : Nat) (m : Mask) (vals : List DWord) (late : Bool) (s : State) : State :=
  s.updNative p.g (fun N => { N with pend := N.pend ++
    [{ slot := p.sl, side := p.e.side, bundle := p.e.bundle, ready := p.e.bundle + lat, reg := r, mask := m, vals := vals, late := late }] })

/-- Writes a vector register in the lanes of m; g0 discards (R161). -/
def NSite.putG (p : NSite) (n lat : Nat) (m : Mask) (vals : List DWord) (s : State) : State :=
  if n = 0 then s else p.put (.g n) lat m vals false s

/-- Writes a uniform register. -/
def NSite.putS (p : NSite) (n lat : Nat) (v : Word) (s : State) : State :=
  (p.put (.s n) lat 0 [v.zeroExtend 64] false s).updNative p.g (fun N => { N with win := staleWin n N.win })

/-- Writes a uniform pair, low word first. -/
def NSite.putS2 (p : NSite) (n lat : Nat) (v : DWord) (s : State) : State :=
  p.putS (n + 1) lat (v.extractLsb' 32 32) (p.putS n lat (v.truncate 32) s)

/-- Pushes bits in the lanes of m. -/
def NSite.push (p : NSite) (lat : Nat) (m : Mask) (bits : List Bool) (s : State) : State :=
  p.put .push lat m (bits.map b1) false s

/-- Changes the PC slot of the operation. -/
def NSite.updSlot (p : NSite) (f : PcSlot → PcSlot) (s : State) : State :=
  s.updNative p.g (fun N => { N with slots := modifyAt (Option.map f) N.slots p.e.side })

/-- An event comes before another in program order: by bundle, then by slot. -/
def NEvent.before (a b : NEvent) : Bool := decide (a.count < b.count) || (a.count == b.count && decide (slotIx a.slot ≤ slotIx b.slot))

/-- The record of R64 of the first of the streams' first events. -/
def recordOf : List NEvent → DWord
  | [] => 0
  | a :: r =>
    let m := r.foldl (fun a b => if a.before b then a else b) a
    fevRecord m.port m.lane m.flags

/-- Flags of lanes that an operation of stream sl raises on its side, at portable address port of a bundle; en is the first-event
enable. Each stream keeps its first event, and the record is the first of them (R63, R64, R184). -/
def PcSlot.raise (en : Bool) (sl : Slot) (count port bundle : Nat) (evs : List (Nat × Flags)) (P : PcSlot) : PcSlot :=
  let v : View := { P.view with flags := P.view.flags ||| (unionFlags evs).zeroExtend 32 }
  match firstEvent evs with
  | some (lane, f) =>
    if en && (!fevValid v.fev || !P.events.isEmpty) && P.events.all (fun e => e.slot != sl) then
      let es : List NEvent := { slot := sl, count := count, port := port, bundle := bundle, lane := lane, flags := f } :: P.events
      { P with events := es, view := { v with fev := recordOf es } }
    else { P with view := v }
  | none => { P with view := v }

/-- Raises flags of lanes in the view of the operation's side (R63, R64, R184). -/
def NSite.raise (p : NSite) (evs : List (Nat × Flags)) (s : State) : State :=
  p.updSlot (PcSlot.raise p.lau.fev p.sl p.e.bundle (p.nat.port p.e.pc) p.e.pc evs) s

/-! ### SYNC and MARK (R163, R181) -/

/-- A pending write enters its register, which is shadowed for its region (R181). -/
def settleW (N : Native) (w : PendW) : Native :=
  let R := N.regs
  match w.reg with
  | .g n =>
    let old := NMap.get [] R.g n
    { N with regs := { R with gOwn := NMap.set 0 R.gOwn n R.owner, g := NMap.set [] R.g n ((overlay [w] (wordsOf old)).map (fun x => x.truncate 32)) },
             shadow := .vec w.side n w.mask old :: N.shadow }
  | .s n =>
    { N with regs := { R with s := NMap.set 0 R.s n ((nth 0 w.vals 0).truncate 32) }, shadow := .uni w.side n (NMap.get 0 R.s n) :: N.shadow }
  | .m n hi =>
    let old := NMap.get [] R.m n
    { N with regs := { R with mOwn := NMap.set 0 R.mOwn n R.owner, m := NMap.set [] R.m n (overHalf hi w old) }, shadow := .mom w.side n w.mask old :: N.shadow }
  | .push =>
    { N with regs := { R with preds := pushPreds w.mask w.bits R.preds }, shadow := .preds w.side w.mask R.preds :: N.shadow }
  | .x n =>
    let v := (nth 0 w.vals 0).toNat
    { N with regs := { R with x := modifyAt (fun X => { X with base := v % 512, len := v / 512 % 128, pair := decide (v / 2 ^ 16 % 2 = 1) }) R.x n },
             shadow := .ctl w.side R.x R.lc R.fmw :: N.shadow }
  | .xi n =>
    { N with regs := { R with x := modifyAt (fun X => { X with idx := (nth 0 w.vals 0).truncate 32 }) R.x n },
             shadow := .ctl w.side R.x R.lc R.fmw :: N.shadow }
  | .fmw => { N with regs := { R with fmw := (nth 0 w.vals 0).truncate 5 }, shadow := .ctl w.side R.x R.lc R.fmw :: N.shadow }
  | .buf 0 => { N with buf0 := (overlay [w] (wordsOf N.buf0)).map (fun x => x.truncate 32) }
  | .buf _ => { N with buf1 := (overlay [w] (wordsOf N.buf1)).map (fun x => x.truncate 32) }

/-- A list turned by n places. -/
def rotate {α : Type} (l : List α) (n : Nat) : List α := l.drop (n % (l.length + 1)) ++ l.take (n % (l.length + 1))

/-- Every result in f is written: each stream's own in its order; of two streams that wrote one register, which prevails is free
choice n. -/
def Native.settleIn (f : PendW → Bool) (N : Native) (n : Nat) : Native :=
  let order := rotate allSlots (Config.freeNat n 0)
  let due := N.pend.filter f
  let ws := order.flatMap (fun sl => byReady (due.filter (fun w => w.slot = sl && w.reg != .push))) ++ pushesOf due
  { ws.foldl settleW N with pend := N.pend.filter (fun w => !f w) }

/-- Every result is written, as before a SYNC (R163). -/
def Native.settle (N : Native) (n : Nat) : Native := N.settleIn (fun _ => true) n

/-- Every result of PC slot sd is written, as before its MARK (R385). -/
def Native.settleSide (sd : Nat) (N : Native) (n : Nat) : Native := N.settleIn (fun w => w.side == sd) n

/-- Whether a shadowed item belongs to PC slot sd. -/
def Shadow.ofSide (sd : Nat) : Shadow → Bool
  | .vec s .. | .uni s .. | .mom s .. | .preds s .. | .ctl s .. | .tok s .. => s == sd

/-- The results of PC slot sd that are still to be written, counted from the bundle at which its region opens. -/
def Native.carried (sd : Nat) (N : Native) : List PendW :=
  (byReady (N.pend.filter (fun w => w.side = sd))).map (fun w => { w with bundle := w.bundle - N.bundles, ready := w.ready - N.bundles })

/-- The region of PC slot sd closes: its shadows are dropped, and its PC slot is what a rollback returns to. Another PC slot
that has no MARK of its own yet, or has left, is taken as it stands. -/
def Native.marks (sd : Nat) (N : Native) : Native :=
  let slots := modifyAt (Option.map (fun P => { P with comm := false })) N.slots sd
  { N with
    gated := N.gated.filter (fun e => e.1 ≠ sd), ngated := modifyAt (fun _ => 0) N.ngated sd, shadow := N.shadow.filter (fun h => !h.ofSide sd),
    slots := slots,
    markSlots := slots.zipIdx.map (fun (P, i) => if i = sd then P else match P, nth none N.markSlots i with
      | none, _ => none
      | P, none => P
      | _, M => M),
    markStack := N.stack, markPend := N.markPend.filter (fun w => w.side ≠ sd) ++ N.carried sd }

/-- A native group's MARK passes a gated operation: a plain store enters the buffer of stores to perform (R217, R223), one to a spill slot and
any other operation is performed, after all the stores before it (log entry 14). -/
def nLand (x g sd : Nat) (o : GOp) (s : State) : State :=
  let spill := fun (a : Nat) => (s.groups[g]?).any (fun G =>
    decide (keyScratch G.core G.spill ≤ a) && decide (a < keyScratch G.core G.spill + G.spillLen))
  match o with
  | .store _ a _ => if spill a then performNow x g sd o s else land x g sd o s
  | _ => performNow x g sd o (landAll g s)

/-- A MARK of PC slot sd of group g: its gated operations are performed in order and a new region opens (R181, R387). -/
def nCommit (g sd : Nat) (s : State) : State :=
  match s.groups[g]? with
  | none => s
  | some G =>
    match G.native with
    | none => s
    | some N =>
      let ops := N.gatedOf sd
      let acc := if ops.contains .accrel then none else G.acc
      let s := (s.updNative g (Native.marks sd)).updGroup g (fun G =>
        { G with sides := (modifyAt (Side.committed acc) G.sides sd).map (fun T => { T with markTiles := acc }) })
      let s := ops.foldl (fun s o => nLand (groupCtx s G) g sd o s) s
      if G.doomed.isSome then endGroup g s else s

/-- Performs the gated operations of the side's region before its committing operation. -/
def NSite.flush (p : NSite) (s : State) : State :=
  match (s.groups[p.g]?).bind Group.native with
  | none => s
  | some N =>
    let stay := fun (o : GOp) => match o with | .brkpt _ _ | .accrel => true | _ => false
    let ops := N.gatedOf p.e.side
    (ops.filter (fun o => !stay o)).foldl (fun s o => performNow p.ctx p.g p.e.side o s)
      (landAll p.g <| s.updNative p.g (fun N => { N with gated := N.gated.filter (fun e => e.1 ≠ p.e.side || stay e.2) }))

/-- PC slot sd has had its region's committing operation. -/
def Native.commits (sd : Nat) (N : Native) : Native :=
  let f := modifyAt (Option.map (fun (P : PcSlot) => { P with comm := true }))
  { N with slots := f N.slots sd, markSlots := f N.markSlots sd }

/-- After a committing operation, the last of its region's bundles: a rollback no longer goes back over it; results still to be
written stay so (R180, R181, R385). -/
def NSite.committed (p : NSite) (s : State) : State :=
  (nCommit p.g p.e.side s).updNative p.g (Native.commits p.e.side)

/-- Adds the gated operations of one slot operation to the region, in one entry; a 65th is the illegal-bundle trap (R181). -/
def NSite.gate (p : NSite) (ops : List GOp) (s : State) : State :=
  if 64 ≤ nth 0 p.nat.ngated p.e.side then p.illegal s
  else s.updNative p.g (fun N => { N with gated := N.gated ++ ops.map (fun o => (p.e.side, o)), ngated := modifyAt (· + 1) N.ngated p.e.side })

/-! ### Tokens k0 to k15 (R161) -/

/-- The engine instruction that token k stands for. -/
def NSite.tok (p : NSite) (k : Nat) : Option Nat := nth none p.nat.k k

/-- Token k takes engine instruction e. -/
def NSite.putTok (p : NSite) (k e : Nat) (s : State) : State :=
  s.updNative p.g (fun N => { N with k := modifyAt (fun _ => some e) N.k k, shadow := .tok p.e.side k (nth none N.k k) :: N.shadow })

/-- Token k is pending. -/
def tokPending (G : Group) (N : Native) (k : Nat) : Bool :=
  match nth none N.k k with
  | some e => tokState G e == some .pending
  | none => false

end Sys2Proof.Machine
end

