-- ==== Sys2Proof/Machine/System.lean ====
section
/-! DEFINITION. The flag, counter and debug instructions (R394 to R397). -/

namespace Sys2Proof.Machine
open Sys2Proof

/-- CTRRD (R396): the count at the moment it issues, in every active lane. -/
def execCtrrd (n : Opnd) (s : State) : Out :=
  portable s (fun p s => defineAll p (nth 0 (ctxAt s p.ctx).counts (immNat n)) s)

/-- CTRCTL (R396): gated; it takes effect when its region commits. -/
def execCtrctl (clear : Bool) (n cfg : Opnd) (s : State) : Out :=
  portable s (fun p s =>
    match opndOne s p .i32 cfg with
    | some c => advance p (gate p [.ctrctl (immNat n) (c.truncate 32) clear] s)
    | none => badOperand p s)

/-- BRKPT (R397): a MARK stands directly after it; the stop is taken when that MARK commits and DBG is 1. -/
def execBrkpt (code : Opnd) (s : State) : Out :=
  portable s (fun p s => commit p.g p.sd (advance p (gate p [.brkpt (immNat code) p.pc] s)))

/-- ASSERT (R397): the assert fault when the condition is 0 in some active lane. -/
def execAssert (c code : Opnd) (s : State) : Out :=
  portable s (fun p s =>
    match opndBits s p .b1 c with
    | none => badOperand p s
    | some xs =>
      match (lanesOf p.mask).find? (fun i => nth 0 xs i = 0) with
      | some i => takeFault p .assertion (some i) (BitVec.ofNat 64 (immNat code)) s
      | none => advance p s)

/-- RDFLAG (R395): the issuing side's view, bits [31:7] zero. -/
def execRdflag (s : State) : Out :=
  portable s (fun p s => defineAll p ((p.side.core.view.flags &&& 0x7F).zeroExtend 64) s)

/-- CLRFLAG (R395). -/
def execClrflag (m : Opnd) (s : State) : Out :=
  portable s (fun p s =>
    match opndOne s p .i32 m with
    | some x => advance p (s.updCore p.g p.sd (fun c => { c with view := c.view.clear (x.truncate 32) }))
    | none => badOperand p s)

/-- RDFEV (R395). -/
def execRdfev (s : State) : Out := portable s (fun p s => defineAll p p.side.core.view.fev s)

end Sys2Proof.Machine
end

