-- ==== Sys2Proof/Machine/NativeS.lean ====
section
/-! DEFINITION. The S slot: scalar, uniform and control operations (R168, R169, R176, R177, R298, R320). -/

namespace Sys2Proof.Machine
open Sys2Proof

/-! ### Integer functions by V opcode (R167) -/

/-- The result of an integer V opcode on A, B and the old D; none for an opcode that is not one of 0x01 to 0x1C but `isel`,
or 0x20 to 0x23. -/
def intFn (f : Nat) (a b d : DWord) : Option DWord :=
  let n := b.toNat % 2 ^ 32
  match f with
  | 0x01 => some (iAdd 32 a b) | 0x02 => some (iSub 32 a b) | 0x03 => some (iMul true false 32 a b)
  | 0x04 => some (iMulhi true 32 a b) | 0x05 => some (iMulhi false 32 a b) | 0x06 => some (iMad true 32 a b d)
  | 0x07 => some (a &&& b) | 0x08 => some (a ||| b) | 0x09 => some (a ^^^ b)
  | 0x0A => some (iShl 32 a n) | 0x0B => some (iShr true 32 a n) | 0x0C => some (iShr false 32 a n) | 0x0D => some (iRotl 32 a n)
  | 0x0F => some (iMin true 32 a b) | 0x10 => some (iMin false 32 a b) | 0x11 => some (iMax true 32 a b)
  | 0x12 => some (iMax false 32 a b)
  | 0x13 => some (iClz 32 a) | 0x14 => some (iPopc 32 a) | 0x15 => some (iBrev 32 a)
  | 0x16 => some (iBfx true 32 a (n % 256) (n / 256 % 256)) | 0x17 => some (iBfx false 32 a (n % 256) (n / 256 % 256))
  | 0x18 => some (iBfi 32 d a (n % 256) (n / 256 % 256))
  | 0x19 => some (iAddsat true 32 a b) | 0x1A => some (iAddsat false 32 a b)
  | 0x1B => some (iSubsat true 32 a b) | 0x1C => some (iSubsat false 32 a b)
  | 0x20 => some (iDivRem true 32 a b).1 | 0x21 => some (iDivRem false 32 a b).1
  | 0x22 => some (iDivRem true 32 a b).2 | 0x23 => some (iDivRem false 32 a b).2
  | _ => none

/-! ### Code as the sequencer sees it -/

/-- The S field of a bundle. -/
def sField (w : Nat) : Nat := w / 2 ^ 16 % 2 ^ 32

/-- A bundle at a signed distance from b. -/
def relBundle (b : Nat) (o : BitVec 22) : Nat := ((b : Int) + o.toInt).toNat

/-- The bundles that may follow bundle b: n stands for the function's end. -/
def nextBundles (code : Nat → Nat) (n b : Nat) : List Nat :=
  let w := sField (code b)
  let t := relBundle b (BitVec.ofNat 22 w)
  match w / 2 ^ 26 with
  | 0x04 => [t]
  | 0x05 => [b + 1, t]
  | 0x08 | 0x09 | 0x0A => [n]
  | _ => [b + 1]

/-- Whether the end is reached from a list of bundles on a path that avoids bundle j. -/
def endAvoids (next : Nat → List Nat) (n j : Nat) : Nat → List Nat → List Nat → Bool
  | 0, _, _ => false
  | _ + 1, [], _ => false
  | f + 1, b :: r, seen =>
    if n ≤ b then true
    else if b = j ∨ seen.contains b then endAvoids next n j f r seen
    else endAvoids next n j f (next b ++ r) (b :: seen)

/-- Every path from bundle b comes to the join at bundle j. -/
def mustReach (code : Nat → Nat) (n b j : Nat) : Bool :=
  !endAvoids (nextBundles code n) n j (4 * n + 8) [b] []

/-- The joins that every path from bundle b comes to. -/
def joinsAfter (code : Nat → Nat) (n b : Nat) : List Nat :=
  (List.range n).filter (fun j => sField (code j) / 2 ^ 26 == 0x06 && mustReach code n b j)

/-- The nearest join that every path from bundle b comes to. -/
def nearestJoin (code : Nat → Nat) (n b : Nat) : Nat :=
  let js := joinsAfter code n b
  (js.find? (fun j => js.all (fun k => k == j || mustReach code n (j + 1) k))).getD noJoin

/-! ### The divergence stack and parked sides (R151, R177, R298) -/

/-- Storage key of entry i of the divergence stack, the bottom entry first. -/
def stackKey (s : State) (G : Group) (i : Nat) : Nat :=
  let slots := match G.translation.bind (fun x => s.xlats[x]?) with | some t => (match t.st with | .ok n _ => n | _ => 0) | none => 0
  keyScratch G.core (G.spill + 512 * slots + 48 * i)

/-- Entries of the divergence stack that the translator sized (R151). -/
def stackLimit (s : State) (G : Group) : Nat :=
  match G.translation.bind (fun x => s.xlats[x]?) with
  | some t => (match t.st with | .ok _ n => n | _ => 0)
  | none => 0

/-- The 48 bytes of an entry (R177). -/
def stackEntry (P : PcSlot) : List Byte :=
  leBytes 16 P.mask.toNat ++ leBytes 8 (P.rejoin % 2 ^ 48 + P.view.flags.toNat % 128 * 2 ^ 48) ++ leBytes 8 P.pc
    ++ leBytes 8 P.view.fev.toNat ++ List.replicate 8 0

/-- The stack's entries written to the spill area. -/
def writeStack (g : Nat) (s : State) : State :=
  match s.groups[g]? with
  | none => s
  | some G =>
    match G.native with
    | none => s
    | some N => N.stack.reverse.zipIdx.foldl (fun s (P, i) => storeBytes (groupCtx s G) (stackKey s G i) (stackEntry P) s) s

/-- A native side that takes part in a merge: the branches it came through, its view and its first-event record. -/
structure NView where
  path : List NBranch
  view : View
  events : List NEvent
  deriving DecidableEq, Repr

/-- A side's part. -/
def PcSlot.part (P : PcSlot) : NView := { path := P.path, view := P.view, events := P.events }

/-- Two parts become one: the record is the valid one of the side whose lanes come first at the branch, and the part keeps that
side's place among others still to come (R65, R71). -/
def NView.merge (X Y : NView) : NView :=
  let (A, B) := if lanesBefore (X.path.map (·.low)) (Y.path.map (·.low)) then (X, Y) else (Y, X)
  let C := if fevValid A.view.fev || !fevValid B.view.fev then A else B
  { C with view := mergeViews [A.view, B.view] }

/-- A side with a part's view. -/
def PcSlot.withPart (P : PcSlot) (V : NView) : PcSlot := { P with path := V.path, view := V.view, events := V.events }

/-- Two sides at one join become one (R65, R71). -/
def mergeSlots (X Y : PcSlot) : PcSlot := { X with mask := X.mask ||| Y.mask }.withPart (X.part.merge Y.part)

/-- The branch at which two paths part meets at join j, at call depth d. -/
def meetAt (j d : Nat) : List NBranch → List NBranch → Bool
  | a :: as, b :: bs => if a == b then meetAt j d as bs else a.join == j && b.join == j && a.depth == d
  | _, _ => false

/-- What PC slot b had open becomes PC slot a's. -/
def Native.relabel (a b : Nat) (N : Native) : Native :=
  { N with
    pend := N.pend.map (fun w => if w.side = b then { w with side := a } else w),
    gated := N.gated.map (fun (d, o) => (if d = b then a else d, o)),
    shadow := N.shadow.map (fun h => match h with
      | .vec d n m o => .vec (if d = b then a else d) n m o
      | .uni d n o => .uni (if d = b then a else d) n o
      | .mom d n m o => .mom (if d = b then a else d) n m o
      | .preds d m o => .preds (if d = b then a else d) m o
      | .ctl d x lc f => .ctl (if d = b then a else d) x lc f
      | .tok d n o => .tok (if d = b then a else d) n o) }

/-- A side must still come to join j at call depth d before a side parked there goes on: from where it stands, or from the bundle to which
its calls return it at that depth (R65, R169). -/
def awaits (reach : Nat → Nat → Bool) (j d : Nat) (Z : PcSlot) : Bool :=
  if d < Z.calls.length then (Z.calls[Z.calls.length - d - 1]?).any (fun c => c.1 == j || reach c.1 j)
  else decide (Z.calls.length = d) && (match Z.parked with
    | some (k, _) => k == j || reach Z.pc j
    | none => reach Z.pc j)

/-- Side X goes on from join j: the views of sides that ended before the rejoin enter it, and its branches that meet there are behind it. -/
def PcSlot.leave (j : Nat) (gone : List (List NBranch × View)) (X : PcSlot) : PcSlot :=
  let d := X.calls.length
  let V := (gone.filter (fun e => meetAt j d e.1 X.path)).foldl (fun V e => V.merge { path := e.1, view := e.2, events := [] }) X.part
  let X := X.withPart V
  { X with parked := none, path := X.path.takeWhile (fun b => !(b.join == j && b.depth == d)) }

/-- PC slot i, parked, goes on when no other side is to come to its join. -/
def Native.release (reach : Nat → Nat → Bool) (i : Nat) (N : Native) : Native :=
  match nth none N.slots i with
  | some X =>
    (match X.parked with
     | some (j, _) =>
       let others := (nth none N.slots (1 - i)).toList ++ N.stack
       if others.any (awaits reach j X.calls.length) then N
       else { N with slots := modifyAt (Option.map (PcSlot.leave j N.gone)) N.slots i,
                     gone := N.gone.filter (fun e => !meetAt j X.calls.length e.1 X.path) }
     | none => N)
  | none => N

/-- A released side that takes in ended sides' views opens a region of its own, as after any rejoin (R65, R385). -/
def releaseSide (g : Nat) (reach : Nat → Nat → Bool) (i : Nat) (s : State) : State :=
  match (s.groups[g]?).bind Group.native with
  | none => s
  | some N =>
    let M := N.release reach i
    let s := s.updNative g (fun _ => M)
    if M.gone = N.gone then s else nCommit g i s

/-- One settlement of the stack: fill a free PC slot, or, with both parked at different joins, move the longer parked to the bottom
(R177, R298). -/
def settleStep (N : Native) : Native :=
  match N.slots, N.stack with
  | [some X, some Y], T :: st =>
    (match X.parked, Y.parked with
     | some (j, t), some (k, u) =>
       if j = k then N
       else if t ≤ u then { N with slots := [some { T with turns := 0 }, some Y], markSlots := [some T, nth none N.markSlots 1],
                                   stack := st ++ [X], markStack := st ++ [X] }
       else { N with slots := [some X, some { T with turns := 0 }], markSlots := [nth none N.markSlots 0, some T],
                     stack := st ++ [Y], markStack := st ++ [Y] }
     | _, _ => N)
  | [none, Y], T :: st =>
    { N with slots := [some { T with turns := 0 }, Y], markSlots := [some T, nth none N.markSlots 1], stack := st, markStack := st }
  | [some X, none], T :: st =>
    { N with slots := [some X, some { T with turns := 0 }], markSlots := [nth none N.markSlots 0, some T], stack := st, markStack := st }
  | _, _ => N

/-- Both sides parked at one join merge, and the merged group opens one region (R177, R385). -/
def mergeParked (g : Nat) (s : State) : State :=
  match (s.groups[g]?).bind Group.native with
  | none => s
  | some N =>
    match N.slots with
    | [some X, some Y] =>
      if X.parked.isSome ∧ X.parked.map (·.1) = Y.parked.map (·.1) then
        nCommit g 1 (nCommit g 0 (s.updNative g (fun _ => Native.relabel 0 1 { N with slots := [some (mergeSlots X Y), none] })))
      else s
    | _ => s

/-- n settlements. -/
def settleSlots (g : Nat) (reach : Nat → Nat → Bool) : Nat → State → State
  | 0, s => s
  | n + 1, s => settleSlots g reach n (mergeParked g ((releaseSide g reach 1 (releaseSide g reach 0 s)).updNative g settleStep))

/-- The branches of a native side as divergences of a portable one, the innermost first (R327, R404). -/
def Native.joins (N : Native) (path : List NBranch) : List Join :=
  (path.zipIdx.map (fun (b, i) =>
    { id := 2 ^ 64 + i * 2 ^ 17 + b.join % 2 ^ 17, at? := if b.join = noJoin then none else some (N.port b.join), depth := b.depth + 1, low := b.low })).reverse

/-- The ended native sides whose views are still to enter a rejoin, as portable sides (R65). -/
def Native.goneSides (N : Native) : List Side :=
  N.gone.map (fun (path, v) => Side.begin { mask := 0, frames := [], view := v, joins := N.joins path } none .ended)

/-- Parked sides, free PC slots and the stack of group g settle; with no side left the group's threads have ended. -/
def settleNative (g : Nat) (s : State) : State :=
  match s.groups[g]? with
  | none => s
  | some G =>
    match G.native with
    | none => s
    | some N =>
      let reach := mustReach (codeOf s G N) N.nbnd
      let s := writeStack g (settleSlots g reach (2 * N.stack.length + 6) s)
      if ((s.groups[g]?).bind Group.native).all (fun M => M.slots.all Option.isNone) then
        if (G.sides.drop 2).any Side.live then
          s.updGroup g (fun G => { G with
            native := none
            sides := G.sides.zipIdx.map (fun (S, i) => if i < 2 then { S with status := .ended } else S) ++ ((G.native.map Native.goneSides).getD []) })
        else endGroup g s
      else s

/-! ### Uniform operations -/

/-- S_NOP (R160). -/
def execSNop (s : State) : Out := native s (fun _ s => s)

/-- SALU (R169). No lane stands for `isel`'s predicate, so which operand it takes is a free value (log entry 44). A FN of one operand takes
s[D], the left operand of the rule's form (DESIGN CHOICE, log entry 97). -/
def execSalu (d a : BitVec 9) (f : BitVec 8) (s : State) : Out :=
  native s (fun p s =>
    let x := (p.s_ d.toNat).zeroExtend 64
    let y := (p.s_ a.toNat).zeroExtend 64
    let r := match intFn f.toNat x y x with
      | some r => r
      | none => if Config.freeBool s.fresh 0 then x else y
    p.putS d.toNat 2 (r.truncate 32) s.tick)

/-- SLI (R169). -/
def execSli (d : BitVec 9) (i : BitVec 17) (s : State) : Out := native s (fun p s => p.putS d.toNat 2 (i.signExtend 32) s)

/-- SLHI (R169): IMM17 × 2^15 + s[D][14:0]. -/
def execSlhi (d : BitVec 9) (i : BitVec 17) (s : State) : Out :=
  native s (fun p s => p.putS d.toNat 2 (i ++ (p.s_ d.toNat).extractLsb' 0 15) s)

/-- SV2S (R169). -/
def execSv2s (d a : BitVec 9) (s : State) : Out :=
  native s (fun p s => p.putS d.toNat 2 ((nth 0 (p.g_ a.toNat) p.low).truncate 32) s)

/-- SSETFM (R169). -/
def execSsetfm (f : BitVec 5) (s : State) : Out := native s (fun p s => p.put .fmw 2 0 [f.zeroExtend 64] false s)

/-- SXSET (R176): BASE, L − 1 and PAIR. -/
def execSxset (x : BitVec 2) (b : BitVec 9) (l : BitVec 6) (p : Bool) (s : State) : Out :=
  native s (fun q s => q.put (.x x.toNat) 2 0
    [BitVec.ofNat 64 (b.toNat + (l.toNat + 1) * 512 + (if p then 2 ^ 16 else 0))] false s)

/-- SXIDX (R176): the index is checked at once. -/
def execSxidx (x : BitVec 2) (u : BitVec 9) (s : State) : Out :=
  native s (fun p s =>
    let i := p.s_ u.toNat
    if (p.x_ x.toNat).len ≤ i.toNat then p.fault .arrayBounds (some p.low) (i.zeroExtend 64) s
    else p.put (.xi x.toNat) 2 0 [i.zeroExtend 64] false s)

/-! ### Control -/

/-- Where the side's region has closed in this bundle, a rollback returns to where the PC slot stands now (R385). -/
def NSite.remark (p : NSite) (s : State) : State :=
  s.updNative p.g (fun N =>
    match nth none N.slots p.e.side with
    | some P => if P.comm then { N with markSlots := modifyAt (fun _ => some P) N.markSlots p.e.side } else N
    | none => N)

/-- The PC slot goes to a bundle. -/
def NSite.goto (p : NSite) (b : Nat) (s : State) : State := p.remark (p.updSlot (fun P => { P with pc := b }) s)

/-- SBR (R169). -/
def execSbr (o : BitVec 22) (s : State) : Out := native s (fun p s => p.goto (relBundle p.e.pc o) s)

/-- The results of PC slot i are parted between the lanes that stay, k, and the lanes m that go on in the other PC slot; those of
registers that are not per lane are written, and with no other slot so are the parted ones. -/
def Native.part (i : Nat) (k m : Mask) (two : Bool) (N : Native) (n : Nat) : Native :=
  let lanes := fun (w : PendW) => match w.reg with | .g _ | .m _ _ | .buf _ | .push => true | _ => false
  let N := N.settleIn (fun w => w.side == i && !lanes w) n
  let own := N.pend.filter (fun w => w.side = i)
  let cut := fun (c : Mask) (sd : Nat) => own.map (fun w => { w with mask := w.mask &&& c, side := sd })
  let rest := N.pend.filter (fun w => w.side ≠ i) ++ cut k i
  if two then { N with pend := rest ++ cut m (1 - i) }
  else
    let M := Native.settle { N with pend := cut m i } (n + 1)
    { M with pend := rest }

/-- The divergence of R177: the side of the lowest lane keeps the PC slot; the other, with X's rejoin point and views, takes the free
one or the stack. No region spans it (R385). -/
def NSite.diverge (p : NSite) (t : Mask) (target : Nat) (s : State) : State :=
  match s.groups[p.g]? with
  | none => s
  | some G =>
    match G.native, nth none ((G.native.map Native.slots).getD []) p.e.side with
    | some N, some X =>
      let f := p.e.mask &&& ~~~t
      let rj := nearestJoin (codeOf s G N) N.nbnd p.e.pc
      let at_ := fun (m : Mask) (b : Nat) => { X with mask := m, pc := b, turns := 0, closed := false, comm := false,
                                                       path := X.path ++ [{ low := lowLane m, join := rj, depth := X.calls.length }] }
      let tk := at_ t target
      let fl := at_ f (p.e.pc + 1)
      let (keep, move) := if t.getLsbD p.low then (tk, fl) else (fl, tk)
      let i := p.e.side
      let free := (nth none N.slots (1 - i)).isNone
      if !free && decide (stackLimit s G ≤ N.stack.length) then p.illegal s
      else
        let s := (nCommit p.g i (s.updNative p.g (fun N => N.part i keep.mask move.mask free (s.fresh + 1)))).tick.tick
        let s := if free then s.updGroup p.g (Group.takeSlot (1 - i)) else s
        writeStack p.g (s.updNative p.g (fun N =>
          let sl := modifyAt (fun _ => some keep) N.slots i
          if free then
            let sl := modifyAt (fun _ => some move) sl (1 - i)
            { N with slots := sl, markSlots := sl, markPend := N.carried 0 ++ N.carried 1 }
          else { N with slots := sl, markSlots := modifyAt (fun _ => some keep) N.markSlots i,
                        stack := move :: N.stack, markStack := move :: N.stack }))
    | _, _ => s

/-- SBRC (R177). -/
def execSbrc (c : BitVec 3) (o : BitVec 22) (s : State) : Out :=
  native s (fun p s =>
    let t := p.e.mask &&& nth 0 p.preds c.toNat
    if t = 0 then s
    else if t = p.e.mask then p.goto (relBundle p.e.pc o) s
    else p.diverge t (relBundle p.e.pc o) s)

/-- SJOIN (R177): the side parks at the join. -/
def execSjoin (s : State) : Out :=
  native s (fun p s =>
    let rj := nearestJoin (codeOf s p.grp p.nat) p.nat.nbnd (p.e.pc + 1)
    settleNative p.g (p.remark (p.updSlot (fun P => { P with rejoin := rj, parked := some (p.e.pc, p.nat.bundles) }) s)))

/-- The bytes of a native call's frame: the live values of the live map at the return bundle, and 32 (R151). -/
def NSite.frame (p : NSite) : Nat :=
  32 + 512 * (match p.nat.mapAt (p.e.pc + 1) with
    | none => 0
    | some m => m.recs.foldl (fun n r => if r.2.1 = 4 then n else n + (if r.2.2.1 then 2 else 1)) 0)

/-- The calls that the operation's side is in. -/
def NSite.calls (p : NSite) : List (Nat × Nat) := match nth none p.nat.slots p.e.side with | some P => P.calls | none => []

/-- SCALL (R72, R73, R169): at most 64 deep. -/
def execScall (o : BitVec 22) (s : State) : Out :=
  native s (fun p s =>
    let used := p.calls.foldl (fun n c => n + c.2) 0
    if p.lau.frame < used + p.frame ∨ 64 ≤ p.calls.length then p.fault .callDepth none (BitVec.ofNat 64 (p.calls.length + 1)) s
    else p.remark (p.updSlot (fun P => { P with pc := relBundle p.e.pc o, calls := (p.e.pc + 1, p.frame) :: P.calls }) s))

/-- The threads of the side end: its region commits first (R74, R189); its view stays for the rejoins to come (R65). -/
def NSite.endSide (p : NSite) (s : State) : State :=
  let s := nCommit p.g p.e.side (s.updNative p.g (fun N => N.settleSide p.e.side (s.fresh + 1))).tick
  match s.groups[p.g]? with
  | none => s
  | some G =>
    if G.st ≠ .ready then s
    else
      let last := ((G.native.map (fun N => N.slots.all (fun P => P.isNone) || (N.slots.filter Option.isSome).length ≤ 1 && N.stack.isEmpty)).getD false)
      if last && G.pendingToks ≠ [] then p.wait (.tokens G.pendingToks) s
      else
        let s := endThreads p.g p.e.mask s
        settleNative p.g (s.updNative p.g (fun N =>
          { N with slots := modifyAt (fun _ => none) N.slots p.e.side, markSlots := modifyAt (fun _ => none) N.markSlots p.e.side,
                   gone := N.gone ++ (match nth none N.slots p.e.side with
                     | some P => if P.path.isEmpty then [] else [(P.path, P.view)]
                     | none => []) }))

/-- SRET (R169): to the bundle after the side's call; with no call, as the end of a handler (R342). -/
def execSret (s : State) : Out :=
  native s (fun p s =>
    match p.calls with
    | [] => p.endSide s
    | (b, _) :: r => p.remark (p.updSlot (fun P => { P with pc := b, calls := r }) s))

/-- SEXIT (R169). -/
def execSexit (s : State) : Out := native s (fun p s => p.endSide s)

/-- STRAP (R75, R169). -/
def execStrap (c : BitVec 13) (s : State) : Out :=
  native s (fun p s => p.fault .userTrap (some p.low) (c.zeroExtend 64) s)

/-- The mask of an iteration's push (R169). -/
def iterBits (i n : Nat) : Mask := if i < n then BitVec.allOnes 128 else 0

/-- SLOOP (R169): every predicate depth becomes 0, and the first iteration pushes; no iteration at all skips the body. -/
def execSloop (n : BitVec 2) (e : BitVec 3) (r : BitVec 9) (l : BitVec 12) (s : State) : Out :=
  native s (fun p s =>
    let trip := (p.s_ r.toNat).toNat
    let total := trip + e.toNat
    let L : Loop := { on := decide (0 < total), iter := 0, trip := trip, total := total, head := p.e.pc + 1, len := l.toNat }
    let s := s.updNative p.g (fun N => { N with
      shadow := .preds p.e.side (BitVec.allOnes 128) N.regs.preds :: .ctl p.e.side N.regs.x N.regs.lc N.regs.fmw :: N.shadow,
      regs := { N.regs with lc := modifyAt (fun _ => L) N.regs.lc n.toNat,
                            preds := if 0 < total then pushPreds p.e.mask (iterBits 0 trip) (List.replicate 8 0) else List.replicate 8 0 } })
    if total = 0 then p.goto (p.e.pc + 1 + l.toNat) s else s)

/-! ### Tiles and tokens -/

/-- The native group is converged (R120). -/
def NSite.converged (p : NSite) : Bool := (p.nat.slots.filter Option.isSome).length ≤ 1 && p.nat.stack.isEmpty

/-- SACQ (R115, R117). -/
def execSacq (n : BitVec 2) (s : State) : Out :=
  native s (fun p s =>
    let need := tilesOf p.lau (2 ^ n.toNat)
    if !p.converged then p.fault .divergentMatrix none 0 s
    else if p.grp.acc.isSome then
      if p.site.side.pend = .done then setPend p.site .none s else p.fault .regionLimit none 0 s
    else if coreTiles < need then p.illegal s
    else
      let C := nth Core.reset s.cores p.grp.core
      if C.accQueue = [] ∧ usedTiles s p.grp.core + need ≤ coreTiles ∧ !C.matrixReset then
        s.updGroup p.g (fun G => { G with acc := some (freshSet p.ctx need) })
      else
        let s := p.wait (.accAcq need) s
        if C.accQueue.contains p.g then s
        else { s with cores := modifyAt (fun C => { C with accQueue := C.accQueue ++ [p.g] }) s.cores p.grp.core })

/-- SREL (R119, R415). -/
def execSrel (s : State) : Out :=
  native s (fun p s =>
    if !p.converged then p.fault .divergentMatrix none 0 s
    else
      match p.grp.acc with
      | none => p.fault .accessWithoutToken none 0 s
      | some A => if A.busy then p.wait (.tile none) s else p.gate [.accrel] s)

/-- SKWAIT (R267): waits until the token is complete. -/
def execSkwait (t : BitVec 4) (s : State) : Out :=
  native s (fun p s =>
    match p.tok t.toNat with
    | none => s
    | some e =>
      match tokState p.grp e with
      | some (.failed c o) => p.fault .engineFailure none (failAux c o) s
      | some .pending => p.wait (.tokens [e]) s
      | _ => s)

/-- SKEST (R267). -/
def execSkest (d : BitVec 9) (t : BitVec 4) (s : State) : Out :=
  native s (fun p s =>
    match (p.tok t.toNat).bind (tokState p.grp) with
    | some (.failed c o) => p.fault .engineFailure none (failAux c o) s
    | some .pending => p.putS d.toNat 2 0 s
    | _ => p.putS d.toNat 2 1 s)

/-! ### Barriers (R262 to R264) -/

/-- The wait of a barrier phase by every lane of the side. -/
def NSite.barWait (p : NSite) (b : Nat) (phs : List Word) (s : State) : State :=
  if barDone p.site (p.site.block s) b phs then p.keepPend .none s
  else p.wait (.barrier b (nth 0 phs p.low)) s

/-- SBAR (R262, R264): the wait of kind 0 takes place after the MARK that follows it. The barrier number is s[U]; `barar` leaves its phase in s[U + 1], where `barwt` reads it (log entry 45). -/
def execSbar (u : BitVec 9) (k : BitVec 2) (s : State) : Out :=
  native s (fun p s =>
    let b := (p.s_ u.toNat).toNat % 16
    let arrive := fun (k : State → State) =>
      match arriveMisuse p.site (p.site.block s) b with
      | some i => p.fault .barrierMisuse (some i) (BitVec.ofNat 64 b) s
      | none => k (arriveAll p.site b (p.flush s))
    match k.toNat with
    | 0 =>
      arrive (fun s => p.committed (p.keepPend (.phase (BitVec.ofNat 32 b)) s))
    | 1 => arrive (fun s => p.committed (p.putS (u.toNat + 1) 2 (nth 0 (lanePhases p.site (p.site.block s) b) p.low) s))
    | _ =>
      let ph := p.s_ (u.toNat + 1)
      let B := p.site.block s
      match (lanesOf p.e.mask).find? (fun i =>
          let d : Word := ph - lastPhase B b (p.site.thread i)
          decide (1 ≤ d.toNat) && decide (d.toNat < 2 ^ 31)) with
      | some i => p.fault .barrierMisuse (some i) (BitVec.ofNat 64 b) s
      | none => p.barWait b (List.replicate 128 ph) s)

/-! ### System operations (R169, R311 to R320, R394 to R397) -/

/-- `ssys` 2 (R320): the wait descriptor in s[u] to s[u + 6]. -/
def NSite.waitSignal (p : NSite) (u : Nat) (s : State) : State :=
  let c := (p.s_ (u + 4)).toNat
  let nodl := decide (c / 2 ^ 9 % 2 = 1)
  let a := p.s2 u
  let x := p.s2 (u + 2)
  let fin := fun (v : DWord) (ok : Bool) (s : State) =>
    p.keepPend .none (p.putS (u + 6) 2 (if ok then 1 else 0) (if ok then p.putS2 (u + 2) 2 v s else s))
  match Cond.ofCode (c % 8) with
  | none => p.illegal s
  | some cc =>
    if c / 2 ^ 10 ≠ 0 ∨ 6 ≤ c / 8 % 8 then p.illegal s
    else
      match p.site.side.pend with
      | .hit v => fin v true s
      | .done => fin 0 false s
      | q =>
        let s := touchAddrs p.site.who 8 [a.toNat] s
        match resolve s p.site.who a.toNat 8 8 (BitVec.ofNat 3 (c / 2 ^ 6)) false with
        | .error e => p.fault e none a s
        | .ok acc =>
          let s := reach (.thread p.g p.site.low) false acc.key 8 (landOver acc.key 8 p.g s)
          let v := laneWord s p.ctx (p.nat.gatedOf p.e.side) p.site.low acc.key 8
          let t := match q with | .deadline t => t | _ => s.time + (p.s_ (u + 5)).toNat
          if condMet cc v x then fin v true s
          else if !nodl && decide (t ≤ s.time) then fin 0 false s
          else
            p.wait (.signal { a := acc.key, cond := cc, x := x, deadline := if nodl then none else some t, hit := none })
              (if nodl then s else p.keepPend (.deadline t) s)

/-- `ssys` 0 (R318). -/
def NSite.yield_ (p : NSite) (s : State) : State :=
  if p.site.side.pend = .done then p.keepPend .none s
  else
    let others := yieldedTo s p.grp.core p.g p.e.side
    if others.isEmpty then s
    else p.wait (.yielding others ((nth Core.reset s.cores p.grp.core).clk + 64)) s

/-- `ssys` 1 (R316). -/
def NSite.sleep_ (p : NSite) (n : Nat) (s : State) : State :=
  match p.site.side.pend with
  | .deadline t => if t ≤ s.time then p.keepPend .none s else p.wait (.sleep t) s
  | _ => if n = 0 then s else p.wait (.sleep (s.time + n)) (p.keepPend (.deadline (s.time + n)) s)

/-- `ssys` 10 (R364, R393): the hook of a breakpoint stops the context once. -/
def NSite.hook (p : NSite) (s : State) : State :=
  let skip := match p.grp.sides[p.e.side]? with | some S => S.skipHook | none => false
  if skip then s.updSide p.g p.e.side (fun S => { S with skipHook := false })
  else if (ctxAt s p.ctx).dbg then (p.fault .breakpoint none 0 s).updSide p.g p.e.side (fun S => { S with skipHook := true })
  else s

/-- SSYS (R169). Operands stand in the registers from s[U]; a 64-bit result takes a pair; `ctrctl` reads the counter and, in
bit 4, the clear flag in s[U], and the configuration in s[U + 1] (log entry 45). -/
def execSsys (u : BitVec 9) (o : BitVec 4) (s : State) : Out :=
  native s (fun p s =>
    let n := u.toNat
    match o.toNat with
    | 0 => p.yield_ s
    | 1 => p.sleep_ (p.s_ n).toNat s
    | 2 => p.waitSignal n s
    | 3 => p.putS2 n 2 (BitVec.ofNat 64 (nth Core.reset s.cores p.grp.core).clk) s
    | 4 => p.putS2 n 2 (BitVec.ofNat 64 s.time) s
    | 5 => p.putS n 2 (p.site.side.core.view.flags &&& 0x7F) s
    | 6 => p.updSlot (fun P => { P with view := P.view.clear (p.s_ n), events := if (p.s_ n).getLsbD 7 then [] else P.events }) s
    | 7 => p.putS2 n 2 p.site.side.core.view.fev s
    | 8 => p.putS2 n 2 (nth 0 (ctxAt s p.ctx).counts ((p.s_ n).toNat % 16)) s
    | 9 => p.gate [.ctrctl ((p.s_ n).toNat % 16) (p.s_ (n + 1)) ((p.s_ n).getLsbD 4)] s
    | _ => p.hook s)

end Sys2Proof.Machine
end

