-- ==== Sys2Proof/Machine/Bundles.lean ====
section
/-! DEFINITION. Bundles as the decoder and the slot units see them: legal slot fields, what an operation reads and writes, the
illegal-bundle cases (R159 to R166, R173, R182), the dispatch of a native bundle and the conditions under which the head of a slot
stream issues (R162, R163, R179). -/

namespace Sys2Proof.Machine
open Sys2Proof

/-- The fields of a V operation. -/
def vFields (w : Nat) : VOp :=
  { kp := w.testBit 33, grd := BitVec.ofNat 4 (bits w 29 4), d := BitVec.ofNat 9 (bits w 20 9), pa := w.testBit 19,
    a := BitVec.ofNat 9 (bits w 10 9), pb := w.testBit 9, b := BitVec.ofNat 9 w }

/-- The fields of an L operation. -/
def lFields (w : Nat) : LOp :=
  { grd := BitVec.ofNat 4 (bits w 30 4), dr := BitVec.ofNat 9 (bits w 21 9), pd := w.testBit 20, win := BitVec.ofNat 4 (bits w 16 4),
    pa := w.testBit 15, a := BitVec.ofNat 9 (bits w 6 9), sz := BitVec.ofNat 3 (bits w 3 3), scp := BitVec.ofNat 3 w }

/-! ### Legal slot fields (R160, R166 to R174) -/

/-- The unused fields of an S operation are zero and its opcode is assigned. -/
def sLegal (w : Nat) : Bool :=
  let z := fun (lo n : Nat) => bits w lo n == 0
  match slotOpc w .s with
  | 0x00 => w == 0
  | 0x01 => saluOk (bits w 0 8)
  | 0x02 | 0x03 => true
  | 0x04 | 0x07 => z 22 4
  | 0x05 => bits w 25 1 == 1
  | 0x06 | 0x08 | 0x09 => z 0 26
  | 0x0A => z 13 13
  | 0x0B => bits w 0 12 != 0
  | 0x0C => z 5 21 && bits w 2 2 != 3
  | 0x0D => z 0 8
  | 0x0E => z 0 15
  | 0x0F => z 2 24
  | 0x10 => z 0 26
  | 0x11 => z 4 22
  | 0x12 => z 0 8 && z 12 5
  | 0x13 => bits w 0 2 != 3 && z 2 7 && z 18 8
  | 0x14 => decide (bits w 0 4 ≤ 10) && z 13 13 && (bits w 4 9 == 0 || (bits w 0 4 != 0 && bits w 0 4 != 10))
  | 0x15 => z 0 8
  | _ => false

/-- A legal V operation. -/
def vLegal (w : Nat) : Bool :=
  if w = 0 then true
  else
    match vInstr (slotOpc w .v0) (vFields w) with
    | some i => i.wf
    | none => false

/-- A legal F operation. -/
def fLegal (w : Nat) : Bool :=
  match slotOpc w .f with
  | 0 => w == 0
  | 0xB => guardOk (BitVec.ofNat 4 (bits w 24 4)) && bits w 22 2 == 0 && bits w 0 5 == 0
  | c => decide (c ≤ 10) && guardOk (BitVec.ofNat 4 (bits w 24 4)) && bits w 0 5 == 0

/-- A legal L operation. -/
def lLegal (w : Nat) : Bool :=
  let o := lFields w
  match slotOpc w .l with
  | 0x00 => w == 0
  | 0x01 | 0x02 | 0x03 | 0x04 | 0x05 => o.okWin (fun z => decide (z ≤ 4))
  | 0x06 | 0x07 | 0x08 | 0x09 | 0x0A | 0x0B | 0x0C | 0x0D | 0x0E | 0x0F => o.okWin (fun z => z == 2 || z == 3)
  | 0x10 => o.okWin (fun z => decide (z ≤ 4)) && o.dr == 0 && !o.pd
  | 0x11 => o.ok (fun z => z == 0) && decide (o.dr.toNat < 8) && o.dr != 0 && !o.pd && o.win == 0 && o.a == 0 && !o.pa
  | 0x12 | 0x13 => o.ok (fun z => z == 2) && o.win == 0
  | 0x14 | 0x15 => o.ok (fun z => z == 3)
  | _ => false

/-- A legal M operation. -/
def mLegal (w : Nat) : Bool :=
  match slotOpc w .m with
  | 0 => w == 0
  | 1 | 2 => bits w 0 10 == 0 && !(bits w 10 3 == (MmaForm.code .mo).toNat && bits w 17 3 % 2 == 1)
  | 3 => bits w 0 5 == 0 && decide (bits w 10 3 ≤ 1)
  | 4 => bits w 0 13 == 0
  | _ => false

/-- A legal A operation. -/
def aLegal (w : Nat) : Bool :=
  match slotOpc w .a with
  | 0 => w == 0
  | 0x0A => true
  | c => decide (c ≤ 0x0B) && bits w 0 13 == 0

/-- A legal slot field. -/
def slotLegal (sl : Slot) (w : Nat) : Bool :=
  match sl with
  | .s => sLegal w | .v0 | .v1 => vLegal w | .f => fLegal w | .l => lLegal w | .m => mLegal w | .a => aLegal w

/-! ### What an operation reads and writes -/

/-- A register, predicate depth, operand buffer or token; `cond` is a depth that decides a branch, beside its `pred`. -/
inductive Res
  | g (n : Nat) | s (n : Nat) | m (n : Nat) | pred (d : Nat) | cond (d : Nat) | buf (n : Nat) | k (n : Nat) | x (n : Nat) | lc (n : Nat) | fmw
  deriving DecidableEq, Repr

/-- A vector source: register and port. -/
structure Src where
  n : Nat
  port : Bool
  deriving DecidableEq, Repr

/-- What an operation does to registers: vector sources, other reads, vector destinations, other writes, and whether it pushes. -/
structure Uses where
  src : List Src
  rd : List Res
  dst : List Nat
  wr : List Res
  push : Bool
  deriving DecidableEq, Repr

/-- No register. -/
def Uses.none : Uses := { src := [], rd := [], dst := [], wr := [], push := false }

/-- The guard of an operation, as a read. -/
def guardRead (grd : Nat) : List Res := if 8 ≤ grd then [.pred (grd % 8)] else []

/-- Registers n to n + k − 1. -/
def regs (f : Nat → Res) (n k : Nat) : List Res := (List.range k).map (fun i => f (n + i))

/-- What an S operation uses. -/
def sUses (w : Nat) : Uses :=
  let d := bits w 17 9
  let a := bits w 8 9
  let u := Uses.none
  match slotOpc w .s with
  | 0x01 => { u with rd := [.s d, .s a], wr := [.s d] }
  | 0x02 => { u with wr := [.s d] }
  | 0x03 => { u with rd := [.s d], wr := [.s d] }
  | 0x05 => { u with rd := [.pred (bits w 22 3), .cond (bits w 22 3)] }
  | 0x0B => { u with rd := [.s (bits w 12 9)], wr := .lc (bits w 24 2) :: regs .pred 0 8 }
  | 0x0C => { u with wr := [.fmw] }
  | 0x0D => { u with wr := [.x (bits w 24 2)] }
  | 0x0E => { u with rd := [.s (bits w 15 9)], wr := [.x (bits w 24 2)] }
  | 0x11 => { u with rd := [.k (bits w 0 4)] }
  | 0x12 => { u with rd := [.k (bits w 8 4)], wr := [.s d] }
  | 0x13 =>
    let o := bits w 9 9
    (match bits w 0 2 with
     | 0 => { u with rd := [.s o] }
     | 1 => { u with rd := [.s o], wr := [.s (o + 1)] }
     | _ => { u with rd := regs .s o 2 })
  | 0x14 =>
    let o := bits w 4 9
    (match bits w 0 4 with
     | 1 | 6 => { u with rd := [.s o] }
     | 2 => { u with rd := regs .s o 6, wr := .s (o + 6) :: regs .s (o + 2) 2 }
     | 3 | 4 | 7 => { u with wr := regs .s o 2 }
     | 5 => { u with wr := [.s o] }
     | 8 => { u with rd := [.s o], wr := regs .s o 2 }
     | 9 => { u with rd := regs .s o 2 }
     | _ => u)
  | 0x15 => { u with rd := [.g a], wr := [.s d] }
  | _ => u

/-- What a V operation of the slot with buffer n uses; bi is the buffer's index. -/
def vUses (n bi w : Nat) : Uses :=
  let v := vFields w
  let opc := slotOpc w .v0
  let A : Src := { n := v.a.toNat, port := v.pa }
  let B : Src := { n := v.b.toNat, port := v.pb }
  let D : Src := { n := v.d.toNat, port := true }
  let gr := if opc = 0x0E ∨ opc = 0x1E then [Res.pred (v.grd.toNat % 8)] else guardRead v.grd.toNat
  let fm := if (0x24 ≤ opc ∧ opc ≤ 0x2C) ∨ opc = 0x2E ∨ opc = 0x2F ∨ opc = 0x30 ∨ opc = 0x37 ∨ opc = 0x38 then [Res.fmw] else []
  let u : Uses := { Uses.none with rd := gr ++ fm, wr := if v.kp then [.buf n] else [] }
  let one := fun (src : List Src) => { u with src := src, dst := [v.d.toNat] }
  let u' : Uses := match opc with
    | 0x00 => Uses.none
    | 0x06 | 0x18 | 0x28 => one [A, B, D]
    | 0x13 | 0x14 | 0x15 | 0x2D | 0x2E | 0x30 | 0x31 | 0x32 | 0x37 | 0x38 => one [A]
    | 0x1D | 0x1E => { one [A, B] with push := true }
    | 0x1F | 0x24 => { u with src := [A, B], push := true }
    | 0x35 => { u with src := [A], push := true }
    | 0x36 => { u with src := [A], dst := [v.d.toNat, v.d.toNat + 1] }
    | 0x39 => { one [] with rd := .s v.a.toNat :: u.rd }
    | 0x3A => { one [] with rd := .x (v.a.toNat % 4) :: ((if v.a.getLsbD 2 then [.buf n] else []) ++ u.rd) }
    | 0x3B => { u with src := [B], rd := .x (v.a.toNat % 4) :: ((if v.a.getLsbD 2 then [.buf n] else []) ++ u.rd) }
    | 0x3C => { one [] with rd := .m (v.a.toNat % 128) :: u.rd }
    | 0x3D => { u with src := [A], wr := .m (v.d.toNat % 128) :: u.wr }
    | 0x3E => { one [] with rd := (if v.b.getLsbD 4 then [] else [.k (v.b.toNat % 16)]) ++ u.rd }
    | _ => one [A, B]
  { u' with src := u'.src.filter (fun r => r.n != bi), rd := (if u'.src.any (fun r => r.n == bi) then [.buf n] else []) ++ u'.rd }

/-- What an F operation uses. -/
def fUses (w : Nat) : Uses :=
  let A : Src := { n := bits w 5 9, port := w.testBit 14 }
  match slotOpc w .f with
  | 0 => Uses.none
  | 0xB => { Uses.none with src := [A], rd := guardRead (bits w 24 4), wr := [.k (bits w 18 4)] }
  | _ => { Uses.none with src := [A], rd := .fmw :: guardRead (bits w 24 4), dst := [bits w 15 9] }

/-- Registers of an L operation's data (R171). -/
def lWide (o : LOp) : Nat := 2 ^ (o.sz.toNat - 2)

/-- What an L operation uses. -/
def lUses (w : Nat) : Uses :=
  let o := lFields w
  let A : Src := { n := o.a.toNat, port := o.pa }
  let data := (List.range (lWide o)).map (fun k => ({ n := o.dr.toNat + k, port := o.pd } : Src))
  let dst := (List.range (lWide o)).map (fun k => o.dr.toNat + k)
  let u : Uses := { Uses.none with rd := guardRead o.grd.toNat }
  match slotOpc w .l with
  | 0x00 | 0x11 => Uses.none
  | 0x01 | 0x02 | 0x04 => { u with src := [A], dst := dst }
  | 0x03 | 0x05 => { u with src := A :: data }
  | 0x0F => { u with src := A :: (data ++ (List.range (lWide o)).map (fun k => ({ n := o.dr.toNat + o.sz.toNat - 1 + k, port := o.pd } : Src))),
                     dst := dst }
  | 0x10 => { u with src := [A] }
  | 0x12 => { u with src := data }
  | 0x13 => { u with dst := dst }
  | 0x14 => { u with src := if o.win = 0 then [] else [A], dst := dst }
  | 0x15 => { u with src := if o.win = 0 then data else A :: data }
  | _ => { u with src := A :: data, dst := dst }

/-- What an M operation uses. -/
def mUses (w : Nat) : Uses :=
  match slotOpc w .m with
  | 0 => Uses.none
  | 1 | 2 => { Uses.none with rd := [.buf 0, .buf 1], wr := [.k (bits w 13 4)] }
  | 3 => { Uses.none with rd := [.buf 0], wr := [.k (bits w 13 4)] }
  | _ => { Uses.none with wr := [.k (bits w 13 4)] }

/-- Operand registers of an A operation after its descriptor word, of those whose number its opcode fixes. -/
def aOperands : Nat → Nat
  | 0x01 => 7 | 0x02 | 0x03 => 7 | 0x04 => 8 | 0x05 => 5 | 0x06 => 2 | 0x07 => 3 | 0x08 | 0x09 => 5 | 0x0A => 1 | _ => 0

/-- What an A operation uses. -/
def aUses (w : Nat) : Uses :=
  match slotOpc w .a with
  | 0 => Uses.none
  | c => { Uses.none with rd := regs .s (bits w 13 9) (1 + aOperands c), wr := [.k (bits w 22 4)] }

/-- What the operation in a slot uses. -/
def slotUses (bi : Nat) (sl : Slot) (w : Nat) : Uses :=
  match sl with
  | .s => sUses w | .v0 => vUses 0 bi w | .v1 => vUses 1 bi w | .f => fUses w | .l => lUses w | .m => mUses w | .a => aUses w

/-! ### The illegal-bundle cases (R182) -/

/-- Everything an operation reads, g0 apart. -/
def Uses.reads (u : Uses) : List Res := (u.src.filter (fun r => r.n ≠ 0)).map (fun r => .g r.n) ++ u.rd.filter (· ≠ .g 0)

/-- Everything it writes, pushes and g0 apart. -/
def Uses.writes (u : Uses) : List Res := (u.dst.filter (· ≠ 0)).map .g ++ u.wr

/-- The operation reads or writes a predicate depth. -/
def Uses.preds (u : Uses) : Bool := u.push || (u.rd ++ u.wr).any (fun r => match r with | .pred _ => true | _ => false)

/-- It reads a depth that decides a branch, or writes depths: no push of its bundle may go beside it. -/
def Uses.predsNow (u : Uses) : Bool :=
  (u.rd ++ u.wr).any (fun r => match r with | .cond _ => true | _ => false) || u.wr.any (fun r => match r with | .pred _ => true | _ => false)

/-- Two operations of one instruction group touch one register (R164). In one bundle a push goes after every guard and before the
other slot's push (R175), which is no such case; a branch's condition is no guard. -/
def clash (same : Bool) (u v : Uses) : Bool :=
  let preds := if same then Uses.predsNow else Uses.preds
  u.writes.any (fun r => v.writes.contains r || v.reads.contains r) || v.writes.any (fun r => u.reads.contains r)
    || (u.push && preds v) || (v.push && preds u)

/-- The read ports that a bundle's sources take: bank and port (R165). -/
def portsOf (us : List Uses) : List (Nat × Bool) :=
  us.flatMap (fun u => (u.src.filter (fun r => r.n ≠ 0)).map (fun r => (r.n % 4, r.port)))

/-- No two reads name one bank and port, which also bounds a bank's reads to two. -/
def portsOk : List (Nat × Bool) → Bool
  | [] => true
  | p :: r => !r.contains p && portsOk r

/-- Every register index exists on the die, and the operand buffer is no destination; slots without a buffer do not name it
(R161, R165). -/
def Uses.inRange (bi : Nat) (u : Uses) : Bool :=
  u.src.all (fun r => decide (r.n < bi)) && u.dst.all (fun n => decide (n < bi)) &&
    (u.rd ++ u.wr).all (fun r => match r with | .s n => decide (n < 512) | .g n => decide (n < bi) | _ => true)

/-- A committing operation (R147). -/
def slotCommits (sl : Slot) (w : Nat) : Bool :=
  match sl with
  | .s => slotOpc w .s == 0x13 && decide (bits w 0 2 ≤ 1)
  | .l => decide (6 ≤ slotOpc w .l) && decide (slotOpc w .l ≤ 0x0F)
  | .a => decide (5 ≤ slotOpc w .a) && decide (slotOpc w .a ≤ 0x09)
  | _ => false

/-- A bundle with a matrix instruction: before it issues, the group's saved tiles are restored (R117). -/
def usesTiles (w : Nat) : Bool :=
  slotField w .m != 0 || slotOpc (slotField w .f) .f == 0xB || slotOpc (slotField w .s) .s == 0x10 ||
    slotOpc (slotField w .v0) .v0 == 0x3E || slotOpc (slotField w .v1) .v1 == 0x3E

/-- What the operations of a bundle use. -/
def bundleUses (bi w : Nat) : List Uses := allSlots.map (fun sl => slotUses bi sl (slotField w sl))

/-- No two operations of a bundle clash. -/
def bundleApart : List Uses → Bool
  | [] => true
  | u :: r => r.all (fun v => !clash true u v) && bundleApart r

/-- A bundle that is legal by itself on a die whose operand-buffer index is bi. -/
def bundleLegal (bi w : Nat) : Bool :=
  bits w 4 12 == 0 && allSlots.all (fun sl => slotLegal sl (slotField w sl)) && (bundleUses bi w).all (Uses.inRange bi) &&
    bundleApart (bundleUses bi w) && portsOk (portsOf (bundleUses bi w)) &&
    decide ((allSlots.filter (fun sl => slotCommits sl (slotField w sl))).length ≤ 1)

/-- The earlier bundles of the instruction group of bundle b, n at most (R164). -/
def groupBefore (code : Nat → Nat) : Nat → Nat → List Nat
  | _, 0 => []
  | 0, _ => []
  | n + 1, b + 1 => if isStop (code b) then [] else b :: groupBefore code n b

/-- Bundle b clashes with an earlier bundle of its instruction group. -/
def groupClash (code : Nat → Nat) (bi b : Nat) : Bool :=
  (groupBefore code b b).any (fun c =>
    (bundleUses bi (code c)).any (fun u => (bundleUses bi (code b)).any (fun v => clash false u v)))

/-- Bundle b is a loop head: the first bundle of an `sloop` body or the target of a backward branch (R164). -/
def loopHead (code : Nat → Nat) (n b : Nat) : Bool :=
  (List.range n).any (fun c =>
    let w := slotField (code c) .s
    (slotOpc w .s == 0x0B && c + 1 == b) ||
      ((slotOpc w .s == 0x04 || slotOpc w .s == 0x05) && decide (b ≤ c) && relBundle c (BitVec.ofNat 22 w) == b))

/-- Bundle b lies in the body of an `sloop` (R169). -/
def inSloop (code : Nat → Nat) (b : Nat) : Bool :=
  (List.range b).any (fun c =>
    let w := slotField (code c) .s
    slotOpc w .s == 0x0B && decide (b ≤ c + bits w 0 12))

/-- Bundle b may be dispatched by a side with a region of some age, closed or not, and a waiting latch: in the body of an `sloop`
no operation pushes (log entry 95). -/
def dispatchLegal (code : Nat → Nat) (bi n b age : Nat) (closed latch : Bool) : Bool :=
  let w := code b
  decide (b < n) && bundleLegal bi w && !groupClash code bi b && (!isIl w || loopHead code n b) &&
    (isMark w || (decide (age < 256) && !closed)) && !(isMark w && latch) && !((bundleUses bi w).any Uses.push && inSloop code b)

/-! ### Hardware loops (R169) -/

/-- The loop whose body ends before bundle b: the one entered last. -/
def loopEnding (lc : List Loop) (b : Nat) : Option Nat :=
  ((lc.zipIdx.filter (fun (L, _) => L.on && decide (L.head + L.len = b))).foldl (fun (best : Option (Loop × Nat)) e =>
    match best with
    | some c => if c.1.head < e.1.head then some e else some c
    | none => some e) none).map (·.2)

/-- The bundle after bundle b − 1: a loop that ends there goes on at its head and pushes, or is left (R169). -/
def loopNext (m : Mask) : Nat → Nat → NRegs → Nat × NRegs
  | 0, b, R => (b, R)
  | f + 1, b, R =>
    match loopEnding R.lc b with
    | none => (b, R)
    | some i =>
      match R.lc[i]? with
      | none => (b, R)
      | some L =>
        if L.iter + 1 < L.total then
          (L.head, { R with lc := modifyAt (fun L => { L with iter := L.iter + 1 }) R.lc i, preds := pushPreds m (iterBits (L.iter + 1) L.trip) R.preds })
        else loopNext m f b { R with lc := modifyAt (fun L => { L with on := false }) R.lc i }

/-! ### Dispatch (R162, R163, R181) -/

/-- The operand-buffer index of a core's vector registers (R161). -/
def bufIndex (c : Nat) : Nat := if dieIsN (dieOf c) then 255 else 511

/-- Interlocked mode at bundle b: its own IL, or a loop around it that has it. -/
def Native.il (N : Native) (code : Nat → Nat) (b : Nat) : Bool :=
  isIl (code b) || (List.range (b + 1)).any (fun h =>
    isIl (code h) && (List.range N.nbnd).any (fun c =>
      let w := slotField (code c) .s
      (slotOpc w .s == 0x0B && c + 1 == h && decide (b < h + bits w 0 12)) ||
        ((slotOpc w .s == 0x04 || slotOpc w .s == 0x05) && decide (b ≤ c) && decide (h ≤ c) && relBundle c (BitVec.ofNat 22 w) == h)))

/-- A side whose barrier arrival has been performed waits after its MARK until the phase completes (R264, R388). -/
def arrivedWait (s : State) (g i : Nat) : Option (Nat × Word) :=
  match s.groups[g]? with
  | none => none
  | some G =>
    match G.native, s.blocks[G.block]?, G.sides[i]? with
    | some N, some B, some S =>
      (match S.pend, nth none N.slots i, s.launches[B.launch]? with
       | .phase b, some P, some L =>
         let t := G.gid * 128 + lowLane P.mask
         let ph := BitVec.ofNat 32 (NMap.get 0 B.arrivals (b.toNat * 32768 + t) - 1)
         if phaseDone B L.ntid b.toNat ph then none else some (b.toNat, ph)
       | _, _, _ => none)
    | _, _, _ => none

/-- Dispatches the next bundle of PC slot i of a native group. -/
def dispatchNative (g i : Nat) (s : State) : State :=
  match s.groups[g]? with
  | none => s
  | some G =>
    match G.native with
    | none => s
    | some N =>
      match nth none N.slots i with
      | none => s
      | some P =>
        let code := codeOf s G N
        let w := code P.pc
        let age := match G.sides[i]? with | some S => S.age | none => 0
        if !dispatchLegal code (bufIndex G.core) N.nbnd P.pc age P.closed !N.latch.isEmpty then
          faultAt g i .illegalBundle (N.port P.pc) none (BitVec.ofNat 64 P.pc) s
        else if isMark w && groupStale s g then rollback g s
        else if usesTiles w && G.acc.any AccSet.anySaved then requestRestore g i s
        else
          let s := if isSync w then (s.updNative g (fun N => N.settle s.fresh)).tick else s
          let s := if isMark w then nCommit g i (s.updNative g (fun N => N.settleSide i s.fresh)).tick else s
          match arrivedWait s g i with
          | some (b, ph) => s.updGroup g (Group.holdAt i (.barrier b ph) s.time)
          | none =>
          let s := s.updSide g i (fun S => match S.pend with | .phase _ => { S with pend := .none, markPend := .none } | _ => S)
          if (s.groups[g]?).map Group.st ≠ some .ready then s
          else
            let s := s.updNative g (fun N =>
              let (pc, R) := loopNext P.mask 5 (P.pc + 1) N.regs
              let E : NEntry := { bundle := N.bundles, pc := P.pc, side := i, mask := P.mask, preds := N.regs.preds, il := N.il code P.pc, word := 0 }
              { N with
                shadow := if R = N.regs then N.shadow
                  else .preds i (BitVec.allOnes 128) N.regs.preds :: .ctl i N.regs.x N.regs.lc N.regs.fmw :: N.shadow,
                regs := R, bundles := N.bundles + 1,
                queue := List.zipWith (fun sl q => q ++ [{ E with word := slotField w sl }]) allSlots N.queue,
                slots := modifyAt (Option.map (fun P =>
                  { P with pc := pc, turns := P.turns + (if N.stack.isEmpty then 0 else 1), closed := allSlots.any (fun sl => slotCommits sl (slotField w sl)) })) N.slots i })
            s.updSide g i (fun S => { S with age := S.age + 1, unchecked := S.unchecked + 1 })

/-! ### Issue from a slot stream (R162, R163, R179) -/

/-- Every other stream in which f holds has issued its operations up to bundle b. -/
def Native.others (N : Native) (sl : Slot) (b : Nat) (f : Slot → NEntry → Bool) : Bool :=
  allSlots.all (fun t => t == sl || (match N.head t with | some e => decide (b < e.bundle) || f t e | none => true))

/-- An S operation that goes last of its bundle: the side branches apart, parks, returns or ends there. -/
def sLast (w : Nat) : Bool := slotOpc w .s == 0x05 || slotOpc w .s == 0x06 || slotOpc w .s == 0x08 || slotOpc w .s == 0x09

/-- An operation that defines a token. -/
def definesTok (sl : Slot) (w : Nat) : Bool :=
  match sl with
  | .m => w != 0
  | .a => w != 0
  | .f => slotOpc w .f == 0xB
  | _ => false

/-- An operation that reads a token. -/
def readsTok (sl : Slot) (w : Nat) : Bool :=
  match sl with
  | .s => slotOpc w .s == 0x11 || slotOpc w .s == 0x12
  | .v0 | .v1 => slotOpc w .v0 == 0x3E && !(vFields w).b.getLsbD 4
  | .a => w != 0
  | _ => false

/-- Token-defining operations of earlier bundles have issued. -/
def Native.toksDefined (N : Native) (sl : Slot) (b : Nat) : Bool :=
  [Slot.f, .m, .a].all (fun t => t == sl || (nth [] N.queue (slotIx t)).all (fun e => decide (b ≤ e.bundle) || !definesTok t e.word))

/-- A register that the L operation e reads or writes has an L result that its latency says is there and that has not arrived. -/
def Native.lateHit (N : Native) (e : NEntry) : Bool :=
  let u := lUses e.word
  N.pend.any (fun w => w.late && (e.il || decide (w.ready ≤ e.bundle)) &&
    (match w.reg with | .g n => u.src.any (fun r => r.n == n) || u.dst.contains n | _ => false))

/-- The head of a slot stream of a group may issue. -/
def canIssue (G : Group) (sl : Slot) : Bool :=
  match G.native with
  | none => false
  | some N =>
    match N.head sl with
    | none => false
    | some e =>
      let len := (nth [] N.queue (slotIx sl)).length
      let slow := N.queue.foldl (fun m q => max m q.length) 0
      decide (G.st = .ready) && decide (slow < len + 16) &&
        (!readsTok sl e.word || N.toksDefined sl e.bundle) &&
        (match sl with
         | .s => !(sLast e.word || slotCommits .s e.word) || N.others .s e.bundle (fun _ _ => false)
         | .l => !N.lateHit e && (!(slotCommits .l e.word || slotOpc e.word .l == 0x11) || N.others .l e.bundle (fun t x => t == .s && sLast x.word && decide (x.bundle = e.bundle)))
         | .a => !(slotCommits .a e.word || slotOpc e.word .a == 0x0A) ||
             N.others .a e.bundle (fun t x => t == .s && sLast x.word && decide (x.bundle = e.bundle))
         | .v0 | .v1 => !(readsTok sl e.word) || !tokPending G N ((vFields e.word).b.toNat % 16)
         | _ => true)

end Sys2Proof.Machine
end

