-- ==== Sys2Proof/Machine/Lanes.lean ====
section
/-! DEFINITION. The cross-lane operations (R62, R90 to R93) and register arrays (R20, R94, R95), with the meanings of their
portable instructions. The native forms use the same functions. -/

namespace Sys2Proof.Machine
open Sys2Proof

/-! ### Shuffles and votes (R90 to R92) -/

/-- The source lane of a shuffle: an integer, computed without wrap (R90). -/
def shflSrc (m : ShflMode) (i k : Nat) : Int :=
  match m with
  | .idx => k
  | .up => (i : Int) - k
  | .down => i + k
  | .xor => (Nat.xor i k : Nat)

/-- Lane i's result of a shuffle: lane j's value when j is an active lane, else its own. -/
def shflLane {α : Type} (d : α) (mask : Mask) (vs : List α) (j : Int) (i : Nat) : α :=
  if 0 ≤ j ∧ j ≤ 127 ∧ mask.getLsbD j.toNat then nth d vs j.toNat else nth d vs i

/-- The value every active lane receives from `bcast` (R91): that of lane k when it is active, else of the lowest active lane. -/
def bcastVal {α : Type} (d : α) (mask : Mask) (vs : List α) (k : Nat) : α :=
  if k < 128 ∧ mask.getLsbD k then nth d vs k else nth d vs (lowLane mask)

/-- `vote` over the active lanes (R92). -/
def voteVal (m : VoteMode) (mask : Mask) (cs : List DWord) : Bool :=
  let xs := (lanesOf mask).map (fun i => decide (nth 0 cs i = 1))
  match m with
  | .any => xs.any id
  | .all => xs.all id
  | .uni => xs.all id || xs.all (!·)

/-- `ballot` of lanes 0 to 63, or 64 to 127 (R92). -/
def ballotVal (hi : Bool) (mask : Mask) (cs : List DWord) : DWord :=
  let m := mask &&& maskOf (fun i => nth 0 cs i = 1)
  if hi then m.extractLsb' 64 64 else m.extractLsb' 0 64

/-! ### Reductions and scans (R62, R93) -/

/-- The combination of a reduction and its identity (R93). -/
def redComb (op : RedOp) (sg : Bool) (rm : RM) (dn : Bool) (t : Ty) : DWord × (DWord → DWord → DWord × Flags) :=
  let w := Ty.bits t
  let f := Ty.fmt t
  match op with
  | .add => (0, fun a b => (iAdd w a b, 0))
  | .min => (wrapInt w (hiInt sg w), fun a b => (iMin sg w a b, 0))
  | .max => (wrapInt w (loInt sg w), fun a b => (iMax sg w a b, 0))
  | .and => (wrapInt w (-1), fun a b => (a &&& b, 0))
  | .or => (0, fun a b => (a ||| b, 0))
  | .xor => (0, fun a b => (a ^^^ b, 0))
  | .fadd => (BitVec.ofNat 64 (f.zero (rm != .rd)), fpAdd f rm dn)
  | .fmin => (BitVec.ofNat 64 (f.inf false), fun a b => (fpMinMax false f dn a b, 0))
  | .fmax => (BitVec.ofNat 64 (f.inf true), fun a b => (fpMinMax true f dn a b, 0))

/-- The next level of the tree: each node of two neighbours. -/
def treeUp (comb : DWord → DWord → DWord × Flags) : List (DWord × Flags) → List (DWord × Flags)
  | a :: b :: r => comb a.1 b.1 :: treeUp comb r
  | _ => []

/-- n further levels from one. -/
def treeLevels (comb : DWord → DWord → DWord × Flags) : Nat → List (DWord × Flags) → List (List (DWord × Flags))
  | 0, l => [l]
  | n + 1, l => l :: treeLevels comb n (treeUp comb l)

/-- The tree of R62 over the lanes, levels 0 to 7; an inactive lane is the identity. -/
def redTree (ident : DWord) (comb : DWord → DWord → DWord × Flags) (mask : Mask) (vs : List DWord) : List (List (DWord × Flags)) :=
  treeLevels comb 7 ((List.range 128).map (fun i => (if mask.getLsbD i then nth 0 vs i else ident, 0)))

/-- Node k of level l. -/
def treeNode (t : List (List (DWord × Flags))) (l k : Nat) : DWord × Flags := nth (0, 0) (nth [] t l) k

/-- The result of a reduction, and the events of the nodes, each at the node's lower lane (R64). -/
def redVal (ident : DWord) (comb : DWord → DWord → DWord × Flags) (mask : Mask) (vs : List DWord) : DWord × List (Nat × Flags) :=
  let t := redTree ident comb mask vs
  ((treeNode t 7 0).1, t.zipIdx.flatMap (fun (ns, l) => ns.zipIdx.map (fun (n, k) => (k * 2 ^ l, n.2))))

/-- The largest aligned nodes that cover lanes 0 to n − 1, from the left: levels below l from lane base. -/
def coverFrom (n : Nat) : Nat → Nat → List (Nat × Nat)
  | 0, _ => []
  | l + 1, base => if n / 2 ^ l % 2 = 1 then (l, base / 2 ^ l) :: coverFrom n l (base + 2 ^ l) else coverFrom n l base

/-- The nodes of R93 for n lanes. -/
def cover (n : Nat) : List (Nat × Nat) := coverFrom n 8 0

/-- The inclusive result over n lanes, with the flags of the combinations beyond the tree. -/
def scanAt (comb : DWord → DWord → DWord × Flags) (t : List (List (DWord × Flags))) (n : Nat) : DWord × Flags :=
  match cover n with
  | [] => (0, 0)
  | (l, k) :: r => r.foldl (fun acc e => let c := comb acc.1 (treeNode t e.1 e.2).1; (c.1, acc.2 ||| c.2)) ((treeNode t l k).1, 0)

/-- The results of a scan in every lane, and its events (R64, R93): of the tree nodes that some active lane's result
combines, at their lower lanes, and of the combinations beyond the tree, at the receiving lane. -/
def scanVal (x : Bool) (ident : DWord) (comb : DWord → DWord → DWord × Flags) (mask : Mask) (vs : List DWord) :
    List DWord × List (Nat × Flags) :=
  let t := redTree ident comb mask vs
  let lanes := (lanesOf mask).map (fun i => (i, if x then i else i + 1))
  let covers := lanes.flatMap (fun (_, n) => cover n)
  let used := fun (l k : Nat) => covers.any (fun e => decide (l ≤ e.1) && decide (k / 2 ^ (e.1 - l) = e.2))
  let rs := lanes.map (fun (i, n) => (i, if n = 0 then (ident, 0) else scanAt comb t n))
  let treeEvs := t.zipIdx.flatMap (fun (ns, l) => ns.zipIdx.filterMap (fun (n, k) =>
    if n.2 ≠ 0 ∧ used l k then some (k * 2 ^ l, n.2) else none))
  ((List.range 128).map (fun i => match rs.find? (fun r => r.1 = i) with | some r => r.2.1 | none => 0),
   treeEvs ++ rs.map (fun r => (r.1, r.2.2)))

/-! ### The meanings -/

/-- SHFL (R90): a ref moves with its tag. -/
def execShfl (m : ShflMode) (t : Ty) (v k : Opnd) (s : State) : Out :=
  portable s (fun p s =>
    match opndVals s p (.ty t) v, opndBits s p .i32 k with
    | some vs, some ks =>
      define p ((List.range 128).map (fun i => shflLane (.bits 0) p.mask vs (shflSrc m i (nth 0 ks i).toNat) i)) s
    | _, _ => badOperand p s)

/-- BCAST (R91). -/
def execBcast (t : Ty) (v k : Opnd) (s : State) : Out :=
  portable s (fun p s =>
    match opndVals s p (.ty t) v, opndOne s p .i32 k with
    | some vs, some n => define p (List.replicate 128 (bcastVal (.bits 0) p.mask vs n.toNat)) s
    | _, _ => badOperand p s)

/-- VOTE (R92). -/
def execVote (m : VoteMode) (c : Opnd) (s : State) : Out :=
  portable s (fun p s =>
    match opndBits s p .b1 c with
    | some cs => defineAll p (b1 (voteVal m p.mask cs)) s
    | none => badOperand p s)

/-- BALLOT (R92). -/
def execBallot (hi : Bool) (c : Opnd) (s : State) : Out :=
  portable s (fun p s =>
    match opndBits s p .b1 c with
    | some cs => defineAll p (ballotVal hi p.mask cs) s
    | none => badOperand p s)

/-- REDG (R93): every active lane receives the root of the tree. -/
def execRedg (op : RedOp) (sg : Bool) (rm : RM) (dn : Bool) (t : Ty) (v : Opnd) (s : State) : Out :=
  portable s (fun p s =>
    match opndBits s p t v with
    | some vs =>
      let c := redComb op sg rm dn t
      let r := redVal c.1 c.2 p.mask vs
      defineAll p r.1 (raiseFlags p r.2 s)
    | none => badOperand p s)

/-- SCANG (R93). -/
def execScang (x : Bool) (op : RedOp) (sg : Bool) (rm : RM) (dn : Bool) (t : Ty) (v : Opnd) (s : State) : Out :=
  portable s (fun p s =>
    match opndBits s p t v with
    | some vs =>
      let c := redComb op sg rm dn t
      let r := scanVal x c.1 c.2 p.mask vs
      defineBits p r.1 (raiseFlags p r.2 s)
    | none => badOperand p s)

/-- The lowest active lane whose index is out of range (R95). -/
def badIndex (m : Mask) (ixs : List DWord) (n : Nat) : Option Nat := (lanesOf m).find? (fun i => n ≤ (nth 0 ixs i).toNat)

/-- ASET (R94, R95). -/
def execAset (e : Ty) (l : BitVec 6) (a i v : Opnd) (s : State) : Out :=
  portable s (fun p s =>
    match opndArrs p a, opndBits s p .i32 i, opndBits s p e v with
    | some arrs, some ixs, some vs =>
      (match badIndex p.mask ixs (l.toNat + 1) with
       | some ln => takeFault p .arrayBounds (some ln) (nth 0 ixs ln) s
       | none => define p ((List.range 128).map (fun j =>
           .arr (modifyAt (fun _ => nth 0 vs j) (nth [] arrs j) (nth 0 ixs j).toNat))) s)
    | _, _, _ => badOperand p s)

/-- AGET (R94, R95): an index is checked against the array's length. -/
def execAget (a i : Opnd) (s : State) : Out :=
  portable s (fun p s =>
    match opndArrs p a, opndBits s p .i32 i with
    | some arrs, some ixs =>
      (match badIndex p.mask ixs (nth [] arrs p.low).length with
       | some ln => takeFault p .arrayBounds (some ln) (nth 0 ixs ln) s
       | none => defineBits p ((List.range 128).map (fun j => nth 0 (nth [] arrs j) (nth 0 ixs j).toNat)) s)
    | _, _ => badOperand p s)

/-- AFILL (R94). -/
def execAfill (l : BitVec 6) (v : Opnd) (e : Ty) (s : State) : Out :=
  portable s (fun p s =>
    match opndBits s p e v with
    | some vs => define p (vs.map (fun x => .arr (List.replicate (l.toNat + 1) x))) s
    | none => badOperand p s)

end Sys2Proof.Machine
end

