-- ==== Sys2Proof/Machine/Refs.lean ====
section
/-! DEFINITION. References, object headers and publication (R228 to R245): the meanings of the reference instructions, and
the Fixer's claim, mark and root store. -/

namespace Sys2Proof.Machine
open Sys2Proof

/-! ### Words and headers (R229, R230) -/

/-- A tagged word that is a reference. -/
def isRefWord (w : DWord) (tag : Bool) : Bool :=
  tag && decide (w.toNat < 2 ^ 48) && decide (w ≠ 0) && decide (w.toNat % 64 = 0)
/-- A tagged word that is an object header. -/
def isHdrWord (w : DWord) (tag : Bool) : Bool := tag && w.extractLsb' 60 4 == 0xB && w.extractLsb' 32 2 != 3
/-- A tagged word that is neither. -/
def isMalformed (w : DWord) (tag : Bool) : Bool := tag && !isRefWord w tag && !isHdrWord w tag

/-- LEN. -/
def hdrLen (w : DWord) : Nat := w.toNat % 2 ^ 32
/-- STATE: 0 private, 1 pending, 2 published. -/
def hdrState (w : DWord) : Nat := w.toNat / 2 ^ 32 % 4
/-- LEAF. -/
def hdrLeaf (w : DWord) : Bool := w.getLsbD 34
/-- SCOPE. -/
def hdrScope (w : DWord) : BitVec 3 := w.extractLsb' 35 3
/-- OWNER. -/
def hdrOwner (w : DWord) : Nat := w.toNat / 2 ^ 38 % 64
/-- STAMP. -/
def hdrStamp (w : DWord) : Half := w.extractLsb' 44 16

/-- A header with fields. -/
def mkHdr (len st : Nat) (leaf : Bool) (scope : BitVec 3) (owner : Nat) (stamp : Half) : DWord :=
  BitVec.ofNat 64 (len % 2 ^ 32 + st * 2 ^ 32 + (if leaf then 2 ^ 34 else 0) + scope.toNat * 2 ^ 35 + owner % 64 * 2 ^ 38
    + stamp.toNat * 2 ^ 44 + 0xB * 2 ^ 60)

/-- The header with another state and scope. -/
def reHdr (w : DWord) (st : Nat) (scope : BitVec 3) : DWord := mkHdr (hdrLen w) st (hdrLeaf w) scope (hdrOwner w) (hdrStamp w)

/-- Lines of an object's span (R230). -/
def spanLines (len : Nat) : Nat := (8 * (len + 1) + 63) / 64

/-- A private or pending header whose stamp the group may use (R234). -/
def mayUse (stamp : Half) (w : DWord) : Bool := hdrStamp w == 0 || hdrStamp w == stamp

/-! ### Lane by lane object operations -/

/-- The word of lane i's address, checked as a read, a write or both: key, and the word with its tag as the context sees it. -/
def refWord (v : State) (p : Site) (a : DWord) (al : Nat) (rd wr : Bool) : Except Cause (Acc × DWord × Bool) :=
  match resolveRW v p.who a.toNat 8 al 2 rd wr with
  | .error c => .error c
  | .ok acc => .ok (acc, seenWord v p.ctx acc.key, seenTag v p.ctx acc.key)

/-- Storage as lane i of the issuing side sees it: with its own gated operations (R213, R214). -/
def Site.laneView (p : Site) (s : State) (i : Nat) : State := sideView s p.ctx p.g p.sd ((ownOps s p.g p.side.gated).filter (fun o => o.lane? = some i))

/-- Lane by lane in increasing order, each lane seeing the operations of the lanes before it: the first failing lane with
its cause and AUX, or all accesses, operations and results. -/
def objLanes {β : Type} (p : Site) (d : β) (f : State → Nat → Except (Cause × DWord) (List (Nat × Acc) × List GOp × β)) :
    List Nat → State → Except (Nat × Cause × DWord) (List (Nat × Acc) × List GOp × NMap β)
  | [], _ => .ok ([], [], [])
  | i :: r, v =>
    match f v i with
    | .error (c, a) => .error (i, c, a)
    | .ok (accs, ops, b) =>
      match objLanes p d f r (ops.foldl (fun v o => performGop p.ctx p.g p.sd o v) v) with
      | .error e => .error e
      | .ok (as, os, bs) => .ok (accs ++ as, ops ++ os, (i, b) :: bs)

/-- An instruction of the reference family over the active lanes: fault, watchpoint, or k with operations and results. Each lane's f
takes the storage as it stands when the lanes access it, and the view that the lanes before it have left. -/
def objInstr {β : Type} (p : Site) (d : β) (rd wr : Bool) (n : Nat) (as : List DWord)
    (f : State → State → Nat → Except (Cause × DWord) (List (Nat × Acc) × List GOp × β))
    (k : List GOp → (Nat → β) → State → State) (s : State) : State :=
  let look := fun (s : State) => objLanes p d (f s) (lanesOf p.mask) (sideView s p.ctx p.g p.sd p.side.gated)
  let s := if rd then (match look s with | .ok (accs, _, _) => dropLanes p 8 accs (reachLanes p false 8 accs s) | .error _ => s) else s
  match look s with
  | .error (i, c, a) => takeFault p c (some i) a (p.touch n as s)
  | .ok (accs, ops, bs) =>
    let t := touchWith p.who n (p.addrs as) (accs.filterMap (fun e => e.2.page)) s
    match watchLane s p n rd wr as accs with
    | some i => (takeFault p .watchpoint (some i) (nth 0 as i) t).updSide p.g p.sd (fun S => { S with skipWatch := some p.pc })
    | none =>
      k ops (fun i => NMap.get d bs i) (p.requests s n as accs (p.rearm t))

/-- Gated operations that define nothing. -/
def gateOps {β : Type} (p : Site) (ops : List GOp) (_ : Nat → β) (s : State) : State := advance p (gate p ops s)

/-! ### The meanings -/

/-- One lane of `mkref`: the header that its address names is read and checked (R238). -/
def mkrefLane (p : Site) (as : List DWord) (v : State) (i : Nat) : Except (Cause × DWord) (List (Nat × Acc) × List GOp × DWord) :=
  let a := nth 0 as i
  match refWord v p a 64 true false with
  | .error c => .error (c, a)
  | .ok (acc, w, t) =>
    if !isHdrWord w t then .error (.brokenReference, a)
    else if hdrOwner w ≠ p.ctx ∨ (hdrState w ≠ 2 ∧ !mayUse p.grp.stamp w) then .error (.privateAccess, a)
    else .ok ([(i, acc)], [], a)

/-- MKREF (R238). -/
def execMkref (m : MemOp) (s : State) : Out :=
  portable s (fun p s =>
    match memLanes s p m with
    | none => badOperand p s
    | some as =>
      objInstr p (0 : DWord) false false 8 as (fun _ => mkrefLane p as)
        (fun _ r s => define p ((List.range 128).map (fun i => .ref (r i) true)) s) s)

/-- One lane of `ldref`: a reference, or null; its referent is not read (R239). The value is the one that the lane sees, as a plain load's,
or one that it has read early. -/
def ldrefLane (p : Site) (as : List DWord) (old : Nat → Option (DWord × Bool)) (v : State) (i : Nat) :
    Except (Cause × DWord) (List (Nat × Acc) × List GOp × (DWord × Bool)) :=
  let a := nth 0 as i
  match refWord v p a 8 true false with
  | .error c => .error (c, a)
  | .ok (acc, w, t) =>
    let (w, t) := (old acc.key).getD (w, t)
    if isRefWord w t then .ok ([(i, acc)], [], (w, true))
    else if !t ∧ w = 0 then .ok ([(i, acc)], [], (0, false))
    else .error (.notAReference, a)

/-- The word and tag that lane i's `ldref` has read early at a key, by free choice (R217). -/
def earlyRef (s : State) (p : Site) (free : Bool) (i k : Nat) : Option (DWord × Bool) :=
  if free then (pickEarly s p.g i k 8).map (fun r => (BitVec.ofNat 64 (leNat r.1.bs), r.1.tag)) else none

/-- LDREF (R239): the referent is not checked. -/
def execLdref (m : MemOp) (s : State) : Out :=
  portable s (fun p s =>
    match memLanes s p m with
    | none => badOperand p s
    | some as =>
      let old := earlyRef s p (freeAddr s p m)
      objInstr p ((0 : DWord), false) true false 8 as (fun s _ i => ldrefLane p as (old i) (p.laneView s i) i)
        (fun _ r s => define p ((List.range 128).map (fun i => .ref (r i).1 (r i).2)) s) s)

/-- The header at a referent's address, as the Fixer's and `stref`'s reads find it: key and word; none where it is not a
tagged header of a mapped page. -/
def referent (v : State) (x : Nat) (a : Nat) : Option (Leaf × Nat × DWord) :=
  match walk v x a with
  | none => none
  | some l =>
    let k := l.pa + (a - l.va)
    let w := seenWord v x k
    if isHdrWord w (seenTag v x k) then some (l, k, w) else none

/-- A reference to the object with header H may be written into the line of key k (R236). -/
def escapeOk (v : State) (x : Nat) (stamp : Half) (H : DWord) (k : Nat) : Bool :=
  hdrState H == 2 ||
    (let (st, ls) := NMap.get (.shared, 0) v.lines (k / 64)
     st == .priv && (ls == stamp || (ls == 0 && hdrStamp H == 0 && decide ((NMap.get (0, 0) v.owner (k / 64)).1 = x))))

/-- One lane of `stref`: the check of R236 on the referent's state. -/
def strefLane (p : Site) (as : List DWord) (rs : List (DWord × Bool)) (v : State) (i : Nat) :
    Except (Cause × DWord) (List (Nat × Acc) × List GOp × Unit) :=
  let a := nth 0 as i
  let ra := (nth (0, false) rs i).1
  match refWord v p a 8 false true with
  | .error c => .error (c, a)
  | .ok (acc, _, _) =>
    if ra = 0 then .ok ([(i, acc)], [.refStore i acc.key 0 false], ())
    else
      match referent v p.ctx ra.toNat with
      | none => .error (.brokenReference, ra)
      | some (_, _, H) =>
        if escapeOk v p.ctx p.grp.stamp H acc.key then .ok ([(i, acc)], [.refStore i acc.key ra true], ())
        else .error (.escape, a)

/-- STREF (R239). -/
def execStref (m : MemOp) (r : Opnd) (s : State) : Out :=
  portable s (fun p s =>
    match memLanes s p m, opndRefs p r with
    | some as, some rs =>
      objInstr p () false true 8 as (fun _ => strefLane p as rs) (gateOps p) s
    | _, _ => badOperand p s)

/-- One lane of `unref`: a malformed word is a broken reference (R229, R241). -/
def unrefLane (p : Site) (as : List DWord) (v : State) (i : Nat) : Except (Cause × DWord) (List (Nat × Acc) × List GOp × Unit) :=
  let a := nth 0 as i
  match refWord v p a 8 true true with
  | .error c => .error (c, a)
  | .ok (acc, w, t) =>
    if isMalformed w t then .error (.brokenReference, a)
    else .ok ([(i, acc)], [.untag i acc.key], ())

/-- UNREF (R241). -/
def execUnref (m : MemOp) (s : State) : Out :=
  portable s (fun p s =>
    match memLanes s p m with
    | none => badOperand p s
    | some as =>
      objInstr p () true true 8 as (fun _ => unrefLane p as) (gateOps p) s)

/-- The span of an object lies in one writable die-store page of the context (R240). -/
def spanOk (v : State) (p : Site) (a n : Nat) : Option (Acc × Nat) :=
  match pageOf v p.grp.core p.ctx a with
  | none => none
  | some (e, own) =>
    let bytes := 64 * spanLines n
    if own && e.wr && isDS e.pa && decide (a + bytes ≤ e.va + e.size) && decide (n < 2 ^ 27)
    then some ({ key := e.pa + (a - e.va), space := .ds, page := some e }, spanLines n) else none

/-- One lane of `objinit`: a private object of its span is created (R240). A page without write permission gives the permission fault of R194
before step 1 is looked at (DESIGN CHOICE, log entry 98). -/
def objinitLane (p : Site) (leaf ctx : Bool) (as ns : List DWord) (v : State) (i : Nat) :
    Except (Cause × DWord) (List (Nat × Acc) × List GOp × Unit) :=
  let a := nth 0 as i
  let len := (nth 0 ns i).toNat
  let own := resolveRW v p.who a.toNat 8 64 2 true true
  match own with
  | .error .addressRange | .error .misalignment | .error .page | .error .space | .error .permission =>
    .error (match own with | .error c => c | .ok _ => .addressRange, a)
  | _ =>
    match spanOk v p a.toNat len with
    | none => .error (.addressRange, a)
    | some (acc, k) =>
      if !linesFree v p.ctx acc.key k then .error (.header, a)
      else if poisoned v p.ctx acc.key 8 then .error (.uncorrectableData, a)
      else
        let st : Half := if ctx then 0 else p.grp.stamp
        .ok ([(i, acc)], [.objInit i acc.key (mkHdr len 0 leaf 0 p.ctx st) k st], ())

/-- OBJINIT (R240). -/
def execObjinit (leaf ctx : Bool) (m : MemOp) (n : Opnd) (s : State) : Out :=
  portable s (fun p s =>
    match memLanes s p m, opndBits s p .i32 n with
    | some as, some ns =>
      objInstr p () false false 8 as (fun _ => objinitLane p leaf ctx as ns) (gateOps p) s
    | _, _ => badOperand p s)

/-- The page of an address does not allow a write (R194). -/
def noWrite (v : State) (p : Site) (a : Nat) : Bool := match pageOf v p.grp.core p.ctx a with | some (e, own) => own && !e.wr | none => false

/-- One lane of `objinit.retire`: a private header that the group may use is retired (R240). It reads and writes the word; the header
rule does not bar it. -/
def retireLane (p : Site) (as : List DWord) (v : State) (i : Nat) : Except (Cause × DWord) (List (Nat × Acc) × List GOp × Unit) :=
  let a := nth 0 as i
  match refWord v p a 64 true false with
  | .error c => .error (if (c == .privateAccess || c == .uncorrectableData) && noWrite v p a.toNat then .permission else c, a)
  | .ok (acc, w, t) =>
    if noWrite v p a.toNat then .error (.permission, a)
    else if !isHdrWord w t || hdrState w != 0 then .error (.header, a)
    else if !mayUse p.grp.stamp w then .error (.privateAccess, a)
    else .ok ([(i, acc)], [.objRetire i acc.key (spanLines (hdrLen w))], ())

/-- OBJINIT_RETIRE (R240). -/
def execObjinitRetire (m : MemOp) (s : State) : Out :=
  portable s (fun p s =>
    match memLanes s p m with
    | none => badOperand p s
    | some as =>
      objInstr p () false false 8 as (fun _ => retireLane p as) (gateOps p) s)

/-- The address of lane i of `objst`. -/
def objstAddr (rs : List (DWord × Bool)) (offs : List DWord) (i : Nat) : Nat := (nth (0, false) rs i).1.toNat + (nth 0 offs i).toNat

/-- One lane of `objst`: a store into the body of the object that a reference names (R241). -/
def objstLane (p : Site) (t : Ty) (rs : List (DWord × Bool)) (offs vs : List DWord) (v : State) (i : Nat) :
    Except (Cause × DWord) (List (Nat × Acc) × List GOp × Unit) :=
  let ra := (nth (0, false) rs i).1
  let o := (nth 0 offs i).toNat
  let a := BitVec.ofNat 64 (objstAddr rs offs i)
  if ra = 0 then .error (.addressRange, 0)
  else
    match refWord v p ra 64 true false with
    | .error c => .error (c, ra)
    | .ok (_, w, tg) =>
      if !isHdrWord w tg then .error (.brokenReference, ra)
      else if o < 8 ∨ 8 * (hdrLen w + 1) < o + Ty.bytes t then .error (.addressRange, a)
      else
        match resolve v p.who (objstAddr rs offs i) (Ty.bytes t) (Ty.bytes t) 2 true with
        | .error c => .error (c, a)
        | .ok acc => .ok ([(i, acc)], [.store i acc.key (leBytes (Ty.bytes t) (nth 0 vs i).toNat)], ())

/-- OBJST (R241). -/
def execObjst (t : Ty) (r off v : Opnd) (s : State) : Out :=
  portable s (fun p s =>
    match opndRefs p r, opndBits s p .i32 off, opndBits s p t v with
    | some rs, some offs, some vs =>
      objInstr p () false true (Ty.bytes t) ((List.range 128).map (fun i => BitVec.ofNat 64 (objstAddr rs offs i)))
        (fun _ => objstLane p t rs offs vs) (gateOps p) s
    | _, _, _ => badOperand p s)

/-- REFEQ (R242): address fields, whatever the tags. -/
def execRefeq (a b : Opnd) (s : State) : Out :=
  portable s (fun p s =>
    match opndRefs p a, opndRefs p b with
    | some xs, some ys => defineBits p (List.zipWith (fun (x y : DWord × Bool) => b1 (decide (x.1 = y.1))) xs ys) s
    | _, _ => badOperand p s)

/-- REFADR (R242). -/
def execRefadr (r : Opnd) (s : State) : Out :=
  portable s (fun p s =>
    match opndRefs p r with
    | some xs => defineBits p (xs.map (·.1)) s
    | none => badOperand p s)

/-! ### The walk (R243 to R245) -/

/-- Records object h against walk o. -/
def addWait (o h : Nat) : List (Nat × List Nat) → List (Nat × List Nat)
  | [] => [(o, [h])]
  | (o', hs) :: r => if o = o' then (o', if hs.contains h then hs else hs ++ [h]) :: r else (o', hs) :: addWait o h r

/-- The walk that holds object h pending. -/
def claimer (v : State) (x h : Nat) : Option Nat :=
  (v.walks.find? (fun W => decide (W.ctx = x) && W.claimed.contains h && (W.st == .claiming || W.st == .claimed))).map (·.id)

/-- visit of R244: a private object that may be claimed joins the walk's list and queue. -/
def visit (v : State) (h : Nat) (W : Walk) : Except (Cause × Nat) Walk :=
  match walk v W.ctx h with
  | none => .error (.brokenReference, h)
  | some l =>
    if l.owner ≠ W.ctx then .error (.privateAccess, h)
    else
      match referent v W.ctx h with
      | none => .error (.brokenReference, h)
      | some (_, k, H) =>
        if hdrOwner H ≠ W.ctx then .error (.privateAccess, h)
        else if W.claimed.contains h then .ok W
        else if !isDS k && hdrState H != 2 then .error (.brokenReference, h)
        else if hdrState H = 2 then
          if hdrScope H < W.scope ∧ !W.widened.contains h then .ok { W with widened := W.widened ++ [h], queue := W.queue ++ [h] }
          else .ok W
        else if hdrState H = 1 then
          match claimer v W.ctx h with
          | some o => .ok { W with waits := addWait o h W.waits }
          | none => .ok W
        else if !mayUse W.stamp H then .error (.privateAccess, h)
        else if 1048576 ≤ W.claimed.length then .error (.closureOverflow, W.root.toNat)
        else .ok { W with claimed := W.claimed ++ [h], queue := W.queue ++ [h] }

/-- The first tagged word of a body from word o on, of len words after the header at key k. -/
def nextTagged (v : State) (x k o len : Nat) : Option Nat :=
  v.tag.findSome? (fun (w, _) => if k / 8 + o ≤ w ∧ w ≤ k / 8 + len ∧ seenTag v x (8 * w) then some (w - k / 8) else none)

/-- The fields that a step of the claim phase follows: a tagged word that holds a reference (R249). -/
def follows (v : State) (W : Walk) : Nat :=
  match W.scan with
  | some (k, o, len) => ((nextTagged v W.ctx k o len).map (fun j => if isRefWord (seenWord v W.ctx (k + 8 * j)) true then 1 else 0)).getD 0
  | none => 0

/-- One step of the claim phase (R244), with the fields that it followed: the next object to visit, the next tagged word of the body
being scanned, or the next object of the queue. -/
def claimStep (v : State) (W : Walk) : Except (Cause × Nat) (Walk × Nat) :=
  match W.scan, W.visits, W.queue with
  | some (k, o, len), _, _ =>
    (match nextTagged v W.ctx k o len with
     | none => .ok ({ W with scan := none }, 0)
     | some j =>
       let w := seenWord v W.ctx (k + 8 * j)
       let W := { W with scan := some (k, j + 1, len) }
       if isRefWord w true then (visit v w.toNat W).map (fun W => (W, 1))
       else if isMalformed w true then .error (.brokenReference, W.root.toNat)
       else .ok (W, 0))
  | none, h :: r, _ => (visit v h { W with visits := r }).map (fun W => (W, 0))
  | none, [], h :: q =>
    (match referent v W.ctx h with
     | none => .error (.brokenReference, h)
     | some (_, k, H) => .ok ({ W with queue := q, scan := if hdrLeaf H then none else some (k, 1, hdrLen H) }, 0))
  | none, [], [] => .ok (W, 0)

/-- A walk whose round has ended. -/
def Walk.idle (W : Walk) : Bool := W.scan.isNone && W.visits.isEmpty && W.queue.isEmpty

/-- The Fixer writes a header word of the context, for a walk of group g, and the state of its lines (R208, R246). -/
def putHeader (g x h : Nat) (f : DWord → DWord) (line : DWord → LSt × Half) (s : State) : State :=
  match referent s x h with
  | none => s
  | some (_, k, H) =>
    let s := reach (.engine g) true k 8 s
    let s := { s with mem := setBytes s.mem k (leBytes 8 (f H).toNat) }
    if isDS k then { s with lines := setLines s.lines (line H) (k / 64) (spanLines (hdrLen H)) } else s

/-- Claimed objects become pending. -/
def markPending (W : Walk) (s : State) : State :=
  W.claimed.foldl (fun s h => putHeader W.group W.ctx h (fun H => reHdr H 1 0) (fun H => (.pending, hdrStamp H)) s) s

/-- Claimed objects become private again. -/
def unclaim (W : Walk) (s : State) : State :=
  W.claimed.foldl (fun s h => putHeader W.group W.ctx h (fun H => if hdrState H = 1 then reHdr H 0 0 else H)
    (fun H => (.priv, hdrStamp H)) s) s

/-- Walk o as it stands. -/
def walkAt (s : State) (o : Nat) : Option Walk := s.walks.find? (fun V => V.id = o)

/-- The walks of a list, and those that the open ones of them wait on, n links deep. -/
def waitedOn (s : State) : Nat → List Nat → List Nat
  | 0, os => os
  | n + 1, os =>
    let next := os.flatMap (fun o => match walkAt s o with | some V => if V.st = .claiming then V.waits.map (·.1) else [] | none => [])
    let new := (next.filter (fun o => !os.contains o)).eraseDups
    if new.isEmpty then os else waitedOn s n (os ++ new)

/-- The group of a walk has ended. -/
def walkGone (s : State) (W : Walk) : Bool := (s.groups[W.group]?).all (fun G => G.st == .ended)

/-- W's claim phase ends succeeded: its last round has ended, and of the walks that it waits on, directly or through walks whose claim
phase is still open, none has failed and none is in a round. A set of walks that wait only on one another and on walks that have
succeeded ends succeeded together (R245). -/
def claimsEnded (s : State) (W : Walk) : Bool :=
  W.idle && (waitedOn s s.walks.length (W.waits.map (·.1))).all (fun o => match walkAt s o with
    | none => true
    | some V => V.st != .failed && (V.st != .claiming || V.idle && !walkGone s V))

/-- Replaces a walk. -/
def putWalk (W : Walk) (s : State) : State :=
  { s with walks := if s.walks.any (fun V => V.id = W.id) then s.walks.map (fun V => if V.id = W.id then W else V) else s.walks ++ [W] }

/-- The walk's group waits at its `publ`. -/
def atPubl (s : State) (W : Walk) : Bool :=
  match (s.groups[W.group]?).map Group.st with
  | some (.waiting (.claim w) _) => w == W.id
  | _ => false

/-- The walk's group goes on from its `publ`. -/
def wakePubl (W : Walk) (s : State) : State := if atPubl s W then wake W.group s else s

/-- W's claim phase has ended succeeded, and with it those of the walks that it waits on: their groups go on from their `publ` (R245). -/
def succeedClaims (s : State) (W : Walk) : State :=
  (uniq (W.id :: waitedOn s s.walks.length (W.waits.map (·.1)))).foldl (fun t o => match walkAt s o with
    | some V => if V.st = .claiming then wakePubl V (putWalk { V with st := .claimed } t) else t
    | none => t) s

/-- A failed claim phase: every claimed object is private again, and the `publ` goes on to its fault (R243). -/
def failWalk (W : Walk) (c : Cause) (aux : Nat) (s : State) : State :=
  wakePubl W (putWalk { W with st := .failed, fault := some (c, aux), claimed := [] } (unclaim W s))

/-- A claim phase that has ended succeeded: the region's gated operations are performed, the claimed objects are pending,
the token is defined and the region's MARK commits (R243). -/
def succeedWalk (q : Port) (W : Walk) (mask : BitVec 3) (deps : List Nat) (s : State) : State :=
  let p := q.site
  let s := markPending W (landAll p.g (q.flush s))
  let s := putWalk { W with st := .claimed, released := true } s
  let E : Eng := { id := W.eng, ctx := p.ctx, group := p.g, kind := .publ W.id, scope := W.scope, mask := mask, deps := deps,
                   origin := p.pc, st := .issued, since := s.time, done := [], wrote := [] }
  q.close W.eng (addToken p W.eng { s with engs := s.engs ++ [E] })

/-- The walk of a `publ` that has issued before and not gone on. -/
def openWalk (s : State) (g low : Nat) : Option Walk := s.walks.find? (fun W => decide (W.group = g) && decide (W.side = low) && !W.released)

/-- A publication of root at the slot at address a (R243): the slot is checked as it issues and a walk begins; the group waits until
the walk's claim phase has ended, and its re-execution finds the walk by group and lowest lane. A null root claims nothing. -/
def publAt (q : Port) (sc mask : BitVec 3) (a root : DWord) (es : List Nat) (s : State) : State :=
  let p := q.site
  let v := sideView s p.ctx p.g p.sd p.side.gated
  match failedTok p.grp es with
  | some (c, o) => q.withFree (fun s => failToken s.ids c o (q.commit (.publ s.ids) sc mask es s)) s
  | none =>
    if es.any (fun e => tokState p.grp e = some .pending) then q.wait (.tokens es) s
    else
      q.withFree (fun s =>
        match openWalk s p.g p.low with
        | some W =>
          (match W.st, W.fault with
           | .failed, some (c, x) => takeFault p c none (BitVec.ofNat 64 x) (putWalk { W with released := true } s)
           | .claiming, _ => q.wait (.claim W.id) s
           | _, _ => succeedWalk q W mask es s)
        | none =>
          match resolve v p.who a.toNat 8 8 2 true with
          | .error c => takeFault p c (some p.low) a (touchAddrs p.who 8 [a.toNat] s)
          | .ok _ =>
            let s := landAll p.g (touchAddrs p.who 8 [a.toNat] s)
            let (wid, s) := s.newId
            let (eid, s) := s.newId
            let W : Walk := { id := wid, group := p.g, side := p.low, ctx := p.ctx, stamp := p.grp.stamp, scope := sc, root := root,
                              slot := a.toNat, eng := eid, claimed := [], widened := [], waits := [], queue := [], scan := none,
                              visits := if root = 0 then [] else [root.toNat], released := false, fault := none, st := .claiming }
            let s := countEv p.ctx 0x70 1 s
            if root = 0 then succeedWalk q W mask es s else q.wait (.claim wid) (putWalk W s)) s

/-- PUBL (R243). -/
def execPubl (sc mask : BitVec 3) (m : MemOp) (r : Opnd) (ks : List Opnd) (s : State) : Out :=
  portable s (fun p s =>
    match memLanes s p m, opndRefs p r, opndToks p ks with
    | some as, some rs, some es => publAt p.port sc mask (nth 0 as p.low) (nth (0, false) rs p.low).1 es s
    | _, _, _ => badOperand p s)

/-- The walk that a walk waits on has failed. -/
def failedWait (s : State) (e : Nat × List Nat) : Bool := match walkAt s e.1 with | some V => V.st == .failed | none => false

/-- The side, or PC slot, of a group that lane l runs in. -/
def sideAt (G : Group) (l : Nat) : Nat :=
  match G.native with
  | some N => N.slots.findIdx (fun P => P.any (fun P => P.mask.getLsbD l))
  | none => G.sides.findIdx (fun S => S.live && S.core.mask.getLsbD l)

/-- The operations that the walk's group holds gated while it waits at the `publ`. -/
def walkGated (s : State) (W : Walk) : List GOp :=
  match s.groups[W.group]? with
  | none => []
  | some G => match G.native with
    | some N => N.gatedOf (sideAt G W.side)
    | none => match G.sides[sideAt G W.side]? with | some S => S.gated | none => []

/-- CLAIM_ROUND (R245): the claim phase of walk w goes on by one step of its round, an object that it claims being pending at once; a
round that has ended visits again what it recorded against walks that have failed; a claim phase that has ended succeeded lets its
group go on. While the group is not at the `publ`, an object that only its region's operations make cannot be met, and the walk waits
for it. -/
def execClaimRound (w : Nat) (s : State) : Out :=
  .next (match s.walks.find? (fun W => decide (W.id = w) && W.st == .claiming) with
    | none => s
    | some W =>
      if walkGone s W then putWalk { W with st := .failed, claimed := [], released := true } (unclaim W s)
      else if W.idle then
        let bad := W.waits.filter (failedWait s)
        if bad ≠ [] then putWalk { W with waits := W.waits.filter (fun e => !failedWait s e), visits := bad.flatMap (·.2) } s
        else if claimsEnded s W then succeedClaims s W
        else s
      else
        let v := sideView s W.ctx W.group 0 (walkGated s W)
        match claimStep v W with
        | .error (c, x) => if atPubl s W then failWalk W c x (chargeEv W.ctx 0x72 (follows v W) s) else s
        | .ok (W', n) =>
          let new := W'.claimed.drop W.claimed.length
          chargeEv W.ctx 0x71 new.length (chargeEv W.ctx 0x72 n (putWalk W' (markPending { W' with claimed := new } s))))

/-- MARK_PHASE (R244): claimed objects become published in claim order, then published objects of narrower scope widen. Where the group
has ended after its claim phase they still do, since other walks may have met them (log entry 90). -/
def execMarkPhase (w : Nat) (s : State) : Out :=
  .next (match s.walks.find? (fun W => decide (W.id = w) && W.st == .claimed && (W.released || walkGone s W)) with
    | none => s
    | some W =>
      let s := W.claimed.foldl (fun s h => putHeader W.group W.ctx h (fun H => reHdr H 2 W.scope) (fun _ => (.shared, 0)) s) s
      let s := W.widened.foldl (fun s h => putHeader W.group W.ctx h
        (fun H => reHdr H (hdrState H) (if hdrScope H < W.scope then W.scope else hdrScope H)) (fun _ => (.shared, 0)) s) s
      putWalk { W with st := .marked } s)

/-- A walk's root store still waits for the mark phase of a walk that it met. -/
def rootWaits (s : State) (W : Walk) : Bool :=
  W.waits.any (fun (o, _) => match walkAt s o with | none => false | some V => V.st != .marked && V.st != .stored)

/-- A walk that waits on another walk: each clock of it counts (R249). -/
def walkWaits (s : State) (W : Walk) : Bool :=
  match W.st with
  | .claiming => W.idle && !W.waits.isEmpty
  | .marked => rootWaits s W
  | _ => false

/-- ROOT_STORE (R244): once every walk it waits on has marked, the root is stored with its tag, and the token completes. -/
def execRootStore (w : Nat) (s : State) : Out :=
  .next (match s.walks.find? (fun W => decide (W.id = w) && W.st == .marked) with
    | none => s
    | some W =>
      if rootWaits s W then s
      else if !W.released then putWalk { W with st := .stored } s
      else
        let origin := match s.engs.find? (fun E => E.id = W.eng) with | some E => E.origin | none => 0
        let s := putWalk { W with st := .stored } s
        match walk s W.ctx W.slot with
        | none => failToken W.eng .page origin s
        | some l =>
          let k := l.pa + (W.slot - l.va)
          completeToken W.eng (storeTagged W.ctx k W.root (W.root != 0) (reach (.engine W.group) true k 8 (landAll W.group s))))

end Sys2Proof.Machine
end

