-- ==== Sys2Proof/Machine/Engines.lean ====
section
/-! DEFINITION. The copy engine and collectives (R268 to R276): checks at issue, the transfers, and the meanings of the
engine instructions. -/

namespace Sys2Proof.Machine
open Sys2Proof

/-! ### The checks at issue (R268) -/

/-- The checks of n bytes at va, a multiple of al, one word of 4 bytes at a time from byte o; none of poison, which fails the token
instead (R269): the failing address with its cause, or the space of each word. -/
def checkWords (s : State) (w : Who) (mask : BitVec 3) (wr : Bool) (va : Nat) : Nat → Nat → Except (Cause × Nat) (List Space)
  | 0, _ => .ok []
  | k + 1, o =>
    match resolveAt false s w (va + o) 4 4 mask wr with
    | .error c => .error (c, va + o)
    | .ok a =>
      match checkWords s w mask wr va k (o + 4) with
      | .error e => .error e
      | .ok r => .ok (a.space :: r)

/-- One side of a move: the range of all of it, its alignment, then its words in order (R194, R271). -/
def checkEnd (s : State) (w : Who) (mask : BitVec 3) (wr : Bool) (al va n : Nat) : Except (Cause × Nat) (List Space) :=
  if 2 ^ 48 ≤ va ∨ (va / 2 ^ 40 = 0xFF ∧ fretOf s w < va % 2 ^ 40 + n) then .error (.addressRange, va)
  else if va % al ≠ 0 then .error (.misalignment, va)
  else checkWords s w mask wr va (n / 4) 0

/-- The checks of every move, its source before its destination: the first failing one with its lane, or the spaces met. -/
def checkMoves (s : State) (w : Who) (mask : BitVec 3) (al : Nat) : List Move → Except (Nat × Cause × Nat) (List (Space × Space))
  | [] => .ok []
  | m :: r =>
    match checkEnd s w mask false al m.src m.n with
    | .error (c, a) => .error (m.lane, c, a)
    | .ok xs =>
      match checkEnd s w mask true al m.dst m.n with
      | .error (c, a) => .error (m.lane, c, a)
      | .ok ys =>
        match checkMoves s w mask al r with
        | .error e => .error e
        | .ok zs => .ok (uniq (List.zip xs ys ++ zs))

/-- An address in each page of n bytes at va. -/
def pageSpots (va n : Nat) : List Nat := (List.range ((va + n - 1) / 65536 - va / 65536 + 1)).map (fun i => max va ((va / 65536 + i) * 65536))

/-- The pages that the checks of a transfer look up (R197, R199). -/
def touchMoves (w : Who) (ms : List Move) (s : State) : State :=
  touchAddrs w 1 (ms.flatMap (fun m => pageSpots m.src m.n ++ pageSpots m.dst m.n)) s

/-! ### Parts (R211, R270, R271) -/

/-- The accessor of an engine instruction. -/
def engWho (s : State) (E : Eng) : Who :=
  match s.groups[E.group]? with
  | none => { x := E.ctx, core := 0, blk := none, stamp := 0 }
  | some G => { x := E.ctx, core := G.core, blk := some G.block, stamp := G.stamp }

/-- The parts of a move from byte o: the longest that cross no 16-byte boundary on either side (R211; log entry 56). -/
def moveParts (m : Move) : Nat → Nat → List Move
  | 0, _ => []
  | k + 1, o =>
    if m.n ≤ o then []
    else
      let u := min (min (16 - (m.src + o) % 16) (16 - (m.dst + o) % 16)) (m.n - o)
      { dst := m.dst + o, src := m.src + o, n := u, lane := m.lane } :: moveParts m k (o + u)

/-- The parts of a transfer, numbered in order. -/
def engParts (kind : EngKind) : List Move := (engMoves kind).flatMap (fun m => moveParts m m.n 0)

/-- The options of a transfer: `.dirty` and `.tag`. -/
def EngKind.opts : EngKind → Bool × Bool
  | .copy d t _ _ _ _ _ _ => (d, t)
  | _ => (false, false)

/-- The words of a part, read: those that `.dirty` skips are neither read nor written; uncorrectable data is met here (R269, R270). -/
def readPart (s : State) (w : Who) (E : Eng) (m : Move) : Except Cause (List EWord) :=
  match resolveAt false s w m.src m.n 4 E.mask false with
  | .error c => .error c
  | .ok a =>
    let ks := ((List.range (m.n / 4)).map (4 * ·)).filter (fun o => !E.kind.opts.1 || NMap.get false s.dirty ((a.key + o) / 4))
    if ks.isEmpty then .ok []
    else
      match resolveAt false s w m.dst m.n 4 E.mask true with
      | .error c => .error c
      | .ok b =>
        if ks.any (fun o => poisoned s w.x (a.key + o) 4) then .error .uncorrectableData
        else .ok (ks.map (fun o => { src := a.key + o, dst := b.key + o, bytes := loadBytes s w.x (a.key + o) 4, tag := seenTag s w.x (a.key + o) }))

/-- The cause that a written word with a tag breaks: only `objinit` and the Fixer write headers (R235), and a reference to an object that
is not published stays in private lines (R236). -/
def wordBad (s : State) (w : Who) (k : Nat) : Option Cause :=
  let v := wordAt s k
  if !tagAt s k then none
  else if headerAt s k then some .header
  else if isRefWord v true then
    (match referent s w.x v.toNat with
     | some (_, _, H) => if escapeOk s w.x w.stamp H k then none else some .escape
     | none => none)
  else none

/-- Writes one word. A copy into scratchpad clears the word's dirty bit, any other transfer leaves it (R205; log entry 77); with `.tag`
the 8-byte word takes the tag of the source's (R270). -/
def writeWord (x : Nat) (kind : EngKind) (s : State) (e : EWord) : State :=
  let t := storeBytes x e.dst e.bytes s
  let t := if isSP e.dst then { t with dirty := match kind with
    | .copy .. => setDirty t.dirty false (e.dst / 4) 1
    | _ => s.dirty } else t
  if kind.opts.2 then setTag e.dst e.tag t else t

/-- Writes a part's words; a part that would break a rule of tags has no effect. -/
def writePart (w : Who) (kind : EngKind) (r : State × Option Cause) (es : List EWord) : State × Option Cause :=
  let t := es.foldl (writeWord w.x kind) r.1
  match es.findSome? (fun e => wordBad t w e.dst) with
  | some c => (r.1, r.2.or (some c))
  | none => (t, r.2)

/-- A source byte of some word. -/
def srcKey (es : List EWord) (k : Nat) : Bool := es.any (fun e => decide (e.src ≤ k) && decide (k < e.src + 4))

/-- Destination bytes that overlap the source are indeterminate (R270; log entry 3). -/
def settleOverlap (es : List EWord) (fresh : Nat) (e : EWord) : EWord :=
  { e with bytes := e.bytes.zipIdx.map (fun (b, i) => if srcKey es (e.dst + i) then Config.freeByte fresh (e.dst + i) else b) }

/-- The storage key of n bytes of a part. -/
def partKey (s : State) (w : Who) (mask : BitVec 3) (va n : Nat) (wr : Bool) : Option Nat :=
  match resolveAt false s w va n 4 mask wr with | .ok a => some a.key | .error _ => none

/-- Two places that may be unknown meet. -/
def keysMeet (a : Option Nat) (n : Nat) (b : Option Nat) (m : Nat) : Bool :=
  match a, b with | some a, some b => meets a n b m | _, _ => false

/-- A `copy` one of whose destinations meets a source (R270). -/
def overlaps (s : State) (w : Who) (E : Eng) (ps : List Move) : Bool :=
  match E.kind with
  | .copy .. =>
    let ks := ps.map (fun m => (partKey s w E.mask m.src m.n false, partKey s w E.mask m.dst m.n true, m.n))
    ks.any (fun a => ks.any (fun b => keysMeet a.2.1 a.2.2 b.1 b.2.2))
  | _ => false

/-- The parts that a step performs: all, or one by free choice and any others, in no stated order (R211, R222). -/
def pickParts (fresh : Nat) (whole : Bool) (rest : List Nat) : List Nat :=
  if whole ∨ rest.length ≤ 1 then rest
  else
    let f := nth 0 rest (Config.freeNat fresh 0 % rest.length)
    rest.filter (fun i => i == f || Config.freeBool fresh i)

/-- What a step of an engine instruction makes: the state, the parts done by then, the scratchpad words copied, and the cause of a part
that fails. -/
structure EngRun where
  st : State
  done : List Nat
  wrote : List Nat
  cause : Option Cause
  /-- parts read and still to be written -/
  buf : List (Nat × List EWord) := []

/-- An engine instruction accesses n bytes at an address. -/
def reachAt (w : Who) (E : Eng) (va n : Nat) (wr : Bool) (s : State) : State :=
  match resolveAt false s w va n 4 E.mask wr with
  | .ok a => reach (.engine E.group) wr a.key n s
  | .error _ => s

/-- Part i of a transfer. -/
def partAt (E : Eng) (i : Nat) : Move := nth { dst := 0, src := 0, n := 0, lane := 0 } (engParts E.kind) i

/-- The cause a token fails with: R269 names no other, and a mapping that changed shows as the page cause (log entry 75). -/
def tokenCause : Cause → Cause
  | .privateAccess => .privateAccess
  | .escape => .escape
  | .header => .header
  | .uncorrectableData => .uncorrectableData
  | .collectiveMismatch => .collectiveMismatch
  | .collectiveTimeout => .collectiveTimeout
  | _ => .page

/-- Parts are read: of each that fails, the cause. -/
def readParts (E : Eng) (go : List Nat) (s : State) : State × List (Nat × Except Cause (List EWord)) :=
  let w := engWho s E
  let s := go.foldl (fun s i => reachAt w E (partAt E i).src (partAt E i).n false s) s
  (s, go.map (fun i => (i, readPart s w E (partAt E i))))

/-- Parts that have been read are written, in order; one whose destination may no longer be written fails. -/
def writeParts (E : Eng) (settle : EWord → EWord) (ok : List (Nat × List EWord)) (r : State × Option Cause) : State × Option Cause :=
  let w := engWho r.1 E
  ok.foldl (fun r e =>
    if e.2.isEmpty then r
    else
      let m := partAt E e.1
      match resolveAt false r.1 w m.dst m.n 4 E.mask true with
      | .error c => (r.1, r.2.or (some c))
      | .ok _ => writePart w E.kind (reachAt w E m.dst m.n true r.1, r.2) (e.2.map settle)) r

/-- The first cause of parts that failed to be read. -/
def readCause (rd : List (Nat × Except Cause (List EWord))) : Option Cause := rd.findSome? (fun e => match e.2 with | .error c => some c | .ok _ => none)

/-- The parts that were read. -/
def readOk (rd : List (Nat × Except Cause (List EWord))) : List (Nat × List EWord) :=
  rd.filterMap (fun e => match e.2 with | .ok es => some (e.1, es) | .error _ => none)

/-- The scratchpad words that a masked copy-back has copied with some parts (R270). -/
def EngKind.copied (k : EngKind) (ok : List (Nat × List EWord)) : List Nat := if k.opts.1 then (ok.flatMap (·.2)).map (fun e => e.src / 4) else []

/-- A step of a `copy` that overlaps: its parts go together, and where one fails, free choice says which have been performed. A
destination byte that meets the source is indeterminate (R269, R270). -/
def wholeStep (s : State) (E : Eng) (rest : List Nat) : EngRun :=
  let rd := readParts E rest s
  let bad := readCause rd.2
  let ok := (readOk rd.2).filter (fun e => bad.isNone || Config.freeBool s.fresh e.1)
  let es := ok.flatMap (·.2)
  let r := writeParts E (settleOverlap es s.fresh) ok (rd.1, bad)
  { st := r.1.tick, done := E.done ++ ok.map (·.1), cause := r.2, wrote := E.wrote ++ E.kind.copied ok }

/-- The parts that were read and may be written: every lower part that meets their bytes is done, so that the highest lane of a `scatter`
prevails (R271). -/
def readyParts (s : State) (E : Eng) (rest : List Nat) : List (Nat × List EWord) :=
  let key := fun (i : Nat) => partKey s (engWho s E) E.mask (partAt E i).dst (partAt E i).n true
  E.buf.filter (fun e => !rest.any (fun i => decide (i < e.1) && keysMeet (key i) (partAt E i).n (key e.1) (partAt E e.1).n))

/-- A step of a transfer: by free choice parts are read, or parts that were read are written; parts already performed stay performed (R211,
R222, R269). -/
def transferStep (s : State) (E : Eng) : EngRun :=
  let ps := engParts E.kind
  let rest := (List.range ps.length).filter (fun i => !E.done.contains i)
  if overlaps s (engWho s E) E ps then wholeStep s E rest
  else
    let unread := rest.filter (fun i => !E.buf.any (fun e => e.1 == i))
    let ready := readyParts s E rest
    if unread.isEmpty ∨ (!ready.isEmpty ∧ Config.freeBool s.fresh 1) then
      let go := pickParts (s.fresh + 1) false (ready.map (·.1))
      let ok := E.buf.filter (fun e => go.contains e.1)
      let r := writeParts E id ok (s, none)
      { st := r.1.tick, done := E.done ++ ok.map (·.1), cause := r.2, wrote := E.wrote ++ E.kind.copied ok,
        buf := E.buf.filter (fun e => !go.contains e.1) }
    else
      let rd := readParts E (pickParts s.fresh false unread) s
      { st := rd.1.tick, done := E.done, cause := readCause rd.2, wrote := E.wrote, buf := E.buf ++ readOk rd.2 }

/-! ### Issue -/

/-- The issue of a transfer: its limits held, every byte of every range checked, then gated (R268). -/
def issueTransfer (q : Port) (kind : EngKind) (al : Nat) (ok : List (Space × Space) → Bool) (scope mask : BitVec 3) (dst : Nat)
    (es : List Nat) (s : State) : State :=
  let p := q.site
  let chk := checkMoves (p.view s) p.who mask al (engMoves kind)
  let s := touchMoves p.who (engMoves kind) s
  match chk with
  | .error (l, c, a) => takeFault p c (some (if l = 0 then p.low else l)) (BitVec.ofNat 64 a) s
  | .ok sps => if ok sps then q.issue kind scope mask es s else takeFault p .addressRange (some p.low) (BitVec.ofNat 64 dst) s

/-- A copy of rows of n bytes with its limits (R270); two: the form with strides. -/
def copyAt (q : Port) (sc mask : BitVec 3) (dirty tag two : Bool) (d a n rows dstr sstr : Nat) (es : List Nat) (s : State) : State :=
  let lim := decide (n % 4 = 0 ∧ 4 ≤ n ∧ n ≤ 2 ^ 30 ∧ 1 ≤ rows ∧ rows ≤ 65535 ∧ d % 4 = 0 ∧ a % 4 = 0)
    && (!two || decide (dstr % 4 = 0 ∧ sstr % 4 = 0 ∧ n ≤ dstr ∧ n ≤ sstr))
  if !lim then takeFault q.site .addressRange (some q.site.low) (BitVec.ofNat 64 d) s
  else issueTransfer q (.copy dirty tag d a n rows dstr sstr) 4
    (fun sps => (!dirty || sps.all (fun e => e == (.sp, .ds))) && (!tag || sps.all (fun e => e.1 != .sp && e.2 != .sp)))
    sc mask d es s

/-- COPY (R270). -/
def execCopy (sc mask : BitVec 3) (dirty tag : Bool) (dst src : MemOp) (len : Opnd) (dd : Option (Opnd × Opnd × Opnd)) (ks : List Opnd)
    (s : State) : Out :=
  portable s (fun p s =>
    let two := match dd with
      | none => some (1, 0, 0)
      | some (r, d, q) =>
        match opndOne s p .i32 r, opndOne s p .i32 d, opndOne s p .i32 q with
        | some r, some d, some q => some (r.toNat, d.toNat, q.toNat)
        | _, _, _ => none
    match memLanes s p dst, memLanes s p src, opndOne s p .i32 len, two with
    | some ds, some ss, some n, some (rows, dstr, sstr) =>
      withToken p ks (copyAt p.port sc mask dirty tag dd.isSome (nth 0 ds p.low).toNat (nth 0 ss p.low).toNat n.toNat rows dstr sstr) s
    | _, _, _, _ => badOperand p s)

/-- The scattered addresses of the active lanes: the base from the lowest active lane, the offset of each lane (R271). -/
def scattered (s : State) (p : Site) (x : MemOp) : Option (List (Nat × Nat)) :=
  match opndOne s p .i64 x.base, opndBits s p .i32 x.off with
  | some b, some os => some ((lanesOf p.mask).map (fun i => (i, (b + lowBits 32 (nth 0 os i)).toNat)))
  | _, _ => none

/-- A gather or scatter of e bytes a lane; a size that no SUB encodes breaks the limits (R271). -/
def gatherAt (p : Port) (sc mask : BitVec 3) (k : Nat) (xs : List (Nat × Nat)) (e : Nat) (kind : Nat → List (Nat × Nat) → Nat → EngKind)
    (es : List Nat) (s : State) : State :=
  if [4, 8, 16, 32, 64, 128, 256].contains e then issueTransfer p (kind k xs e) (min e 16) (fun _ => true) sc mask k es s
  else takeFault p.site .addressRange (some p.site.low) (BitVec.ofNat 64 k) s

/-- GATHER and SCATTER share their checks (R271). -/
def gatherScatter (s : State) (sc mask : BitVec 3) (le : BitVec 4) (pk x : MemOp) (ks : List Opnd)
    (kind : Nat → List (Nat × Nat) → Nat → EngKind) : Out :=
  portable s (fun p s =>
    match memLanes s p pk, scattered s p x with
    | some ps, some xs =>
      withToken p ks (gatherAt p.port sc mask (nth 0 ps p.low).toNat xs (2 ^ le.toNat) kind) s
    | _, _ => badOperand p s)

/-- GATHER (R271). -/
def execGather (sc mask : BitVec 3) (le : BitVec 4) (pk x : MemOp) (ks : List Opnd) (s : State) : Out :=
  gatherScatter s sc mask le pk x ks .gather

/-- SCATTER (R271). -/
def execScatter (sc mask : BitVec 3) (le : BitVec 4) (x pk : MemOp) (ks : List Opnd) (s : State) : Out :=
  gatherScatter s sc mask le pk x ks .scatter

/-! ### Collectives (R272 to R276) -/

/-- Entry g of the collective group table of context x: members, rank, timeout; none when VALID is 0 (R274). -/
def collGroup (s : State) (x g : Nat) : Option (Nat × Nat × Nat) :=
  let k := (ctxAt s x).rsvd + 16 * g
  let w := (loadWord s x k).toNat
  if w % 2 = 0 then none else some (w / 2 % 2 ^ 11, w / 2 ^ 12 % 2 ^ 11, w / 2 ^ 32)

/-- Elements read at this rank and written at it. -/
def collSizes (kind : CollKind) (cnt n r : Nat) : Nat × Nat :=
  match kind with
  | .bcast => (if r = 0 then cnt else 0, cnt)
  | .allred => (cnt, cnt)
  | .redsc => (cnt, cnt / n)
  | .allgat => (cnt / n, cnt)

/-- A collective call: the group entry, the count and every byte of both ranges are checked at issue (R268, R272). -/
def collAt (q : Port) (kind : CollKind) (op : CollOp) (mask : BitVec 3) (t : Ty) (d a c g : Nat) (es : List Nat) (s : State) : State :=
  let p := q.site
  let bad := takeFault p .addressRange (some p.low) (BitVec.ofNat 64 d)
  match (if g < 256 then collGroup s p.ctx g else none) with
  | none => bad s
  | some (n, r, _) =>
    if c = 0 ∨ 2 ^ 28 < c ∨ n < 2 ∨ ((kind = .redsc ∨ kind = .allgat) ∧ c % n ≠ 0) then bad s
    else
      let z := collSizes kind c n r
      let b := Ty.bytes t
      let v := p.view s
      let src := checkWords v p.who mask false a ((z.1 * b + 3) / 4) 0
      let dst := checkWords v p.who mask true d ((z.2 * b + 3) / 4) 0
      let s := touchAddrs p.who 1 (pageSpots a (z.1 * b) ++ pageSpots d (z.2 * b)) s
      match src, dst with
      | .error (c, x), _ | .ok _, .error (c, x) => takeFault p c (some p.low) (BitVec.ofNat 64 x) s
      | .ok _, .ok _ => q.issue (.coll kind op t d a c g 0) 5 mask es s

/-- COLL (R272). -/
def execColl (kind : CollKind) (op : CollOp) (mask : BitVec 3) (t : Ty) (dst src : MemOp) (cnt grp : Opnd) (ks : List Opnd)
    (s : State) : Out :=
  portable s (fun p s =>
    match memLanes s p dst, memLanes s p src, opndOne s p .i32 cnt, opndOne s p .i32 grp with
    | some ds, some ss, some c, some g =>
      withToken p ks (collAt p.port kind op mask t (nth 0 ds p.low).toNat (nth 0 ss p.low).toNat c.toNat g.toNat) s
    | _, _, _, _ => badOperand p s)

/-- A frame of R275 read from bytes: kind, op, type, group, sequence number, sender, level, offset, data. -/
structure Frm where
  kind : Nat
  op : Nat
  ty : Nat
  grp : Nat
  seq : Nat
  rank : Nat
  level : Nat
  off : Nat
  data : List Byte
  deriving DecidableEq, Repr

/-- The number in n bytes from offset o. -/
def fieldNat (bs : List Byte) (o n : Nat) : Nat := leNat ((bs.drop o).take n)

/-- A frame that is not discarded (R275). -/
def readFrame (bs : List Byte) : Option Frm :=
  let len := fieldNat bs 0x18 4
  if bs.length < 32 ∨ fieldNat bs 0 2 ≠ 0x4743 ∨ fieldNat bs 2 1 ≠ 1 ∨ fieldNat bs 0x1C 4 ≠ 0 then none
  else some { kind := fieldNat bs 3 1, op := fieldNat bs 4 1, ty := fieldNat bs 5 1, grp := fieldNat bs 6 2, seq := fieldNat bs 8 4,
              rank := fieldNat bs 0x0C 2, level := fieldNat bs 0x0E 2, off := fieldNat bs 0x10 8, data := (bs.drop 32).take len }

/-- The frames of a context's call. -/
def callFrames (s : State) (x g q : Nat) : List Frm :=
  s.frames.filterMap (fun (y, bs) => if y = x then (readFrame bs).bind (fun f => if f.grp = g ∧ f.seq = q then some f else none) else none)

/-- Bytes of the vector that a rank sends. -/
def sentBytes (kind : CollKind) (c n b : Nat) : Nat := match kind with | .allgat => c / n * b | _ => c * b

/-- A frame that disagrees with the call (R276). -/
def frameBad (kind : CollKind) (op : CollOp) (t : Ty) (c n : Nat) (f : Frm) : Bool :=
  f.kind != kind.code.toNat || f.op != op.code.toNat || f.ty != (Ty.code t).toNat
    || decide (sentBytes kind c n (Ty.bytes t) < f.off + f.data.length) || decide (n ≤ f.rank)

/-- A frame that is not full and ends before the sender's data would: its sender may count fewer elements, which no field tells (R276). -/
def frameShort (kind : CollKind) (t : Ty) (c n : Nat) (f : Frm) : Bool :=
  decide (f.data.length < 4096) && decide (f.off + f.data.length < sentBytes kind c n (Ty.bytes t))

/-- Element j of the data that node k of level l holds in received frames. -/
def frameElem (fs : List Frm) (b l k j : Nat) : Option DWord :=
  (fs.find? (fun f => decide (f.level = l) && decide (f.rank / 2 ^ l = k) && decide (f.off ≤ j * b) && decide (j * b + b ≤ f.off + f.data.length))).map
    (fun f => BitVec.ofNat 64 (fieldNat f.data (j * b - f.off) b))

/-- The combination of a collective reduction and its identity (R273). -/
def collComb (op : CollOp) (t : Ty) : DWord × (DWord → DWord → DWord) :=
  let fl := Ty.isFlt t
  let c := match op with
    | .add => redComb (if fl then .fadd else .add) true .rne true t
    | .min => redComb (if fl then .fmin else .min) true .rne true t
    | .max => redComb (if fl then .fmax else .max) true .rne true t
  (c.1, fun a b => (c.2 a b).1)

/-- The tree over ranks (R273): a node of level l and index k, over n ranks; own is this rank's element. -/
def collNode (comb : DWord × (DWord → DWord → DWord)) (fs : List Frm) (b n r j : Nat) (own : DWord) : Nat → Nat → Option DWord
  | 0, k => if n ≤ k then some comb.1 else if k = r then some own else frameElem fs b 0 k j
  | l + 1, k =>
    if n ≤ k * 2 ^ (l + 1) then some comb.1
    else
      match frameElem fs b (l + 1) k j with
      | some v => some v
      | none =>
        match collNode comb fs b n r j own l (2 * k), collNode comb fs b n r j own l (2 * k + 1) with
        | some x, some y => some (comb.2 x y)
        | _, _ => none

/-- Levels of a tree over n ranks. -/
def treeDepth (n : Nat) : Nat := if n ≤ 1 then 0 else Nat.log2 (n - 1) + 1

/-- The own element that element i of the result at rank r needs (R272). -/
def ownIdx (kind : CollKind) (c n r i : Nat) : Option Nat :=
  match kind with
  | .bcast => if r = 0 then some i else none
  | .allred => some i
  | .redsc => some (r * (c / n) + i)
  | .allgat => if i / (c / n) = r then some (i % (c / n)) else none

/-- Element i of the result at rank r, own being the own element that it needs: none while data is missing (R272). -/
def collElem (kind : CollKind) (op : CollOp) (t : Ty) (c n r : Nat) (fs : List Frm) (own : DWord) (i : Nat) : Option DWord :=
  let b := Ty.bytes t
  match kind with
  | .bcast => if r = 0 then some own else frameElem fs b 0 0 i
  | .allred => collNode (collComb op t) fs b n r i own (treeDepth n) 0
  | .redsc => collNode (collComb op t) fs b n r (r * (c / n) + i) own (treeDepth n) 0
  | .allgat => let m := c / n; if i / m = r then some own else frameElem fs b 0 (i / m) (i % m)

/-- The pieces in which an element of b bytes is accessed: words of 4 bytes, or less (R268). -/
def elemPieces (va b : Nat) : List (Nat × Nat) := if b = 8 then [(va, 4), (va + 4, 4)] else [(va, b)]

/-- The accesses of an element, in pieces. -/
def elemKeys (ecc : Bool) (s : State) (w : Who) (mask : BitVec 3) (wr : Bool) : List (Nat × Nat) → Except Cause (List (Nat × Nat))
  | [] => .ok []
  | (va, n) :: r =>
    match resolveAt ecc s w va n n mask wr, elemKeys ecc s w mask wr r with
    | .ok a, .ok ks => .ok ((a.key, n) :: ks)
    | .error c, _ => .error c
    | _, .error c => .error c

/-- The own element of b bytes at va. -/
def ownElem (s : State) (E : Eng) (b va : Nat) : Except Cause DWord :=
  (elemKeys true s (engWho s E) E.mask false (elemPieces va b)).map (fun ks =>
    BitVec.ofNat 64 (leNat (ks.flatMap (fun e => loadBytes s E.ctx e.1 e.2))))

/-- Writes an element in its pieces. -/
def writeElem (g x : Nat) (s : State) (ks : List (Nat × Nat)) (v : DWord) : State :=
  (ks.foldl (fun (r : State × List Byte) e => (storeBytes x e.1 (r.2.take e.2) (reach (.engine g) true e.1 e.2 r.1), r.2.drop e.2))
    (s, leBytes 8 v.toNat)).1

/-- Element i of the result at rank r of a call with n members: none while data is missing, else its value and where it goes, or why it
fails. -/
def collPart (s : State) (E : Eng) (n r : Nat) (i : Nat) : Option (Except Cause (List (Nat × Nat) × DWord)) :=
  match E.kind with
  | .coll kind op t d a c g q =>
    let b := Ty.bytes t
    let own : Except Cause DWord := match ownIdx kind c n r i with | none => .ok 0 | some j => ownElem s E b (a + b * j)
    (match own with
     | .error c => some (.error c)
     | .ok own => (collElem kind op t c n r (callFrames s E.ctx g q) own i).map (fun v =>
         (elemKeys false s (engWho s E) E.mask true (elemPieces (d + b * i) b)).map (fun ks => (ks, v))))
  | _ => none

/-- A collective accesses its own elements. -/
def reachOwn (s : State) (E : Eng) : State :=
  match E.kind with
  | .coll kind _ t _ a c g _ =>
    (match collGroup s E.ctx g with
     | none => s
     | some (n, r, _) =>
       let b := Ty.bytes t
       (List.range (collSizes kind c n r).1).foldl (fun s j => match elemKeys false s (engWho s E) E.mask false (elemPieces (a + b * j) b) with
         | .ok ks => ks.foldl (fun s e => reach (.engine E.group) false e.1 e.2 s) s
         | .error _ => s) s)
  | _ => s

/-- A step of a collective: of the elements whose data is here, those picked are written; where the two ranges meet, all go together once
all data is here. None while it can do nothing. -/
def collStep (s : State) (E : Eng) : Option EngRun :=
  let s := reachOwn s E
  match E.kind with
  | .coll kind op t d a c g q =>
    (match collGroup s E.ctx g with
     | none => some { st := s, done := E.done, wrote := [], cause := some .page }
     | some (n, r, _) =>
       let b := Ty.bytes t
       let z := collSizes kind c n r
       if (callFrames s E.ctx g q).any (frameBad kind op t c n) then
         some { st := s, done := E.done, wrote := [], cause := some .collectiveMismatch }
       else
         let rest := (List.range z.2).filter (fun i => !E.done.contains i)
         let ready := rest.filterMap (fun i => (collPart s E n r i).map (fun v => (i, v)))
         let whole := meets a (b * z.1) d (b * z.2)
         if ready.isEmpty || (whole && decide (ready.length < rest.length)) then none
         else
           let go := pickParts s.fresh whole (ready.map (·.1))
           let rd := ready.filter (fun e => go.contains e.1)
           let bad := rd.findSome? (fun e => match e.2 with | .error c => some c | .ok _ => none)
           let ok := (rd.filterMap (fun e => match e.2 with | .ok x => some (e.1, x) | .error _ => none)).filter (fun e =>
             !whole || bad.isNone || Config.freeBool s.fresh e.1)
           some { st := (ok.foldl (fun s e => writeElem E.group E.ctx s e.2.1 e.2.2) s).tick, done := E.done ++ ok.map (·.1), wrote := [], cause := bad })
  | _ => none

/-- The parts of an engine instruction. -/
def partCount (s : State) (E : Eng) : Nat :=
  match E.kind with
  | .coll kind _ _ _ _ c g _ => (match collGroup s E.ctx g with | some (n, r, _) => (collSizes kind c n r).2 | none => 0)
  | k => (engParts k).length

/-- The frames of a finished call are gone. -/
def dropFrames (E : Eng) (s : State) : State :=
  match E.kind with
  | .coll _ _ _ _ _ _ g q =>
    { s with frames := s.frames.filter (fun (y, bs) => !(y == E.ctx && (match readFrame bs with
        | some f => f.grp == g && f.seq == q
        | none => false))) }
  | _ => s

end Sys2Proof.Machine
end

