-- ==== Sys2Proof/Machine/Entry.lean ====
section
/-! DEFINITION. How a group comes to run: kernel parameters (R187, R289), entry at the kernel's first block (R156), stamps
(R231, R232), spill areas and room on a core (R13, R151, R152, R292). -/

namespace Sys2Proof.Machine
open Sys2Proof

/-! ### Kernel parameters (R187, R289) -/

/-- Bytes of a parameter in the parameter block: at least 4. -/
def paramSize : TyD → Nat
  | .ty t => max 4 (Ty.bytes t)
  | .arr e l => max 4 (Ty.bytes e * (l.toNat + 1))
  | .s8 => 8

/-- A legal parameter type: every type but tok and acc (R21). -/
def paramOk : TyD → Bool
  | .ty .tok | .ty .acc => false
  | _ => true

/-- The offsets of parameters, and the offset past the last. -/
def paramOffsets : Nat → List TyD → List (Nat × TyD) × Nat
  | o, [] => ([], o)
  | o, t :: r =>
    let a := (o + paramSize t - 1) / paramSize t * paramSize t
    let (ps, e) := paramOffsets (a + paramSize t) r
    ((a, t) :: ps, e)

/-- The parameter types of the kernel at fn: none when block 0's header is not well formed or has a type no parameter has. -/
def paramTypes (s : State) (fn : Nat) : Option (List TyD) :=
  match readHeader (codeWords s (fn + 0x20) (imgClen s fn)) with
  | some (_, ts, _) => if (codeWord s (fn + 0x20)).extractLsb' 24 8 = 0x0F ∧ ts.all paramOk then some ts else none
  | none => none

/-- The number in n bytes of a parameter block from offset o. -/
def blockNat (bs : List Byte) (o n : Nat) : Nat := leNat ((bs.drop o).take n)

/-- A parameter's value, the same in every lane; a ref parameter has no tag. -/
def paramVal (bs : List Byte) (e : Nat × TyD) : Val :=
  match e.2 with
  | .ty .ref => .ref (BitVec.ofNat 64 (blockNat bs e.1 8)) false
  | .arr t l => .arr ((List.range (l.toNat + 1)).map (fun i => BitVec.ofNat 64 (blockNat bs (e.1 + Ty.bytes t * i) (Ty.bytes t))))
  | .ty .b1 => .bits (BitVec.ofNat 64 (blockNat bs e.1 4 % 2))
  | .ty t => .bits (BitVec.ofNat 64 (blockNat bs e.1 (Ty.bytes t)))
  | .s8 => .bits (BitVec.ofNat 64 (blockNat bs e.1 8))

/-- The kernel's arguments in every lane. -/
def kernelArgs (s : State) (L : Launch) : List (List Val) :=
  match paramTypes s L.kaddr with
  | none => []
  | some ts => (paramOffsets 0 ts).1.map (fun e => List.replicate 128 (paramVal L.params e))

/-! ### A new group -/

/-- A side that enters the function at fn with all its lanes, cleared flags and call depth 0. -/
def entrySide (s : State) (fn : Nat) (m : Mask) (args : List (List Val)) : Side :=
  let c : SideCore := { mask := m, frames := [entryFrame (blocksOf s fn) fn m args], view := View.reset, joins := [] }
  Side.begin c none .running

/-- A group of a block that has not yet a core. -/
def newGroup (b gid : Nat) (S : Side) : Group :=
  { block := b, gid := gid, core := 0, slot := 0, resident := false, stamp := 0, st := .travelling, wside := 0, sides := [S],
    toks := [], acc := none, native := none, held := none, stepping := none, spill := 0, spillLen := 0, handler := false,
    seg := 0, rank := 0, translation := none, doomed := none, wbuf := [], early := [] }

/-- A translation fault of group g at a portable address (R43, R155). -/
def xlatFault (g : Nat) (c : Cause) (pc : Nat) (s : State) : State :=
  match s.groups[g]? with
  | none => s
  | some G => faultAt g 0 c pc none 0 (countEv (groupCtx s G) 0x44 1 s)

/-- The functions that a list of frames runs in, each with its callers: the innermost first. -/
def fnTails : List Nat → List (List Nat)
  | [] => []
  | f :: r => (f :: r) :: fnTails r

/-- What a group's sides run in: every frame's function with its callers. -/
def Group.entries (G : Group) : List (List Nat) := uniq (G.liveSides.flatMap (fun S => fnTails S.core.fns))

/-- Frames with the translation that each runs under. -/
def stampFrames (look : List Nat → Option Nat) : List Frame → List Frame
  | [] => []
  | F :: r => { F with xlat := look (F.fn :: r.map (·.fn)) } :: stampFrames look r

/-- Every frame of a side's state with its translation. -/
def SideCore.stamped (look : List Nat → Option Nat) (c : SideCore) : SideCore := { c with frames := stampFrames look c.frames }

/-- The translation of a key is written. -/
def XSt.isOk : XSt → Bool
  | .ok _ _ => true
  | _ => false

/-- Where side S goes on under another translation than before, at an address at which that one has no MARK and no resume fragment yet
(R403): translation and word offset. -/
def newFragment (s : State) (num : List Nat → Option Nat) (S : Side) : Option (Nat × Nat) :=
  match S.core.frames with
  | [] => none
  | F :: r =>
    match F.xlat, num (F.fn :: r.map (·.fn)) with
    | some y, some x =>
      let off := (F.pc - F.fn - 0x20) / 4
      let placed : Bool := ((s.xlats[x]?).bind (·.code)).any (fun c => c.marks.contains off || c.frags.contains off)
      if x = y ∨ placed = true then none else some (x, off)
    | _, _ => none

/-- Resume fragments are built beside their translations, each counted once (R403). -/
def addFragments (x : Nat) (fs : List (Nat × Nat)) (s : State) : State :=
  fs.foldl (fun s f => countEv x 0x43 1 { s with
    xlats := modifyAt (fun t => { t with code := t.code.map (fun c => { c with frags := c.frags ++ [f.2] }) }) s.xlats f.1 }) s

/-- The group enters the functions that it stands in under their keys, that of its first side's pc first: it waits on a translation
that is not written, receives a fault, or is Ready (R43, R156, R157). -/
def enterTranslation (g : Nat) (s : State) : State :=
  match s.groups[g]? with
  | none => s
  | some G =>
    match launchOfBlk s G.block, G.entries with
    | some L, k :: ks =>
      let s := s.updGroup g (fun G => { G with st := .ready, translation := none })
      let look := fun (k : List Nat) => findXlat s G L k
      (match (k :: ks).find? (fun k => !((look k).any (fun e => e.2.st.isOk))) with
       | some j =>
         (match look j with
          | some (_, { st := .failed a c, .. }) => xlatFault g c (j.headD 0 + a) s
          | _ => missTranslation g j s)
       | none =>
         let num := fun (k : List Nat) => (look k).map (·.1)
         let hit := (k :: ks).filterMap num
         let xs := s.xlats.zipIdx.map (fun (t, i) => if hit.contains i then { t with used := s.time } else t)
         let put : Side → Side := fun S => { S with core := S.core.stamped num, mark := S.mark.stamped num }
         (addFragments L.ctx (uniq (G.liveSides.filterMap (newFragment s num))) { s with xlats := xs }).updGroup g (fun G =>
           { G with translation := num k, sides := G.sides.map put }))
    | _, _ => s

/-- The pages of an instruction store of 256 KiB (R153). -/
def storePages : Nat := 64

/-- The pages of a translation's bundles. -/
def xlatPages (s : State) (x : Nat) : Nat :=
  match (s.xlats[x]?).bind (·.code) with | some c => (32 * c.bundles.length + 4095) / 4096 | none => 0

/-! ### Stamps (R231, R232) -/

/-- The stamps of the context's groups that have not ended. -/
def stampsOf (s : State) (x : Nat) : List Nat :=
  s.groups.filterMap (fun G => if groupCtx s G = x ∧ G.st ≠ .ended ∧ G.stamp ≠ 0 then some G.stamp.toNat else none)

/-- The lowest number from n that is not in a list. -/
def lowestFree (used : List Nat) : Nat → Nat → Nat
  | 0, n => n
  | f + 1, n => if used.contains n then lowestFree used f (n + 1) else n

/-- A free stamp: none when 65,535 are in use. -/
def freeStamp (s : State) (x : Nat) : Option Half :=
  let used := stampsOf s x
  let n := lowestFree used used.length 1
  if 65535 < n then none else some (BitVec.ofNat 16 n)

/-- Whether n more stamps are free. -/
def stampsFree (s : State) (x n : Nat) : Bool := decide ((stampsOf s x).length + n ≤ 65535)

/-! ### Scratchpad at a start (R281, R322) -/

/-- At the start of a block each word of n bytes of core c's scratchpad from offset o is zero or keeps the value it had, by free
choice, word by word (R281). -/
def startWords (c o n : Nat) (s : State) : State :=
  { s with mem := NMap.keep (fun k =>
      !(decide (keyScratch c o ≤ k) && decide (k < keyScratch c o + n)) || Config.freeBool s.fresh (k / 4)) s.mem }.tick

/-! ### A context that comes to a die (R6, R202, R299) -/

/-- A context has a group resident on a core. -/
def ctxResident (s : State) (x : Nat) : Bool := (groupsOf s x).any (fun g => match s.groups[g]? with | some G => G.resident | none => false)

/-- Context x begins to run on die d when a group of it takes a slot there and none had one (R6, R299). -/
def startsOn (x d : Nat) (s : State) : State :=
  if (groupsOf s x).any (fun g => match s.groups[g]? with | some G => G.resident && decide (dieOf G.core = d) | none => false) then s
  else { s with ctxs := modifyAt (fun C => { C with resumed := modifyAt (fun _ => s.time) C.resumed d }) s.ctxs x }

/-- A new seed takes effect before the context comes back to a core. -/
def seedWaits (s : State) (x : Nat) : Bool := (ctxAt s x).newSeed.isSome && !ctxResident s x

/-! ### Room on a core (R13, R151, R152, R292) -/

/-- The spill area of a group of launch L on a die: the frame reserve alone while no translation is written (R151, R416). R151 does not say
which of the translations that a group runs sizes the area: the model takes the kernel's slots and entries, and what a callee's need
beyond them falls on the divergence stack and the frame reserve (DESIGN CHOICE, log entry 70). -/
def spillArea (s : State) (L : Launch) (d seg : Nat) : Nat :=
  L.frame +
    (match s.xlats.find? (fun t => t.keyed s L d seg [L.kaddr]) with
     | some t => (match t.st with | .ok slots stk => 512 * slots + 48 * stk | _ => 0)
     | none => 0)

/-- The die of a launch that names one. -/
def launchDie (L : Launch) : Nat := ((List.range 4).find? (fun d => L.dies.getLsbD d)).getD 0

/-- The group limit of a segment core: min(32, ⌊(1,048,576 − FRET) / A⌋) (R334). -/
def travelLimit (s : State) (L : Launch) (sg : Nat) : Nat :=
  let a := spillArea s L (launchDie L) sg
  if a = 0 then 32 else min 32 ((1048576 - imgShared s L.kaddr) / a)

/-- A core that a travel launch holds or has claimed (R325). -/
def Launch.cores (L : Launch) : List Nat :=
  match L.travel with
  | none => []
  | some T =>
    let d := (List.range 4).find? (fun d => L.dies.getLsbD d)
    let all := T.rsrv.toNat
    let bits := (List.range 64).filter (fun c => decide (all / 2 ^ c % 2 = 1) || T.mapw.any (fun w => decide (w.toNat / 2 ^ c % 2 = 1)))
    bits.map (fun c => dieBase (d.getD 0) + c)

/-- The groups resident on a core. -/
def residents (s : State) (c : Nat) : List (Nat × Group) :=
  (s.groups.zipIdx.filter (fun (G, _) => G.resident && decide (G.core = c))).map (fun (G, g) => (g, G))

/-- The free resident-group slots of a core. -/
def freeSlots (s : State) (c : Nat) : List Nat :=
  (List.range 32).filter (fun i => !(residents s c).any (fun e => e.2.slot == i))

/-- The groups of context x that were suspended on core c and saved from there, block b's apart: their save regions stand until they resume
(R135). -/
def savedGroups (s : State) (x : Nat) (b : Option Nat) (c : Nat) : List Group :=
  (s.groups.zipIdx.filter (fun (G, g) => G.st == .suspended && !G.resident && decide (G.core = c) && decide (groupCtx s G = x)
    && decide (b ≠ some G.block) && !(s.recs.any (fun r => r.group == g)))).map (·.1)

/-- The slots of core c that a group of context x may take: free, and with no save region that stands, block b's apart (R135). -/
def freeSlotsFor (s : State) (x : Nat) (b : Option Nat) (c : Nat) : List Nat :=
  (freeSlots s c).filter (fun i => !(savedGroups s x b c).any (fun G => G.slot == i))

/-- A block still holds its scratchpad parts. -/
def Block.holds (B : Block) : Bool := B.st == .running || B.st == .draining

/-- A copy into the region of core c by a group of a travel launch's block b is in flight (R203). -/
def regionBusy (s : State) (b c : Nat) : Bool :=
  s.engs.any (fun E => (match s.groups[E.group]? with | some G => decide (G.block = b) && decide (G.core = c) | none => false)
    && (engMoves E.kind).any (fun m => decide (m.dst / 2 ^ 40 = 0xFF) || decide (m.src / 2 ^ 40 = 0xFF)))

/-- The ranges of a core's scratchpad in use: parts of blocks, regions of travel launches that a copy in flight reaches (R203), and spill
areas of resident groups. -/
def usedRanges (s : State) (c : Nat) : List (Nat × Nat) :=
  s.blocks.zipIdx.filterMap (fun (B, b) =>
    match s.launches[B.launch]? with
    | none => none
    | some L =>
      if L.travel.isSome then (if L.cores.contains c && regionBusy s b c then some (0, scratchBytes) else none)
      else if B.core ≤ c ∧ c < B.core + 2 ^ L.crewLog
          ∧ (partBusy s b (c - B.core) || (B.holds && !partReleased s b (c - B.core) ((imgFhdr s L.kaddr).getLsbD 6))) then
        some (B.part, partSize (imgShared s L.kaddr) L.crewLog)
      else none)
  ++ (residents s c).map (fun e => (e.2.spill, e.2.spillLen))

/-- The ranges of core c's scratchpad that context x may not take: those in use, and those whose saved bytes stand, block b's apart (R135,
R302). -/
def heldRanges (s : State) (x : Nat) (b : Option Nat) (c : Nat) : List (Nat × Nat) :=
  usedRanges s c ++ (savedGroups s x b c).map (fun G => (G.spill, G.spillLen))
  ++ s.blocks.zipIdx.filterMap (fun (B, i) =>
    match s.launches[B.launch]? with
    | none => none
    | some L =>
      if B.st ≠ .suspended ∨ L.ctx ≠ x ∨ b = some i then none
      else if L.travel.isSome then (if L.cores.contains c then some (0, scratchBytes) else none)
      else if B.core ≤ c ∧ c < B.core + 2 ^ L.crewLog then some (B.part, partSize (imgShared s L.kaddr) L.crewLog)
      else none)

/-- n bytes from o are free. -/
def rangeFree (used : List (Nat × Nat)) (o n : Nat) : Bool :=
  decide (o + n ≤ scratchBytes) && used.all (fun r => decide (r.1 + r.2 ≤ o ∨ o + n ≤ r.1))

/-- The lowest offset at which n bytes are free. -/
def firstFit (used : List (Nat × Nat)) (n : Nat) : Option Nat :=
  let cs := (0 :: used.map (fun r => r.1 + r.2)).filter (fun o => rangeFree used o n)
  match cs with
  | [] => none
  | c :: r => some (r.foldl min c)

end Sys2Proof.Machine
end

