-- ==== Sys2Proof/Machine/Tiles.lean ====
section
/-! DEFINITION. Saved tiles (R117, R134, R135), and the events of the matrix unit (R117, R118, R133, R306, R401). -/

namespace Sys2Proof.Machine
open Sys2Proof

/-! ### The layout of a saved tile (R135) -/

/-- Little-endian bytes of 4,096 words. -/
def wordsBytes (ws : List Word) : List Byte := ws.flatMap (fun w => leBytes 4 w.toNat)

/-- 64 scales of one byte each. -/
def scaleBytes (e : NMap Int) : List Byte := (denseFrom 0 e 64 0).map (fun i => BitVec.ofInt 8 i)

/-- The 33,792 bytes of a tile. -/
def Tile.bytes (T : Tile) : List Byte :=
  wordsBytes (dense T.el) ++ wordsBytes (dense T.res) ++ leBytes 1 T.ctr ++ scaleBytes T.eA ++ scaleBytes T.eB ++ List.replicate 895 0

/-- Words in bytes. -/
def bytesWords : Nat → List Byte → List Word
  | 0, _ => []
  | n + 1, bs => BitVec.ofNat 32 (leNat (bs.take 4)) :: bytesWords n (bs.drop 4)

/-- Scales in bytes, from index k. -/
def bytesScales (k : Nat) : List Byte → NMap Int
  | [] => []
  | b :: r => if b = 0 then bytesScales (k + 1) r else (k, b.toInt) :: bytesScales (k + 1) r

/-- A tile restored bit for bit from its bytes; it keeps its latest completion token (R134). -/
def Tile.ofBytes (T : Tile) (bs : List Byte) : Tile :=
  { T with st := .heldIdle, flight := [], el := sparseFrom 0 (bytesWords 4096 bs), res := sparseFrom 0 (bytesWords 4096 (bs.drop 16384)),
           ctr := leNat ((bs.drop 32768).take 1), eA := bytesScales 0 ((bs.drop 32769).take 64),
           eB := bytesScales 0 ((bs.drop 32833).take 64) }

/-- Context x writes a tile at key k; its poisoned elements are poisoned there (R400). -/
def writeTile (x k : Nat) (T : Tile) (s : State) : State :=
  let s := storeBytes x k T.bytes s
  { s with poison := T.bad.foldl (fun m i => NMap.set false m (k / 4 + i) true) s.poison }

/-- The tile that context x reads at key k. -/
def readTile (s : State) (x k : Nat) (T : Tile) : Tile :=
  { T.ofBytes (loadBytes s x k 33792) with
    bad := (List.range 4096).filter (fun i => NMap.get false s.poison (k / 4 + i) || NMap.get false s.poison (k / 4 + 4096 + i)) }

/-- Storage key of the save region of the group in slot g of core c (R135, R351). -/
def groupRegion (s : State) (x c g : Nat) : Nat := (ctxAt s x).save + 1572864 * 208 + 409600 * (32 * c + g)

/-- Storage key of tile t in the save region of the group in slot g of core c (R135). -/
def tileRegion (s : State) (x c g t : Nat) : Nat :=
  groupRegion s x c g + 139264 + 33792 * t

/-- Storage key of slot i of the context's tile save pool (R135, R351). -/
def poolSlot (s : State) (x i : Nat) : Nat := (ctxAt s x).rsvd + 0x100000 + 33792 * i

/-- The lowest n free slots of the pool: none when fewer are free. -/
def poolTake (s : State) (x n : Nat) : Option (List Nat) :=
  let used := (ctxAt s x).pool
  let free := ((List.range (used.length + n)).filter (fun i => decide (i < 1664) && !used.contains i)).take n
  if free.length = n then some free else none

/-- Changes the tiles of a group, as it stands and as of its MARKs. -/
def updTiles (g : Nat) (f : AccSet → AccSet) (s : State) : State :=
  s.updGroup g (fun G => { G with acc := G.acc.map f, sides := G.sides.map (fun S => { S with markTiles := S.markTiles.map f }) })

/-- A tile in Saved state. -/
def Tile.toSaved (T : Tile) : Tile := { T with st := .saved }

/-- Tile t of group g is written to its region and becomes Saved (R117). -/
def saveTile (g t : Nat) (s : State) : State :=
  match s.groups[g]? with
  | none => s
  | some G =>
    match (G.acc.bind (fun A => A.tiles[t]?)) with
    | none => s
    | some T =>
      let x := groupCtx s G
      updTiles g (fun A => { A with tiles := modifyAt Tile.toSaved A.tiles t })
        (writeTile x (tileRegion s x G.core G.slot t) T s)

/-- Every held idle tile of a group is saved to its region (R134). -/
def saveTiles (g : Nat) (s : State) : State :=
  match (s.groups[g]?).bind (fun G => G.acc) with
  | none => s
  | some A => (A.tiles.zipIdx.filter (fun (T, _) => T.st == .heldIdle)).foldl (fun s e => saveTile g e.2 s) s

/-- Where the bytes of Saved tile t of a group stand: in its pool slot, else in its region. -/
def savedKey (s : State) (x : Nat) (G : Group) (A : AccSet) (t : Nat) : Nat :=
  match A.pool[t]? with
  | some i => poolSlot s x i
  | none => tileRegion s x G.core G.slot t

/-- The Saved tiles of a group are restored; pool slots are freed (R117, R118, R135). -/
def restoreTiles (g : Nat) (s : State) : State :=
  match s.groups[g]? with
  | none => s
  | some G =>
    let x := groupCtx s G
    let pool := match G.acc with | some A => A.pool | none => []
    let s' := updTiles g (fun A => { tiles := A.tiles.zipIdx.map (fun (T, t) =>
      if T.st = .saved then readTile s x (savedKey s x G A t) T else T), pool := [] }) s
    { s' with ctxs := modifyAt (fun C => { C with pool := C.pool.filter (fun i => !pool.contains i) }) s'.ctxs x }

/-- Tile t as it is kept: of a Saved one, what its place in memory holds. -/
def keptTile (s : State) (x : Nat) (G : Group) (A : AccSet) (t : Nat) (T : Tile) : Tile :=
  if T.st = .saved then readTile s x (savedKey s x G A t) T else T

/-- The Saved tiles of group g, which has taken its seat since state s0, come with it: they are restored where its core has tiles free, else they
stand in its new region until it is served (R118, R135); those in the pool stay there. -/
def seatTiles (s0 : State) (g : Nat) (s : State) : State :=
  match s0.groups[g]?, s.groups[g]? with
  | some G0, some G =>
    (match G0.acc with
     | none => s
     | some A =>
       let x := groupCtx s0 G0
       let kept := A.tiles.zipIdx.map (fun (T, t) => keptTile s0 x G0 A t T)
       if !A.anySaved then s
       else if !(nth Core.reset s.cores G.core).matrixReset ∧ usedTiles s G.core + (A.tiles.filter (fun T => T.st == .saved)).length ≤ coreTiles then
         let s := updTiles g (fun _ => { tiles := kept, pool := [] }) s
         { s with ctxs := modifyAt (fun C => { C with pool := C.pool.filter (fun i => !A.pool.contains i) }) s.ctxs x }
       else if !A.pool.isEmpty then s
       else (kept.zipIdx.zip A.tiles).foldl (fun s e => if e.2.st = .saved then writeTile x (tileRegion s x G.core G.slot e.1.2) e.1.1 s else s) s)
  | _, _ => s

/-- How many pool slots the set of a group takes that leaves its core: none where it stands in the pool already. -/
def poolNeed (G : Group) : Nat := match G.acc with | some A => if A.pool.isEmpty then A.tiles.length else 0 | none => 0

/-- The tiles of group G written to slots of the pool of context x, wherever they stand. -/
def poolTiles (x : Nat) (G : Group) (slots : List Nat) (s : State) : State :=
  match G.acc with
  | none => s
  | some A => (A.tiles.zipIdx.zip slots).foldl (fun t (e, i) => writeTile x (poolSlot s x i) (keptTile s x G A e.2 e.1) t) s

/-- The set as the pool holds it. -/
def AccSet.pooled (slots : List Nat) (A : AccSet) : AccSet :=
  { tiles := A.tiles.map Tile.toSaved, pool := if A.pool.isEmpty then slots else A.pool }

/-! ### Events -/

/-- A group waits in a barrier, a token wait, a signal wait, a sleep or a yield, in every side (R117). -/
def Group.blocked (G : Group) : Bool :=
  (match G.st with | .waiting _ _ => true | _ => false) &&
    G.waits.all (fun e => match e.2.1 with | .barrier _ _ | .tokens _ | .signal _ | .sleep _ | .yielding _ _ => true | _ => false)

/-- A group of context x that is granted a fresh set. -/
def Group.granted (x need : Nat) (G : Group) : Group := { G with acc := some (freshSet x need) }

/-- Group g waits for tiles. -/
def wantsTiles (s : State) (g : Nat) : Bool :=
  match (s.groups[g]?).map Group.st with
  | some (.waiting (.accAcq _) _) | some (.waiting .restore _) => true
  | _ => false

/-- ACC_GRANT (R117): the request at the head is served when enough tiles are free; requests of groups that no longer wait
are dropped. A restore at the head is served by TILE_RESTORE. -/
def execAccGrant (c : Nat) (s : State) : Out :=
  .next (
    let C := nth Core.reset s.cores c
    match C.accQueue with
    | [] => s
    | g :: r =>
      let pop := { s with cores := modifyAt (fun C => { C with accQueue := r }) s.cores c }
      match s.groups[g]? with
      | none => pop
      | some G =>
        match G.st with
        | .waiting (.accAcq need) _ =>
          if C.matrixReset ∨ coreTiles < usedTiles s c + need then s
          else resumeWait g G.wside .done (pop.updGroup g (Group.granted (groupCtx s G) need))
        | .waiting .restore _ => s
        | _ => pop)

/-- TILE_SAVE (R117): an idle tile of a blocked group is saved while the request at the head of its core waits for tiles. -/
def execTileSave (g t : Nat) (s : State) : Out :=
  .next (match s.groups[g]? with
    | none => s
    | some G =>
      let C := nth Core.reset s.cores G.core
      let idle : Bool := match G.acc with | none => false | some A => A.tiles.all (fun T => T.flight.isEmpty)
      let wanted := C.accQueue.head?.any (wantsTiles s)
      match G.acc.bind (fun A => A.tiles[t]?) with
      | some T => if G.resident ∧ wanted ∧ idle ∧ G.blocked ∧ T.st = .heldIdle then saveTile g t s else s
      | none => s)

/-- A group whose restore has been served goes on; one that has just arrived enters its translation (R156, R337). -/
def afterRestore (g : Nat) (s : State) : State :=
  match s.groups[g]? with
  | some G => if G.native.isNone ∧ G.translation.isNone then enterTranslation g (wake g s) else wake g s
  | none => s

/-- Group g is to issue on its core: with Saved tiles it waits for them among the requests of the core, ahead of those not yet served where it
was here before, else behind them (R117, R135); it enters its translation afterwards. -/
def awaitTiles (ahead : Bool) (g : Nat) (s : State) : State :=
  match s.groups[g]? with
  | some G =>
    if G.acc.any AccSet.anySaved then
      { s.updGroup g (fun G => { G with st := .waiting .restore s.time, wside := 0, translation := none }) with
        cores := modifyAt (fun C =>
          let q := C.accQueue.filter (fun h => decide (h ≠ g))
          { C with accQueue := if ahead then g :: q else q ++ [g] }) s.cores G.core }
    else if G.native.isSome then s
    else enterTranslation g s
  | none => s

/-- TILE_RESTORE (R117, R118, R135): the group at the head of its core's requests, whose matrix instruction or whose arrival waits for its
Saved tiles, gets them back. -/
def execTileRestore (g : Nat) (s : State) : Out :=
  .next (match s.groups[g]? with
    | none => s
    | some G =>
      match G.st, G.acc with
      | .waiting .restore _, some A =>
        let need := (A.tiles.filter (fun T => T.st == .saved)).length
        let C := nth Core.reset s.cores G.core
        if C.matrixReset ∨ C.accQueue.head? ≠ some g ∨ coreTiles < usedTiles s G.core + need then s
        else afterRestore g (restoreTiles g { s with cores := modifyAt (fun C => { C with accQueue := C.accQueue.tail }) s.cores G.core })
      | _, _ => s)

/-- TILE_WRITE_COMPLETE (R118): the oldest write in flight on tile t completes, and its completion token with it. -/
def execTileWriteComplete (g t : Nat) (s : State) : Out :=
  .next (match (s.groups[g]?).bind (fun G => G.acc.bind (fun A => A.tiles[t]?)) with
    | some T => (match T.flight with | e :: _ => completeToken e s | [] => s)
    | none => s)

/-- A step on core c has not completed 1 ms after it started (R304). -/
def matrixHung (s : State) (c : Nat) : Bool :=
  s.engs.any (fun E => (match E.kind with | .tile _ => true | _ => false) && decide (E.since + 1000000 ≤ s.time)
    && (match s.groups[E.group]? with | some G => decide (G.core = c) | none => false))

/-- The portable address at which the group's side stands. -/
def waitPc (G : Group) : Nat :=
  match (G.sides[G.wside]?).map (fun S => S.core.frames) with
  | some (F :: _) => F.pc
  | _ => 0

/-- The groups with a Held tile on core c, those that have ended with a step in flight among them. -/
def heldOwners (s : State) (c : Nat) : List Nat :=
  (s.groups.zipIdx.filter (fun (G, _) => (G.resident || G.st == .ended) && decide (G.core = c)
    && (match G.acc with | some A => A.tiles.any (fun T => T.st == .heldIdle || T.st == .heldBusy) | none => false))).map (·.2)

/-- The steps of group g in flight are gone with the matrix unit. -/
def dropSteps (g : Nat) (s : State) : State :=
  let tw := tileWrites s g
  ({ s with engs := s.engs.filter (fun e => !tw.contains e.id) } : State).updGroup g (fun G => { G with
    acc := none, toks := G.toks.map (fun t => if tw.contains t.e ∧ t.st = .pending then { t with st := .complete } else t) })

/-- Group g loses its Held tiles on core c, and receives the accumulator-lost fault. -/
def loseTiles (c g : Nat) (s : State) : State :=
  let s := updTiles g (fun A => { A with tiles := A.tiles.map (fun T => if T.st = .saved then T else { T with st := .lost }) }) s
  match s.groups[g]? with
  | some G => if G.st = .ended then dropSteps g s else faultAt g G.wside .accumulatorLost (waitPc G) none (BitVec.ofNat 64 c) s
  | none => s

/-- MATRIX_UNIT_RESET (R133, R304, R401): the Held tiles of the core become Lost, and their owners receive the
accumulator-lost fault; Saved tiles are untouched. -/
def execMatrixUnitReset (c : Nat) (s : State) : Out :=
  .next (if !matrixHung s c then s
    else (heldOwners s c).foldl (fun s g => loseTiles c g s)
      { s with cores := modifyAt (fun C => { C with matrixReset := true }) s.cores c })

/-- MATRIX_RESET_COMPLETE (R401): the unit serves requests again. -/
def execMatrixResetComplete (c : Nat) (s : State) : Out :=
  .next { s with cores := modifyAt (fun C => { C with matrixReset := false }) s.cores c }

/-- BALLAST_STEP (R306, R402): an array step with zero operands under no context. It writes no tile, raises no flag, its
result is discarded, and it never delays a real step: only the cluster's current changes, which is no state of the machine. -/
def execBallastStep (s : State) : Out := .next s

end Sys2Proof.Machine
end

