-- ==== Sys2Proof/Machine/Travel.lean ====
section
/-! DEFINITION. Travelling threads (R321 to R346): records, rings and parking, departure and arrival, replication, and the
meanings of `hop`, `post` and `trvmap`. -/

namespace Sys2Proof.Machine
open Sys2Proof

/-! ### Writing through a context's mapping -/

/-- Writes bytes at a virtual address of context x, 64 at a time, whatever the pages' write permission (R335): none when a
page of die store is not there. -/
def putVa (x : Nat) : Nat → Nat → List Byte → State → Option State
  | 0, _, _, s => some s
  | f + 1, va, bs, s =>
    if bs.isEmpty then some s
    else
      let n := 64 - va % 64
      match ctxKey s x va false with
      | none => none
      | some k => if isDS k then putVa x f (va + n) (bs.drop n) (storeBytes x k (bs.take n) s) else none

/-- All blocks of some bytes. -/
def putAll (x va : Nat) (bs : List Byte) (s : State) : Option State := putVa x (bs.length / 64 + 2) va bs s

/-! ### Records (R330, R331) -/

/-- Words of a value's record in a section; tok and acc values have none. -/
def recWords : TyD → Nat
  | .ty .tok | .ty .acc => 0
  | .arr e l => (l.toNat + 1) * (if e == .i64 then 2 else 1)
  | t => tyWords t

/-- Word k of a lane's value. -/
def recWord (t : TyD) (k : Nat) (v : Val) : Nat :=
  match v, t with
  | .arr es, .arr e _ => if e == .i64 then (nth 0 es (k / 2)).toNat / 2 ^ (32 * (k % 2)) % 2 ^ 32 else (nth 0 es k).toNat % 2 ^ 32
  | v, _ => v.tagBits.2.toNat / 2 ^ (32 * k) % 2 ^ 32

/-- The values of a frame that a record of some kind carries, with their types: those live at its pc; in a start record or a post every
parameter (R342, R345); in a capture none that is rematerialised (R410). -/
def frameVals (s : State) (kind : Nat) (F : Frame) : List (TyD × List Val) :=
  let bs := blocksOf s F.fn
  let capture : Bool := kind == 4
  let vs := if kind = 2 ∨ kind = 3 then List.range (match bs with | b :: _ => b.args.length | [] => 0)
    else liveAt bs ((F.pc - F.fn - 0x20) / 4)
  vs.filterMap (fun v =>
    match valTy bs v with
    | some t => if recWords t = 0 ∨ (capture && isConstDef bs v) = true then none else some (t, NMap.get [] F.vals v)
    | none => none)

/-- LMAP (R331): the index of the live map, in the side table of the segment in which the section goes on, whose PORT is the section's
address; a free value while the segment has no translation on the die (log entry 3), 0xFFFF in a capture (R410). -/
def lmapAt (s : State) (kind : Nat) (G : Group) (F : Frame) (callers : List Frame) : Nat :=
  if kind = 4 then 0xFFFF
  else
    let off := (F.pc - F.fn - 0x20) / 4
    let bs := blocksOf s F.fn
    let seg := ((blkAt bs off).bind (fun k => bs[k]?)).elim G.seg (·.seg)
    match (launchOfBlk s G.block).bind (fun L => ((s.xlats.find? (fun t => t.keyed s L (launchDie L) seg (F.fn :: callers.map (·.fn)))).bind (·.code)).bind (fun c =>
      (tableMaps c.table).findIdx? (fun m => m.port == off && !m.exit))) with
    | some i => i
    | none => Config.freeNat s.fresh 0

/-- The value area of values: 512 bytes for each 32-bit word, inactive lanes zero. -/
def valueArea (m : Mask) (vs : List (TyD × List Val)) : List Byte :=
  vs.flatMap (fun (t, ls) => (List.range (recWords t)).flatMap (fun k =>
    (List.range 128).flatMap (fun i => leBytes 4 (if m.getLsbD i then recWord t k (nth (.bits 0) ls i) else 0))))

/-- The tag area: 16 bytes for each ref value. -/
def tagArea (m : Mask) (vs : List (TyD × List Val)) : List Byte :=
  (vs.filter (fun v => v.1 == .ty .ref)).flatMap (fun (_, ls) =>
    leBytes 16 (maskOf (fun i => m.getLsbD i && (nth (.bits 0) ls i).tagBits.1)).toNat)

/-- Bytes padded with zeros to a multiple of 64. -/
def pad64 (bs : List Byte) : List Byte := bs ++ List.replicate ((64 - bs.length % 64) % 64) 0

/-- The address of a block's header for that of its first instruction; any other address stays. -/
def headAddr (s : State) (fn a : Nat) : Nat :=
  let bs := blocksOf s fn
  match (blkAt bs ((a - fn - 0x20) / 4)).bind (fun k => bs[k]?.map (fun b => (k, b))) with
  | some (k, b) => if blkStart bs fn k = a then fn + 0x20 + 4 * b.off else a
  | none => a

/-- TADDR (R331, R410): a record to run names the header of the block in which a side goes on, or the instruction behind a return's
fetches; a capture names the PORT of its MARK. -/
def targetAddr (s : State) (kind : Nat) (F : Frame) : Nat := if kind = 4 then F.pc else headAddr s F.fn F.pc

/-- REJ (R331): the header of the side's own rejoin block, past the join at which it stands (R177); zero for none. -/
def rejoinAddr (s : State) (S : Side) : Nat :=
  let js := (if S.status == .parked then S.core.joins.tail else S.core.joins).filter Join.own
  match js.head? with
  | some J =>
    (match J.at?, (S.core.frames.drop (S.core.frames.length - J.depth)).head? with
     | some a, some F => headAddr s F.fn a
     | _, _ => 0)
  | none => 0

/-- A section of a side of group G in a record of some kind (R331). -/
def sectionBytes (s : State) (kind : Nat) (G : Group) (S : Side) : List Byte :=
  match S.core.frames with
  | [] => []
  | F :: callers =>
    let vs := frameVals s kind F
    pad64 (leBytes 16 S.core.mask.toNat ++ leBytes 8 (targetAddr s kind F) ++ leBytes 8 (rejoinAddr s S) ++ leBytes 2 (lmapAt s kind G F callers) ++ leBytes 2 vs.length
      ++ leBytes 4 S.core.view.flags.toNat ++ leBytes 8 S.core.view.fev.toNat ++ List.replicate 16 0
      ++ valueArea S.core.mask vs ++ tagArea S.core.mask vs)

/-- The live sides that a record carries, the running one first (R327). -/
def carriedSides (G : Group) : List Side := G.liveSides

/-- The frames that stand at one depth of calls, with the lanes in which each does. -/
def framesAt (G : Group) (depth : Nat) : List (Mask × Frame) :=
  (carriedSides G).filterMap (fun S => (S.core.frames.tail.reverse[depth]?).map (fun F => (S.core.mask, F)))

/-- The calls around the deepest side of a group. -/
def callDepth (G : Group) : Nat := (carriedSides G).foldl (fun n S => max n (S.core.frames.length - 1)) 0

/-- The words of a caller's frame in a lane, slot by slot (R151). -/
def frameLane (s : State) (F : Frame) (i : Nat) : List Nat :=
  (frameLive s F).flatMap (fun (v, n) =>
    let wide : Bool := match valTy (blocksOf s F.fn) v with | some (.arr .i64 _) => true | _ => false
    (List.range n).map (fun k => (nth (.bits 0) (NMap.get [] F.vals v) i).word wide k))

/-- The frames of a group's callers, the outermost first, as they lie in the frame reserve (R151): live values in slots, lane by lane those of
the side that has the lane, then 32 bytes of return and divergence state, whose form no rule gives: free values (log entry 3). -/
def framesBytes (s : State) (G : Group) : List Byte :=
  (List.range (callDepth G)).flatMap (fun d =>
    let fs := framesAt G d
    let n := fs.foldl (fun n e => max n ((frameBytes s e.2 - 32) / 512)) 0
    let lanes := (List.range 128).map (fun i => match fs.find? (fun e => e.1.getLsbD i) with | some e => frameLane s e.2 i | none => [])
    (List.range n).flatMap (fun k => lanes.flatMap (fun ws => leBytes 4 (nth 0 ws k))) ++ (List.range 32).map (fun i => Config.freeByte s.fresh (i + 1)))

/-- The live token values of a group: of the current frames' live values and of the callers'. -/
def departToks (s : State) (G : Group) : List Nat :=
  G.toks.map (·.e) |>.filter (fun e => (liveToks s { G with sides := G.sides.map (fun S => { S with mark := S.core }) }).contains e)

/-- TOKS (R330): the Complete live tokens of a group by their number, in native state that of their register. -/
def tokBits (s : State) (G : Group) : Nat :=
  let live := departToks s G
  let num := fun (e i : Nat) => match G.native with | some N => N.k.findIdx (fun k => k == some e) | none => i
  (G.toks.zipIdx.filter (fun (t, _) => t.st == .complete && live.contains t.e)).foldl (fun n (t, i) => n ||| 2 ^ num t.e i) 0

/-- A record's bytes (R330). -/
def recBytes (s : State) (kind bid : Nat) (G : Group) : List Byte :=
  let secs := (carriedSides G).flatMap (sectionBytes s kind G)
  let frs := framesBytes s G
  let slots := match G.acc with | none => [] | some A => A.pool
  let body := pad64 (secs ++ frs)
  leBytes 4 (64 + body.length) ++ leBytes 1 kind ++ leBytes 1 (carriedSides G).length ++ leBytes 2 (if slots.isEmpty then 0 else 1)
    ++ leBytes 4 bid ++ leBytes 2 G.gid ++ leBytes 2 G.stamp.toNat ++ leBytes 4 (tokBits s G) ++ leBytes 4 frs.length
    ++ leBytes 4 (callDepth G) ++ List.replicate 4 0
    ++ (if slots.isEmpty then List.replicate 16 0
        else (List.range 8).flatMap (fun t => leBytes 2 (nth 0xFFFF slots t)))
    ++ List.replicate 16 0 ++ body

/-- The 64 bytes that begin a pad record of n bytes (R333). -/
def padBytes (n : Nat) : List Byte := leBytes 4 n ++ List.replicate 60 0

/-! ### Rings and parking (R333 to R336) -/

/-- Bytes of an arrival ring, and its local offset. -/
def ringBytes : Nat := 524288
/-- Its scratchpad offset. -/
def ringBase : Nat := 0x100000
/-- Bytes of a parking chunk. -/
def chunkBytes : Nat := 524288

/-- The records of launch l parked for core c, oldest first. -/
def parkedFor (s : State) (l c : Nat) : List Rec :=
  s.recs.filter (fun r => r.kind != 0 && !r.inRing && decide (r.launch = l) && decide (r.core = c))

/-- The chunks of launch l that hold records. -/
def chunksUsed (s : State) (l : Nat) : List Nat :=
  (s.recs.filter (fun r => r.kind != 0 && !r.inRing && decide (r.launch = l))).map (fun r => r.at_ / chunkBytes)

/-- The control chunk's bytes (R335). -/
def ctrlBytes (s : State) (l : Nat) (T : Travel) (d : Nat) : List Byte :=
  let fifo := fun (c : Nat) =>
    let rs := parkedFor s l (dieBase d + c)
    match rs.head?, rs.getLast? with
    | some h, some t => leBytes 4 (h.at_ / chunkBytes) ++ leBytes 4 (h.at_ % chunkBytes) ++ leBytes 4 (t.at_ / chunkBytes)
        ++ leBytes 4 ((t.at_ + t.rlen - 1) % chunkBytes + 1) ++ leBytes 8 rs.length ++ List.replicate 8 0
    | _, _ => List.replicate 32 0
  let used := chunksUsed s l
  let free := (List.range 2048).foldl (fun n i =>
    if i ≠ 0 ∧ i < T.psize / chunkBytes ∧ !used.contains i then n + 2 ^ i else n) 0
  T.mapw.flatMap (fun w => leBytes 8 w.toNat) ++ leBytes 8 T.ver ++ List.replicate (0x400 - 0x208) 0
    ++ (List.range 64).flatMap fifo ++ leBytes 256 free

/-- The control chunk brought up to date: none where its page is not mapped. -/
def putControl (l : Nat) (s : State) : Option State :=
  match s.launches[l]? with
  | none => some s
  | some L =>
    match L.travel with
    | none => some s
    | some T => putAll L.ctx T.pbase (ctrlBytes s l T (launchDie L)) s

/-- The control chunk is brought up to date behind an event that places nothing; an unmapped page stays as it is. -/
def syncControl (l : Nat) (s : State) : State := (putControl l s).getD s

/-- The control chunk of a launch that takes its cores: written whole, zero behind its fields (R335). -/
def openControl (l : Nat) (s : State) : State :=
  let s := syncControl l s
  match (s.launches[l]?).bind (fun L => L.travel.map (fun T => (L, T))) with
  | some (L, T) => (putAll L.ctx (T.pbase + 0xD00) (List.replicate (chunkBytes - 0xD00) 0) s).getD s
  | none => s

/-- Where a record may be parked for core c: the tail chunk of its FIFO when the record fits, else the lowest free chunk. -/
def parkAt (s : State) (l c n : Nat) (T : Travel) : Option Nat :=
  let fresh := ((List.range (T.psize / chunkBytes)).find? (fun i => i ≠ 0 && !(chunksUsed s l).contains i)).map (fun i => i * chunkBytes + 64)
  match (parkedFor s l c).getLast? with
  | some t => let e := t.at_ + t.rlen
              if e % chunkBytes ≠ 0 ∧ e % chunkBytes + n ≤ chunkBytes then some e else fresh
  | none => fresh

/-- The header of a chunk: NEXT and USED (R335). -/
def chunkHeader (next used : Nat) : List Byte := leBytes 4 next ++ leBytes 4 used ++ List.replicate 56 0

/-- Occupancy of a core's ring. -/
def occupancy (s : State) (c : Nat) : Nat := (nth Core.reset s.cores c).rtail - (nth Core.reset s.cores c).rhead

/-- The die distributor's mirror of a ring's RHEAD: less than 4 KiB behind it, by free choice (R333; log entry 3). -/
def mirrorHead (s : State) (c : Nat) : Nat :=
  let h := (nth Core.reset s.cores c).rhead
  if h = 0 then 0 else h - Config.freeNat s.fresh (1000 + c) % 4096

/-- Occupancy of a core's ring as the mirror has it. -/
def mirrored (s : State) (c : Nat) : Nat := (nth Core.reset s.cores c).rtail - mirrorHead s c

/-- place(record, c) (R336): into the ring, else into parking (the reservation of R340, with the true RHEAD, succeeds wherever the mirror of R333
has room); none is the travel overflow, which an unmapped page of the parking region that
the placement would write gives too (R324, R339). -/
def placeRec (l c kind g : Nat) (bs : List Byte) (s : State) : Option State :=
  match s.launches[l]? with
  | none => none
  | some L =>
    match L.travel with
    | none => none
    | some T =>
      let C := nth Core.reset s.cores c
      let n := bs.length
      let pos := C.rtail % ringBytes
      let pad := if ringBytes - pos < n then ringBytes - pos else 0
      if (parkedFor s l c).isEmpty ∧ mirrored s c + pad + n ≤ ringBytes then
        let s := if pad = 0 then s else storeBytes L.ctx (keyScratch c (ringBase + pos)) (padBytes pad) s
        let at_ := C.rtail + pad
        let s := storeBytes L.ctx (keyScratch c (ringBase + at_ % ringBytes)) bs s
        some { s with cores := modifyAt (fun C => { C with rtail := at_ + n }) s.cores c,
                      recs := s.recs ++ [{ kind := kind, launch := l, group := g, core := c, rlen := n, inRing := true, at_ := at_ }] }
      else
        match parkAt s l c n T with
        | none => none
        | some a =>
          let ch := a / chunkBytes * chunkBytes
          match putAll L.ctx (T.pbase + a) bs s with
          | none => none
          | some s1 =>
            match putAll L.ctx (T.pbase + ch) (chunkHeader 0 (a + n - ch - 64)) s1 with
            | none => none
            | some s2 =>
              -- the FIFO's former tail chunk names the new one
              let s3 := match (parkedFor s l c).getLast? with
                | some t =>
                  let o := t.at_ / chunkBytes * chunkBytes
                  if o = ch then some s2 else putAll L.ctx (T.pbase + o) (leBytes 4 (a / chunkBytes)) s2
                | none => some s2
              s3.bind (fun s3 => putControl l (chargeEv L.ctx 0x91 1 { s3 with
                recs := s3.recs ++ [{ kind := kind, launch := l, group := g, core := c, rlen := n, inRing := false, at_ := a }] }))

/-! ### Replica choice (R328) -/

/-- The set bits of a replica set, in increasing order. -/
def replicas (w : DWord) : List Nat := (List.range 64).filter (fun i => w.getLsbD i)

/-- The replica of least mirrored occupancy, ties to the lowest core (R328). -/
def leastReplica (s : State) (d : Nat) : List Nat → Option Nat
  | [] => none
  | c :: r =>
    match leastReplica s d r with
    | none => some c
    | some b => if mirrored s (dieBase d + c) ≤ mirrored s (dieBase d + b) then some c else some b

/-- The hash of R328. -/
def hopHash (k : Nat) : Nat := k * 0x9E3779B1 % 2 ^ 32

/-- The replica that a hash h names: bit number h[31:16] mod n. -/
def hashReplica (rs : List Nat) (h : Nat) : Option Nat := (rs.drop (h / 65536 % rs.length)).head?

/-- The target core of a record to segment sg. -/
def chooseCore (s : State) (L : Launch) (T : Travel) (sg bid gid : Nat) (mode : HopMode) (key : Word) : Option Nat :=
  let d := launchDie L
  let rs := replicas (nth 0 T.mapw sg)
  let r := match mode with
    | .hash => hashReplica rs (hopHash (bid * 256 + gid))
    | .key => hashReplica rs (hopHash key.toNat)
    | .least => leastReplica s d rs
    | .dflt => if T.least then leastReplica s d rs else hashReplica rs (hopHash (bid * 256 + gid))
  r.map (fun c => dieBase d + c)

/-! ### Occupancy and replication (R340) -/

/-- The travel state after core c's ring has been seen above the line, or not, at a time: times are kept plus 1. -/
def Travel.note (c now : Nat) (above? : Bool) (T : Travel) : Travel :=
  let since := NMap.get 0 T.above c
  { T with above := NMap.set 0 T.above c (if above? then (if since = 0 then now + 1 else since) else 0) }

/-- Since when the ring of core c has been above 393,216 bytes: kept from the crossing until it falls (R340). -/
def noteOccupancy (l c : Nat) (s : State) : State :=
  let above? := decide (393216 < occupancy s c)
  { s with launches := modifyAt (fun L => { L with travel := L.travel.map (Travel.note c s.time above?) }) s.launches l }

/-! ### Departure (R326, R327) -/

/-- A side parked at a segment exit. -/
def Side.exit? (S : Side) : Option (Nat × Nat × HopMode × Word) :=
  match S.status with
  | .atExit t sg m k => some (t, sg, m, k)
  | _ => none

/-- Inserts a side by its lowest lane. -/
def insertLane (S : Side) : List Side → List Side
  | [] => [S]
  | T :: r => if lowLane S.core.mask < lowLane T.core.mask then S :: T :: r else T :: insertLane S r

/-- The sides of a group with the departing one first, the others by lowest lane; ended sides last. -/
def departOrder (G : Group) : List Side :=
  let live := G.liveSides.foldl (fun l S => insertLane S l) []
  let ex := live.filter (fun S => S.exit?.isSome)
  match ex with
  | [] => G.sides
  | S :: _ => S :: live.filter (fun T => T != S) ++ G.sides.filter (fun T => !T.live)

/-- No side of the group can run here, and one is parked at an exit (R327). -/
def canDepart (G : Group) : Bool :=
  G.liveSides.all (fun S => S.exit?.isSome || S.status == .parked) && G.liveSides.any (fun S => S.exit?.isSome)

/-- Two exit sides to one target in one chain of calls. -/
def sameTarget (S T : Side) : Bool :=
  S.exit?.isSome && T.exit?.isSome && (S.core.frames.map (fun F => (F.fn, F.pc))) == (T.core.frames.map (fun F => (F.fn, F.pc)))

/-- Join J is met before join K on the way from frames in which both stand: it lies in a deeper call, or K post-dominates it. -/
def Join.before (s : State) (frames : List Frame) (J K : Join) : Bool :=
  if J.depth ≠ K.depth then decide (K.depth < J.depth)
  else
    match J.at?, K.at?, (frames.drop (frames.length - J.depth)).head? with
    | some a, some b, some F =>
      let bs := blocksOf s F.fn
      (match blkAt bs ((a - F.fn - 0x20) / 4), blkAt bs ((b - F.fn - 0x20) / 4) with
       | some i, some k => (nth [] (pdoms (cfgOf bs)) i).contains k
       | _, _ => false)
    | some _, none, _ => true
    | _, _, _ => false

/-- Puts join J among some, in the order in which they are met. -/
def insertJoin (s : State) (frames : List Frame) (J : Join) : List Join → List Join
  | [] => [J]
  | K :: r => if K.before s frames J then K :: insertJoin s frames J r else J :: K :: r

/-- The joins of a merged section: the first section's nesting, and the places at which sides parked for the other still stand (R327). -/
def mergeJoins (s : State) (c T : SideCore) : List Join :=
  (T.joins.filter (fun J => !c.joins.any (fun K => K.id == J.id))).foldl
    (fun js J => insertJoin s c.frames { J with own := false } js) c.joins

/-- The sides that travel to the first side's target merge into it, its nesting kept (R327). -/
def mergeExits (s : State) : List Side → List Side
  | [] => []
  | S :: r =>
    let same := r.filter (fun T => sameTarget S T)
    let core := same.foldl (fun (c : SideCore) T =>
      { c with mask := c.mask ||| T.core.mask, frames := mergeFrames T.core.mask c.frames T.core.frames,
               joins := mergeJoins s c T.core }) S.core
    { S with core := { core with view := viewOf (S :: same) } } :: r.filter (fun T => !sameTarget S T)

/-- The launch number of a group. -/
def launchIx (s : State) (G : Group) : Nat := match s.blocks[G.block]? with | some B => B.launch | none => 0

/-- Group G as its record takes it: its sides at their exits, its tiles saved in the pool, and the tokens that travel. -/
def departing (G : Group) (sides : List Side) (sg : Nat) (toks slots : List Nat) : Group :=
  { G with sides := sides, acc := G.acc.map (AccSet.pooled slots), seg := sg,
           toks := G.toks.filter (fun t => toks.contains t.e) }

/-- Group g has departed for core c as G: its record stands there, and it is on no core; its stores in scratchpad have been performed
(R224). -/
def departed (g l c x : Nat) (G : Group) (slots : List Nat) (s : State) : State :=
  let s := landMask 1 g { s with ctxs := modifyAt (fun C => { C with pool := C.pool ++ slots }) s.ctxs x }
  noteOccupancy l c (countEv x 0x90 1 (s.updGroup g (fun H =>
    { G with st := .travelling, resident := false, native := none, translation := none, wbuf := H.wbuf, early := [],
             sides := G.sides.map (fun S => { S with mark := S.core, markTiles := G.acc }) })))

/-- TRAVEL_DEPARTURE (R326): waits for live tokens, tile steps and pool slots; a Failed token, or a full parking region,
faults at the segment exit with no part of a record placed. -/
def execTravelDeparture (g : Nat) (s : State) : Out :=
  .next (match s.groups[g]? with
    | none => s
    | some G =>
      match launchOfBlk s G.block with
      | none => s
      | some L =>
        match L.travel with
        | none => s
        | some T =>
          let sides := mergeExits s (departOrder G)
          let toks := departToks s G
          match sides with
          | [] => s
          | S :: _ =>
            match S.exit? with
            | none => s
            | some (_, sg, mode, key) =>
              let sd := (G.sides.zipIdx.find? (fun (T, _) => T.exit?.isSome && T.core.mask.getLsbD (lowLane S.core.mask))).map (·.2) |>.getD 0
              let pc := match S.mark.frames with | F :: _ => F.pc | [] => 0
              if G.st ≠ .ready ∨ !canDepart G then s
              else
                match failedTok G toks with
                | some (c, o) => faultAt g sd .engineFailure pc none (failAux c o) s
                | none =>
                  if toks.any (fun e => tokState G e = some .pending) then s
                  else
                    let tiles := match G.acc with | some A => A.tiles | none => []
                    if tiles.any (fun T => !T.flight.isEmpty) then s
                    else
                      match poolTake s L.ctx (poolNeed G) with
                      | none => s
                      | some slots =>
                        let bid := match s.blocks[G.block]? with | some B => B.bid | none => 0
                        match chooseCore s L T sg bid G.gid mode key with
                        | none => faultAt g sd .travelOverflow pc none 0 s
                        | some c =>
                          let G' := departing G sides sg toks slots
                          match placeRec (launchIx s G) c 1 g (recBytes s 1 bid { G' with toks := G.toks }) (poolTiles L.ctx G slots s) with
                          | none => faultAt g sd .travelOverflow pc none (BitVec.ofNat 64 c) s
                          | some u => departed g (launchIx s G) c L.ctx G' slots u)

/-- Core c's instruction store takes the translations of segment sg of a travel launch whole, one for each function that has blocks there,
in place of what stood there (R321, R325, R340). -/
def fillSegment (L : Launch) (sg c : Nat) (s : State) : State :=
  let fns := objFns s L.ctx L.kaddr
  let xs := (s.xlats.zipIdx.filter (fun (t, _) => decide (t.seg = sg) && fns.any (fun f => t.keyed s L (launchDie L) sg [f]))).map (·.2)
  let ps := xs.flatMap (fun x => (List.range (xlatPages s x)).map (fun p => (x, p)))
  let old := (nth Core.reset s.cores c).pages.filter (fun e => !xs.contains e.1)
  chargeEv L.ctx 0x45 ps.length { s with cores := modifyAt (fun C => { C with pages := old.drop (old.length + ps.length - storePages) ++ ps }) s.cores c }

/-- The working map after core r joins segment sg, taken from the reserve set. -/
def Travel.replicate (T : Travel) (sg r now : Nat) (c : Nat) : Travel :=
  { T with rsrv := T.rsrv &&& ~~~ (1 <<< r : DWord), mapw := modifyAt (fun (w : DWord) => w ||| (1 <<< r : DWord)) T.mapw sg,
           ver := T.ver + 1, above := NMap.set 0 T.above c (now + 1) }

/-- REPLICATION (R340): a ring above the line for an unbroken 50 µs takes the lowest reserve core for its segment: the map
entry is written to SMAP, VER grows, event 0x0092 counts and MSIG is decremented; with no reserve, event 0x0093 counts. -/
def execReplication (l c : Nat) (s : State) : Out :=
  .next (match s.launches[l]? with
    | none => s
    | some L =>
      match L.travel with
      | none => s
      | some T =>
        let t := NMap.get 0 T.above c
        if t = 0 ∨ s.time + 1 < t + 50000 ∨ L.complete ∨ !T.holds then s
        else
          let d := launchDie L
          let sg := ((List.range 64).find? (fun k => (nth 0 T.mapw k).getLsbD (c - dieBase d))).getD 0
          match (replicas T.rsrv).head? with
          | none =>
            chargeEv L.ctx 0x93 1 { s with launches := modifyAt (fun L => { L with travel := some { T with above := NMap.set 0 T.above c (s.time + 1) } }) s.launches l }
          | some r =>
            let T' := T.replicate sg r s.time c
            let s := { s with launches := modifyAt (fun L => { L with travel := some T' }) s.launches l,
                              cores := modifyAt (fun C => { C with rtail := 0, rhead := 0 }) s.cores (dieBase d + r) }
            let s := startWords (dieBase d + r) 0 (imgShared s L.kaddr) (fillSegment L sg (dieBase d + r) s)
            let s := match ctxKey s L.ctx (T.smap + 8 * sg) false with
              | some k => storeWord L.ctx k (nth 0 T'.mapw sg) s
              | none => s
            let s := chargeEv L.ctx 0x92 1 (syncControl l s)
            if T.msig = 0 then s else hwDecrement L.ctx T.msig 1 s)

/-! ### Arrival (R337) -/

/-- The record leaves its core's queue: the ring's head passes it. -/
def dropRec (r : Rec) (s : State) : State :=
  let s := { s with recs := s.recs.filter (fun q => !(q == r)) }
  if r.kind = 0 then s
  else if r.inRing then
    noteOccupancy r.launch r.core { s with cores := modifyAt (fun C => { C with rhead := r.at_ + r.rlen }) s.cores r.core }
  else syncControl r.launch s

/-- A side after arrival in segment sg: one whose target lies there runs on, or parks where the target is its join (R148, R327). -/
def Side.arrived (sg : Nat) (S : Side) : Side :=
  match S.status with
  | .atExit _ k _ _ => if k = sg then { S with status := if S.core.atJoin then .parked else .running } else S
  | _ => S

/-- A group that starts on a core, with the implied edges of R224 at die scope (R326). -/
def Group.placed (G : Group) (c slot sp len : Nat) (stamp : Half) : Group :=
  { G with core := c, slot := slot, resident := true, st := .ready, spill := sp, spillLen := len, stamp := stamp,
           sides := G.sides.map (Side.arrived G.seg), wbuf := G.wbuf.map (Held.release 3) }

/-- Launch l is being taken from its cores: its context is not live, it does not hold them, or a group of it stands suspended there (R301,
R343). -/
def leavesCores (s : State) (l : Nat) (L : Launch) : Bool :=
  (ctxAt s L.ctx).st != .live || !(L.travel.any Travel.holds)
    || s.groups.any (fun G => G.resident && G.st == .suspended && decide (launchIx s G = l))

/-- RECORD_START (R337): the oldest record of core c starts when the core has a free resident slot and its group a stamp; its sides that
meet at a join of the segment rejoin. -/
def execRecordStart (c : Nat) (s : State) : Out :=
  .next (match s.recs.find? (fun r => r.core = c) with
    | none => s
    | some r =>
      match s.groups[r.group]?, s.launches[r.launch]? with
      | some G, some L =>
        if G.st = .ended then dropRec r s
        else
          match (freeSlotsFor s L.ctx none c).head? with
          | none => s
          | some slot =>
            let lim := travelLimit s L G.seg
            let stamp := if G.stamp = 0 then freeStamp s L.ctx else some G.stamp
            if seedWaits s L.ctx ∨ leavesCores s r.launch L then s
            else if lim = 0 then xlatFault r.group .regionLimit L.kaddr (dropRec r s)
            else if lim ≤ (residents s c).length then s
            else
              match stamp with
              | none => s
              | some st =>
                let a := spillArea s L (launchDie L) G.seg
                let s := settleScopes r.group { s with cores := modifyAt (Core.fresh slot) s.cores c }
                awaitTiles false r.group (settleGroup r.group (comeBack L.ctx ((startsOn L.ctx (dieOf c) (dropRec r s)).updGroup r.group
                  (fun G => G.placed c slot (imgShared s L.kaddr + slot * a) a st))))
      | _, _ => dropRec r s)

/-- Group g of core c, rolled back to its MARK, is suspended behind the records that wait there, its tiles saved in slots of the pool. -/
def suspendArrival (g c x l : Nat) (slots : List Nat) (s : State) : State :=
  let s := updTiles g (AccSet.pooled slots) (match s.groups[g]? with | some G => poolTiles x G slots s | none => s)
  let s := { s with ctxs := modifyAt (fun C => { C with pool := C.pool ++ slots }) s.ctxs x }
  { (s.updGroup g (fun G => { G with resident := false })) with
    recs := s.recs ++ [{ kind := 0, launch := l, group := g, core := c, rlen := 0, inRing := false, at_ := 0 }] }

/-- The groups of core c that have been Waiting for 10 µs, with the time at which each began. -/
def longWaiters (s : State) (c : Nat) : List (Nat × Group × Nat) :=
  (residents s c).filterMap (fun (g, G) => match G.st with | .waiting _ t => if t + 10000 ≤ s.time then some (g, G, t) else none | _ => none)

/-- The one that has waited longest. -/
def longest (ws : List (Nat × Group × Nat)) : Option (Nat × Group × Nat) :=
  ws.find? (fun e => ws.all (fun f => decide (e.2.2 ≤ f.2.2)))

/-- ARRIVAL_SUSPEND (R337, R346): when records wait and every resident group of core c has been Waiting for 10 µs, the one
that has waited longest is suspended behind them, its tiles saved in the pool. -/
def execArrivalSuspend (c : Nat) (s : State) : Out :=
  .next (
    if (s.recs.find? (fun r => r.core = c)).isNone ∨ (longWaiters s c).length < (residents s c).length then s
    else
      match longest (longWaiters s c) with
      | none => s
      | some (g, G, _) =>
        let t := suspendGroup g s
        match poolTake t (groupCtx s G) (((t.groups[g]?).map poolNeed).getD 0) with
        | none => s
        | some slots => suspendArrival g c (groupCtx s G) (launchIx s G) slots t)

/-! ### The launch (R325, R345) -/

/-- The groups of block bid of launch l, travelling, with their start records placed. -/
def startBlock (l : Nat) (L : Launch) (T : Travel) (bid : Nat) (s : State) : State :=
  let b := s.blocks.length
  let s := { s with blocks := s.blocks ++ [{ launch := l, bid := bid, core := 0, st := .running, arrivals := [], ended := [], part := 0 }] }
  let sg := match (blocksOf s L.kaddr).head? with | some k => k.seg | none => 0
  (List.range (L.ntid / 128)).foldl (fun s gid =>
    let S := entrySide s L.kaddr (BitVec.allOnes 128) (kernelArgs s L)
    let G := { newGroup b gid S with seg := sg }
    let g := s.groups.length
    let s := { s with groups := s.groups ++ [G] }
    match chooseCore s L T sg bid gid .dflt 0 with
    | none => report g 0 .travelOverflow L.kaddr none 0 s
    | some c =>
      match placeRec l c 3 g (recBytes s 3 bid G) s with
      | some s => noteOccupancy l c s
      | none => report g 0 .travelOverflow L.kaddr none (BitVec.ofNat 64 c) s) s

/-- Two lists share a member. -/
def shares (a b : List Nat) : Bool := a.any (fun x => b.contains x)

/-- TRAVEL_LAUNCH_HOLD (R325, R345): the launch holds its cores once they are free of other launches' groups and parts and of earlier
travel launches, and places one start record for each group in order. -/
def execTravelLaunchHold (l : Nat) (s : State) : Out :=
  .next (match s.launches[l]? with
    | none => s
    | some L =>
      match L.travel with
      | none => s
      | some T =>
        let cs := L.cores
        let earlier := s.launches.zipIdx.any (fun (M, m) => m != l && !M.complete && shares cs M.cores
          && (match M.travel with | some U => U.holds || decide (m < l) | none => false))
        let busy := cs.any (fun c => (residents s c).any (fun e => launchIx s e.2 != l) || !(heldRanges s L.ctx none c).isEmpty)
        if T.holds ∨ L.complete ∨ earlier ∨ busy ∨ (ctxAt s L.ctx).st ≠ .live then s
        else
          let T' := { T with holds := true }
          let s := { s with launches := modifyAt (fun L => { L with travel := some T' }) s.launches l,
                            cores := cs.foldl (fun cores c => modifyAt (fun C => { C with rtail := 0, rhead := 0 }) cores c) s.cores }
          let s := cs.foldl (fun s c => startWords c 0 (imgShared s L.kaddr) s) s
          (List.range L.nblk).foldl (fun s bid => startBlock l L T' bid s) (openControl l s))

/-! ### The instructions -/

/-- HOP (R329): a segment exit whose replica choice the program names. -/
def execHop (m : HopMode) (key : Option Opnd) (t : Target) (s : State) : Out :=
  portable s (fun p s =>
    match key with
    | none => transferBy m 0 [(p.mask, t)] p s
    | some k =>
      match opndOne s p .i32 k with
      | some x => transferBy m (x.truncate 32) [(p.mask, t)] p s
      | none => badOperand p s)

/-- A post to segment sg of the handler at f with payload values (R277, R278, R342): a handler group is made, and its record
is placed as the token completes. -/
def postAt (q : Port) (sc : BitVec 3) (sg f : Nat) (vals : List (List Val)) (es : List Nat) (s : State) : State :=
  let p := q.site
  let S := entrySide s f p.mask vals
  let G := { newGroup p.grp.block p.grp.gid S with seg := sg, handler := true }
  q.commit (.post s.groups.length) sc 2 es { s with groups := s.groups ++ [G] }

/-- POST (R277, R278, R342). -/
def execPost (sc : BitVec 3) (seg fn : Opnd) (vs : List Opnd) (s : State) : Out :=
  portable s (fun p s =>
    match calleeIndex s p fn, objectAt s p.ctx p.fr.fn with
    | some i, some (_, o) =>
      (match tableFn o i with
       | none => badOperand p s
       | some f =>
         match blocksOf s f with
         | [] => badOperand p s
         | b :: _ =>
           let n := b.args.length
           match targetArgs s p b { blk := 0, args := vs.take n } with
           | none => badOperand p s
           | some vals =>
             withToken p (vs.drop n) (postAt p.port sc (immNat seg) f vals) s)
    | _, _ => badOperand p s)

/-- The placement of a post's record: an overflow is the poster's travel-overflow fault. -/
def postPerform (E : Eng) (g : Nat) (s : State) : State :=
  match s.groups[g]? with
  | none => completeToken E.id s
  | some G =>
    match launchOfBlk s G.block with
    | none => completeToken E.id s
    | some L =>
      match L.travel with
      | none => completeToken E.id s
      | some T =>
        let bid := match s.blocks[G.block]? with | some B => B.bid | none => 0
        match chooseCore s L T G.seg bid G.gid .dflt 0 with
        | none => faultAt E.group 0 .travelOverflow E.origin none 0 s
        | some c =>
          match placeRec (launchIx s G) c 2 g (recBytes s 2 bid G) s with
          | none => faultAt E.group 0 .travelOverflow E.origin none (BitVec.ofNat 64 c) s
          | some s => completeToken E.id (noteOccupancy (launchIx s G) c s)

/-- TRVMAP_REP (R341): the population count of the working map's entry. -/
def execTrvmapRep (seg : Opnd) (s : State) : Out :=
  portable s (fun p s =>
    match p.lau.travel with
    | some T => defineAll p (BitVec.ofNat 64 (replicas (nth 0 T.mapw (immNat seg))).length) s
    | none => takeFault p .unsupportedFeature none 0 s)

/-- TRVMAP_VER (R341): VER[31:0]. -/
def execTrvmapVer (s : State) : Out :=
  portable s (fun p s =>
    match p.lau.travel with
    | some T => defineAll p (BitVec.ofNat 64 (T.ver % 2 ^ 32)) s
    | none => takeFault p .unsupportedFeature none 0 s)

end Sys2Proof.Machine
end

