-- ==== Sys2Proof/Machine/EngineEvents.lean ====
section
/-! DEFINITION. Engine instructions in flight (R221, R265 to R269, R272 to R276, R304): start, completion, failure, frames of
collectives, and the reset of a copy engine. -/

namespace Sys2Proof.Machine
open Sys2Proof

/-- An engine instruction by number. -/
def engAt (s : State) (e : Nat) : Option Eng := s.engs.find? (fun E => E.id = e)

/-- A post whose record will never be placed leaves no handler group. -/
def dropPost (E : Eng) (s : State) : State :=
  match E.kind with
  | .post g => endGroup g s
  | _ => s

/-- An engine instruction fails (R267, R269). -/
def failEng (E : Eng) (c : Cause) (origin : Nat) (s : State) : State := failToken E.id c origin (dropPost E s)

/-- A started engine instruction fails for a cause of its own: what it has performed stays (R269). -/
def failSelf (E : Eng) (c : Cause) (s : State) : State := failEng E c E.origin s

/-- The leaf frames that this rank sends for a collective: its own elements, 4,096 bytes a frame (R272, R275); an element that cannot be
read fails the call (R269). OFFSET counts in the sender's own data: R275 says in the call's vector, which for `allgat` may as well be the
result (DESIGN CHOICE, log entry 96). -/
def collFrames (s : State) (E : Eng) : Except Cause (List (List Byte)) :=
  match E.kind with
  | .coll kind op t _ a c g q =>
    (match collGroup s E.ctx g with
     | none => .ok []
     | some (n, r, _) =>
       let b := Ty.bytes t
       (((List.range (collSizes kind c n r).1).mapM (fun j => ownElem s E b (a + b * j))).map (fun vs =>
         let own := vs.flatMap (fun v => leBytes b v.toNat)
         (List.range ((own.length + 4095) / 4096)).map (fun i =>
           let d := (own.drop (4096 * i)).take 4096
           leBytes 2 0x4743 ++ leBytes 1 1 ++ leBytes 1 kind.code.toNat ++ leBytes 1 op.code.toNat ++ leBytes 1 (Ty.code t).toNat
             ++ leBytes 2 g ++ leBytes 4 q ++ leBytes 2 r ++ leBytes 2 0 ++ leBytes 8 (4096 * i) ++ leBytes 4 d.length ++ leBytes 4 0 ++ d))))
  | _ => .ok []

/-- The queue pair to rank k of group g: the 16 bytes of its entry at QPT; none where they cannot be read (R274). -/
def collPair (s : State) (x g k : Nat) : Option (List Byte) :=
  let va := (loadWord s x ((ctxAt s x).rsvd + 16 * g + 8)).toNat + 16 * k
  (ctxKey s x va false).map (fun key => loadBytes s x key 16)

/-- Frames as they leave the module: to every other rank of the call's group over its queue pair, with the rank and the pair before them
(R272, R274). -/
def collSends (s : State) (E : Eng) (fs : List (List Byte)) : List Reply :=
  match E.kind with
  | .coll _ _ _ _ _ _ g _ =>
    (match collGroup s E.ctx g with
     | none => []
     | some (n, r, _) => ((List.range n).filter (· ≠ r)).flatMap (fun k =>
         match collPair s E.ctx g k with
         | some qp => fs.map (fun f => { kind := 0x43, bytes := leBytes 2 k ++ qp ++ f })
         | none => []))
  | _ => []

/-- ENGINE_START (R221): every consumed token is Complete, and its group's stores to the spaces of its mask are performed; a Failed one fails this instruction with the same cause and
origin (R267). A collective sends its frames. -/
def execEngineStart (e : Nat) (s : State) : Out :=
  .next (match engAt s e with
    | none => s
    | some E =>
      match E.st, s.groups[E.group]? with
      | .issued, some G =>
        (match failedTok G E.deps with
         | some (c, o) => failEng E c o s
         | none =>
           if E.deps.any (fun d => tokState G d = some .pending) then s
           else
             let s := reachOwn (landBefore E.mask e E.group s) E
             match collFrames s E with
             | .error c => failSelf E (tokenCause c) s
             | .ok fs =>
               { s with engs := s.engs.map (fun F => if F.id = e then { F with st := .started, since := s.time } else F),
                        replies := (collSends s E fs).foldl (fun r f => f :: r) s.replies })
      | _, _ => s)

/-- The effect of a started engine instruction of one write: none while it cannot complete. -/
def performEng (s : State) (E : Eng) : Option (Except Cause State) :=
  match E.kind with
  | .sigdec _ _ | .sigset _ _ => some (signalPerform s E)
  | .enq q d b => enqPerform E.group E.ctx q d b s
  | .tjoin => some (.ok s)
  | .copy .. | .gather .. | .scatter .. | .coll .. | .post _ | .publ _ | .tile _ => none

/-- A step of a transfer or collective; none while it can do nothing. -/
def partsStep (s : State) (E : Eng) : Option EngRun :=
  match E.kind with
  | .copy .. | .gather .. | .scatter .. => some (transferStep s E)
  | .coll .. => collStep s E
  | _ => none

/-- What a step of parts leaves: a part that fails makes the token Failed; when every part is performed the token is Complete, and a masked
copy-back clears the dirty bits of the words it copied (R205, R269, R270). -/
def settleRun (E : Eng) (r : EngRun) : State :=
  match r.cause with
  | some c => failSelf E (tokenCause c) r.st
  | none =>
    if r.done.length = partCount r.st E then
      completeToken E.id (dropFrames E { r.st with dirty := r.wrote.foldl (fun d k => NMap.set false d k false) r.st.dirty })
    else
      { r.st with engs := r.st.engs.map (fun F => if F.id = E.id then
          { F with done := r.done, wrote := r.wrote, buf := r.buf, since := match E.kind with | .coll .. => F.since | _ => r.st.time } else F) }

/-- TOKEN_COMPLETE (R266): a started instruction performs accesses; when every one is performed its token becomes Complete, and an access
that fails makes it Failed (R269). -/
def execTokenComplete (e : Nat) (s : State) : Out :=
  .next (match engAt s e with
    | none => s
    | some E =>
      if E.st ≠ .started then s
      else
        match E.kind with
        | .post g => postPerform E g s
        | .tile _ => s
        | _ =>
          match partsStep s E, performEng s E with
          | some r, _ => settleRun E r
          | none, some (.ok s') => completeToken e s'
          | none, some (.error c) => failSelf E (tokenCause c) s
          | none, none => s)

/-- TOKEN_FAIL (R269): a transfer fails after issue with the cause that its accesses meet. -/
def execTokenFail (e : Nat) (c : Cause) (s : State) : Out :=
  .next (match engAt s e with
    | none => s
    | some E =>
      match E.st, partsStep s E, performEng s E with
      | .started, some r, _ => if r.cause.map tokenCause = some c then settleRun E r else s
      | .started, none, some (.error c') => if c = tokenCause c' then failSelf E c s else s
      | _, _, _ => s)

/-- A collective of a context that a frame disagrees with (R276). -/
def collMismatch (s : State) (E : Eng) (f : Frm) : Bool :=
  match E.kind with
  | .coll kind op t _ _ c g q =>
    decide (f.grp = g ∧ f.seq = q) && (match collGroup s E.ctx g with | some (n, _, _) => frameBad kind op t c n f | none => false)
  | _ => false

/-- A frame whose sender may count fewer elements than the call. -/
def collShort (s : State) (E : Eng) (f : Frm) : Bool :=
  match E.kind with
  | .coll kind _ t _ _ c g q =>
    decide (f.grp = g ∧ f.seq = q) && (match collGroup s E.ctx g with | some (n, _, _) => frameShort kind t c n f | none => false)
  | _ => false

/-- COLLECTIVE_FRAME (R275, R276): a malformed frame is discarded and counts event 0x0080; one that disagrees with the call
fails it with the collective mismatch cause; any other is kept for its call. Of a frame that may be its sender's last and leaves data
missing, a free value says whether it is (log entry 96). -/
def execCollectiveFrame (x : Nat) (fr : List Byte) (s : State) : Out :=
  .next (match readFrame fr with
    | none => chargeEv x 0x80 1 s
    | some f =>
      let mine := s.engs.filter (fun E => E.ctx == x && E.st != .gated)
      let open_ := mine.any (fun E => collShort s E f)
      let bad := mine.filter (fun E => collMismatch s E f || (collShort s E f && Config.freeBool s.fresh 0))
      let s := if open_ then s.tick else s
      match bad with
      | [] => { s with frames := s.frames ++ [(x, fr)] }
      | _ => bad.foldl (fun s E => failSelf E .collectiveMismatch s) s)

/-- COLLECTIVE_TIMEOUT (R276): a started call whose data a member has not sent has waited for its group's TMO, 10 s when it is 0. -/
def execCollectiveTimeout (e : Nat) (s : State) : Out :=
  .next (match engAt s e with
    | none => s
    | some E =>
      match E.kind with
      | .coll _ _ _ _ _ _ g _ =>
        (match collGroup s E.ctx g with
         | some (_, _, tmo) =>
           let limit := if tmo = 0 then 10000000000 else 1000 * tmo
           if E.st = .started ∧ E.since + limit ≤ s.time ∧ (collStep s E).isNone then failSelf E .collectiveTimeout s else s
         | none => s)
      | _ => s)

/-- The copy engine's instructions: those of the A slot that move or write data, a publication apart (log entry 41). -/
def Eng.onCopyEngine (E : Eng) : Bool :=
  match E.kind with
  | .publ _ | .tjoin | .tile _ => false
  | _ => true

/-- An issued instruction that has performed no part for 100 ms; `coll`, and an `enq` whose ring is full, are no hang. -/
def Eng.hung (s : State) (E : Eng) : Bool :=
  E.onCopyEngine && E.st != .gated && decide (E.since + 100000000 ≤ s.time)
    && (match E.kind with
        | .coll .. => false
        | .enq q d b => (enqPerform E.group E.ctx q d b s).isSome
        | _ => true)

/-- The instructions of the copy engine of core c. -/
def engsOn (s : State) (c : Nat) : List Eng :=
  s.engs.filter (fun E => E.onCopyEngine && E.st != .gated && (match s.groups[E.group]? with | some G => decide (G.core = c) | none => false))

/-- The engine-lost fault of a group: at once, or when a suspended group resumes (R304). -/
def engineLost (c g : Nat) (s : State) : State :=
  match s.groups[g]? with
  | none => s
  | some G =>
    match G.st with
    | .ended => s
    | .suspended => s.updGroup g (fun G => { G with doomed := some .engineLost })
    | _ => faultAt g G.wside .engineLost (match (G.sides[G.wside]?).map (fun S => S.core.frames) with | some (F :: _) => F.pc | _ => 0)
             none (BitVec.ofNat 64 c) s

/-- ENGINE_RESET (R304, R401): the copy engine of core c hangs; every group with a Pending token of it receives the
engine-lost fault, and those tokens never become Complete; parts already performed stay performed. -/
def execEngineReset (c : Nat) (s : State) : Out :=
  .next (
    let es := engsOn s c
    if !es.any (Eng.hung s) then s
    else
      let gs := uniq (es.map (fun E => E.group))
      let s := { s with engs := s.engs.filter (fun E => !es.any (fun F => F.id == E.id)) }
      gs.foldl (fun s g => engineLost c g s) s)

/-- The context of a group. -/
def ctxOfGroup (s : State) (g : Nat) : Nat := match s.groups[g]? with | some G => groupCtx s G | none => 0

/-- MSHR_RETRY (R204): a miss-status entry of core c is freed, which one by free choice. The request that was rejected first takes it
when it has reserved it, and may else; where none is free its retry may be rejected once more. -/
def execMshrRetry (c : Nat) (s : State) : Out :=
  .next (
    let C := nth Core.reset s.cores c
    let held := C.mshr.eraseIdx (Config.freeNat s.fresh 0 % C.mshr.length)
    let put := fun (m : List Nat) (r : List (Nat × Nat)) => { s with cores := modifyAt (fun C => { C with mshr := m, mshrRej := r }) s.cores c }.tick
    match C.mshrRej with
    | [] => put held []
    | r :: rest =>
      if C.reserved ∨ Config.freeBool s.fresh 1 then put (held ++ [r.1]) rest
      else if C.mshr.length = mshrCap c ∧ Config.freeBool s.fresh 2 then (countEv (ctxOfGroup s r.1) 0x61 1 s).tick
      else put held C.mshrRej)

end Sys2Proof.Machine
end

