-- ==== Sys2Proof/Machine/Queue.lean ====
section
/-! DEFINITION. Command queues and the acceptance of launches (R284 to R290, R310, R323, R324). -/

namespace Sys2Proof.Machine
open Sys2Proof

/-! ### Queue descriptors (R284, R287) -/

/-- The writable fields of a descriptor, the queue not enabled. -/
def Queue.fields (Q : Queue) (d : BitVec 128) : Queue :=
  { Q with ser := d.getLsbD 1, prio := (d.extractLsb' 2 2).toNat, ctx := (d.extractLsb' 4 6).toNat, logn := (d.extractLsb' 10 4).toNat,
           rbase := (d.extractLsb' 64 48).toNat }

/-- A descriptor that EN = 1 enables (R284). -/
def Queue.mayEnable (s : State) (Q : Queue) : Bool :=
  decide (Q.logn ≤ 12) && decide (Q.rbase % 64 = 0) && Q.ctx != 0 &&
    ((ctxAt s Q.ctx).st == .live || (ctxAt s Q.ctx).st == .halted)

/-- A descriptor write with EN = 1 (R284, R287): fields of an enabled queue keep. -/
def enableQueue (q : Nat) (d : BitVec 128) (s : State) : State :=
  if 1024 ≤ q ∨ (queueAt s q).en then s
  else updQueue q (fun Q =>
    let Q := Q.fields d
    if Q.mayEnable s then { Q with en := true, st := .empty, before := .empty, err := 0, head := 0, tail := 0, open_ := [], waits := [] } else Q) s

/-- QUEUE_ENABLE (R284, R287). -/
def execQueueEnable (q : Nat) (d : BitVec 128) (s : State) : Out := .next (enableQueue q d s)

/-- A queue whose EN became 0: what it started runs on (R287). -/
def Queue.disabled (Q : Queue) : Queue := { Q with en := false, st := .disabled, waits := [] }

/-- QUEUE_DISABLE (R287). -/
def execQueueDisable (q : Nat) (s : State) : Out := .next (if 1024 ≤ q then s else updQueue q Queue.disabled s)

/-- TAIL_POLL (R285): the queue rereads TAIL. -/
def execTailPoll (q : Nat) (s : State) : Out := .next (readTail q s)

/-! ### The head entry (R285, R286, R288) -/

/-- An entry's fields. -/
structure QEntry where
  kind : Nat
  flags : Nat
  arg0 : Nat
  arg1 : Nat
  /-- a byte that R285 requires to be zero is not -/
  dirty : Bool
  deriving DecidableEq, Repr

/-- The fields of 64 bytes. -/
def QEntry.ofBytes (bs : List Byte) : QEntry :=
  let k := blockNat bs 0 1
  let f := blockNat bs 1 1
  let a := blockNat bs 8 8
  let v := blockNat bs 16 8
  { kind := k, flags := f, arg0 := a, arg1 := v,
    dirty := decide (1 < f) || blockNat bs 2 6 != 0 || blockNat bs 24 40 != 0 || (k == 5 && a != 0) || ((k == 1 || k == 5) && v != 0) }

/-- The entries of queue q that started and have not completed. -/
def queueOpen (s : State) (Q : Queue) : Bool :=
  !Q.waits.isEmpty || Q.open_.any (fun l => match s.launches[l]? with | some L => !L.complete | none => false)

/-- The queue's state after an entry has started: HEAD + 1 (R286, R287). An `enq` that waited for a place begins now (R304, R315). -/
def startEntry (q t : Nat) (s : State) : State :=
  updQueue q (fun Q => { Q with head := Q.head + 1, tail := t, st := if Q.head + 1 < t then .ready else .empty })
    { s with engs := s.engs.map (fun E => match E.kind with | .enq r _ _ => if r = q then { E with since := s.time } else E | _ => E) }

/-- The state in which queue q reads its ring's header and its head entry: what is owed there has been performed (R219). -/
def queueSeen (s : State) (q : Nat) : State :=
  reachVa (queueAt s q).ctx ((queueAt s q).entry (queueAt s q).head) 64 (reachVa (queueAt s q).ctx (queueAt s q).rbase 64 s)

/-- The queue serves its head entry when it is of a kind: the checks of R288 in their order, the dependence of R286, then k, which
starts the entry or refuses it with a code. An entry that no kind allows is refused whichever kind is asked for. -/
def serveHead (q kind : Nat) (k : QEntry → Nat → State → Except Nat State) (s : State) : State :=
  let Q := queueAt s q
  if (Q.st ≠ .ready ∧ Q.st ≠ .waiting) ∨ (ctxAt s Q.ctx).st ≠ .live ∨ !Q.waits.isEmpty then s
  else
    let s := queueSeen s q
    match ringTail s q with
    | none => queueFail q 0x000C s
    | some t =>
      if t = Q.head then updQueue q (fun Q => { Q with tail := t, st := .empty }) s
      else if Q.size < (BitVec.ofNat 64 t - BitVec.ofNat 64 Q.head).toNat then queueFail q 0x0002 s
      else if (ctxKey s Q.ctx (Q.entry Q.head) false).isNone then queueFail q 0x000C s
      else
        let e := QEntry.ofBytes (ctxBytes s Q.ctx (Q.entry Q.head) 64)
        let bad := decide (e.kind = 0 ∨ 5 < e.kind) || e.dirty || (ctxBytes s Q.ctx (Q.rbase + 8) 56).any (· != 0)
        if e.kind ≠ kind ∧ !bad then s
        else if (Q.ser ∨ e.flags % 2 = 1) ∧ queueOpen s Q then updQueue q (fun Q => { Q with tail := t, st := .waiting }) s
        else if bad then queueFail q 0x0001 s
        else
          match k e t s with
          | .error c => queueFail q c s
          | .ok s => s

/-! ### Signal entries (R310) -/

/-- The signal of a KIND 2 to 4 entry. -/
def entrySignal (s : State) (q : Nat) (e : QEntry) : Except Nat Nat :=
  match signalKey s (queueAt s q).ctx e.arg0 with
  | some k => .ok k
  | none => .error 0x000B

/-- QUEUE_DECREMENT (R310): KIND 3. -/
def execQueueDecrement (q : Nat) (s : State) : Out :=
  .next (serveHead q 3 (fun e t s =>
    match entrySignal s q e with
    | .error c => .error c
    | .ok k => .ok (hwSignal (queueAt s q).ctx k (· - BitVec.ofNat 64 e.arg1) (startEntry q t s))) s)

/-- QUEUE_SET (R310): KIND 4. -/
def execQueueSet (q : Nat) (s : State) : Out :=
  .next (serveHead q 4 (fun e t s =>
    match entrySignal s q e with
    | .error c => .error c
    | .ok k => .ok (hwSignal (queueAt s q).ctx k (fun _ => BitVec.ofNat 64 e.arg1) (startEntry q t s))) s)

/-- QUEUE_NO_OPERATION (R286): KIND 5. -/
def execQueueNoOperation (q : Nat) (s : State) : Out := .next (serveHead q 5 (fun _ t s => .ok (startEntry q t s)) s)

/-- A queue that waits on a satisfied signal goes on (R287). -/
def endQueueWait (q : Nat) (s : State) : State :=
  updQueue q (fun Q =>
    if Q.st = .waiting ∧ Q.waits.any (fun w => w.2.hit.isSome) then
      { Q with waits := [], st := if Q.head < Q.tail then .ready else .empty }
    else Q) s

/-- QUEUE_WAIT (R286, R287, R310): KIND 2, `sigwait.le.sys` with ARG1: the entry starts, and holds its queue back until the signal
meets the condition (log entry 50). -/
def execQueueWait (q : Nat) (s : State) : Out :=
  .next (endQueueWait q (serveHead q 2 (fun e t s =>
    match entrySignal s q e with
    | .error c => .error c
    | .ok k =>
      let Q := queueAt s q
      let s := reach .outside false k 8 s
      let v := if hiddenLine s Q.ctx k then 0 else loadWord s Q.ctx k
      let x := BitVec.ofNat 64 e.arg1
      let s := startEntry q t s
      if condMet .le v x then .ok s
      else .ok (updQueue q (fun R =>
        { R with st := .waiting, waits := [(Q.head, { a := k, cond := .le, x := x, deadline := none, hit := none })] }) s)) s))

/-! ### Launch descriptors (R288 to R290) -/

/-- The generation of a die's kind: 2 for a W-die, 1 for an N-die. -/
def dieGeneration (d : Nat) : Nat := if dieIsN d then 1 else 2

/-- The dies of a mask that are in service. -/
def servedDies (s : State) (m : BitVec 4) : List Nat :=
  (List.range 4).filter (fun d => m.getLsbD d && (match s.dies[d]? with | some D => D.on | none => false))

/-- A mask of dies. -/
def dieMask (ds : List Nat) : BitVec 4 := ds.foldl (fun m d => m ||| (1#4 <<< d)) 0

/-- n blocks shared out by weights: a part to each in proportion, the rest one each from the first. -/
def shareOut (n : Nat) (ws : List Nat) : List Nat :=
  let sum := ws.foldl (· + ·) 0
  let base := ws.map (fun w => n * w / sum)
  let left := n - base.foldl (· + ·) 0
  base.zipIdx.map (fun (b, i) => if i < left then b + 1 else b)

/-- Contiguous ranges of given sizes from block o, for clusters from c. -/
def clusterRanges : Nat → Nat → List Nat → List (Nat × Nat × Nat)
  | _, _, [] => []
  | o, c, n :: r => (if n = 0 then [] else [(c, o, o + n)]) ++ clusterRanges (o + n) (c + 1) r

/-- The ranges of the clusters of some dies (R290). -/
def distribute (nblk : Nat) (ds : List Nat) : List (Nat × Nat × Nat) :=
  let parts := shareOut nblk (ds.map dieCores)
  ((ds.zip parts).foldl (fun (acc : Nat × List (Nat × Nat × Nat)) e =>
    let n := dieCores e.1 / 8
    (acc.1 + e.2, acc.2 ++ clusterRanges acc.1 (dieBase e.1 / 8) (shareOut e.2 (List.replicate n 1)))) (0, [])).2

/-- Every page of n bytes from va is mapped, readable die store of context x (R324). -/
def dsRange (s : State) (x va n : Nat) : Bool :=
  (List.range ((va % 65536 + n + 65535) / 65536)).all (fun i =>
    match ctxKey s x (if i = 0 then va else (va / 65536 + i) * 65536) false with
    | some k => isDS k
    | none => false)

/-- The segment ids of the blocks of an object's `.travel` functions: 1 to 63 (R321). -/
def objSegs (s : State) (o : Obj) : List Nat :=
  o.ftab.flatMap (fun e => if (imgFhdr s (o.laddr + e.1)).getLsbD 2 then ((blocksOf s (o.laddr + e.1)).map (·.seg)).filter (· ≠ 0) else [])

/-- No core stands in two of some sets. -/
def coresApart : List Nat → Bool
  | [] => true
  | w :: r => r.all (fun v => Nat.land w v == 0) && coresApart r

/-- The travel descriptor's state at acceptance: none under a cause of R324. -/
def acceptTravel (s : State) (x : Nat) (o : Obj) (kaddr d : Nat) (frame : Nat) (bs : List Byte) : Option Travel :=
  let smap := blockNat bs 0 8
  let rsrv := blockNat bs 8 8
  let pbase := blockNat bs 0x10 8
  let psize := blockNat bs 0x18 4
  let mode := blockNat bs 0x1C 1
  let map := (List.range 64).map (fun i => blockNat (ctxBytes s x smap 512) (8 * i) 8)
  if smap % 64 = 0 ∧ dmRange s x smap 512 ∧ pbase % 524288 = 0 ∧ psize % 524288 = 0 ∧ 1048576 ≤ psize ∧ psize ≤ 1073741824 ∧ mode ≤ 1
      ∧ blockNat bs 0x1D 3 = 0 ∧ blockNat bs 0x28 24 = 0 ∧ frame ≤ 131072 ∧ imgShared s kaddr ≤ 1048576 ∧ nth 0 map 0 = 0
      ∧ (map.all (fun w => decide (w < 2 ^ dieCores d)) && decide (rsrv < 2 ^ dieCores d)) = true
      ∧ (objSegs s o).all (fun g => nth 0 map g != 0) = true ∧ coresApart (rsrv :: map) = true ∧ dsRange s x pbase psize = true then
    some { smap := smap, rsrv := BitVec.ofNat 64 rsrv, pbase := pbase, psize := psize, least := mode == 1, msig := blockNat bs 0x20 8,
           mapw := map.map (BitVec.ofNat 64), ver := 0, holds := false, above := [] }
  else none

/-- What the queue reads of a launch: its descriptor, parameters and travel descriptor with its map. -/
def reachLaunch (x arg : Nat) (s : State) : State :=
  let s := reachVa x arg 64 s
  let bs := ctxBytes s x arg 64
  let trvd := blockNat bs 48 8
  let s := reachVa x trvd 64 (reachVa x (blockNat bs 24 8) (blockNat bs 32 4) s)
  if trvd = 0 then s else reachVa x (blockNat (ctxBytes s x trvd 64) 0 8) 512 s

/-- The launch that a descriptor gives, or the code of the first check that fails, in the order of R288. Of a die mask, bits that name no
die break the check of 0x0009 (log entry 85). -/
def acceptLaunch (s : State) (q arg : Nat) : Except Nat Launch :=
  let Q := queueAt s q
  let x := Q.ctx
  if arg % 64 ≠ 0 ∨ !dmRange s x arg 64 then .error 0x000C
  else
    let bs := ctxBytes s x arg 64
    let f := fun (o n : Nat) => blockNat bs o n
    let kaddr := f 0 8
    let nblk := f 8 4
    let ntid := f 12 4
    let shape := f 18 1
    let frame := f 20 4
    let par := f 24 8
    let plen := f 32 4
    let csig := f 40 8
    let trvd := f 48 8
    if trvd % 64 ≠ 0 ∨ (decide (par = 0) != decide (plen = 0)) ∨ (plen ≠ 0 ∧ !dmRange s x par plen) ∨ (trvd ≠ 0 ∧ !dmRange s x trvd 64) then .error 0x000C
    else
      match objectAt s x kaddr with
      | none => .error 0x0003
      | some (i, o) =>
        let h := imgFhdr s kaddr
        let crew := 2 ^ (shape % 4)
        let travel := h.getLsbD 2
        let dies := servedDies s (BitVec.ofNat 4 (f 19 1))
        let named := if s.full then (List.range 4).filter (fun d => f 19 1 / 2 ^ d % 2 == 1) else dies
        let fret := imgShared s kaddr
        let tys := paramTypes s kaddr
        if !o.ctxs.contains x ∨ !(o.ftab.any (fun e => o.laddr + e.1 == kaddr)) ∨ h.toNat % 4 ≠ 1 then .error 0x0003
        else if nblk = 0 ∨ ntid < 128 ∨ 32768 < ntid ∨ ntid % 128 ≠ 0 then .error 0x0004
        else if 32 * crew < ntid / 128 then .error 0x0005
        else if f 16 2 < 8 ∨ 510 < f 16 2 then .error 0x0006
        else if (h.getLsbD 3 ∧ 2 ^ (h.extractLsb' 4 2).toNat ≠ crew) ∨ (travel ∧ crew ≠ 1) ∨ shape / 4 % 4 = 3 ∨ shape / 32 ≠ 0 then .error 0x0007
        else if scratchBytes < partSize fret (shape % 4) + (if travel then 0 else (ntid / 128 + crew - 1) / crew * frame) then .error 0x0008
        else if dies.isEmpty ∨ f 19 1 / 16 ≠ 0 ∨ named.any (fun d => decide (dieGeneration d < o.mingen)) ∨ (trvd ≠ 0 ∧ named.length ≠ 1) then .error 0x0009
        else if 1048576 < frame ∨ frame % 4096 ≠ 0 ∨ (match tys with | some ts => plen != (paramOffsets 0 ts).2 | none => false) = true
            ∨ decide (trvd ≠ 0) ≠ travel then .error 0x000A
        else
          let T := if trvd = 0 then none else acceptTravel s x o kaddr (dies.headD 0) frame (ctxBytes s x trvd 64)
          if trvd ≠ 0 ∧ T.isNone then .error 0x000A
          else if (csig ≠ 0 ∧ (signalKey s x csig).isNone) ∨ (match T with | some T => T.msig != 0 && (signalKey s x T.msig).isNone | none => false) = true then
            .error 0x000B
          else
            .ok { ctx := x, queue := q, entry := Q.head, prio := Q.prio, obj := i, kaddr := kaddr, nblk := nblk, ntid := ntid, budget := f 16 2,
                  crewLog := shape % 4, amode := shape / 4 % 4, fev := decide (shape / 16 % 2 = 1), dies := dieMask dies, frame := frame,
                  params := ctxBytes s x par plen, csig := csig, travel := T, ranges := if trvd = 0 then distribute nblk dies else [],
                  finished := 0, complete := false, waiting := [] }

/-- QUEUE_LAUNCH (R286, R288, R289): KIND 1 is accepted, with copies of its descriptor and parameters, or refused. -/
def execQueueLaunch (q : Nat) (s : State) : Out :=
  .next (serveHead q 1 (fun e t s =>
    let s := reachLaunch (queueAt s q).ctx e.arg0 s
    match acceptLaunch s q e.arg0 with
    | .error c => .error c
    | .ok L =>
      let l := s.launches.length
      .ok (updQueue q (fun Q => { Q with open_ := Q.open_ ++ [l] }) (startEntry q t { s with launches := s.launches ++ [L] }))) s)

end Sys2Proof.Machine
end

