-- ==== Sys2Proof/Machine/Sched.lean ====
section
/-! DEFINITION. Placement of blocks, stealing and blocks that are done (R290 to R294, R416), the choice of a candidate and its
dispatch (R296, R298), and the suspension and resumption of crews and contexts (R299 to R303, R343). -/

namespace Sys2Proof.Machine
open Sys2Proof

/-! ### Suspension and resumption (R301 to R303, R352) -/

/-- The groups that the block places on a core exceed the bound of R152. -/
def overLimit (s : State) (L : Launch) (d seg : Nat) : Bool :=
  let a := spillArea s L d seg
  let p := partSize (imgShared s L.kaddr) L.crewLog
  let n := (L.ntid / 128 + 2 ^ L.crewLog - 1) / 2 ^ L.crewLog
  decide (0 < a) && decide (min 32 ((scratchBytes - p) / a) < n)

/-- The launch entry's fault of R152 stands for a group whose launch, not of travel, exceeds the bound on its die. -/
def entryLimit (s : State) (G : Group) : Option Launch :=
  (launchOfBlk s G.block).bind (fun L => if L.travel.isNone && overLimit s L (dieOf G.core) 0 then some L else none)

/-- A suspended group goes on: it receives the fault that waited for it (R304) or that of R152 again, or, its Saved tiles restored (R118),
enters the translation of its key (R157). -/
def resumeGroup (g : Nat) (s : State) : State :=
  match s.groups[g]? with
  | none => s
  | some G =>
    if G.st ≠ .suspended ∨ G.held.isSome then s
    else
      let s := s.updGroup g (fun G => { G with st := .ready, wbuf := G.wbuf.map (Held.release 1) })
      match G.doomed with
      | some .engineLost => engineLost G.core g (s.updGroup g (fun G => { G with doomed := none }))
      | some _ => endGroup g s
      | none =>
        match (if G.native.isSome then none else entryLimit s G) with
        | some L => xlatFault g .regionLimit L.kaddr s
        | none => awaitTiles true g s

/-- The block of a group is not saved away. -/
def onCore (s : State) (g : Nat) : Bool :=
  match s.groups[g]? with
  | some G => G.resident && (match s.blocks[G.block]? with | some B => B.st != .suspended | none => false)
  | none => false

/-- A halted context with no hold left runs again: its queues go back, and its groups on cores resume (R287, R352). -/
def releaseContext (x : Nat) (s : State) : State :=
  let C := ctxAt s x
  if C.st ≠ .halted ∨ C.hhalt ∨ C.shalt ∨ C.migrating then s
  else
    let s := { s with
      ctxs := modifyAt (fun C => { C with st := .live, resumed := [s.time, s.time, s.time, s.time] }) s.ctxs x,
      queues := s.queues.map (fun (i, q) => (i, if q.ctx = x ∧ q.st = .halted then { q with st := q.before } else q)) }
    ((groupsOf s x).filter (onCore s)).foldl (fun s g => resumeGroup g s) s

/-- The dies of a block's cores: one. -/
def Block.die (B : Block) : Nat := dieOf B.core

/-- Suspends the groups of context x that are resident on die d (R301). -/
def preempt (d x : Nat) (s : State) : State :=
  ((groupsOf s x).filter (fun g => match s.groups[g]? with | some G => G.resident && decide (dieOf G.core = d) | none => false)).foldl
    (fun s g => suspendGroup g s) s

/-- PREEMPT_REQUEST (R299, R301). -/
def execPreemptRequest (d x : Nat) (s : State) : Out := .next (preempt d x s)

/-- The blocks that are saved with block b: of a travel launch every block that has not ended (R300, R343). -/
def crewBlocks (s : State) (b : Nat) : List Nat :=
  match s.blocks[b]? with
  | none => []
  | some B =>
    match s.launches[B.launch]? with
    | some L =>
      if L.travel.isSome then
        (s.blocks.zipIdx.filter (fun (C, _) => decide (C.launch = B.launch) && (C.st == .running || C.st == .suspended || C.st == .draining))).map (·.2)
      else [b]
    | none => []

/-- The cores of block b's crew; of a travel launch its segment cores and reserve. -/
def crewCores (s : State) (b : Nat) : List Nat :=
  match s.blocks[b]? with
  | none => []
  | some B =>
    match s.launches[B.launch]? with
    | some L => if L.travel.isSome then L.cores else (List.range (2 ^ L.crewLog)).map (fun r => B.core + r)
    | none => []

/-- The groups of some blocks that have not ended. -/
def crewGroups (s : State) (bs : List Nat) : List Nat :=
  (s.groups.zipIdx.filter (fun (G, _) => bs.contains G.block && G.st != .ended)).map (·.2)

/-- Copies n dirty bits. -/
def copyDirty (a b : Nat) (m : NMap Bool) : Nat → NMap Bool
  | 0 => m
  | n + 1 => NMap.set false (copyDirty a b m n) (b + n) (NMap.get false m (a + n))

/-- Copies n bytes of context x with their dirty bits. -/
def copySaved (x a b n : Nat) (s : State) : State :=
  let d := copyDirty (a / 4) (b / 4) s.dirty ((n + 3) / 4)
  { storeBytes x b (loadBytes s x a n) s with dirty := d }

/-- The ranges of scratchpad that belong to a crew: core, offset, bytes. -/
def crewRanges (s : State) (b : Nat) : List (Nat × Nat × Nat) :=
  match s.blocks[b]? with
  | none => []
  | some B =>
    match s.launches[B.launch]? with
    | none => []
    | some L =>
      if L.travel.isSome then L.cores.map (fun c => (c, 0, scratchBytes))
      else
        ((List.range (2 ^ L.crewLog)).map (fun r => (B.core + r, B.part, partSize (imgShared s L.kaddr) L.crewLog))) ++
          (crewGroups s [b]).filterMap (fun g => (s.groups[g]?).map (fun G => (G.core, G.spill, G.spillLen)))

/-- A transfer of the crew's groups still moves bytes (R203). -/
def crewMoving (s : State) (gs : List Nat) : Bool :=
  s.engs.any (fun E => gs.contains E.group && (E.st == .issued || E.st == .started) &&
    (match E.kind with | .copy .. | .gather .. | .scatter .. | .coll .. => true | _ => false))

/-- The suspended groups of the blocks that are saved with block b. -/
def crewHere (s : State) (b : Nat) : List Nat :=
  (crewGroups s (crewBlocks s b)).filter (fun g => match s.groups[g]? with | some G => G.st == .suspended | none => false)

/-- Block b's crew can be saved: it has suspended groups, every group of it is at its MARK, every transfer is complete, and a block
of it runs. -/
def crewStopped (s : State) (b : Nat) : Bool :=
  let gs := crewGroups s (crewBlocks s b)
  !(crewHere s b).isEmpty &&
    gs.all (fun g => match s.groups[g]? with | some G => G.st == .suspended || G.st == .travelling | none => true) &&
    !crewMoving s gs &&
    (crewBlocks s b).any (fun i => match s.blocks[i]? with | some B => B.st == .running || B.st == .draining | none => false)

/-- The counters of context x are saved when no group of it is resident any more (R361). -/
def leaveCounts (x : Nat) (s : State) : State :=
  if (ctxAt s x).ctrSaved || (groupsOf s x).any (fun g => match s.groups[g]? with | some G => G.resident | none => false) then s
  else saveCounts x s

/-- The crew's tiles and scratchpad ranges are saved, its slots, parts and blocks are given back, and with the last resident group of
its context the counters are saved. -/
def suspendCrew (b x : Nat) (s : State) : State :=
  let here := crewHere s b
  let bs := crewBlocks s b
  let ranges := crewRanges s b
  let s := here.foldl (fun s g => saveTiles g s) s
  let s := ranges.foldl (fun s (c, o, n) => copySaved x (keyScratch c o) (saveKey s x c o) n s) s
  let s := here.foldl (fun s g => s.updGroup g (fun G => { G with resident := false })) s
  leaveCounts x { s with
    blocks := bs.foldl (fun l i => modifyAt (fun B => { B with st := .suspended }) l i) s.blocks,
    launches := match s.blocks[b]? with
      | some B => modifyAt (fun L => { L with travel := L.travel.map (fun T => { T with holds := false, rings := L.cores.map (fun c =>
          let C := nth Core.reset s.cores c
          (c, C.rtail, C.rhead)) }) }) s.launches B.launch
      | none => s.launches }

/-- CREW_SUSPEND (R300, R302): with every group of the crew at its MARK and every transfer complete, the crew's state is saved and
its slots and parts are given back. -/
def execCrewSuspend (b : Nat) (s : State) : Out :=
  .next (match (s.blocks[b]?).bind (fun B => s.launches[B.launch]?) with
    | some L => if crewStopped s b then suspendCrew b L.ctx s else s
    | none => s)

/-! ### Room for a crew (R292, R293, R416) -/

/-- Slots and spill areas for groups: group, slot and offset of each; none when some core lacks room. -/
def allocSpills (a : Nat) : List (Nat × Nat) → List Nat → List Nat → Option (List (Nat × Nat × Nat))
  | _, _, [] => some []
  | _, [], _ :: _ => none
  | used, sl :: slr, g :: r =>
    match firstFit used a with
    | none => none
    | some o => (allocSpills a ((o, a) :: used) slr r).map (fun l => (g, sl, o) :: l)

/-- The groups of a block of n groups that rank r of a crew of c takes (R13). -/
def rankGroups (n c r : Nat) : List Nat := (List.range n).filter (fun g => g % c == r)

/-- Room for context x, block b apart, on the crew that begins at core c0 for a block of n groups, with a part of p bytes and spill areas of a bytes: the part's
offset, and core, group, slot and offset of each spill area. -/
def crewRoom (s : State) (x : Nat) (b : Option Nat) (c0 crew n p a : Nat) : Option (Nat × List (Nat × Nat × Nat × Nat)) :=
  let cs := (List.range crew).map (fun r => c0 + r)
  match firstFit (cs.flatMap (heldRanges s x b)) p with
  | none => none
  | some o =>
    (cs.zipIdx.foldl (fun (acc : Option (List (Nat × Nat × Nat × Nat))) e =>
      match acc, allocSpills a ((o, p) :: heldRanges s x b e.1) (freeSlotsFor s x b e.1) (rankGroups n crew e.2) with
      | some l, some r => some (l ++ r.map (fun t => (e.1, t.1, t.2.1, t.2.2)))
      | _, _ => none) (some [])).map (fun l => (o, l))

/-- The fewest free slots on a core of the crew. -/
def crewFree (s : State) (c0 crew : Nat) : Nat := (List.range crew).foldl (fun m r => min m (freeSlots s (c0 + r)).length) 32

/-- Cores that a travel launch other than l has named (R325). -/
def travelCores (s : State) (l : Nat) : List Nat :=
  s.launches.zipIdx.flatMap (fun (M, m) => if m ≠ l ∧ !M.complete then M.cores else [])

/-- Of crews with room, the one whose fullest core has the most free slots, ties to the lowest (R292). -/
def bestCrew {α : Type} (s : State) (crew : Nat) (fit : Nat → Option α) (cores : List Nat) : Option (Nat × α) :=
  (cores.foldl (fun (acc : Option (Nat × Nat × α)) c =>
    match fit c, acc with
    | none, _ => acc
    | some f, none => some (crewFree s c crew, c, f)
    | some f, some (n, _, _) => if n < crewFree s c crew then some (crewFree s c crew, c, f) else acc) none).map (fun r => (r.2.1, r.2.2))

/-- The first cores of the aligned crews of a cluster that launch l may use. -/
def clusterCrews (s : State) (l cl crew : Nat) : List Nat :=
  if (match s.dies[dieOf (8 * cl)]? with | some D => D.on | none => false) then
    ((List.range (8 / crew)).map (fun k => 8 * cl + k * crew)).filter (fun c =>
      !(List.range crew).any (fun r => (travelCores s l).contains (c + r)))
  else []

/-! ### Placement (R292, R293) -/

/-- The lowest unplaced block of launch L in cluster cl. -/
def nextBlock (L : Launch) (cl : Nat) : Option Nat :=
  (L.ranges.filter (fun r => r.1 = cl)).foldl (fun (m : Option Nat) r => match m with | none => some r.2.1 | some n => some (min n r.2.1)) none

/-- Block b has left the ranges of cluster cl. -/
def takeBlock (cl b : Nat) (rs : List (Nat × Nat × Nat)) : List (Nat × Nat × Nat) :=
  rs.filterMap (fun r => if r.1 = cl ∧ r.2.1 = b then (if r.2.1 + 1 < r.2.2 then some (cl, b + 1, r.2.2) else none) else some r)

/-- The scope that covers the core where group G stopped and core c, where it goes on (R224). -/
def moveScope (s : State) (G : Group) (c : Nat) : Nat :=
  let crew := match launchOfBlk s G.block with | some L => 2 ^ L.crewLog | none => 1
  if G.core = c then 1 else if G.core / crew = c / crew then 2 else if dieOf G.core = dieOf c then 3 else 4

/-- A group placed on a core at a slot with its spill area; its accesses before the stop are released to where it goes on (R224). -/
def seatGroup (g c slot off len : Nat) (s : State) : State :=
  let sc := match s.groups[g]? with | some G => moveScope s G c | none => 0
  let s := if (s.groups[g]?).any (fun G => G.core ≠ c) then settleScopes g s else s
  let s := match s.groups[g]? with | some G => startsOn (groupCtx s G) (dieOf c) s | none => s
  let s := s.updGroup g (fun G => { G with core := c, slot := slot, resident := true, spill := off, spillLen := len, wbuf := G.wbuf.map (Held.release sc) })
  let s := match s.groups[g]? with | some G => comeBack (groupCtx s G) s | none => s
  { s with cores := modifyAt (Core.fresh slot) s.cores c }

/-- Places the next block of launch l on cluster cl: none when it has no room or no stamps are free (R232, R292). -/
def placeNext (l cl : Nat) (s : State) : Option State :=
  match s.launches[l]? with
  | none => none
  | some L =>
    let crew := 2 ^ L.crewLog
    let n := L.ntid / 128
    let d := dieOf (8 * cl)
    let p := partSize (imgShared s L.kaddr) L.crewLog
    let past := overLimit s L d 0
    let a := if past then 0 else spillArea s L d 0
    match nextBlock L cl, bestCrew s crew (fun c => crewRoom s L.ctx none c crew n p a) (clusterCrews s l cl crew) with
    | some bid, some (c0, part, seats) =>
      if !stampsFree s L.ctx n then none
      else
        let b := s.blocks.length
        let s := { s with
          blocks := s.blocks ++ [{ launch := l, bid := bid, core := c0, st := .running, arrivals := [], ended := [], part := part }],
          launches := modifyAt (fun L => { L with ranges := takeBlock cl bid L.ranges, waiting := L.waiting.filter (fun w => w.1 ≠ cl) }) s.launches l,
          clusters := modifyAt (fun C => { C with hold := if C.hold = some l then none else C.hold }) s.clusters cl }
        let s := (List.range crew).foldl (fun s r => startWords (c0 + r) part p s) s
        let g0 := s.groups.length
        let s := (List.range n).foldl (fun s gid =>
          let st := (freeStamp s L.ctx).getD 0
          let S := entrySide s L.kaddr (BitVec.allOnes 128) (kernelArgs s L)
          { s with groups := s.groups ++ [{ newGroup b gid S with stamp := st, rank := gid % crew, core := c0 + gid % crew }] }) s
        let s := seats.foldl (fun s (c, gid, slot, off) => seatGroup (g0 + gid) c slot off a s) s
        some ((List.range n).foldl (fun s gid =>
          if past then xlatFault (g0 + gid) .regionLimit L.kaddr (s.updGroup (g0 + gid) (fun G => { G with st := .ready }))
          else enterTranslation (g0 + gid) s) s)
    | _, _ => none

/-- Launches that may place blocks on cluster cl, higher levels first, then in order of acceptance. -/
def placeOrder (s : State) (cl : Nat) : List Nat :=
  (List.range 4).flatMap (fun pr => (s.launches.zipIdx.filter (fun (L, _) =>
    decide (L.prio = pr) && L.travel.isNone && !L.complete && (nextBlock L cl).isSome && (ctxAt s L.ctx).st == .live && !seedWaits s L.ctx)).map (·.2))

/-- A block of launch l begins to wait for room on cluster cl. -/
def beginWait (l cl : Nat) (s : State) : State :=
  match s.launches[l]? with
  | none => s
  | some L =>
    if L.waiting.any (fun w => w.1 = cl) then s
    else { s with launches := modifyAt (fun L => { L with waiting := L.waiting ++ [(cl, s.time)] }) s.launches l }

/-- Places the first block in order that has room; none later than one that has waited 1 ms (R293). -/
def placeFirst (cl : Nat) : List Nat → State → State
  | [], s => s
  | l :: r, s =>
    match placeNext l cl s with
    | some s => s
    | none =>
      let s := beginWait l cl s
      if (match s.clusters[cl]? with | some C => C.hold == some l | none => false) then s else placeFirst cl r s

/-- BLOCK_PLACE (R292, R293). -/
def execBlockPlace (cl : Nat) (s : State) : Out := .next (placeFirst cl (placeOrder s cl) s)

/-- BLOCK_WAIT_LIMIT (R293): the first block in order that has waited 1 ms holds every later one back. -/
def execBlockWaitLimit (cl : Nat) (s : State) : Out :=
  .next (match (placeOrder s cl).find? (fun l => match s.launches[l]? with
      | some L => L.waiting.any (fun w => w.1 == cl && decide (w.2 + 1000000 ≤ s.time))
      | none => false) with
    | some l => { s with clusters := modifyAt (fun C => { C with hold := some l }) s.clusters cl }
    | none => s)

/-- The range to steal from: the largest of some clusters, ties to the lowest cluster; a range of one block is never split. -/
def stealFrom (rs : List (Nat × Nat × Nat)) (mine : Nat → Bool) : Option (Nat × Nat × Nat) :=
  (rs.filter (fun r => mine r.1 && decide (r.2.1 + 2 ≤ r.2.2))).foldl (fun (m : Option (Nat × Nat × Nat)) r =>
    match m with
    | none => some r
    | some q => if q.2.2 - q.2.1 < r.2.2 - r.2.1 ∨ (q.2.2 - q.2.1 = r.2.2 - r.2.1 ∧ r.1 < q.1) then some r else some q) none

/-- WORK_STEAL (R291): cluster cl, with no unplaced block of launch l left and with room for one, takes the upper half of a
sibling's range, or of another die's when its die is empty. -/
def execWorkSteal (l cl : Nat) (s : State) : Out :=
  .next (match s.launches[l]? with
    | none => s
    | some L =>
      let d := dieOf (8 * cl)
      let crew := 2 ^ L.crewLog
      let room := bestCrew s crew (fun c => crewRoom s L.ctx none c crew (L.ntid / 128) (partSize (imgShared s L.kaddr) L.crewLog)
        (if overLimit s L d 0 then 0 else spillArea s L d 0)) (clusterCrews s l cl crew)
      if L.travel.isSome ∨ L.complete ∨ (nextBlock L cl).isSome ∨ room.isNone ∨ !L.dies.getLsbD d then s
      else
        let sib := fun (c : Nat) => decide (dieOf (8 * c) = d)
        let from_ := if L.ranges.any (fun r => sib r.1) then stealFrom L.ranges sib else stealFrom L.ranges (fun c => !sib c)
        match from_ with
        | none => s
        | some (c, lo, hi) =>
          let k := (hi - lo) / 2
          { s with launches := modifyAt (fun L => { L with
              ranges := L.ranges.map (fun r => if r = (c, lo, hi) then (c, lo, hi - k) else r) ++ [(cl, hi - k, hi)] }) s.launches l })

/-- BLOCK_DONE (R294, R342): every token Complete or Failed, every tile set released, no transfer to its scratchpad, and every
handler group ended. -/
def execBlockDone (b : Nat) (s : State) : Out :=
  .next (match s.blocks[b]? with
    | none => s
    | some B =>
      let mine := s.groups.zipIdx.filter (fun (G, _) => decide (G.block = b))
      let quit := mine.all (fun (G, g) => G.st == .ended && G.acc.isNone && G.toks.all (fun t => t.st != .pending)
        && !s.engs.any (fun E => E.group == g && E.st != .gated && E.st != .finished))
      if B.st = .draining ∧ quit then endBlock b .done s else s)

/-! ### Resumption of a crew (R303, R343) -/

/-- A group that takes its seat runs on: its context is live, or a STEP runs it alone (R364). -/
def mayRun (s : State) (g : Nat) : Bool :=
  (s.groups[g]?).any (fun G => (ctxAt s (groupCtx s G)).st == .live || G.stepping.isSome)

/-- The groups of a crew take their seats, their tiles with them, and those that may run resume. -/
def seatCrew (seats : List (Nat × Nat × Nat × Nat × Nat)) (s : State) : State :=
  let t := seats.foldl (fun s (g, c, slot, off, len) => seatGroup g c slot off len s) s
  let t := seats.foldl (fun t e => seatTiles s e.1 t) t
  seats.foldl (fun s e => if mayRun s e.1 then resumeGroup e.1 s else s) t

/-- Seats on the crew that begins at core c0 for the groups of block b, with spill areas of a bytes: the part's offset, and group,
core, slot, offset and bytes of each; none when there is no room. -/
def crewSeats (b c0 a : Nat) (s : State) : Option (Nat × List (Nat × Nat × Nat × Nat × Nat)) :=
  match (s.blocks[b]?).bind (fun B => s.launches[B.launch]?) with
  | none => none
  | some L =>
    let crew := 2 ^ L.crewLog
    let p := partSize (imgShared s L.kaddr) L.crewLog
    let gs := crewGroups s [b]
    let rankOf := fun (g : Nat) => match s.groups[g]? with | some G => G.rank | none => 0
    match crewRoom s L.ctx (some b) c0 crew 0 p 0 with
    | none => none
    | some (part, _) =>
      let seats := (List.range crew).foldl (fun (acc : Option (List (Nat × Nat × Nat × Nat × Nat))) r =>
        match acc, allocSpills a ((part, p) :: heldRanges s L.ctx (some b) (c0 + r)) (freeSlotsFor s L.ctx (some b) (c0 + r)) (gs.filter (fun g => rankOf g = r)) with
        | some l, some t => some (l ++ t.map (fun e => (e.1, c0 + r, e.2.1, e.2.2, a)))
        | _, _ => none) (some [])
      seats.map (fun l => (part, l))

/-- A group whose gated operations follow storage that has moved. -/
def Group.rekeyed (f : Nat → Nat) (G : Group) : Group :=
  { G with sides := G.sides.map (fun S => { S with gated := S.gated.map (GOp.moved f) }),
           native := G.native.map (fun N => { N with gated := N.gated.map (fun e => (e.1, e.2.moved f)) }) }

/-- The shared parts of a saved block return to the crew that begins at core c0, at offset part. -/
def returnParts (b c0 part : Nat) (s : State) : State :=
  match (s.blocks[b]?).bind (fun B => (s.launches[B.launch]?).map (fun L => (B, L))) with
  | none => s
  | some (B, L) =>
    let p := partSize (imgShared s L.kaddr) L.crewLog
    let s := (List.range (2 ^ L.crewLog)).foldl (fun s r =>
      copySaved L.ctx (saveKey s L.ctx (B.core + r) B.part) (keyScratch (c0 + r) part) p s) s
    let f := fun (k : Nat) => ((List.range (2 ^ L.crewLog)).find? (fun r => decide (keyScratch (B.core + r) B.part ≤ k)
      && decide (k < keyScratch (B.core + r) B.part + p))).elim k (fun r => moveKey (keyScratch (B.core + r) B.part) (keyScratch (c0 + r) part) p k)
    { s with groups := s.groups.map (fun G => if G.block = b then G.rekeyed f else G), blocks := modifyAt (fun B => { B with st := .running, core := c0, part := part }) s.blocks b }

/-- Puts a saved crew of block b on the crew that begins at core c0, with spill areas of a bytes: none when there is no room. -/
def seatBlock (b c0 a : Nat) (s : State) : Option State :=
  match crewSeats b c0 a s with
  | none => none
  | some (part, seats) =>
    let s := seats.foldl (fun s (g, c, _, off, len) => match s.groups[g]? with
      | some G => copySaved (groupCtx s G) (saveKey s (groupCtx s G) G.core G.spill) (keyScratch c off) (min len G.spillLen) s
      | none => s) s
    some (seatCrew seats (returnParts b c0 part s))

/-- The new core of an old one. -/
def renamed (m : List (Nat × Nat)) (c : Nat) : Nat := match m.find? (fun e => e.1 = c) with | some e => e.2 | none => c

/-- Core k takes a segment core of travel launch l: nothing is resident there, no other travel launch that runs holds it, and where it is
not one of the launch's own, no other has named it and no bytes of the context stand saved from there. -/
def takesSegment (s : State) (L : Launch) (l k : Nat) : Bool :=
  (residents s k).isEmpty && (usedRanges s k).isEmpty &&
    !s.launches.zipIdx.any (fun (M, m) => m != l && !M.complete && M.cores.contains k && M.travel.any Travel.holds) &&
    (L.cores.contains k || (!(travelCores s l).contains k && (heldRanges s L.ctx none k).isEmpty))

/-- The cores on which a travel launch resumes (R343), old and new: its own where core c is one of them, else other free cores of its
die, in order from c; its reserve stays. -/
def resumeMap (s : State) (L : Launch) (T : Travel) (l c : Nat) : Option (List (Nat × Nat)) :=
  let d := launchDie L
  let keep := (replicas T.rsrv).map (fun b => dieBase d + b)
  let segs := L.cores.filter (fun k => !keep.contains k)
  let next := ((List.range (dieCores d)).map (fun i => dieBase d + (c - dieBase d + i) % dieCores d)).filter (fun k => !keep.contains k && takesSegment s L l k)
  if !keep.all (takesSegment s L l) then none
  else if L.cores.contains c then (if segs.all (takesSegment s L l) then some (segs.map (fun k => (k, k))) else none)
  else if dieOf c = d ∧ segs.length ≤ next.length then some (segs.zip next) else none

/-- A scratchpad key of an old core as it stands on the new one. -/
def coreKey (m : List (Nat × Nat)) (k : Nat) : Nat :=
  match m.find? (fun e => decide (keyScratch e.1 0 ≤ k) && decide (k < keyScratch e.1 0 + scratchBytes)) with
  | some e => moveKey (keyScratch e.1 0) (keyScratch e.2 0) scratchBytes k
  | none => k

/-- A segment's replica set on the new cores of a die. -/
def renamedSet (m : List (Nat × Nat)) (d : Nat) (w : DWord) : DWord :=
  (replicas w).foldl (fun (v : DWord) b => v ||| (1 <<< (renamed m (dieBase d + b) - dieBase d))) 0

/-- The ring counters of a suspended launch, restored to its cores. -/
def restoreRings (m : List (Nat × Nat)) (T : Travel) (s : State) : State :=
  { s with cores := T.rings.foldl (fun cs e => modifyAt (fun C => { C with rtail := e.2.1, rhead := e.2.2 }) cs (renamed m e.1)) s.cores }

/-- MAPW and SMAP name the new cores; VER and MSIG do not change (R343). -/
def remapSegments (m : List (Nat × Nat)) (l : Nat) (L : Launch) (T : Travel) (s : State) : State :=
  if m.all (fun e => e.1 = e.2) then s
  else
    let new := T.mapw.map (renamedSet m (launchDie L))
    let s := { s with
      launches := modifyAt (fun L => { L with travel := L.travel.map (fun T => { T with mapw := new }) }) s.launches l,
      recs := s.recs.map (fun r => if r.launch = l then { r with core := renamed m r.core } else r) }
    syncControl l (new.zipIdx.foldl (fun s e => match ctxKey s L.ctx (T.smap + 8 * e.2) false with
      | some k => if nth 0 T.mapw e.2 = e.1 then s else storeWord L.ctx k e.1 s
      | none => s) s)

/-- Every group of block b has ended: it drains (R294). -/
def blockOver (s : State) (b : Nat) : Bool := s.groups.all (fun G => decide (G.block ≠ b) || G.st == .ended)

/-- A travel launch resumes on the cores that c gives: rings, counters, regions and groups are there again (R325, R343). -/
def seatTravel (b c : Nat) (L : Launch) (l : Nat) (s : State) : Option State :=
  L.travel.bind (fun T => (resumeMap s L T l c).map (fun m =>
    let bs := crewBlocks s b
    let gs := (crewGroups s bs).filter (fun g => match s.groups[g]? with | some G => G.st == .suspended && !(s.recs.any (fun r => r.group == g)) | none => false)
    let s := restoreRings m T (m.foldl (fun s e => copySaved L.ctx (saveKey s L.ctx e.1 0) (keyScratch e.2 0) scratchBytes s) s)
    let s := gs.foldl (fun s g => s.updGroup g (Group.rekeyed (coreKey m))) s
    let s := { s with
      blocks := bs.foldl (fun l i => modifyAt (fun B => { B with st := if blockOver s i then .draining else .running }) l i) s.blocks,
      launches := modifyAt (fun L => { L with travel := L.travel.map (fun T => { T with holds := true, rings := [] }) }) s.launches l }
    seatCrew (gs.filterMap (fun g => (s.groups[g]?).map (fun G => (g, renamed m G.core, G.slot, G.spill, G.spillLen)))) (remapSegments m l L T s)))

/-- Crews of a cluster that block b of launch l may resume on: where no travel launch has named a core, and the block's own, which a travel
launch that waits for them awaits, unless it holds them (R303, R325). -/
def resumeCrews (s : State) (b l cl crew : Nat) : List Nat :=
  let own := match s.blocks[b]? with
    | some B => if decide (B.core / 8 = cl) && (match s.dies[dieOf B.core]? with | some D => D.on | none => false)
          && !(List.range crew).any (fun r => s.launches.zipIdx.any (fun (M, m) => m != l && !M.complete && M.cores.contains (B.core + r) && M.travel.any Travel.holds))
        then [B.core] else []
    | none => []
  uniq (clusterCrews s l cl crew ++ own)

/-- The priority of a context: the highest level of its incomplete launches; 4 with none (R299). -/
def ctxPrio (s : State) (x : Nat) : Nat := s.launches.foldl (fun m L => if L.ctx = x ∧ !L.complete then min m L.prio else m) 4

/-- A travel launch waits for its cores (R325). -/
def travelWaits (s : State) (L : Launch) (l : Nat) : Bool :=
  L.travel.any (fun T => !T.holds) && !L.complete && !s.blocks.any (fun B => decide (B.launch = l))

/-- An accepted block of launch L waits for die d: one not placed, one suspended, or a travel launch that waits for its cores. -/
def waitsFor (s : State) (d : Nat) (L : Launch) (l : Nat) : Bool :=
  !L.complete && (if L.travel.isSome then decide (launchDie L = d) && travelWaits s L l else L.ranges.any (fun r => decide (dieOf (8 * r.1) = d)))
  || s.blocks.any (fun B => decide (B.launch = l) && B.st == .suspended && (if L.travel.isSome then decide (launchDie L = d) else dieIsN B.die == dieIsN d))

/-- Another live context is to come to die d before context x comes back: blocks of it wait for the die, no group of it is there, and it has
the higher priority, or the same and has run there less recently (R6; log entry 84). -/
def turnBefore (s : State) (d x : Nat) : Bool :=
  s.launches.zipIdx.any (fun (L, l) =>
    let y := L.ctx
    y != x && (ctxAt s y).st == .live && waitsFor s d L l
      && !(groupsOf s y).any (fun g => match s.groups[g]? with | some G => G.resident && decide (dieOf G.core = d) | none => false)
      && (decide (ctxPrio s y < ctxPrio s x)
        || decide (ctxPrio s y = ctxPrio s x) && decide (nth 0 (ctxAt s y).resumed d < nth 0 (ctxAt s x).resumed d)))

/-- The crew of a suspended block is to come back: its context is live, or a STEP waits for one of its groups (R303, R364). -/
def crewCalled (s : State) (b x : Nat) : Bool :=
  (ctxAt s x).st == .live || (crewGroups s (crewBlocks s b)).any (fun g => (s.groups[g]?).any (fun G => G.stepping.isSome))

/-- CREW_RESUME (R303, R343): a suspended block of a live context, or of one with a STEP of one of its groups, resumes on an aligned crew of a die of the same kind, after a seed that
waits for it (R202), and where its turn has come (R6). -/
def execCrewResume (b core : Nat) (s : State) : Out :=
  .next (match s.blocks[b]? with
    | none => s
    | some B =>
      match s.launches[B.launch]? with
      | none => s
      | some L =>
        let crew := 2 ^ L.crewLog
        let d := dieOf core
        if B.st ≠ .suspended ∨ !crewCalled s b L.ctx ∨ (ctxAt s L.ctx).newSeed.isSome ∨ turnBefore s d L.ctx then s
        else
          let r := if L.travel.isSome then seatTravel b core L B.launch s
            else if core % crew ≠ 0 ∨ 208 ≤ core ∨ dieIsN d ≠ dieIsN B.die ∨ !(resumeCrews s b B.launch (core / 8) crew).contains core then none
            else seatBlock b core (match (crewGroups s [b]).head?.bind (fun g => s.groups[g]?) with | some G => G.spillLen | none => 0) s
          match r with
          | none => s
          | some s => { s with ctxs := modifyAt (fun C => { C with resumed := modifyAt (fun _ => s.time) C.resumed d }) s.ctxs L.ctx })

/-! ### Time slicing (R299) -/

/-- A suspended crew that die d could take and has no room for: of a kind with its die, or of travel on its own. -/
def crewStuck (s : State) (d b : Nat) (B : Block) (L : Launch) : Bool :=
  B.st == .suspended &&
    (if L.travel.isSome then decide (launchDie L = d) && (List.range (dieCores d)).all (fun i => (seatTravel b (dieBase d + i) L B.launch s).isNone)
     else (dieIsN d == dieIsN B.die) && (List.range 26).all (fun cl => decide (dieOf (8 * cl) ≠ d) ||
       (resumeCrews s b B.launch cl (2 ^ L.crewLog)).all (fun c => (crewSeats b c
         (match (crewGroups s [b]).head?.bind (fun g => s.groups[g]?) with | some G => G.spillLen | none => 0) s).isNone)))

/-- A context of at least the priority of x has a block, not placed or suspended, that no crew of die d can take. -/
def blockStuck (s : State) (d x : Nat) : Bool :=
  let rival := fun (L : Launch) => L.ctx != x && !L.complete && (ctxAt s L.ctx).st == .live && decide (ctxPrio s L.ctx ≤ ctxPrio s x)
  s.launches.zipIdx.any (fun (L, l) => rival L && L.travel.isNone && L.ranges.any (fun r => decide (dieOf (8 * r.1) = d)) &&
    (List.range 26).all (fun cl => decide (dieOf (8 * cl) ≠ d) || (placeNext l cl s).isNone))
  || s.launches.zipIdx.any (fun (L, l) => rival L && decide (launchDie L = d) && travelWaits s L l)
  || s.blocks.zipIdx.any (fun (B, b) => match s.launches[B.launch]? with | some L => rival L && crewStuck s d b B L | none => false)

/-- QUANTUM_EXPIRY (R299): the first case of pre-emption. -/
def execQuantumExpiry (d x : Nat) (s : State) : Out :=
  .next (
    let C := ctxAt s x
    if nth 0 C.resumed d + 1000 * C.quant ≤ s.time ∧ blockStuck s d x then preempt d x s else s)

/-! ### Issue (R296) -/

/-- The choice among ready candidate indices: the oldest of age 64 or more, ties to the lowest index; else the first after the
pointer, modulo 64. -/
def pickCand (ptr : Nat) (ages : NMap Nat) (cs : List Nat) : Option Nat :=
  let oldest := cs.foldl (fun (m : Option Nat) c => match m with
    | none => some c
    | some b => if NMap.get 0 ages b < NMap.get 0 ages c ∨ (NMap.get 0 ages b = NMap.get 0 ages c ∧ c < b) then some c else m) none
  match oldest with
  | none => none
  | some c =>
    if 64 ≤ NMap.get 0 ages c then some c
    else ((List.range 64).map (fun i => (ptr + 1 + i) % 64)).find? (fun i => cs.contains i)

/-- Ages after candidate i of cs has been chosen. -/
def aged (ages : NMap Nat) (cs : List Nat) (i : Nat) : NMap Nat :=
  cs.foldl (fun m c => NMap.set 0 m c (if c = i then 0 else NMap.get 0 m c + 1)) ages

/-- The contexts of the blocks and records that wait for a stamp in a clock of core c, one entry each (R232): a cluster's blocks in the
clocks of its first core. -/
def stampWaits (c : Nat) (s : State) : List Nat :=
  s.launches.filterMap (fun L =>
    if c % 8 = 0 ∧ L.waiting.any (fun w => w.1 == c / 8) ∧ (nextBlock L (c / 8)).isSome ∧ !stampsFree s L.ctx (L.ntid / 128) then some L.ctx else none)
  ++ s.recs.filterMap (fun r =>
    match s.groups[r.group]?, s.launches[r.launch]? with
    | some G, some L => if r.core = c ∧ G.stamp = 0 ∧ (freeStamp s L.ctx).isNone then some L.ctx else none
    | _, _ => none)

/-- What a clock counts in contexts: groups that wait for a translation, walks that wait for walks, records that wait for a slot
(R155, R344; R246). -/
def clockEvents (c : Nat) (s : State) : State :=
  let s := (stampWaits c s).foldl (fun s x => chargeEv x 0x75 1 s) s
  let s := (residents s c).foldl (fun s (_, G) => match G.st with
    | .waiting (.translation _) _ => countEv (groupCtx s G) 0x41 1 s
    | _ => s) s
  let s := (s.walks.filter (fun W => walkWaits s W && (match s.groups[W.group]? with | some G => decide (G.core = c) | none => false))).foldl
    (fun s W => chargeEv W.ctx 0x73 1 s) s
  (s.recs.filter (fun r => r.core = c)).foldl (fun s r =>
    if (freeSlots s c).isEmpty then (match s.launches[r.launch]? with | some L => chargeEv L.ctx 0x94 1 s | none => s) else s) s

/-- A cluster that power or temperature limits (R377). -/
def limitedCluster (s : State) (cl : Nat) : Bool :=
  s.power.sthr || s.power.pthr || (match s.dies[dieOf (8 * cl)]? with | some D => D.hot | none => false)

/-- Each microsecond in which a cluster is limited counts in every context with a group resident on it (R377). -/
def countLimited (n : Nat) (s : State) : State :=
  if n = 0 then s
  else
    ((List.range 26).filter (limitedCluster s)).foldl (fun s cl =>
      (uniq (s.groups.filterMap (fun G => if G.resident ∧ G.core / 8 = cl then some (groupCtx s G) else none))).foldl
        (fun s x => countEv x 0xB0 n s) s) s

/-- The least number of 10 ns steps that the time base must have gone on by when core c makes its next clock: no core runs above 800 MHz (R1,
R6). -/
def leastSteps (c : Nat) (s : State) : Nat :=
  let due := ((nth Core.reset s.cores c).clk + 1) * 10 / 8
  (due - s.time) / Config.timeStep

/-- The time base goes on. -/
def passTime (n : Nat) (s : State) : State := countLimited ((s.time + n) / 1000 - s.time / 1000) { s with time := s.time + n }

/-- A clock of core c: the time base goes on by a free number of its 10 ns steps (R317), at least as many as the clock allows; the core's
clock goes on by one. -/
def tickCore (c : Nat) (s : State) : State :=
  clockEvents c (passTime (Config.timeStep * (leastSteps c s + Config.freeNat s.fresh 0))
    { s with fresh := s.fresh + 1, cores := modifyAt (fun C => { C with clk := C.clk + 1 }) s.cores c })

/-- BUNDLE_DISPATCH (R296): one clock of core c. A candidate is chosen; a native side dispatches its bundle into the slot queues, a
portable side its next instruction, which issues next. -/
def execBundleDispatch (c : Nat) (s : State) : Out :=
  .next (
    let s := tickCore c s
    let C := nth Core.reset s.cores c
    let cs := readyCands s c
    match (pickCand C.ptr C.ages (cs.map (·.1))).bind (fun i => cs.find? (fun e => e.1 = i)) with
    | none => s
    | some (i, g, sd) =>
      let s := noteDispatch c i { s with cores := modifyAt (fun C => { C with ptr := i, ages := aged C.ages (cs.map (·.1)) i }) s.cores c }
      match (s.groups[g]?).bind Group.native with
      | some _ => dispatchNative g sd s
      | none => { s.updGroup g (fun G => { G with sides := modifyAt (fun S =>
          { S with turns := S.turns + (if G.stacked then 1 else 0), unchecked := S.unchecked + 1 }) G.sides sd }) with issue := .portable g sd 0 })

/-- A slot unit's choice among the groups' queue heads (R296): group and candidate index. -/
def unitPick (s : State) (c : Nat) (sl : Slot) : Option (Nat × Nat) :=
  let C := nth Core.reset s.cores c
  let cs := (residents s c).filterMap (fun (g, G) => if canIssue G sl && !(sl == .l && rejected s c g) then
      (G.native.bind (fun N => N.head sl)).map (fun e => (2 * G.slot + e.side, g)) else none)
  (pickCand (nth 63 C.uptr (slotIx sl)) (nth [] C.uages (slotIx sl)) (cs.map (·.1))).bind (fun i => (cs.find? (fun e => e.1 = i)).map (fun e => (e.2, i)))

/-- The first slot of a core with a head that may issue. -/
def nativeIssue (s : State) (c : Nat) : Option (Slot × Nat × Nat) :=
  allSlots.findSome? (fun sl => (unitPick s c sl).map (fun e => (sl, e.1, e.2)))

/-- The unit of slot sl on core c has chosen candidate i. -/
def noteUnit (c : Nat) (sl : Slot) (i : Nat) (s : State) : State :=
  let cs := (residents s c).filterMap (fun (g, G) => if canIssue G sl && !(sl == .l && rejected s c g) then (G.native.bind (fun N => N.head sl)).map (fun e => 2 * G.slot + e.side) else none)
  { s with cores := modifyAt (fun C => { C with uptr := modifyAt (fun _ => i) C.uptr (slotIx sl),
                                                uages := modifyAt (fun m => aged m cs i) C.uages (slotIx sl) }) s.cores c }

/-! ### Rotation (R298) -/

/-- A side that has dispatched 4,096 bundles. -/
def rotates (n : Nat) : Bool := decide (4096 ≤ n)

/-- Moves native PC slot i, which stands before a MARK, to the bottom of the stack, and pops the top into its slot. -/
def rotateNative (g i : Nat) (s : State) : State :=
  let s := nCommit g i ((s.updNative g (fun N => N.settleSide i s.fresh)).tick)
  writeStack g (s.updNative g (fun N =>
    match nth none N.slots i, N.stack with
    | some P, T :: r =>
      { N with slots := modifyAt (fun _ => some { T with turns := 0 }) N.slots i, markSlots := modifyAt (fun _ => some T) N.markSlots i,
               stack := r ++ [{ P with turns := 0 }], markStack := r ++ [{ P with turns := 0 }] }
    | _, _ => N))

/-- The PC slot and side of a portable group that has dispatched long enough and stands at its MARK. -/
def dueSide (G : Group) : Option (Nat × Nat) :=
  G.pcSlots.find? (fun e => match G.sides[e.2]? with | some S => rotates S.turns && S.age == 0 && S.gated.isEmpty | none => false)

/-- SIDE_ROTATION (R298): a side of 4,096 dispatches with a side in the stack gives its PC slot to the top of the stack at its next MARK. Portable sides after the
first two running ones stand in the stack, in order. -/
def execSideRotation (g : Nat) (s : State) : Out :=
  .next (match s.groups[g]? with
    | none => s
    | some G =>
      if groupStale s g then s else
      match G.native with
      | some N =>
        (match [0, 1].find? (fun i => match nth none N.slots i with
            | some P => rotates P.turns && isMark (codeOf s G N P.pc) && nativeReady s G N i
            | none => false) with
         | some i => if N.stack.isEmpty ∨ (G.sides[i]?).any (fun S => decide (S.pend ≠ .none)) ∨ G.st ≠ .ready ∨ !N.latch.isEmpty then s else rotateNative g i s
         | none => s)
      | none =>
        match dueSide G with
        | some (_, sd) =>
          if G.st ≠ .ready ∨ !G.stacked then s
          else
            s.updGroup g (fun G =>
              { G with sides := (G.sides.take sd ++ G.sides.drop (sd + 1)) ++ ((G.sides[sd]?).map (fun S => { S with turns := 0 })).toList })
        | none => s)

/-- REGION_COMMIT (R387): a MARK of side sd. -/
def execRegionCommit (g sd : Nat) (s : State) : Out :=
  .next (match s.groups[g]? with
    | none => s
    | some G => if groupStale s g then rollback g s else if G.st = .ready then (if G.native.isSome then nCommit g sd s else commit g sd s) else s)

/-! ### Before a portable instruction (R147) -/

/-- A MARK stands directly before the instruction. -/
def markBefore : Instr → Bool
  | .bar .. | .barwt .. | .kwait .. | .sigwait .. | .nsleep .. | .twait .. | .yield .. | .accacq .. | .accrd .. | .rsdraw .. | .hop .. | .call .. => true
  | _ => false

/-- A breakpoint of the context at the side's address stops it once: the hook stands at a MARK (R364, R393). -/
def hookStop (s : State) (x g sd pc : Nat) : Bool :=
  (ctxAt s x).dbg && (ctxAt s x).bps.contains pc &&
    (match (s.groups[g]?).bind (fun G => G.sides[sd]?) with | some S => !S.skipHook | none => false)

end Sys2Proof.Machine
end

