-- ==== Sys2Proof/Machine/Recovery.lean ====
section
/-! DEFINITION. Timing replays and clock reductions (R399), faults raised outside an instruction (R388), ECC events (R398,
R400), and held faults (R392, R409). -/

namespace Sys2Proof.Machine
open Sys2Proof

/-! ### The timing check (R387, R399) -/

/-- Lowers the clock of a cluster by 50 MHz for 1 ms, never below 400 MHz. -/
def Cluster.lower (now : Nat) (C : Cluster) : Cluster :=
  if 450 ≤ C.mhz then { C with mhz := C.mhz - 50, cuts := C.cuts ++ [now + 1000000] } else C

/-- A timing error of side sd: the rollback of R388 without a report, and after the fourth in a row of one region the clock
reduction. -/
def timingReplay (g sd : Nat) (s : State) : State :=
  match s.groups[g]? with
  | none => s
  | some G =>
    let n := match G.sides[sd]? with | some S => S.replays + 1 | none => 0
    let s := countEv (groupCtx s G) 0xA2 1 (rollback g s)
    if n < 4 then s.updSide g sd (fun S => { S with replays := n })
    else
      let s := countEv (groupCtx s G) 0xA3 1 (s.updSide g sd (fun S => { S with replays := 0 }))
      { s with clusters := modifyAt (Cluster.lower s.time) s.clusters (G.core / 8) }

/-- TIMING_CHECK (R399): the oldest unchecked bundle of side sd passes, or fails and replays its region. -/
def execTimingCheck (g sd : Nat) (err : Bool) (s : State) : Out :=
  .next (match (s.groups[g]?).bind (fun G => (G.sides[sd]?).map (fun S => (G, S))) with
    | none => s
    | some (G, S) =>
      if S.unchecked = 0 ∨ G.st ≠ .ready ∨ !S.live then s
      else if err then timingReplay g sd s
      else s.updSide g sd (fun S => { S with unchecked := S.unchecked - 1 }))

/-- The oldest clock reduction ends. -/
def Cluster.raise (now : Nat) (C : Cluster) : Cluster :=
  match C.cuts with
  | t :: r => if t ≤ now then { C with mhz := min 800 (C.mhz + 50), cuts := r } else C
  | [] => C

/-- CLOCK_RESTORE (R399): a reduction of 1 ms has expired. -/
def execClockRestore (cl : Nat) (s : State) : Out :=
  .next { s with clusters := modifyAt (Cluster.raise s.time) s.clusters cl }

/-! ### Faults from outside an instruction -/

/-- The portable address at which a side of a group stands. -/
def standsAt (G : Group) (sd : Nat) : Nat :=
  match G.native with
  | some N => (match nth none N.slots sd with | some P => N.port P.pc | none => 0)
  | none => (match G.sides[sd]? with | some S => (match S.core.frames with | F :: _ => F.pc | [] => 0) | none => 0)

/-- FAULT_ROLLBACK (R388, R390): a fault of side sd, which the hardware reports outside an instruction's own step. The causes of
a token alone reach no group. -/
def execFaultRollback (g sd : Nat) (c : Cause) (lane : BitVec 8) (aux : DWord) (s : State) : Out :=
  .next (match s.groups[g]? with
    | none => s
    | some G =>
      if G.st = .ended ∨ !(match G.sides[sd]? with | some S => S.live | none => false) ∨ c = .collectiveMismatch ∨ c = .collectiveTimeout then s
      else faultAt g sd c (standsAt G sd) (if lane = 0xFF then none else some lane.toNat) aux s)

/-! ### ECC (R398, R400) -/

/-- A group runs translation t, or has a frame that does. -/
def Group.runs (t : Nat) (G : Group) : Bool :=
  G.st != .ended && (G.translation == some t || G.sides.any (fun S => (S.core.frames ++ S.mark.frames).any (fun F => F.xlat == some t)))

/-- The groups of a core that run translation t. -/
def runningXlat (s : State) (c t : Nat) : List Nat := ((residents s c).filter (fun e => e.2.runs t)).map (·.1)

/-- Counts an event once in the context of each of some groups. -/
def countGroups (gs : List Nat) (ev : Nat) (s : State) : State :=
  (uniq (gs.filterMap (fun g => (s.groups[g]?).map (groupCtx s)))).foldl (fun s x => chargeEv x ev 1 s) s

/-- A replay of a group's regions (R398). -/
def replayGroup (g : Nat) (s : State) : State := countGroups [g] 0xA1 (rollback g s)

/-- The translation whose pages at position p a core holds. -/
def pageXlat (s : State) (c p : Nat) : Option Nat := ((nth Core.reset s.cores c).pages[p]?).map (·.1)

/-- The context that an event at a storage key is charged to: the owner of its granule. -/
def keyCtx (s : State) (a : Nat) : Nat := (NMap.get (0, 0) s.owner (a / 64)).1

/-- Poison on element i of a tile. -/
def Tile.poisoned (i : Nat) (T : Tile) : Tile := if T.bad.contains i then T else { T with bad := T.bad ++ [i] }

/-- ECC_ERROR (R398): a single-bit error is corrected and counted; of a detected multi-bit error the region replays, the word is
poisoned, the page or line is fetched again, or the group receives the uncorrectable-state fault. -/
def execEccError (w : EccSite) (multi : Bool) (s : State) : Out :=
  .next (match w, multi with
    | .register g _ _, false => countGroups [g] 0xA0 s
    | .register g sd current, true =>
      (match s.groups[g]? with
       | none => s
       | some G =>
         if G.st = .ended then s
         else if current then replayGroup g s
         else faultAt g sd .uncorrectableState (standsAt G sd) none 0 s)
    | .istore c p, false => (match pageXlat s c p with | some t => countGroups (runningXlat s c t) 0xA0 s | none => s)
    | .istore c p, true => (match pageXlat s c p with | some t => (runningXlat s c t).foldl (fun s g => replayGroup g s) s | none => s)
    | .word a, false => chargeEv (keyCtx s a) 0xA0 1 s
    | .word a, true => { s with poison := NMap.set false s.poison (a / 4) true }
    | .cleanLine a, false => chargeEv (keyCtx s a) 0xA0 1 s
    | .cleanLine _, true => s
    | .tile g _ _, false => countGroups [g] 0xA0 s
    | .tile g t i, true => updTiles g (fun A => { A with tiles := modifyAt (Tile.poisoned (i % 4096)) A.tiles t }) s)

/-! ### Held faults (R392, R409) -/

/-- The held groups of a context, with the numbers of their log entries. -/
def heldGroups (s : State) (x : Nat) : List (Nat × Nat) :=
  (groupsOf s x).filterMap (fun g => match s.groups[g]? with | some G => G.held.map (fun n => (g, n)) | none => none)

/-- DISP of entry n of a context's log. -/
def dispAt (s : State) (x n : Nat) : Nat := (loadByte s x (faultEntry s x n + 6)).toNat

/-- What DISP decides for a held group: none yet, its resumption, or its class, which is group-fatal. -/
def applyDisp (x g n : Nat) (s : State) : State :=
  match dispAt s x n with
  | 0 => s
  | 1 =>
    let s := s.updGroup g (fun G => { G with held := none })
    if (ctxAt s x).st = .live ∧ onCore s g = true then resumeGroup g s else s
  | _ => endGroup g (s.updGroup g (fun G => { G with held := none }))

/-- DISP_POLL (R392): DISP of every held fault of context x is read, but while a migration of it is pending (R409). -/
def execDispPoll (x : Nat) (s : State) : Out :=
  .next (if (ctxAt s x).migrating then s else (heldGroups s x).foldl (fun s e => applyDisp x e.1 e.2 s) s)

end Sys2Proof.Machine
end

