-- ==== Sys2Proof/Machine/HostPort.lean ====
section
/-! DEFINITION. The host and scale-out peers as agents (R225, R228, R234, R235, R310, R360), and the migration of pages (R199,
R356). -/

namespace Sys2Proof.Machine
open Sys2Proof

/-! ### Accesses through a registered region (R225, R360) -/

/-- Every page of n bytes from va is mapped for context x with a right. -/
def rangeMapped (s : State) (x va n : Nat) (wr : Bool) : Bool :=
  (List.range ((va % 65536 + n + 65535) / 65536)).all (fun i =>
    (ctxKey s x (if i = 0 then va else (va / 65536 + i) * 65536) wr).isSome)

/-- The parts of n bytes from va, which cross no 16-byte boundary (R211): address and length. -/
def hostParts (va n : Nat) : List (Nat × Nat) :=
  (List.range ((va % 16 + n + 15) / 16)).map (fun i =>
    let a := if i = 0 then va else (va / 16 + i) * 16
    (a, min (va + n) (a / 16 * 16 + 16) - a))

/-- The bytes of a write that fall outside header words, one by one (R235). -/
def writeAround (x k : Nat) : List Byte → State → State
  | [], s => s
  | b :: r, s => writeAround x (k + 1) r (if headerAt s k then s else storeBytes x k [b] s)

/-- One part of a host write: discarded on a private or pending line, and the bytes of a header word discarded; either counts event
0x0074, a hidden line once for all its parts, n being 0 or 1 (R234, R235). -/
def hostPut (x n va : Nat) (bs : List Byte) (s : State) : State :=
  match ctxKey s x va true with
  | none => s
  | some k =>
    if hiddenLine s x k then chargeEv x 0x74 n s
    else if noHeader s x k bs.length then storeBytes x k bs s
    else chargeEv x 0x74 1 (writeAround x k bs s)

/-- What a completed host write wakes: a queue whose control line it covers reads TAIL (R285), and DISP is read when it covers the
control line of the fault log (R392). -/
def hostWrote (x va n : Nat) (s : State) : State :=
  let qs := s.queues.filterMap (fun (q, Q) => if Q.ctx = x ∧ Q.en ∧ va < Q.rbase + 64 ∧ Q.rbase < va + n then some q else none)
  let s := qs.foldl (fun s q => readTail q s) s
  let ctl := (hostParts va n).any (fun p => match ctxKey s x p.1 true with | some k => decide (k / 64 = faultCtl s x / 64) | none => false)
  if ctl ∧ !(ctxAt s x).migrating then (heldGroups s x).foldl (fun s e => applyDisp x e.1 e.2 s) s else s

/-- A request that the port refuses (R360): the page tables do not allow it. -/
def hostRefused (s : State) : State := { s with replies := { kind := 0x51, bytes := [] } :: s.replies }

/-- A region of a software context, which names a slot 1 to 63 (R360). -/
def regionCtx (s : State) (x : Nat) : Bool := decide (1 ≤ x) && decide (x < 64) && (ctxAt s x).valid

/-- What a part of a host read obtains: zero on a private or pending line (R234). -/
def hostGet (s : State) (x : Nat) (p : Nat × Nat) : List Byte :=
  match ctxKey s x p.1 false with
  | none => List.replicate p.2 0
  | some k => if hiddenLine s x k then List.replicate p.2 0 else loadBytes s x k p.2

/-- A part on a private or pending line. -/
def hiddenPart (s : State) (x va : Nat) (wr : Bool) : Bool := match ctxKey s x va wr with | some k => hiddenLine s x k | none => false

/-! ### Messages in parts (R211, R225) -/

/-- Part p of a message is performed at its execution point. -/
def msgPart (M : Msg) (p : Nat × Nat) (s : State) : State × List Byte :=
  let s := match ctxKey s M.ctx p.1 M.data.isSome with | some k => reach .outside M.data.isSome k p.2 s | none => s
  let first := if p.1 = M.a ∨ p.1 % 64 = 0 then 1 else 0
  match M.data with
  | some bs => (hostWrote M.ctx p.1 p.2 (hostPut M.ctx first p.1 ((bs.drop (p.1 - M.a)).take p.2) s), [])
  | none => (if hiddenPart s M.ctx p.1 false then chargeEv M.ctx 0x74 first s else s, hostGet s M.ctx p)

/-- A message all of whose parts are performed: a read is answered. -/
def answerMsg (M : Msg) (s : State) : State :=
  match M.data with
  | some _ => s
  | none => { s with replies := { kind := 0x52, bytes := (List.range (hostParts M.a M.n).length).flatMap (fun i =>
      ((M.got.find? (fun e => e.1 = i)).map (·.2)).getD []) } :: s.replies }

/-- Message i goes on: all its parts, or one by free choice and any others, in no stated order. -/
def stepMsg (whole : Bool) (i : Nat) (s : State) : State :=
  match s.msgs[i]? with
  | none => s
  | some M =>
    let go := pickParts s.fresh whole M.rest
    let ps := hostParts M.a M.n
    let r := go.foldl (fun (r : State × List (Nat × List Byte)) k =>
      let t := msgPart M (nth (0, 0) ps k) r.1
      (t.1, (k, t.2) :: r.2)) (s.tick, M.got)
    let M' := { M with rest := M.rest.filter (fun k => !go.contains k), got := if M.data.isSome then [] else r.2 }
    if M'.rest.isEmpty then answerMsg M' { r.1 with msgs := r.1.msgs.eraseIdx i }
    else { r.1 with msgs := modifyAt (fun _ => M') r.1.msgs i }

/-- The message of context x whose turn it is: the accesses of a queue pair are performed in the order posted (log entry 78). -/
def turnMsg (s : State) (x : Nat) : Option Nat := s.msgs.findIdx? (fun M => M.ctx = x)

/-- Every message of context x is performed. -/
def drainMsgs (x : Nat) (s : State) : State :=
  s.msgs.foldl (fun s _ => match turnMsg s x with | some i => stepMsg true i s | none => s) s

/-- A message arrives; one with none of its context before it begins at once. -/
def postMsg (M : Msg) (s : State) : State :=
  let s' := { s with msgs := s.msgs ++ [M] }
  match turnMsg s M.ctx with
  | none => stepMsg false s.msgs.length s'
  | some _ => s'

/-- HOST_RDMA_ATOMIC (R310): fetch-and-add of v, or compare-and-swap of v with cmp, on an aligned word, as one step. -/
def execHostRdmaAtomic (x : Nat) (va : DWord) (cmp : Option DWord) (v : DWord) (s : State) : Out :=
  .next (
    let a := va.toNat
    if !regionCtx s x ∨ a % 8 ≠ 0 then hostRefused s
    else
      let s := drainMsgs x s
      match ctxKey s x a true with
      | none => hostRefused s
      | some k =>
        let s := reach .outside true k 8 s
        let answer := fun (w : DWord) (s : State) => { s with replies := { kind := 0x53, bytes := leBytes 8 w.toNat } :: s.replies }
        if hiddenLine s x k then answer 0 (chargeEv x 0x74 1 s)
        else
          let old := loadWord s x k
          if !noHeader s x k 8 then answer old (chargeEv x 0x74 1 s)
          else
            let put := match cmp with | none => some (old + v) | some c => if old = c then some v else none
            match put with
            | none => answer old s
            | some w => answer old (hostWrote x a 8 (storeWord x k w s)))

/-! ### Leaves of a context's page tables -/

/-- The nonzero entries of a table of n entries at pool offset off: index and entry. -/
def tableEntries (s : State) (off n : Nat) : List (Nat × Nat) :=
  let lo := keyPool off
  (uniq ((s.mem.filter (fun e => decide (lo ≤ e.1) && decide (e.1 < lo + 8 * n))).map (fun e => (e.1 - lo) / 8))).map
    (fun i => (i, leNat (rawBytes s (lo + 8 * i) 8)))

/-- The mapped addresses below a table, by a list of levels: index shift and entries. -/
def leavesFrom (s : State) (off base : Nat) : List (Nat × Nat) → List Nat
  | [] => []
  | (sh, n) :: more =>
    (tableEntries s off n).flatMap (fun (i, e) =>
      if e % 2 = 0 then []
      else if e / 2 % 2 = 1 then [base + i * 2 ^ sh]
      else leavesFrom s (e / 2 ^ 8 % 2 ^ 32 * 2 ^ 8) (base + i * 2 ^ sh) more)

/-- The well-formed leaves of a context, by a walk to each. -/
def leavesOf (s : State) (x : Nat) : List Leaf :=
  (leavesFrom s (ctxAt s x).root 0 [(39, 512), (30, 512), (21, 512), (16, 32)]).filterMap (walk s x)

/-- The die-store pages that a context owns. -/
def dsPages (s : State) (x : Nat) : List Leaf := (leavesOf s x).filter (fun l => isDS l.pa && decide (l.owner = x))

/-- The 64 KiB frames of a context's die-store pages on a die. -/
def framesOn (s : State) (x d : Nat) : Nat :=
  (uniq ((dsPages s x).filterMap (fun l => if homeDie l.pa = d then some (l.pa, l.size) else none))).foldl (fun n p => n + p.2 / 65536) 0

/-- A frame of n bytes at physical address pa that no context maps. -/
def frameFree (s : State) (pa n : Nat) : Bool :=
  (List.range 64).all (fun x => !(ctxAt s x).valid || (leavesOf s x).all (fun l => decide (l.pa + l.size ≤ pa) || decide (pa + n ≤ l.pa)))

/-- A free frame of n bytes on die d, chosen freely: the first from a free starting point. -/
def pickFrame (s : State) (d n : Nat) : Option Nat :=
  let k := dsBytes d / n
  ((List.range k).map (fun i => 2 ^ 39 + d * 2 ^ 36 + (Config.freeNat s.fresh 0 + i) % k * n)).find? (fun pa => frameFree s pa n)

/-! ### Migration of a page (R199, R313, R356) -/

/-- A transfer in flight that reads or writes a page. -/
def Eng.touches (l : Leaf) (E : Eng) : Bool :=
  (E.st == .issued || E.st == .started) &&
    (match E.kind with
     | .coll .. => true
     | k => (engMoves k).any (fun m => (decide (m.dst < l.va + l.size) && decide (l.va < m.dst + m.n)) ||
         (decide (m.src < l.va + l.size) && decide (l.va < m.src + m.n))))

/-- Sparse storage whose entries of n units from a have moved to b. -/
def moveMap {α : Type} [DecidableEq α] (d : α) (a b n : Nat) (m : NMap α) : NMap α :=
  (m.filter (fun e => decide (a ≤ e.1) && decide (e.1 < a + n))).foldl (fun r e => NMap.set d (NMap.set d r e.1 d) (b + (e.1 - a)) e.2) m

/-- A watch moves with the word's execution point. -/
def Watch.moved (f : Nat → Nat) (w : Watch) : Watch := { w with a := f w.a }

/-- A group whose stores and watches follow moved storage, and whose windows on a page are invalidated. -/
def Group.moved (f : Nat → Nat) (va n : Nat) (G : Group) : Group :=
  let G := G.mapWaits (fun w => match w with | .signal w => .signal (w.moved f) | w => w)
  { G with
    sides := G.sides.map (fun S => { S with gated := S.gated.map (GOp.moved f) }),
    wbuf := G.wbuf.map (fun e => { e with op := e.op.moved f }),
    early := G.early.map (fun r => { r with a := f r.a }),
    native := G.native.map (fun N => { N with
      gated := N.gated.map (fun e => (e.1, e.2.moved f)),
      win := N.win.map (fun w => if va < w.vbase + w.size ∧ w.vbase < va + n then { w with stale := true } else w) }) }

/-- The die counters of a page. -/
def pageCounts (s : State) (pa : Nat) : List Nat := NMap.get [0, 0, 0, 0] s.pageCnt pa

/-- The page migrates to physical address pa: contents, tags, owners and line states move, its leaf is rewritten, the counters are
zero, and every TLB and window entry that maps it is invalidated. -/
def movePage (x : Nat) (l : Leaf) (pa : Nat) (s : State) : State :=
  let f := moveKey l.pa pa l.size
  let e := leNat (rawBytes s l.pte 8)
  let e' := e - e / 2 ^ 8 % 2 ^ 32 * 2 ^ 8 + pa / 2 ^ 8 * 2 ^ 8
  let mem := moveMap 0 l.pa pa l.size s.mem
  { s with
    mem := setBytes mem l.pte (leBytes 8 e'),
    tag := moveMap false (l.pa / 8) (pa / 8) (l.size / 8) s.tag,
    lines := moveMap (.shared, 0) (l.pa / 64) (pa / 64) (l.size / 64) s.lines,
    owner := moveMap (0, 0) (l.pa / 64) (pa / 64) (l.size / 64) s.owner,
    poison := moveMap false (l.pa / 4) (pa / 4) (l.size / 4) s.poison,
    pageCnt := NMap.set [0, 0, 0, 0] (NMap.set [0, 0, 0, 0] s.pageCnt l.pa [0, 0, 0, 0]) pa [0, 0, 0, 0],
    groups := s.groups.map (fun G => if groupCtx s G = x then G.moved f l.va l.size else G),
    queues := s.queues.map (fun (q, Q) => (q, if Q.ctx = x then { Q with waits := Q.waits.map (fun w => (w.1, w.2.moved f)) } else Q)),
    cores := s.cores.map (fun C => { C with tlb := C.tlb.filter (fun t => !(decide (t.ctx = x) && decide (l.va < t.va + t.size) && decide (t.va < l.va + l.size))) }) }

/-- A page of the parking region of a travel launch that runs (R324). -/
def parks (s : State) (x : Nat) (l : Leaf) : Bool :=
  s.launches.any (fun L => decide (L.ctx = x) && !L.complete && L.travel.any (fun T => meets T.pbase T.psize l.va l.size))

/-- The conditions under which a page of context x migrates to die d (R199, R324). -/
def mayMigrate (s : State) (x d : Nat) (l : Leaf) : Bool :=
  let C := ctxAt s x
  let h := homeDie l.pa
  let ks := pageCounts s l.pa
  isDS l.pa && decide (l.pa < 2 ^ 40) && decide (l.size < 2 ^ 30) && !l.nomig && !parks s x l && decide (l.owner = x) && decide (d ≠ h) &&
    (match s.dies[d]? with | some D => D.on | none => false) &&
    decide (C.migth ≠ 0) && decide (C.migth ≤ nth 0 ks d) && decide (nth 0 ks h < nth 0 ks d) &&
    decide (framesOn s x d + l.size / 65536 ≤ nth 0 C.quota d) &&
    !s.msgs.any (fun M => decide (M.ctx = x) && meets M.a M.n l.va l.size) &&
    !s.engs.any (fun E => decide (E.ctx = x) && E.touches l) && !s.walks.any (fun W => decide (W.ctx = x) && W.st != .stored && W.st != .failed)

/-- PAGE_MIGRATION (R199, R356): the walk, the move and the swap of the leaf are one step, so the driver's entry is the one that the
swap finds. -/
def execPageMigration (x : Nat) (va : DWord) (d : Nat) (s : State) : Out :=
  .next (match walk s x va.toNat with
    | none => s
    | some l =>
      if !mayMigrate s x d l then s
      else
        match pickFrame s d l.size with
        | some pa => (movePage x l pa s).tick
        | none => s.tick)

/-- COUNTER_HALVING (R199): every counter of the context's pages. -/
def execCounterHalving (x : Nat) (s : State) : Out :=
  .next { s with pageCnt := (dsPages s x).foldl (fun m l =>
    NMap.set [0, 0, 0, 0] m l.pa ((NMap.get [0, 0, 0, 0] m l.pa).map (· / 2))) s.pageCnt }

end Sys2Proof.Machine
end

