-- ==== Sys2Proof/Machine/Contexts.lean ====
section
/-! DEFINITION. The module control space (R347), context slots (R350, R352), seeds (R202), and invalidations (R357). -/

namespace Sys2Proof.Machine
open Sys2Proof

/-! ### Context slots (R350, R352) -/

/-- The die quotas in a slot's fields. -/
def slotQuota (w : BitVec 512) : List Nat := (List.range 4).map (fun d => (w.extractLsb' (160 + 16 * d) 16).toNat)

/-- Every field is in range and aligned (R350, R352): VALID := 1 is allowed. -/
def slotOk (w : BitVec 512) : Bool :=
  let root := (w.extractLsb' 8 28).toNat
  let quant := (w.extractLsb' 96 20).toNat
  let save := (w.extractLsb' 224 40).toNat
  let rsvd := (w.extractLsb' 264 40).toNat
  decide (root % 4096 = 0) && decide (100 ≤ quant) && decide (quant ≤ 1000000) &&
    decide (save % 65536 = 0) && decide (save < 2 ^ 39) && decide (rsvd % 65536 = 0) && decide (rsvd < 2 ^ 39)

/-- The writable fields of a slot, VALID apart, as a write leaves them while VALID is 0. -/
def Ctx.fields (w : BitVec 512) (C : Ctx) : Ctx :=
  { C with dbg := w.getLsbD 5, root := (w.extractLsb' 8 28).toNat, seed := w.extractLsb' 64 32, quant := (w.extractLsb' 96 20).toNat,
           migth := (w.extractLsb' 128 16).toNat, quota := slotQuota w, save := (w.extractLsb' 224 40).toNat,
           rsvd := (w.extractLsb' 264 40).toNat }

/-- A context that has just become live: a new key, counters cleared, no holds (R352, R358). -/
def Ctx.created (now key : Nat) (C : Ctx) : Ctx :=
  { C with valid := true, key := key, st := .live, hhalt := false, shalt := false, keygen := (C.keygen + 1) % 65536,
           counts := List.replicate 16 0, cfgs := List.replicate 16 0, ctrSaved := false, bps := [], wps := [none, none, none, none], dbgHead := 0,
           migrating := false, resumed := [now, now, now, now], pool := [], newSeed := none, seqs := [] }

/-- A software slot in some state. -/
def slotIs (s : State) (x : Nat) (st : CSt) : Bool := decide (1 ≤ x) && decide (x < 64) && (ctxAt s x).st == st

/-- A write of a free slot's fields, with VALID := 1 when v: the context is live when every field is in range (R352). -/
def writeFree (x : Nat) (w : BitVec 512) (v : Bool) (s : State) : State :=
  let (id, s) := s.newId
  { s with ctxs := modifyAt (fun C =>
      let C := C.fields w
      if v && slotOk w then C.created s.time (id + 1) else C) s.ctxs x }

/-- CONTEXT_CREATE (R352): VALID := 1 on a free slot, with the slot fields w. -/
def execContextCreate (x : Nat) (w : BitVec 512) (s : State) : Out := .next (if slotIs s x .free then writeFree x w true s else s)

/-- VALID := 0 on a live or halted context: it ends, and holds are dropped (R352, R376). -/
def endSlot (x : Nat) (s : State) : State :=
  if slotIs s x .live || slotIs s x .halted then
    let s := endContext x s
    { s with ctxs := modifyAt (fun C => { C with hhalt := false, shalt := false }) s.ctxs x }
  else s

/-- CONTEXT_END (R352). -/
def execContextEnd (x : Nat) (s : State) : Out := .next (endSlot x s)

/-- Every engine instruction and walk of a context has ended (R266). -/
def ctxDrained (s : State) (x : Nat) : Bool :=
  !s.engs.any (fun E => decide (E.ctx = x) && (E.st == .issued || E.st == .started)) &&
    !s.walks.any (fun W => decide (W.ctx = x) && (W.st == .claiming || W.st == .claimed || W.st == .marked))

/-! ### Code objects that nothing uses any more (R371) -/

/-- A launch of context x that has not completed uses object i. -/
def objUsed (s : State) (i x : Nat) : Bool := s.launches.any (fun L => decide (L.obj = i) && decide (L.ctx = x) && !L.complete)

/-- Mappings end with the last group that uses them; an object that no context loads or maps is freed with its translations. -/
def reclaim (s : State) : State :=
  let objs := s.objs.zipIdx.map (fun (o, i) =>
    let maps := o.maps.filter (fun x => o.ctxs.contains x || objUsed s i x)
    { o with maps := maps, live := o.live && !(o.ctxs.isEmpty && maps.isEmpty) })
  { s with objs := objs, xlats := s.xlats.map (fun t => { t with live := t.live && (match objs[t.obj]? with | some o => o.live | none => true) }) }

/-- The tag clear of a freed context (R352, R359): its on-die granules carry tag 0, and its lines are shared. -/
def clearOwner (x : Nat) (s : State) : State :=
  let mine := fun (ln : Nat) => onDie (64 * ln) && decide ((NMap.get (0, 0) s.owner ln).1 = x)
  { s with owner := s.owner.filter (fun e => !(onDie (64 * e.1) && decide (e.2.1 = x))),
           lines := s.lines.filter (fun e => !mine e.1), tag := s.tag.filter (fun e => !mine (e.1 / 8)),
           poison := s.poison.filter (fun e => !mine (e.1 / 16)), dirty := s.dirty.filter (fun e => !mine (e.1 / 16)) }

/-- Objects without a context's loads. -/
def Obj.without (x : Nat) (o : Obj) : Obj := { o with ctxs := o.ctxs.filter (· ≠ x), maps := o.maps.filter (· ≠ x) }

/-- CONTEXT_FREE (R352): the drain is complete; the key is destroyed and the slot is free. -/
def execContextFree (x : Nat) (s : State) : Out :=
  .next (if slotIs s x .ending && ctxDrained s x then
      let s := clearOwner x s
      let s := { s with
        engs := s.engs.filter (fun E => decide (E.ctx ≠ x)), walks := s.walks.filter (fun W => decide (W.ctx ≠ x)),
        frames := s.frames.filter (fun f => decide (f.1 ≠ x)), msgs := s.msgs.filter (fun m => decide (m.ctx ≠ x)), objs := s.objs.map (Obj.without x),
        cores := s.cores.map (fun C => { C with tlb := C.tlb.filter (fun t => decide (t.ctx ≠ x)) }),
        ctxs := modifyAt (fun C => { C with st := .free, dbg := false, newSeed := none, pool := [], seqs := [] }) s.ctxs x }
      reclaim s
    else s)

/-! ### Seeds (R202) -/

/-- A new seed: at once without a resident group, else when the last has left; the seed in force written again takes a waiting change back. -/
def changeSeed (x : Nat) (seed : Word) (s : State) : State :=
  { s with ctxs := modifyAt (fun C =>
      if seed = C.seed then { C with newSeed := none }
      else if ctxResident s x then { C with newSeed := some seed } else { C with seed := seed, newSeed := none }) s.ctxs x }

/-- SEED_CHANGE (R202): slice lines of the context are written back and dropped, which no access can tell; the seed takes effect. -/
def execSeedChange (x : Nat) (seed : Word) (s : State) : Out :=
  .next (if slotIs s x .live || slotIs s x .halted then changeSeed x seed s else s)

/-! ### TLBINV (R357) -/

/-- TLBINV's writable fields from its bits. -/
def TlbInv.fields (w : BitVec 128) (T : TlbInv) : TlbInv :=
  { T with ctx := (w.extractLsb' 0 6).toNat, all := w.getLsbD 6, va := (w.extractLsb' 16 48).toNat, len := (w.extractLsb' 64 32).toNat }

/-- A write of TLBINV: with GO it starts an invalidation, unless one runs. -/
def writeTlbInv (w : BitVec 128) (s : State) : State :=
  if w.getLsbD 7 then
    if s.tlbinv.run.isSome then s
    else
      let T := s.tlbinv.fields w
      { s with tlbinv := { T with run := some (T.ctx, T.all, T.va, T.len) } }
  else { s with tlbinv := s.tlbinv.fields w }

/-- TLB_INVALIDATE (R357): TLBINV is written with GO. -/
def execTlbInvalidate (w : BitVec 128) (s : State) : Out := .next (writeTlbInv (w ||| 0x80) s)

/-- An entry of n bytes from va lies in an invalidated range. -/
def invHits (all : Bool) (lo len va n : Nat) : Bool := all || (decide (va < lo + 65536 * len) && decide (lo < va + n))

/-- A group's windows in an invalidated range hold no translation. -/
def Group.invalidated (all : Bool) (lo len : Nat) (G : Group) : Group :=
  { G with native := G.native.map (fun N => { N with win := N.win.map (fun w =>
      if invHits all lo len w.vbase w.size then { w with stale := true } else w) }) }

/-- TLB_INVALIDATE_COMPLETE (R357): every TLB entry and window of the context that covers the range is gone, on every core; accesses of its
groups under the old entries have been performed. -/
def execTlbInvalidateComplete (s : State) : Out :=
  .next (match s.tlbinv.run with
    | none => s
    | some (x, all, lo, len) =>
      let s := (groupsOf s x).foldl (fun s g => (landAll g s).updGroup g (fun G => { G with early := [] })) s
      { s with
        tlbinv := { s.tlbinv with run := none },
        cores := s.cores.map (fun C => { C with tlb := C.tlb.filter (fun t => !(decide (t.ctx = x) && invHits all lo len t.va t.size)) }),
        groups := s.groups.map (fun G => if groupCtx s G = x then G.invalidated all lo len else G) })

/-! ### Register images -/

/-- Bits of a byte list, the first byte lowest. -/
def bytesBits (w : Nat) (bs : List Byte) : BitVec w := BitVec.ofNat w (leNat bs)

/-- Bytes with some replaced from offset o. -/
def patch (old : List Byte) (o : Nat) (bs : List Byte) : List Byte := old.take o ++ bs ++ old.drop (o + bs.length)

/-- A slot's registers as they read (R350); slot 0 reads VALID 1, STATE live and zero elsewhere (R348). -/
def slotImage (s : State) (x : Nat) : BitVec 512 :=
  let C := ctxAt s x
  let st := match C.st with | .free => 0 | .live => 1 | .halted => 2 | .ending => 3
  let b := fun (v : Bool) (i : Nat) => if v then 2 ^ i else 0
  BitVec.ofNat 512 (b C.valid 0 + st * 2 + b C.hhalt 3 + b C.shalt 4 + b C.dbg 5 + C.root * 2 ^ 8 + (C.newSeed.getD C.seed).toNat * 2 ^ 64 + C.quant * 2 ^ 96
    + C.migth * 2 ^ 128 + C.keygen * 2 ^ 144 + (C.quota.zipIdx.foldl (fun n e => n + e.1 * 2 ^ (160 + 16 * e.2)) 0) + C.save * 2 ^ 224
    + C.rsvd * 2 ^ 264)

/-- TLBINV as it reads; GO reads 0. -/
def tlbImage (s : State) : BitVec 128 :=
  BitVec.ofNat 128 (s.tlbinv.ctx + (if s.tlbinv.all then 2 ^ 6 else 0) + (if s.tlbinv.run.isSome then 2 ^ 8 else 0) + s.tlbinv.va * 2 ^ 16
    + s.tlbinv.len * 2 ^ 64)

/-- A queue descriptor as it reads (R284). -/
def queueImage (s : State) (q : Nat) : BitVec 128 :=
  let Q := queueAt s q
  BitVec.ofNat 128 ((if Q.en then 1 else 0) + (if Q.ser then 2 else 0) + Q.prio * 2 ^ 2 + Q.ctx * 2 ^ 4 + Q.logn * 2 ^ 10 + Q.err.toNat * 2 ^ 16
    + Q.head % 2 ^ 32 * 2 ^ 32 + Q.rbase * 2 ^ 64)

/-- PWRCTL as it reads (R377). -/
def powerImage (s : State) : DWord := BitVec.ofNat 64 (s.power.scap + s.power.pcap * 2 ^ 11)

/-! ### Register writes (R347 to R352) -/

/-- A slot's registers take new bits (R352): slot 0 ignores them, a context that ends too. -/
def writeSlot (x : Nat) (w : BitVec 512) (s : State) : State :=
  if x = 0 then s
  else
    match (ctxAt s x).st with
    | .free => writeFree x w (w.getLsbD 0) s
    | .ending => s
    | .live | .halted =>
      if !w.getLsbD 0 then endSlot x s
      else
        let seed := w.extractLsb' 64 32
        let quant := (w.extractLsb' 96 20).toNat
        let s := { s with ctxs := modifyAt (fun C => { C with
          quant := if 100 ≤ quant ∧ quant ≤ 1000000 then quant else C.quant, migth := (w.extractLsb' 128 16).toNat, quota := slotQuota w }) s.ctxs x }
        changeSeed x seed s

/-- A queue descriptor takes new bits (R284, R287). -/
def writeQueue (q : Nat) (d : BitVec 128) (s : State) : State :=
  if (queueAt s q).en then (if d.getLsbD 0 then s else updQueue q Queue.disabled s)
  else if d.getLsbD 0 then enableQueue q d s
  else updQueue q (fun Q => Q.fields d) s

/-- PWRCTL takes new bits: a write with a field outside its range is ignored whole (R377). -/
def writePower (w : DWord) (s : State) : State :=
  let sc := w.toNat % 2 ^ 11
  let pc := w.toNat / 2 ^ 11 % 2 ^ 11
  if 600 ≤ sc ∧ sc ≤ 1600 ∧ sc ≤ pc ∧ pc ≤ 2000 then { s with power := { s.power with scap := sc, pcap := pc } } else s

/-- Which of bytes 0 to 7 of a request a write of n bytes at offset o covers. -/
def seenBytes (o n : Nat) : BitVec 8 :=
  (List.range 8).foldl (fun (m : BitVec 8) i => if o ≤ i ∧ i < o + n then m ||| (1#8 <<< i) else m) 0

/-- A request of the code-object kind: the completing write makes it pending, or refuses it while one is (R349). -/
def Mbox.takeCode (M : Mbox) : Mbox :=
  if M.codeSeen = 0xFF then
    match M.codeRun with
    | none => { M with codeSeen := 0, codeRun := some M.code, code := patch M.code 3 [0] }
    | some _ => { M with codeSeen := 0, code := patch M.code 3 [2] }
  else M

/-- The same for a migration request (R408). -/
def Mbox.takeMig (M : Mbox) : Mbox :=
  if M.migSeen = 0xFF then
    match M.migRun with
    | none => { M with migSeen := 0, migRun := some M.mig, mig := patch M.mig 6 [0] }
    | some _ => { M with migSeen := 0, mig := patch M.mig 6 [2] }
  else M

/-- The part of a write of bs at offset o that covers n bytes from offset b: its offset there and its bytes. -/
def overlap (o : Nat) (bs : List Byte) (b n : Nat) : Option (Nat × List Byte) :=
  if o + bs.length ≤ b ∨ b + n ≤ o then none
  else if o < b then some (0, (bs.drop (b - o)).take n)
  else some (o - b, bs.take (b + n - o))

/-- A write at offset o of the mailbox (R349, R408): request bytes, CAPOFF, MLEN, which submits a message, and the message buffer. -/
def writeMbox (o : Nat) (bs : List Byte) (s : State) : State :=
  let M := s.mbox
  let M := match overlap o bs 0 64 with
    | some (k, b) => Mbox.takeCode { M with code := patch M.code k b, codeSeen := M.codeSeen ||| seenBytes k b.length }
    | none => M
  let M := match overlap o bs 0x40 4 with
    | some (k, b) =>
      let v := leNat (patch (leBytes 4 M.capoff) k b)
      if v % 8 = 0 then { M with capoff := v } else M
    | none => M
  let M := match overlap o bs 0x100 32 with
    | some (k, b) => Mbox.takeMig { M with mig := patch M.mig k b, migSeen := M.migSeen ||| seenBytes k b.length }
    | none => M
  let M := match overlap o bs 0x210 2544 with
    | some (k, b) => { M with spdm := patch M.spdm k b }
    | none => M
  let M := match overlap o bs 0x200 4 with
    | some (k, b) => { M with mlen := leNat (patch (leBytes 4 M.mlen) k b), rlen := 0, spdmSt := 0, spdmRun := true }
    | none => M
  { s with mbox := M }

/-- The last-level entry for an address in the tables below an offset, by levels of index shift and entries; none where a table is missing. -/
def entryAt (s : State) (va off : Nat) : List (Nat × Nat) → Option Nat
  | [] => none
  | (sh, n) :: more =>
    let ea := keyPool (off + 8 * (va / 2 ^ sh % n))
    let e := leNat (rawBytes s ea 8)
    if more.isEmpty then some ea else if e % 4 = 1 then entryAt s va (e / 2 ^ 8 % 2 ^ 32 * 2 ^ 8) more else none

/-- The pages of a code object. -/
def Obj.pages (o : Obj) : List Nat :=
  let top := if o.data.length = 0 then o.laddr + o.textLen else o.dataVa + o.data.length
  (List.range ((top + 65535) / 65536 - o.laddr / 65536)).map (fun i => (o.laddr / 65536 + i) * 65536)

/-- The entries that the loader wrote for its code objects (R370). -/
def loaderEntries (s : State) : List Nat :=
  (s.objs.filter Obj.live).flatMap (fun o => o.maps.flatMap (fun x => o.pages.filterMap (fun va =>
    entryAt s va (ctxAt s x).root [(39, 512), (30, 512), (21, 512), (16, 32)])))

/-- A driver write in the table pool; in the loader's own entries it is ignored (R353, R370). -/
def writePool (o : Nat) (bs : List Byte) (s : State) : State :=
  let es := loaderEntries s
  { s with mem := bs.zipIdx.foldl (fun m (b, i) =>
      if es.any (fun e => decide (e / 8 = keyPool (o + i) / 8)) then m else NMap.set 0 m (keyPool (o + i)) b) s.mem }

/-- The register that an offset of the control space lies in: its first offset, its bytes, and what a write in it does. -/
def regAt (off : Nat) : Option (Nat × Nat × (Nat → List Byte → State → State)) :=
  if off < 0x1000 then
    let x := off / 64
    some (64 * x, 64, fun o bs s => writeSlot x (bytesBits 512 (patch (leBytes 64 (slotImage s x).toNat) o bs)) s)
  else if off < 0x1010 then some (0x1000, 16, fun o bs s => writeTlbInv (bytesBits 128 (patch (leBytes 16 (tlbImage s).toNat) o bs)) s)
  else if 0x2000 ≤ off ∧ off < 0x3000 then some (0x2000, 4096, writeMbox)
  else if 0x10000 ≤ off ∧ off < 0x14000 then
    let q := (off - 0x10000) / 16
    some (0x10000 + 16 * q, 16, fun o bs s => writeQueue q (bytesBits 128 (patch (leBytes 16 (queueImage s q).toNat) o bs)) s)
  else if 0x20000 ≤ off ∧ off < 0x20000 + 104 then
    let c := (off - 0x20000) / 4
    some (0x20000 + 4 * c, 4, fun o bs s =>
      if o = 0 then { s with clusters := modifyAt (fun C => { C with slope := bs.headD C.slope }) s.clusters c } else s)
  else if 0x30000 ≤ off ∧ off < 0x30008 then
    some (0x30000, 8, fun o bs s => writePower (bytesBits 64 (patch (leBytes 8 (powerImage s).toNat) o bs)) s)
  else if 0x10000000 ≤ off ∧ off < 0x20000000 then
    some (0x10000000, 0x10000000, writePool)
  else none

/-- A write split at the registers it covers; offsets that are not listed ignore it (R347). -/
def writeRegs : Nat → Nat → List Byte → State → State
  | 0, _, _, s => s
  | _ + 1, _, [], s => s
  | f + 1, off, b :: r, s =>
    match regAt off with
    | none => writeRegs f (off + 1) r s
    | some (base, n, k) =>
      let m := base + n - off
      writeRegs f (off + m) ((b :: r).drop m) (k (off - base) ((b :: r).take m) s)

/-- REGISTER_WRITE (R347): a write of the module control space. -/
def execRegisterWrite (off : Nat) (bs : List Byte) (s : State) : Out := .next (writeRegs bs.length off bs s)

end Sys2Proof.Machine
end

