-- ==== Sys2Proof/Machine/Loader.lean ====
section
/-! DEFINITION. Code objects: their files (R366 to R368), loading and unloading through the mailbox (R248, R349, R369 to R371,
R379). -/

namespace Sys2Proof.Machine
open Sys2Proof

/-! ### ELF64 files (R366; the ELF layout itself is log entry 34) -/

/-- A section: name, address, offset in the file, bytes, link. -/
structure Sect where
  name : List Byte
  addr : Nat
  off : Nat
  size : Nat
  deriving DecidableEq, Repr

/-- The bytes up to a NUL. -/
def cString : List Byte → List Byte
  | [] => []
  | b :: r => if b = 0 then [] else b :: cString r

/-- The characters of a name as bytes. -/
def nameBytes (n : String) : List Byte := n.toList.map (fun c => BitVec.ofNat 8 c.toNat)

/-- The sections of a file: none when the header is not that of R366 or a section lies outside the file. -/
def elfSections (f : List Byte) : Option (List Sect) :=
  let n := fun (o k : Nat) => blockNat f o k
  if f.length < 64 ∨ n 0 4 ≠ 0x464C457F ∨ n 4 1 ≠ 2 ∨ n 5 1 ≠ 1 ∨ n 16 2 ≠ 3 ∨ n 18 2 ≠ 0x47A1 ∨ n 48 4 ≠ 0 then none
  else
    let sh := n 40 8
    let num := n 60 2
    if n 58 2 ≠ 64 ∨ f.length < sh + 64 * num then none
    else
      let strOff := n (sh + 64 * n 62 2 + 24) 8
      let all := (List.range num).map (fun i =>
        let h := sh + 64 * i
        ({ name := cString (f.drop (strOff + n h 4)), addr := n (h + 16) 8, off := n (h + 24) 8, size := n (h + 32) 8 } : Sect))
      some (all.filter (fun S => decide (S.off + S.size ≤ f.length)))

/-- The section of a name. -/
def sectNamed (ss : List Sect) (name : String) : Option Sect := ss.find? (fun S => S.name = nameBytes name)
/-- A section's bytes. -/
def Sect.bytes (f : List Byte) (S : Sect) : List Byte := (f.drop S.off).take S.size

/-- The parts of a code object that its sections give. -/
structure ElfObj where
  text : List Byte
  ftab : List Byte
  note : List Byte
  syms : List Byte
  data : List Byte
  dataAddr : Nat
  textAddr : Nat
  rela : List Byte
  deriving DecidableEq, Repr

/-- The parts of a file: none under code 0x01. -/
def elfParse (f : List Byte) : Option ElfObj :=
  match elfSections f with
  | none => none
  | some ss =>
    match sectNamed ss ".fk.text", sectNamed ss ".fk.ftab", sectNamed ss ".note.gwelesa", sectNamed ss ".symtab", sectNamed ss ".strtab" with
    | some t, some g, some v, some y, some _ =>
      let nb := v.bytes f
      if v.size < 36 ∨ blockNat nb 0 4 ≠ 8 ∨ blockNat nb 4 4 ≠ 16 ∨ blockNat nb 8 4 ≠ 0x4701 ∨ (nb.drop 12).take 8 ≠ nameBytes "Gwelesa" ++ [0] then none
      else
        let d := sectNamed ss ".data"
        some { text := t.bytes f, ftab := g.bytes f, note := (nb.drop 20).take 16, syms := y.bytes f,
               data := (match d with | some d => d.bytes f | none => []), dataAddr := (match d with | some d => d.addr | none => 0),
               textAddr := t.addr, rela := (match sectNamed ss ".rela.fk" with | some r => r.bytes f | none => []) }
    | _, _, _, _, _ => none

/-! ### The checks of R369 -/

/-- The entries of the function table: byte offset and image bytes (R367). -/
def ElfObj.table (o : ElfObj) : List (Nat × Nat) :=
  (List.range (o.ftab.length / 16)).map (fun i => (blockNat o.ftab (16 * i) 4, blockNat o.ftab (16 * i + 8) 4))

/-- Bytes of an image's header and padded code (R26). -/
def codeExtent (clen : Nat) : Nat := (0x20 + 4 * clen + 7) / 8 * 8

/-- An entry's image lies in the text and has the extent that the entry gives. -/
def imageOk (text : List Byte) (e : Nat × Nat) : Bool :=
  let clen := blockNat text (e.1 + 4) 4
  let pcnt := blockNat text (e.1 + 8) 4
  decide (e.1 + e.2 ≤ text.length) && decide (16 ≤ e.2) && decide (2 ≤ clen) && decide (clen ≤ 1048576) && decide (pcnt ≤ 16384) &&
    decide (codeExtent clen + 8 * pcnt = e.2)

/-- The relocations: offset, type, symbol index, addend. -/
def ElfObj.relocs (o : ElfObj) : List (Nat × Nat × Nat × Nat) :=
  (List.range (o.rela.length / 24)).map (fun i =>
    let b := 24 * i
    (blockNat o.rela b 8, blockNat o.rela (b + 8) 4, blockNat o.rela (b + 12) 4, blockNat o.rela (b + 16) 8))

/-- A byte offset of the text is that of a pool entry. -/
def ElfObj.isPool (o : ElfObj) (r : Nat) : Bool :=
  o.table.any (fun e =>
    let p := e.1 + codeExtent (blockNat o.text (e.1 + 4) 4)
    decide (p ≤ r) && decide (r < p + 8 * blockNat o.text (e.1 + 8) 4) && decide ((r - p) % 8 = 0))

/-- The first check of R369 that fails, 0x07 apart. -/
def ElfObj.refusal (o : ElfObj) : Option Nat :=
  let n := fun (i k : Nat) => blockNat o.note i k
  let es := o.table
  if n 0 1 ≠ 1 ∨ 0 < n 1 1 then some 2
  else if 1 < n 2 1 then some 3
  else if 8 ≤ n 4 4 ∨ n 3 1 < 1 ∨ 2 < n 3 1 then some 4
  else if es.isEmpty ∨ 65536 < es.length ∨ !es.all (imageOk o.text) then some 5
  else if o.relocs.any (fun r => r.2.1 != 1 || decide (r.1 < o.textAddr) || !o.isPool (r.1 - o.textAddr)) then some 6
  else none

/-! ### Placement (R370) -/

/-- Bytes rounded up to whole 64 KiB pages. -/
def pages64 (n : Nat) : Nat := (n + 65535) / 65536 * 65536

/-- The ranges of the code window in use: address and bytes. -/
def codeUsed (s : State) : List (Nat × Nat) :=
  s.objs.filterMap (fun o => if o.live then some (o.laddr, pages64 o.textLen + pages64 o.data.length) else none)

/-- The load address of n bytes: the lowest that is free (log entry 35). -/
def codeRoom (s : State) (n : Nat) : Option Nat :=
  let used := codeUsed s
  let cs := (codeLo :: used.map (fun r => r.1 + r.2)).filter (fun a =>
    decide (a + n ≤ codeHi) && used.all (fun r => decide (r.1 + r.2 ≤ a) || decide (a + n ≤ r.1)))
  match cs with
  | [] => none
  | c :: r => some (r.foldl min c)

/-- The text with its relocations applied: each pool entry receives the symbol's address and the addend. -/
def ElfObj.relocated (o : ElfObj) (dataVa : Nat) : List Byte :=
  o.relocs.foldl (fun t r =>
    let v := blockNat o.syms (24 * r.2.2.1 + 8) 8
    patch t (r.1 - o.textAddr) (leBytes 8 ((dataVa + (v - o.dataAddr) + r.2.2.2) % 2 ^ 64))) o.text

/-- The `.object`s of n bytes of data: each on 64-byte boundaries of its own, its references to headers of these (R248). -/
def legalObjects (n : Nat) (es : List (Nat × Nat × Bool × List (Nat × Nat))) : List (Nat × Nat × Bool × List (Nat × Nat)) :=
  let es := (es.foldl (fun (r : Nat × List (Nat × Nat × Bool × List (Nat × Nat))) e =>
    let z := e.1 + spanLines e.2.1
    if r.1 ≤ e.1 ∧ 64 * z ≤ n then (z, r.2 ++ [e]) else r) (0, [])).2
  es.map (fun e => (64 * e.1, e.2.1, e.2.2.1, e.2.2.2.filterMap (fun r =>
    if r.1 < e.2.1 then (es[r.2]?).map (fun t => (r.1, 64 * t.1)) else none)))

/-- One `.object` of a data section (R248): its header, private and owned by the context, and its references. -/
def writeObject (x : Nat) (o : Obj) (e : Nat × Nat × Bool × List (Nat × Nat)) (s : State) : State :=
  let k := keyData x (o.dataVa + e.1)
  let s := performObjInit x k (mkHdr e.2.1 0 e.2.2.1 0 x 0) (spanLines e.2.1) 0 s
  e.2.2.2.foldl (fun s r => storeTagged x (k + 8 * (r.1 + 1)) (BitVec.ofNat 64 (o.dataVa + r.2)) true s) s

/-- The data section of object o, written fresh for context x. -/
def writeData (x : Nat) (o : Obj) (s : State) : State :=
  o.objects.foldl (fun s e => writeObject x o e s) (storeBytes x (keyData x o.dataVa) o.data s)

/-! ### The mailbox requests (R349) -/

/-- The device answers the pending code-object request: ST, CODE and LADDR are written, then the signal is decremented. -/
def answerCode (x st code : Nat) (laddr : Option Nat) (sig : Nat) (s : State) : State :=
  let M := s.mbox
  let c := patch M.code 3 (leBytes 1 st ++ leBytes 1 code)
  let c := match laddr with | some a => patch c 0x18 (leBytes 8 a) | none => c
  let s := { s with mbox := { M with code := c, codeRun := none } }
  if sig = 0 then s else hwDecrement x sig 1 s

/-- Context x loads object i: its mapping, its count and its fresh data (R371). -/
def loadInto (x i : Nat) (s : State) : State :=
  let s := { s with objs := modifyAt (fun o => { o with ctxs := o.ctxs ++ [x], maps := if o.maps.contains x then o.maps else o.maps ++ [x] }) s.objs i }
  match s.objs[i]? with
  | some o => writeData x o s
  | none => s

/-- A file that the module does not hold yet is checked, placed and relocated: its number, or the refusal code. -/
def installObj (f : List Byte) (h : BitVec 256) (s : State) : Except Nat (Nat × State) :=
  match elfParse f with
  | none => .error 1
  | some e =>
    match e.refusal with
    | some c => .error c
    | none =>
      match codeRoom s (pages64 e.text.length + pages64 e.data.length) with
      | none => .error 7
      | some a =>
        let dataVa := a + pages64 e.text.length
        let o : Obj := { digest := h, laddr := a, textLen := e.text.length, ftab := e.table, feat := blockNat e.note 4 4,
                         mingen := blockNat e.note 3 1, ctxs := [], maps := [], data := e.data, dataVa := dataVa,
                         objects := legalObjects e.data.length (Config.elfObjects f), live := true }
        .ok (s.objs.length, { s with objs := s.objs ++ [o], mem := setBytes s.mem (keyCode a) (e.relocated dataVa) })

/-- CODE_OBJECT_LOAD (R248, R349, R369 to R371, R379): the pending request is answered. A REQ that is neither a load nor an unload is
refused. -/
def execCodeObjectLoad (s : State) : Out :=
  .next (match s.mbox.codeRun with
    | none => s
    | some r =>
      let x := blockNat r 2 1
      let img := blockNat r 8 8
      let len := blockNat r 0x10 8
      let sig := blockNat r 0x20 8
      if blockNat r 0 2 = 0x0012 then s
      else if blockNat r 0 2 ≠ 0x0011 ∨ !(slotIs s x .live || slotIs s x .halted) ∨ img % 64 ≠ 0 ∨ len = 0 ∨ !rangeMapped s x img len false then
        answerCode x 2 0 none sig s
      else
        let s := reclaim s
        let f := ctxBytes s x img len
        let h := digestOf f
        match s.objs.findIdx? (fun o => o.live && o.digest == h) with
        | some i =>
          let a := match s.objs[i]? with | some o => o.laddr | none => 0
          answerCode x 1 0 (some a) sig (loadInto x i s)
        | none =>
          match installObj f h s with
          | .error c => answerCode x 3 c none sig s
          | .ok (i, s) =>
            let a := match s.objs[i]? with | some o => o.laddr | none => 0
            answerCode x 1 0 (some a) sig (loadInto x i s))

/-- CODE_OBJECT_UNLOAD (R349, R371): one load of the object at the request's address is taken back; an object that nothing loads or
uses is freed with its translations. -/
def execCodeObjectUnload (s : State) : Out :=
  .next (match s.mbox.codeRun with
    | none => s
    | some r =>
      let x := blockNat r 2 1
      let sig := blockNat r 0x20 8
      if blockNat r 0 2 ≠ 0x0012 then s
      else
        match s.objs.findIdx? (fun o => o.live && decide (o.laddr = blockNat r 8 8) && o.ctxs.contains x) with
        | none => answerCode x 2 0 none sig s
        | some i =>
          answerCode x 1 0 none sig (reclaim { s with objs := modifyAt (fun o => { o with ctxs := o.ctxs.erase x }) s.objs i }))

end Sys2Proof.Machine
end

