-- ==== Sys2Proof/Machine/Debug.lean ====
section
/-! DEFINITION. The debug ring and the debugger's commands (R362 to R365, R376, R393, R414). -/

namespace Sys2Proof.Machine
open Sys2Proof

/-! ### The ring (R362) -/

/-- Entry n of the debug ring. -/
def debugEntry (s : State) (x n : Nat) : Nat := (ctxAt s x).rsvd + 0x2000 + 64 * (n % 64)

/-- TAIL of the debug ring. -/
def debugTail (s : State) (x : Nat) : Nat := (loadWord s x ((ctxAt s x).rsvd + 0x3000)).toNat

/-- A command of the ring: CMD, STAMP, LANE and the arguments. -/
structure Cmd where
  cmd : Nat
  stamp : Half
  lane : Nat
  arg0 : Nat
  arg1 : Nat
  deriving DecidableEq, Repr

/-- A STEP of context x is under way (R364). -/
def stepGroup (s : State) (x : Nat) : Option Nat :=
  (groupsOf s x).find? (fun g => match s.groups[g]? with | some G => G.stepping.isSome | none => false)

/-- The command at the head of the ring: none when the ring is empty, no debugger is attached, or a STEP is still under way. -/
def debugHead (s : State) (x : Nat) : Option Cmd :=
  let C := ctxAt s x
  if !C.valid ∨ !C.dbg ∨ debugTail s x ≤ C.dbgHead ∨ (stepGroup s x).isSome then none
  else
    let bs := loadBytes s x (debugEntry s x C.dbgHead) 64
    some { cmd := blockNat bs 0 1, stamp := BitVec.ofNat 16 (blockNat bs 2 2), lane := blockNat bs 4 4, arg0 := blockNat bs 8 8,
           arg1 := blockNat bs 16 8 }

/-- The device answers the head entry: RES, then ST, and the entry is consumed. -/
def answerCmd (x st : Nat) (res : List Byte) (s : State) : State :=
  let a := debugEntry s x (ctxAt s x).dbgHead
  let s := storeBytes x (a + 0x18) res s
  let s := storeBytes x (a + 1) (leBytes 1 st) s
  { s with ctxs := modifyAt (fun C => { C with dbgHead := C.dbgHead + 1 }) s.ctxs x }

/-- A command number of R363. -/
def knownCmd (n : Nat) : Bool := decide (1 ≤ n) && decide (n ≤ 10)

/-- Serves the head entry when it is command n: k answers it. A command that must find the context halted, and does not, and an
unknown command get ST 2 (R362, R363). -/
def serveCmd (x n : Nat) (halted : Bool) (k : Cmd → State → State) (s : State) : Out :=
  .next (match debugHead s x with
    | none => s
    | some c =>
      if !knownCmd c.cmd then answerCmd x 2 [] s
      else if c.cmd ≠ n then s
      else if halted ∧ (ctxAt s x).st ≠ .halted then answerCmd x 2 [] s
      else k c s)

/-- The live group of a stamp. -/
def stampGroup (s : State) (x : Nat) (st : Half) : Option Nat :=
  if st = 0 then none
  else (groupsOf s x).find? (fun g => match s.groups[g]? with | some G => G.stamp == st | none => false)

/-! ### Halting and resuming (R352, R363, R376) -/

/-- HALT: HHALT is set, and RES counts the live stamped groups. -/
def execHalt (x : Nat) (s : State) : Out :=
  serveCmd x 1 false (fun _ s =>
    let s := hostHold x s
    answerCmd x 1 (leBytes 4 (stampsOf s x).length) s) s

/-- RESUME: HHALT is cleared; the context resumes when no other hold remains. -/
def execResume (x : Nat) (s : State) : Out :=
  serveCmd x 2 false (fun _ s =>
    answerCmd x 1 [] (releaseContext x { s with ctxs := modifyAt (fun C => { C with hhalt := false }) s.ctxs x })) s

/-- Inserts a number into a rising list. -/
def insertNat (n : Nat) : List Nat → List Nat
  | [] => [n]
  | m :: r => if n ≤ m then n :: m :: r else m :: insertNat n r

/-- LIST: up to 20 stamps in rising order from an index. -/
def execList (x : Nat) (s : State) : Out :=
  serveCmd x 3 true (fun c s =>
    let ss := (stampsOf s x).foldl (fun l n => insertNat n l) []
    answerCmd x 1 (((ss.drop c.arg0).take 20).flatMap (leBytes 2)) s) s

/-! ### Breakpoints (R157, R363, R364) -/

/-- BSET: the breakpoint is enabled and the context is halted; its functions are translated again as its groups resume. -/
def execBset (x : Nat) (s : State) : Out :=
  serveCmd x 4 false (fun c s =>
    let bps := (ctxAt s x).bps
    if !bps.contains c.arg0 ∧ 256 ≤ bps.length then answerCmd x 2 [] s
    else
      let s := hostHold x s
      answerCmd x 1 [] { s with ctxs := modifyAt (fun C => if C.bps.contains c.arg0 then C else { C with bps := insertNat c.arg0 C.bps }) s.ctxs x }) s

/-- BCLR: the breakpoint is disabled, as BSET enables it. -/
def execBclr (x : Nat) (s : State) : Out :=
  serveCmd x 5 false (fun c s =>
    let s := hostHold x s
    answerCmd x 1 [] { s with ctxs := modifyAt (fun C => { C with bps := C.bps.filter (· ≠ c.arg0) }) s.ctxs x }) s

/-! ### STEP (R364) -/

/-- A group runs alone from its MARK until the next hook. -/
def Group.steps (G : Group) : Group := { G with stepping := some false }

/-- STEP: the group alone resumes, once its crew has come back to cores where it was saved; the command is answered when the step ends. -/
def execStep (x : Nat) (s : State) : Out :=
  serveCmd x 6 true (fun c s =>
    match stampGroup s x c.stamp with
    | none => answerCmd x 2 [] s
    | some g =>
      if (match s.groups[g]? with | some G => G.st == .suspended && G.held.isNone | none => false) = true then
        let t := s.updGroup g Group.steps
        if onCore s g then resumeGroup g t else t
      else answerCmd x 2 [] s) s

/-- A wait that other groups, which are halted, would have to satisfy. -/
def Wait.needsOthers : Wait → Bool
  | .barrier _ _ | .signal _ | .claim _ | .accAcq _ => true
  | _ => false

/-- The STEP of group g ends with a status. -/
def endStep (g st : Nat) (s : State) : State :=
  match s.groups[g]? with
  | none => s
  | some G => answerCmd (groupCtx s G) st [] (s.updGroup g (fun G => { G with stepping := none }))

/-- The step has executed its instruction and stands before the next: a stop of class 7 at the hook (R393). -/
def stepHook (g sd pc : Nat) (s : State) : State :=
  endStep g 1 (faultAt g sd .stepComplete pc none 0 (commit g sd s))

/-- What ends a step between hooks: a wait on halted groups (ST 3), the group's end, or a stop of its context for another reason. -/
def stepSettle (g : Nat) (s : State) : State :=
  match s.groups[g]? with
  | none => s
  | some G =>
    if G.stepping.isNone then s
    else
      match G.st with
      | .waiting _ _ => if G.waits.all (fun e => e.2.1.needsOthers) then endStep g 3 (suspendGroup g s) else s
      | .ended => (s.updGroup g (fun G => { G with stepping := none })) |> answerCmd (groupCtx s G) 1 []
      | .suspended => if onCore s g then endStep g 1 s else s
      | _ => s

/-! ### Reading a halted group (R363, R385, R389, R414) -/

/-- The side that holds a lane of a portable group. -/
def sideOfLane (G : Group) (lane : Nat) : Option Side := G.liveSides.find? (fun S => S.core.mask.getLsbD lane)

/-- The PC slot or stack entry that holds a lane of a native group. -/
def slotOfLane (N : Native) (lane : Nat) : Option PcSlot :=
  ((N.slots.filterMap id) ++ N.stack).find? (fun P => P.mask.getLsbD lane)

/-- A value of type t as RVAL answers it: the bits, or element i of an array; ST 2 beyond the array. -/
def answerVal (t : TyD) (i : Nat) (v : Val) : Nat × List Byte :=
  match t, v with
  | .arr e len, .arr es => if len.toNat < i then (2, []) else (1, leBytes (if e == .i64 then 8 else 4) (nth 0 es i).toNat)
  | .ty .ref, v => (1, leBytes 8 v.tagBits.2.toNat ++ leBytes 1 (if v.tagBits.1 then 1 else 0))
  | _, v => (1, leBytes 8 v.tagBits.2.toNat)

/-- RVAL of a portable group: the live values of the MARK; ST 4 for a value still in scope whose last use has passed, in a function
with breakpoints; ST 5 for a value with no record. -/
def rvalPortable (s : State) (x : Nat) (S : Side) (v lane i : Nat) : Nat × List Byte :=
  match S.core.frames with
  | [] => (5, [])
  | F :: _ =>
    let bs := blocksOf s F.fn
    let off := (F.pc - F.fn - 0x20) / 4
    match valTy bs v with
    | none | some (.ty .tok) | some (.ty .acc) => (5, [])
    | some t =>
      if (liveAt bs off).contains v then answerVal t i (nth (.bits 0) (NMap.get [] F.vals v) lane)
      else if !(fnBreaks s x F.fn).isEmpty ∧ !(NMap.get [] F.vals v).isEmpty then (4, [])
      else (5, [])

/-- RVAL of a native group: the location that the MARK's live map gives (R185). -/
def rvalNative (s : State) (G : Group) (N : Native) (P : PcSlot) (v lane i : Nat) : Nat × List Byte :=
  match (N.mapAt P.pc).bind (fun m => m.recs.find? (fun r => r.1 = v)) with
  | none => (5, [])
  | some r =>
    match valTy (blocksOf s N.fn) v with
    | some (.arr e len) =>
      let k := if e == .i64 then 2 * i else i
      if len.toNat < i then (2, [])
      else
        match locBits s G N lane (r.1, r.2.1, e == .i64, r.2.2.2 + k) with
        | some (_, b) => (1, leBytes (if e == .i64 then 8 else 4) b.toNat)
        | none => (4, [])
    | _ =>
      match locBits s G N lane r with
      | some (_, b) => (1, leBytes 8 b.toNat)
      | none => (4, [])

/-- RVAL. -/
def execRval (x : Nat) (s : State) : Out :=
  serveCmd x 7 true (fun c s =>
    match (stampGroup s x c.stamp).bind (fun g => s.groups[g]?) with
    | none => answerCmd x 2 [] s
    | some G =>
      let r : Nat × List Byte :=
        if 128 ≤ c.lane then (2, [])
        else
          match G.native with
          | some N => (match slotOfLane N c.lane with | some P => rvalNative s G N P c.arg0 c.lane c.arg1 | none => (2, []))
          | none => (match sideOfLane G c.lane with | some S => rvalPortable s x S c.arg0 c.lane c.arg1 | none => (2, []))
      answerCmd x r.1 r.2 s) s

/-- RSTAT's result: MARK address, flags word, first-event record. -/
def statBytes (pc : Nat) (v : View) : List Byte :=
  leBytes 8 pc ++ leBytes 8 v.flags.toNat ++ leBytes 8 v.fev.toNat ++ List.replicate 16 0

/-- The side with the lowest active lane. -/
def lowestSide (G : Group) : Option Side :=
  G.liveSides.foldl (fun (m : Option Side) S => match m with
    | none => some S
    | some T => if lowLane S.core.mask < lowLane T.core.mask then some S else some T) none

/-- The PC slot or stack entry with the lowest active lane. -/
def lowestSlot (N : Native) : Option PcSlot :=
  ((N.slots.filterMap id) ++ N.stack).foldl (fun (m : Option PcSlot) P => match m with
    | none => some P
    | some T => if lowLane P.mask < lowLane T.mask then some P else some T) none

/-- RSTAT. -/
def execRstat (x : Nat) (s : State) : Out :=
  serveCmd x 8 true (fun c s =>
    match (stampGroup s x c.stamp).bind (fun g => s.groups[g]?) with
    | none => answerCmd x 2 [] s
    | some G =>
      match G.native with
      | some N =>
        (match lowestSlot N with
         | some P => answerCmd x 1 (statBytes (N.port P.pc) P.view) s
         | none => answerCmd x 2 [] s)
      | none =>
        match lowestSide G with
        | some S => answerCmd x 1 (statBytes (match S.core.frames with | F :: _ => F.pc | [] => 0) S.core.view) s
        | none => answerCmd x 2 [] s) s

/-! ### Watchpoints (R365) -/

/-- The watchpoint that a WSET asks for: none when its length, alignment, kind or space is not allowed. -/
def wsetOf (s : State) (x : Nat) (c : Cmd) : Option WPt :=
  let kind := c.arg0 / 4 % 4
  let a := c.arg0 / 2 ^ 16
  let pow := (List.range 14).any (fun k => c.arg1 == 8 * 2 ^ k)
  let ds : Bool := match walk s x a with | some l => isDS l.pa | none => false
  if kind != 0 && pow && a % c.arg1 == 0 && ds then some { rd := kind % 2 == 1, wr := kind / 2 == 1, a := a, len := c.arg1 } else none

/-- WSET. -/
def execWset (x : Nat) (s : State) : Out :=
  serveCmd x 9 true (fun c s =>
    match wsetOf s x c with
    | none => answerCmd x 2 [] s
    | some w => answerCmd x 1 [] { s with ctxs := modifyAt (fun C => { C with wps := modifyAt (fun _ => some w) C.wps (c.arg0 % 4) }) s.ctxs x }) s

/-- WCLR. -/
def execWclr (x : Nat) (s : State) : Out :=
  serveCmd x 10 false (fun c s =>
    answerCmd x 1 [] { s with ctxs := modifyAt (fun C => { C with wps := modifyAt (fun _ => none) C.wps (c.arg0 % 4) }) s.ctxs x }) s

end Sys2Proof.Machine
end

