-- ==== Sys2Proof/Machine/Manage.lean ====
section
/-! DEFINITION. Power and temperature (R377), the Safelight port (R375, R376, R378), resets and bring-up (R383, R406, R407),
firmware (R376), the capability table (R372, R373) and attestation (R374). -/

namespace Sys2Proof.Machine
open Sys2Proof

/-- An answer to the outside world. -/
def answer (kind : Nat) (bs : List Byte) (s : State) : State := { s with replies := { kind := kind, bytes := bs } :: s.replies }

/-! ### Power and temperature (R377) -/

/-- POWER_CAP_WRITE (R376, R377): PWRCTL is written; the last write to arrive prevails. -/
def execPowerCapWrite (w : DWord) (s : State) : Out := .next (writePower w s)

/-- The clusters of a die. -/
def dieClusters (d : Nat) : List Nat := (List.range (dieCores d / 8)).map (fun i => dieBase d / 8 + i)

/-- The dies in service. -/
def onDies (s : State) : List Nat := servedDies s 0xF

/-- The lowest clock in force. -/
def clkMin (s : State) : Nat :=
  ((onDies s).flatMap dieClusters).foldl (fun m cl => min m (match s.clusters[cl]? with | some C => C.mhz | none => m)) 800

/-- The peak integrator limits the module while it would pass PCAP. -/
def samplePeak (s : State) : State :=
  { s with power := { s.power with pthr := decide (s.power.pcap < Config.powerPeak s.time s.time) } }

/-- PWRSTAT's bits. -/
def pwrstat (s : State) : Nat :=
  Config.power s.time % 2 ^ 16 + Config.powerPeak s.power.ppkRead s.time % 2 ^ 16 * 2 ^ 16 + clkMin s * 2 ^ 32
    + (if s.power.sthr then 2 ^ 42 else 0) + (if s.power.pthr then 2 ^ 43 else 0)
    + ((List.range 4).foldl (fun n d => n + Config.temperature s.time d % 2 ^ 8 * 2 ^ (64 + 8 * d)) 0)

/-- PWRSTAT_READ (R377): the answer; PPK starts afresh. -/
def execPwrstatRead (s : State) : Out :=
  .next (
    let s := samplePeak s
    answer 0x62 (leBytes 32 (pwrstat s)) { s with power := { s.power with ppkRead := s.time } })

/-- One step of 50 MHz down, to 400 MHz at least. -/
def Cluster.stepDown (C : Cluster) : Cluster := { C with mhz := max 400 (C.mhz - 50) }
/-- One step up, to 800 MHz less the reductions in force. -/
def Cluster.stepUp (C : Cluster) : Cluster := { C with mhz := max C.mhz (min (C.mhz + 50) (800 - 50 * C.cuts.length)) }

/-- Every cluster of a die takes one throttling step. -/
def stepDie (d : Nat) (f : Cluster → Cluster) (s : State) : State :=
  { s with clusters := (dieClusters d).foldl (fun cs cl => modifyAt f cs cl) s.clusters,
           dies := modifyAt (fun D => { D with last := s.time }) s.dies d }

/-- A die that may take a throttling step: 1 ms has passed since its last. -/
def stepDue (s : State) (d : Nat) : Bool := match s.dies[d]? with | some D => D.on && decide (D.last + 1000000 ≤ s.time) | none => false

/-- SUSTAINED_THROTTLE_STEP (R377): the 1 s integrator above SCAP lowers the clocks of die d a step, 5 % below it raises them a
step. In early service the clock stays 400 MHz (R406). -/
def execSustainedThrottleStep (d : Nat) (s : State) : Out :=
  .next (
    let s := samplePeak s
    let p := Config.power s.time
    if !stepDue s d then s
    else if s.power.scap < p then stepDie d Cluster.stepDown { s with power := { s.power with sthr := true } }
    else if 100 * p ≤ 95 * s.power.scap ∧ s.full then
      if (match s.dies[d]? with | some D => D.hot | none => false) then s
      else
        let s := stepDie d Cluster.stepUp s
        { s with power := { s.power with sthr := s.power.sthr && decide (clkMin s < 800) } }
    else s)

/-- THERMAL_THROTTLE (R377): a die at 105 °C is lowered to 400 MHz by the same steps, and held there while it is as hot. -/
def execThermalThrottle (d : Nat) (s : State) : Out :=
  .next (
    let hot := decide (105 ≤ Config.temperature s.time d)
    let s := { s with dies := modifyAt (fun D => { D with hot := D.on && hot }) s.dies d }
    if hot && stepDue s d then stepDie d Cluster.stepDown s else s)

/-! ### Die reset (R383) -/

/-- A context has a group, an engine instruction or a die-store page on die d. -/
def onDieOf (s : State) (d x : Nat) : Bool :=
  (groupsOf s x).any (fun g => match s.groups[g]? with | some G => decide (dieOf G.core = d) | none => false) ||
    s.engs.any (fun E => decide (E.ctx = x) && (match s.groups[E.group]? with | some G => decide (dieOf G.core = d) | none => false)) ||
    (dsPages s x).any (fun l => decide (homeDie l.pa = d)) ||
    (decide (d = 2) && s.objs.any (fun o => o.maps.contains x && !o.data.isEmpty))

/-- The die-reset fault of context x: an entry, and the context ends (R384). -/
def dieResetFault (d x : Nat) (s : State) : State :=
  let aux := BitVec.ofNat 64 d
  match (groupsOf s x).find? (fun g => match s.groups[g]? with | some G => decide (dieOf G.core = d) | none => false) with
  | some g => faultAt g 0 .dieReset (match s.groups[g]? with | some G => standsAt G 0 | none => 0) none aux s
  | none => endContext x (writeFault x (faultRec s s.groups.length 0 .dieReset 0 none aux) s)

/-- Die d after its reset: cores and clusters as at reset, CSLIM kept. -/
def freshDie (d : Nat) (s : State) : State :=
  let base := if s.full then 800 else 400
  let mine := fun (c : Nat) => decide (dieOf c = d)
  { s with
    cores := s.cores.zipIdx.map (fun (C, c) => if mine c then Core.reset else C),
    clusters := s.clusters.zipIdx.map (fun (C, cl) => if mine (8 * cl) then { C with mhz := base, cuts := [], hold := none, phases := [], waveAt := 0 } else C),
    dies := modifyAt (fun D => { D with hot := false, since := s.time, last := s.time }) s.dies d }

/-- A reset of die d. -/
def resetDie (d : Nat) (s : State) : State :=
  freshDie d ((((List.range 64).filter (fun x => (slotIs s x .live || slotIs s x .halted) && onDieOf s d x))).foldl (fun s x => dieResetFault d x s) s)

/-- DIE_RESET (R376, R383). -/
def execDieReset (d : Nat) (s : State) : Out :=
  .next (if (match s.dies[d]? with | some D => D.on | none => false) then resetDie d s else s)

/-- THERMAL_RESET (R377): a die at 115 °C is reset. -/
def execThermalReset (d : Nat) (s : State) : Out :=
  .next (if decide (115 ≤ Config.temperature s.time d) && (match s.dies[d]? with | some D => D.on | none => false) then resetDie d s else s)

/-! ### Module reset and bring-up (R376, R383, R406, R407) -/

/-- A device-memory key. -/
def isDM (k : Nat) : Bool := decide (k < 2 ^ 39)

/-- MODULE_RESET (R376, R383, R406): all state is lost but the contents of device memory with its tags; keys are gone, a staged image
is active, and the module is in early service. The outside world's requests to come, its answers, and the model's own counters stay. -/
def execModuleReset (s : State) : Out :=
  .next { State.reset with
    mem := s.mem.filter (fun e => isDM e.1), tag := s.tag.filter (fun e => isDM (8 * e.1)), owner := s.owner.filter (fun e => isDM (64 * e.1)),
    poison := s.poison.filter (fun e => isDM (4 * e.1)), fwImage := if s.staged.isSome then s.staged else s.fwImage,
    agenda := s.agenda, fresh := s.fresh, ids := s.ids, replies := s.replies }

/-- A die that joins the module at the end of bring-up. -/
def Die.join (now d : Nat) (D : Die) : Die :=
  if D.on then D else if Config.diePasses d then { D with on := true, since := now, last := now } else D

/-- A group that the end of bring-up stopped and that its context's state lets run. -/
def goOn (s : State) (g : Nat) : Bool :=
  match s.groups[g]? with | some G => (ctxAt s (groupCtx s G)).st == .live && onCore s g | none => false

/-- BRING_UP_COMPLETE (R407): every group is brought to its MARKs, the window's contents are those of device memory at the same
addresses, the clocks rise, the dies that pass join, and every context goes on. -/
def execBringUpComplete (s : State) : Out :=
  .next (if s.full then s
    else
      let gs := (List.range s.groups.length).filter (fun g => match s.groups[g]? with
        | some G => (match G.st with | .ready | .waiting _ _ => true | _ => false)
        | none => false)
      let s := gs.foldl (fun s g => suspendGroup g s) s
      let dies := s.dies.zipIdx.map (fun (D, d) => D.join s.time d)
      let s := { s with full := true, caps := some (dies.map Die.on), dies := dies, clusters := s.clusters.map (fun C => { C with mhz := 800, cuts := [] }) }
      (gs.filter (goOn s)).foldl (fun s g => resumeGroup g s) s)

/-! ### The Safelight port's holds (R375, R376) -/

/-- SAFELIGHT_HALT (R299, R376): SHALT is set and the context halts. -/
def execSafelightHalt (x : Nat) (s : State) : Out :=
  .next (if slotIs s x .live || slotIs s x .halted then
      haltContext x { s with ctxs := modifyAt (fun C => { C with shalt := true }) s.ctxs x }
    else s)

/-- SAFELIGHT_RELEASE (R376): SHALT is cleared; the context goes on when no other hold remains. -/
def execSafelightRelease (x : Nat) (s : State) : Out :=
  .next (if slotIs s x .live || slotIs s x .halted then
      releaseContext x { s with ctxs := modifyAt (fun C => { C with shalt := false }) s.ctxs x }
    else s)

/-! ### Firmware (R376, R378) -/

/-- FIRMWARE_STAGING (R376): a signed image is staged; a second is refused busy, and an unsigned one is refused. The answer is 0 for
staged, 1 for busy, 2 for refused. -/
def execFirmwareStaging (img : List Byte) (s : State) : Out :=
  .next (if s.staged.isSome then answer 0x63 [1] s
    else if Config.signatureValid img then answer 0x63 [0] { s with staged := some img }
    else answer 0x63 [2] s)

/-! ### The capability table (R372, R373) -/

/-- A record: type, length, value, padded to 8 bytes. -/
def capRecord (ty : Nat) (v : List Byte) : List Byte :=
  leBytes 2 ty ++ leBytes 2 v.length ++ v ++ List.replicate ((8 - (4 + v.length) % 8) % 8) 0

/-- The records that the signature covers (log entry 32 for the widths inside the values); a die that failed its test at the end of
bring-up is left out of the inventory (R407). -/
def capBody (s : State) : List Byte :=
  capRecord 1 Config.identity
    ++ capRecord 2 (((List.range 4).filter (fun d => s.caps.all (fun on => nth false on d))).flatMap (fun d =>
        leBytes 1 (if dieIsN d then 1 else 0) ++ leBytes 1 (dieGeneration d) ++ leBytes 8 (2 ^ dieCores d - 1)))
    ++ capRecord 3 [1, 0, 1] ++ capRecord 4 (leBytes 4 7) ++ capRecord 5 [if s.caps.isSome then 1 else 0]
    ++ capRecord 6 (leBytes 8 (2 * dsBytes 0 + 2 * dsBytes 2) ++ leBytes 8 (4 * 2 ^ 37) ++ leBytes 8 (2 ^ 28))
    ++ capRecord 7 (leBytes 2 600 ++ leBytes 2 1600 ++ leBytes 2 1500 ++ leBytes 2 2000 ++ leBytes 2 2000)

/-- The capability table in firmware device memory. -/
def capTable (s : State) : List Byte := capBody s ++ capRecord 0xFE (Config.capSignature (capBody s)) ++ Config.errata ++ capRecord 0xFFFF []

/-! ### Attestation (R349, R374) -/

/-- The four measurements, of what was loaded at reset or, the capability table, at the end of bring-up. -/
def measurements (s : State) : List Byte :=
  sha256 (Config.firmwareImage 1 s.fwImage) ++ sha256 (Config.firmwareImage 2 s.fwImage) ++ sha256 (capTable s)
    ++ sha256 (Config.firmwareImage 4 s.fwImage)

/-- An SPDM message is answered where it came from: in the mailbox's buffer, or on the Safelight port. A host message is one that a
write of MLEN has submitted. -/
def spdm (code : Nat) (p : Sys2Proof.Port) (req : List Byte) (s : State) : Out :=
  let r := Config.spdmResponse code req (measurements s)
  .next (match p with
    | .safelight => answer 0x60 r s
    | .host =>
      if !s.mbox.spdmRun then s
      else
        let r := r.take 2544
        { s with mbox := { s.mbox with spdm := patch s.mbox.spdm 0 r, rlen := r.length, spdmSt := 1, spdmRun := false } })

/-- GET_VERSION (R374). -/
def execGetVersion (p : Sys2Proof.Port) (req : List Byte) (s : State) : Out := spdm 0x84 p req s
/-- GET_CAPABILITIES (R374). -/
def execGetCapabilities (p : Sys2Proof.Port) (req : List Byte) (s : State) : Out := spdm 0xE1 p req s
/-- NEGOTIATE_ALGORITHMS (R374). -/
def execNegotiateAlgorithms (p : Sys2Proof.Port) (req : List Byte) (s : State) : Out := spdm 0xE3 p req s
/-- GET_DIGESTS (R374). -/
def execGetDigests (p : Sys2Proof.Port) (req : List Byte) (s : State) : Out := spdm 0x81 p req s
/-- GET_CERTIFICATE (R374). -/
def execGetCertificate (p : Sys2Proof.Port) (req : List Byte) (s : State) : Out := spdm 0x82 p req s
/-- CHALLENGE (R374). -/
def execChallenge (p : Sys2Proof.Port) (req : List Byte) (s : State) : Out := spdm 0x83 p req s
/-- GET_MEASUREMENTS (R374). -/
def execGetMeasurements (p : Sys2Proof.Port) (req : List Byte) (s : State) : Out := spdm 0xE0 p req s

/-- A submitted message of no kind of R374 is refused. -/
def refuseSpdm (s : State) : State := { s with mbox := { s.mbox with spdmSt := 2, spdmRun := false } }

/-! ### PLDM (R378) -/

/-- A PLDM message of a kind that reads or changes nothing of the machine. -/
def pldm (code : Nat) (req : List Byte) (s : State) : Out := .next (answer 0x61 (Config.pldmResponse code req) s)

/-- GET_TID (R378). -/
def execGetTid (req : List Byte) (s : State) : Out := pldm 0x02 req s
/-- GET_PLDM_VERSION (R378). -/
def execGetPldmVersion (req : List Byte) (s : State) : Out := pldm 0x03 req s
/-- GET_PLDM_TYPES (R378). -/
def execGetPldmTypes (req : List Byte) (s : State) : Out := pldm 0x04 req s
/-- GET_PLDM_COMMANDS (R378). -/
def execGetPldmCommands (req : List Byte) (s : State) : Out := pldm 0x05 req s
/-- GET_PDR (R378). -/
def execGetPdr (req : List Byte) (s : State) : Out := pldm 0x51 req s

/-- A completion code and a number (log entry 31). -/
def pldmNumber (v : Nat) : List Byte := [0] ++ leBytes 4 v

/-- The numeric sensors. -/
def sensorReading (s : State) (id : Nat) : Option Nat :=
  if id = 1 then some (Config.power s.time)
  else if id = 2 then some (Config.powerPeak s.power.ppkRead s.time)
  else if 3 ≤ id ∧ id ≤ 6 then some (Config.temperature s.time (id - 3))
  else none

/-- GET_SENSOR_READING (R378): PPK starts afresh when it is read (R377). -/
def execGetSensorReading (id : Nat) (s : State) : Out :=
  .next (match sensorReading s id with
    | some v => answer 0x61 (pldmNumber v) (if id = 2 then { s with power := { s.power with ppkRead := s.time } } else s)
    | none => answer 0x61 [0x80] s)

/-- The state sensors: service state, and throttling. -/
def stateReading (s : State) (id : Nat) : Option Nat :=
  if id = 7 then some (if s.full then 1 else 0)
  else if id = 8 then some ((if s.power.sthr then 1 else 0) + (if s.power.pthr then 2 else 0))
  else none

/-- GET_STATE_SENSOR_READINGS (R378). -/
def execGetStateSensorReadings (id : Nat) (s : State) : Out :=
  .next (
    let s := samplePeak s
    match stateReading s id with
    | some v => answer 0x61 (pldmNumber v) s
    | none => answer 0x61 [0x80] s)

/-- The caps after an effecter's setting: none outside its range. -/
def setCap (P : Power) (id v : Nat) : Option Power :=
  if id = 1 ∧ 600 ≤ v ∧ v ≤ 1600 ∧ v ≤ P.pcap then some { P with scap := v }
  else if id = 2 ∧ P.scap ≤ v ∧ v ≤ 2000 then some { P with pcap := v }
  else none

/-- SET_NUMERIC_EFFECTER_VALUE (R376, R378): a setting outside its range is refused as invalid data. -/
def execSetNumericEffecterValue (id v : Nat) (s : State) : Out :=
  .next (if id ≠ 1 ∧ id ≠ 2 then answer 0x61 [0x80] s
    else
      match setCap s.power id v with
      | some P => answer 0x61 [0] { s with power := P }
      | none => answer 0x61 [2] s)

/-- GET_NUMERIC_EFFECTER_VALUE (R378). -/
def execGetNumericEffecterValue (id : Nat) (s : State) : Out :=
  .next (if id = 1 then answer 0x61 (pldmNumber s.power.scap) s
    else if id = 2 then answer 0x61 (pldmNumber s.power.pcap) s
    else answer 0x61 [0x80] s)

/-- REQUEST_UPDATE (R378): the update flow begins; a second request is refused while it runs. -/
def execRequestUpdate (s : State) : Out :=
  .next (if s.updating then answer 0x61 [0x81] s else answer 0x61 [0] { s with updating := true })

/-- ACTIVATE_FIRMWARE (R378): the update flow ends; a staged image activates at the next module reset (R376). -/
def execActivateFirmware (s : State) : Out :=
  .next (if s.updating then answer 0x61 [0] { s with updating := false } else answer 0x61 [0x80] s)

end Sys2Proof.Machine
end

