-- ==== Sys2Proof/Machine/ControlSpace.lean ====
section
/-! DEFINITION. Reads and writes of the host through its memory regions (R225, R230, R234, R235, R360), the module control space as it
reads among them (R347 to R350, R353, R357, R372, R377). -/

namespace Sys2Proof.Machine
open Sys2Proof

/-! ### The control space as it reads (R347) -/

/-- The mailbox as it reads (R349, R408): requests, CAPOFF, CAPLEN, the SPDM control and buffer, and the capability table from CAPOFF. -/
def mboxImage (s : State) : List Byte :=
  let M := s.mbox
  let T := capTable s
  M.code ++ leBytes 4 M.capoff ++ leBytes 4 T.length ++ List.replicate 184 0 ++ M.mig ++ List.replicate 224 0
    ++ leBytes 4 M.mlen ++ leBytes 4 M.rlen ++ [M.spdmSt] ++ List.replicate 7 0 ++ M.spdm
    ++ (T.drop M.capoff ++ List.replicate 1024 0).take 1024

/-- Byte i of a register's bits. -/
def bitsByte (v i : Nat) : Byte := BitVec.ofNat 8 (v / 2 ^ (8 * i))

/-- The byte at an offset of the control space; an offset that is not listed reads zero. -/
def controlByte (s : State) (o : Nat) : Byte :=
  if o < 0x1000 then bitsByte (slotImage s (o / 64)).toNat (o % 64)
  else if o < 0x1010 then bitsByte (tlbImage s).toNat (o - 0x1000)
  else if 0x2000 ≤ o ∧ o < 0x3000 then nth 0 (mboxImage s) (o - 0x2000)
  else if 0x10000 ≤ o ∧ o < 0x14000 then bitsByte (queueImage s ((o - 0x10000) / 16)).toNat (o % 16)
  else if 0x20000 ≤ o ∧ o < 0x20000 + 104 then
    (if o % 4 = 0 then (nth Cluster.reset s.clusters ((o - 0x20000) / 4)).slope else 0)
  else if 0x30000 ≤ o ∧ o < 0x30008 then bitsByte (powerImage s).toNat (o - 0x30000)
  else if 0x30008 ≤ o ∧ o < 0x30020 then bitsByte (pwrstat s) (o - 0x30008)
  else if 0x10000000 ≤ o ∧ o < 0x20000000 then NMap.get 0 s.mem (keyPool (o - 0x10000000))
  else 0

/-- What a read of n bytes at an offset leaves: PTHR is that of the moment, and a read of PPK starts it afresh (R377). -/
def controlSampled (o n : Nat) (s : State) : State :=
  if o < 0x30020 ∧ 0x30008 < o + n then samplePeak s else s

/-- A read of PPK starts it afresh (R377). -/
def controlAfter (o n : Nat) (s : State) : State :=
  if o < 0x3000C ∧ 0x3000A < o + n then { s with power := { s.power with ppkRead := s.time } } else s

/-- The module control space is the memory region of the firmware context (R347, R360). -/
def readControlSpace (o n : Nat) (s : State) : State :=
  if 0x20000000 < o + n then hostRefused s
  else
    let s := controlSampled o n s
    answer 0x52 ((List.range n).map (fun i => controlByte s (o + i))) (controlAfter o n s)

/-! ### The host's accesses -/

/-- HOST_RDMA_WRITE (R225, R234, R235, R360): region 0 is the control space (R347). -/
def execHostRdmaWrite (x : Nat) (va : DWord) (bs : List Byte) (s : State) : Out :=
  .next (
    let a := va.toNat
    if bs = [] then s
    else if x = 0 then (if 0x20000000 < a + bs.length then hostRefused s else writeRegs bs.length a bs s)
    else if !regionCtx s x ∨ !rangeMapped s x a bs.length true then hostRefused s
    else postMsg { ctx := x, a := a, n := bs.length, data := some bs, rest := List.range (hostParts a bs.length).length, got := [] } s)

/-- HOST_RDMA_READ (R225, R230, R234): the answer's bytes; region 0 is the control space (R347). -/
def execHostRdmaRead (x : Nat) (va : DWord) (n : Nat) (s : State) : Out :=
  .next (
    let a := va.toNat
    if x = 0 then readControlSpace a n s
    else if !regionCtx s x ∨ !rangeMapped s x a n false then hostRefused s
    else postMsg { ctx := x, a := a, n := n, data := none, rest := List.range (hostParts a n).length, got := [] } s)

end Sys2Proof.Machine
end

