-- ==== Sys2Proof/Machine/Float.lean ====
section
/-! DEFINITION. The meanings of the floating-point, conversion, packing and residue instructions (R83 to R89). -/

namespace Sys2Proof.Machine
open Sys2Proof

/-- Lane results with flags of two operands of one type. -/
def fp2 (s : State) (t : Ty) (a b : Opnd) (f : DWord → DWord → DWord × Flags) : Out :=
  lanesFlags s [(t, a), (t, b)] (fun xs => f (nth 0 xs 0) (nth 0 xs 1))

/-- FADD (R83). -/
def execFadd (t : Ty) (rm : RM) (dn : Bool) (a b : Opnd) (s : State) : Out := fp2 s t a b (fpAdd (Ty.fmt t) rm dn)
/-- FSUB (R83). -/
def execFsub (t : Ty) (rm : RM) (dn : Bool) (a b : Opnd) (s : State) : Out := fp2 s t a b (fpSub (Ty.fmt t) rm dn)
/-- FMUL (R83). -/
def execFmul (t : Ty) (rm : RM) (dn : Bool) (a b : Opnd) (s : State) : Out := fp2 s t a b (fpMul (Ty.fmt t) rm dn)
/-- FMA (R83): one rounding of the exact value. -/
def execFma (t : Ty) (rm : RM) (dn : Bool) (a b c : Opnd) (s : State) : Out :=
  lanesFlags s [(t, a), (t, b), (t, c)] (fun xs => fpFma (Ty.fmt t) rm dn (nth 0 xs 0) (nth 0 xs 1) (nth 0 xs 2))
/-- FDIV (R83). -/
def execFdiv (t : Ty) (rm : RM) (dn : Bool) (a b : Opnd) (s : State) : Out := fp2 s t a b (fpDiv (Ty.fmt t) rm dn)
/-- FNEG (R83). -/
def execFneg (t : Ty) (a : Opnd) (s : State) : Out := lanes1 s t a (fpNeg (Ty.fmt t))
/-- FABS (R83). -/
def execFabs (t : Ty) (a : Opnd) (s : State) : Out := lanes1 s t a (fpAbs (Ty.fmt t))
/-- FMIN (R84). -/
def execFmin (t : Ty) (dn : Bool) (a b : Opnd) (s : State) : Out := lanes2 s t t a b (fpMinMax false (Ty.fmt t) dn)
/-- FMAX (R84). -/
def execFmax (t : Ty) (dn : Bool) (a b : Opnd) (s : State) : Out := lanes2 s t t a b (fpMinMax true (Ty.fmt t) dn)
/-- FCMP (R85). -/
def execFcmp (cc : FCond) (s_ : Ty) (dn : Bool) (a b : Opnd) (s : State) : Out :=
  lanes2 s s_ s_ a b (fun x y => b1 (fpCmp (Ty.fmt s_) dn cc x y))
/-- FCLASS (R85). -/
def execFclass (s_ : Ty) (a : Opnd) (s : State) : Out := lanes1 s s_ a (fpClass (Ty.fmt s_))
/-- FCOPYSIGN (R83). -/
def execFcopysign (t : Ty) (a b : Opnd) (s : State) : Out := lanes2 s t t a b (fpCopysign (Ty.fmt t))
/-- FRND (R83). -/
def execFrnd (t : Ty) (rm : RM) (dn : Bool) (a : Opnd) (s : State) : Out := lanes1 s t a (fpRnd (Ty.fmt t) rm dn)
/-- FSCALE (R83): the scale is an i32 read as signed. -/
def execFscale (t : Ty) (rm : RM) (dn : Bool) (a n : Opnd) (s : State) : Out :=
  lanesFlags s [(t, a), (.i32, n)] (fun xs => fpScale (Ty.fmt t) rm dn (nth 0 xs 0) (rdInt true 32 (nth 0 xs 1)))

/-- Lane results with flags of operands of conversion elements. -/
def lanesC (s : State) (t : CTy) (ops : List Opnd) (f : List DWord → DWord × Flags) : Out :=
  portable s (fun p s =>
    match opndAllC s p t ops with
    | some xss =>
      let rs := zipLanes f xss
      defineBits p (rs.map (·.1)) (raiseFlags p (laneEvents p.mask (rs.map (·.2))) s)
    | none => badOperand p s)

/-- CVT (R86, R87). -/
def execCvt (k : CvtKind) (t : CTy) (s_ : CTy) (rm : RM) (dn : Bool) (a : Opnd) (s : State) : Out :=
  lanesC s s_ [a] (fun xs => cvtLane k t s_ rm dn (nth 0 xs 0))
/-- PACK (R88). -/
def execPack (e : CTy) (xs : List Opnd) (s : State) : Out := lanesC s e xs (fun ys => (packLane (CTy.bits e) ys, 0))
/-- UNPACK (R88). -/
def execUnpack (e : CTy) (n : BitVec 2) (a : Opnd) (s : State) : Out := lanes1 s .i32 a (unpackLane (CTy.bits e) n.toNat)
/-- RSDENC (R89). -/
def execRsdenc (sg : Bool) (a : Opnd) (s : State) : Out := lanesFlags s [(.i32, a)] (fun xs => rsdencLane sg (nth 0 xs 0))
/-- RSDDEC (R89). -/
def execRsddec (a : Opnd) (s : State) : Out := lanesFlags s [(.i32, a)] (fun xs => rsddecLane (nth 0 xs 0))

end Sys2Proof.Machine
end

