-- ==== Sys2Proof/Machine/Integer.lean ====
section
/-! DEFINITION. The meanings of the integer and address family (R77 to R82). -/

namespace Sys2Proof.Machine
open Sys2Proof

/-- ADD (R77). -/
def execAdd (t : Ty) (a b : Opnd) (s : State) : Out := lanes2 s t t a b (iAdd (Ty.bits t))
/-- SUB (R77). -/
def execSub (t : Ty) (a b : Opnd) (s : State) : Out := lanes2 s t t a b (iSub (Ty.bits t))
/-- MUL, with `.sat` saturating (R77). -/
def execMul (t : Ty) (sg sat : Bool) (a b : Opnd) (s : State) : Out := lanes2 s t t a b (iMul sg sat (Ty.bits t))
/-- MULHI (R77). -/
def execMulhi (t : Ty) (sg : Bool) (a b : Opnd) (s : State) : Out := lanes2 s t t a b (iMulhi sg (Ty.bits t))
/-- MAD (R77). -/
def execMad (t : Ty) (sg : Bool) (a b c : Opnd) (s : State) : Out :=
  lanesN s [(t, a), (t, b), (t, c)] (fun xs => iMad sg (Ty.bits t) (nth 0 xs 0) (nth 0 xs 1) (nth 0 xs 2))
/-- DIV (R78). -/
def execDiv (t : Ty) (sg : Bool) (a b : Opnd) (s : State) : Out := lanes2 s t t a b (fun x y => (iDivRem sg (Ty.bits t) x y).1)
/-- REM (R78). -/
def execRem (t : Ty) (sg : Bool) (a b : Opnd) (s : State) : Out := lanes2 s t t a b (fun x y => (iDivRem sg (Ty.bits t) x y).2)
/-- NEG (R77). -/
def execNeg (t : Ty) (sat : Bool) (a : Opnd) (s : State) : Out := lanes1 s t a (iNeg sat (Ty.bits t))
/-- ABS (R77). -/
def execAbs (t : Ty) (sat : Bool) (a : Opnd) (s : State) : Out := lanes1 s t a (iAbs sat (Ty.bits t))
/-- MIN (R77). -/
def execMin (t : Ty) (sg : Bool) (a b : Opnd) (s : State) : Out := lanes2 s t t a b (iMin sg (Ty.bits t))
/-- MAX (R77). -/
def execMax (t : Ty) (sg : Bool) (a b : Opnd) (s : State) : Out := lanes2 s t t a b (iMax sg (Ty.bits t))
/-- AND (R77). -/
def execAnd (t : Ty) (a b : Opnd) (s : State) : Out := lanes2 s t t a b (· &&& ·)
/-- OR (R77). -/
def execOr (t : Ty) (a b : Opnd) (s : State) : Out := lanes2 s t t a b (· ||| ·)
/-- XOR (R77). -/
def execXor (t : Ty) (a b : Opnd) (s : State) : Out := lanes2 s t t a b (fun x y => lowBits (Ty.bits t) (x ^^^ y))
/-- NOT (R77). -/
def execNot (t : Ty) (a : Opnd) (s : State) : Out := lanes1 s t a (iNot (Ty.bits t))
/-- SHL (R77): the count is an i32 read as non-negative. -/
def execShl (t : Ty) (a n : Opnd) (s : State) : Out := lanes2 s t .i32 a n (fun x k => iShl (Ty.bits t) x k.toNat)
/-- SHR (R77). -/
def execShr (t : Ty) (sg : Bool) (a n : Opnd) (s : State) : Out := lanes2 s t .i32 a n (fun x k => iShr sg (Ty.bits t) x k.toNat)
/-- ROTL (R77). -/
def execRotl (t : Ty) (a n : Opnd) (s : State) : Out := lanes2 s t .i32 a n (fun x k => iRotl (Ty.bits t) x k.toNat)
/-- CLZ (R77): a count of a source of type st. -/
def execClz (s_ : Ty) (a : Opnd) (s : State) : Out := lanes1 s s_ a (iClz (Ty.bits s_))
/-- POPC (R77). -/
def execPopc (s_ : Ty) (a : Opnd) (s : State) : Out := lanes1 s s_ a (iPopc (Ty.bits s_))
/-- BREV (R77). -/
def execBrev (t : Ty) (a : Opnd) (s : State) : Out := lanes1 s t a (iBrev (Ty.bits t))
/-- BFX (R79). -/
def execBfx (t : Ty) (sg : Bool) (a pos len : Opnd) (s : State) : Out :=
  lanesN s [(t, a), (.i32, pos), (.i32, len)] (fun xs => iBfx sg (Ty.bits t) (nth 0 xs 0) (nth 0 xs 1).toNat (nth 0 xs 2).toNat)
/-- BFI (R79). -/
def execBfi (t : Ty) (base ins pos len : Opnd) (s : State) : Out :=
  lanesN s [(t, base), (t, ins), (.i32, pos), (.i32, len)]
    (fun xs => iBfi (Ty.bits t) (nth 0 xs 0) (nth 0 xs 1) (nth 0 xs 2).toNat (nth 0 xs 3).toNat)
/-- CMP (R80). -/
def execCmp (cc : Cond) (sg : Bool) (s_ : Ty) (a b : Opnd) (s : State) : Out :=
  lanes2 s s_ s_ a b (fun x y => b1 (intCond cc (rdInt sg (Ty.bits s_) x) (rdInt sg (Ty.bits s_) y)))
/-- SEL (R77): bits and tag of a where c is 1, else of b. -/
def execSel (t : TyD) (c a b : Opnd) (s : State) : Out :=
  portable s (fun p s =>
    match opndBits s p .b1 c, opndVals s p t a, opndVals s p t b with
    | some cs, some xs, some ys =>
      define p ((List.range 128).map (fun i => if nth 0 cs i = 1 then nth (.bits 0) xs i else nth (.bits 0) ys i)) s
    | _, _, _ => badOperand p s)
/-- EXT (R81). -/
def execExt (t : Ty) (sg : Bool) (s_ : Ty) (a : Opnd) (s : State) : Out := lanes1 s s_ a (iExt sg (Ty.bits s_) (Ty.bits t))
/-- TRUNC (R81). -/
def execTrunc (t : Ty) (sg sat : Bool) (s_ : Ty) (a : Opnd) (s : State) : Out :=
  lanes1 s s_ a (iTrunc sg sat (Ty.bits s_) (Ty.bits t))
/-- ADDSAT (R77). -/
def execAddsat (t : Ty) (sg : Bool) (a b : Opnd) (s : State) : Out := lanes2 s t t a b (iAddsat sg (Ty.bits t))
/-- SUBSAT (R77). -/
def execSubsat (t : Ty) (sg : Bool) (a b : Opnd) (s : State) : Out := lanes2 s t t a b (iSubsat sg (Ty.bits t))
/-- LEA (R82). -/
def execLea (t : Ty) (sg : Bool) (s_ : Ty) (k : BitVec 3) (base idx disp : Opnd) (s : State) : Out :=
  lanesN s [(t, base), (s_, idx), (t, disp)]
    (fun xs => iLea sg (Ty.bits t) (Ty.bits s_) k.toNat (nth 0 xs 0) (nth 0 xs 1) (nth 0 xs 2))

end Sys2Proof.Machine
end

