-- ==== Sys2Proof/Machine/NativeV.lean ====
section
/-! DEFINITION. The V and F slots (R166, R167, R170, R175, R176) with the latencies of R178. -/

namespace Sys2Proof.Machine
open Sys2Proof

/-! ### Shared forms of V operations -/

/-- KP = 1 copies the A operand, a, into the slot's operand buffer (R165). -/
def NSite.keep (p : NSite) (v : VOp) (a : List DWord) (s : State) : State :=
  if v.kp then p.put (.buf (if p.sl = .v1 then 1 else 0)) 1 (p.act v.grd) a false s else s

/-- KP = 1 copies register A into the slot's operand buffer. -/
def NSite.retain (p : NSite) (v : VOp) (s : State) : State := p.keep v (p.g_ v.a.toNat) s

/-- The rounding mode in FMW. -/
def NSite.rm (p : NSite) : RM := RM.ofCode (p.fmw.extractLsb' 0 2)
/-- The format in FMW. -/
def NSite.fty (p : NSite) : Ty := match p.fmw.toNat / 4 % 4 with | 0 => .f32 | 1 => .f16 | _ => .bf16
/-- Subnormals are honoured: interlocked mode, and FZ is 0 (R164). -/
def NSite.dn (p : NSite) : Bool := p.e.il && !p.fmw.getLsbD 4

/-- D := f(A, B, D) in every lane that acts. -/
def vLanes (s : State) (v : VOp) (w n : Nat) (f : NSite → DWord → DWord → DWord → DWord) : Out :=
  native s (fun p s =>
    let a := p.g_ v.a.toNat
    let b := p.g_ v.b.toNat
    let d := p.g_ v.d.toNat
    p.retain v (p.putG v.d.toNat (p.lat w n) (p.act v.grd)
      ((List.range 128).map (fun i => lowBits 32 (f p (nth 0 a i) (nth 0 b i) (nth 0 d i)))) s))

/-- An integer operation by its opcode, as in `salu`. -/
def vInt (s : State) (v : VOp) (opc w n : Nat) : Out := vLanes s v w n (fun _ a b d => (intFn opc a b d).getD 0)

/-- D := f(A, B, D) with flags in every lane that acts; latencies may depend on the format. -/
def vFloat (s : State) (v : VOp) (lat : NSite → Nat) (f : NSite → DWord → DWord → DWord → DWord × Flags) : Out :=
  native s (fun p s =>
    let a := p.g_ v.a.toNat
    let b := p.g_ v.b.toNat
    let d := p.g_ v.d.toNat
    let m := p.act v.grd
    let rs := (List.range 128).map (fun i => f p (nth 0 a i) (nth 0 b i) (nth 0 d i))
    p.retain v (p.putG v.d.toNat (lat p) m (rs.map (fun r => lowBits 32 r.1)) (p.raise (laneEvents m (rs.map (·.2))) s)))

/-- Pushes f(A, B) in every lane that acts. -/
def vPush (s : State) (v : VOp) (w n : Nat) (f : NSite → DWord → DWord → Bool) : Out :=
  native s (fun p s =>
    let a := p.g_ v.a.toNat
    let b := p.g_ v.b.toNat
    p.retain v (p.push (p.lat w n) (p.act v.grd) ((List.range 128).map (fun i => f p (nth 0 a i) (nth 0 b i))) s))

/-- The carry of A + B + c. -/
def carryOf (a b : DWord) (c : Nat) : Bool := decide (2 ^ 32 ≤ a.toNat % 2 ^ 32 + b.toNat % 2 ^ 32 + c)

/-- Sum with a carry in, and the push of its carry. -/
def vCarry (s : State) (v : VOp) (m : NSite → Mask) (cin : NSite → Nat → Nat) : Out :=
  native s (fun p s =>
    let a := p.g_ v.a.toNat
    let b := p.g_ v.b.toNat
    let lat := p.lat 3 4
    let sums := (List.range 128).map (fun i => lowBits 32 (nth 0 a i + nth 0 b i + BitVec.ofNat 64 (cin p i)))
    let cs := (List.range 128).map (fun i => carryOf (nth 0 a i) (nth 0 b i) (cin p i))
    p.retain v (p.push lat (m p) cs (p.putG v.d.toNat lat (m p) sums s)))

/-- Predicate depth d in lane i, as a number. -/
def NSite.predAt (p : NSite) (d i : Nat) : Nat := if (nth 0 p.preds d).getLsbD i then 1 else 0

/-! ### Integer operations -/

/-- V_NOP (R160). -/
def execVNop (s : State) : Out := native s (fun _ s => s)
/-- IADD (R77). -/
def execIadd (v : VOp) (s : State) : Out := vInt s v 0x01 3 4
/-- ISUB (R77). -/
def execIsub (v : VOp) (s : State) : Out := vInt s v 0x02 3 4
/-- IMUL (R77). -/
def execImul (v : VOp) (s : State) : Out := vInt s v 0x03 5 6
/-- IMHS (R77). -/
def execImhs (v : VOp) (s : State) : Out := vInt s v 0x04 5 6
/-- IMHN (R77). -/
def execImhn (v : VOp) (s : State) : Out := vInt s v 0x05 5 6
/-- IMAD (R77). -/
def execImad (v : VOp) (s : State) : Out := vInt s v 0x06 5 6
/-- IAND (R77). -/
def execIand (v : VOp) (s : State) : Out := vInt s v 0x07 3 4
/-- IOR (R77). -/
def execIor (v : VOp) (s : State) : Out := vInt s v 0x08 3 4
/-- IXOR (R77). -/
def execIxor (v : VOp) (s : State) : Out := vInt s v 0x09 3 4
/-- ISHL (R77). -/
def execIshl (v : VOp) (s : State) : Out := vInt s v 0x0A 3 4
/-- ISHRS (R77). -/
def execIshrs (v : VOp) (s : State) : Out := vInt s v 0x0B 3 4
/-- ISHRN (R77). -/
def execIshrn (v : VOp) (s : State) : Out := vInt s v 0x0C 3 4
/-- IROTL (R77). -/
def execIrotl (v : VOp) (s : State) : Out := vInt s v 0x0D 3 4
/-- ISEL (R167): A where the predicate at GRD[2:0] is 1, else B. -/
def execIsel (v : VOp) (s : State) : Out :=
  native s (fun p s =>
    let a := p.g_ v.a.toNat
    let b := p.g_ v.b.toNat
    p.retain v (p.putG v.d.toNat (p.lat 3 4) p.e.mask
      ((List.range 128).map (fun i => if p.predAt (v.grd.toNat % 8) i = 1 then nth 0 a i else nth 0 b i)) s))
/-- IMINS (R77). -/
def execImins (v : VOp) (s : State) : Out := vInt s v 0x0F 3 4
/-- IMINN (R77). -/
def execIminn (v : VOp) (s : State) : Out := vInt s v 0x10 3 4
/-- IMAXS (R77). -/
def execImaxs (v : VOp) (s : State) : Out := vInt s v 0x11 3 4
/-- IMAXN (R77). -/
def execImaxn (v : VOp) (s : State) : Out := vInt s v 0x12 3 4
/-- ICLZ (R77). -/
def execIclz (v : VOp) (s : State) : Out := vInt s v 0x13 3 4
/-- IPOPC (R77). -/
def execIpopc (v : VOp) (s : State) : Out := vInt s v 0x14 3 4
/-- IBREV (R77). -/
def execIbrev (v : VOp) (s : State) : Out := vInt s v 0x15 3 4
/-- IBFXS (R79). -/
def execIbfxs (v : VOp) (s : State) : Out := vInt s v 0x16 3 4
/-- IBFXN (R79). -/
def execIbfxn (v : VOp) (s : State) : Out := vInt s v 0x17 3 4
/-- IBFI (R79: A is inserted into D). -/
def execIbfi (v : VOp) (s : State) : Out := vInt s v 0x18 3 4
/-- IADDSS (R77). -/
def execIaddss (v : VOp) (s : State) : Out := vInt s v 0x19 3 4
/-- IADDSN (R77). -/
def execIaddsn (v : VOp) (s : State) : Out := vInt s v 0x1A 3 4
/-- ISUBSS (R77). -/
def execIsubss (v : VOp) (s : State) : Out := vInt s v 0x1B 3 4
/-- ISUBSN (R77). -/
def execIsubsn (v : VOp) (s : State) : Out := vInt s v 0x1C 3 4
/-- IADDCP (R167): pushes the carry. -/
def execIaddcp (v : VOp) (s : State) : Out := vCarry s v (fun p => p.act v.grd) (fun _ _ => 0)
/-- IADDCI (R167): the carry in is the predicate at GRD[2:0]. -/
def execIaddci (v : VOp) (s : State) : Out := vCarry s v (fun p => p.e.mask) (fun p i => p.predAt (v.grd.toNat % 8) i)
/-- ICMP (R80): D[2:0] is the condition, D[3] signed. -/
def execIcmp (v : VOp) (s : State) : Out :=
  vPush s v 3 4 (fun _ a b => match Cond.ofCode (v.d.toNat % 8) with
    | some cc => intCond cc (rdInt (v.d.getLsbD 3) 32 a) (rdInt (v.d.getLsbD 3) 32 b)
    | none => false)
/-- IDIVS (R78). -/
def execIdivs (v : VOp) (s : State) : Out := vInt s v 0x20 36 42
/-- IDIVN (R78). -/
def execIdivn (v : VOp) (s : State) : Out := vInt s v 0x21 36 42
/-- IREMS (R78). -/
def execIrems (v : VOp) (s : State) : Out := vInt s v 0x22 36 42
/-- IREMN (R78). -/
def execIremn (v : VOp) (s : State) : Out := vInt s v 0x23 36 42

/-! ### Floating-point operations -/

/-- Latency of the FMA class. -/
def fmaLat (p : NSite) : Nat := p.lat 5 6

/-- V_FCMP (R85): D[2:0] is the condition. -/
def execVFcmp (v : VOp) (s : State) : Out :=
  vPush s v 3 4 (fun p a b => match FCond.ofCode (v.d.toNat % 8) with
    | some cc => fpCmp (Ty.fmt p.fty) p.dn cc a b
    | none => false)
/-- V_FADD (R83). -/
def execVFadd (v : VOp) (s : State) : Out := vFloat s v fmaLat (fun p a b _ => fpAdd (Ty.fmt p.fty) p.rm p.dn a b)
/-- V_FSUB (R83). -/
def execVFsub (v : VOp) (s : State) : Out := vFloat s v fmaLat (fun p a b _ => fpSub (Ty.fmt p.fty) p.rm p.dn a b)
/-- V_FMUL (R83). -/
def execVFmul (v : VOp) (s : State) : Out := vFloat s v fmaLat (fun p a b _ => fpMul (Ty.fmt p.fty) p.rm p.dn a b)
/-- FFMA (R83): A × B + D, one rounding. -/
def execFfma (v : VOp) (s : State) : Out := vFloat s v fmaLat (fun p a b d => fpFma (Ty.fmt p.fty) p.rm p.dn a b d)
/-- V_FDIV (R83). -/
def execVFdiv (v : VOp) (s : State) : Out :=
  vFloat s v (fun p => if p.fty = .f32 then p.lat 30 34 else p.lat 24 28) (fun p a b _ => fpDiv (Ty.fmt p.fty) p.rm p.dn a b)
/-- V_FMIN (R84). -/
def execVFmin (v : VOp) (s : State) : Out := vLanes s v 3 4 (fun p a b _ => fpMinMax false (Ty.fmt p.fty) p.dn a b)
/-- V_FMAX (R84). -/
def execVFmax (v : VOp) (s : State) : Out := vLanes s v 3 4 (fun p a b _ => fpMinMax true (Ty.fmt p.fty) p.dn a b)
/-- FCSGN (R83). -/
def execFcsgn (v : VOp) (s : State) : Out := vLanes s v 3 4 (fun p a b _ => fpCopysign (Ty.fmt p.fty) a b)
/-- V_FCLASS (R85): B[3:0] is the source type. -/
def execVFclass (v : VOp) (s : State) : Out :=
  vLanes s v 3 4 (fun _ a _ _ => match Ty.ofCode (v.b.extractLsb' 0 4) with | some t => fpClass (Ty.fmt t) a | none => 0)
/-- V_FRND (R83). -/
def execVFrnd (v : VOp) (s : State) : Out := vLanes s v 5 6 (fun p a _ _ => fpRnd (Ty.fmt p.fty) p.rm p.dn a)
/-- FSCL (R83): exponent B. -/
def execFscl (v : VOp) (s : State) : Out :=
  vFloat s v fmaLat (fun p a b _ => fpScale (Ty.fmt p.fty) p.rm p.dn a (rdInt true 32 b))
/-- The kind of a native `cvt`: between floating-point types, else by B[8]. -/
def vcvtKind (b : BitVec 9) : CvtKind :=
  let isF := fun (n : Nat) => decide (6 ≤ n) && decide (n ≤ 10)
  if isF (b.toNat % 16) && isF (b.toNat / 16 % 16) then .ff else if b.getLsbD 8 then .s else .n
/-- V_CVT (R86, R87): B[3:0] source, B[7:4] target, 15 meaning s8, B[8] signed. R167 gives no register pair for an i64 side: one register,
zero-extended as a source and cut to 32 bits as a result (DESIGN CHOICE, log entry 97). -/
def execVCvt (v : VOp) (s : State) : Out :=
  vFloat s v fmaLat (fun p a _ _ => match CTy.ofCode (v.b.extractLsb' 0 4), CTy.ofCode (v.b.extractLsb' 4 4) with
    | some st, some t => cvtLane (vcvtKind v.b) t st p.rm p.dn a
    | _, _ => (0, 0))
/-- RSENC (R89): B[8] signed. -/
def execRsenc (v : VOp) (s : State) : Out := vFloat s v (fun p => p.lat 6 8) (fun _ a _ _ => rsdencLane (v.b.getLsbD 8) a)
/-- RSDEC (R89). -/
def execRsdec (v : VOp) (s : State) : Out := vFloat s v (fun p => p.lat 6 8) (fun _ a _ _ => rsddecLane a)

/-! ### Cross-lane operations (R90 to R93) -/

/-- XSHF (R167): A of lane B, when that lane is active; else the lane's own. -/
def execXshf (v : VOp) (s : State) : Out :=
  native s (fun p s =>
    let a := p.g_ v.a.toNat
    let b := p.g_ v.b.toNat
    p.retain v (p.putG v.d.toNat (p.lat 4 6) (p.act v.grd)
      ((List.range 128).map (fun i => shflLane 0 p.e.mask a (nth 0 b i).toNat i)) s))
/-- XBC (R167). -/
def execXbc (v : VOp) (s : State) : Out :=
  native s (fun p s =>
    let a := p.g_ v.a.toNat
    let b := p.g_ v.b.toNat
    p.retain v (p.putG v.d.toNat (p.lat 4 6) (p.act v.grd)
      (List.replicate 128 (bcastVal 0 p.e.mask a (nth 0 b p.low).toNat)) s))
/-- Bit 0 of every lane, as a condition. -/
def condBits (a : List DWord) : List DWord := a.map (fun x => x &&& 1)
/-- XVOTE (R92): pushes the vote. -/
def execXvote (v : VOp) (s : State) : Out :=
  native s (fun p s =>
    let m := p.act v.grd
    match VoteMode.ofCode (v.b.toNat % 4) with
    | some k => p.retain v (p.push (p.lat 4 6) m (List.replicate 128 (voteVal k m (condBits (p.g_ v.a.toNat)))) s)
    | none => p.illegal s)
/-- XBLT (R92): D and D + 1 take the ballot. -/
def execXblt (v : VOp) (s : State) : Out :=
  native s (fun p s =>
    let m := p.act v.grd
    let x := ballotVal (v.b.getLsbD 0) m (condBits (p.g_ v.a.toNat))
    let lat := p.lat 4 6
    p.retain v (p.putG (v.d.toNat + 1) lat m (List.replicate 128 (x >>> 32))
      (p.putG v.d.toNat lat m (List.replicate 128 (lowBits 32 x)) s)))
/-- The type of a native reduction. -/
def NSite.redTy (p : NSite) (op : RedOp) : Ty := match op with | .fadd | .fmin | .fmax => p.fty | _ => .i32
/-- XRED (R62, R93). -/
def execXred (v : VOp) (s : State) : Out :=
  native s (fun p s =>
    let m := p.act v.grd
    match RedOp.ofCode (v.b.toNat % 16) with
    | some op =>
      let c := redComb op (v.b.getLsbD 4) p.rm p.dn (p.redTy op)
      let r := redVal c.1 c.2 m (p.g_ v.a.toNat)
      p.retain v (p.putG v.d.toNat (p.lat 30 44) m (List.replicate 128 (lowBits 32 r.1)) (p.raise r.2 s))
    | none => p.illegal s)
/-- XSCN (R93): B[5] exclusive. -/
def execXscn (v : VOp) (s : State) : Out :=
  native s (fun p s =>
    let m := p.act v.grd
    match RedOp.ofCode (v.b.toNat % 16) with
    | some op =>
      let c := redComb op (v.b.getLsbD 4) p.rm p.dn (p.redTy op)
      let r := scanVal (v.b.getLsbD 5) c.1 c.2 m (p.g_ v.a.toNat)
      p.retain v (p.putG v.d.toNat (p.lat 34 50) m (r.1.map (lowBits 32)) (p.raise r.2 s))
    | none => p.illegal s)

/-! ### Register files -/

/-- UBC (R167): D := s[A]; KP = 1 retains A as in any V operation (R165). -/
def execUbc (v : VOp) (s : State) : Out :=
  native s (fun p s =>
    let a := List.replicate 128 ((p.s_ v.a.toNat).zeroExtend 64)
    p.keep v a (p.putG v.d.toNat (p.lat 3 4) (p.act v.grd) a s))

/-- The index that each lane takes: IDX, or the slot's operand buffer when varying (R176). -/
def NSite.indices (p : NSite) (sub : BitVec 9) : List DWord :=
  if sub.getLsbD 2 then p.g_ p.bufIx else List.replicate 128 ((p.x_ (sub.toNat % 4)).idx.zeroExtend 64)

/-- The latency of `rget` and `rset`. -/
def NSite.ixLat (p : NSite) (sub : BitVec 9) : Nat := if sub.getLsbD 2 then p.lat 9 12 else p.lat 5 6

/-- The register of an index: BASE + index, or the first of a pair. -/
def Idx.reg (x : Idx) (i : Nat) : Nat := x.base + (if x.pair then 2 * i else i)

/-- An element that a lane of m takes lies at or above register hi. -/
def Idx.beyond (x : Idx) (m : Mask) (ix : List DWord) (hi : Nat) : Bool :=
  (lanesOf m).any (fun i => decide (hi ≤ x.reg (nth 0 ix i).toNat + (if x.pair then 1 else 0)))

/-- RGET (R176): no lane writes when one is out of range. The second destination of a pair at the operand-buffer index, and an element
that is no register, raise the illegal-bundle trap (R182). -/
def execRget (v : VOp) (s : State) : Out :=
  native s (fun p s =>
    let m := p.act v.grd
    let x := p.x_ (v.a.toNat % 4)
    let ix := p.indices v.a
    match badIndex m ix x.len with
    | some l => p.fault .arrayBounds (some l) (nth 0 ix l) s
    | none =>
      if x.pair ∧ v.d.toNat + 1 = p.bufIx ∨ x.beyond m ix (p.bufIx + 1) then p.illegal s else
      let el := fun (k : Nat) => (List.range 128).map (fun i => if m.getLsbD i then nth 0 (p.g_ (x.reg (nth 0 ix i).toNat + k)) i else 0)
      let s := p.putG v.d.toNat (p.ixLat v.a) m (el 0) s
      if x.pair then p.putG (v.d.toNat + 1) (p.ixLat v.a) m (el 1) s else s)

/-- RSET (R176). -/
def execRset (v : VOp) (s : State) : Out :=
  native s (fun p s =>
    let m := p.act v.grd
    let x := p.x_ (v.a.toNat % 4)
    let ix := p.indices v.a
    match badIndex m ix x.len with
    | some l => p.fault .arrayBounds (some l) (nth 0 ix l) s
    | none =>
      if x.beyond m ix p.bufIx then p.illegal s else
      let b := p.g_ v.b.toNat
      let c := p.g_ (v.b.toNat + 1)
      (List.range x.len).foldl (fun s i =>
        let mi := m &&& maskOf (fun l => (nth 0 ix l).toNat = i)
        if mi = 0 then s
        else
          let s := p.putG (x.reg i) (p.ixLat v.a) mi b s
          if x.pair then p.putG (x.reg i + 1) (p.ixLat v.a) mi c s else s) s)

/-- MLD (R167): half A[7] of m[A[6:0]]. -/
def execMld (v : VOp) (s : State) : Out :=
  native s (fun p s =>
    let xs := p.m_ (v.a.toNat % 128)
    p.putG v.d.toNat (p.lat 3 4) (p.act v.grd)
      ((List.range 128).map (fun i => if v.a.getLsbD 7 then nth 0 xs i >>> 32 else lowBits 32 (nth 0 xs i))) s)

/-- MST (R167): half D[7] of m[D[6:0]]. -/
def execMst (v : VOp) (s : State) : Out :=
  native s (fun p s =>
    p.retain v (p.put (.m (v.d.toNat % 128) (v.d.getLsbD 7)) (p.lat 3 4) (p.act v.grd) (p.g_ v.a.toNat) false s))

/-! ### Tiles (R114 to R132) -/

/-- The checks of an access to tile t of the group's set (R118, R173): the tile is numbered as the set numbers it. Saved tiles are
restored before the bundle is dispatched (R117). -/
def NSite.withTile (p : NSite) (t : Nat) (k : AccSet → Tile → State → State) (s : State) : State :=
  match p.grp.acc.map (AccSet.seenBy p.ctx) with
  | none => p.fault .accessWithoutToken none (BitVec.ofNat 64 t) s
  | some A =>
    match A.tiles[t]? with
    | none => p.fault .accessWithoutToken none (BitVec.ofNat 64 t) s
    | some T => if T.st = .lost ∨ T.st = .saved then p.fault .accessWithoutToken none (BitVec.ofNat 64 t) s else k A T s

/-- A write needs a converged group (R120). -/
def NSite.withWrite (p : NSite) (t : Nat) (k : AccSet → Tile → State → State) (s : State) : State :=
  if !p.converged then p.fault .divergentMatrix none 0 s else p.withTile t k s

/-- Tiles from t on take new contents, under completion token k. -/
def NSite.putTiles (p : NSite) (t k : Nat) (new : List Tile) (s : State) : State :=
  let (id, s) := s.newId
  Sys2Proof.Machine.putTiles p.site t id new (p.putTok k id s)

/-- TREAD (R130 to R132): B[3:0] is the token, unless B[4]; A[2:0] the tile, A[7:3] the slice, A[8] the residue word. -/
def execTread (v : VOp) (s : State) : Out :=
  native s (fun p s =>
    let t := v.a.toNat % 8
    let j := v.a.toNat / 8 % 32
    p.withTile t (fun _ T s =>
      let wait := v.b.getLsbD 4 || p.lau.amode == 2
      if wait && !T.flight.isEmpty then p.wait (.tile (some t)) s
      else if !wait && T.lastTok != p.tok (v.b.toNat % 16) then p.fault .accessWithoutToken none (BitVec.ofNat 64 t) s
      else
        let m := p.act v.grd
        match T.badLane m j with
        | some i => p.fault .uncorrectableData (some i) 0 s
        | none =>
        let lat := p.lat 6 8
        if v.a.getLsbD 8 then
          let rs := readRsd (sliceWords T.res j)
          p.putG v.d.toNat lat m (rs.map (·.1)) (p.raise (laneEvents m (rs.map (·.2))) s)
        else
          let (T', g) := foldTile T
          let s := s.updGroup p.g (fun G => { G with acc := G.acc.map (fun A => { A with tiles := modifyAt (fun _ => T') A.tiles t }) })
          p.putG v.d.toNat lat m (sliceWords T'.el j) (p.raise [(0xFF, g)] s)) s)

/-! ### The F slot (R99, R100, R170) -/

/-- F_NOP (R160). -/
def execFNop (s : State) : Out := native s (fun _ s => s)

/-- A special function of A, latency 14. -/
def fSlot (s : State) (o : FOp) (f : Bool → DWord → DWord × Flags) : Out :=
  native s (fun p s =>
    let a := p.g_ o.a.toNat
    let m := p.act o.grd
    let rs := (List.range 128).map (fun i => f p.dn (nth 0 a i))
    p.putG o.d.toNat 14 m (rs.map (·.1)) (p.raise (laneEvents m (rs.map (·.2))) s))

/-- F_EXP2. -/
def execFExp2 (o : FOp) (s : State) : Out := fSlot s o sfExp2
/-- F_LOG2. -/
def execFLog2 (o : FOp) (s : State) : Out := fSlot s o sfLog2
/-- F_RCP. -/
def execFRcp (o : FOp) (s : State) : Out := fSlot s o sfRcp
/-- F_SQRT. -/
def execFSqrt (o : FOp) (s : State) : Out := fSlot s o sfSqrt
/-- F_RSQRT. -/
def execFRsqrt (o : FOp) (s : State) : Out := fSlot s o sfRsqrt
/-- F_SINPI. -/
def execFSinpi (o : FOp) (s : State) : Out := fSlot s o sfSinpi
/-- F_COSPI. -/
def execFCospi (o : FOp) (s : State) : Out := fSlot s o sfCospi
/-- F_TANH. -/
def execFTanh (o : FOp) (s : State) : Out := fSlot s o sfTanh
/-- F_SIGMOID. -/
def execFSigmoid (o : FOp) (s : State) : Out := fSlot s o sfSigmoid
/-- F_ERF. -/
def execFErf (o : FOp) (s : State) : Out := fSlot s o sfErf

/-- SSCL (R124): saturated scales in the lanes that act. -/
def execSscl (g k : BitVec 4) (t : BitVec 3) (a : BitVec 9) (s : State) : Out :=
  native s (fun p s =>
    let m := p.act g
    let es := p.g_ a.toNat
    p.withWrite t.toNat (fun _ T s => p.putTiles t.toNat k.toNat [T.scaled m es] (p.raise (scaleEvents m es) s)) s)

/-! ### The M slot (R125 to R130, R173) -/

/-- M_NOP (R160). -/
def execMNop (s : State) : Out := native s (fun _ s => s)

/-- An operand buffer as the M slot reads it, zero in lanes that are not active (R125). -/
def NSite.word (p : NSite) (n : Nat) : List DWord :=
  let b := p.buf n
  (List.range 128).map (fun i => if p.e.mask.getLsbD i then nth 0 b i else 0)

/-- TLATCH (R173): the first words; its token completes at once. -/
def execTlatch (t : BitVec 3) (k : BitVec 4) (f : BitVec 3) (s : State) : Out :=
  native s (fun p s =>
    if f.toNat = (MmaForm.code .mo).toNat ∧ t.toNat % 2 = 1 then p.illegal s else
    p.withTile t.toNat (fun _ _ s =>
      s.updNative p.g (fun N => { N with
        latch := (t.toNat, f.toNat, (p.word 0).map (fun x => x.truncate 32), (p.word 1).map (fun x => x.truncate 32))
          :: N.latch.filter (fun l => l.1 != t.toNat),
        k := modifyAt (fun _ => none) N.k k.toNat })) s)

/-- The fragment words of a `tstep`: none without a latch that matches (R173). -/
def NSite.frags (p : NSite) (t : Nat) (fm : MmaForm) : Option (List (List DWord)) :=
  let a := p.word 0
  let b := p.word 1
  let latched := (p.nat.latch.find? (fun l => l.1 == t && l.2.1 == fm.code.toNat)).map (fun l => (wordsOf l.2.2.1, wordsOf l.2.2.2))
  match fm with
  | .bf16 | .f16 => latched.map (fun (x, y) => [x, a, y, b])
  | .mo => latched.map (fun (x, _) => [x, a, b])
  | _ => some [a, b]

/-- TSTEP (R125 to R129, R173). -/
def execTstep (t : BitVec 3) (k : BitVec 4) (f : BitVec 3) (s : State) : Out :=
  native s (fun p s =>
    match MmaForm.ofCode f.toNat with
    | none => p.illegal s
    | some fm =>
      if fm = .mo ∧ t.toNat % 2 = 1 then p.illegal s
      else if fm = .mo ∧ p.lau.amode ≠ 1 then p.fault .unsupportedFeature none 0 s
      else
        match p.frags t.toNat fm with
        | none => p.illegal s
        | some ws =>
          p.withWrite t.toNat (fun A T s =>
            match (if fm = .mo then badVarLane (nth [] ws 1) else none) with
            | some i => p.fault .negativeVariance (some i) 0 s
            | none =>
              let r := mmaTiles fm T ((A.tiles[t.toNat + 1]?).getD T) ws
              (p.putTiles t.toNat k.toNat r.1 (p.raise [(0xFF, r.2)] s)).updNative p.g (fun N =>
                { N with latch := N.latch.filter (fun l => l.1 != t.toNat) })) s)

/-- TWR (R130, R173): the V0 buffer goes into slice J. -/
def execTwr (t : BitVec 3) (k : BitVec 4) (j : BitVec 5) (s : State) : Out :=
  native s (fun p s =>
    p.withWrite t.toNat (fun _ T s =>
      let (T, g) := foldTile T
      p.putTiles t.toNat k.toNat [Tile.written p.e.mask j.toNat { T with el := setSlice p.e.mask T.el j.toNat (p.buf 0) }] (p.raise [(0xFF, g)] s)) s)

/-- TZERO (R130, R173): the pair in moment mode; scales stay. -/
def execTzero (t : BitVec 3) (k : BitVec 4) (s : State) : Out :=
  native s (fun p s =>
    p.withWrite t.toNat (fun A T s =>
      let z := fun (T : Tile) => { T with el := [], res := [], ctr := 0, bad := [] }
      let new := if p.lau.amode = 1 then [z T, z ((A.tiles[t.toNat + 1]?).getD T)] else [z T]
      p.putTiles t.toNat k.toNat new (p.raise [(0xFF, (foldTile T).2)] s)) s)

end Sys2Proof.Machine
end

