-- ==== Sys2Proof/Machine/NativeLA.lean ====
section
/-! DEFINITION. The L slot (R171, R172, R195 to R197) and the A slot (R174). -/

namespace Sys2Proof.Machine
open Sys2Proof

/-! ### Windows (R195 to R197) -/

/-- The window of a base address: the aperture part of the core, a mapped page, or invalid. An invalid window of a base with bits [63:48]
set keeps it whole, so that the lane that uses it faults at its own address (R192, R194). -/
def windowOf (s : State) (p : NSite) (b : DWord) : Win :=
  let va := b.toNat
  let invalid : Win := { vbase := va, frame := 0, limit := 0, space := 0, rd := false, wr := false, size := 0, stale := false }
  if va / 2 ^ 40 = 0xFF then
    let P := partSize (imgShared s p.lau.kaddr) p.lau.crewLog
    { vbase := va, frame := p.grp.rank * P, limit := P, space := 1, rd := true, wr := true, size := 0, stale := false }
  else
    match pageOf s p.grp.core p.ctx va with
    | some (e, true) => { vbase := va, frame := e.pa + (va - e.va), limit := e.size - (va - e.va), space := if isDS e.pa then 2 else 3,
                          rd := e.rd, wr := e.wr, size := e.size, stale := false }
    | _ => invalid

/-- The window of an L operation, translated first when its pair was written since (R195). It stays stale while a write of
its pair is pending. -/
def NSite.window (p : NSite) (n : Nat) (s : State) : Win × State :=
  let W := nth Win.unset p.nat.win n
  if !W.stale then (W, s)
  else
    let open_ := p.nat.pend.any (fun w => w.reg = .s (2 * n - 1) || w.reg = .s (2 * n))
    let V := { windowOf s p (p.s2 (2 * n - 1)) with stale := open_ }
    (V, s.updNative p.g (fun N => { N with win := modifyAt (fun _ => V) N.win n }))

/-- The page of a window of die store or device memory, as an entry that comes before the core TLB (R197). -/
def Win.entry (x : Nat) (W : Win) : Option Tlb :=
  if W.space = 2 ∨ W.space = 3 then
    some { ctx := x, va := W.vbase + W.limit - W.size, size := W.size, pa := W.frame + W.limit - W.size, rd := W.rd, wr := W.wr }
  else none

/-- A core with an entry before its TLB. -/
def Core.before (e : Tlb) (C : Core) : Core := { C with tlb := e :: C.tlb }
/-- A core without the first such entry. -/
def Core.without (e : Tlb) (C : Core) : Core := { C with tlb := C.tlb.erase e }

/-- What k does while a window's page stands before the TLB. -/
def NSite.through (p : NSite) (W : Win) (k : State → State) (s : State) : State :=
  match W.entry p.ctx with
  | none => k s
  | some e =>
    let s := k { s with cores := modifyAt (Core.before e) s.cores p.grp.core }
    { s with cores := modifyAt (Core.without e) s.cores p.grp.core }

/-! ### Accesses -/

/-- The site with the lanes in which the operation acts. -/
def NSite.acting (p : NSite) (grd : BitVec 4) : Site :=
  let q := p.site
  { q with side := { q.side with core := { q.side.core with mask := p.act grd } } }

/-- The address of every lane: VBASE + the offset register, read as non-negative (R171, R197). -/
def NSite.addrs (p : NSite) (W : Win) (a : BitVec 9) : List DWord :=
  (p.g_ a.toNat).map (fun o => BitVec.ofNat 64 W.vbase + lowBits 32 o)

/-- An access of n bytes in every lane that acts. -/
def NSite.access (p : NSite) (o : LOp) (n : Nat) (mask : BitVec 3) (rd wr : Bool) (k : Site → List (Nat × Acc) → State → State)
    (s : State) : State :=
  let (W, s) := p.window o.win.toNat s
  let q := p.acting o.grd
  p.through W (Sys2Proof.Machine.access q n n mask rd wr (p.addrs W o.a) (k q)) s

/-- The latency class of an access (R190). -/
def NSite.latClass (p : NSite) (a : Acc) : Nat :=
  match a.space with
  | .sp => if (a.key - 2 ^ 40) / 2 ^ 21 = p.grp.core then 0 else 1
  | .ds => if homeDie a.key = dieOf p.grp.core then 2 else 3
  | .dm => 3

/-- The nominal latency of the slowest lane (R178). -/
def NSite.loadLat (p : NSite) (accs : List (Nat × Acc)) : Nat :=
  match accs.foldl (fun c e => max c (p.latClass e.2)) 0 with
  | 0 => 10 | 1 => 40 | 2 => 90 | _ => 300

/-- Bytes of a size code. -/
def lBytes (o : LOp) : Nat := 2 ^ o.sz.toNat

/-- Writes an L result, late until it arrives (R179). -/
def NSite.putL (p : NSite) (n lat : Nat) (m : Mask) (vals : List DWord) (s : State) : State :=
  if n = 0 then s else p.put (.g n) lat m vals true s

/-- Writes DR and the registers after it with words of the lanes' data. -/
def NSite.putWords (p : NSite) (o : LOp) (lat : Nat) (word : Nat → Nat → DWord) (s : State) : State :=
  (List.range (max 1 ((lBytes o) / 4))).foldl (fun s k =>
    p.putL (o.dr.toNat + k) lat (p.act o.grd) ((List.range 128).map (fun i => word i k)) s) s

/-- Word k of lane i's data in DR and the registers after it. -/
def NSite.data (p : NSite) (o : LOp) (i : Nat) : List Byte :=
  let bytes := (List.range (max 1 ((lBytes o) / 4))).flatMap (fun k => leBytes 4 (nth 0 (p.g_ (o.dr.toNat + k)) i).toNat)
  bytes.take (lBytes o)

/-- The spaces of a load, store or atomic (R191). -/
def plainSpaces : BitVec 3 := 3

/-- A load with zero or sign extension (R172). -/
def lLoad (s : State) (o : LOp) (mask : BitVec 3) (sg : Bool) : Out :=
  native s (fun p s =>
    p.access o (lBytes o) mask true false (fun q accs s =>
      let s := reachLanes q false (lBytes o) accs s
      p.putWords o (p.loadLat accs) (fun i k =>
        match accAt accs i with
        | none => 0
        | some a =>
          let x := laneWord s p.ctx (ownOps s p.g q.side.gated) i (a.key + 4 * k) (min 4 (lBytes o))
          if sg then iExt true (8 * min 4 (lBytes o)) 32 x else x) s) s)

/-- A store, gated in one entry of the store buffer, the lanes in increasing order (R172, R181, R213). -/
def lStore (s : State) (o : LOp) (op : Nat → Nat → List Byte → GOp) : Out :=
  native s (fun p s =>
    p.access o (lBytes o) plainSpaces false true (fun _ accs s => p.gate (accs.map (fun (i, a) => op i a.key (p.data o i))) s) s)

/-- L_NOP (R160). -/
def execLNop (s : State) : Out := native s (fun _ s => s)
/-- LDN (R172). -/
def execLdn (o : LOp) (s : State) : Out := lLoad s o plainSpaces false
/-- LDS (R172). -/
def execLds (o : LOp) (s : State) : Out := lLoad s o plainSpaces true
/-- L_ST (R172). -/
def execLSt (o : LOp) (s : State) : Out := lStore s o .store
/-- LDQ (R172): an acquire load; `sigrd` reads any space (R314). -/
def execLdq (o : LOp) (s : State) : Out := lLoad s o 7 false
/-- STRL (R172): the word names no scope and no mask, so that the release is of the widest (log entry 14). -/
def execStrl (o : LOp) (s : State) : Out := lStore s o (fun l a bs => .relStore l a bs 7 5)

/-! ### Atomics (R257 to R259) -/

/-- An atomic: the region's gated operations first, then every lane in increasing order; the old value returns in DR. -/
def lAtom (s : State) (o : LOp) (f : NSite → Nat → DWord → DWord) : Out :=
  native s (fun p s =>
    p.access o (lBytes o) plainSpaces true true (fun _ accs s =>
      let r := accs.foldl (atomAt p.g p.ctx (lBytes o) (f p)) ([], p.flush s)
      p.committed (p.putWords o (p.loadLat accs) (fun i k => BitVec.ofNat 64 ((NMap.get 0 r.1 i).toNat / 2 ^ (32 * k) % 2 ^ 32)) r.2)) s)

/-- The value of DR in lane i, from register n on. -/
def NSite.operand (p : NSite) (o : LOp) (n i : Nat) : DWord :=
  if (lBytes o) = 8 then nth 0 (p.g_ n) i ||| (nth 0 (p.g_ (n + 1)) i <<< 32) else nth 0 (p.g_ n) i

/-- An atomic operation of R257 on DR. -/
def lAtomOp (s : State) (o : LOp) (op : AtomOp) : Out :=
  lAtom s o (fun p i old => atomNew op (8 * (lBytes o)) old (p.operand o o.dr.toNat i))

/-- AADD (R172, R257). -/
def execAadd (o : LOp) (s : State) : Out := lAtomOp s o .add
/-- AMINS (R172, R257). -/
def execAmins (o : LOp) (s : State) : Out := lAtomOp s o .mins
/-- AMINN (R172, R257). -/
def execAminn (o : LOp) (s : State) : Out := lAtomOp s o .minn
/-- AMAXS (R172, R257). -/
def execAmaxs (o : LOp) (s : State) : Out := lAtomOp s o .maxs
/-- AMAXN (R172, R257). -/
def execAmaxn (o : LOp) (s : State) : Out := lAtomOp s o .maxn
/-- AAND (R172, R257). -/
def execAand (o : LOp) (s : State) : Out := lAtomOp s o .and
/-- AOR (R172, R257). -/
def execAor (o : LOp) (s : State) : Out := lAtomOp s o .or
/-- AXOR (R172, R257). -/
def execAxor (o : LOp) (s : State) : Out := lAtomOp s o .xor
/-- AXCHG (R172, R257). -/
def execAxchg (o : LOp) (s : State) : Out := lAtomOp s o .xchg
/-- ACAS (R172, R258): DR holds the compare value, DR + SZ − 1 the new one. -/
def execAcas (o : LOp) (s : State) : Out :=
  lAtom s o (fun p i old => if old = p.operand o o.dr.toNat i then p.operand o (o.dr.toNat + o.sz.toNat - 1) i else old)

/-- PREF (R256): changes time only. -/
def execPref (s : State) : Out := native s (fun _ s => s)
/-- FNC (R260): it makes no access. What the group has stored is performed before it, and the region closes there (log entry 73);
later bundles of the side are dispatched after it has issued. -/
def execFnc (s : State) : Out :=
  native s (fun p s => if (p.nat.gatedOf p.e.side).isEmpty then landAll p.g s else p.committed (p.flush s))

/-! ### Spills (R151, R155, R172, R386) -/

/-- Storage key of slot n of lane i. -/
def NSite.slotKey (p : NSite) (n i : Nat) : Nat := keyScratch p.grp.core (p.grp.spill + 512 * n + 4 * i)

/-- Key of the tag that the spill unit keeps beside the slot pair from n (log entry 4). -/
def NSite.slotTag (p : NSite) (n i : Nat) : Nat := keySlotTag p.g n i

/-- SPST: A is the slot number. -/
def execSpst (o : LOp) (s : State) : Out :=
  native s (fun p s =>
    p.gate ((lanesOf (p.act o.grd)).map (fun i => .store i (p.slotKey o.a.toNat i) (leBytes 4 (nth 0 (p.g_ o.dr.toNat) i).toNat)))
      (countEv p.ctx 0x46 1 s))

/-- SPLD. -/
def execSpld (o : LOp) (s : State) : Out :=
  native s (fun p s =>
    p.putL o.dr.toNat 10 (p.act o.grd)
      ((List.range 128).map (fun i => laneWord s p.ctx (p.nat.gatedOf p.e.side) i (p.slotKey o.a.toNat i) 4)) (countEv p.ctx 0x47 1 s))

/-- The tag beside a slot pair as the region sees it. -/
def NSite.slotTagAt (p : NSite) (s : State) (n i : Nat) : Bool :=
  match ((p.nat.gatedOf p.e.side).filterMap (fun g => match g with
    | .spillTag _ a t => if a = p.slotTag n i then some t else none
    | _ => none)).getLast? with
  | some t => t
  | none => tagAt s (p.slotTag n i)

/-- One lane of `ldt`: the reference as `ldref` reads it, with its access. -/
def ldtLane (q : Site) (as : List DWord) (v : State) (i : Nat) :
    Except (Cause × DWord) (List (Nat × Acc) × List GOp × (DWord × List (Nat × Acc))) :=
  match ldrefLane q as (fun _ => none) v i with
  | .error e => .error e
  | .ok (accs, ops, w, _) => .ok (accs, ops, (w, accs))

/-- LDT (R239, R172): a reference; with WIN = 0 the reload of a spilled one from slots A and A + 1. A reference in registers is
tagged exactly when it is not null (log entry 46). -/
def execLdt (o : LOp) (s : State) : Out :=
  native s (fun p s =>
    let lat := fun (accs : List (Nat × Acc)) => p.loadLat accs
    if o.win = 0 then
      let n := o.a.toNat
      let word := fun (i k : Nat) => laneWord s p.ctx (p.nat.gatedOf p.e.side) i (p.slotKey (n + k) i) 4
      p.putWords o 10 (fun i k => if p.slotTagAt s n i then word i k else 0) (countEv p.ctx 0x47 1 s)
    else
      let (W, s) := p.window o.win.toNat s
      let q := p.acting o.grd
      let as := p.addrs W o.a
      p.through W (objInstr q ((0 : DWord), ([] : List (Nat × Acc))) true false 8 as (fun s _ i => ldtLane q as (q.laneView s i) i)
        (fun _ r s => p.putWords o (lat ((lanesOf q.mask).flatMap (fun i => (r i).2)))
          (fun i k => BitVec.ofNat 64 ((r i).1.toNat / 2 ^ (32 * k) % 2 ^ 32)) s)) s)

/-- STT (R236, R239, R172): with WIN = 0 the spill of a reference with its tag. -/
def execStt (o : LOp) (s : State) : Out :=
  native s (fun p s =>
    let ref := fun (i : Nat) => p.operand o o.dr.toNat i
    if o.win = 0 then
      p.gate ((lanesOf (p.act o.grd)).flatMap (fun i =>
        [.store i (p.slotKey o.a.toNat i) (leBytes 4 (ref i).toNat),
         .store i (p.slotKey (o.a.toNat + 1) i) (leBytes 4 ((ref i).toNat / 2 ^ 32)),
         .spillTag i (p.slotTag o.a.toNat i) (ref i != 0)])) (countEv p.ctx 0x46 1 s)
    else
      let (W, s) := p.window o.win.toNat s
      let q := p.acting o.grd
      let as := p.addrs W o.a
      p.through W (objInstr q () false true 8 as (fun _ => strefLane q as ((List.range 128).map (fun i => (ref i, ref i != 0))))
        (fun ops _ s => p.gate ops s)) s)

/-- The oldest L result of PC slot sd that has not arrived. -/
def arriveFirst (sd : Nat) : List PendW → List PendW
  | [] => []
  | w :: r => if w.late && w.side == sd then { w with late := false } :: r else w :: arriveFirst sd r

/-- L_SLOT_RESULT_ARRIVAL (R179): the oldest outstanding L result of PC slot sd of group g arrives, when none of its requests stands
rejected; the last one frees the group's miss-status entries (R204). -/
def execLSlotResultArrival (g sd : Nat) (s : State) : Out :=
  .next (match s.groups[g]? with
    | none => s
    | some G =>
      if rejected s G.core g then s
      else
        let s := s.updNative g (fun N => { N with pend := arriveFirst sd N.pend })
        if ((s.groups[g]?).bind Group.native).all (fun N => N.pend.all (fun w => !w.late)) then
          { s with cores := modifyAt (fun C => { C with mshr := C.mshr.filter (· != g) }) s.cores G.core }
        else s)

/-! ### The A slot (R174) -/

/-- A_NOP (R160). -/
def execANop (s : State) : Out := native s (fun _ s => s)

/-- A descriptor: tokens consumed, scope, mask, the registers after the first (R174). -/
structure Desc where
  toks : List Nat
  scope : BitVec 3
  mask : BitVec 3
  base : Nat
  deriving DecidableEq, Repr

/-- The descriptor at s[d]: none when it names more than three tokens or a reserved scope, or a bit of [31:22] is 1. -/
def NSite.desc (p : NSite) (d : Nat) : Option Desc :=
  let w := p.s_ d
  let ks := (List.range 16).filter (fun k => w.getLsbD k)
  if 3 < ks.length ∨ 6 ≤ (w.extractLsb' 16 3).toNat ∨ w.toNat / 2 ^ 22 ≠ 0 then none
  else some { toks := ks.filterMap p.tok, scope := w.extractLsb' 16 3, mask := w.extractLsb' 19 3, base := d + 1 }

/-- A gated engine instruction of the A slot: token k is defined. -/
def NSite.issueEng (p : NSite) (k : Nat) (kind : EngKind) (scope mask : BitVec 3) (deps : List Nat) (s : State) : State :=
  let (id, s) := s.newId
  let E : Eng := { id := id, ctx := p.ctx, group := p.g, kind := kind, scope := scope, mask := mask, deps := deps,
                   origin := p.nat.port p.e.pc, st := .gated, since := s.time, done := [], wrote := [] }
  p.gate [.engine id] (addToken p.site id (p.putTok k id { s with engs := s.engs ++ [E] }))

/-- How an A operation waits, takes a token and closes its region. -/
def NSite.port (p : NSite) (k : Nat) : Port :=
  { site := p.site, wait := fun w s => p.wait w s, free := fun _ => true, issue := p.issueEng k,
    commit := fun kind sc mask deps s => p.committed (p.flush (p.issueEng k kind sc mask deps s)), flush := p.flush,
    close := fun e s => p.committed (p.keepPend .none (p.putTok k e s)) }

/-- An A operation on its descriptor. -/
def aSlot (s : State) (k : BitVec 4) (d : BitVec 9) (f : NSite → Port → Desc → State → State) : Out :=
  native s (fun p s =>
    match p.desc d.toNat with
    | none => p.illegal s
    | some D => f p (p.port k.toNat) D s)

/-- The address of a memory operand in three registers: base, then offset (R193). -/
def NSite.mem3 (p : NSite) (n : Nat) : DWord := p.s2 n + (p.s_ (n + 2)).zeroExtend 64

/-- A_COPY (R270): dst, src, len, and with `.2d` rows, ds, ss. The descriptor does not carry `.dirty`, `.tag` and `.2d`: free values
(log entry 47). -/
def execACopy (k : BitVec 4) (d : BitVec 9) (s : State) : Out :=
  aSlot s k d (fun p q D s =>
    let b := D.base
    let two := Config.freeBool s.fresh 2
    let n := fun (i : Nat) => (p.s_ (b + i)).toNat
    copyAt q D.scope D.mask (Config.freeBool s.fresh 0) (Config.freeBool s.fresh 1) two (p.mem3 b).toNat (p.mem3 (b + 3)).toNat (n 6)
      (if two then n 7 else 1) (if two then n 8 else 0) (if two then n 9 else 0) D.toks s.tick)

/-- The scattered addresses of a gather or scatter: base and offset in registers, one offset for every lane. -/
def NSite.scattered (p : NSite) (n : Nat) : List (Nat × Nat) := (lanesOf p.e.mask).map (fun i => (i, (p.mem3 n).toNat))

/-- A_GATHER (R271): pk, b, o, e. -/
def execAGather (k : BitVec 4) (d : BitVec 9) (s : State) : Out :=
  aSlot s k d (fun p q D s =>
    gatherAt q D.scope D.mask (p.mem3 D.base).toNat (p.scattered (D.base + 3)) (p.s_ (D.base + 6)).toNat .gather D.toks s)

/-- A_SCATTER (R271): pk, b, o, e. -/
def execAScatter (k : BitVec 4) (d : BitVec 9) (s : State) : Out :=
  aSlot s k d (fun p q D s =>
    gatherAt q D.scope D.mask (p.mem3 D.base).toNat (p.scattered (D.base + 3)) (p.s_ (D.base + 6)).toNat .scatter D.toks s)

/-- A_COLL (R272): dst, src, cnt, grp. Kind, operation and type are not in the descriptor: free values (log entry 47). -/
def execAColl (k : BitVec 4) (d : BitVec 9) (s : State) : Out :=
  aSlot s k d (fun p q D s =>
    let f := fun (i n : Nat) => Config.freeNat s.fresh i % n
    let kind := (CollKind.ofCode (f 0 4)).getD .bcast
    let op := (CollOp.ofCode (f 1 3)).getD .add
    let t := nth Ty.i32 [Ty.i32, Ty.i64, Ty.bf16, Ty.f32] (f 2 4)
    collAt q kind op D.mask t (p.mem3 D.base).toNat (p.mem3 (D.base + 3)).toNat (p.s_ (D.base + 6)).toNat (p.s_ (D.base + 7)).toNat
      D.toks s.tick)

/-- A_PUBL (R243): the slot's address, the root. -/
def execAPubl (k : BitVec 4) (d : BitVec 9) (s : State) : Out :=
  aSlot s k d (fun p q D s => publAt q D.scope D.mask (p.mem3 D.base) (p.s2 (D.base + 3)) D.toks s)

/-- A value of a parameter type from uniform registers, the same in every lane, with the registers it takes. -/
def NSite.param (p : NSite) (t : TyD) (n : Nat) : List Val × Nat :=
  match t with
  | .ty .ref => (List.replicate 128 (.ref (p.s2 n) (p.s2 n != 0)), 2)
  | .arr e l =>
    let w := if e == .i64 then 2 else 1
    (List.replicate 128 (.arr ((List.range (l.toNat + 1)).map (fun j => if w = 2 then p.s2 (n + 2 * j) else (p.s_ (n + j)).zeroExtend 64))),
     w * (l.toNat + 1))
  | t => if tyWords t = 2 then (List.replicate 128 (.bits (p.s2 n)), 2) else (List.replicate 128 (.bits ((p.s_ n).zeroExtend 64)), 1)

/-- Values of parameter types from register n on. -/
def NSite.params (p : NSite) : List TyD → Nat → List (List Val)
  | [], _ => []
  | t :: r, n => (p.param t n).1 :: p.params r (n + (p.param t n).2)

/-- A_POST (R277): segment, callee, payload. A function without the travel bit has no `post` (R277). -/
def execAPost (k : BitVec 4) (d : BitVec 9) (s : State) : Out :=
  aSlot s k d (fun p q D s =>
    if p.lau.travel.isNone then p.fault .unsupportedFeature none 0 s
    else
      match (objectAt s p.ctx p.nat.fn).bind (fun e => tableFn e.2 (p.s_ (D.base + 1)).toNat) with
      | none => p.fault .illegalEncoding none 0 s
      | some f =>
        match blocksOf s f with
        | [] => p.fault .illegalEncoding none 0 s
        | b :: _ => postAt q D.scope (p.s_ D.base).toNat f (p.params b.args (D.base + 2)) D.toks s)

/-- A_ENQ (R315): queue, descriptor. The entry's barrier flag is not in the descriptor: a free value (log entry 47). -/
def execAEnq (k : BitVec 4) (d : BitVec 9) (s : State) : Out :=
  aSlot s k d (fun p q D s =>
    enqAt q (Config.freeBool s.fresh 0) D.scope D.mask ((p.s_ D.base).zeroExtend 64) (p.s2 (D.base + 1)) D.toks s.tick)

/-- A_SIGDEC (R309): address, value. -/
def execASigdec (k : BitVec 4) (d : BitVec 9) (s : State) : Out :=
  aSlot s k d (fun p q D s =>
    let a := p.mem3 D.base
    signalAt q true D.scope D.mask a (.sigdec a.toNat (p.s2 (D.base + 3))) D.toks s)

/-- A_SIGSET (R309): address, value. -/
def execASigset (k : BitVec 4) (d : BitVec 9) (s : State) : Out :=
  aSlot s k d (fun p q D s =>
    let a := p.mem3 D.base
    signalAt q false D.scope D.mask a (.sigset a.toNat (p.s2 (D.base + 3))) D.toks s)

/-- A_TJOIN (R267). -/
def execATjoin (k : BitVec 4) (d : BitVec 9) (s : State) : Out :=
  aSlot s k d (fun _ q D s => q.issue .tjoin 0 0 D.toks s)

/-! ### The native segment exit (R174, R184, R326) -/

/-- A value of type t from its live record, lane by lane; words that no record places are 0. -/
def recordVals (s : State) (G : Group) (N : Native) (t : TyD) (r : Nat × Nat × Bool × Nat) : List Val :=
  let (v, loc, pair, n) := r
  (List.range 128).map (fun i =>
    let at_ := fun (k : Nat) (two : Bool) => match locBits s G N i (v, loc, two, n + k) with | some (_, x) => x | none => 0
    match t with
    | .arr e l => .arr ((List.range (l.toNat + 1)).map (fun j => if e == .i64 then at_ (2 * j) true else at_ j false))
    | .ty .ref => .ref (at_ 0 pair) (at_ 0 pair != 0)
    | _ => .bits (at_ 0 pair))

/-- A frame of the function at a code word, with the values of live records. -/
def recordFrame (s : State) (G : Group) (N : Native) (off : Nat) (rs : List (Nat × Nat × Bool × Nat)) : Frame :=
  let bs := blocksOf s N.fn
  let va := N.fn + 0x20 + 4 * off
  { fn := N.fn, pc := va,
    next := (match instrAt bs N.fn va with | some (_, c) => c.num | none => 0),
    vals := rs.foldl (fun m r => match valTy bs r.1 with | some t => NMap.set [] m r.1 (recordVals s G N t r) | none => m) [],
    rets := [] }

/-- A_HOP (R174, R326, R329): the lanes become a portable side parked at the segment exit, its values taken through the live
map; the replica choice is not in the descriptor: a free value (log entry 47). -/
def execAHop (k : BitVec 4) (d : BitVec 9) (a : BitVec 13) (s : State) : Out :=
  aSlot s k d (fun p _ D s =>
    match p.nat.lmap[a.toNat]? with
    | none => p.illegal s
    | some M =>
      let open_ := D.toks.filter (fun e => tokState p.grp e == some .pending)
      if !M.exit then p.illegal s
      else if open_ ≠ [] then p.wait (.tokens open_) s
      else
        let s := p.committed s
        let bs := blocksOf s p.nat.fn
        let va := p.nat.fn + 0x20 + 4 * M.port
        let N := match (s.groups[p.g]?).bind Group.native with | some N => N | none => p.nat
        let outer := p.calls.filterMap (fun c => (N.mapAt c.1).map (fun m => recordFrame s p.grp N m.port m.recs))
        let P := (nth none N.slots p.e.side).getD (PcSlot.start 0 p.e.mask)
        let core : SideCore := { mask := p.e.mask, frames := recordFrame s p.grp N M.port M.recs :: outer, view := P.view, joins := N.joins P.path }
        let sg := match (blkAt bs M.port).bind (fun b => bs[b]?) with | some b => b.seg | none => p.grp.seg
        let mode := (HopMode.ofCode (Config.freeNat s.fresh 0 % 4)).getD .dflt
        let S := Side.begin core p.grp.acc (.atExit va sg mode (p.s_ D.base))
        let s := (s.updGroup p.g (fun G => { G with sides := G.twoSides ++ [S] })).tick
        settleNative p.g (s.updNative p.g (fun N =>
          { N with slots := modifyAt (fun _ => none) N.slots p.e.side, markSlots := modifyAt (fun _ => none) N.markSlots p.e.side })))

end Sys2Proof.Machine
end

