-- ==== Sys2Proof/Machine/Verify.lean ====
section
/-! DEFINITION. The translator's verification of a function image (R15 to R17, R21, R26 to R42, R115, R137, R322): the first
failing word in image order and its cause (R43). -/

namespace Sys2Proof

/-- What a slot's value must be: of one type, an array of an element type, or whatever another function declares. -/
inductive Want
  | ty (t : TyD)
  | arrOf (e : Ty)
  | any
  deriving DecidableEq, Repr

/-- A slot of plain type t. -/
def wantOf (t : Ty) (o : Opnd) : Want × Opnd := (.ty (.ty t), o)

/-- The slots of a memory operand: an i64 base and an i32 offset (R193). -/
def MemOp.reads (m : MemOp) : List (Want × Opnd) := [wantOf .i64 m.base, wantOf .i32 m.off]

/-- Consumed tokens. -/
def tokReads (ks : List Opnd) : List (Want × Opnd) := ks.map (wantOf .tok)

/-- The slots of an instruction that read a value, with what each must be (R17), in slot order; arguments of targets, calls,
returns and posts apart. -/
def Instr.reads : Instr → List (Want × Opnd)
  | .cbr _ c _ _ => [wantOf .b1 c]
  | .switch _ i _ _ => [wantOf .i32 i]
  | .copyV _ t a => [(.ty t, a)]
  | .add _ t _ a b | .sub _ t _ a b | .mul _ t _ _ a b | .mulhi _ t _ a b | .div _ t _ a b | .rem _ t _ a b
  | .min _ t _ a b | .max _ t _ a b | .addsat _ t _ a b | .subsat _ t _ a b | .and _ t a b | .or _ t a b | .xor _ t a b
  | .fadd _ t _ _ a b | .fsub _ t _ _ a b | .fmul _ t _ _ a b | .fdiv _ t _ _ a b | .fmin _ t _ a b | .fmax _ t _ a b
  | .fcopysign _ t a b | .cmp _ _ _ t a b | .fcmp _ _ t _ a b => [wantOf t a, wantOf t b]
  | .mad _ t _ a b c | .fma _ t _ _ a b c => [wantOf t a, wantOf t b, wantOf t c]
  | .neg _ t _ a | .abs _ t _ a | .brev _ t a | .not _ t a | .clz _ t a | .popc _ t a | .ext _ _ _ t a | .trunc _ _ _ _ t a
  | .fneg _ t a | .fabs _ t a | .frnd _ t _ _ a | .fclass _ t a => [wantOf t a]
  | .shl _ t a n | .shr _ t _ a n | .rotl _ t a n | .fscale _ t _ _ a n => [wantOf t a, wantOf .i32 n]
  | .bfx _ t _ a p l => [wantOf t a, wantOf .i32 p, wantOf .i32 l]
  | .bfi _ t a b p l => [wantOf t a, wantOf t b, wantOf .i32 p, wantOf .i32 l]
  | .sel _ t c a b => [wantOf .b1 c, (.ty t, a), (.ty t, b)]
  | .lea _ t _ s _ b i d => [wantOf t b, wantOf s i, wantOf t d]
  | .shfl _ _ t v k | .bcast _ t v k => [wantOf t v, wantOf .i32 k]
  | .vote _ _ c | .ballot _ _ c => [wantOf .b1 c]
  | .redg _ _ _ _ _ t v | .scang _ _ _ _ _ _ t v => [wantOf t v]
  | .aset _ e l a i v => [(.ty (.arr e l), a), wantOf .i32 i, wantOf e v]
  | .aget _ e a i => [(.arrOf e, a), wantOf .i32 i]
  | .afill _ e _ v => [wantOf e v]
  | .cvt _ _ _ s _ _ a => [(.ty s.toTyD, a)]
  | .pack _ e xs => xs.map (fun x => (.ty e.toTyD, x))
  | .unpack _ _ _ a | .rsdenc _ _ a | .rsddec _ a => [wantOf .i32 a]
  | .exp2 _ _ a | .log2 _ _ a | .rcp _ _ a | .sqrt _ _ a | .rsqrt _ _ a | .sinpi _ _ a | .cospi _ _ a | .tanh _ _ a
  | .sigmoid _ _ a | .erf _ _ a => [wantOf .f32 a]
  | .madd _ _ _ a b c | .msub _ _ _ a b c | .mmul _ _ _ a b c => [wantOf .mo a, wantOf .mo b] ++ (optSlot c).map (wantOf .f32)
  | .mfma _ _ _ a b d c => [wantOf .mo a, wantOf .mo b, wantOf .mo d] ++ (optSlot c).map (wantOf .f32)
  | .mexp _ _ a | .mrelu _ _ a | .msig _ _ a | .mtanh _ _ a | .mgelu _ _ a => [wantOf .mo a]
  | .mcol _ _ _ a k => wantOf .mo a :: (optSlot k).map (wantOf .f32)
  | .mmake _ _ mu v => [wantOf .f32 mu, wantOf .f32 v]
  | .mscale _ _ a s t => [wantOf .mo a, wantOf .f32 s, wantOf .f32 t]
  | .mma _ _ c _ fs => wantOf .acc c :: fs.map (wantOf .i32)
  | .accrel _ c | .acczero _ c _ => [wantOf .acc c]
  | .accrd _ _ c _ _ k | .rsdraw _ c _ _ k => wantOf .acc c :: (optSlot k).map (wantOf .tok)
  | .accwr _ ty c _ _ v => [wantOf .acc c, wantOf (match ty with | .i32 => .i32 | .f32 => .f32 | .mo => .mo) v]
  | .ldfrag _ _ _ _ _ m s => m.reads ++ [wantOf .i32 s]
  | .ldscale _ c _ e => [wantOf .acc c, wantOf .i32 e]
  | .ld _ _ _ m | .ldacq _ _ _ _ m | .prefetch _ _ m | .ldw _ _ _ _ m | .mkref _ m | .unref _ m | .objinitRetire _ m
  | .ldref _ m | .sigrd _ _ _ m => m.reads
  | .st _ t _ m v | .strel _ _ t _ m v | .atom _ _ _ _ t _ m v => m.reads ++ [wantOf t v]
  | .cas _ _ _ t _ m c v => m.reads ++ [wantOf t c, wantOf t v]
  | .barwt _ _ _ ph => [wantOf .i32 ph]
  | .stw _ e l _ m x => m.reads ++ [(.ty (.arr e l), x)]
  | .objinit _ _ _ m n => m.reads ++ [wantOf .i32 n]
  | .publ _ _ _ m r ks => m.reads ++ wantOf .ref r :: tokReads ks
  | .refeq _ a b => [wantOf .ref a, wantOf .ref b]
  | .refadr _ r => [wantOf .ref r]
  | .stref _ m r => m.reads ++ [wantOf .ref r]
  | .objst _ t r off v => [wantOf .ref r, wantOf .i32 off, wantOf t v]
  | .copy _ _ _ _ _ d s len dd ks => d.reads ++ s.reads ++ wantOf .i32 len ::
      ((match dd with | none => [] | some (r, x, y) => [wantOf .i32 r, wantOf .i32 x, wantOf .i32 y]) ++ tokReads ks)
  | .gather _ _ _ _ pk x _ ks => pk.reads ++ x.reads ++ tokReads ks
  | .scatter _ _ _ _ x pk _ ks => x.reads ++ pk.reads ++ tokReads ks
  | .coll _ _ _ _ _ d s cnt grp ks => d.reads ++ s.reads ++ wantOf .i32 cnt :: wantOf .i32 grp :: tokReads ks
  | .tjoin _ ks | .kwait _ ks => tokReads ks
  | .ktest _ k => [wantOf .tok k]
  | .sigdec _ _ _ m v ks | .sigset _ _ _ m v ks => m.reads ++ wantOf .i64 v :: tokReads ks
  | .sigwait _ _ _ _ m x => m.reads ++ [wantOf .i64 x]
  | .enq _ _ _ _ q d ks => wantOf .i32 q :: wantOf .i64 d :: tokReads ks
  | .nsleep _ n => [wantOf .i32 n]
  | .twait _ _ _ _ m x n => m.reads ++ [wantOf .i64 x, wantOf .i32 n]
  | .hop _ _ key _ => (optSlot key).map (wantOf .i32)
  | .ctrctl _ _ _ cfg => [wantOf .i32 cfg]
  | .assert _ c _ => [wantOf .b1 c]
  | .clrflag _ m => [wantOf .i32 m]
  | _ => []

/-- The set slot and the tile index of a matrix instruction. -/
def Instr.tileRef : Instr → Option (Opnd × Opnd)
  | .mma _ _ c t _ | .accrd _ _ c t _ _ | .accwr _ _ c t _ _ | .acczero _ c t | .ldscale _ c t _ | .rsdraw _ c t _ _ => some (c, t)
  | _ => none

/-- The bits a constant of a type has; none for a type without constants (R35). -/
def TyD.constBits : TyD → Option Nat
  | .ty .i8 | .ty .e4m3 | .ty .e5m2 => some 8
  | .ty .i16 | .ty .f16 | .ty .bf16 => some 16
  | .ty .i32 | .ty .f32 => some 32
  | .ty .i64 | .ty .mo => some 64
  | _ => none

end Sys2Proof

namespace Sys2Proof.Machine
open Sys2Proof

/-! ### The words of a function -/

/-- The number of words of the header or instruction at the head of words, from its own fields (R31): none when the code ends
inside it or its count word is out of range. -/
def recLen (ws : List Word) : Option Nat :=
  match ws with
  | [] => none
  | w :: _ =>
    let k := if w.extractLsb' 20 4 = 15 then 2 else 1
    let n := (w.extractLsb' 10 3).toNat
    let r : Option Nat := if n = 7 then (ws[k]?).bind (fun c => if 7 ≤ c.toNat ∧ c.toNat ≤ 1023 then some (k + 1 + (c.toNat + 1) / 2) else none)
      else some (k + (n + 1) / 2)
    r.bind (fun n => if n ≤ ws.length then some n else none)

/-- The headers and instructions of the code: word offset, words, whether the length was legal. The first whose length is not ends
the list. -/
def records : Nat → List Word → Nat → List (Nat × List Word × Bool)
  | 0, _, _ => []
  | _ + 1, [], _ => []
  | f + 1, ws, off =>
    match recLen ws with
    | none => [(off, ws.take 1, false)]
    | some n => (off, ws.take n, true) :: records f (ws.drop n) (off + n)

/-- A record is a block header: OP 0x0F. -/
def recHead (r : Nat × List Word × Bool) : Bool := (r.2.1.headD 0).extractLsb' 24 8 = 0x0F

/-- What the instruction of a record decodes to. -/
def recInstr (r : Nat × List Word × Bool) : Option Instr :=
  match decode r.2.1 with
  | .ok i _ => some i
  | .bad _ => none

/-- The argument types of a header record, and its segment. -/
def recArgs (r : Nat × List Word × Bool) : Option (Nat × List TyD) := (readHeader r.2.1).map (fun h => (h.1, h.2.1))

/-- The successors of the blocks: the targets in each block's last record. -/
def recSuccs : List (Nat × List Word × Bool) → (cur : Option (List Nat)) → List (List Nat)
  | [], cur => cur.toList
  | r :: rest, cur =>
    if recHead r then cur.toList ++ recSuccs rest (some [])
    else
      let op := ((r.2.1.headD 0).extractLsb' 24 8).toNat
      let ts := if op = 1 ∨ op = 2 ∨ op = 3 ∨ op = 0xE0 then
          (match readRaw r.2.1 with
           | some (x, _) => x.slots.filterMap (fun o => match o with | .blk b => some b.toNat | _ => none)
           | none => [])
        else []
      recSuccs rest (cur.map (fun _ => ts))

/-- What a function declares, as a caller sees it: kind, parameter types and return types. -/
structure Sig where
  kind : Nat
  params : List TyD
  rets : List TyD
  deriving DecidableEq, Repr

/-- The return types of the image at fn: none where RTYP or FRET is not legal (R26). -/
def imgRets (s : State) (fn : Nat) : Option (List TyD) :=
  let n := (codeWord s (fn + 12)).toNat % 16
  let hs := (List.range 8).map (fun i => (codeWord s (fn + 0x10 + i / 2 * 4)).extractLsb' (16 * (i % 2)) 16)
  let ts := (hs.take n).filterMap TyD.ofHalf
  if n ≤ 8 ∧ ts.length = n ∧ ts.all TyD.ok ∧ (hs.drop n).all (· == 0) then some ts else none

/-- The signature of the image at fn; none where its own header is not legal. -/
def imgSig (s : State) (fn : Nat) : Option Sig :=
  match readHeader (codeWords s (fn + 0x20) (imgClen s fn)), imgRets s fn with
  | some (_, ts, _), some rs => some { kind := (imgFhdr s fn).toNat % 4, params := ts, rets := rs }
  | _, _ => none

/-- What verification reads: the image's facts, the object's features and functions, and the accumulator mode. -/
structure VEnv where
  /-- the function is a kernel -/
  kernel : Bool
  travel : Bool
  rets : List TyD
  pool : List DWord
  /-- FEAT of the object (R368), and whether the module is in full service -/
  feat : BitVec 3
  full : Bool
  amode : Nat
  /-- the functions of the object's table; an entry whose own header is not legal has no signature -/
  fns : List (Option Sig)
  /-- block headers in order: segment and argument types; none for a malformed one -/
  heads : List (Option (Nat × List TyD))
  /-- successors of every block -/
  succs : List (List Nat)
  /-- the whole code was read, so the number of blocks is known -/
  whole : Bool
  deriving DecidableEq, Repr

/-- What verification has read so far. -/
structure VScan where
  /-- the open block, and the number of headers read -/
  opened : Bool
  blocks : Nat
  /-- type and block of every value so far -/
  vals : List (TyD × Nat)
  /-- the callee's return types of a `call` whose fetches may follow, with the least k that may come next (R72) -/
  fetch : Option (Nat × List TyD)
  deriving DecidableEq, Repr

/-- The blocks that block 0 reaches without passing block a. -/
def reachAvoid (succs : List (List Nat)) (a : Nat) : List Nat :=
  (List.replicate (succs.length + 1) ()).foldl (fun seen _ =>
    uniq (seen ++ (seen.flatMap (fun b => (nth [] succs b))).filter (fun b => b != a))) (if a = 0 then [] else [0])

/-- Block a dominates block b, or nothing reaches b (R17). -/
def VEnv.dominates (e : VEnv) (a b : Nat) : Bool := a == b || !(reachAvoid e.succs a).contains b

/-! ### Operands (R16, R17, R35) -/

/-- The type of the value at backward distance d where it may be named. -/
def VScan.valueAt (e : VEnv) (v : VScan) (d : Nat) : Option TyD :=
  if d = 0 ∨ v.vals.length < d then none
  else
    match v.vals[v.vals.length - d]? with
    | none => none
    | some (t, b) => if e.dominates b (v.blocks - 1) then some t else none

/-- A slot names what it must; a mo constant has no invalid variance (R54). The kinds a slot may hold and its immediates are
checked by the decoder. -/
def slotGood (e : VEnv) (v : VScan) (w : Want) (o : Opnd) : Bool :=
  match o with
  | .val d =>
    (match v.valueAt e d.toNat, w with
     | none, _ => false
     | some _, .any => true
     | some t, .ty u => t == u
     | some (.arr x _), .arrOf y => x == y
     | some _, .arrOf _ => false)
  | .pool i =>
    (match e.pool[i.toNat]?, w with
     | none, _ => false
     | some x, .ty t => (match t.constBits with | some n => decide (x.toNat < 2 ^ n) | none => false)
           && !(t == .ty .mo && badVar (Mo.ofBits x).v)
     | some _, _ => true)
  | _ => true

/-- A slot of a declared type: a target's, call's or return's argument. -/
def argGood (e : VEnv) (v : VScan) (t : TyD) (o : Opnd) : Bool := slotOkD t o && slotGood e v (.ty t) o

/-- Arguments that match declared types in number and type (R15). -/
def argsGood (e : VEnv) (v : VScan) (ts : List TyD) (xs : List Opnd) : Bool :=
  decide (ts.length = xs.length) && (List.zip ts xs).all (fun (t, o) => argGood e v t o)

/-- A target: an index below the block count, the arguments its header declares, and for `hop` another segment (R36, R329). -/
def targetGood (e : VEnv) (v : VScan) (hop : Bool) (t : Target) : Bool :=
  let k := t.blk.toNat
  (!e.whole || decide (k < e.heads.length)) &&
    (match e.heads[k]? with
     | some (some (sg, ts)) =>
       argsGood e v ts t.args && !(hop && (match e.heads[v.blocks - 1]? with | some (some (h, _)) => h == sg | _ => false))
     | _ => t.args.all (slotGood e v .any))

/-- The callee of an index slot (R69, R72). -/
def calleeOf (e : VEnv) (o : Opnd) : Option (Option Sig) :=
  match o with
  | .imm i => e.fns[i.toInt.toNat]?
  | .pool i => (e.pool[i.toNat]?).bind (fun x => if x.toNat < 65536 then e.fns[x.toNat]? else none)
  | _ => none

/-- A callee that is a procedure with these arguments; one whose own header is not legal is left to its own fault. -/
def calleeGood (e : VEnv) (v : VScan) (c : Opnd) (args : List Opnd) : Bool :=
  match calleeOf e c with
  | none => false
  | some none => args.all (slotGood e v .any)
  | some (some g) => g.kind != 1 && argsGood e v g.params args

/-- The payload and the tokens of a `post`: the token values that end its list are consumed (R277). -/
def postParts (e : VEnv) (v : VScan) (vs : List Opnd) : List Opnd × List Opnd :=
  let isTok := fun (o : Opnd) => (match o with | .val d => v.valueAt e d.toNat == some (.ty .tok) | _ => false)
  let n := min 3 ((vs.reverse.takeWhile isTok).length)
  (vs.take (vs.length - n), vs.drop (vs.length - n))

/-! ### The checks of one instruction -/

/-- Unsupported feature (R9, R41, R128, R130, R132, R277, R322, R329, R341), from the raw fields. -/
def featureBad (e : VEnv) (w : Word) : Bool :=
  let op := (w.extractLsb' 24 8).toNat
  let sub := (w.extractLsb' 0 6).toNat
  let moment := (decide (0x70 ≤ op) && decide (op ≤ 0x7F)) || (op == 0x80 && sub == 7)
  let travel := op == 0xE0 || op == 0xE1
  (moment && !e.feat.getLsbD 0) || (travel && !e.feat.getLsbD 1) || (op == 0x88 && !e.feat.getLsbD 2)
    || (!e.full && (moment || travel || op == 0x88 || (op == 0x80 && sub != 0 && decide (sub < 8))))
    || ((travel || op == 0xC4) && !e.travel)
    || ((op == 0x95 || op == 0x96 || op == 0x97) && e.travel)

/-- Unsupported in the accumulator mode of the key, from the raw fields: moment forms of `mma`, `accrd` and `accwr` outside moment
mode, `accrd` and `rsdraw` with no token slot outside relaxed mode (R128, R130, R132). -/
def modeBad (e : VEnv) (w : Word) : Bool :=
  let op := (w.extractLsb' 24 8).toNat
  let ty := (w.extractLsb' 20 4).toNat
  let nops := (w.extractLsb' 10 3).toNat
  (e.amode != 1 && ((op == 0x80 && (w.extractLsb' 0 6).toNat == 7) || (op == 0x83 && ty == 11)
      || (op == 0x84 && (w.extractLsb' 14 4).toNat == 11)))
    || (e.amode != 2 && (op == 0x83 || op == 0x88) && nops == 3)

/-- The static index of an array access is below its length (R94). -/
def indexGood (e : VEnv) (v : VScan) (l : Option Nat) (i : Opnd) : Bool :=
  let _ := v
  match l, i with
  | none, _ => true
  | some l, .imm n => decide (n.toInt < l)
  | some l, .pool k => (match e.pool[k.toNat]? with | some x => decide (x.toNat < l) | none => false)
  | _, _ => true

/-- What the instruction's own rule asks beyond its slots: targets, callees, returns, fetches, array indices, tile sets. -/
def ownGood (e : VEnv) (v : VScan) (i : Instr) : Bool :=
  match i with
  | .br _ t => targetGood e v false t
  | .cbr _ _ t f => targetGood e v false t && targetGood e v false f
  | .switch _ _ d cs => (d :: cs).all (targetGood e v false)
  | .hop _ _ _ t => targetGood e v true t
  | .call _ t c args =>
    calleeGood e v c args &&
      (match calleeOf e c with | some (some g) => decide (t = g.rets.head?) | _ => true)
  | .ret _ args => argsGood e v e.rets args
  | .copyVRet _ t k =>
    (match v.fetch with
     | some (n, rs) => (match k with | .imm _ => decide (n ≤ immNat k) && decide (rs[immNat k]? = some t) | _ => false)
     | none => false)
  | .post _ _ _ fn vs =>
    let (ps, ks) := postParts e v vs
    decide (ps.length ≤ 32) && calleeGood e v fn ps && ks.all (slotGood e v (.ty (.ty .tok)))
      && (match calleeOf e fn with | some (some g) => g.params.all (fun t => t != .ty .tok && t != .ty .acc) | _ => true)
  | .aset _ _ l _ ix _ => indexGood e v (some (l.toNat + 1)) ix
  | .aget _ _ a ix =>
    indexGood e v (match a with | .val d => (match v.valueAt e d.toNat with | some (.arr _ l) => some (l.toNat + 1) | _ => none) | _ => none) ix
  | .accacq _ n => !(e.amode == 1 && n == 3)
  | _ => true

/-- A use of an acc value after an `accrel` of it, or a tile index outside its set (R115). sizes gives the sizes a set may have,
and released the values whose set is gone here. -/
def accGood (e : VEnv) (v : VScan) (sizes : Nat → List Nat) (released : Nat → Bool) (i : Instr) : Bool :=
  i.slots.all (fun o => match o with | .val d => !(v.valueAt e d.toNat == some (.ty .acc) && released (v.vals.length - d.toNat)) | _ => true)
  && (match i.tileRef with
      | some (.val d, .imm t) =>
        let m := match sizes (v.vals.length - d.toNat) with | [] => if e.amode = 1 then 4 else 8 | n :: r => r.foldl min n
        decide (t.toInt.toNat < m)
      | _ => true)

/-- The cause with which a record that is no header fails, by the order of R43. -/
def instrBad (e : VEnv) (v : VScan) (sizes : Nat → List Nat) (released : Nat → Bool) (r : Nat × List Word × Bool) : Option Cause :=
  let w := r.2.1.headD 0
  match decode r.2.1 with
  | .bad .illegalOpcode => some .illegalOpcode
  | .bad .trappingHint => some .trappingHint
  | .bad c => if featureBad e w || modeBad e w then some .unsupportedFeature else some c
  | .ok i _ =>
    if featureBad e w || modeBad e w then some .unsupportedFeature
    else if r.2.2 && v.opened && i.reads.all (fun (w, o) => slotGood e v w o) && ownGood e v i && accGood e v sizes released i
        && !(i.resultTy.isSome && decide (65536 ≤ v.vals.length)) then none
    else some .illegalEncoding

/-- What is read after an instruction. -/
def VScan.after (e : VEnv) (v : VScan) (i : Instr) : VScan :=
  { v with
    opened := !i.isTransfer
    vals := (match i.resultTy with | some t => v.vals ++ [(t, v.blocks - 1)] | none => v.vals)
    fetch := (match i with
      | .call _ _ c _ => (match calleeOf e c with | some (some g) => some (1, g.rets) | _ => none)
      | .copyVRet _ _ k => v.fetch.map (fun f => (immNat k + 1, f.2))
      | _ => none) }

/-- A header: its form, its segment, and, of a kernel's block 0, legal parameter types (R15, R27, R37, R289). -/
def headBad (e : VEnv) (v : VScan) (r : Nat × List Word × Bool) : Bool :=
  decide (8192 ≤ v.blocks) ||
    (match recArgs r with
     | none => true
     | some (sg, ts) => !r.2.2 || !ts.all TyD.ok || (if e.travel then !(decide (1 ≤ sg) && decide (sg ≤ 63)) else sg != 0)
         || (e.kernel && v.blocks == 0 && (ts.contains (.ty .tok) || ts.contains (.ty .acc)))
         || decide (65536 < v.vals.length + ts.length))

/-! ### Acc sets (R115) -/

/-- Sizes of sets by value, a round at a time: an `accacq`'s own, and a block argument's from the transfers into its block. -/
def accSizes (bs : List CBlk) : List (Nat × List Nat) :=
  let base := bs.flatMap (fun b => b.body.filterMap (fun c => match c.i with | .accacq _ n => some (c.num, [2 ^ n.toNat]) | _ => none))
  let edges := bs.flatMap (fun b => match b.body.getLast? with
    | none => []
    | some c => c.i.targets.flatMap (fun t => (bs[t.blk.toNat]?.toList).flatMap (fun d =>
        (List.zip (List.range t.args.length) (List.zip d.args t.args)).filterMap (fun (j, ty, o) =>
          match ty, o with
          | .ty .acc, .val x => if x.toNat ≤ c.num then some (d.first + j, c.num - x.toNat) else none
          | _, _ => none))))
  let get := fun (m : List (Nat × List Nat)) (v : Nat) => (m.filter (fun e => e.1 = v)).flatMap (·.2)
  (List.replicate (bs.length + 1) ()).foldl (fun m _ =>
    uniq (m ++ edges.flatMap (fun (d, u) => (get m u).map (fun n => (d, [n]))))) base

/-- The sizes a value's set may have. -/
def setSizes (m : List (Nat × List Nat)) (v : Nat) : List Nat := uniq ((m.filter (fun e => e.1 = v)).flatMap (·.2))

/-- The blocks that a path from block b's end reaches without entering block home. -/
def reachFrom (g : Cfg) (b home : Nat) : List Nat :=
  (List.replicate (g.length + 1) ()).foldl (fun seen _ =>
    uniq (seen ++ (seen.flatMap (fun c => (nth [] g c).filter (· != home))))) ((nth [] g b).filter (· != home))

/-- The block in which value v is defined. -/
def homeOf (bs : List CBlk) (v : Nat) : Nat :=
  (bs.zipIdx.find? (fun (b, _) => (decide (b.first ≤ v) && decide (v < b.first + b.args.length))
    || b.body.any (fun c => c.num == v && c.i.resultTy.isSome))).elim 0 (·.2)

/-- The set of value v was released on a path that reaches the word at offset off of block k (R115). -/
def releasedAt (bs : List CBlk) (k off v : Nat) : Bool :=
  bs.zipIdx.any (fun (b, j) => b.body.any (fun c => match c.i with
    | .accrel _ (.val d) => d.toNat ≤ c.num && c.num - d.toNat == v &&
        ((j == k && decide (c.off < off)) || (reachFrom (cfgOf bs) j (homeOf bs v)).contains k)
    | _ => false))

/-! ### The whole image (R26, R43) -/

/-- Walks the records; the offset and cause of the first that fails. A word after which a header stands, or nothing, ends its block: where it is
no transfer, it is the word that breaks R27. -/
def verifyRecs (e : VEnv) (bs : List CBlk) (sz : List (Nat × List Nat)) : List (Nat × List Word × Bool) → VScan → Option (Nat × Cause)
  | [], _ => none
  | r :: rest, v =>
    if recHead r then
      let args := (recArgs r).elim [] (·.2)
      let first := v.vals.length
      if headBad e v r || rest.head?.all recHead || (List.range args.length).any (fun j => decide (1 < (setSizes sz (first + j)).length)) then
        some (r.1, .illegalEncoding)
      else
        verifyRecs e bs sz rest { opened := true, blocks := v.blocks + 1, fetch := none,
                                  vals := v.vals ++ args.map (fun t => (t, v.blocks)) }
    else
      match instrBad e v (setSizes sz) (fun x => releasedAt bs (v.blocks - 1) r.1 x) r, recInstr r with
      | some c, _ => some (r.1, c)
      | none, some i => if rest.head?.all recHead ∧ !i.isTransfer then some (r.1, .illegalEncoding) else verifyRecs e bs sz rest (v.after e i)
      | none, none => some (r.1, .illegalEncoding)

/-- The fields before the code (R26, R41, R322): offset of the failing word and cause. -/
def verifyHead (s : State) (fn : Nat) (feat : BitVec 3) : Option (Nat × Cause) :=
  let h := codeWord s fn
  let k := h.toNat % 4
  let cap := h.toNat / 65536
  let r := codeWord s (fn + 12)
  let travel := h.getLsbD 2
  let hs := (List.range 8).map (fun i => (codeWord s (fn + 0x10 + i / 2 * 4)).extractLsb' (16 * (i % 2)) 16)
  let n := r.toNat % 16
  let badR := (List.range 8).find? (fun i =>
    let x := nth 0 hs i
    if i < n then (match TyD.ofHalf x with | some t => !t.ok | none => true) else x != 0)
  if travel ∧ (!feat.getLsbD 1 ∨ !s.full) then some (0, .unsupportedFeature)
  else if k = 0 ∨ k = 3 ∨ h.toNat / 128 % 512 ≠ 0 ∨ (cap ≠ 0 ∧ (cap < 8 ∨ 510 < cap))
      ∨ (travel ∧ h.getLsbD 3 ∧ h.toNat / 16 % 4 ≠ 0) then some (0, .illegalEncoding)
  else if imgClen s fn < 2 ∨ 1048576 < imgClen s fn then some (4, .illegalEncoding)
  else if 16384 < imgPcnt s fn then some (8, .illegalEncoding)
  else if 8 < n ∨ (k = 1 ∧ n ≠ 0) ∨ r.toNat / 16 % 16 ≠ 0 ∨ 12582912 < r.toNat / 256 ∨ (k = 2 ∧ r.toNat / 256 ≠ 0) then some (12, .illegalEncoding)
  else badR.map (fun i => (0x10 + i / 2 * 4, .illegalEncoding))

/-- The environment in which the function at fn of an object is verified. -/
def verifyEnv (s : State) (o : Obj) (fn amode : Nat) (recs : List (Nat × List Word × Bool)) : VEnv :=
  let heads := recs.filter recHead
  { kernel := (imgFhdr s fn).toNat % 4 == 1, travel := (imgFhdr s fn).getLsbD 2, rets := (imgRets s fn).getD [],
    pool := (List.range (imgPcnt s fn)).map (poolEntry s fn), feat := BitVec.ofNat 3 o.feat, full := s.full, amode := amode,
    fns := o.ftab.map (fun e => imgSig s (o.laddr + e.1)), heads := heads.map recArgs,
    succs := recSuccs recs none, whole := recs.all (·.2.2) }

/-- The first failing word of the function at fn in image order, as a byte offset, and its cause (R43). The word of padding after
code of odd length is zero by R26, which names no fault for another value: that such a word is an illegal encoding, behind all
code, is this model's choice (log entry 65). -/
def verify (s : State) (o : Obj) (fn amode : Nat) : Option (Nat × Cause) :=
  match verifyHead s fn (BitVec.ofNat 3 o.feat) with
  | some e => some e
  | none =>
    let n := imgClen s fn
    let recs := records (n + 1) (codeWords s (fn + 0x20) n) 0
    let bs := blocksOf s fn
    (verifyRecs (verifyEnv s o fn amode recs) bs (accSizes bs) recs
      { opened := false, blocks := 0, vals := [], fetch := none }).map (fun (a, c) => (0x20 + 4 * a, c))
      |>.or (if n % 2 = 1 ∧ codeWord s (fn + 0x20 + 4 * n) ≠ 0 then some (0x20 + 4 * n, .illegalEncoding) else none)

end Sys2Proof.Machine
end

