-- ==== Sys2Proof/Machine/Alloc.lean ====
section
/-! DEFINITION. The translator after verification: live counts (R21, R115), linear-scan allocation with its spill slots (R102,
R139 to R144, R186 to R188), divergence nesting (R151, R332). -/

namespace Sys2Proof

/-- The memory operands of an instruction. -/
def Instr.mems : Instr → List MemOp
  | .ldfrag _ _ _ _ _ m _ | .ld _ _ _ m | .ldacq _ _ _ _ m | .prefetch _ _ m | .ldw _ _ _ _ m | .mkref _ m | .unref _ m
  | .objinitRetire _ m | .ldref _ m | .sigrd _ _ _ m | .st _ _ _ m _ | .strel _ _ _ _ m _ | .atom _ _ _ _ _ _ m _
  | .cas _ _ _ _ _ m _ _ | .stw _ _ _ _ m _ | .objinit _ _ _ m _ | .publ _ _ _ m _ _ | .stref _ m _ | .sigdec _ _ _ m _ _
  | .sigset _ _ _ m _ _ | .sigwait _ _ _ _ m _ | .twait _ _ _ _ m _ _ => [m]
  | .copy _ _ _ _ _ d s _ _ _ | .coll _ _ _ _ _ d s _ _ _ => [d, s]
  | .gather _ _ _ _ a b _ _ | .scatter _ _ _ _ a b _ _ => [a, b]
  | _ => []

/-- A committing operation, and `brkpt`: a MARK stands directly after it (R147, R397). -/
def Instr.commits : Instr → Bool
  | .atom .. | .cas .. | .sigdec .. | .sigset .. | .post .. | .publ .. | .enq .. | .bar .. | .barar .. | .brkpt .. => true
  | _ => false

/-- The instruction honours subnormals (R30). -/
def Instr.honoursDn (i : Instr) : Bool := match i.raw? with | some r => r.dn | none => false

end Sys2Proof

namespace Sys2Proof.Machine
open Sys2Proof

/-! ### Positions -/

/-- The instructions with their positions in the linear order of R141, block by block. -/
def posInstrs (bs : List CBlk) : List (Nat × Nat × CInstr) :=
  bs.zipIdx.flatMap (fun (b, k) => b.body.zipIdx.map (fun (c, j) => (headPos bs k + 1 + j, k, c)))

/-- A transfer of block k that leaves its segment (R326). -/
def leavesSeg (bs : List CBlk) (k : Nat) (i : Instr) : Bool :=
  i.targets.any (fun t => match bs[t.blk.toNat]?, bs[k]? with | some d, some b => d.seg != b.seg | _, _ => false)

/-- The positions that a MARK stands at for the number of gated operations alone: before the one that would pass 64 since the last MARK of
the block. -/
def gateMarks (xs : List (Nat × Nat × CInstr)) (marks : List Nat) : List Nat :=
  (xs.foldl (fun (e : (Nat × Nat) × List Nat) (p, k, c) =>
    let n := if k ≠ e.1.1 ∨ marks.contains p then 0 else e.1.2
    let full := decide (64 < n + c.i.gateWeight)
    ((k, (if full then 0 else n) + c.i.gateWeight), if full then e.2 ++ [p] else e.2)) ((0, 0), [])).2

/-- Whether the region at position p of block k holds a gated operation, when it does or does not at the block's first instruction. -/
def openAt (xs : List (Nat × Nat × CInstr)) (marks : List Nat) (k p : Nat) (o : Bool) : Bool :=
  (xs.filter (fun e => decide (e.2.1 = k ∧ e.1 ≤ p))).foldl (fun o e =>
    let o := o && !marks.contains e.1
    if e.1 < p then o || decide (0 < e.2.2.i.gateWeight) else o) o

/-- The blocks that a region with a gated operation may enter. -/
def openBlocks (bs : List CBlk) (xs : List (Nat × Nat × CInstr)) (marks : List Nat) : List Nat :=
  (List.replicate (bs.length + 1) ()).foldl (fun open_ _ =>
    (List.range bs.length).filter (fun k => (List.range bs.length).any (fun j =>
      (nth [] (cfgOf bs) j).contains k && openAt xs marks j (headPos bs (j + 1)) (open_.contains j)))) []

/-- An exit whose region holds a gated operation takes a MARK (R189). -/
def exitMark (bs : List CBlk) (xs : List (Nat × Nat × CInstr)) (marks : List Nat) (p k : Nat) : Bool :=
  !marks.contains p && openAt xs marks k p ((openBlocks bs xs marks).contains k)

/-- Block k is where a transfer comes from another segment: a unit's code is entered there (R321, R331). -/
def isArrival (bs : List CBlk) (k : Nat) : Bool :=
  (bs.zipIdx.any (fun (b, j) => b.body.any (fun c => leavesSeg bs j c.i && c.i.targets.any (fun t => t.blk.toNat == k)
    && (match bs[k]?, bs[j]? with | some d, some b => d.seg != b.seg | _, _ => false))))

/-- The positions at which a MARK stands (R147, R189, R331, R364), with those asked for besides; breaks holds the word offsets of enabled
breakpoints; ends: `ret` ends the threads, as in a kernel and a handler. A branch's condition is never held in a uniform register (log
entry 68). -/
def markPositions (bs : List CBlk) (ends : Bool) (breaks more : List Nat) : List Nat :=
  let xs := posInstrs bs
  let heads := (List.range bs.length).filterMap (fun k => if k = 0 || isMarkBlk bs k || isArrival bs k then some (headPos bs k + 1) else none)
  let before := xs.filterMap (fun (p, k, c) => if markBefore c.i || leavesSeg bs k c.i || breaks.contains c.off then some p else none)
  let after := xs.filterMap (fun (p, _, c) => if c.i.commits then some (p + 1) else none)
  let back := xs.filterMap (fun (p, _, c) => match c.i with
    | .call .. => some (p + 1 + ((xs.filter (fun e => decide (p < e.1))).takeWhile (fun e => match e.2.2.i with | .copyVRet .. => true | _ => false)).length)
    | _ => none)
  let all := uniq (more ++ heads ++ before ++ after ++ back)
  let exits := xs.filterMap (fun (p, k, c) => match c.i with
    | .exit .. => if exitMark bs xs all p k then some p else none
    | .ret .. => if ends && exitMark bs xs all p k then some p else none
    | _ => none)
  uniq (gateMarks xs all ++ exits ++ all)

/-! ### Intervals (R141, R186 to R188) -/

/-- An interval that wants registers: a value or a reload of one, closed at both ends; moment: of the moment file. -/
structure Ivl where
  v : Nat
  start : Nat
  stop : Nat
  need : Nat
  moment : Bool
  reload : Bool
  deriving DecidableEq, Repr

/-- Vector registers of a value's type (R96, R139). -/
def regsOf : TyD → Nat
  | .arr e l => (l.toNat + 1) * (if e == .i64 then 2 else 1)
  | .ty .i64 | .ty .ref => 2
  | _ => 1

/-- Spill slots of an interval: a mo value takes two (R102). -/
def Ivl.words (x : Ivl) : Nat := if x.moment then 2 else x.need

/-- The positions that use value v, rising. -/
def usesOf (bs : List CBlk) (v : Nat) : List Nat := ((linear bs).zipIdx.filter (fun (e, _) => e.2.2.contains v)).map (·.2)

/-- Value v is used other than as the base of a memory operand. -/
def vectorUse (bs : List CBlk) (v : Nat) : Bool :=
  (posInstrs bs).any (fun (_, _, c) =>
    let is := fun (o : Opnd) => (match o with | .val d => d.toNat ≤ c.num && c.num - d.toNat == v | _ => false)
    decide ((c.i.mems.filter (fun m => is m.base)).length < (c.i.slots.filter is).length))

/-- A later argument of value v's block header is a b1 value too: it is pushed after v (R188). -/
def laterArg (bs : List CBlk) (v : Nat) : Bool :=
  bs.any (fun b => decide (b.first ≤ v) && (b.args.drop (v + 1 - b.first)).any (· == .ty .b1) && decide (v < b.first + b.args.length))

/-- The interval of value v: none for one that takes no register of a budget (R102, R139, R144, R187, R188). -/
def ivlOf (bs : List CBlk) (kernel : Bool) (marks pushes : List Nat) (v : Nat) : Option Ivl :=
  let d := defPos (linear bs) v
  let e := liveEnd bs v
  let x : Ivl := { v := v, start := d, stop := e, need := 1, moment := false, reload := false }
  match valTy bs v with
  | none | some (.ty .tok) | some (.ty .acc) => none
  | some t =>
    if isConstDef bs v then none
    else if t == .ty .mo then some { x with moment := true }
    else if kernel && decide (d = 0) && !vectorUse bs v then none
    else if t == .ty .b1 && !(marks ++ pushes).any (fun q => decide (d < q) && decide (q ≤ e)) && !laterArg bs v then none
    else some { x with need := regsOf t }

/-! ### The scan (R142, R143) -/

/-- An interval with its first register; load: a reload is issued for it. -/
structure Place where
  ivl : Ivl
  reg : Nat
  load : Bool
  deriving DecidableEq, Repr

/-- A spilled value: the split, the position after which its store stands, its slots, and the end of its interval. -/
structure Spilt where
  v : Nat
  split : Nat
  store : Nat
  slot : Nat
  words : Nat
  stop : Nat
  deriving DecidableEq, Repr

/-- The scan's state: intervals that hold registers, everything seated and spilled so far, intervals to visit. -/
structure Scan where
  act : List (Ivl × Nat)
  places : List Place
  spilt : List Spilt
  todo : List Ivl
  deriving DecidableEq, Repr

/-- The slots in use at most. -/
def Scan.most (S : Scan) : Nat := S.spilt.foldl (fun m e => max m (e.slot + e.words)) 0

/-- Inserts an interval by start, then by value. -/
def insertIvl (x : Ivl) : List Ivl → List Ivl
  | [] => [x]
  | y :: r => if x.start < y.start ∨ (x.start = y.start ∧ x.v ≤ y.v) then x :: y :: r else y :: insertIvl x r

/-- The lowest of n consecutive free places from lo, below hi when a bound is given. -/
def lowestFit (used : List (Nat × Nat)) (n lo : Nat) (hi : Option Nat) : Option Nat :=
  let top := used.foldl (fun m u => max m (u.1 + u.2)) lo
  ((List.range (top + 1 - lo)).map (· + lo)).find? (fun a =>
    used.all (fun u => decide (u.1 + u.2 ≤ a ∨ a + n ≤ u.1)) && (match hi with | some h => decide (a + n ≤ h) | none => true))

/-- The next use of an interval seen from p: its end where no use follows (R186). -/
def nextUse (bs : List CBlk) (x : Ivl) (p : Nat) : Nat := ((usesOf bs x.v).find? (fun q => decide (p ≤ q))).getD x.stop

/-- Position p lies in a loop across which interval x is live with no use of it inside (R186). -/
def idleLoop (bs : List CBlk) (x : Ivl) (p : Nat) : Bool :=
  (loopsOf bs).any (fun l =>
    let h := headPos bs l.1
    let e := headPos bs (l.2 + 1)
    decide (x.start < h) && decide (h ≤ p) && decide (p < e) && !(usesOf bs x.v).any (fun q => decide (h ≤ q) && decide (q < e)))

/-- Spills an interval at position p: its store stands after the definition where the split is there, or in a loop that the interval
crosses without use, and else after the split; it takes the lowest slots free from there to its end, and a reload stands before
each later use (R143, R186). -/
def spillIvl (bs : List CBlk) (x : Ivl) (p : Nat) (S : Scan) : Scan :=
  let d := if idleLoop bs x p then x.start else p
  let used := (S.spilt.filter (fun e => decide (d ≤ e.stop) && decide (e.store ≤ x.stop))).map (fun e => (e.slot, e.words))
  { S with
    act := S.act.filter (fun e => e.1 ≠ x)
    spilt := S.spilt ++ [{ v := x.v, split := p, store := d, slot := (lowestFit used x.words 0 none).getD 0, words := x.words, stop := x.stop }]
    todo := ((usesOf bs x.v).filter (fun q => decide (p < q) && decide (q ≤ x.stop))).foldl
      (fun t q => insertIvl { x with start := q, stop := q, reload := true } t) S.todo }

/-- Interval x takes its registers from r. -/
def Scan.seat (S : Scan) (x : Ivl) (r : Nat) (load : Bool) : Scan :=
  { S with act := S.act ++ [(x, r)], places := S.places ++ [{ ivl := x, reg := r, load := load }] }

/-- Position p is that of a block header. -/
def linearHead (bs : List CBlk) (p : Nat) : Bool := (posInstrs bs).all (fun e => e.1 != p)

/-- Gives interval x its registers, spilling as R142 and R143 choose: none when nothing may be spilled. A result that is itself spilled
where it is defined keeps a register there for its store (R143); a block argument so spilled is written to its slot by the transfers. -/
def seatIvl (bs : List CBlk) (budget : Nat) (x : Ivl) : Nat → Scan → Option Scan
  | 0, _ => none
  | f + 1, S =>
    let used := (S.act.filter (fun e => e.1.moment == x.moment)).map (fun e => (e.2, e.1.need))
    match lowestFit used x.need 1 (some (if x.moment then 129 else budget + 1)) with
    | some r => some (S.seat x r x.reload)
    | none =>
      let cands := ((x :: S.act.map (·.1)).filter (fun y => y.moment == x.moment && !S.spilt.any (fun e => e.v == y.v) && !(usesOf bs y.v).contains x.start))
      let u := cands.foldl (fun (m : Option Ivl) y => match m with
        | none => some y
        | some z =>
          let n := nextUse bs y x.start
          let k := nextUse bs z x.start
          if k < n ∨ (k = n ∧ z.v < y.v) then some y else some z) none
      match u with
      | none => none
      | some u =>
        let S := spillIvl bs u x.start S
        if u ≠ x then seatIvl bs budget x f S
        else if linearHead bs x.start then some S
        else seatIvl bs budget { x with stop := x.start } f S

/-- The block of a position. -/
def blkOfPos (bs : List CBlk) (p : Nat) : Nat := (List.range bs.length).foldl (fun m k => if headPos bs k ≤ p then k else m) 0

/-- The register that still holds an earlier reload of the value in the same block: no later place has taken it (R143; log entry 19). -/
def keptReload (bs : List CBlk) (x : Ivl) (S : Scan) : Option Nat :=
  if !x.reload then none
  else
    ((S.places.zipIdx.filter (fun (q, _) => q.ivl.v = x.v && q.ivl.reload && decide (blkOfPos bs q.ivl.start = blkOfPos bs x.start))).getLast?).bind
      (fun (q, i) =>
        if (S.places.drop (i + 1)).any (fun y => y.ivl.moment == x.moment && decide (y.reg < q.reg + x.need) && decide (q.reg < y.reg + y.ivl.need))
        then none else some q.reg)

/-- Visits the intervals: what the scan comes to, or the position at which an instruction's operands and result do not fit. -/
def scanIvls (bs : List CBlk) (budget : Nat) : Nat → Scan → Except Nat Scan
  | 0, S => .ok S
  | f + 1, S =>
    match S.todo with
    | [] => .ok S
    | x :: r =>
      let S := { S with todo := r, act := S.act.filter (fun e => decide (x.start ≤ e.1.stop)) }
      match keptReload bs x S with
      | some q => scanIvls bs budget f (S.seat x q false)
      | none =>
        match seatIvl bs budget x (S.act.length + 2) S with
        | none => .error x.start
        | some S => scanIvls bs budget f S

/-- 64-bit arithmetic, whose sequence pushes carries or compares (R167). -/
def wideArith : Instr → Bool
  | .add _ t _ _ _ | .sub _ t _ _ _ | .mul _ t _ _ _ _ | .mulhi _ t _ _ _ | .mad _ t _ _ _ _ | .div _ t _ _ _ | .rem _ t _ _ _ | .neg _ t _ _
  | .abs _ t _ _ | .min _ t _ _ _ | .max _ t _ _ _ | .shl _ t _ _ | .shr _ t _ _ _ | .rotl _ t _ _ | .addsat _ t _ _ _ | .subsat _ t _ _ _
  | .lea _ t _ _ _ _ _ _ => t == .i64
  | _ => false

/-- An instruction pushes the predicate register: it defines a b1 value, or it is `assert`, a `switch` with its compares, or 64-bit
arithmetic (R167, R188, R397; log entry 60). -/
def pushes (i : Instr) : Bool :=
  i.resultTy == some (.ty .b1) || wideArith i || (match i with | .assert .. | .switch .. => true | _ => false)

/-- An operation with DN that stands in no loop: the loop of one trip that the translator puts around it takes up the predicate depths (R164,
R169). -/
def loneDn (bs : List CBlk) (k : Nat) (dn : Bool) : Bool := dn && !(loopsOf bs).any (fun l => decide (l.1 ≤ k) && decide (k ≤ l.2))

/-- An interval as the unit of a segment sees it: from the first to the last of its positions that lie in the segment's blocks. -/
def Ivl.within (bs : List CBlk) (seg : Nat) (x : Ivl) : Option Ivl :=
  if seg = 0 then some x
  else
    let ps := ((List.range (x.stop + 1)).drop x.start).filter (fun p => (bs[blkOfPos bs p]?).any (fun b => b.seg = seg))
    match ps.head?, ps.getLast? with
    | some a, some b => some { x with start := a, stop := b }
    | _, _ => none

/-- The allocation of the values of a function, or of one of its segments, under a budget, with MARKs at some positions, or the position
of a region limit. -/
def allocate (bs : List CBlk) (kernel : Bool) (seg budget : Nat) (marks : List Nat) : Except Nat Scan :=
  let lin := linear bs
  let n := (lin.map (fun e => e.2.1.length)).foldl (· + ·) 0
  let ps := (posInstrs bs).filterMap (fun (p, k, c) => if pushes c.i || loneDn bs k c.i.honoursDn then some p else none)
  let ivls := (List.range n).filterMap (fun v => (ivlOf bs kernel marks ps v).bind (Ivl.within bs seg))
  let uses := (lin.map (fun e => e.2.2.length)).foldl (· + ·) 0
  scanIvls bs budget (n + uses * (n + 1) + 1) { act := [], places := [], spilt := [], todo := ivls.foldl (fun t x => insertIvl x t) [] }

/-! ### Live counts (R21, R115) -/

/-- The values of a type live after position p: defined at it, or defined before and used later. A value whose last use is the
instruction that defines another does not count beside it (log entry 71). -/
def liveOf (bs : List CBlk) (t : Ty) (p : Nat) : Nat :=
  let lin := linear bs
  let n := (lin.map (fun e => e.2.1.length)).foldl (· + ·) 0
  ((List.range n).filter (fun v => valTy bs v == some (.ty t) &&
    (decide (defPos lin v = p) || (decide (defPos lin v < p) && decide (p < liveEnd bs v))))).length

/-- The first position at which a tok or acc value is defined beyond the count. -/
def overCount (bs : List CBlk) : Option Nat :=
  let lin := linear bs
  (List.range lin.length).find? (fun p =>
    let ds := (nth (0, [], []) lin p).2.1
    (ds.any (fun v => valTy bs v == some (.ty .tok)) && decide (16 < liveOf bs .tok p))
    || (ds.any (fun v => valTy bs v == some (.ty .acc)) && decide (1 < liveOf bs .acc p)))

/-! ### Divergence (R148, R151, R332) -/

/-- The blocks that a branch of block b can reach before its join. -/
def regionOf (g : Cfg) (b : Nat) : List Nat :=
  let stop := fun (c : Nat) => c == b || ipdom g b == some c
  (List.replicate (g.length + 1) ()).foldl (fun seen _ =>
    uniq (seen ++ (seen.flatMap (fun c => (nth [] g c).filter (fun d => !stop d))))) ((nth [] g b).filter (fun d => !stop d))

/-- The static nesting of divergent branches from block b inwards; path holds the branches around it. -/
def nestOf (bs : List CBlk) : Nat → List Nat → Nat → Nat
  | 0, _, _ => 1
  | f + 1, path, b =>
    1 + ((regionOf (cfgOf bs) b).filter (fun c => !path.contains c && (match bs[c]? with | some d => d.diverges | none => false))).foldl
      (fun m c => max m (nestOf bs f (b :: path) c)) 0

/-- The nesting at every block that ends in a branch. -/
def nesting (bs : List CBlk) : List (Nat × Nat) :=
  (bs.zipIdx.filter (fun (b, _) => b.diverges)).map (fun (_, k) => (k, nestOf bs bs.length [] k))

/-- Divergence stack entries: the deepest nesting less 2 (R151). -/
def stackEntries (bs : List CBlk) : Nat := (nesting bs).foldl (fun m e => max m e.2) 0 - 2

/-- Bytes of the value and tag area of values of some types. -/
def areaTys (ts : List TyD) : Nat :=
  ts.foldl (fun n t => match t with
    | .ty .tok | .ty .acc => n
    | .ty .mo => n + 1024
    | .ty .ref => n + 1040
    | t => n + 512 * regsOf t) 0

/-- Bytes of the value and tag area of an arrival at block k (R331). -/
def areaOf (bs : List CBlk) (k : Nat) : Nat :=
  areaTys ((liveAt bs (match bs[k]? with | some b => b.off + 1 | none => 0)).filterMap (valTy bs))

/-- The first branch nested beyond 6 or segment exit whose area exceeds 32,768 bytes (R332): a word offset. A `call` is an exit where it enters
a `.travel` procedure in another segment, with the callee's parameters, and where a `ret` of that procedure comes back from one, with the
values live after the call's fetches (R326, R331). -/
def exitLimit (bs : List CBlk) (callee : Opnd → Option (List CBlk)) : Option Nat :=
  ((posInstrs bs).find? (fun (p, k, c) =>
    let seg := (bs[k]?).elim 0 (·.seg)
    (match c.i with
     | .cbr .. | .switch .. => (nesting bs).any (fun e => e.1 == k && decide (6 < e.2))
     | .call _ _ f _ =>
       let back := ((posInstrs bs).filter (fun e => decide (p < e.1))).dropWhile (fun e => match e.2.2.i with | .copyVRet .. => true | _ => false)
       (callee f).any (fun ds =>
         ds.head?.any (fun d => d.seg != seg && decide (32768 < areaTys d.args))
         || (ds.any (fun d => d.seg != seg && (match d.last? with | some (.ret ..) => true | _ => false))
           && back.head?.any (fun e => decide (32768 < areaTys ((liveAt bs e.2.2.off).filterMap (valTy bs))))))
     | _ => false)
    || (leavesSeg bs k c.i && c.i.targets.any (fun t => match bs[t.blk.toNat]?, bs[k]? with
        | some d, some b => d.seg != b.seg && decide (32768 < areaOf bs t.blk.toNat)
        | _, _ => false)))).map (fun e => e.2.2.off)

/-- The word offset at a position of the linear order. -/
def posOff (bs : List CBlk) (p : Nat) : Nat := (nth (0, [], []) (linear bs) p).1

end Sys2Proof.Machine
end

