-- ==== Sys2Proof/Machine/Lower.lean ====
section
/-! DEFINITION. The lowering of a portable instruction (R68, R101, R111, R136, R226, R253, R259 to R267, R279): the native operations that
the spec fixes, bit by bit, and what it leaves free around them. -/

namespace Sys2Proof.Machine
open Sys2Proof

/-- A location of R185: its code, PAIR and N. -/
abbrev Loc := Nat × Bool × Nat

/-- Where an instruction reads its operand slots and writes its result. -/
structure Locs where
  ops : List Loc
  dst : Option Loc
  deriving DecidableEq, Repr

/-- The vector register of a location. -/
def Loc.reg? : Loc → Option Nat
  | (0, _, n) => some n
  | _ => none

/-- The first vector register of operand slot j; none where the operand stands elsewhere. -/
def Locs.o (x : Locs) (j : Nat) : Option Nat := x.ops[j]?.bind Loc.reg?

/-- The first vector register of the result. -/
def Locs.d (x : Locs) : Option Nat := x.dst.bind Loc.reg?

/-- The entry of the moment file that the result takes. -/
def Locs.dm (x : Locs) : Option Nat := match x.dst with | some (2, _, n) => some n | _ => none

/-- Register k after a first one. -/
def plus (r : Option Nat) (k : Nat) : Option Nat := r.map (· + k)

/-! ### Operations that the spec fixes -/

/-- A native operation: its slot, the bits of its field that are fixed, and a mask of those that are not: ports, the registers of values
that stand in none, tokens, window registers. A V operation may stand in V0 or V1. -/
structure Form where
  sl : Slot
  val : Nat
  free : Nat
  deriving DecidableEq, Repr

/-- A register field of 9 bits at bit lo: its value and what is free of it. -/
def regField (lo : Nat) (r : Option Nat) : Nat × Nat :=
  match r with
  | some n => (n % 512 * 2 ^ lo, 0)
  | none => (0, 511 * 2 ^ lo)

/-- A V operation with D, A and B (R166). -/
def vForm (opc : Nat) (d a b : Option Nat) : Form :=
  let fs := [regField 20 d, regField 10 a, regField 0 b]
  { sl := .v0, val := opc * 2 ^ 34 + (fs.map (·.1)).foldl (· + ·) 0, free := 2 ^ 33 + 2 ^ 19 + 2 ^ 9 + (fs.map (·.2)).foldl (· + ·) 0 }

/-- A move between vector registers. -/
def vMove (d a : Option Nat) : Form := vForm 0x08 d a (some 0)

/-- An F operation (R170). -/
def fForm (opc : Nat) (d a : Option Nat) : Form :=
  { sl := .f, val := opc * 2 ^ 28 + (regField 15 d).1 + (regField 5 a).1, free := 2 ^ 14 + (regField 15 d).2 + (regField 5 a).2 }

/-- An L operation on a memory operand, whose window and offset register the address computation gives (R171). -/
def lForm (opc sz : Nat) (scp : BitVec 3) (r : Option Nat) : Form :=
  { sl := .l, val := opc * 2 ^ 34 + (regField 21 r).1 + sz * 2 ^ 3 + scp.toNat, free := 2 ^ 20 + 15 * 2 ^ 16 + 2 ^ 15 + 511 * 2 ^ 6 + (regField 21 r).2 }

/-- An S operation (R168). -/
def sForm (opc val free : Nat) : Form := { sl := .s, val := opc * 2 ^ 26 + val, free := free }

/-- An A operation: its token and its descriptor's registers are free, and the live map of a `hop` is linked later (R174). -/
def aForm (opc : Nat) : Form := { sl := .a, val := opc * 2 ^ 26, free := 15 * 2 ^ 22 + 511 * 2 ^ 13 }

/-- An M operation: its tile and token are free (R173). -/
def mForm (opc fmt j : Nat) : Form := { sl := .m, val := opc * 2 ^ 20 + fmt * 2 ^ 10 + j * 2 ^ 5, free := 127 * 2 ^ 13 }

/-- SZ of an access of 1 to 16 bytes. -/
def szOf (n : Nat) : Nat := if n ≤ 1 then 0 else if n ≤ 2 then 1 else if n ≤ 4 then 2 else if n ≤ 8 then 3 else 4

/-- The operations of a register array's access: one for each 16-byte part, and powers of two for the rest (R255, R279): offset and bytes. -/
def arrChunks : Nat → Nat → Nat → List (Nat × Nat)
  | 0, _, _ => []
  | f + 1, o, n =>
    if n = 0 then []
    else
      let k := if 16 ≤ n then 16 else if 8 ≤ n then 8 else if 4 ≤ n then 4 else if 2 ≤ n then 2 else 1
      (o, k) :: arrChunks f (o + k) (n - k)

/-- Loads or stores of an array in the registers from r upward: elements of 4 and 8 bytes lie there as they do in memory. -/
def arrForms (opc : Nat) (e : Ty) (l : BitVec 6) (r : Option Nat) : List Form :=
  let n := (l.toNat + 1) * Ty.bytes e
  (arrChunks (n + 1) 0 n).map (fun (o, k) => lForm opc (szOf k) 0 (if 4 ≤ Ty.bytes e then plus r (o / 4) else none))

/-- A type whose integer operations are one V operation (R167). -/
def isWord (t : Ty) : Bool := t == .i32

/-- An S operation code of R169 for `ssys`, its uniform register free. -/
def sysForm (k : Nat) : Form := sForm 0x14 k (if k = 0 ∨ k = 10 then 0 else 511 * 2 ^ 4)

/-- A number on a list of immediates: what an immediate location holds. -/
def immOf : Opnd → Option Nat
  | .imm i => some i.toNat
  | _ => none

/-- The integer operations whose code depends on the sign. -/
def bySign (sg : Bool) (s n : Nat) : Nat := if sg then s else n

/-- The bits of a conversion (R167): source, target and the integer side's sign. -/
def cvtBits (k : CvtKind) (t s : CTy) : Nat := s.code.toNat + t.code.toNat * 16 + (if k == .s then 256 else 0)

/-- A conversion with an i64 side. -/
def wideCvt (t s : CTy) : Bool := t == .ty .i64 || s == .ty .i64

/-- The operations of an instruction that the spec fixes, their memory operands apart, in order, and those directly after the MARK that
follows it; none where it fixes only their slots (R68, R111). kernel: `ret` ends the threads there (R74). -/
def fixedForms (kernel : Bool) (i : Instr) (x : Locs) : Option (List Form × List Form) :=
  let o := x.o
  let d := x.d
  let one := fun (f : Form) => some ([f], ([] : List Form))
  let v2 := fun (opc : Nat) => one (vForm opc d (o 0) (o 1))
  let v1 := fun (opc : Nat) => one (vForm opc d (o 0) (some 0))
  let word := fun (t : Ty) (opc : Nat) => if isWord t then v2 opc else none
  let word1 := fun (t : Ty) (opc : Nat) => if isWord t then v1 opc else none
  let bits2 := fun (t : Ty) (opc : Nat) =>
    if t == .i64 then some ([vForm opc d (o 0) (o 1), vForm opc (plus d 1) (plus (o 0) 1) (plus (o 1) 1)], []) else v2 opc
  let moves := fun (n : Nat) (j : Nat) => some ((List.range n).map (fun k => vMove (plus d k) (plus (o j) k)), ([] : List Form))
  match i with
  | .nop _ => some ([], [])
  | .copyV _ t _ => if t == .ty .mo then none else if d.isNone then some ([], []) else moves (regsOf t) 0
  | .br _ t => one (sForm 0x04 t.blk.toNat 0)
  | .cbr _ _ t f => some ([sForm 0x05 (2 ^ 25 + t.blk.toNat) (7 * 2 ^ 22), sForm 0x04 f.blk.toNat 0], [])
  | .switch _ _ t cs => some (cs.map (fun c => sForm 0x05 (2 ^ 25 + c.blk.toNat) (7 * 2 ^ 22)) ++ [sForm 0x04 t.blk.toNat 0], [])
  | .call .. => one (sForm 0x07 0 (2 ^ 22 - 1))
  | .ret .. => one (sForm (if kernel then 0x09 else 0x08) 0 0)
  | .exit _ => one (sForm 0x09 0 0)
  | .trap _ c => one (match immOf c with | some n => sForm 0x0A (n % 8192) 0 | none => sForm 0x0A 0 8191)
  | .add _ t _ _ _ => word t 0x01 | .sub _ t _ _ _ => word t 0x02
  | .mul _ t _ sat _ _ => if sat then none else word t 0x03
  | .mulhi _ t sg _ _ => word t (bySign sg 0x04 0x05)
  | .mad _ t _ _ _ _ => word t 0x06
  | .div _ t sg _ _ => word t (bySign sg 0x20 0x21) | .rem _ t sg _ _ => word t (bySign sg 0x22 0x23)
  | .min _ t sg _ _ => word t (bySign sg 0x0F 0x10) | .max _ t sg _ _ => word t (bySign sg 0x11 0x12)
  | .and _ t _ _ => bits2 t 0x07 | .or _ t _ _ => bits2 t 0x08 | .xor _ t _ _ => bits2 t 0x09
  | .not _ t _ =>
    if t == .i64 then some ([vForm 0x09 d (o 0) none, vForm 0x09 (plus d 1) (plus (o 0) 1) none], []) else one (vForm 0x09 d (o 0) none)
  | .shl _ t _ _ => word t 0x0A | .shr _ t sg _ _ => word t (bySign sg 0x0B 0x0C) | .rotl _ t _ _ => word t 0x0D
  | .clz _ s _ => word1 s 0x13 | .popc _ s _ => word1 s 0x14 | .brev _ t _ => word1 t 0x15
  | .bfx _ t sg _ _ _ => if isWord t then one (vForm (bySign sg 0x16 0x17) d (o 0) none) else none
  | .bfi _ t _ _ _ _ => if isWord t then one (vForm 0x18 d (o 1) none) else none
  | .cmp _ cc sg s _ _ => if isWord s then one (vForm 0x1F (some (cc.code.toNat + (if sg then 8 else 0))) (o 0) (o 1)) else none
  | .sel _ t _ _ _ =>
    if t == .ty .mo then none
    else some ((List.range (regsOf t)).map (fun k => let f := vForm 0x0E (plus d k) (plus (o 1) k) (plus (o 2) k); { f with free := f.free + 7 * 2 ^ 29 }), [])
  | .addsat _ t sg _ _ => word t (bySign sg 0x19 0x1A) | .subsat _ t sg _ _ => word t (bySign sg 0x1B 0x1C)
  | .shfl _ m t _ _ => some ((List.range (regsOf (.ty t))).map (fun k => vForm 0x33 (plus d k) (plus (o 0) k) (if m == .idx then o 1 else none)), [])
  | .bcast _ t _ _ => some ((List.range (regsOf (.ty t))).map (fun k => vForm 0x34 (plus d k) (plus (o 0) k) (o 1)), [])
  | .vote _ m _ => one (vForm 0x35 (some 0) none (some m.code.toNat))
  | .ballot _ hi _ => one (vForm 0x36 d none (some (if hi then 1 else 0)))
  | .redg _ op sg _ _ t _ => if t == .i64 then none else one (vForm 0x37 d (o 0) (some (op.code.toNat + (if sg then 16 else 0))))
  | .scang _ ex op sg _ _ t _ =>
    if t == .i64 then none else one (vForm 0x38 d (o 0) (some (op.code.toNat + (if sg then 16 else 0) + (if ex then 32 else 0))))
  | .aget .. => let f := vForm 0x3A d (some 0) (some 0); one { f with free := f.free + 7 * 2 ^ 10 }
  | .aset _ e l _ _ _ =>
    let f := vForm 0x3B (some 0) (some 0) (o 2)
    some ((if o 0 = d then [] else (List.range (regsOf (.arr e l))).map (fun k => vMove (plus d k) (plus (o 0) k))) ++ [{ f with free := f.free + 7 * 2 ^ 10 }], [])
  | .afill _ e l _ => some ((List.range (regsOf (.arr e l))).map (fun k => vMove (plus d k) (plus (o 0) (if e == .i64 then k % 2 else 0))), [])
  | .fadd .. => v2 0x25 | .fsub .. => v2 0x26 | .fmul .. => v2 0x27 | .fma .. => v2 0x28 | .fdiv .. => v2 0x29
  | .fneg .. => one (vForm 0x09 d (o 0) none) | .fabs .. => one (vForm 0x07 d (o 0) none)
  | .fmin .. => v2 0x2A | .fmax .. => v2 0x2B | .fcopysign .. => v2 0x2C
  | .fcmp _ cc _ _ _ _ => one (vForm 0x24 (some cc.code.toNat) (o 0) (o 1))
  | .fclass _ s _ => one (vForm 0x2D d (o 0) (some s.code.toNat))
  | .frnd .. => v1 0x2E | .fscale .. => v2 0x2F
  | .cvt _ k t s _ _ _ => if wideCvt t s then none else one (vForm 0x30 d (o 0) (some (cvtBits k t s)))
  | .rsdenc _ sg _ => one (vForm 0x31 d (o 0) (some (if sg then 256 else 0))) | .rsddec .. => v1 0x32
  | .exp2 .. => one (fForm 1 d (o 0)) | .log2 .. => one (fForm 2 d (o 0)) | .rcp .. => one (fForm 3 d (o 0)) | .sqrt .. => one (fForm 4 d (o 0))
  | .rsqrt .. => one (fForm 5 d (o 0)) | .sinpi .. => one (fForm 6 d (o 0)) | .cospi .. => one (fForm 7 d (o 0)) | .tanh .. => one (fForm 8 d (o 0))
  | .sigmoid .. => one (fForm 9 d (o 0)) | .erf .. => one (fForm 10 d (o 0))
  | .mmake _ cl _ _ =>
    if cl then none else x.dm.bind (fun m => some ([vForm 0x3D (some m) (o 0) (some 0), vForm 0x3D (some (m + 128)) (o 1) (some 0)], []))
  | .mcol _ k cl _ _ =>
    (match k, cl, x.ops.head? with
     | .mean, false, some (2, _, m) => one (vForm 0x3C d (some m) (some 0))
     | .var, false, some (2, _, m) => one (vForm 0x3C d (some (m + 128)) (some 0))
     | _, _, _ => none)
  | .mma _ fm _ _ _ =>
    let c := fm.code.toNat
    some ((if 5 ≤ c then [mForm 2 c 0] else []) ++ [mForm 1 c 0], [])
  | .accacq _ n => one (sForm 0x0F n.toNat 0) | .accrel .. => one (sForm 0x10 0 0)
  | .accrd _ ty _ _ _ _ =>
    let f := fun (k : Nat) => let f := vForm 0x3E (if ty == .mo then none else plus d k) (some 0) (some 0); { f with free := f.free + 255 * 2 ^ 10 + 31 }
    some ((List.range (if ty == .mo then 2 else 1)).map f, [])
  | .rsdraw .. => let f := vForm 0x3E d (some 256) (some 0); one { f with free := f.free + 255 * 2 ^ 10 + 31 }
  | .accwr _ ty _ _ j _ =>
    let f := match immOf j with
      | some n => mForm 3 (if ty == .f32 then 1 else 0) (n % 32)
      | none => let f := mForm 3 (if ty == .f32 then 1 else 0) 0; { f with free := f.free + 31 * 2 ^ 5 }
    some (List.replicate (if ty == .mo then 2 else 1) f, [])
  | .acczero .. => one (mForm 4 0 0)
  | .ldscale .. => one { sl := .f, val := 0xB * 2 ^ 28 + (regField 5 (o 2)).1, free := 2 ^ 14 + 127 * 2 ^ 15 + (regField 5 (o 2)).2 }
  | .ldfrag .. => one (lForm 0x01 2 0 d)
  | .ld _ t _ _ => one (lForm 0x01 (szOf (Ty.bytes t)) 0 d) | .st _ t _ _ _ => one (lForm 0x03 (szOf (Ty.bytes t)) 0 (o 2))
  | .ldacq _ sc t _ _ => one (lForm 0x04 (szOf (Ty.bytes t)) sc d) | .strel _ sc t _ _ _ => one (lForm 0x05 (szOf (Ty.bytes t)) sc (o 2))
  | .prefetch .. => let f := lForm 0x10 0 0 (some 0); one { f with free := f.free - 2 ^ 20 }
  | .ldw _ e l _ _ => some (arrForms 0x01 e l d, []) | .stw _ e l _ _ _ => some (arrForms 0x03 e l (o 2), [])
  | .atom _ op _ sc t _ _ _ => one (lForm (0x06 + op.code.toNat) (szOf (Ty.bytes t)) sc d)
  | .cas _ _ sc t _ _ _ _ => one (lForm 0x0F (szOf (Ty.bytes t)) sc none)
  | .fence _ _ sc mask => one { sl := .l, val := 0x11 * 2 ^ 34 + mask.toNat * 2 ^ 21 + sc.toNat, free := 0 }
  | .bar .. => some ([sForm 0x13 1 (511 * 2 ^ 9)], [sForm 0x13 2 (511 * 2 ^ 9)])
  | .barar .. => one (sForm 0x13 1 (511 * 2 ^ 9)) | .barwt .. => one (sForm 0x13 2 (511 * 2 ^ 9))
  | .mkref .. => one (lForm 0x14 3 0 d) | .ldref .. => one (lForm 0x14 3 0 d)
  | .unref .. => some ([lForm 0x14 3 0 none, lForm 0x15 3 0 none], [])
  | .objinit .. | .objinitRetire .. => one (lForm 0x15 3 0 none)
  | .stref .. => one (lForm 0x15 3 0 (o 2))
  | .objst _ t _ _ _ => some ([lForm 0x14 3 0 none, lForm 0x03 (szOf (Ty.bytes t)) 0 (o 2)], [])
  | .refadr .. => moves 2 0
  | .copy .. => one (aForm 0x01) | .gather .. => one (aForm 0x02) | .scatter .. => one (aForm 0x03) | .coll .. => one (aForm 0x04)
  | .publ .. => one (aForm 0x05) | .post .. => one (aForm 0x06) | .enq .. => one (aForm 0x07)
  | .sigdec .. => one (aForm 0x08) | .sigset .. => one (aForm 0x09) | .hop .. => one (aForm 0x0A) | .tjoin .. => one (aForm 0x0B)
  | .kwait _ ks => some (ks.map (fun _ => sForm 0x11 0 15), [])
  | .ktest .. => one (sForm 0x12 0 (511 * 2 ^ 17 + 15 * 2 ^ 8))
  | .sigrd _ sc _ _ => one (lForm 0x04 3 sc d)
  | .trvmapRep .. | .trvmapVer .. => one (let f := lForm 0x04 0 3 none; { f with free := f.free + 7 * 2 ^ 3 })
  | .yield _ => one (sysForm 0) | .nsleep .. => one (sysForm 1) | .sigwait .. | .twait .. => one (sysForm 2)
  | .rdclk _ => one (sysForm 3) | .rdtime _ => one (sysForm 4) | .rdflag _ => one (sysForm 5) | .clrflag .. => one (sysForm 6)
  | .rdfev _ => one (sysForm 7) | .ctrrd .. => one (sysForm 8) | .ctrctl .. => one (sysForm 9) | .brkpt .. => one (sysForm 10)
  | .assert _ _ c => some ([vForm 0x1F none none none, match immOf c with | some n => sForm 0x0A (n % 8192) 0 | none => sForm 0x0A 0 8191], [])
  | _ => none

/-- The operations of an instruction that the spec fixes. A base that stands in uniform registers is the frame of a window, and the register
of the 32-bit offset beside it is the operation's (R187, R195). -/
def nativeForms (kernel : Bool) (i : Instr) (x : Locs) : Option (List Form × List Form) :=
  match fixedForms kernel i x, i.mems, x.ops with
  | some ([f], []), [m], (1, _, _) :: (0, false, n) :: _ =>
    some ([if f.sl = .l ∧ i.slots.take 2 = [m.base, m.off] then { f with val := f.val + n % 512 * 2 ^ 6, free := f.free - 511 * 2 ^ 6 } else f], [])
  | r, _, _ => r

/-- A moment instruction, whose sequence takes the slots V0, V1 and F (R111). -/
def isMoment : Instr → Bool
  | .madd .. | .msub .. | .mmul .. | .mfma .. | .mexp .. | .mrelu .. | .msig .. | .mtanh .. | .mgelu .. | .mcol .. | .mmake .. | .mscale .. => true
  | _ => false

/-- An operation that may stand around the fixed ones, or be the whole of an instruction for which none is fixed: of the V slots, but the
tile read; of the S slot those on uniform registers and index registers; for a moment instruction V and F. No such operation touches
memory, a tile, a token, an engine or the order of accesses (R150, R226). -/
def freeOp (moment : Bool) (sl : Slot) (w : Nat) : Bool :=
  match sl with
  | .v0 | .v1 => slotOpc w .v0 != 0x3E
  | .f => moment && slotOpc w .f != 0xB
  | .s => !moment && (slotOpc w .s == 0x01 || slotOpc w .s == 0x02 || slotOpc w .s == 0x03 || slotOpc w .s == 0x0E || slotOpc w .s == 0x15)
  | _ => false

/-- Bundles from the first operation of a fixed sequence to its readable result (R68, R111); none where each operation's own latency
counts. -/
def seqLat (isN : Bool) (i : Instr) : Option Nat :=
  let by_ := fun (w n : Nat) => if isN then n else w
  let cov := fun (c : Cov) => if c == .cor || c == .anti then 14 else 0
  match i with
  | .div _ t _ _ _ | .rem _ t _ _ _ => some (if t == .i64 then by_ 68 80 else by_ 36 42)
  | .fdiv _ t _ _ _ _ => some (if t == .f32 then by_ 30 34 else by_ 24 28)
  | .mmake .. => some (by_ 3 4)
  | .mcol _ k _ _ _ => some (match k with | .mean | .var => by_ 3 4 | _ => by_ 19 20)
  | .madd _ c .. | .msub _ c .. => some (by_ 10 12 + cov c)
  | .mscale .. => some (by_ 10 12)
  | .mmul _ c .. => some (by_ 15 18 + cov c)
  | .mfma _ c .. => some (by_ 20 24 + cov c)
  | .mexp .. => some (by_ 48 50)
  | .msig .. => some (by_ 52 56)
  | .mtanh .. => some (by_ 62 68)
  | .mrelu .. => some (by_ 80 86)
  | .mgelu .. => some (by_ 96 104)
  | _ => none

/-- The float mode word under which an instruction's operations run: rounding, format, and FZ in a loop that is interlocked for another's
DN (R161, R164). -/
def fmwOf (interlocked : Bool) (i : Instr) : Nat :=
  let fmt := fun (t : Ty) => if t == .f16 then 1 else if t == .bf16 then 2 else 0
  let w := fun (t : Ty) (rm : RM) (dn : Bool) => rm.code.toNat + fmt t * 4 + (if interlocked && !dn then 16 else 0)
  let plain := fun (t : CTy) => match t with | .ty t => t | .s8 => .i8
  match i with
  | .fadd _ t rm dn _ _ | .fsub _ t rm dn _ _ | .fmul _ t rm dn _ _ | .fma _ t rm dn _ _ _ | .fdiv _ t rm dn _ _ | .frnd _ t rm dn _
  | .fscale _ t rm dn _ _ => w t rm dn
  | .fmin _ t dn _ _ | .fmax _ t dn _ _ | .fcmp _ _ t dn _ _ => w t .rne dn
  | .redg _ _ _ rm dn t _ | .scang _ _ _ _ rm dn t _ => w t rm dn
  | .cvt _ _ t _ rm dn _ => w (plain t) rm dn
  | .exp2 _ dn _ | .log2 _ dn _ | .rcp _ dn _ | .sqrt _ dn _ | .rsqrt _ dn _ | .sinpi _ dn _ | .cospi _ dn _ | .tanh _ dn _ | .sigmoid _ dn _
  | .erf _ dn _ => w .f32 .rne dn
  | _ => w .f32 .rne false

end Sys2Proof.Machine
end

