-- ==== Sys2Proof/Machine/Schedule.lean ====
section
/-! DEFINITION. The translator after allocation: locations (R144, R149, R185 to R187), the operations of a block (R143, R187, R412), list
scheduling and modulo scheduling against the latencies of R178 (R145, R146), restart marks (R147, R189), emission of bundles and side
tables (R149, R158, R159, R183 to R185), and the outcome of a translation (R43, R140). -/

namespace Sys2Proof.Machine
open Sys2Proof

/-! ### Locations (R144, R149, R185 to R187) -/

/-- A value's type takes two words at one location. -/
def pairTy (t : TyD) : Bool := t == .ty .i64 || t == .ty .ref

/-- Uniform registers of a parameter's type. R187 gives an i64 two and names no other type of several words: two for a ref and a mo, and
one for each element of an arr, two where its elements are i64, are a DESIGN CHOICE (log entry 60). -/
def paramWords : TyD → Nat
  | .arr e l => (l.toNat + 1) * (if e == .i64 then 2 else 1)
  | t => tyWords t

/-- The uniform register in which parameter v of a kernel starts: from s1 upward in declaration order (R187). -/
def paramReg (bs : List CBlk) (v : Nat) : Nat := 1 + ((bs.headD { off := 0, seg := 0, args := [], first := 0, body := [] }).args.take v).foldl
  (fun n t => n + paramWords t) 0

/-- N of a C record: where a rematerialised value comes from (R185). -/
def constLoc (bs : List CBlk) (v : Nat) : Nat :=
  match (bs.flatMap (·.body)).find? (fun c => c.num = v && c.i.resultTy.isSome) with
  | some c => (match c.i with
      | .copyV _ _ (.imm i) => i.toNat
      | .copyV _ _ (.pool i) => 2 ^ 30 + i.toNat
      | .copyV _ _ (.spec k) => 2 ^ 31 + k.toNat
      | _ => 0)
  | none => 0

/-- The position from which the live maps give a spilled value's slot: past the split, or from the header of the loop around the split
that the value crosses without use (R186). -/
def slotFrom (bs : List CBlk) (e : Spilt) : Nat :=
  if e.store < e.split then
    ((loopsOf bs).filterMap (fun l =>
      let h := headPos bs l.1
      let z := headPos bs (l.2 + 1)
      if e.store < h ∧ h ≤ e.split ∧ e.split < z ∧ (usesOf bs e.v).all (fun q => decide (q < h ∨ z ≤ q)) then some h else none)).foldl min e.split
  else e.split + 1

/-- Where value v is at the MARK before position q (R149). -/
def Scan.locAt (bs : List CBlk) (kernel : Bool) (S : Scan) (v q : Nat) : Option Loc :=
  match valTy bs v with
  | none | some (.ty .tok) | some (.ty .acc) => none
  | some t =>
    let pair := pairTy t || t == .ty .mo
    let param := kernel && decide (defPos (linear bs) v = 0)
    if isConstDef bs v then some (4, false, constLoc bs v)
    else if param && decide (q ≤ 1) then some (1, pair, paramReg bs v)
    else
      match S.spilt.find? (fun e => e.v = v && decide (slotFrom bs e ≤ q)), S.places.find? (fun x => x.ivl.v = v && !x.ivl.reload) with
      | some e, _ => some (3, pair, e.slot)
      | none, some x => if t == .ty .mo then some (2, false, x.reg - 1) else some (0, pairTy t, x.reg)
      | none, none => if param then some (1, pair, paramReg bs v) else none

/-- Where an instruction at position p reads value v: the reload placed there, or where v is. -/
def Scan.readAt (bs : List CBlk) (kernel : Bool) (S : Scan) (v p : Nat) : Loc :=
  match S.places.find? (fun x => x.ivl.v = v && x.ivl.reload && x.ivl.start = p) with
  | some x => if x.ivl.moment then (2, false, x.reg - 1) else (0, decide (x.ivl.need = 2), x.reg)
  | none => (S.locAt bs kernel v p).getD (6, false, 0)

/-- Where an operand slot of an instruction at position p is read; 6 stands for the predicate register and a token, 7 for a target. -/
def Scan.slotLoc (bs : List CBlk) (kernel : Bool) (S : Scan) (c : CInstr) (p : Nat) : Opnd → Loc
  | .val d => S.readAt bs kernel (c.num - d.toNat) p
  | .imm i => (4, false, i.toNat)
  | .pool i => (4, false, 2 ^ 30 + i.toNat)
  | .spec k => (4, false, 2 ^ 31 + k.toNat)
  | .blk b => (7, false, b.toNat)

/-! ### Operations (R143, R178) -/

/-- A native operation: the position and the word offset of the portable instruction that it serves, its slot and field, the bundles
until its result can be read, those from the first operation of its sequence until the sequence's result can be (0 for none), the
longest latency path from it to the end of its block, and whether the block number in its offset field is still to be linked. -/
structure NOp where
  pos : Nat
  off : Nat
  sl : Slot
  w : Nat
  lat : Nat
  seq : Nat := 0
  rank : Nat := 0
  linked : Bool := false
  deriving DecidableEq, Repr

/-- A latency by the kind of die. -/
def byDie (isN : Bool) (w n : Nat) : Nat := if isN then n else w

/-- Bundles from an operation to its readable result (R178); a load counts latency class 0, and its late arrival holds its consumer
(R179). A tile step's format is SUB of R125: 5 and 6 are bf16 and f16, 7 the moment form (R136). -/
def opLat (isN : Bool) (sl : Slot) (w : Nat) : Nat :=
  match sl with
  | .s => 2
  | .v0 | .v1 =>
    let c := slotOpc w .v0
    if c ∈ [0x03, 0x04, 0x05, 0x06, 0x25, 0x26, 0x27, 0x28, 0x2E, 0x2F, 0x30] then byDie isN 5 6
    else if 0x20 ≤ c ∧ c ≤ 0x23 then byDie isN 36 42
    else if c = 0x29 then byDie isN 30 34
    else if c = 0x31 ∨ c = 0x32 then byDie isN 6 8
    else if 0x33 ≤ c ∧ c ≤ 0x36 then byDie isN 4 6
    else if c = 0x37 then byDie isN 30 44
    else if c = 0x38 then byDie isN 34 50
    else if c = 0x3A ∨ c = 0x3B then (if (vFields w).a.getLsbD 2 then byDie isN 9 12 else byDie isN 5 6)
    else if c = 0x3E then byDie isN 6 8
    else byDie isN 3 4
  | .f => if slotOpc w .f = 0xB then 8 else 14
  | .l => 10
  | .m =>
    (match slotOpc w .m, bits w 10 3 with
     | 1, f => if f = 5 ∨ f = 6 then byDie isN 27 36 else if f = 7 then byDie isN 25 34 else byDie isN 24 32
     | _, _ => byDie isN 8 10)
  | .a => 1

/-- The slot of a number. -/
def slotOfNat (n : Nat) : Slot := nth .a allSlots n

/-- The index of the operand buffer by the kind of die (R161). -/
def bufOf (isN : Bool) : Nat := if isN then 255 else 511

/-- What an operation uses. -/
def NOp.uses (bi : Nat) (x : NOp) : Uses := slotUses bi x.sl x.w

/-- An operation is legal in a bundle of its own: its fields, its registers and its ports. -/
def alone (bi : Nat) (sl : Slot) (w : Nat) : Bool :=
  w != 0 && slotLegal sl w && Uses.inRange bi (slotUses bi sl w) && portsOk (portsOf [slotUses bi sl w])

/-- The free bits of a fixed operation filled: bit 40 of the filling puts a V operation into V1. Where the filling is not legal, the first
choice of ports that is. -/
def fillForm (bi fill : Nat) (f : Form) : Slot × Nat :=
  let sl := if f.sl == .v0 && fill.testBit 40 then Slot.v1 else f.sl
  let ports := [0, 9, 19, 33].flatMap (fun a => [0, 15, 20].map (fun b => (2 ^ a + 2 ^ b) &&& f.free))
  let w := f.val + (fill &&& f.free)
  (sl, ((w :: ports.map (f.val + ·)).find? (alone bi sl)).getD w)

/-- An operation of the translator's own, at a position. -/
def ownOp (isN : Bool) (pos off : Nat) (e : Nat × Nat) : NOp :=
  { pos := pos, off := off, sl := slotOfNat e.1, w := e.2, lat := opLat isN (slotOfNat e.1) e.2 }

/-- Spill stores or reloads of a register's words: `spst` and `spld`, and with the tag `stt` and `ldt` (R151, R172). -/
def spillWords (store ref : Bool) (reg slot n : Nat) : List (Nat × Nat) :=
  if ref then [(4, (if store then 0x15 else 0x14) * 2 ^ 34 + reg * 2 ^ 21 + slot * 2 ^ 6 + 3 * 2 ^ 3)]
  else (List.range n).map (fun k => (4, (if store then 0x12 else 0x13) * 2 ^ 34 + (reg + k) * 2 ^ 21 + (slot + k) * 2 ^ 6 + 2 * 2 ^ 3))

/-- What a translation works on: the die kind, the accumulator mode, whether the unit is a kernel, its segment, the blocks of the whole
function, the allocation and the MARK positions. -/
structure Unit_ where
  isN : Bool
  amode : Nat
  kernel : Bool
  seg : Nat
  bs : List CBlk
  al : Scan
  marks : List Nat
  /-- counted loops are modulo-scheduled: not in early service (R406) -/
  modulo : Bool
  deriving DecidableEq, Repr

/-- Block k lies in the unit translated (R138). -/
def Unit_.has (u : Unit_) (k : Nat) : Bool := u.seg = 0 || (u.bs[k]?).any (fun b => b.seg = u.seg)

/-- The blocks of the unit as the next one in function order, for a fall through. -/
def Unit_.next (u : Unit_) (k : Nat) : Nat := ((List.range u.bs.length).find? (fun j => decide (k < j) && u.has j)).getD u.bs.length

/-- The segment exits of the unit by a target: block, position, instruction and target (R326). -/
def Unit_.exits (u : Unit_) : List (Nat × Nat × CInstr × Target) :=
  (posInstrs u.bs).flatMap (fun (p, k, c) =>
    if u.has k then (c.i.targets.filter (fun t => match u.bs[t.blk.toNat]?, u.bs[k]? with
      | some d, some b => d.seg != b.seg
      | _, _ => false)).map (fun t => (k, p, c, t))
    else [])

/-- The bundles of target t of an instruction at position p are those of this block, or, of a segment exit, of the stub that stands for it
after the unit's blocks. -/
def Unit_.entryOf (u : Unit_) (p : Nat) (t : Nat) : Nat :=
  let e := u.exits.findIdx (fun e => e.2.1 = p && e.2.2.2.blk.toNat = t)
  if e < u.exits.length then u.bs.length + e else t

/-- The register through which values pass on their way to a spill slot. -/
def Unit_.via (u : Unit_) (uniform : Bool) : Nat :=
  1 + Config.scratch u.isN uniform % ((if uniform then 512 else bufOf u.isN) - 1)

/-- Register words into spill slots from where they stand: a vector register, an entry of the moment file with its mean first, or uniform
registers (R102, R187). -/
def Unit_.spillFrom (u : Unit_) (pos off : Nat) (ref : Bool) (slot words : Nat) (l : Loc) : List NOp :=
  let own := ownOp u.isN pos off
  let r := u.via false
  match l with
  | (0, _, n) => (spillWords true ref n slot words).map own
  | (1, _, n) => (List.range words).flatMap (fun k => [own (1, 0x39 * 2 ^ 34 + r * 2 ^ 20 + (n + k) * 2 ^ 10), own (4, 0x12 * 2 ^ 34 + r * 2 ^ 21 + (slot + k) * 2 ^ 6 + 2 * 2 ^ 3)])
  | (2, _, n) => (List.range 2).flatMap (fun k => [own (1, 0x3C * 2 ^ 34 + r * 2 ^ 20 + (n + 128 * k) * 2 ^ 10), own (4, 0x12 * 2 ^ 34 + r * 2 ^ 21 + (slot + k) * 2 ^ 6 + 2 * 2 ^ 3)])
  | (3, _, n) =>
    if n = slot then []
    else (List.range words).flatMap (fun k => [own (4, 0x13 * 2 ^ 34 + r * 2 ^ 21 + (n + k) * 2 ^ 6 + 2 * 2 ^ 3), own (4, 0x12 * 2 ^ 34 + r * 2 ^ 21 + (slot + k) * 2 ^ 6 + 2 * 2 ^ 3)])
  | _ => (List.range words).map (fun k => own (4, 0x12 * 2 ^ 34 + r * 2 ^ 21 + (slot + k) * 2 ^ 6 + 2 * 2 ^ 3))

/-- The spill store of an entry, at a position: from the registers of its value, or, of a kernel's parameter that has none, from its uniform
registers. A header argument without registers is written to its slot by the transfers. -/
def Unit_.storeOps (u : Unit_) (pos off : Nat) (e : Spilt) : List NOp :=
  let t := valTy u.bs e.v
  let ref := t == some (.ty .ref)
  match u.al.places.find? (fun x => x.ivl.v = e.v && !x.ivl.reload) with
  | some x => u.spillFrom pos off ref e.slot e.words (if t == some (.ty .mo) then (2, false, x.reg - 1) else (0, false, x.reg))
  | none => if u.kernel && decide (defPos (linear u.bs) e.v = 0) then u.spillFrom pos off ref e.slot e.words (1, false, paramReg u.bs e.v) else []

/-- The reload placed for a value, at a position: into its register, or into its entry of the moment file, the mean first. -/
def Unit_.loadOps (u : Unit_) (pos off : Nat) (x : Place) : List NOp :=
  match u.al.spilt.find? (fun e => e.v = x.ivl.v) with
  | none => []
  | some e =>
    let own := ownOp u.isN pos off
    let t := valTy u.bs e.v
    if t == some (.ty .mo) then
      let r := u.via false
      (List.range 2).flatMap (fun k => [own (4, 0x13 * 2 ^ 34 + r * 2 ^ 21 + (e.slot + k) * 2 ^ 6 + 2 * 2 ^ 3), own (1, 0x3D * 2 ^ 34 + (x.reg - 1 + 128 * k) * 2 ^ 20 + r * 2 ^ 10)])
    else (spillWords false (t == some (.ty .ref)) x.reg e.slot e.words).map own

/-- The parameters that a vector operation reads, copied once by `ubc`, a mo value on into the moment file (R187). -/
def Unit_.paramOps (u : Unit_) (pos off : Nat) : List NOp :=
  let own := ownOp u.isN pos off
  let r := u.via false
  if !u.kernel then []
  else
    (List.range ((u.bs.head?).elim 0 (fun b => b.args.length))).flatMap (fun v =>
      match u.al.places.find? (fun x => x.ivl.v = v && !x.ivl.reload) with
      | none => []
      | some x =>
        let s := paramReg u.bs v
        if x.ivl.moment then
          (List.range 2).flatMap (fun k => [own (1, 0x39 * 2 ^ 34 + r * 2 ^ 20 + (s + k) * 2 ^ 10), own (1, 0x3D * 2 ^ 34 + (x.reg - 1 + 128 * k) * 2 ^ 20 + r * 2 ^ 10)])
        else (List.range x.ivl.need).map (fun k => own (1, 0x39 * 2 ^ 34 + (x.reg + k) * 2 ^ 20 + (s + k) * 2 ^ 10)))

/-- A transfer writes the arguments whose header values stand in spill slots only to those slots. -/
def Unit_.argStores (u : Unit_) (p : Nat) (c : CInstr) : List NOp :=
  c.i.targets.flatMap (fun t =>
    match u.bs[t.blk.toNat]? with
    | none => []
    | some d =>
      if !u.has t.blk.toNat then []
      else
        t.args.zipIdx.flatMap (fun (a, j) =>
          match u.al.spilt.find? (fun e => e.v = d.first + j) with
          | some e =>
            if u.al.places.any (fun x => x.ivl.v = e.v && !x.ivl.reload) then []
            else u.spillFrom p c.off (valTy u.bs e.v == some (.ty .ref)) e.slot e.words (u.al.slotLoc u.bs u.kernel c p a)
          | none => []))

/-- Where the arguments of target t stand at its header. -/
def Unit_.argLocs (u : Unit_) (t : Target) : List Loc :=
  match u.bs[t.blk.toNat]? with
  | none => []
  | some d => (List.range d.args.length).map (fun j => (u.al.locAt u.bs u.kernel (d.first + j) (headPos u.bs t.blk.toNat + 1)).getD (6, false, 0))

/-- The function reads one special function of a register into a register: the one operation is all of it (R101). -/
def loneF (x : Locs) : List Form → Bool
  | [f] => f.sl == .f && x.d.isSome && (x.o 0).isSome
  | _ => false

/-- The sequence of the instruction at position p of block k: the operations that the spec fixes, with what it leaves free around them. What
follows a committing operation stands after its MARK, with the next instruction. A branch to the next block falls through. -/
def Unit_.sequence (u : Unit_) (k p : Nat) (c : CInstr) : List NOp :=
  let bi := bufOf u.isN
  let dst := if c.i.resultTy.isSome then some ((u.al.locAt u.bs u.kernel c.num (p + 1)).getD (6, false, 0)) else none
  let x : Locs := { ops := c.i.slots.map (u.al.slotLoc u.bs u.kernel c p), dst := dst }
  let cfg := fun (part : Nat) => Config.lower u.isN u.amode part c.i x.ops dst (c.i.targets.map u.argLocs)
  let seq := (seqLat u.isN c.i).getD 0
  let op := fun (pos off : Nat) (linked : Bool) (e : Slot × Nat) =>
    ({ pos := pos, off := off, sl := e.1, w := e.2, lat := opLat u.isN e.1 e.2, seq := seq, linked := linked } : NOp)
  let glue := fun (part pos off : Nat) =>
    ((cfg part).map (fun e => (slotOfNat e.1, e.2 % 2 ^ 40))).filterMap (fun e =>
      if freeOp (isMoment c.i) e.1 e.2 && alone bi e.1 e.2 then some (op pos off false e) else none)
  let one := fun (os : List NOp) => (match os with
    | [o] => if seq = 0 then [o] else [{ o with lat := seq, seq := 0 }]
    | os => os)
  match nativeForms u.kernel c.i x with
  | none => one (glue 2 p c.off)
  | some ([], []) => []
  | some (pre, post) =>
    let fill := fun (j : Nat) (f : Form) => fillForm bi ((nth (0, 0) (cfg (3 + j)) 0).2) f
    let branch := fun (f : Form) => f.sl == .s && (slotOpc f.val .s == 4 || slotOpc f.val .s == 5)
    let toward := fun (w : Nat) => w - w % 2 ^ 22 + u.entryOf p (w % 2 ^ 22)
    let pre := pre.zipIdx.filterMap (fun (f, j) =>
      let e := fill j f
      if branch f then
        (if slotOpc f.val .s = 4 ∧ u.entryOf p (f.val % 2 ^ 22) = u.next k then none else some (op p c.off true (e.1, toward e.2)))
      else some (op p c.off false e))
    let nextOff := c.off + c.len
    let bare : Bool := (nativeForms u.kernel c.i x).any (fun fs => loneF x fs.1)
    let last := if c.i.commits then (p + 1, nextOff) else (p, c.off)
    (if bare then [] else glue 0 p c.off) ++ one pre ++ post.zipIdx.map (fun (f, j) => op (p + 1) c.off false (fill (pre.length + j) f))
      ++ (if bare ∨ c.i.isTransfer then [] else glue 1 last.1 last.2)

/-- The operations of the instruction at position p of block k: its reloads, the stores of a split there, its own sequence, and the store
of a value defined and spilled there (R143). -/
def Unit_.instrOps (u : Unit_) (k p : Nat) (c : CInstr) : List NOp :=
  let loads := (u.al.places.filter (fun x => x.load && x.ivl.start = p)).flatMap (u.loadOps p c.off)
  let here := u.al.spilt.filter (fun e => e.store = p)
  let (late, early) := here.partition (fun e => c.i.resultTy.isSome && e.v = c.num)
  let seq := u.sequence k p c
  let (tail, main) := seq.partition (fun x => x.linked || (x.sl == .s && (slotOpc x.w .s == 8 || slotOpc x.w .s == 9)))
  loads ++ early.flatMap (u.storeOps p c.off) ++ main ++ u.argStores p c ++ tail
    ++ late.flatMap (if c.i.commits then u.storeOps (p + 1) (c.off + c.len) else u.storeOps p c.off)

/-- The operations of block k in program order: at its head `sjoin` where sides rejoin (R148), the entry's copies, and the stores of
its spilled arguments. -/
def Unit_.blockOps (u : Unit_) (k : Nat) : List NOp :=
  match u.bs[k]? with
  | none => []
  | some b =>
    let h := headPos u.bs k
    let off := (b.body.head?).elim b.off (·.off)
    let join := u.bs.zipIdx.any (fun (d, j) => d.diverges && ipdom (cfgOf u.bs) j == some k)
    (if join then [ownOp u.isN (h + 1) off (0, 0x06 * 2 ^ 26)] else [])
      ++ (if k = 0 then u.paramOps (h + 1) off else [])
      ++ (u.al.spilt.filter (fun e => e.store = h)).flatMap (u.storeOps (h + 1) off)
      ++ (b.body.zipIdx.flatMap (fun (c, j) => u.instrOps k (h + 1 + j) c))

/-! ### Index registers and the float mode word (R181, R412) -/

/-- An `rget` or `rset`. -/
def relative (x : NOp) : Bool := (x.sl == .v0 || x.sl == .v1) && (slotOpc x.w x.sl == 0x3A || slotOpc x.w x.sl == 0x3B)

/-- The array that an instruction reads or writes: its slot and element type. -/
def arraySlot : Instr → Option (Opnd × Ty)
  | .aget _ e a _ => some (a, e)
  | .aset _ e _ a _ _ => some (a, e)
  | _ => none

/-- The `sxset` of the index register of a relative access: the array of the instruction that it serves, in its registers (R412). An
`aset` writes those of its result, into which it has copied the source (R96). -/
def Unit_.setsIndex (u : Unit_) (x : NOp) : List NOp :=
  match ((posInstrs u.bs).find? (fun e => e.1 = x.pos)).map (fun e => e.2.2) with
  | none => []
  | some c =>
    match arraySlot c.i with
    | none => []
    | some (a, e) =>
      let v := match c.i, a with | .aset .., _ => c.num | _, .val d => c.num - d.toNat | _, _ => 0
      match u.al.locAt u.bs u.kernel v (x.pos + 1), valTy u.bs v with
      | some (0, _, reg), some (.arr _ len) =>
        [ownOp u.isN x.pos x.off (0, 0x0D * 2 ^ 26 + (vFields x.w).a.toNat % 4 * 2 ^ 24 + reg * 2 ^ 15 + len.toNat * 2 ^ 9
          + (if e == .i64 then 2 ^ 8 else 0))]
      | _, _ => []

/-- The operations of a region with one `sxset` for each index register before its first relative access (R412). -/
def Unit_.withIndexes (u : Unit_) (xs : List NOp) : List NOp :=
  (xs.foldl (fun (a : List Nat × List NOp) x =>
    let k := (vFields x.w).a.toNat % 4
    if relative x && !a.1.contains k then (k :: a.1, a.2 ++ u.setsIndex x ++ [x]) else (a.1, a.2 ++ [x])) ([], [])).2

/-- The instruction at a position. -/
def Unit_.instrAt (u : Unit_) (p : Nat) : Option Instr := ((posInstrs u.bs).find? (fun e => e.1 = p)).map (fun e => e.2.2.i)

/-- The operations of a region with `ssetfm` before the first that reads the float mode word, and wherever the next asks for another
(R181). -/
def Unit_.withModes (u : Unit_) (bi : Nat) (il : Bool) (xs : List NOp) : List NOp :=
  (xs.foldl (fun (a : Option Nat × List NOp) x =>
    if (x.uses bi).rd.contains .fmw then
      let w := (u.instrAt x.pos).elim 0 (fmwOf il)
      if a.1 = some w then (a.1, a.2 ++ [x]) else (some w, a.2 ++ [ownOp u.isN x.pos x.off (0, 0x0C * 2 ^ 26 + w), x])
    else (a.1, a.2 ++ [x])) (none, [])).2

/-! ### List scheduling (R145) -/

/-- Operations that keep their program order whatever registers they use: memory, engine, matrix and control operations (R150). -/
def orderedOp (x : NOp) : Bool := x.sl == .l || x.sl == .a || x.sl == .m || (x.sl == .s && decide (4 ≤ slotOpc x.w .s))

/-- A branch, return or exit, which goes last of its block. -/
def tailOp (x : NOp) : Bool := x.sl == .s && (slotOpc x.w .s == 4 || slotOpc x.w .s == 5 || slotOpc x.w .s == 8 || slotOpc x.w .s == 9)

/-- The bundles that must lie between operation x and a later operation y, and whether a SYNC must stand between them: none where
they are independent. A branch and a committing operation go last (R147). -/
def opDep (bi : Nat) (x y : NOp) : Option (Nat × Bool) :=
  let u := x.uses bi
  let v := y.uses bi
  let cross := x.sl != y.sl
  let raw := u.writes.any (fun r => v.reads.contains r) || (u.push && v.preds)
  let waw := u.writes.any (fun r => v.writes.contains r) || (u.push && v.push)
  let war := u.reads.any (fun r => v.writes.contains r) || (u.preds && v.push)
  if raw || waw || war then some (if cross then 1 else if raw then max 1 x.lat else if waw then max 1 (x.lat + 1 - y.lat) else 1, cross)
  else if tailOp y || slotCommits y.sl y.w then some (0, false)
  else if orderedOp x && orderedOp y then some (1, cross)
  else none

/-- The result of operation x's sequence is read by y, of another instruction, and its whole latency counts from its first operation
(R68, R111). -/
def seqDep (bi : Nat) (x y : NOp) : Bool :=
  decide (x.seq ≠ 0) && decide (x.pos ≠ y.pos) && (let u := x.uses bi; let v := y.uses bi
    u.writes.any (fun r => v.reads.contains r) || (u.push && v.preds))

/-- Dependences of each operation on earlier ones: number, bundles, SYNC. -/
def depsOf (bi : Nat) (ops : List NOp) : List (List (Nat × Nat × Bool)) :=
  ops.zipIdx.map (fun (y, j) =>
    let before := ops.take j
    before.zipIdx.filterMap (fun (x, i) => (opDep bi x y).map (fun d => (i, d.1, d.2)))
      ++ before.filterMap (fun x => if seqDep bi x y then some (before.findIdx (fun z => z.pos = x.pos && z.seq = x.seq), x.seq, false) else none))

/-- The operations of a block with the longest latency path from each to the block's end, computed from the last. -/
def ranked (bi : Nat) (ops : List NOp) : List NOp :=
  let deps := depsOf bi ops
  let paths := ((List.range ops.length).reverse).foldl (fun (ps : List Nat) i =>
    let own := ((ops[i]?).map (·.lat)).getD 0
    let best := (deps.zipIdx.filterMap (fun (ds, j) => (ds.find? (fun d => d.1 = i)).map (fun d => max d.2.1 own + nth 0 ps j))).foldl max own
    modifyAt (fun _ => best) ps i) (List.replicate ops.length 0)
  ops.zipIdx.map (fun (x, i) => { x with rank := nth 0 paths i })

/-- Operation x may join the others of a bundle: its slot is free, nothing clashes, and ports do (R164, R165). -/
def fits (bi : Nat) (row : List NOp) (x : NOp) : Bool :=
  row.all (fun y => y.sl != x.sl && !clash true (y.uses bi) (x.uses bi)) && portsOk (portsOf ((row ++ [x]).map (NOp.uses bi)))

/-- One bundle: of the ready operations of each slot, the one with the longest path, then the earliest, the S slot last. -/
def fillRow (bi : Nat) (ops : List NOp) (deps : List (List (Nat × Nat × Bool))) (t : Nat) (at_ : List (Option Nat)) :
    List (Option Nat) :=
  (allSlots.drop 1 ++ allSlots.take 1).foldl (fun at_ sl =>
    let row := (ops.zip at_).filterMap (fun e => if e.2 = some t then some e.1 else none)
    let ready := ops.zipIdx.filter (fun (x, i) => x.sl == sl && (nth none at_ i).isNone && fits bi row x &&
      (nth [] deps i).all (fun d => match nth none at_ d.1 with | some b => decide (b + d.2.1 ≤ t) | none => false))
    match ready.foldl (fun (m : Option (NOp × Nat)) (x, i) => match m with
        | none => some (x, i)
        | some (y, j) => if y.rank < x.rank then some (x, i) else some (y, j)) none with
    | none => at_
    | some (_, i) => modifyAt (fun _ => some t) at_ i) at_

/-- The bundle of every operation of a region, bundle by bundle; one whose own reads clash at their ports has a bundle to itself at the end. -/
def listSchedule (bi : Nat) (ops : List NOp) : List Nat :=
  let deps := depsOf bi ops
  let n := ops.foldl (fun n x => n + max x.lat x.seq + 1) 1
  let at_ := (List.range n).foldl (fun at_ t => if at_.all Option.isSome then at_ else fillRow bi ops deps t at_) (List.replicate ops.length none)
  let m := at_.foldl (fun m e => max m (e.getD 0)) 0
  at_.zipIdx.map (fun (e, i) => e.getD (m + 1 + i))

/-- The bundles of a region: its operations by bundle, an empty bundle at least. -/
def rowsOf (ops : List NOp) (at_ : List Nat) : List (List NOp) :=
  (List.range (at_.foldl (fun m t => max m (t + 1)) 1)).map (fun t => (ops.zip at_).filterMap (fun e => if e.2 = t then some e.1 else none))

/-- A bundle to be emitted: its operations, the header bits, its block, and of a MARK the word offset at which execution resumes. -/
structure Row where
  ops : List NOp
  mark : Bool
  sync : Bool
  stop : Bool
  il : Bool
  blk : Nat
  port : Nat
  deriving DecidableEq, Repr

/-- SYNC bits: a bundle with an operation that depends across slots on one since the last SYNC (R163). -/
def syncRows (bi : Nat) : List NOp → List Row → List Row
  | _, [] => []
  | since, r :: rest =>
    let need := !r.sync && r.ops.any (fun y => since.any (fun x => match opDep bi x y with | some (_, c) => c | none => false))
    let r := { r with sync := r.sync || need }
    r :: syncRows bi (if r.sync then r.ops else since ++ r.ops) rest

/-- STOP bits: an instruction group ends where one is asked for, before a bundle that clashes with it, and at the end of a block (R164). -/
def stopRows (bi : Nat) : List NOp → List Row → List Row
  | _, [] => []
  | _, [r] => [{ r with stop := true }]
  | grp, r :: q :: rest =>
    let grp := grp ++ r.ops
    let cut := r.stop || decide (r.blk ≠ q.blk) || grp.any (fun x => q.ops.any (fun y => clash false (x.uses bi) (y.uses bi)))
    { r with stop := cut } :: stopRows bi (if cut then [] else grp) (q :: rest)

/-! ### Modulo scheduling (R146) -/

/-- A value that is one, stepped by an immediate or a constant any number of times. -/
def steppedBy (bs : List CBlk) : Nat → (v u : Nat) → Bool
  | 0, v, u => v == u
  | f + 1, v, u => v == u || (match (bs.flatMap (·.body)).find? (fun c => c.num = u && c.i.resultTy.isSome) with
      | some c =>
        let const := fun (o : Opnd) => (match o with | .imm _ | .pool _ => true | _ => false)
        let prev := fun (o : Opnd) => (match o with | .val d => decide (d.toNat ≤ c.num) && steppedBy bs f v (c.num - d.toNat) | _ => false)
        (match c.i with
         | .add _ _ _ a b => (prev a && const b) || (const a && prev b)
         | .sub _ _ _ a b => prev a && const b
         | _ => false)
      | none => false)

/-- The compares of header k, of a loop whose last block is j, that make it countable: of an induction value, one that every back edge
passes stepped by an immediate or a constant, or that value stepped, with a bound that the loop does not change. -/
def loopTests (bs : List CBlk) (k j : Nat) : List CInstr :=
  match bs[k]? with
  | none => []
  | some b =>
    let body := (bs.take (j + 1)).drop k
    let fuel := bs.length + 1
    let passed := fun (a : Nat) => body.flatMap (fun d => match d.body.getLast? with
      | none => []
      | some c => (c.i.targets.filter (fun t => t.blk.toNat = k)).map (fun t => match t.args[a]? with
        | some (.val x) => if x.toNat ≤ c.num then some (c.num - x.toNat) else none
        | _ => none))
    let induct := (List.range b.args.length).filter (fun a =>
      let us := passed a
      !us.isEmpty && us.all (fun u => match u with | some u => u != b.first + a && steppedBy bs fuel (b.first + a) u | none => false))
    let inv := fun (c : CInstr) (o : Opnd) => (match o with
      | .val d => decide (d.toNat ≤ c.num) && decide (c.num - d.toNat < b.first)
      | .imm _ | .pool _ | .spec _ => true
      | .blk _ => false)
    let ind := fun (c : CInstr) (o : Opnd) => (match o with
      | .val d => decide (d.toNat ≤ c.num) && induct.any (fun a => steppedBy bs fuel (b.first + a) (c.num - d.toNat))
      | _ => false)
    b.body.filter (fun c => match c.i with
      | .cmp _ _ _ _ x y => (ind c x && inv c y) || (inv c x && ind c y)
      | _ => false)

/-- The compare of a countable innermost loop of one block, which only the branch at its end reads: the loop takes a hardware loop counter. -/
def counted (bs : List CBlk) (k : Nat) : Option CInstr :=
  if (loopsOf bs).filter (fun l => l.1 == k) = [(k, k)] then
    match (bs[k]?).bind (fun b => b.body.getLast?) with
    | some ⟨_, _, n, Instr.cbr _ (.val d) _ _⟩ =>
      (loopTests bs k k).find? (fun c => decide (c.num + d.toNat = n ∧ usesOf bs c.num = [headPos bs (k + 1) - 1]))
    | _ => none
  else none

/-- An operation without a guard, which no stage predicate masks; `ssetfm` and `sxset` set the same in every iteration. -/
def unguarded (x : NOp) : Bool :=
  x.sl == .a || x.sl == .m || (x.sl == .s && !(slotOpc x.w .s == 0x0C || slotOpc x.w .s == 0x0D))

/-- Operations that stay in the last stage (R181): gated, committing and tile-writing ones, those without a guard, and those that write a
register whose value is live at the loop header, where the kernel MARK's map describes the oldest unfinished iteration (R184). -/
def lastStage (bi : Nat) (held : List Res) (x : NOp) : Bool :=
  unguarded x || (x.sl == .f && slotOpc x.w .f == 0xB)
    || (x.sl == .l && !(slotOpc x.w .l == 1 || slotOpc x.w .l == 2 || slotOpc x.w .l == 0x13 || slotOpc x.w .l == 0x14))
    || (x.uses bi).writes.any held.contains

/-- The earliest bundle from t at which operation x has its row of an initiation interval free, n bundles looked at. -/
def moduloSlot (bi ii : Nat) (done : List (NOp × Nat)) (x : NOp) : Nat → Nat → Option Nat
  | 0, _ => none
  | n + 1, t =>
    if fits bi ((done.filter (fun e => e.2 % ii = t % ii)).map (·.1)) x then some t else moduloSlot bi ii done x n (t + 1)

/-- Every dependence within an iteration and on the one before holds at an interval. -/
def moduloOk (bi ii : Nat) (done : List (NOp × Nat)) : Bool :=
  done.zipIdx.all (fun ((x, t), i) => done.zipIdx.all (fun ((y, r), j) =>
    let d := (opDep bi x y).map (·.1)
    let d := if seqDep bi x y then some (max (d.getD 0) x.seq) else d
    match d with
    | none => true
    | some d => (!decide (i < j) || decide (t + d ≤ r)) && (decide (i < j) || decide (t + d ≤ r + ii))))

/-- The bundles of one iteration of a loop body at an interval: in program order, each as early as its dependences and rows allow, with
the last stage for what must stand there. Where an operation has no guard there is one stage only. -/
def moduloAt (bi ii : Nat) (held : List Res) (ops : List NOp) : Option (List (NOp × Nat)) :=
  let placed := ops.foldl (fun (acc : Option (List (NOp × Nat))) y => acc.bind (fun done =>
    let e := done.foldl (fun m (x, t) => match opDep bi x y with | some (d, _) => max m (t + (if seqDep bi x y then max d x.seq else d)) | none => m) 0
    (moduloSlot bi ii done y ii e).map (fun t => done ++ [(y, t)]))) (some [])
  placed.bind (fun done =>
    let top := done.foldl (fun m e => max m (e.2 / ii)) 0
    let done := done.map (fun (x, t) => if lastStage bi held x then (x, top * ii + t % ii) else (x, t))
    if decide (top ≤ 7) && (decide (top = 0) || !ops.any unguarded) && moduloOk bi ii done then some done else none)

/-- A modulo-scheduled loop: the interval and the bundle of every operation of one iteration. -/
def moduloSchedule (bi : Nat) (held : List Res) (ops : List NOp) : Option (Nat × List (NOp × Nat)) :=
  let most := (ops.foldl (fun n x => n + max x.lat x.seq + 1) 1)
  ((List.range most).map (· + 1)).findSome? (fun ii => (moduloAt bi ii held ops).map (fun d => (ii, d)))

/-- An operation of a stage under its stage predicate (R169): the guard field of a V, F or L operation without one. -/
def staged (s : Nat) (x : NOp) : NOp :=
  let put := fun (lo : Nat) => if bits x.w lo 4 = 0 then { x with w := x.w + (8 + s) * 2 ^ lo } else x
  match x.sl with
  | .v0 | .v1 => put 29
  | .f => put 24
  | .l => put 30
  | _ => x

/-! ### Blocks as bundles (R147, R149, R164) -/

/-- The regions of a block: the operations between MARKs, each with the word offset at its start and whether a MARK stands there. -/
def regionsOf (marks : List Nat) (ops : List NOp) : List (Bool × Nat × List NOp) :=
  ops.foldl (fun (rs : List (Bool × Nat × List NOp)) x =>
    match rs.getLast? with
    | none => [(marks.contains x.pos, x.off, [x])]
    | some (m, o, xs) =>
      let last := (xs.getLast?).elim 0 (·.pos)
      if marks.any (fun q => decide (last < q) && decide (q ≤ x.pos)) then rs ++ [(true, x.off, [x])]
      else rs.dropLast ++ [(m, o, xs ++ [x])]) []

/-- A loop of header k that holds an operation with DN runs interlocked (R164). -/
def loopDn (bs : List CBlk) (k : Nat) : Bool :=
  (loopsOf bs).any (fun l => l.1 == k && ((bs.take (l.2 + 1)).drop k).any (fun b => b.body.any (fun c => c.i.honoursDn)))

/-- The regions of block k with everything that they emit, each operation with its path to the block's end. -/
def Unit_.regions (u : Unit_) (bi k : Nat) : List (Bool × Nat × List NOp) :=
  let il := (loopsOf u.bs).any (fun l => decide (l.1 ≤ k) && decide (k ≤ l.2) && loopDn u.bs l.1)
  regionsOf u.marks (ranked bi ((regionsOf u.marks (u.blockOps k)).flatMap (fun r => u.withModes bi il (u.withIndexes r.2.2))))

/-- The operations of a region in runs: those of an instruction that is to stand in a loop of its own, and the others between. -/
def runsOf (own : Nat → Bool) (xs : List NOp) : List (Bool × List NOp) :=
  xs.foldl (fun (cs : List (Bool × List NOp)) x =>
    match cs.getLast? with
    | some (d, ys) =>
      if d == own x.pos && (!d || (ys.getLast?).any (fun y => y.pos == x.pos)) then cs.dropLast ++ [(d, ys ++ [x])] else cs ++ [(own x.pos, [x])]
    | none => [(own x.pos, [x])]) []

/-- Operations as rows of a block, list-scheduled; before the first, everything has been written. -/
def plainRows (bi k port : Nat) (xs : List NOp) : List Row :=
  (rowsOf xs (listSchedule bi xs)).zipIdx.map (fun (xs, i) => { ops := xs, mark := false, sync := i == 0, stop := false, il := false, blk := k, port := port })

/-- An interlocked loop of one trip around an operation with DN that stands in no loop (R164): on loop counter 0, or, where it pushes a
predicate, with a backward branch that a pushed 0 never takes. -/
def Unit_.oneTrip (u : Unit_) (bi k port : Nat) (xs : List NOp) : List Row :=
  let pos := (xs.head?).elim 0 (·.pos)
  let off := (xs.head?).elim 0 (·.off)
  let own := ownOp u.isN pos off
  let row := fun (x : NOp) => ({ ops := [x], mark := false, sync := true, stop := true, il := false, blk := k, port := port } : Row)
  let body := (plainRows bi k port xs).zipIdx.map (fun (r, i) => { r with il := i == 0 })
  let n := body.length
  if xs.any (fun x => (x.uses bi).push) then
    body ++ [row (own (1, 0x1F * 2 ^ 34 + 2 ^ 20)), row (own (0, 0x05 * 2 ^ 26 + 2 ^ 25 + (2 ^ 22 - (n + 1))))]
  else
    let s := u.via true
    [row (own (0, 0x02 * 2 ^ 26 + s * 2 ^ 17 + 1)), row (own (0, 0x0B * 2 ^ 26 + s * 2 ^ 12 + n))]
      ++ body.zipIdx.map (fun (r, i) => if i + 1 = n then { r with stop := true } else r)

/-- The rows of a region. -/
def Unit_.regionRows (u : Unit_) (bi k : Nat) (r : Bool × Nat × List NOp) : List Row :=
  let own := fun (p : Nat) => loneDn u.bs k ((u.instrAt p).any Instr.honoursDn)
  let rows := match r.2.2 with
    | [] => plainRows bi k r.2.1 []
    | xs => (runsOf own xs).flatMap (fun (c : Bool × List NOp) => if c.1 then u.oneTrip bi k r.2.1 c.2 else plainRows bi k r.2.1 c.2)
  rows.zipIdx.map (fun (x, i) => { x with mark := r.1 && i == 0 })

/-- The registers of the values live at block k's header. -/
def Unit_.heldAt (u : Unit_) (k : Nat) : List Res :=
  (liveAt u.bs ((u.bs[k]?).elim 0 (fun b => b.off + 1))).flatMap (fun v =>
    match u.al.locAt u.bs u.kernel v (headPos u.bs k + 1) with
    | some (0, _, n) => (List.range ((valTy u.bs v).elim 1 regsOf)).map (fun j => Res.g (n + j))
    | some (1, _, n) => (List.range ((valTy u.bs v).elim 1 paramWords)).map (fun j => Res.s (n + j))
    | some (2, _, n) => [Res.m n]
    | _ => [])

/-- The rows of the countable loop of block k on loop counter 0 (R146, R169): the trip count and `sloop`, the body without its compare and
its branch, and a branch where the exit does not follow. A body of one region under one mode word is modulo-scheduled, another has one
stage; none where an operation of the body pushes a predicate or reads a depth, which the stage predicates take up. -/
def Unit_.loopRows (u : Unit_) (bi k : Nat) (mark : Bool) (test : CInstr) : Option (List Row) :=
  let h := headPos u.bs k
  let body : List CInstr := (u.bs[k]?).elim [] (·.body)
  let off := (body.head?).elim 0 (·.off)
  let testPos := h + 1 + body.findIdx (· == test)
  let regs := (u.regions bi k).map (fun r => (r.1, r.2.1, r.2.2.filter (fun x => !tailOp x && (x.pos != testPos || x.sl == .l))))
  let all := regs.flatMap (fun r => r.2.2)
  let modes := (all.filter (fun x => x.sl == .s && slotOpc x.w .s == 0x0C)).length
  if all.any (fun x => let w := x.uses bi; w.push || w.rd.any (fun r => match r with | .pred _ => true | _ => false)) then none
  else
    let cut := if regs.length ≤ 1 ∧ modes ≤ 1 then moduloSchedule bi (u.heldAt k) all else none
    let (top, rows) : Nat × List Row := match cut with
      | some (ii, done) =>
        (done.foldl (fun m e => max m (e.2 / ii)) 0,
         (List.range ii).map (fun t => ({ ops := (done.filter (fun e => e.2 % ii == t)).map (fun e => staged (e.2 / ii) e.1), mark := false,
                                          sync := false, stop := false, il := false, blk := k, port := off } : Row)))
      | none => (0, regs.flatMap (u.regionRows bi k))
    let n := rows.length
    let rows := rows.zipIdx.map (fun (r, i) => { r with mark := r.mark || (mark && i == 0), sync := r.sync || i == 0,
                                                        il := r.il || (i == 0 && loopDn u.bs k), stop := r.stop || i + 1 == n })
    let at_ := fun (c : CInstr) => (c.i, c.i.slots.map (u.al.slotLoc u.bs u.kernel c (h + 1 + body.findIdx (· == c))))
    let steps := body.filter (fun c => match c.i with | .add .. | .sub .. => true | _ => false)
    let (pre, trip) := Config.lowerTrip u.isN (at_ test) (steps.map at_)
    let pre := (pre.map (fun e => ownOp u.isN (h + 1) off (e.1, e.2 % 2 ^ 40))).filter (fun x => freeOp false x.sl x.w && alone bi x.sl x.w)
    let sloop := ownOp u.isN (h + 1) off (0, 0x0B * 2 ^ 26 + top * 2 ^ 21 + trip % 512 * 2 ^ 12 + n % 4096)
    let last := body.getLast?
    let exit := ((last.elim [] (fun c => c.i.targets)).filter (fun t => t.blk.toNat ≠ k)).head?.map (fun t => u.entryOf (h + body.length) t.blk.toNat)
    let tail : List Row := match exit with
      | some e =>
        if e = u.next k then []
        else [{ ops := [{ ownOp u.isN (h + body.length) (last.elim 0 (·.off)) (0, 0x04 * 2 ^ 26 + e) with linked := true }],
                mark := false, sync := true, stop := true, il := false, blk := k, port := off }]
      | none => []
    if 4095 < n ∨ n = 0 then none
    else
      some ((plainRows bi k off pre ++ [{ ops := [sloop], mark := false, sync := true, stop := true, il := false, blk := k, port := off }]) ++ rows ++ tail)

/-- The bundles of block k: a counted loop on a loop counter, or each region list-scheduled. Early service takes no loop counter (R406). -/
def Unit_.blockRows (u : Unit_) (bi k : Nat) : List Row :=
  let off := ((u.bs[k]?).bind (fun b => b.body.head?)).elim 0 (·.off)
  let mark := u.marks.contains (headPos u.bs k + 1)
  let loop := if u.modulo then (counted u.bs k).bind (u.loopRows bi k mark) else none
  let rows := match loop with
    | some rows => rows
    | none =>
      let rows := (match u.regions bi k with | [] => [(mark, off, [])] | rs => rs).flatMap (u.regionRows bi k)
      rows.zipIdx.map (fun ((r : Row), i) => { r with il := r.il || (i == 0 && loopDn u.bs k) })
  match rows with
  | r :: rest => { r with mark := r.mark || mark, sync := true, port := if mark then off else r.port } :: rest
  | [] => []

/-- The stub of a segment exit other than `hop`: a MARK and the departure, at which its branch goes (R147, R149, R174). -/
def Unit_.stubs (u : Unit_) : List Row :=
  u.exits.zipIdx.filterMap (fun ((_, p, c, _), i) =>
    match c.i with
    | .hop .. => none
    | _ =>
      let fill := (nth (0, 0) (Config.lower u.isN u.amode (64 + i) c.i (c.i.slots.map (u.al.slotLoc u.bs u.kernel c p)) none []) 0).2
      let e := fillForm (bufOf u.isN) fill (aForm 0x0A)
      some { ops := [{ pos := p, off := c.off, sl := e.1, w := e.2, lat := 1 }], mark := true, sync := true, stop := true, il := false,
             blk := u.bs.length + i, port := c.off })

/-- The bundles of the unit, in function order, with its stubs. -/
def Unit_.rows (u : Unit_) : List Row :=
  let bi := bufOf u.isN
  stopRows bi [] (syncRows bi [] ((List.range u.bs.length).flatMap (fun k => if u.has k then u.blockRows bi k else []) ++ u.stubs))

/-- What linking writes into an operation: a branch's target as an offset from its own bundle, and the live map of a departure. -/
def Unit_.linkOp (u : Unit_) (rows : List Row) (here : Nat) (x : NOp) : NOp :=
  if x.linked then
    let k := x.w % 2 ^ 22
    let start := rows.findIdx (fun r => r.blk == k)
    { x with w := x.w - k + (start + 2 ^ 22 - here) % 2 ^ 22 }
  else if x.sl == .a && slotOpc x.w .a == 0x0A then
    let own := ((rows[here]?).elim 0 (·.blk)) - u.bs.length
    let e := match (u.instrAt x.pos) with | some (.hop ..) => u.exits.findIdx (fun e => e.2.1 = x.pos) | _ => own
    { x with w := x.w - x.w % 8192 + ((rows.filter (·.mark)).length + e) % 8192 }
  else x

/-- First bit of a slot's field (R158). -/
def slotLow : Slot → Nat
  | .s => 16 | .v0 => 48 | .v1 => 88 | .f => 128 | .l => 160 | .m => 200 | .a => 224

/-- The 256 bits of a bundle (R158, R159). -/
def Unit_.rowBits (u : Unit_) (rows : List Row) (here : Nat) (r : Row) : Nat :=
  (if r.stop then 1 else 0) + (if r.sync then 2 else 0) + (if r.mark then 4 else 0) + (if r.il then 8 else 0)
    + r.ops.foldl (fun n x => n + (u.linkOp rows here x).w * 2 ^ slotLow x.sl) 0

/-! ### Side tables (R149, R183 to R185) -/

/-- The bundle map: an entry where the portable instruction of a bundle changes; an empty bundle that begins a block is its first's. -/
def bundleMap (rows : List Row) : List (Nat × Nat) :=
  (rows.zipIdx.foldl (fun (m : Option Nat × List (Nat × Nat)) (r, i) =>
    let off : Option Nat := match r.ops with
      | [] => if m.1 = some r.blk then none else some r.port
      | x :: xs => some (xs.foldl (fun a b => if b.pos < a.pos then b else a) x).off
    (some r.blk, if off.isNone ∨ (m.2.getLast?).map (·.2) = off then m.2 else m.2 ++ [(i, off.getD 0)])) (none, [])).2

/-- Value v is in scope at position q: its definition stands before it in its block, or in a block that dominates it (R17). -/
def inScope (bs : List CBlk) (v q : Nat) : Bool :=
  let d := defPos (linear bs) v
  let a := blkOfPos bs d
  let b := blkOfPos bs q
  if a = b then decide (d < q) else !(reachAvoid (cfgOf bs) a).contains b

/-- The records of the values live at a word offset, where at position q they stand as a function gives; under a breakpoint, X records of
values in scope that are not live. -/
def Unit_.recsAt (u : Unit_) (bps : Bool) (off q : Nat) (loc : Nat → Option Loc) : List (Nat × Nat × Bool × Nat) :=
  let lin := linear u.bs
  let live := liveAt u.bs off
  let n := (lin.map (fun e => e.2.1.length)).foldl (· + ·) 0
  (List.range n).filterMap (fun v =>
    if live.contains v then ((loc v).filter (fun l => decide (l.1 ≤ 4))).map (fun l => (v, l))
    else
      match valTy u.bs v with
      | none | some (.ty .tok) | some (.ty .acc) => none
      | some _ => if bps && inScope u.bs v q then some (v, 5, false, 0) else none)

/-- The live maps: of every MARK, and of every segment exit at its target, whose header arguments stand where the transfer reads them. -/
def Unit_.liveMaps (u : Unit_) (bps : Bool) (rows : List Row) : List LiveMap :=
  let lin := linear u.bs
  let posOf := fun (off : Nat) => lin.findIdx (fun e => decide (off ≤ e.1))
  let marks := rows.zipIdx.filterMap (fun (r, i) =>
    if r.mark then
      let q := posOf r.port
      some { bundle := i, exit := false, port := r.port, recs := u.recsAt bps r.port q (fun v => u.al.locAt u.bs u.kernel v q) }
    else none)
  let exits := u.exits.zipIdx.filterMap (fun ((k, p, c, t), i) =>
    (u.bs[t.blk.toNat]?).map (fun d =>
      let off := (d.body.head?).elim d.off (·.off)
      let stub := rows.findIdx (fun r => r.blk == u.bs.length + i)
      let own := (rows.zipIdx.filter (fun (r, _) => r.blk == k && r.ops.any (fun x => x.pos == p && x.sl == .a))).foldl (fun _ e => e.2) 0
      let loc := fun (v : Nat) =>
        if v < d.first ∨ d.first + d.args.length ≤ v then u.al.locAt u.bs u.kernel v p
        else (t.args[v - d.first]?).map (u.al.slotLoc u.bs u.kernel c p)
      { bundle := if stub < rows.length then stub else own, exit := true, port := off, recs := u.recsAt bps off (posOf off) loc }))
  marks ++ exits

/-! ### Region limits (R147) and the outcome (R43, R140, R153) -/

/-- A gated operation of the native level. -/
def gatesOp (x : NOp) : Bool :=
  match x.sl with
  | .l => slotOpc x.w .l ∈ [0x03, 0x05, 0x12, 0x15]
  | .a => slotOpc x.w .a ∈ [1, 2, 3, 4, 0x0A, 0x0B]
  | _ => false

/-- The rows of each restart region. -/
def regionsOfRows (rows : List Row) : List (List Row) :=
  rows.foldl (fun rs r => match rs.getLast? with
    | none => [[r]]
    | some g => if r.mark then rs ++ [[r]] else rs.dropLast ++ [g ++ [r]]) []

/-- The position at which a region passes a limit, with that of its first operation: the 257th bundle, the 65th gated operation, a second
committing operation, or an operation in a bundle behind the committing one. -/
def overRegion (rs : List Row) : Option (Nat × Nat) :=
  let ops := rs.flatMap (·.ops)
  let first := ops.foldl (fun m x => min m x.pos) ((ops.head?).elim 0 (·.pos))
  let behind := ((rs.dropWhile (fun r => !r.ops.any (fun x => slotCommits x.sl x.w))).drop 1).flatMap (·.ops)
  let late := (rs.drop 256).flatMap (·.ops) ++ (ops.filter gatesOp).drop 64 ++ (ops.filter (fun x => slotCommits x.sl x.w)).drop 1 ++ behind
  match late with
  | [] => none
  | x :: xs => some (xs.foldl (fun m y => min m y.pos) x.pos, first)

/-- Allocates and schedules, with a MARK more wherever a region would pass a limit (R147): the unit and its bundles, or the position of
a region limit. -/
def plan (mk : List Nat → Except Nat Unit_) : Nat → List Nat → Except Nat (Unit_ × List Row)
  | 0, _ => .error 0
  | f + 1, more =>
    match mk more with
    | .error p => .error p
    | .ok u =>
      let rows := u.rows
      match (regionsOfRows rows).findSome? overRegion with
      | none => .ok (u, rows)
      | some (p, first) => if p ≤ first ∨ more.contains p then .error p else plan mk f (p :: more)

/-- The word offsets of the instructions at which spill stores and reloads are issued, for the run of a portable group: a reload stands
there once for each `spld` or `ldt`. -/
def Unit_.spillOffs (u : Unit_) : List (Nat × Nat × Nat × Nat) × List Nat :=
  let lin := linear u.bs
  let offAt := fun (p : Nat) => posOff u.bs (if (nth (0, [], []) lin p).2.1.length ≠ 0 ∧ (posInstrs u.bs).all (fun e => e.1 != p) then p + 1 else p)
  (u.al.spilt.map (fun e => (offAt e.store, e.v, e.slot, e.words)),
   (u.al.places.filter (·.load)).flatMap (fun x => List.replicate (if valTy u.bs x.ivl.v == some (.ty .ref) then 1 else x.ivl.words) (offAt x.ivl.start)))

/-- Bytes of a die's translation cache: 256 MiB, in early service 32 MiB within the window (R153, R406). -/
def cacheBytes (s : State) : Nat := if s.full then 2 ^ 28 else 2 ^ 25

/-- The blocks of the `.travel` procedure that a call of the function at fn names (R326). -/
def travelCallee (s : State) (o : Obj) (fn : Nat) (c : Opnd) : Option (List CBlk) :=
  let i := match c with
    | .imm i => some i.toNat
    | .pool k => some (poolEntry s fn k.toNat).toNat
    | _ => none
  (i.bind (tableFn o)).bind (fun f => if (imgFhdr s f).getLsbD 2 then some (blocksOf s f) else none)

/-- What the translation t comes to: a failed verification or a region limit, or the slots, the stack entries and the code (R43, R140,
R153). -/
def outcome (s : State) (t : Xlat) : XSt × Option NCode :=
  match s.objs[t.obj]? with
  | none => (.failed 0 .illegalEncoding, none)
  | some o =>
    match verify s o t.fn t.amode with
    | some (a, c) => (.failed a c, none)
    | none =>
      let bs := blocksOf s t.fn
      let kernel := (imgFhdr s t.fn).toNat % 4 == 1
      let limit := fun (off : Nat) => (XSt.failed (0x20 + 4 * off) .regionLimit, (none : Option NCode))
      let breaks := t.bps.map (fun a => (a - t.fn - 0x20) / 4)
      let mk := fun (more : List Nat) =>
        let marks := markPositions bs kernel breaks more
        (allocate bs kernel t.seg t.budget marks).map (fun al =>
          ({ isN := dieIsN t.die, amode := t.amode, kernel := kernel, seg := t.seg, bs := bs, al := al, marks := marks, modulo := s.full } : Unit_))
      match overCount bs with
      | some p => limit (posOff bs p)
      | none =>
        match plan mk ((linear bs).length + 1) [] with
        | .error p => limit (posOff bs p)
        | .ok (u, rows) =>
          match (if (imgFhdr s t.fn).getLsbD 2 then exitLimit bs (travelCallee s o t.fn) else none) with
          | some off => limit off
          | none =>
            let table := tableBytes (t.fn + 0x20) rows.length (bundleMap rows) (u.liveMaps (!t.bps.isEmpty) rows) u.al.most (stackEntries bs)
            let size := 32 * rows.length + table.length
            if cacheBytes s < size ∨ (t.seg ≠ 0 ∧ 2 ^ 18 < 32 * rows.length) then (.failed 0 .regionLimit, none)
            else
              (.ok u.al.most (stackEntries bs),
               some { bundles := rows.zipIdx.map (fun (r, i) => u.rowBits rows i r), table := table,
                      marks := uniq (u.marks.map (posOff bs)), stores := u.spillOffs.1, loads := u.spillOffs.2 })

end Sys2Proof.Machine
end

