-- ==== Sys2Proof/Machine/Xlate.lean ====
section
/-! DEFINITION. The translator's events: a miss, the end of a translation with what it brings to waiting groups and to blocks placed
without it, and the filling of an instruction store (R43, R152 to R156, R381, R416). -/

namespace Sys2Proof.Machine
open Sys2Proof

/-- TRANSLATION_MISS (R156): a group that stands at an entry without a translation enters it; where the one it waits on is gone it
enters afresh. -/
def execTranslationMiss (g : Nat) (s : State) : Out :=
  .next (match s.groups[g]? with
    | none => s
    | some G =>
      if !G.resident || G.native.isSome then s
      else
        match G.st with
        | .ready => if G.translation.isNone then enterTranslation g s else s
        | .waiting (.translation x) _ =>
          let goes : Bool := match s.xlats[x]? with | some t => t.live && (t.st == .inProgress || t.st == .queued) | none => false
          if goes then s
          else if G.translation.isNone then enterTranslation g s else wake g s
        | _ => s)

/-! ### The cache (R153, R154) -/

/-- A resident, waiting or suspended group runs translation x or waits for it. -/
def pinned (s : State) (x : Nat) : Bool :=
  s.groups.any (fun G => G.runs x || (match G.st with | .waiting (.translation y) _ => x == y | _ => false))

/-- Bytes that an entry takes: bundles and side table. -/
def Xlat.size (t : Xlat) : Nat := match t.code with | some c => 32 * c.bundles.length + c.table.length | none => 0

/-- The bytes in use of a die's cache. -/
def cacheUsed (s : State) (d : Nat) : Nat := (s.xlats.filter (fun t => t.live && decide (t.die = d))).foldl (fun n t => n + t.size) 0

/-- The least recently used entry of a die that is not pinned. -/
def evictable (s : State) (d : Nat) : Option Nat :=
  ((s.xlats.zipIdx.filter (fun (t, x) => t.live && decide (t.die = d) && t.st.isOk && !pinned s x)).foldl
    (fun (m : Option (Nat × Nat)) (t, x) => match m with | none => some (t.used, x) | some (u, y) => if t.used < u then some (t.used, x) else some (u, y))
    none).map (·.2)

/-- Room for n bytes in a die's cache: entries go in order of last use, each counted under 0x42 in a context that waits; none while
every entry is pinned (R154). -/
def makeRoom (d n : Nat) (waiters : List Nat) : Nat → State → Option State
  | 0, s => if cacheUsed s d + n ≤ cacheBytes s then some s else none
  | f + 1, s =>
    if cacheUsed s d + n ≤ cacheBytes s then some s
    else
      match evictable s d with
      | none => none
      | some x => makeRoom d n waiters f
          (countGroups (waiters.take 1) 0x42 { s with xlats := modifyAt (fun t => { t with live := false, code := none }) s.xlats x })

/-! ### Blocks placed without a translation (R416) -/

/-- The groups that wait for translation x at launch entry. -/
def entryWaiters (s : State) (x : Nat) : List Nat :=
  (s.groups.zipIdx.filter (fun (G, _) => G.translation.isNone && (match G.st with | .waiting (.translation y) _ => x == y | _ => false))).map (·.2)

/-- The groups that wait for translation x at a call. -/
def callWaiters (s : State) (x : Nat) : List Nat :=
  (s.groups.zipIdx.filter (fun (G, _) => G.translation.isSome && (match G.st with | .waiting (.translation y) _ => x == y | _ => false))).map (·.2)

/-- The order of R293 among blocks: level, acceptance, block number. -/
def blockBefore (s : State) (a b : Nat) : Bool :=
  match s.blocks[a]?, s.blocks[b]? with
  | some A, some B =>
    (match s.launches[A.launch]?, s.launches[B.launch]? with
     | some L, some M =>
       decide (L.prio < M.prio) || (L.prio == M.prio && (decide (A.launch < B.launch) || (A.launch == B.launch && decide (A.bid < B.bid))))
     | _, _ => false)
  | _, _ => false

/-- Inserts a block in the order of R293. -/
def insertBlock (s : State) (b : Nat) : List Nat → List Nat
  | [] => [b]
  | c :: r => if blockBefore s b c then b :: c :: r else c :: insertBlock s b r

/-- The blocks whose groups wait for x at launch entry, as the translation of their kernel, travel launches apart, in the order of R293. -/
def waitingBlocks (s : State) (x : Nat) : List Nat :=
  let bs := uniq ((entryWaiters s x).filterMap (fun g => (s.groups[g]?).map (·.block)))
  (bs.filter (fun b => match (s.blocks[b]?).bind (fun B => s.launches[B.launch]?) with
    | some L => L.travel.isNone && (s.xlats[x]?).any (fun t => t.keyed s L t.die 0 [L.kaddr])
    | none => false)).foldl (fun l b => insertBlock s b l) []

/-- A block goes back to Unplaced: its range has it again, and its groups never were. -/
def unplace (b : Nat) (s : State) : State :=
  match s.blocks[b]? with
  | none => s
  | some B =>
    { s with
      blocks := modifyAt (fun B => { B with st := .failed }) s.blocks b
      groups := s.groups.map (fun G => if G.block = b then { G with st := .ended, resident := false, sides := [] } else G)
      launches := modifyAt (fun L => { L with ranges := (B.core / 8, B.bid, B.bid + 1) :: L.ranges }) s.launches B.launch }

/-- The spill areas of a block's groups, now that their size is known: none when some core of its crew lacks room. -/
def widenBlock (b : Nat) (L : Launch) (s : State) : Option State :=
  match s.blocks[b]? with
  | none => none
  | some B =>
    let a := spillArea s L (dieOf B.core) 0
    let mine := (s.groups.zipIdx.filter (fun (G, _) => decide (G.block = b))).map (fun (G, g) => (g, G))
    let s0 := { s with groups := s.groups.map (fun G => if G.block = b then { G with spillLen := 0, spill := 0 } else G) }
    let seats := (List.range (2 ^ L.crewLog)).foldl (fun (acc : Option (List (Nat × Nat × Nat))) r =>
      let gs := mine.filter (fun e => e.2.core == B.core + r)
      match acc, allocSpills a (heldRanges s0 L.ctx none (B.core + r)) (gs.map (fun e => e.2.slot)) (gs.map (·.1)) with
      | some l, some t => some (l ++ t)
      | _, _ => none) (some [])
    seats.map (fun l => l.foldl (fun s e => s.updGroup e.1 (fun G => { G with spill := e.2.2, spillLen := a })) s0)

/-- What the cluster does with one block that it placed without the translation (R416). -/
def settleBlock (b : Nat) (s : State) : State :=
  match (s.blocks[b]?).bind (fun B => (s.launches[B.launch]?).map (fun L => (B, L))) with
  | none => s
  | some (B, L) =>
    if overLimit s L (dieOf B.core) 0 then
      ((s.groups.zipIdx.filter (fun (G, _) => decide (G.block = b))).map (·.2)).foldl (fun s g =>
        xlatFault g .regionLimit L.kaddr (s.updGroup g (fun G => if G.st = .ended then G else { G with st := .ready }))) s
    else
      match widenBlock b L s with
      | some s => s
      | none => unplace b s

/-- A group that has arrived at a segment before the translation that sizes its spill area, and waits for it: its area is laid out anew, it
faults where no group fits (R152, R334), and beyond the number that fit it goes back to the records that start on its core. -/
def settleArrived (g : Nat) (s : State) : State :=
  match (s.groups[g]?).bind (fun G => (launchOfBlk s G.block).map (fun L => (G, L))) with
  | none => s
  | some (G, L) =>
    let lim := travelLimit s L G.seg
    let a := spillArea s L (launchDie L) G.seg
    if lim = 0 then xlatFault g .regionLimit L.kaddr (s.updGroup g (fun G => { G with st := .ready }))
    else if G.slot < lim then s.updGroup g (fun G => { G with spill := imgShared s L.kaddr + G.slot * a, spillLen := a })
    else
      { (s.updGroup g (fun G => { G with st := .travelling, resident := false })) with
        recs := { kind := 0, launch := (s.blocks[G.block]?).elim 0 (·.launch), group := g, core := G.core, rlen := 0, inRing := false, at_ := 0 } :: s.recs }

/-- The travelling groups that wait for x at entry, as the translation that sizes their spill areas, the latest first. -/
def waitingArrived (s : State) (x : Nat) : List Nat :=
  ((entryWaiters s x).filter (fun g => (s.groups[g]?).any (fun G => (launchOfBlk s G.block).any (fun L =>
    L.travel.isSome && (s.xlats[x]?).any (fun t => t.keyed s L (launchDie L) G.seg [L.kaddr]))))).reverse

/-! ### The end of a translation -/

/-- What the end of translation x brings (R43, R156, R416): every group that waits goes on or receives it, and the cluster's translator
serves its next request. -/
def finishTranslation (x : Nat) (s : State) : State :=
  match s.xlats[x]? with
  | none => s
  | some t =>
    let calls := callWaiters s x
    let s := if t.st.isOk then (waitingArrived s x).foldl (fun s g => settleArrived g s) ((waitingBlocks s x).foldl (fun s b => settleBlock b s) s) else s
    nextTranslation t.cluster (calls.foldl (fun s g => wake g s) ((entryWaiters s x).foldl (fun s g => enterTranslation g s) s))

/-- TRANSLATION_COMPLETE (R43, R154, R156, R381, R416): the outcome is written once the cache has room for it. -/
def execTranslationComplete (x : Nat) (s : State) : Out :=
  .next (match s.xlats[x]? with
    | none => s
    | some t =>
      if !t.live || t.st != .inProgress then s
      else
        let (r, code) := outcome s t
        let size := ({ t with code := code } : Xlat).size
        match makeRoom t.die size (entryWaiters s x ++ callWaiters s x) s.xlats.length s with
        | none => s
        | some s => finishTranslation x { s with xlats := modifyAt (fun t => { t with st := r, code := code, used := s.time }) s.xlats x })

/-! ### Instruction stores (R153) -/

/-- Core c is a replica of the segment of translation t in a launch that holds it (R325). -/
def replicaOf (s : State) (c : Nat) (t : Xlat) : Bool :=
  s.launches.any (fun L => !L.complete && decide (dieOf c = t.die) && (objFns s L.ctx L.kaddr).contains t.fn
    && L.travel.any (fun T => T.holds && (nth 0 T.mapw t.seg).getLsbD (c - dieBase t.die)))

/-- A page of a travel segment, on a replica core of a launch that holds it, or of which a resident group of the core runs it: pinned
(R325). -/
def segPage (s : State) (c : Nat) (e : Nat × Nat) : Bool :=
  (s.xlats[e.1]?).any (fun t => decide (t.seg ≠ 0) && (!(runningXlat s c e.1).isEmpty || replicaOf s c t))

/-- Room for one more page: of the pages that are not pinned, the first that no resident group of the core runs goes, else the first. -/
def storeRoom (s : State) (c : Nat) (ps : List (Nat × Nat)) : List (Nat × Nat) :=
  if ps.length < storePages then ps
  else
    match ps.find? (fun e => (runningXlat s c e.1).isEmpty && !segPage s c e), ps.find? (fun e => !segPage s c e) with
    | some e, _ => ps.erase e
    | none, some e => ps.erase e
    | none, none => ps

/-- The pages that a fill of page p of translation x brings: all of a travel segment's (R153). -/
def fillPages (s : State) (x p : Nat) : List Nat :=
  if (s.xlats[x]?).any (fun t => t.seg ≠ 0) then List.range (xlatPages s x) else if p < xlatPages s x then [p] else []

/-- A page enters the instruction store of core c. The rule names no context for the event where groups of several use the page: the
model charges the first resident group's (log entry 69). -/
def fillPage (c x p : Nat) (gs : List Nat) (s : State) : State :=
  let C := nth Core.reset s.cores c
  let ps := storeRoom s c C.pages
  if C.pages.contains (x, p) ∨ storePages ≤ ps.length then s
  else countGroups (gs.take 1) 0x45 { s with cores := modifyAt (fun C => { C with pages := ps ++ [(x, p)] }) s.cores c }

/-- INSTRUCTION_STORE_FILL (R153, R155): a page of a translation that a resident group of core c runs enters the store. -/
def execInstructionStoreFill (c x p : Nat) (s : State) : Out :=
  .next (
    let gs := runningXlat s c x
    if gs.isEmpty then s else (fillPages s x p).foldl (fun s p => fillPage c x p gs s) s)

end Sys2Proof.Machine
end

