-- ==== Sys2Proof/Machine/Migrate.lean ====
section
/-! DEFINITION. Migration of a context (R404, R405, R408 to R411): the mailbox request, the capture of every group as portable state,
and its seats on the destination dies. -/

namespace Sys2Proof.Machine
open Sys2Proof

/-! ### The capture of a native group (R404, R410) -/

/-- Token and set values live at a portable address. A live map has no record of a token, so which register holds which value is a DESIGN
CHOICE: the live tokens in increasing value number are the newest of the group's native tokens, in the order in which they were defined
(log entry 87). -/
def unitVals (bs : List CBlk) (N : Native) (off : Nat) : List (Nat × Val) :=
  let live := liveAt bs off
  let vs := live.filter (fun v => valTy bs v == some (.ty .tok))
  let ks := (uniq (N.k.filterMap id)).foldl (fun l e => insertNat e l) []
  (vs.zip (ks.drop (ks.length - vs.length))).map (fun (v, e) => (v, Val.tok e))
    ++ (live.filter (fun v => valTy bs v == some (.ty .acc))).map (fun v => (v, Val.acc))

/-- The frame of a native side at the MARK of bundle b: its live records, and what has no record. -/
def markFrame (s : State) (G : Group) (N : Native) (b : Nat) : Frame :=
  let bs := blocksOf s N.fn
  match N.mapAt b with
  | none => recordFrame s G N ((N.port b - N.fn - 0x20) / 4) []
  | some m =>
    let F := recordFrame s G N m.port m.recs
    { F with vals := (unitVals bs N m.port).foldl (fun vs e => NMap.set [] vs e.1 (List.replicate 128 e.2)) F.vals }

/-- A native side as a portable one, with what its wait carries (R313, R316, R388). alone: no other side lives. -/
def sideOf (s : State) (G : Group) (N : Native) (alone : Bool) (q : Pend) (P : PcSlot) : Side :=
  let outer := P.calls.filterMap (fun c => (N.mapAt c.1).map (fun m => recordFrame s G N m.port m.recs))
  let fs := markFrame s G N P.pc :: outer
  let path := if alone then [] else
    P.path ++ (match P.parked with
      | some (j, _) => if (P.path.getLast?).map (·.join) = some j then [] else [{ low := lowLane P.mask, join := j, depth := P.calls.length }]
      | none => [])
  { Side.begin { mask := P.mask, frames := fs, view := P.view, joins := N.joins path } G.acc (if P.parked.isSome && !alone then .parked else .running) with
    pend := q, markPend := q }

/-- A group as portable state: a native one through its live maps. -/
def portableGroup (s : State) (G : Group) : Group :=
  let G := { G with translation := none }
  match G.native with
  | none => G
  | some N =>
    let wait := fun (i : Nat) => ((G.sides[i]?).map Side.markPend).getD .none
    let ps := N.slots.zipIdx.filterMap (fun (P, i) => P.map (fun P => (wait i, P))) ++ N.stack.map (fun P => (Pend.none, P))
    { G with native := none, sides := (G.sides.filter (fun S => match S.status with | .atExit .. => true | _ => false))
        ++ ps.map (fun e => sideOf s G N (ps.length ≤ 1 && N.gone.isEmpty) e.1 e.2) ++ N.goneSides }

/-- Each group of context x that stands suspended is written as a record of kind 4 into its region of the save area, before its tiles there
(R404, R410; log entry 87). -/
def writeCaptures (x : Nat) (s : State) : State :=
  (groupsOf s x).foldl (fun t g => match s.groups[g]? with
    | some G =>
      if G.st = .suspended then
        let bid := match s.blocks[G.block]? with | some B => B.bid | none => 0
        storeBytes x (groupRegion s x G.core G.slot) ((recBytes s 4 bid G).take 139264) t
      else t
    | none => t) s

/-- Every group of context x becomes portable. -/
def captureGroups (x : Nat) (s : State) : State :=
  (groupsOf s x).foldl (fun s' g => match s.groups[g]? with | some G => s'.updGroup g (fun _ => portableGroup s G) | none => s') s

/-! ### Seats on the destination (R292, R404, R405) -/

/-- Why a migration fails (R408): its CAUSE. -/
inductive MigFail | generation | residents | room
  deriving DecidableEq, Repr

/-- The CAUSE code. -/
def MigFail.code : MigFail → Nat | .generation => 1 | .residents => 2 | .room => 3

/-- The groups of a block take their seats without yet running. -/
def sitCrew (seats : List (Nat × Nat × Nat × Nat × Nat)) (s : State) : State :=
  let t := seats.foldl (fun s (g, c, slot, off, len) =>
    (seatGroup g c slot off len s).updGroup g (fun G => { G with wbuf := G.wbuf.map (Held.release 4) })) s
  seats.foldl (fun t e => seatTiles s e.1 t) t

/-- A suspended block goes to the destination dies; its launch has its new budget. -/
def moveBlock (dies : List Nat) (b : Nat) (s : State) : Except MigFail State :=
  match (s.blocks[b]?).bind (fun B => (s.launches[B.launch]?).map (fun L => (B, L))) with
  | none => .ok s
  | some (B, L) =>
    let ok := dies.filter (fun d => !overLimit s L d 0)
    if dies.isEmpty then .error .room
    else if ok.isEmpty then .error .residents
    else
      let cls := ok.flatMap (fun d => ((List.range 26).filter (fun cl => dieOf (8 * cl) = d)))
      match cls.findSome? (fun cl => bestCrew s (2 ^ L.crewLog) (fun c => crewSeats b c (spillArea s L (dieOf c) 0) s) (clusterCrews s B.launch cl (2 ^ L.crewLog))) with
      | none => .error .room
      | some (c0, part, seats) => .ok (sitCrew seats (returnParts b c0 part s))

/-- The segment map at SMAP as the driver has written it for the destination (R343). -/
def readSmap (s : State) (L : Launch) (T : Travel) : List DWord :=
  (List.range 64).map (fun i => BitVec.ofNat 64 (blockNat (ctxBytes s L.ctx T.smap 512) (8 * i) 8))

/-- The pairs of old and new cores of a travel launch that goes to die d: replica by replica of each segment, then the reserve; none
when a segment has fewer replicas there than before. -/
def coreMap (L : Launch) (T : Travel) (new : List DWord) (d : Nat) : Option (List (Nat × Nat)) :=
  let old := dieBase (launchDie L)
  let seg : List (List Nat × List Nat) := (List.zip T.mapw new).map (fun (a, b) => (replicas a, replicas b))
  if seg.any (fun e => decide (e.2.length < e.1.length) || e.2.any (fun c => decide (dieCores d ≤ c))) then none
  else some (seg.flatMap (fun e => (List.zip e.1 e.2).map (fun (a, b) => (old + a, dieBase d + b))))

/-- A travel launch goes to the lowest destination die, each replica's region, ring and groups to a replica of the same segment. -/
def moveTravel (dies : List Nat) (l : Nat) (s : State) : Except MigFail State :=
  match s.launches[l]? with
  | none => .ok s
  | some L =>
    match L.travel, dies with
    | some T, d :: _ =>
      let new := readSmap s L T
      match coreMap L T new d with
      | none => .error .room
      | some m =>
        let cores := new.flatMap (fun w => (replicas w).map (fun b => dieBase d + b))
        let L' := { L with dies := BitVec.ofNat 4 (2 ^ d) }
        let segs := (List.range 64).filter (fun i => nth 0 new i != 0)
        if segs.any (fun sg => travelLimit s L' sg == 0) then .error .residents
        else if cores.any (fun c => !(residents s c).isEmpty || (travelCores s l).contains c) then .error .room
        else
          let gs := crewGroups s ((s.blocks.zipIdx.filter (fun (B, _) => decide (B.launch = l))).map (·.2))
          let onCores := gs.filter (fun g => (match s.groups[g]? with | some G => G.st == .suspended | none => false) && !s.recs.any (fun r => r.group == g))
          let s := m.foldl (fun s e => copySaved L.ctx (saveKey s L.ctx e.1 0) (keyScratch e.2 0) scratchBytes s) s
          let s := restoreRings m T s
          let s := onCores.foldl (fun s g => s.updGroup g (Group.rekeyed (coreKey m))) s
          let s0 := s
          let s := onCores.foldl (fun s g => match s.groups[g]? with
            | some G =>
              let a := spillArea s L' d G.seg
              seatGroup g (renamed m G.core) G.slot (imgShared s L.kaddr + G.slot * a) a s
            | none => s) s
          let s := onCores.foldl (fun s g => seatTiles s0 g s) s
          let res := BitVec.ofNat 64 (((replicas T.rsrv).filter (fun b => decide (b < dieCores d) && !cores.contains (dieBase d + b))).foldl (fun n b => n + 2 ^ b) 0)
          .ok (syncControl l { s with
            blocks := s.blocks.zipIdx.map (fun (B, b) =>
              if B.launch = l ∧ B.st = .suspended then { B with st := if blockOver s b then .draining else .running, core := dieBase d } else B)
            recs := s.recs.map (fun r => if r.launch = l then { r with core := renamed m r.core } else r)
            launches := modifyAt (fun _ => { L' with travel := some { T with mapw := new, rsrv := res, holds := true, above := [], rings := [] } }) s.launches l })
    | some _, [] => .error .room
    | none, _ => .ok s

/-- Ranges of unplaced blocks on other dies go to the first cluster of the lowest destination die. -/
def moveRanges (dies : List Nat) (rs : List (Nat × Nat × Nat)) : List (Nat × Nat × Nat) :=
  rs.map (fun r => if dies.contains (dieOf (8 * r.1)) then r else (dieBase (dies.headD 0) / 8, r.2.1, r.2.2))

/-- A launch of the context as it runs from now on (R139, R404). -/
def Launch.moved (mask : BitVec 4) (dies : List Nat) (budget : Nat) (L : Launch) : Launch :=
  { L with budget := if budget = 0 then L.budget else budget,
           dies := if L.travel.isSome then L.dies else mask, ranges := moveRanges dies L.ranges }

/-- Steps 2 to 5 of R404, or why they fail. -/
def migrateTo (x budget : Nat) (mask : BitVec 4) (s : State) : Except MigFail State :=
  let dies := servedDies s mask
  let mine := fun (L : Launch) => decide (L.ctx = x) && !L.complete
  let gen := s.launches.any (fun L => mine L && (match s.objs[L.obj]? with
    | some o => (List.range 4).any (fun d => mask.getLsbD d && decide (dieGeneration d < o.mingen))
    | none => false))
  if gen then .error .generation
  else
    let s := captureGroups x s
    let old := s.launches
    let s := { s with launches := s.launches.map (fun L => if mine L then L.moved mask dies budget else L) }
    let bs := (s.blocks.zipIdx.filter (fun (B, _) => (match old[B.launch]? with
      | some L => mine L && (B.st == .running || B.st == .suspended || (B.st == .draining && L.travel.isSome))
      | none => false))).map (·.2)
    let s := writeCaptures x (bs.foldl (fun s b => match execCrewSuspend b s with | .next t => t | _ => s) s)
    let fixed := bs.filter (fun b => match (s.blocks[b]?).bind (fun B => s.launches[B.launch]?) with | some L => L.travel.isNone | none => false)
    let travels := (s.launches.zipIdx.filter (fun (L, _) => mine L && L.travel.isSome && (match L.travel with | some T => T.mapw.any (· != 0) | none => false))).map (·.2)
    travels.foldl (fun (r : Except MigFail State) l => r.bind (moveTravel dies l))
      (fixed.foldl (fun (r : Except MigFail State) b => r.bind (moveBlock dies b)) (.ok s))

/-! ### The request (R408, R409) -/

/-- A request that R408 refuses. -/
def refusedMig (r : List Byte) (s : State) : Bool :=
  let x := blockNat r 2 1
  let b := blockNat r 4 2
  !(decide (blockNat r 0 2 = 0x21) && (slotIs s x .live || slotIs s x .halted) && decide (blockNat r 3 1 ≠ 0) && decide (blockNat r 3 1 < 16)
    && (b == 0 || (decide (8 ≤ b) && decide (b ≤ 510))) && decide (blockNat r 0x10 16 = 0))

/-- ST and CAUSE are written, then SIG is decremented. -/
def answerMig (r : List Byte) (st cause : Nat) (s : State) : State :=
  let M := s.mbox
  let s := { s with mbox := { M with mig := patch M.mig 6 (leBytes 1 st ++ leBytes 1 cause), migRun := none } }
  let sig := blockNat r 8 8
  if sig = 0 then s else hwDecrement (blockNat r 2 1) sig 1 s

/-- The context's engine instructions have not all completed or failed (R404). -/
def enginesBusy (x : Nat) (s : State) : Bool :=
  s.engs.any (fun E => decide (E.ctx = x) && (E.st == .issued || E.st == .started))
    || s.walks.any (fun W => decide (W.ctx = x) && W.st == .claiming)

/-- MIGRATE (R404, R405, R408, R409): a refused request is answered at once; a live context halts, and once its transfers have
ended it moves or the migration fails with the state as it was. -/
def execMigrate (s : State) : Out :=
  .next (match s.mbox.migRun with
    | none => s
    | some r =>
      let x := blockNat r 2 1
      if refusedMig r s then answerMig r 2 0 { s with ctxs := modifyAt (fun C => { C with migrating := false }) s.ctxs x }
      else
        let s := { haltContext x s with ctxs := modifyAt (fun C => { C with migrating := true }) (haltContext x s).ctxs x }
        if enginesBusy x s then s
        else
          let done := fun (st cause : Nat) (s : State) =>
            answerMig r st cause { s with ctxs := modifyAt (fun C => { C with migrating := false }) s.ctxs x }
          match migrateTo x (blockNat r 4 2) (BitVec.ofNat 4 (blockNat r 3 1)) s with
          | .ok t => releaseContext x (done 1 0 t)
          | .error c => done 3 c.code s)

end Sys2Proof.Machine
end

