-- ==== Sys2Proof/Machine/SfuMoment.lean ====
section
/-! DEFINITION. The meanings of the special functions (R98 to R100) and of the moment instructions (R103 to R110). -/

namespace Sys2Proof.Machine
open Sys2Proof

/-- A special function of an f32 operand. -/
def sfu (s : State) (a : Opnd) (f : DWord → DWord × Flags) : Out := lanesFlags s [(.f32, a)] (fun xs => f (nth 0 xs 0))

/-- EXP2 (R98 to R100). -/
def execExp2 (dn : Bool) (a : Opnd) (s : State) : Out := sfu s a (sfExp2 dn)
/-- LOG2 (R98 to R100). -/
def execLog2 (dn : Bool) (a : Opnd) (s : State) : Out := sfu s a (sfLog2 dn)
/-- RCP (R98 to R100). -/
def execRcp (dn : Bool) (a : Opnd) (s : State) : Out := sfu s a (sfRcp dn)
/-- SQRT (R98 to R100). -/
def execSqrt (dn : Bool) (a : Opnd) (s : State) : Out := sfu s a (sfSqrt dn)
/-- RSQRT (R98 to R100). -/
def execRsqrt (dn : Bool) (a : Opnd) (s : State) : Out := sfu s a (sfRsqrt dn)
/-- SINPI (R98 to R100). -/
def execSinpi (dn : Bool) (a : Opnd) (s : State) : Out := sfu s a (sfSinpi dn)
/-- COSPI (R98 to R100). -/
def execCospi (dn : Bool) (a : Opnd) (s : State) : Out := sfu s a (sfCospi dn)
/-- TANH (R98 to R100). -/
def execTanh (dn : Bool) (a : Opnd) (s : State) : Out := sfu s a (sfTanh dn)
/-- SIGMOID (R98 to R100). -/
def execSigmoid (dn : Bool) (a : Opnd) (s : State) : Out := sfu s a (sfSigmoid dn)
/-- ERF (R98 to R100). -/
def execErf (dn : Bool) (a : Opnd) (s : State) : Out := sfu s a (sfErf dn)

/-- The lowest active lane whose result is a negative variance, if any (R106). -/
def badLane (m : Mask) (rs : List MoRes) : Option Nat := (lanesOf m).find? (fun i => nth .bad rs i = .bad)

/-- Bits of a moment result. -/
def MoRes.bits : MoRes → DWord
  | .ok x _ => x
  | .bad => 0
/-- Flags of a moment result. -/
def MoRes.flags : MoRes → Flags
  | .ok _ f => f
  | .bad => 0

/-- A moment rule lane by lane: a negative variance without `.clamp` is the fault of the lowest such lane (R106). -/
def moment (s : State) (ops : List (Ty × Opnd)) (f : List DWord → MoRes) : Out :=
  portable s (fun p s =>
    match ops.foldr (fun (t, o) r => match opndBits s p t o, r with | some x, some xs => some (x :: xs) | _, _ => none) (some []) with
    | some xss =>
      let rs := zipLanes f xss
      (match badLane p.mask rs with
       | some i => takeFault p .negativeVariance (some i) 0 s
       | none => defineBits p (rs.map MoRes.bits) (raiseFlags p (laneEvents p.mask (rs.map MoRes.flags)) s))
    | none => badOperand p s)

/-- The covariance slot of a moment instruction: +0 where it has none. -/
def covSlot (c : Option Opnd) : List (Ty × Opnd) := match c with | none => [] | some c => [(.f32, c)]

/-- Two moment operands, then the covariance. -/
def mo2 (s : State) (cl : Bool) (a b : Opnd) (c : Option Opnd) (rule : Mo → Mo → DWord → Step × Step) : Out :=
  moment s ([(.mo, a), (.mo, b)] ++ covSlot c)
    (fun xs => moFrame cl (xs.take 2) (fun ps => rule (nth ⟨0, 0⟩ ps 0) (nth ⟨0, 0⟩ ps 1) (moF32 (nth 0 xs 2))))

/-- One moment operand. -/
def mo1 (s : State) (cl : Bool) (a : Opnd) (rule : Mo → Step × Step) : Out :=
  moment s [(.mo, a)] (fun xs => moFrame cl xs (fun ps => rule (nth ⟨0, 0⟩ ps 0)))

/-- MADD (R103, R107). -/
def execMadd (cv : Cov) (cl : Bool) (a b : Opnd) (c : Option Opnd) (s : State) : Out := mo2 s cl a b c (moAdd cv)
/-- MSUB (R103, R107). -/
def execMsub (cv : Cov) (cl : Bool) (a b : Opnd) (c : Option Opnd) (s : State) : Out := mo2 s cl a b c (moSub cv)
/-- MMUL (R103, R107). -/
def execMmul (cv : Cov) (cl : Bool) (a b : Opnd) (c : Option Opnd) (s : State) : Out := mo2 s cl a b c (moMul cv)
/-- MFMA (R107). -/
def execMfma (cv : Cov) (cl : Bool) (a b d : Opnd) (c : Option Opnd) (s : State) : Out :=
  moment s ([(.mo, a), (.mo, b), (.mo, d)] ++ covSlot c)
    (fun xs => moFrame cl (xs.take 3)
      (fun ps => moFma cv (nth ⟨0, 0⟩ ps 0) (nth ⟨0, 0⟩ ps 1) (nth ⟨0, 0⟩ ps 2) (moF32 (nth 0 xs 3))))
/-- MEXP (R109). -/
def execMexp (cl : Bool) (a : Opnd) (s : State) : Out := mo1 s cl a moExp
/-- MRELU (R109). -/
def execMrelu (cl : Bool) (a : Opnd) (s : State) : Out := mo1 s cl a moRelu
/-- MSIG (R109). -/
def execMsig (cl : Bool) (a : Opnd) (s : State) : Out := mo1 s cl a (fun p => moSig (kst p.m) (kst p.v))
/-- MTANH (R109). -/
def execMtanh (cl : Bool) (a : Opnd) (s : State) : Out := mo1 s cl a moTanh
/-- MGELU (R109). -/
def execMgelu (cl : Bool) (a : Opnd) (s : State) : Out := mo1 s cl a moGelu
/-- MCOL (R110). -/
def execMcol (sel : ColSel) (cl : Bool) (a : Opnd) (k : Option Opnd) (s : State) : Out :=
  moment s ([(.mo, a)] ++ covSlot k) (fun xs => moCol sel cl (nth 0 xs 0) (moF32 (nth 0 xs 1)))
/-- MMAKE (R107). -/
def execMmake (cl : Bool) (mu v : Opnd) (s : State) : Out :=
  moment s [(.f32, mu), (.f32, v)] (fun xs => moMake cl (nth 0 xs 0) (nth 0 xs 1))
/-- MSCALE (R107). -/
def execMscale (cl : Bool) (a s_ t : Opnd) (s : State) : Out :=
  moment s [(.mo, a), (.f32, s_), (.f32, t)]
    (fun xs => moFrame cl (xs.take 1) (fun ps => moScale (nth ⟨0, 0⟩ ps 0) (moF32 (nth 0 xs 1)) (moF32 (nth 0 xs 2))))

end Sys2Proof.Machine
end

