-- ==== Sys2Proof/Machine/Dispatch.lean ====
section
/-! DEFINITION. The dispatch: every instruction of the opcode table to its meaning. -/

namespace Sys2Proof.Machine
open Sys2Proof

/-- The machine's answer to one instruction. -/
def exec (i : Instr) (s : State) : Host.Outcome State Fault Refusal :=
  match i with
  | .nop _ => Sys2Proof.Machine.execNop s
  | .br _ t => Sys2Proof.Machine.execBr t s
  | .cbr _ c t f => Sys2Proof.Machine.execCbr c t f s
  | .switch _ idx d cs => Sys2Proof.Machine.execSwitch idx d cs s
  | .call _ _ callee args => Sys2Proof.Machine.execCall callee args s
  | .ret _ args => Sys2Proof.Machine.execRet args s
  | .exit _ => Sys2Proof.Machine.execExit s
  | .trap _ code => Sys2Proof.Machine.execTrap code s
  | .copyV _ t a => Sys2Proof.Machine.execCopyV t a s
  | .copyVRet _ _ k => Sys2Proof.Machine.execCopyVRet k s
  | .add _ t _ a b => Sys2Proof.Machine.execAdd t a b s
  | .sub _ t _ a b => Sys2Proof.Machine.execSub t a b s
  | .mul _ t sg sat a b => Sys2Proof.Machine.execMul t sg sat a b s
  | .mulhi _ t sg a b => Sys2Proof.Machine.execMulhi t sg a b s
  | .mad _ t sg a b c => Sys2Proof.Machine.execMad t sg a b c s
  | .div _ t sg a b => Sys2Proof.Machine.execDiv t sg a b s
  | .rem _ t sg a b => Sys2Proof.Machine.execRem t sg a b s
  | .neg _ t sat a => Sys2Proof.Machine.execNeg t sat a s
  | .abs _ t sat a => Sys2Proof.Machine.execAbs t sat a s
  | .min _ t sg a b => Sys2Proof.Machine.execMin t sg a b s
  | .max _ t sg a b => Sys2Proof.Machine.execMax t sg a b s
  | .and _ t a b => Sys2Proof.Machine.execAnd t a b s
  | .or _ t a b => Sys2Proof.Machine.execOr t a b s
  | .xor _ t a b => Sys2Proof.Machine.execXor t a b s
  | .not _ t a => Sys2Proof.Machine.execNot t a s
  | .shl _ t a n => Sys2Proof.Machine.execShl t a n s
  | .shr _ t sg a n => Sys2Proof.Machine.execShr t sg a n s
  | .rotl _ t a n => Sys2Proof.Machine.execRotl t a n s
  | .clz _ s_ a => Sys2Proof.Machine.execClz s_ a s
  | .popc _ s_ a => Sys2Proof.Machine.execPopc s_ a s
  | .brev _ t a => Sys2Proof.Machine.execBrev t a s
  | .bfx _ t sg a pos len => Sys2Proof.Machine.execBfx t sg a pos len s
  | .bfi _ t base ins pos len => Sys2Proof.Machine.execBfi t base ins pos len s
  | .cmp _ cc sg s_ a b => Sys2Proof.Machine.execCmp cc sg s_ a b s
  | .sel _ t c a b => Sys2Proof.Machine.execSel t c a b s
  | .ext _ t sg s_ a => Sys2Proof.Machine.execExt t sg s_ a s
  | .trunc _ t sg sat s_ a => Sys2Proof.Machine.execTrunc t sg sat s_ a s
  | .addsat _ t sg a b => Sys2Proof.Machine.execAddsat t sg a b s
  | .subsat _ t sg a b => Sys2Proof.Machine.execSubsat t sg a b s
  | .lea _ t sg s_ k base idx disp => Sys2Proof.Machine.execLea t sg s_ k base idx disp s
  | .shfl _ m t v k => Sys2Proof.Machine.execShfl m t v k s
  | .bcast _ t v k => Sys2Proof.Machine.execBcast t v k s
  | .vote _ m c => Sys2Proof.Machine.execVote m c s
  | .ballot _ hi c => Sys2Proof.Machine.execBallot hi c s
  | .redg _ op sg rm dn t v => Sys2Proof.Machine.execRedg op sg rm dn t v s
  | .scang _ x op sg rm dn t v => Sys2Proof.Machine.execScang x op sg rm dn t v s
  | .aset _ e l a idx v => Sys2Proof.Machine.execAset e l a idx v s
  | .aget _ _ a idx => Sys2Proof.Machine.execAget a idx s
  | .afill _ e l v => Sys2Proof.Machine.execAfill l v e s
  | .fadd _ t rm dn a b => Sys2Proof.Machine.execFadd t rm dn a b s
  | .fsub _ t rm dn a b => Sys2Proof.Machine.execFsub t rm dn a b s
  | .fmul _ t rm dn a b => Sys2Proof.Machine.execFmul t rm dn a b s
  | .fma _ t rm dn a b c => Sys2Proof.Machine.execFma t rm dn a b c s
  | .fdiv _ t rm dn a b => Sys2Proof.Machine.execFdiv t rm dn a b s
  | .fneg _ t a => Sys2Proof.Machine.execFneg t a s
  | .fabs _ t a => Sys2Proof.Machine.execFabs t a s
  | .fmin _ t dn a b => Sys2Proof.Machine.execFmin t dn a b s
  | .fmax _ t dn a b => Sys2Proof.Machine.execFmax t dn a b s
  | .fcmp _ cc s_ dn a b => Sys2Proof.Machine.execFcmp cc s_ dn a b s
  | .fclass _ s_ a => Sys2Proof.Machine.execFclass s_ a s
  | .fcopysign _ t a b => Sys2Proof.Machine.execFcopysign t a b s
  | .frnd _ t rm dn a => Sys2Proof.Machine.execFrnd t rm dn a s
  | .fscale _ t rm dn a n => Sys2Proof.Machine.execFscale t rm dn a n s
  | .cvt _ k t s_ rm dn a => Sys2Proof.Machine.execCvt k t s_ rm dn a s
  | .pack _ e xs => Sys2Proof.Machine.execPack e xs s
  | .unpack _ e n a => Sys2Proof.Machine.execUnpack e n a s
  | .rsdenc _ sg a => Sys2Proof.Machine.execRsdenc sg a s
  | .rsddec _ a => Sys2Proof.Machine.execRsddec a s
  | .exp2 _ dn a => Sys2Proof.Machine.execExp2 dn a s
  | .log2 _ dn a => Sys2Proof.Machine.execLog2 dn a s
  | .rcp _ dn a => Sys2Proof.Machine.execRcp dn a s
  | .sqrt _ dn a => Sys2Proof.Machine.execSqrt dn a s
  | .rsqrt _ dn a => Sys2Proof.Machine.execRsqrt dn a s
  | .sinpi _ dn a => Sys2Proof.Machine.execSinpi dn a s
  | .cospi _ dn a => Sys2Proof.Machine.execCospi dn a s
  | .tanh _ dn a => Sys2Proof.Machine.execTanh dn a s
  | .sigmoid _ dn a => Sys2Proof.Machine.execSigmoid dn a s
  | .erf _ dn a => Sys2Proof.Machine.execErf dn a s
  | .madd _ cv cl a b c => Sys2Proof.Machine.execMadd cv cl a b c s
  | .msub _ cv cl a b c => Sys2Proof.Machine.execMsub cv cl a b c s
  | .mmul _ cv cl a b c => Sys2Proof.Machine.execMmul cv cl a b c s
  | .mfma _ cv cl a b d c => Sys2Proof.Machine.execMfma cv cl a b d c s
  | .mexp _ cl a => Sys2Proof.Machine.execMexp cl a s
  | .mrelu _ cl a => Sys2Proof.Machine.execMrelu cl a s
  | .msig _ cl a => Sys2Proof.Machine.execMsig cl a s
  | .mtanh _ cl a => Sys2Proof.Machine.execMtanh cl a s
  | .mgelu _ cl a => Sys2Proof.Machine.execMgelu cl a s
  | .mcol _ sel cl a k => Sys2Proof.Machine.execMcol sel cl a k s
  | .mmake _ cl mu v => Sys2Proof.Machine.execMmake cl mu v s
  | .mscale _ cl a s_ t => Sys2Proof.Machine.execMscale cl a s_ t s
  | .mma _ fm c t fs => Sys2Proof.Machine.execMma fm c t fs s
  | .accacq _ n => Sys2Proof.Machine.execAccacq n s
  | .accrel _ c => Sys2Proof.Machine.execAccrel c s
  | .accrd _ ty c t j k => Sys2Proof.Machine.execAccrd ty c t j k s
  | .accwr _ ty c t j v => Sys2Proof.Machine.execAccwr ty c t j v s
  | .acczero _ c t => Sys2Proof.Machine.execAcczero c t s
  | .ldfrag _ _ w16 j ds m s_ => Sys2Proof.Machine.execLdfrag w16 j ds m s_ s
  | .ldscale _ c t e => Sys2Proof.Machine.execLdscale c t e s
  | .rsdraw _ c t j k => Sys2Proof.Machine.execRsdraw c t j k s
  | .ld _ t ds m => Sys2Proof.Machine.execLd t ds m s
  | .st _ t ds m v => Sys2Proof.Machine.execSt t ds m v s
  | .atom _ op k sc t ds m v => Sys2Proof.Machine.execAtom op k sc t ds m v s
  | .cas _ k sc t ds m c v => Sys2Proof.Machine.execCas k sc t ds m c v s
  | .fence _ k sc mask => Sys2Proof.Machine.execFence k sc mask s
  | .bar _ mask n => Sys2Proof.Machine.execBar mask n s
  | .barar _ mask n => Sys2Proof.Machine.execBarar mask n s
  | .barwt _ mask n ph => Sys2Proof.Machine.execBarwt mask n ph s
  | .ldacq _ sc t ds m => Sys2Proof.Machine.execLdacq sc t ds m s
  | .strel _ sc t ds m v => Sys2Proof.Machine.execStrel sc t ds m v s
  | .prefetch _ _ m => Sys2Proof.Machine.execPrefetch m s
  | .ldw _ e l ds m => Sys2Proof.Machine.execLdw e l ds m s
  | .stw _ e l ds m x => Sys2Proof.Machine.execStw e ds m x l s
  | .mkref _ m => Sys2Proof.Machine.execMkref m s
  | .unref _ m => Sys2Proof.Machine.execUnref m s
  | .objinit _ leaf ctx m n => Sys2Proof.Machine.execObjinit leaf ctx m n s
  | .objinitRetire _ m => Sys2Proof.Machine.execObjinitRetire m s
  | .publ _ sc mask m r ks => Sys2Proof.Machine.execPubl sc mask m r ks s
  | .refeq _ a b => Sys2Proof.Machine.execRefeq a b s
  | .refadr _ r => Sys2Proof.Machine.execRefadr r s
  | .ldref _ m => Sys2Proof.Machine.execLdref m s
  | .stref _ m r => Sys2Proof.Machine.execStref m r s
  | .objst _ t r off v => Sys2Proof.Machine.execObjst t r off v s
  | .copy _ sc mask dirty tag dst src len dd ks => Sys2Proof.Machine.execCopy sc mask dirty tag dst src len dd ks s
  | .gather _ sc mask le pk x _ ks => Sys2Proof.Machine.execGather sc mask le pk x ks s
  | .scatter _ sc mask le x pk _ ks => Sys2Proof.Machine.execScatter sc mask le x pk ks s
  | .coll _ kind op mask t dst src cnt grp ks => Sys2Proof.Machine.execColl kind op mask t dst src cnt grp ks s
  | .post _ sc seg fn vs => Sys2Proof.Machine.execPost sc seg fn vs s
  | .tjoin _ ks => Sys2Proof.Machine.execTjoin ks s
  | .kwait _ ks => Sys2Proof.Machine.execKwait ks s
  | .ktest _ k => Sys2Proof.Machine.execKtest k s
  | .sigdec _ sc mask m v ks => Sys2Proof.Machine.execSigdec sc mask m v ks s
  | .sigwait _ cc sc mask m x => Sys2Proof.Machine.execSigwait cc sc mask m x s
  | .sigset _ sc mask m v ks => Sys2Proof.Machine.execSigset sc mask m v ks s
  | .sigrd _ sc mask m => Sys2Proof.Machine.execSigrd sc mask m s
  | .enq _ barrier sc mask q d ks => Sys2Proof.Machine.execEnq barrier sc mask q d ks s
  | .nsleep _ n => Sys2Proof.Machine.execNsleep n s
  | .twait _ cc sc mask m x n => Sys2Proof.Machine.execTwait cc sc mask m x n s
  | .rdclk _ => Sys2Proof.Machine.execRdclk s
  | .rdtime _ => Sys2Proof.Machine.execRdtime s
  | .yield _ => Sys2Proof.Machine.execYield s
  | .hop _ m key t => Sys2Proof.Machine.execHop m key t s
  | .trvmapRep _ seg => Sys2Proof.Machine.execTrvmapRep seg s
  | .trvmapVer _ => Sys2Proof.Machine.execTrvmapVer s
  | .ctrrd _ n => Sys2Proof.Machine.execCtrrd n s
  | .ctrctl _ clear n cfg => Sys2Proof.Machine.execCtrctl clear n cfg s
  | .brkpt _ code => Sys2Proof.Machine.execBrkpt code s
  | .assert _ c code => Sys2Proof.Machine.execAssert c code s
  | .rdflag _ => Sys2Proof.Machine.execRdflag s
  | .clrflag _ m => Sys2Proof.Machine.execClrflag m s
  | .rdfev _ => Sys2Proof.Machine.execRdfev s
  | .sNop => Sys2Proof.Machine.execSNop s
  | .salu d a f => Sys2Proof.Machine.execSalu d a f s
  | .sli d idx => Sys2Proof.Machine.execSli d idx s
  | .slhi d idx => Sys2Proof.Machine.execSlhi d idx s
  | .sbr o => Sys2Proof.Machine.execSbr o s
  | .sbrc c o => Sys2Proof.Machine.execSbrc c o s
  | .sjoin => Sys2Proof.Machine.execSjoin s
  | .scall o => Sys2Proof.Machine.execScall o s
  | .sret => Sys2Proof.Machine.execSret s
  | .sexit => Sys2Proof.Machine.execSexit s
  | .strap c => Sys2Proof.Machine.execStrap c s
  | .sloop n e r l => Sys2Proof.Machine.execSloop n e r l s
  | .ssetfm f => Sys2Proof.Machine.execSsetfm f s
  | .sxset x b l p => Sys2Proof.Machine.execSxset x b l p s
  | .sxidx x u => Sys2Proof.Machine.execSxidx x u s
  | .sacq n => Sys2Proof.Machine.execSacq n s
  | .srel => Sys2Proof.Machine.execSrel s
  | .skwait t => Sys2Proof.Machine.execSkwait t s
  | .skest d t => Sys2Proof.Machine.execSkest d t s
  | .sbar u k => Sys2Proof.Machine.execSbar u k s
  | .ssys u o => Sys2Proof.Machine.execSsys u o s
  | .sv2s d a => Sys2Proof.Machine.execSv2s d a s
  | .vNop => Sys2Proof.Machine.execVNop s
  | .iadd v => Sys2Proof.Machine.execIadd v s
  | .isub v => Sys2Proof.Machine.execIsub v s
  | .imul v => Sys2Proof.Machine.execImul v s
  | .imhs v => Sys2Proof.Machine.execImhs v s
  | .imhn v => Sys2Proof.Machine.execImhn v s
  | .imad v => Sys2Proof.Machine.execImad v s
  | .iand v => Sys2Proof.Machine.execIand v s
  | .ior v => Sys2Proof.Machine.execIor v s
  | .ixor v => Sys2Proof.Machine.execIxor v s
  | .ishl v => Sys2Proof.Machine.execIshl v s
  | .ishrs v => Sys2Proof.Machine.execIshrs v s
  | .ishrn v => Sys2Proof.Machine.execIshrn v s
  | .irotl v => Sys2Proof.Machine.execIrotl v s
  | .isel v => Sys2Proof.Machine.execIsel v s
  | .imins v => Sys2Proof.Machine.execImins v s
  | .iminn v => Sys2Proof.Machine.execIminn v s
  | .imaxs v => Sys2Proof.Machine.execImaxs v s
  | .imaxn v => Sys2Proof.Machine.execImaxn v s
  | .iclz v => Sys2Proof.Machine.execIclz v s
  | .ipopc v => Sys2Proof.Machine.execIpopc v s
  | .ibrev v => Sys2Proof.Machine.execIbrev v s
  | .ibfxs v => Sys2Proof.Machine.execIbfxs v s
  | .ibfxn v => Sys2Proof.Machine.execIbfxn v s
  | .ibfi v => Sys2Proof.Machine.execIbfi v s
  | .iaddss v => Sys2Proof.Machine.execIaddss v s
  | .iaddsn v => Sys2Proof.Machine.execIaddsn v s
  | .isubss v => Sys2Proof.Machine.execIsubss v s
  | .isubsn v => Sys2Proof.Machine.execIsubsn v s
  | .iaddcp v => Sys2Proof.Machine.execIaddcp v s
  | .iaddci v => Sys2Proof.Machine.execIaddci v s
  | .icmp v => Sys2Proof.Machine.execIcmp v s
  | .idivs v => Sys2Proof.Machine.execIdivs v s
  | .idivn v => Sys2Proof.Machine.execIdivn v s
  | .irems v => Sys2Proof.Machine.execIrems v s
  | .iremn v => Sys2Proof.Machine.execIremn v s
  | .vFcmp v => Sys2Proof.Machine.execVFcmp v s
  | .vFadd v => Sys2Proof.Machine.execVFadd v s
  | .vFsub v => Sys2Proof.Machine.execVFsub v s
  | .vFmul v => Sys2Proof.Machine.execVFmul v s
  | .ffma v => Sys2Proof.Machine.execFfma v s
  | .vFdiv v => Sys2Proof.Machine.execVFdiv v s
  | .vFmin v => Sys2Proof.Machine.execVFmin v s
  | .vFmax v => Sys2Proof.Machine.execVFmax v s
  | .fcsgn v => Sys2Proof.Machine.execFcsgn v s
  | .vFclass v => Sys2Proof.Machine.execVFclass v s
  | .vFrnd v => Sys2Proof.Machine.execVFrnd v s
  | .fscl v => Sys2Proof.Machine.execFscl v s
  | .vCvt v => Sys2Proof.Machine.execVCvt v s
  | .rsenc v => Sys2Proof.Machine.execRsenc v s
  | .rsdec v => Sys2Proof.Machine.execRsdec v s
  | .xshf v => Sys2Proof.Machine.execXshf v s
  | .xbc v => Sys2Proof.Machine.execXbc v s
  | .xvote v => Sys2Proof.Machine.execXvote v s
  | .xblt v => Sys2Proof.Machine.execXblt v s
  | .xred v => Sys2Proof.Machine.execXred v s
  | .xscn v => Sys2Proof.Machine.execXscn v s
  | .ubc v => Sys2Proof.Machine.execUbc v s
  | .rget v => Sys2Proof.Machine.execRget v s
  | .rset v => Sys2Proof.Machine.execRset v s
  | .mld v => Sys2Proof.Machine.execMld v s
  | .mst v => Sys2Proof.Machine.execMst v s
  | .tread v => Sys2Proof.Machine.execTread v s
  | .fNop => Sys2Proof.Machine.execFNop s
  | .fExp2 o => Sys2Proof.Machine.execFExp2 o s
  | .fLog2 o => Sys2Proof.Machine.execFLog2 o s
  | .fRcp o => Sys2Proof.Machine.execFRcp o s
  | .fSqrt o => Sys2Proof.Machine.execFSqrt o s
  | .fRsqrt o => Sys2Proof.Machine.execFRsqrt o s
  | .fSinpi o => Sys2Proof.Machine.execFSinpi o s
  | .fCospi o => Sys2Proof.Machine.execFCospi o s
  | .fTanh o => Sys2Proof.Machine.execFTanh o s
  | .fSigmoid o => Sys2Proof.Machine.execFSigmoid o s
  | .fErf o => Sys2Proof.Machine.execFErf o s
  | .sscl g k t _ a => Sys2Proof.Machine.execSscl g k t a s
  | .lNop => Sys2Proof.Machine.execLNop s
  | .ldn o => Sys2Proof.Machine.execLdn o s
  | .lds o => Sys2Proof.Machine.execLds o s
  | .lSt o => Sys2Proof.Machine.execLSt o s
  | .ldq o => Sys2Proof.Machine.execLdq o s
  | .strl o => Sys2Proof.Machine.execStrl o s
  | .aadd o => Sys2Proof.Machine.execAadd o s
  | .amins o => Sys2Proof.Machine.execAmins o s
  | .aminn o => Sys2Proof.Machine.execAminn o s
  | .amaxs o => Sys2Proof.Machine.execAmaxs o s
  | .amaxn o => Sys2Proof.Machine.execAmaxn o s
  | .aand o => Sys2Proof.Machine.execAand o s
  | .aor o => Sys2Proof.Machine.execAor o s
  | .axor o => Sys2Proof.Machine.execAxor o s
  | .axchg o => Sys2Proof.Machine.execAxchg o s
  | .acas o => Sys2Proof.Machine.execAcas o s
  | .pref _ => Sys2Proof.Machine.execPref s
  | .fnc _ => Sys2Proof.Machine.execFnc s
  | .spst o => Sys2Proof.Machine.execSpst o s
  | .spld o => Sys2Proof.Machine.execSpld o s
  | .ldt o => Sys2Proof.Machine.execLdt o s
  | .stt o => Sys2Proof.Machine.execStt o s
  | .mNop => Sys2Proof.Machine.execMNop s
  | .tstep t k f => Sys2Proof.Machine.execTstep t k f s
  | .tlatch t k f => Sys2Proof.Machine.execTlatch t k f s
  | .twr t k _ j => Sys2Proof.Machine.execTwr t k j s
  | .tzero t k => Sys2Proof.Machine.execTzero t k s
  | .aNop => Sys2Proof.Machine.execANop s
  | .aCopy k d => Sys2Proof.Machine.execACopy k d s
  | .aGather k d => Sys2Proof.Machine.execAGather k d s
  | .aScatter k d => Sys2Proof.Machine.execAScatter k d s
  | .aColl k d => Sys2Proof.Machine.execAColl k d s
  | .aPubl k d => Sys2Proof.Machine.execAPubl k d s
  | .aPost k d => Sys2Proof.Machine.execAPost k d s
  | .aEnq k d => Sys2Proof.Machine.execAEnq k d s
  | .aSigdec k d => Sys2Proof.Machine.execASigdec k d s
  | .aSigset k d => Sys2Proof.Machine.execASigset k d s
  | .aHop k d a => Sys2Proof.Machine.execAHop k d a s
  | .aTjoin k d => Sys2Proof.Machine.execATjoin k d s
  | .queueEnable q d => Sys2Proof.Machine.execQueueEnable q d s
  | .queueDisable q => Sys2Proof.Machine.execQueueDisable q s
  | .tailPoll q => Sys2Proof.Machine.execTailPoll q s
  | .queueLaunch q => Sys2Proof.Machine.execQueueLaunch q s
  | .queueWait q => Sys2Proof.Machine.execQueueWait q s
  | .queueDecrement q => Sys2Proof.Machine.execQueueDecrement q s
  | .queueSet q => Sys2Proof.Machine.execQueueSet q s
  | .queueNoOperation q => Sys2Proof.Machine.execQueueNoOperation q s
  | .workSteal l cl => Sys2Proof.Machine.execWorkSteal l cl s
  | .blockPlace cl => Sys2Proof.Machine.execBlockPlace cl s
  | .blockWaitLimit cl => Sys2Proof.Machine.execBlockWaitLimit cl s
  | .translationMiss g => Sys2Proof.Machine.execTranslationMiss g s
  | .translationComplete x => Sys2Proof.Machine.execTranslationComplete x s
  | .instructionStoreFill c x p => Sys2Proof.Machine.execInstructionStoreFill c x p s
  | .bundleDispatch c => Sys2Proof.Machine.execBundleDispatch c s
  | .sideRotation g => Sys2Proof.Machine.execSideRotation g s
  | .timingCheck g sd err => Sys2Proof.Machine.execTimingCheck g sd err s
  | .clockRestore cl => Sys2Proof.Machine.execClockRestore cl s
  | .regionCommit g sd => Sys2Proof.Machine.execRegionCommit g sd s
  | .faultRollback g sd c lane aux => Sys2Proof.Machine.execFaultRollback g sd c lane aux s
  | .eccError w multi => Sys2Proof.Machine.execEccError w multi s
  | .dispPoll x => Sys2Proof.Machine.execDispPoll x s
  | .quantumExpiry d x => Sys2Proof.Machine.execQuantumExpiry d x s
  | .preemptRequest d x => Sys2Proof.Machine.execPreemptRequest d x s
  | .crewSuspend b => Sys2Proof.Machine.execCrewSuspend b s
  | .crewResume b core => Sys2Proof.Machine.execCrewResume b core s
  | .engineReset c => Sys2Proof.Machine.execEngineReset c s
  | .matrixUnitReset c => Sys2Proof.Machine.execMatrixUnitReset c s
  | .matrixResetComplete c => Sys2Proof.Machine.execMatrixResetComplete c s
  | .ballastStep _ => Sys2Proof.Machine.execBallastStep s
  | .accGrant c => Sys2Proof.Machine.execAccGrant c s
  | .tileSave g t => Sys2Proof.Machine.execTileSave g t s
  | .tileRestore g => Sys2Proof.Machine.execTileRestore g s
  | .tileWriteComplete g t => Sys2Proof.Machine.execTileWriteComplete g t s
  | .engineStart e => Sys2Proof.Machine.execEngineStart e s
  | .tokenComplete e => Sys2Proof.Machine.execTokenComplete e s
  | .tokenFail e c => Sys2Proof.Machine.execTokenFail e c s
  | .claimRound w => Sys2Proof.Machine.execClaimRound w s
  | .markPhase w => Sys2Proof.Machine.execMarkPhase w s
  | .rootStore w => Sys2Proof.Machine.execRootStore w s
  | .collectiveFrame x fr => Sys2Proof.Machine.execCollectiveFrame x fr s
  | .collectiveTimeout e => Sys2Proof.Machine.execCollectiveTimeout e s
  | .hostRdmaWrite x va bs => Sys2Proof.Machine.execHostRdmaWrite x va bs s
  | .hostRdmaRead x va n => Sys2Proof.Machine.execHostRdmaRead x va n s
  | .hostRdmaAtomic x va cmp v => Sys2Proof.Machine.execHostRdmaAtomic x va cmp v s
  | .pageMigration x va d => Sys2Proof.Machine.execPageMigration x va d s
  | .counterHalving x => Sys2Proof.Machine.execCounterHalving x s
  | .mshrRetry c => Sys2Proof.Machine.execMshrRetry c s
  | .barrierReleaseWave cl => Sys2Proof.Machine.execBarrierReleaseWave cl s
  | .watchSatisfied g => Sys2Proof.Machine.execWatchSatisfied g s
  | .twaitDeadline g => Sys2Proof.Machine.execTwaitDeadline g s
  | .nsleepExpiry g => Sys2Proof.Machine.execNsleepExpiry g s
  | .yieldEnd g => Sys2Proof.Machine.execYieldEnd g s
  | .frequencyTransition cl mhz => Sys2Proof.Machine.execFrequencyTransition cl mhz s
  | .travelDeparture g => Sys2Proof.Machine.execTravelDeparture g s
  | .recordStart c => Sys2Proof.Machine.execRecordStart c s
  | .arrivalSuspend c => Sys2Proof.Machine.execArrivalSuspend c s
  | .replication l c => Sys2Proof.Machine.execReplication l c s
  | .travelLaunchHold l => Sys2Proof.Machine.execTravelLaunchHold l s
  | .blockDone b => Sys2Proof.Machine.execBlockDone b s
  | .contextCreate x w => Sys2Proof.Machine.execContextCreate x w s
  | .contextEnd x => Sys2Proof.Machine.execContextEnd x s
  | .contextFree x => Sys2Proof.Machine.execContextFree x s
  | .seedChange x seed => Sys2Proof.Machine.execSeedChange x seed s
  | .registerWrite off bs => Sys2Proof.Machine.execRegisterWrite off bs s
  | .tlbInvalidate w => Sys2Proof.Machine.execTlbInvalidate w s
  | .tlbInvalidateComplete => Sys2Proof.Machine.execTlbInvalidateComplete s
  | .codeObjectLoad => Sys2Proof.Machine.execCodeObjectLoad s
  | .codeObjectUnload => Sys2Proof.Machine.execCodeObjectUnload s
  | .migrate => Sys2Proof.Machine.execMigrate s
  | .getVersion p req => Sys2Proof.Machine.execGetVersion p req s
  | .getCapabilities p req => Sys2Proof.Machine.execGetCapabilities p req s
  | .negotiateAlgorithms p req => Sys2Proof.Machine.execNegotiateAlgorithms p req s
  | .getDigests p req => Sys2Proof.Machine.execGetDigests p req s
  | .getCertificate p req => Sys2Proof.Machine.execGetCertificate p req s
  | .challenge p req => Sys2Proof.Machine.execChallenge p req s
  | .getMeasurements p req => Sys2Proof.Machine.execGetMeasurements p req s
  | .halt x => Sys2Proof.Machine.execHalt x s
  | .resume x => Sys2Proof.Machine.execResume x s
  | .list x => Sys2Proof.Machine.execList x s
  | .bset x => Sys2Proof.Machine.execBset x s
  | .bclr x => Sys2Proof.Machine.execBclr x s
  | .step x => Sys2Proof.Machine.execStep x s
  | .rval x => Sys2Proof.Machine.execRval x s
  | .rstat x => Sys2Proof.Machine.execRstat x s
  | .wset x => Sys2Proof.Machine.execWset x s
  | .wclr x => Sys2Proof.Machine.execWclr x s
  | .powerCapWrite w => Sys2Proof.Machine.execPowerCapWrite w s
  | .pwrstatRead => Sys2Proof.Machine.execPwrstatRead s
  | .sustainedThrottleStep d => Sys2Proof.Machine.execSustainedThrottleStep d s
  | .thermalThrottle d => Sys2Proof.Machine.execThermalThrottle d s
  | .thermalReset d => Sys2Proof.Machine.execThermalReset d s
  | .safelightHalt x => Sys2Proof.Machine.execSafelightHalt x s
  | .safelightRelease x => Sys2Proof.Machine.execSafelightRelease x s
  | .dieReset d => Sys2Proof.Machine.execDieReset d s
  | .moduleReset => Sys2Proof.Machine.execModuleReset s
  | .bringUpComplete => Sys2Proof.Machine.execBringUpComplete s
  | .firmwareStaging img => Sys2Proof.Machine.execFirmwareStaging img s
  | .getTid req => Sys2Proof.Machine.execGetTid req s
  | .getPldmVersion req => Sys2Proof.Machine.execGetPldmVersion req s
  | .getPldmTypes req => Sys2Proof.Machine.execGetPldmTypes req s
  | .getPldmCommands req => Sys2Proof.Machine.execGetPldmCommands req s
  | .getPdr req => Sys2Proof.Machine.execGetPdr req s
  | .getSensorReading id => Sys2Proof.Machine.execGetSensorReading id s
  | .getStateSensorReadings id => Sys2Proof.Machine.execGetStateSensorReadings id s
  | .setNumericEffecterValue id v => Sys2Proof.Machine.execSetNumericEffecterValue id v s
  | .getNumericEffecterValue id => Sys2Proof.Machine.execGetNumericEffecterValue id s
  | .requestUpdate => Sys2Proof.Machine.execRequestUpdate s
  | .activateFirmware => Sys2Proof.Machine.execActivateFirmware s
  | .lSlotResultArrival g sd => Sys2Proof.Machine.execLSlotResultArrival g sd s

end Sys2Proof.Machine
end

