-- ==== Sys2Proof/Machine/Fetch.lean ====
section
/-! DEFINITION. Fetching a portable instruction's words (R28, R31), and what stands around its execution: the debugger's hook and
step, the MARK before it (R147, R364, R393). -/

namespace Sys2Proof.Machine
open Sys2Proof

/-- The number of words of the instruction at a portable address, from its own fields (R31). -/
def fetchLen (s : State) (va : Nat) : Nat :=
  let w := codeWord s va
  let k := if w.extractLsb' 20 4 = 15 then 2 else 1
  let n := (w.extractLsb' 10 3).toNat
  if n = 7 then k + 1 + ((codeWord s (va + 4 * k)).toNat % 1024 + 1) / 2 else k + (n + 1) / 2

/-- The words of the instruction at a portable address. -/
def fetchWords (s : State) (va : Nat) : List Word := codeWords s va (fetchLen s va)

/-- The portable instruction that side sd of group g stands before, with its length: none when the side does not run. -/
def fetch (s : State) (g sd : Nat) : Option (Site × DecRes) :=
  match siteOf s g sd 0 with
  | none => none
  | some p => if p.grp.st = .ready ∧ p.side.canRun then some (p, decode (fetchWords s p.pc)) else none

/-- The code of the translation that a frame runs under. -/
def frameCode (s : State) (F : Frame) : Option NCode := (F.xlat.bind (fun x => s.xlats[x]?)).bind (·.code)

/-- Word offset of a frame's pc in its function's code. -/
def Frame.off (F : Frame) : Nat := (F.pc - F.fn - 0x20) / 4

/-- The MARK before an instruction: one that may wait, a limit of the region, a breakpoint's hook, or one that its translation placed
(R147, R364). -/
def marksHere (s : State) (p : Site) (i : Instr) : Bool :=
  markBefore i || decide (64 < p.side.age + i.gateWeight) || ((ctxAt s p.ctx).dbg && (ctxAt s p.ctx).bps.contains p.pc)
    || (frameCode s p.fr).any (fun c => c.marks.contains p.fr.off)

/-- The reloads that an instruction's translation issues before it are counted (R143, R155). -/
def reloads (p : Site) (s : State) : State :=
  match frameCode s p.fr with
  | none => s
  | some c => countEv p.ctx 0x47 (c.loads.filter (· = p.fr.off)).length s

/-- An `accacq` goes on with its grant: the MARK before it has passed, and the grant belongs to the region that follows (R415). -/
def granted (p : Site) : Instr → Bool
  | .accacq .. => p.side.pend == .done
  | _ => false

/-- The state in which an instruction of n words executes at its site. -/
def issued (s : State) (p : Site) (i : Instr) (n : Nat) : State :=
  { (reloads p (if marksHere s p i && !granted p i then commit p.g p.sd s else s)) with issue := .portable p.g p.sd n }

/-- The spill stores that the translation issues after an instruction that has completed: each value goes to its slots and is counted
(R143, R151, R155): each `spst`, and a reference's one `stt`. -/
def spills (p : Site) (s : State) : State :=
  match frameCode s p.fr, (s.groups[p.g]?).bind (fun G => (G.sides[p.sd]?).bind (fun S => S.core.frames.find? (fun F => F.fn = p.fr.fn))) with
  | some c, some F =>
    if F.pc = p.pc then s
    else
      (c.stores.filter (fun e => e.1 = p.fr.off)).foldl (fun s e =>
        let n := if valTy (blocksOf s F.fn) e.2.1 = some (.ty .ref) then 1 else e.2.2.2
        countEv p.ctx 0x46 n (spillVal p.g p.ctx p.grp.core p.grp.spill e.2.2.1 p.mask F e.2.1 e.2.2.2 e.2.2.1 s)) s
  | _, _ => s

/-- The hook's stop at pc is over for a side that has left it. -/
def Side.leaveHook (pc : Nat) (S : Side) : Side :=
  if S.skipHook && (match S.core.frames with | F :: _ => F.pc != pc | [] => true) then { S with skipHook := false } else S

/-- After an instruction of group g at pc: nothing issues, and a step notes that it has executed one. -/
def afterIssue (g pc : Nat) (s : State) : State :=
  stepSettle g ({ s with issue := .none }.updGroup g (fun G =>
    let held := G.sides.any (fun S => S.hold.isSome && (match S.core.frames with | F :: _ => F.pc == pc | [] => false))
    let ran := decide (G.stepping = some false ∧ G.st = GSt.ready) && !held
    let G := G.settleHolds
    { G with stepping := if ran then some true else G.stepping, sides := G.sides.map (Side.leaveHook pc) }))

/-- A native group that steps stops at its next MARK (R363). -/
def nativeHook (g : Nat) (s : State) : State :=
  match s.groups[g]? with
  | none => s
  | some G =>
    match G.native with
    | none => s
    | some N =>
      if G.stepping = some true ∧ G.st = .ready ∧ N.queue.all List.isEmpty then
        match [0, 1].find? (fun i => match nth none N.slots i with | some P => isMark (codeOf s G N P.pc) | none => false) with
        | some i => if groupStale s g then rollback g s else endStep g 1 (faultAt g i .stepComplete (match nth none N.slots i with | some P => N.port P.pc | none => 0) none 0 (nCommit g i s))
        | none => s
      else s

/-- The kind of slot field of a slot (R158). -/
def slotKind : Slot → SlotKind
  | .s => .s | .v0 | .v1 => .v | .f => .f | .l => .l | .m => .m | .a => .a

/-- The word at the head of a slot stream of a native group. -/
def slotWord (s : State) (g : Nat) (sl : Slot) : Option Nat :=
  ((s.groups[g]?).bind Group.native).bind (fun N => (N.head sl).map (fun e => e.word))

/-- A bundle whose slot field decodes to nothing is the illegal-bundle trap (R160). -/
def badSlot (g : Nat) (s : State) : State :=
  match nsite? s with
  | none => s
  | some p => faultAt g p.e.side .illegalBundle (p.nat.port p.e.pc) none 0 (p.pop s)

/-! ### Placing one instruction where the next step fetches it -/

/-- A minimal function image whose block 0 holds one instruction. -/
def probeImage (w : Nat) : List Byte :=
  leBytes 4 1 ++ leBytes 4 8 ++ List.replicate 24 0 ++ leBytes 4 0x0F000000 ++ leBytes 4 w

/-- The code object that holds it. -/
def probeObj : Obj :=
  { digest := 0, laddr := 0x10000, textLen := 0x40, ftab := [(0, 0x40)], feat := 7, mingen := 1, ctxs := [1], maps := [1], data := [],
    dataVa := 0, objects := [], live := true }

/-- The launch that runs it: one block of 128 threads on context 1. -/
def probeLaunch : Launch :=
  { ctx := 1, queue := 0, entry := 0, prio := 0, obj := 0, kaddr := 0x10000, nblk := 1, ntid := 128, budget := 254, crewLog := 0,
    amode := 0, fev := false, dies := 4, frame := 4096, params := [], csig := 0, travel := none, ranges := [], finished := 0,
    complete := false, waiting := [] }

/-- Its block, on core 128. -/
def probeBlock : Block := { launch := 0, bid := 0, core := 128, st := .running, arrivals := [], ended := [], part := 0 }

/-- The side that stands before it. -/
def probeSide : Side :=
  let c : SideCore := { mask := BitVec.allOnes 128, frames := [{ fn := 0x10000, pc := 0x10024, next := 0, vals := [], rets := [] }],
                        view := View.reset, joins := [] }
  Side.begin c none .running

/-- Its group. -/
def probeGroup (N : Option Native) : Group :=
  { newGroup 0 0 probeSide with core := 128, resident := true, stamp := 1, st := .ready, spillLen := 4096, native := N }

/-- Native state whose stream sl holds one slot operation. -/
def probeNative (sl : Slot) (w : Nat) : Native :=
  let P := PcSlot.start 0 (BitVec.allOnes 128)
  let e : NEntry := { bundle := 1, pc := 0, side := 0, mask := BitVec.allOnes 128, preds := List.replicate 8 0, il := true, word := w }
  { regs := { g := [], s := [], m := [], preds := List.replicate 8 0, x := List.replicate 4 { base := 0, len := 0, pair := false, idx := 0 },
              lc := List.replicate 4 { on := false, iter := 0, trip := 0, total := 0, head := 0, len := 0 }, fmw := 0, owner := 1, gOwn := [], mOwn := [] },
    slots := [some P, none], stack := [], markSlots := [some P, none], markStack := [], markPend := [], gone := [],
    shadow := [], buf0 := [], buf1 := [], win := List.replicate 16 Win.unset, k := List.replicate 16 none, pend := [],
    queue := allSlots.map (fun t => if t = sl then [e] else []), gated := [], ngated := [0, 0], bundles := 1, latch := [],
    base := 0, table := tableBytes 0x10020 1 [(0, 1)] [] 0 0 }

/-- Context 1 live with the object, the launch, the block and a group. -/
def probeState (N : Option Native) (w : Nat) (s : State) : State :=
  { s with
    ctxs := modifyAt (fun C => { C with valid := true, st := .live, quant := 1000000 }) s.ctxs 1
    mem := setBytes s.mem (keyCode 0x10000) (probeImage w)
    objs := [probeObj], launches := [probeLaunch], blocks := [probeBlock], groups := [probeGroup N] }

end Sys2Proof.Machine
end

