-- ==== Sys2Proof/Machine/Issue.lean ====
section
/-! DEFINITION. Issue of a fetched instruction and of a slot operation, the machine's own events that may come next, and the choice
among them (log entry 2). -/

namespace Sys2Proof.Machine
open Sys2Proof

/-! ### Issue -/

/-- What follows an outcome. -/
def onNext (f : State → State) : Out → Out
  | .next s => .next (f s)
  | o => o

/-- Side sd of group g executes the instruction that it stands before; words that are no instruction give their fault (R42). -/
def issuePortable (g sd : Nat) (s : State) : Out :=
  match fetch s g sd with
  | none => .next { s with issue := .none }
  | some (p, d) =>
    if groupStale s g then .next { rollback g s with issue := .none }
    else if p.grp.stepping = some true then .next (stepHook g sd p.pc { s with issue := .none })
    else if hookStop s p.ctx g sd p.pc then
      .next (({ faultAt g sd .breakpoint p.pc none 0 (commit g sd s) with issue := .none }).updSide g sd (fun S => { S with skipHook := true }))
    else
      match d with
      | .bad c => .next { faultAt g sd c p.pc none 0 s with issue := .none }
      | .ok i n => onNext (fun t => afterIssue g p.pc (spills p t)) (exec i (issued s p i n))

/-- The head of stream sl of native group g executes. -/
noncomputable def issueSlot (g : Nat) (sl : Slot) (s : State) : Out :=
  if groupStale s g then .next { rollback g s with issue := .none }
  else
  match (slotWord s g sl).bind (decodeSlot (slotKind sl)) with
  | none => .next { badSlot g s with issue := .none }
  | some i => onNext (fun t => nativeHook g (afterIssue g 0 t)) (exec i s)

/-! ### What may come next -/

/-- Events of a group. -/
noncomputable def groupEvents (e : Group × Nat) : List Instr :=
  let (G, g) := e
  if G.st = .ended then (if G.acc.isSome then (List.range 8).map (.tileWriteComplete g) else [])
  else
    [.translationMiss g, .sideRotation g, .tileRestore g, .watchSatisfied g, .twaitDeadline g, .nsleepExpiry g, .yieldEnd g,
     .travelDeparture g, .lSlotResultArrival g 0, .lSlotResultArrival g 1]
    ++ (List.range 8).flatMap (fun t => [.tileSave g t, .tileWriteComplete g t])
    ++ (List.range G.sides.length).map (fun sd => .timingCheck g sd false)

/-- Events of a core. -/
noncomputable def coreEvents (s : State) (c : Nat) : List Instr :=
  [.accGrant c, .mshrRetry c, .matrixUnitReset c, .engineReset c, .recordStart c, .arrivalSuspend c]
  ++ (if (nth Core.reset s.cores c).matrixReset then [.matrixResetComplete c] else [])
  ++ (residents s c).flatMap (fun e => e.2.translation.toList.flatMap (fun x => (List.range (xlatPages s x)).map (.instructionStoreFill c x)))

/-- The command at the head of a context's debug ring; HALT answers an unknown one (R362). -/
noncomputable def debugEvents (s : State) (x : Nat) : List Instr :=
  match debugHead s x with
  | none => []
  | some c =>
    match c.cmd with
    | 2 => [.resume x] | 3 => [.list x] | 4 => [.bset x] | 5 => [.bclr x] | 6 => [.step x] | 7 => [.rval x] | 8 => [.rstat x]
    | 9 => [.wset x] | 10 => [.wclr x] | _ => [.halt x]

/-- Events of a context. -/
noncomputable def ctxEvents (s : State) (x : Nat) : List Instr :=
  let C := ctxAt s x
  if C.st = .free then []
  else
    [.dispPoll x, .contextFree x] ++ (List.range 4).map (fun d => .quantumExpiry d x) ++ debugEvents s x
    ++ (match C.newSeed with | some n => if ctxResident s x then [] else [.seedChange x n] | none => [])
    ++ (dsPages s x).flatMap (fun l => (List.range 4).map (fun d => .pageMigration x (BitVec.ofNat 64 l.va) d))

/-- Events of a block. -/
noncomputable def blockEvents (s : State) (e : Block × Nat) : List Instr :=
  let (B, b) := e
  let live : Bool := match s.launches[B.launch]? with | some L => (ctxAt s L.ctx).st == .live || (ctxAt s L.ctx).st == .halted | none => false
  [.blockDone b] ++ (if live then [.crewSuspend b] else [])
  ++ (if B.st = .suspended then (List.range 208).map (fun c => .crewResume b c) else [])

/-- Events of a launch. -/
noncomputable def launchEvents (e : Launch × Nat) : List Instr :=
  let (L, l) := e
  if L.complete then []
  else
    (List.range 26).map (fun cl => .workSteal l cl) ++ [.travelLaunchHold l]
    ++ (match L.travel with | some T => T.above.map (fun a => .replication l a.1) | none => [])

/-- Events of a cluster. -/
noncomputable def clusterEvents (cl : Nat) : List Instr :=
  [.clockRestore cl, .blockPlace cl, .blockWaitLimit cl, .barrierReleaseWave cl]

/-- Events of a queue. -/
noncomputable def queueEvents (q : Nat) : List Instr :=
  [.tailPoll q, .queueLaunch q, .queueWait q, .queueDecrement q, .queueSet q, .queueNoOperation q]

/-- Events of the mailbox and of the management units. -/
noncomputable def unitEvents (s : State) : List Instr :=
  let req := s.mbox.spdm.take s.mbox.mlen
  (if s.mbox.codeRun.isSome then [.codeObjectLoad, .codeObjectUnload] else [])
  ++ (if s.mbox.migRun.isSome then [.migrate] else [])
  ++ (if s.mbox.spdmRun then
        (match blockNat req 1 1 with
         | 0x81 => [.getDigests .host req] | 0x82 => [.getCertificate .host req] | 0x83 => [.challenge .host req]
         | 0x84 => [.getVersion .host req] | 0xE0 => [.getMeasurements .host req] | 0xE1 => [.getCapabilities .host req]
         | 0xE3 => [.negotiateAlgorithms .host req] | _ => [])
      else [])
  ++ (if s.tlbinv.run.isSome then [.tlbInvalidateComplete] else [])
  ++ (if s.full then [] else [.bringUpComplete])
  ++ (List.range 4).flatMap (fun d => [.sustainedThrottleStep d, .thermalThrottle d, .thermalReset d])

/-- A submitted SPDM message whose code no row of R374 has. -/
def unknownSpdm (s : State) : Bool :=
  s.mbox.spdmRun && !([0x81, 0x82, 0x83, 0x84, 0xE0, 0xE1, 0xE3].contains (blockNat (s.mbox.spdm.take s.mbox.mlen) 1 1))

/-- Everything that may come next. -/
noncomputable def choices (s : State) : List Choice :=
  let cores := uniq (s.groups.map (fun G => G.core) ++ s.recs.map (fun r => r.core))
  let events : List Instr :=
    s.groups.zipIdx.flatMap groupEvents ++ cores.flatMap (coreEvents s) ++ (List.range 64).flatMap (ctxEvents s)
    ++ s.blocks.zipIdx.flatMap (blockEvents s) ++ s.launches.zipIdx.flatMap launchEvents ++ (List.range 26).flatMap clusterEvents
    ++ s.queues.flatMap (fun e => queueEvents e.1)
    ++ s.engs.flatMap (fun E => [.engineStart E.id, .tokenComplete E.id, .collectiveTimeout E.id])
    ++ s.walks.flatMap (fun W => [.claimRound W.id, .markPhase W.id, .rootStore W.id])
    ++ (List.range s.xlats.length).map (fun x => .translationComplete x)
    ++ unitEvents s ++ (List.range 208).map (fun c => .bundleDispatch c)
  events.map .event
    ++ (if s.agenda.isEmpty then [] else [.outside])
    ++ (cores.filter (fun c => (nativeIssue s c).isSome)).map .unit
    ++ (if unknownSpdm s then [.refuse] else [])
    ++ (List.range 64).filterMap (fun x => (turnMsg s x).map .message)
    ++ s.groups.zipIdx.flatMap (fun e => (List.range e.1.wbuf.length).map (.store e.2))
    ++ (s.groups.zipIdx.filter (fun e => e.1.st == .ready && e.1.native.isNone)).map (fun e => .early e.2)

/-- Each millisecond that has begun halves the migration counters of every context (R199). -/
noncomputable def dueHalvings (t0 : Nat) (s : State) : State :=
  { s with agenda := (List.replicate (s.time / 1000000 - t0 / 1000000)
      (((List.range 64).filter (fun x => (ctxAt s x).valid)).map (fun x => Instr.counterHalving x))).flatMap id ++ s.agenda }

/-- What a choice does. -/
noncomputable def runChoice (c : Choice) (s : State) : Out :=
  match c with
  | .event i => onNext (dueHalvings s.time) (exec i s)
  | .outside => (match s.agenda with | [] => .next s | i :: r => exec i { s with agenda := r })
  | .unit c =>
    .next (match nativeIssue s c with
      | some (sl, g, i) => { noteUnit c sl i s with issue := .slot g sl }
      | none => s)
  | .refuse => .next (refuseSpdm s)
  | .message i => .next (stepMsg false i s)
  | .store g i => .next (landOne g i s)
  | .early g =>
    .next (let f := Config.freeNat s.fresh
           readEarly g (f 0 % 128) (f 1) (1 + f 2 % 16) s.tick)

/-- A turn: the first that still may come of those that wait for one; with none left, all that may come wait for one (R6). -/
noncomputable def takeTurn (s : State) : Out :=
  let cs := choices s
  match s.rota.dropWhile (fun c => !cs.contains c) with
  | c :: r => runChoice c { s with rota := r, since := 0 }
  | [] => .next { s with rota := cs, since := 0 }

/-- The next thing of all that may come, by free choice; after a bounded number of choices, a turn, so that nothing which stays possible
waits for ever (R6; log entry 84). -/
noncomputable def chooseNext (s : State) : Out :=
  if Config.fairBound ≤ s.since then takeTurn s.tick
  else
    let cs := choices s
    let t := { s.tick with since := s.since + 1 }
    match cs[Config.freeNat s.fresh 1 % cs.length]? with
    | none => .next t
    | some c => runChoice c t

end Sys2Proof.Machine
end

