-- ==== Sys2Proof/Machine/Step.lean ====
section
/-! DEFINITION. One step of the machine, and the placing of one instruction where the next step fetches it. -/

namespace Sys2Proof.Machine
open Sys2Proof

/-- One step: what has been dispatched issues; with nothing dispatched, one of the things that may come next (log entry 2). -/
noncomputable def step (s : State) : Host.Outcome State Fault Refusal :=
  match s.issue with
  | .portable g sd _ => issuePortable g sd s
  | .slot g sl => issueSlot g sl s
  | .none => chooseNext s

/-- The instruction of nbits bits with bits w where the next step fetches it: portable words in a kernel on context 1, or a slot
operation at the head of its stream, issuing (log entry 9). -/
noncomputable def State.withFetchWord (s : State) (nbits w : Nat) : State :=
  let slot := fun (sl : Slot) => { probeState (some (probeNative sl w)) 0 s with issue := Issue.slot 0 sl }
  if nbits = 24 then slot .m
  else if nbits = 40 then (if (decodeSlot .v w).isSome then slot .v0 else slot .l)
  else
    match decode (BitVec.ofNat 32 w :: List.replicate 600 0) with
    | .ok _ _ => { probeState none w s with issue := .portable 0 0 0 }
    | .bad _ =>
      if (decodeSlot .s w).isSome then slot .s
      else if (decodeSlot .f w).isSome then slot .f
      else slot .a

end Sys2Proof.Machine
end

