-- ==== Sys2Proof/Safety.lean ====
section
/-! DEFINITION. What a safe run is, the canonical form of the storage, and the terms the statements are written in: what one
instruction of a portable side has done when it has completed. -/

namespace Sys2Proof.Machine
open Sys2Proof

/-- The step answers a next state. -/
def Runs (s : State) : Prop := ∃ t, step s = .next t

/-- Every step from s answers a next state, n times. -/
def SafeFor : Nat → State → Prop
  | 0, _ => True
  | n + 1, s => ∃ t, step s = .next t ∧ SafeFor n t

/-! ### Storage -/

/-- The bytes of storage stand in the canonical form: keys strictly rising, no listed zero (log entry 4). -/
def Memory.wf (s : State) : Bool := NMap.wf 0 s.mem

/-- Every map of the storage stands in its canonical form. -/
def Storage.wf (s : State) : Bool :=
  Memory.wf s && NMap.wf false s.tag && NMap.wf (LSt.shared, 0) s.lines && NMap.wf (0, 0) s.owner && NMap.wf false s.dirty
    && NMap.wf false s.poison

/-- Storage is the same in both states: bytes, tags, line states, owners, dirty bits and poison. -/
structure SameStorage (s t : State) : Prop where
  mem : t.mem = s.mem
  tag : t.tag = s.tag
  lines : t.lines = s.lines
  owner : t.owner = s.owner
  dirty : t.dirty = s.dirty
  poison : t.poison = s.poison

/-- Context x owns every line that n bytes from key a touch. -/
def Owns (s : State) (x a n : Nat) : Prop :=
  ∀ ln, a / 64 ≤ ln → ln ≤ (a + n - 1) / 64 → NMap.get (0, 0) s.owner ln = ownerWord s x

/-! ### Queues -/

/-- Queue q of a live context, with TAIL at t, may start the entry e of a kind at its head (R285, R286, R288). -/
structure Serving (s : State) (q kind : Nat) (e : QEntry) (t : Nat) : Prop where
  st : (queueAt s q).st = .ready ∨ (queueAt s q).st = .waiting
  live : (ctxAt s (queueAt s q).ctx).st = .live
  waits : (queueAt s q).waits = []
  tail : ringTail (queueSeen s q) q = some t
  some : t ≠ (queueAt s q).head
  fits : (BitVec.ofNat 64 t - BitVec.ofNat 64 (queueAt s q).head).toNat ≤ (queueAt s q).size
  mapped : (ctxKey (queueSeen s q) (queueAt s q).ctx ((queueAt s q).entry (queueAt s q).head) false).isSome = true
  entry : e = QEntry.ofBytes (ctxBytes (queueSeen s q) (queueAt s q).ctx ((queueAt s q).entry (queueAt s q).head) 64)
  line : (ctxBytes (queueSeen s q) (queueAt s q).ctx ((queueAt s q).rbase + 8) 56).any (· != 0) = false
  sort : e.kind = kind
  one : 1 ≤ kind
  five : kind ≤ 5
  clean : e.dirty = false
  free : ((queueAt s q).ser = false ∧ e.flags % 2 ≠ 1) ∨ queueOpen (queueSeen s q) (queueAt s q) = false

/-! ### What a completed portable instruction has done -/

/-- The two states agree in everything but the sides of group g. -/
structure OnlySides (g : Nat) (s t : State) : Prop where
  rest : t = { s with groups := t.groups }
  others : ∀ k, k ≠ g → t.groups[k]? = s.groups[k]?
  group : ∀ G, s.groups[g]? = some G → ∃ l, t.groups[g]? = some { G with sides := l }

/-- The instruction at p has gone on to its successor with its side's view v, and has changed nothing else. -/
def Advanced (p : Site) (v : View) (s t : State) : Prop :=
  OnlySides p.g s t ∧
  t.groups[p.g]? = some { p.grp with sides := modifyAt (fun S =>
    { S with core := { S.core with view := v, frames := { p.fr with pc := p.fr.pc + 4 * p.len } :: S.core.frames.tail } }) p.grp.sides p.sd }

/-- The frame F is p's after the instruction has defined vs: the value of the next number is vs in the active lanes, every other
value, the function and the return values are as they were, and the pc stands past the instruction. -/
structure DefinesIn (p : Site) (vs : List Val) (F : Frame) : Prop where
  fn : F.fn = p.fr.fn
  pc : F.pc = p.fr.pc + 4 * p.len
  next : F.next = p.fr.next + 1
  rets : F.rets = p.fr.rets
  active : ∀ l, l < 128 → p.mask.getLsbD l = true → nth (.bits 0) (NMap.get [] F.vals p.fr.next) l = nth (.bits 0) vs l
  inactive : ∀ l, l < 128 → p.mask.getLsbD l = false →
    nth (.bits 0) (NMap.get [] F.vals p.fr.next) l = nth (.bits 0) (NMap.get [] p.fr.vals p.fr.next) l
  others : ∀ n, n ≠ p.fr.next → NMap.get [] F.vals n = NMap.get [] p.fr.vals n

/-- The instruction at p has defined vs in the active lanes, left its side with view v, gone on to its successor, and has changed
nothing else: no storage, no register of another group or side, no special register, no outer frame. -/
def Defined (p : Site) (vs : List Val) (v : View) (s t : State) : Prop :=
  OnlySides p.g s t ∧
  ∃ F, DefinesIn p vs F ∧
    t.groups[p.g]? = some { p.grp with sides := modifyAt (fun S =>
      { S with core := { S.core with view := v, frames := F :: S.core.frames.tail } }) p.grp.sides p.sd }

/-- Instruction i completes at p and defines vs. -/
def Gives (i : Instr) (s : State) (p : Site) (vs : List Val) : Prop :=
  ∃ t, exec i s = .next t ∧ Defined p vs p.side.core.view s t

/-- Instruction i completes at p, defines the bits of rs lane by lane, and raises their flags in the side's view. -/
def GivesFlags (i : Instr) (s : State) (p : Site) (rs : List (DWord × Flags)) : Prop :=
  ∃ t, exec i s = .next t ∧ Defined p (rs.map (fun r => .bits r.1))
    (p.side.core.view.raise p.lau.fev p.pc (laneEvents p.mask (rs.map (·.2)))) s t

/-- The state in which the access of an instruction at p has passed its checks: a watchpoint that was ignored once is back in
force, the pages are counted, and the requests are made (R199, R204, R365). -/
def accessed (p : Site) (n : Nat) (as : List DWord) (accs : List (Nat × Acc)) (s : State) : State :=
  p.requests s n as accs (p.rearm (p.touch n as s))

/-- The checks of an access pass in every active lane, and no watchpoint stops it. -/
def Passes (s : State) (p : Site) (n : Nat) (mask : BitVec 3) (rd wr : Bool) (as : List DWord) (accs : List (Nat × Acc)) : Prop :=
  checkLanes s p n n mask rd wr as = .ok accs ∧ watchLane s p n rd wr as accs = none

/-! ### What a completed slot operation has done -/

/-- The write of register r that the operation at p makes. -/
def NSite.wr (p : NSite) (r : Reg) (lat : Nat) (m : Mask) (vals : List DWord) (late : Bool) : PendW :=
  { slot := p.sl, side := p.e.side, bundle := p.e.bundle, ready := p.e.bundle + lat, reg := r, mask := m, vals := vals, late := late }

/-- The write of vector register n; g0 discards it (R161). -/
def NSite.wrG (p : NSite) (n lat : Nat) (m : Mask) (vals : List DWord) : List PendW :=
  if n = 0 then [] else [p.wr (.g n) lat m vals false]

/-- The write of an L result into vector register n, late until it arrives (R179). -/
def NSite.wrL (p : NSite) (n lat : Nat) (m : Mask) (vals : List DWord) : List PendW :=
  if n = 0 then [] else [p.wr (.g n) lat m vals true]

/-- The write of the slot's operand buffer that KP makes with the lanes a of operand A (R165). -/
def NSite.wrBuf (p : NSite) (v : VOp) (a : List DWord) : List PendW :=
  if v.kp then [p.wr (.buf (if p.sl = .v1 then 1 else 0)) 1 (p.act v.grd) a false] else []

/-- Of an operation whose A is a vector register. -/
def NSite.wrA (p : NSite) (v : VOp) : List PendW := p.wrBuf v (p.g_ v.a.toNat)

/-- The native state of the group in s, where nothing else issues. -/
def NSite.own (p : NSite) : Native := p.grp.native.getD p.nat

/-- The native state with the operation gone from its queue. -/
def NSite.popped (p : NSite) : Native := { p.own with queue := modifyAt List.tail p.own.queue (slotIx p.sl) }

/-- The operation at p has left the native state N, and has changed nothing else: no storage, no other group, no other part of its
own; the free values taken are counted. -/
structure Issued (p : NSite) (N : Native) (s t : State) : Prop where
  rest : t = { s with groups := t.groups, fresh := t.fresh }
  others : ∀ k, k ≠ p.g → t.groups[k]? = s.groups[k]?
  group : t.groups[p.g]? = some { p.grp with native := some N }

/-- Instruction i completes at p and leaves the native state N. -/
def NGives (i : Instr) (s : State) (p : NSite) (N : Native) : Prop :=
  ∃ t, exec i s = .next t ∧ Issued p N s t

/-- Instruction i completes at p: it leaves its queue and adds the writes ws to those that are not readable yet. -/
def NWrites (i : Instr) (s : State) (p : NSite) (ws : List PendW) : Prop :=
  NGives i s p { p.popped with pend := p.own.pend ++ ws }

/-- As NWrites, and the lanes' flags evs are raised in the view of the operation's side, at its portable address. -/
def NRaises (i : Instr) (s : State) (p : NSite) (evs : List (Nat × Flags)) (ws : List PendW) : Prop :=
  NGives i s p { p.popped with
    pend := p.own.pend ++ ws,
    slots := modifyAt (Option.map (PcSlot.raise p.lau.fev p.sl p.e.bundle (p.nat.port p.e.pc) p.e.pc evs)) p.own.slots p.e.side }

/-- Instruction i completes at p and writes uniform registers, each with the window bound to it gone stale (R195). -/
def NUniform (i : Instr) (s : State) (p : NSite) (ws : List (Nat × Word)) : Prop :=
  NGives i s p { p.popped with
    pend := p.own.pend ++ ws.map (fun w => p.wr (.s w.1) 2 0 [w.2.zeroExtend 64] false),
    win := ws.foldl (fun l w => staleWin w.1 l) p.own.win }

end Sys2Proof.Machine
end

