-- ==== Sys2Proof/Certificates/Slice0/Obligations.lean ====
section
/-! DEFINITION. The statements for the provers. -/

section
open Sys2Proof Sys2Proof.Machine

/-! ### Results of the integer, floating-point, special-function and moment instructions -/

/-- R77 to R82: where both operands are readable, each integer instruction of two operands of one type gives its lane results in the
active lanes, and changes nothing else. -/
def Obligations.IntegerResultsOfTwoOperands : Prop :=
  ∀ (s : State) (p : Site), site? s = some p → ∀ (h : BitVec 2) (t : Ty) (a b : Opnd) (xs ys : List DWord),
    opndBits s p t a = some xs → opndBits s p t b = some ys →
    let w := Ty.bits t
    let two := fun (f : DWord → DWord → DWord) => (List.zipWith f xs ys).map Val.bits
    (∀ sg, Gives (.add h t sg a b) s p (two (iAdd w))) ∧
    (∀ sg, Gives (.sub h t sg a b) s p (two (iSub w))) ∧
    (∀ sg sat, Gives (.mul h t sg sat a b) s p (two (iMul sg sat w))) ∧
    (∀ sg, Gives (.mulhi h t sg a b) s p (two (iMulhi sg w))) ∧
    (∀ sg, Gives (.div h t sg a b) s p (two (fun x y => (iDivRem sg w x y).1))) ∧
    (∀ sg, Gives (.rem h t sg a b) s p (two (fun x y => (iDivRem sg w x y).2))) ∧
    (∀ sg, Gives (.min h t sg a b) s p (two (iMin sg w))) ∧
    (∀ sg, Gives (.max h t sg a b) s p (two (iMax sg w))) ∧
    Gives (.and h t a b) s p (two (fun x y => x &&& y)) ∧
    Gives (.or h t a b) s p (two (fun x y => x ||| y)) ∧
    Gives (.xor h t a b) s p (two (fun x y => lowBits w (x ^^^ y))) ∧
    (∀ sg, Gives (.addsat h t sg a b) s p (two (iAddsat sg w))) ∧
    (∀ sg, Gives (.subsat h t sg a b) s p (two (iSubsat sg w))) ∧
    (∀ cc sg, Gives (.cmp h cc sg t a b) s p (two (fun x y => b1 (intCond cc (rdInt sg w x) (rdInt sg w y)))))

/-- R77 to R82: the integer instructions of one operand, of an operand and a shift count, of bit fields, `mad`, `sel` and `lea`. -/
def Obligations.IntegerResultsOfOtherForms : Prop :=
  ∀ (s : State) (p : Site), site? s = some p → ∀ (h : BitVec 2) (t : Ty) (a : Opnd) (xs : List DWord), opndBits s p t a = some xs →
    let w := Ty.bits t
    let one := fun (f : DWord → DWord) => (xs.map f).map Val.bits
    let lanes := fun (f : Nat → DWord) => (List.range 128).map (fun i => Val.bits (f i))
    (∀ sat, Gives (.neg h t sat a) s p (one (iNeg sat w))) ∧
    (∀ sat, Gives (.abs h t sat a) s p (one (iAbs sat w))) ∧
    Gives (.not h t a) s p (one (iNot w)) ∧
    Gives (.clz h t a) s p (one (iClz w)) ∧
    Gives (.popc h t a) s p (one (iPopc w)) ∧
    Gives (.brev h t a) s p (one (iBrev w)) ∧
    (∀ u sg, Gives (.ext h u sg t a) s p (one (iExt sg w (Ty.bits u)))) ∧
    (∀ u sg sat, Gives (.trunc h u sg sat t a) s p (one (iTrunc sg sat w (Ty.bits u)))) ∧
    (∀ n ns, opndBits s p .i32 n = some ns →
      let two := fun (f : DWord → DWord → DWord) => (List.zipWith f xs ns).map Val.bits
      Gives (.shl h t a n) s p (two (fun x k => iShl w x k.toNat)) ∧
      (∀ sg, Gives (.shr h t sg a n) s p (two (fun x k => iShr sg w x k.toNat))) ∧
      Gives (.rotl h t a n) s p (two (fun x k => iRotl w x k.toNat)) ∧
      (∀ l ls, opndBits s p .i32 l = some ls → ∀ sg,
        Gives (.bfx h t sg a n l) s p (lanes (fun i => iBfx sg w (nth 0 xs i) (nth 0 ns i).toNat (nth 0 ls i).toNat)))) ∧
    (∀ b ys, opndBits s p t b = some ys →
      (∀ c zs, opndBits s p t c = some zs → ∀ sg,
        Gives (.mad h t sg a b c) s p (lanes (fun i => iMad sg w (nth 0 xs i) (nth 0 ys i) (nth 0 zs i)))) ∧
      (∀ n l ns ls, opndBits s p .i32 n = some ns → opndBits s p .i32 l = some ls →
        Gives (.bfi h t a b n l) s p (lanes (fun i => iBfi w (nth 0 xs i) (nth 0 ys i) (nth 0 ns i).toNat (nth 0 ls i).toNat))) ∧
      (∀ u i is, opndBits s p u i = some is → ∀ sg k,
        Gives (.lea h t sg u k a i b) s p
          (lanes (fun j => iLea sg w (Ty.bits u) k.toNat (nth 0 xs j) (nth 0 is j) (nth 0 ys j)))))

/-- R72, R76, R77: `copy.v` gives the bits and the tag of its source, and `sel` those of one of its two sources by the condition, for
values of every type that may be copied, register arrays included; `copy.v` of a return value gives, where the call before it has returned
a value of that number, that value. -/
def Obligations.CopyAndSelectResults : Prop :=
  (∀ (s : State) (p : Site), site? s = some p → ∀ (h : BitVec 2) (t : TyD) (a : Opnd) (vs : List Val), opndVals s p t a = some vs →
    Gives (.copyV h t a) s p vs ∧
    (∀ c b cs us, opndBits s p .b1 c = some cs → opndVals s p t b = some us →
      Gives (.sel h t c a b) s p
        ((List.range 128).map (fun i => if nth 0 cs i = 1 then nth (.bits 0) vs i else nth (.bits 0) us i)))) ∧
  (∀ (s : State) (p : Site), site? s = some p → ∀ (h : BitVec 2) (t : TyD) (k : Opnd) (vs : List Val),
    p.fr.rets[immNat k]? = some vs → Gives (.copyVRet h t k) s p vs)

/-- R83 to R86: the floating-point instructions of one and two operands, with the flags that each lane raises. -/
def Obligations.FloatResults : Prop :=
  ∀ (s : State) (p : Site), site? s = some p → ∀ (h : BitVec 2) (t : Ty) (a : Opnd) (xs : List DWord), opndBits s p t a = some xs →
    let f := Ty.fmt t
    let one := fun (g : DWord → DWord) => (xs.map g).map Val.bits
    let lanes := fun (g : Nat → DWord × Flags) => (List.range 128).map g
    Gives (.fneg h t a) s p (one (fpNeg f)) ∧
    Gives (.fabs h t a) s p (one (fpAbs f)) ∧
    Gives (.fclass h t a) s p (one (fpClass f)) ∧
    (∀ rm dn, Gives (.frnd h t rm dn a) s p (one (fpRnd f rm dn))) ∧
    (∀ n ns, opndBits s p .i32 n = some ns → ∀ rm dn,
      GivesFlags (.fscale h t rm dn a n) s p (lanes (fun i => fpScale f rm dn (nth 0 xs i) (rdInt true 32 (nth 0 ns i))))) ∧
    (∀ b ys, opndBits s p t b = some ys →
      let two := fun (g : DWord → DWord → DWord) => (List.zipWith g xs ys).map Val.bits
      (∀ dn, Gives (.fmin h t dn a b) s p (two (fpMinMax false f dn))) ∧
      (∀ dn, Gives (.fmax h t dn a b) s p (two (fpMinMax true f dn))) ∧
      Gives (.fcopysign h t a b) s p (two (fpCopysign f)) ∧
      (∀ cc dn, Gives (.fcmp h cc t dn a b) s p (two (fun x y => b1 (fpCmp f dn cc x y)))) ∧
      (∀ rm dn,
        GivesFlags (.fadd h t rm dn a b) s p (lanes (fun i => fpAdd f rm dn (nth 0 xs i) (nth 0 ys i))) ∧
        GivesFlags (.fsub h t rm dn a b) s p (lanes (fun i => fpSub f rm dn (nth 0 xs i) (nth 0 ys i))) ∧
        GivesFlags (.fmul h t rm dn a b) s p (lanes (fun i => fpMul f rm dn (nth 0 xs i) (nth 0 ys i))) ∧
        GivesFlags (.fdiv h t rm dn a b) s p (lanes (fun i => fpDiv f rm dn (nth 0 xs i) (nth 0 ys i))) ∧
        (∀ c zs, opndBits s p t c = some zs →
          GivesFlags (.fma h t rm dn a b c) s p (lanes (fun i => fpFma f rm dn (nth 0 xs i) (nth 0 ys i) (nth 0 zs i))))))

/-- R86 to R89, R98 to R100: conversions, packing, residues and the special functions.
The model's own readings and choices in it: log entry 12. -/
def Obligations.ConversionAndSpecialFunctionResults : Prop :=
  ∀ (s : State) (p : Site), site? s = some p → ∀ (h : BitVec 2) (a : Opnd),
    let lanes := fun (g : Nat → DWord × Flags) => (List.range 128).map g
    (∀ st xs, opndC s p st a = some xs → ∀ k t rm dn,
      GivesFlags (.cvt h k t st rm dn a) s p (lanes (fun i => cvtLane k t st rm dn (nth 0 xs i)))) ∧
    (∀ e as yss, opndAllC s p e as = some yss →
      GivesFlags (.pack h e as) s p (lanes (fun i => (packLane (CTy.bits e) (yss.map (fun ys => nth 0 ys i)), 0)))) ∧
    (∀ xs, opndBits s p .i32 a = some xs →
      (∀ e n, Gives (.unpack h e n a) s p ((xs.map (unpackLane (CTy.bits e) n.toNat)).map Val.bits)) ∧
      (∀ sg, GivesFlags (.rsdenc h sg a) s p (lanes (fun i => rsdencLane sg (nth 0 xs i)))) ∧
      GivesFlags (.rsddec h a) s p (lanes (fun i => rsddecLane (nth 0 xs i)))) ∧
    (∀ xs, opndBits s p .f32 a = some xs → ∀ dn,
      let sf := fun (f : Bool → DWord → DWord × Flags) => lanes (fun i => f dn (nth 0 xs i))
      GivesFlags (.exp2 h dn a) s p (sf sfExp2) ∧ GivesFlags (.log2 h dn a) s p (sf sfLog2) ∧
      GivesFlags (.rcp h dn a) s p (sf sfRcp) ∧ GivesFlags (.sqrt h dn a) s p (sf sfSqrt) ∧
      GivesFlags (.rsqrt h dn a) s p (sf sfRsqrt) ∧ GivesFlags (.sinpi h dn a) s p (sf sfSinpi) ∧
      GivesFlags (.cospi h dn a) s p (sf sfCospi) ∧ GivesFlags (.tanh h dn a) s p (sf sfTanh) ∧
      GivesFlags (.sigmoid h dn a) s p (sf sfSigmoid) ∧ GivesFlags (.erf h dn a) s p (sf sfErf))

/-- R103 to R110: a moment instruction gives its lane results and their flags where no active lane's variance is invalid, and takes
the negative-variance fault of the lowest such lane where one is (R106).
The model's own readings and choices in it: log entry 13. -/
def Obligations.MomentResults : Prop :=
  ∀ (s : State) (p : Site), site? s = some p → ∀ (h : BitVec 2) (a : Opnd),
    let done := fun (i : Instr) (rs : List MoRes) =>
      (badLane p.mask rs = none → GivesFlags i s p (rs.map (fun r => (r.bits, r.flags)))) ∧
      (∀ l, badLane p.mask rs = some l → exec i s = .next (takeFault p .negativeVariance (some l) 0 s))
    let lanes := fun (g : Nat → MoRes) => (List.range 128).map g
    (∀ xs, opndBits s p .mo a = some xs → ∀ cl,
      let mo1 := fun (g : Mo → Sys2Proof.Machine.Step × Sys2Proof.Machine.Step) => lanes (fun i => moFrame cl [nth 0 xs i] (fun ps => g (nth ⟨0, 0⟩ ps 0)))
      done (.mexp h cl a) (mo1 moExp) ∧ done (.mrelu h cl a) (mo1 moRelu) ∧
      done (.msig h cl a) (mo1 (fun q => moSig (kst q.m) (kst q.v))) ∧ done (.mtanh h cl a) (mo1 moTanh) ∧
      done (.mgelu h cl a) (mo1 moGelu) ∧
      (∀ sel, done (.mcol h sel cl a none) (lanes (fun i => moCol sel cl (nth 0 xs i) (moF32 0)))) ∧
      (∀ sel k ks, opndBits s p .f32 k = some ks →
        done (.mcol h sel cl a (some k)) (lanes (fun i => moCol sel cl (nth 0 xs i) (moF32 (nth 0 ks i))))) ∧
      (∀ u t us ts, opndBits s p .f32 u = some us → opndBits s p .f32 t = some ts →
        done (.mscale h cl a u t) (lanes (fun i => moFrame cl [nth 0 xs i]
          (fun ps => moScale (nth ⟨0, 0⟩ ps 0) (moF32 (nth 0 us i)) (moF32 (nth 0 ts i)))))) ∧
      (∀ b ys, opndBits s p .mo b = some ys →
        (∀ cv,
          let mo2 := fun (g : Mo → Mo → DWord → Sys2Proof.Machine.Step × Sys2Proof.Machine.Step) (c : Nat → DWord) =>
            lanes (fun i => moFrame cl [nth 0 xs i, nth 0 ys i] (fun ps => g (nth ⟨0, 0⟩ ps 0) (nth ⟨0, 0⟩ ps 1) (moF32 (c i))))
          done (.madd h cv cl a b none) (mo2 (moAdd cv) (fun _ => 0)) ∧
          done (.msub h cv cl a b none) (mo2 (moSub cv) (fun _ => 0)) ∧
          done (.mmul h cv cl a b none) (mo2 (moMul cv) (fun _ => 0)) ∧
          (∀ c cs, opndBits s p .f32 c = some cs →
            done (.madd h cv cl a b (some c)) (mo2 (moAdd cv) (nth 0 cs)) ∧
            done (.msub h cv cl a b (some c)) (mo2 (moSub cv) (nth 0 cs)) ∧
            done (.mmul h cv cl a b (some c)) (mo2 (moMul cv) (nth 0 cs))) ∧
          (∀ d zs, opndBits s p .mo d = some zs →
            let mo3 := fun (c : Nat → DWord) => lanes (fun i => moFrame cl [nth 0 xs i, nth 0 ys i, nth 0 zs i]
              (fun ps => moFma cv (nth ⟨0, 0⟩ ps 0) (nth ⟨0, 0⟩ ps 1) (nth ⟨0, 0⟩ ps 2) (moF32 (c i))))
            done (.mfma h cv cl a b d none) (mo3 (fun _ => 0)) ∧
            (∀ c cs, opndBits s p .f32 c = some cs → done (.mfma h cv cl a b d (some c)) (mo3 (nth 0 cs))))))) ∧
    (∀ v xs vs, opndBits s p .f32 a = some xs → opndBits s p .f32 v = some vs → ∀ cl,
      done (.mmake h cl a v) (lanes (fun i => moMake cl (nth 0 xs i) (nth 0 vs i))))

/-! ### Cross-lane results and register arrays -/

/-- R90 to R93: shuffles move values with their tags, `bcast` gives one lane's value to every active lane, votes and ballots read the
active lanes, and reductions and scans give the values of the tree of R62 and raise its flags. -/
def Obligations.CrossLaneResults : Prop :=
  ∀ (s : State) (p : Site), site? s = some p → ∀ (h : BitVec 2),
    (∀ t v k vs ks, opndVals s p (.ty t) v = some vs → opndBits s p .i32 k = some ks →
      (∀ m, Gives (.shfl h m t v k) s p
        ((List.range 128).map (fun i => shflLane (.bits 0) p.mask vs (shflSrc m i (nth 0 ks i).toNat) i))) ∧
      Gives (.bcast h t v k) s p (List.replicate 128 (bcastVal (.bits 0) p.mask vs (nth 0 ks p.low).toNat))) ∧
    (∀ c cs, opndBits s p .b1 c = some cs →
      (∀ m, Gives (.vote h m c) s p (List.replicate 128 (.bits (b1 (voteVal m p.mask cs))))) ∧
      (∀ hi, Gives (.ballot h hi c) s p (List.replicate 128 (.bits (ballotVal hi p.mask cs))))) ∧
    (∀ t v vs, opndBits s p t v = some vs → ∀ op sg rm dn,
      let c := redComb op sg rm dn t
      (∃ u, exec (.redg h op sg rm dn t v) s = .next u ∧
        Defined p (List.replicate 128 (.bits (redVal c.1 c.2 p.mask vs).1))
          (p.side.core.view.raise p.lau.fev p.pc (redVal c.1 c.2 p.mask vs).2) s u) ∧
      (∀ x, ∃ u, exec (.scang h x op sg rm dn t v) s = .next u ∧
        Defined p ((scanVal x c.1 c.2 p.mask vs).1.map .bits)
          (p.side.core.view.raise p.lau.fev p.pc (scanVal x c.1 c.2 p.mask vs).2) s u))

/-- R94, R95, R413: `afill` fills an array; `aget` and `aset` read and replace one element of each lane's array where every active
lane's index is in range, and where one is not, the instruction takes the array-bounds fault of the lowest such lane at its own
address, with AUX that lane's index. -/
def Obligations.RegisterArrayResults : Prop :=
  ∀ (s : State) (p : Site), site? s = some p → ∀ (h : BitVec 2) (e : Ty),
    (∀ l v vs, opndBits s p e v = some vs → Gives (.afill h e l v) s p (vs.map (fun x => .arr (List.replicate (l.toNat + 1) x)))) ∧
    (∀ a i arrs ixs, opndArrs p a = some arrs → opndBits s p .i32 i = some ixs →
      let bad := fun (n : Nat) => (lanesOf p.mask).find? (fun j => n ≤ (nth 0 ixs j).toNat)
      (bad (nth [] arrs p.low).length = none →
        Gives (.aget h e a i) s p ((List.range 128).map (fun j => .bits (nth 0 (nth [] arrs j) (nth 0 ixs j).toNat)))) ∧
      (∀ j, bad (nth [] arrs p.low).length = some j →
        exec (.aget h e a i) s = .next (faultAt p.g p.sd .arrayBounds p.pc (some j) (nth 0 ixs j) s)) ∧
      (∀ l v vs, opndBits s p e v = some vs →
        (bad (l.toNat + 1) = none →
          Gives (.aset h e l a i v) s p ((List.range 128).map (fun j =>
            .arr (modifyAt (fun _ => nth 0 vs j) (nth [] arrs j) (nth 0 ixs j).toNat)))) ∧
        (∀ j, bad (l.toNat + 1) = some j →
          exec (.aset h e l a i v) s = .next (faultAt p.g p.sd .arrayBounds p.pc (some j) (nth 0 ixs j) s))))

/-! ### Memory -/

/-- R194, R199, R213, R254: a load whose access passes its checks in every active lane completes: it defines what its lanes read, after what
is owed to them there has been performed; `ldacq` then acquires. A store gates one store of its bytes for each active lane, in lane order,
and goes on; `strel` gates release stores. Where no group holds back a store that a MARK has passed, and the issuing group has read nothing
early, a load defines in each active lane the bytes at its address: the lane's own latest store of the region where it has one there, else
storage as its context reads it; no byte of storage changes.
The model's own readings and choices in it: log entry 14. -/
def Obligations.LoadAndStoreResults : Prop :=
  (∀ (s : State) (p : Site), site? s = some p → ∀ (h sc : _) (t : Ty) (ds : Bool) (m : MemOp) (as : List DWord) (accs : List (Nat × Acc)),
    memLanes s p m = some as →
    let n := Ty.bytes t
    let s' := accessed p n as accs s
    (Passes s p n (spaceMask ds) true false as accs →
      (let r := loadNow p n (fun s => freeAddr s p m) accs s'
       exec (.ld h t ds m) s = .next (defineBits p r.1 r.2)) ∧
      (let r := loadNow p n (fun _ => false) accs s'
       exec (.ldacq h sc t ds m) s = .next (defineBits p r.1 (acquire p.g p.mask (spaceMask ds) sc.toNat r.2)))) ∧
    (∀ v vs, opndBits s p t v = some vs → Passes s p n (spaceMask ds) false true as accs →
      exec (.st h t ds m v) s = .next (advance p (gate p (storeOps n accs vs .store) (dropLanes p n accs s'))) ∧
      exec (.strel h sc t ds m v) s = .next (advance p
        (gate p (storeOps n accs vs (fun l a bs => .relStore l a bs (spaceMask ds) sc)) (dropLanes p n accs s'))))) ∧
  (∀ (s : State) (p : Site), site? s = some p → (∀ G ∈ s.groups, G.wbuf = []) → p.grp.early = [] →
    ∀ (h sc : _) (t : Ty) (ds : Bool) (m : MemOp) (as : List DWord) (accs : List (Nat × Acc)),
    memLanes s p m = some as → Passes s p (Ty.bytes t) (spaceMask ds) true false as accs →
    ∀ i, i = .ld h t ds m ∨ i = .ldacq h sc t ds m →
      ∃ u vs F, exec i s = .next u ∧ SameStorage s u ∧
        (∃ G S, u.groups[p.g]? = some G ∧ G.sides[p.sd]? = some S ∧ S.core.frames.head? = some F) ∧
        DefinesIn p vs F ∧
        (∀ l, l < 128 → p.mask.getLsbD l = true → ∀ a, accAt accs l = some a →
          nth (.bits 0) vs l = .bits (laneWord s p.ctx p.side.gated l a.key (Ty.bytes t))))

/-- R194, R199, R200: where the access of some active lane fails its checks, the instruction takes the fault of the lowest such lane, at its
own address, with AUX the lane's address: no part of it is performed; the pages that it looked up are counted (R199). -/
def Obligations.AccessFaults : Prop :=
  ∀ (s : State) (p : Site), site? s = some p → ∀ (h sc : _) (t : Ty) (ds : Bool) (m : MemOp) (as : List DWord) (i : Nat) (c : Cause),
    memLanes s p m = some as →
    let n := Ty.bytes t
    (checkLanes s p n n (spaceMask ds) true false as = .error (i, c) →
      exec (.ld h t ds m) s = .next (faultAt p.g p.sd c p.pc (some i) (nth 0 as i) (p.touch n as s)) ∧
      exec (.ldacq h sc t ds m) s = .next (faultAt p.g p.sd c p.pc (some i) (nth 0 as i) (p.touch n as s))) ∧
    (∀ v vs, opndBits s p t v = some vs → checkLanes s p n n (spaceMask ds) false true as = .error (i, c) →
      exec (.st h t ds m v) s = .next (faultAt p.g p.sd c p.pc (some i) (nth 0 as i) (p.touch n as s)) ∧
      exec (.strel h sc t ds m v) s = .next (faultAt p.g p.sd c p.pc (some i) (nth 0 as i) (p.touch n as s))) ∧
    (∀ op k v vs, opndBits s p t v = some vs → checkLanes s p n n (spaceMask ds) true true as = .error (i, c) →
      exec (.atom h op k sc t ds m v) s = .next (faultAt p.g p.sd c p.pc (some i) (nth 0 as i) (p.touch n as s)))

/-- R123, R211, R255, R256: whole register arrays, part by part, each part the longest that crosses no 16-byte boundary, and fragments; where
no group holds a store back and the issuing group has read nothing early, element j of a lane is the value that its own access gives.
`prefetch` goes on.
The model's own readings and choices in it: log entry 14. -/
def Obligations.ArrayAndFragmentAccessResults : Prop :=
  ∀ (s : State) (p : Site), site? s = some p → ∀ (h : BitVec 2) (ds : Bool) (m : MemOp) (as : List DWord), memLanes s p m = some as →
    (∀ e l accss,
      let n := Ty.bytes e
      let vas := (List.range (l.toNat + 1)).flatMap (fun j => p.addrs (as.map (· + BitVec.ofNat 64 (n * j))))
      let s' := request p.grp.core p.ctx p.g (requestsOf s p.who n vas (accss.flatMap id)) (p.rearm (touchAddrs p.who n vas s))
      (elemAccs s p n (spaceMask ds) false as (l.toNat + 1) 0 = .ok accss → elemWatch s p n false as accss = none →
        let r := loadArr p n (l.toNat + 1) (freeAddr s' p m) accss s'
        exec (.ldw h e l ds m) s = .next (define p r.1 r.2) ∧
        ((∀ G ∈ s.groups, G.wbuf = []) → p.grp.early = [] → SameStorage s r.2 ∧
          r.1 = (List.range 128).map (fun i => .arr (accss.map (fun accs =>
            match accAt accs i with | some a => laneWord s p.ctx p.side.gated i a.key n | none => 0))))) ∧
      (∀ x arrs, opndArrs p x = some arrs →
        elemAccs s p n (spaceMask ds) true as (l.toNat + 1) 0 = .ok accss → elemWatch s p n true as accss = none →
        let u := accss.foldl (fun s accs => dropLanes p n accs s) s'
        exec (.stw h e l ds m x) s =
          .next (advance p (gate p ((lanesOf p.mask).flatMap (fun i => arrStores n accss (nth [] arrs i) i)) u)))) ∧
    (∀ b w16 j u us accs, opndBits s p .i32 u = some us →
      let addrs := (List.range 128).map (fun i =>
        nth 0 as i + BitVec.ofNat 64 (i % 64 * (nth 0 us i).toNat + (if w16 then 8 * (i / 64) + (if j then 4 else 0) else 4 * (i / 64))))
      Passes s p 4 (spaceMask ds) true false addrs accs →
      let r := loadNow p 4 (fun s => freeOpnds s p [m.base, m.off, u]) accs (accessed p 4 addrs accs s)
      exec (.ldfrag h b w16 j ds m u) s = .next (defineBits p r.1 r.2)) ∧
    (∀ dm, exec (.prefetch h dm m) s = .next (advance p s))

/-- R181, R213, R215, R220, R257 to R259: an atomic first passes what its region holds gated, releases where its kind does, then acts on the
active lanes' words in increasing lane order, each lane receiving the value its word held just before, acquires where its kind does, and
commits; it is last in its region.
The model's own readings and choices in it: log entry 14. -/
def Obligations.AtomicResults : Prop :=
  ∀ (s : State) (p : Site), site? s = some p → ∀ (h : BitVec 2) (k : AtomKind) (sc : BitVec 3) (t : Ty) (ds : Bool) (m : MemOp) (v : Opnd)
    (as vs : List DWord) (accs : List (Nat × Acc)),
    memLanes s p m = some as → opndBits s p t v = some vs → Passes s p (Ty.bytes t) (spaceMask ds) true true as accs →
    let done := fun (f : Nat → DWord → DWord) =>
      let s := flush p.g p.sd (accessed p (Ty.bytes t) as accs s)
      let s := if AtomKind.releases k then owe p.g p.mask (spaceMask ds) sc.toNat s else s
      let r := accs.foldl (atomAt p.g p.ctx (Ty.bytes t) f) ([], s)
      let s := if AtomKind.acquires k then acquire p.g p.mask (spaceMask ds) sc.toNat r.2 else r.2
      commit p.g p.sd (defineBits p ((List.range 128).map (fun i => NMap.get 0 r.1 i)) s)
    (∀ op, exec (.atom h op k sc t ds m v) s = .next (done (fun i old => atomNew op (Ty.bits t) old (nth 0 vs i)))) ∧
    (∀ c cs, opndBits s p t c = some cs →
      exec (.cas h k sc t ds m c v) s = .next (done (fun i old => if old = nth 0 cs i then nth 0 vs i else old)))

/-- What the checks of an access change: no byte of storage, no group's frames, masks, views or tokens, no translation: only the page
counters, the TLB and the requests of the issuing core, the context's event counters, and the watchpoint that was ignored once (R197, R199,
R204, R361). The frame of the loads and stores of R254 to R256: every byte reads after the instruction as before it, for every context (a
store is only gated; its bytes change once its region has committed), and every other group is as it was, but that a load first has the
stores performed that are owed to its lanes at the bytes it reads (R219): those change what the reaching of those bytes changes, nothing
where no group holds a store back. -/
def Obligations.LoadAndStoreFrame : Prop :=
  (∀ (p : Site) (n : Nat) (as : List DWord) (accs : List (Nat × Acc)) (s : State),
    let t := accessed p n as accs s
    SameStorage s t ∧ (∀ x a, loadByte t x a = loadByte s x a) ∧
    t.queues = s.queues ∧ t.blocks = s.blocks ∧ t.launches = s.launches ∧ t.engs = s.engs ∧ t.xlats = s.xlats ∧ t.objs = s.objs ∧
    t.time = s.time ∧
    (∀ (g sd : Nat) (G : Group) (S : Side), s.groups[g]? = some G → G.sides[sd]? = some S →
      ∃ G' S', t.groups[g]? = some G' ∧ G'.sides[sd]? = some S' ∧ G'.st = G.st ∧ G'.toks = G.toks ∧ G'.acc = G.acc ∧ G'.native = G.native ∧
        G'.wbuf = G.wbuf ∧ G'.early = G.early ∧ S'.core = S.core ∧ S'.status = S.status ∧ S'.gated = S.gated ∧ S'.mark = S.mark)) ∧
  (∀ (s : State) (p : Site), site? s = some p → ∀ (h sc : _) (t : Ty) (ds : Bool) (m : MemOp) (v : Opnd) (as vs : List DWord) (accs : List (Nat × Acc)),
    memLanes s p m = some as → opndBits s p t v = some vs →
    let n := Ty.bytes t
    (∀ i, (i = .ld h t ds m ∨ i = .ldacq h sc t ds m) ∧ Passes s p n (spaceMask ds) true false as accs →
      ∃ u, exec i s = .next u ∧
        (let r := reachLanes p false n accs (accessed p n as accs s)
         SameStorage r u ∧ (∀ x a, loadByte u x a = loadByte r x a) ∧ (∀ g, g ≠ p.g → u.groups[g]? = r.groups[g]?)) ∧
        ((∀ G ∈ s.groups, G.wbuf = []) →
          SameStorage s u ∧ (∀ x a, loadByte u x a = loadByte s x a) ∧ (∀ g, g ≠ p.g → u.groups[g]? = s.groups[g]?))) ∧
    (∀ i, (i = .st h t ds m v ∨ i = .strel h sc t ds m v) ∧ Passes s p n (spaceMask ds) false true as accs ∨ i = .prefetch h ds m →
      ∃ u, exec i s = .next u ∧
        SameStorage s u ∧ (∀ x a, loadByte u x a = loadByte s x a) ∧ (∀ g, g ≠ p.g → u.groups[g]? = s.groups[g]?)))

/-- R181, R213, R214: what one performed store changes. Where context x owns the lines it touches and no byte of it lies in a header word
(R235), the stored bytes read back, to x, as the bytes stored, and every other byte reads as before, to every context. -/
def Obligations.StoreChangesItsBytes : Prop :=
  ∀ (s : State) (x a : Nat) (bs : List Byte), Storage.wf s = true → bs ≠ [] → Owns s x a bs.length → noHeader s x a bs.length = true →
    (∀ y b, (b < a ∨ a + bs.length ≤ b) → loadByte (storeBytes x a bs s) y b = loadByte s y b) ∧
    (∀ j, j < bs.length → loadByte (storeBytes x a bs s) x (a + j) = nth 0 bs j)

/-- R181, R223: what a MARK does with a store of its region: the store enters the group's list of stores to perform, owed to no scope yet,
and no byte of storage changes. R216: a release fence and a full fence of every kind complete; after a full fence, every store that the
fencing lanes have made in a space of its mask is owed at least to its scope. R214, R216, R219: an access by an agent to which no store is
owed at its bytes, where no group holds one back, changes nothing before it; and performing what is held back keeps the canonical form of
storage.
The model's own readings and choices in it: log entries 14, 73. -/
def Obligations.StoresPastAMark : Prop :=
  (∀ (x g sd l a : Nat) (bs : List Byte) (mask sc : BitVec 3) (w : DWord) (t : Bool) (s : State) (G : Group), s.groups[g]? = some G →
    ∀ o : GOp, o = .store l a bs ∨ o = .relStore l a bs mask sc ∨ o = .refStore l a w t →
      SameStorage s (land x g sd o s) ∧ (land x g sd o s).groups[g]? = some { G with wbuf := G.wbuf ++ [{ op := o, owed := 0 }] }) ∧
  (∀ (s : State) (p : Site), site? s = some p → ∀ (h : BitVec 2) (sc mask : BitVec 3),
    exec (.fence h .rel sc mask) s = .next (advance p (gate p [.fence p.mask mask sc] s)) ∧
    exec (.fence h .acq sc mask) s = .next (advance p (acquire p.g p.mask mask sc.toNat s)) ∧
    ∃ u G, exec (.fence h .ar sc mask) s = .next u ∧ u.groups[p.g]? = some G ∧
      ∀ e ∈ G.wbuf, ∀ l a n, e.op.span = some (l, a, n) → p.mask.getLsbD l = true → (keySpace a).inMask mask = true → sc.toNat ≤ e.owed) ∧
  (∀ (B : Agent) (a n : Nat) (s : State), (∀ G ∈ s.groups, G.wbuf = []) → reach B false a n s = s) ∧
  (∀ (B : Agent) (wr : Bool) (a n : Nat) (s : State), Storage.wf s = true → Storage.wf (reach B wr a n s) = true) ∧
  (∀ (g : Nat) (s : State), Storage.wf s = true → Storage.wf (landAll g s) = true ∧
    ∀ G, (landAll g s).groups[g]? = some G → G.wbuf = [])

/-! ### Control, waits and system instructions -/

/-- R69, R260, R316, R318, R395 to R397: the instructions that only go on to their successor: nothing but the side's pc changes (and, for
`clrflag`, its view). R210, R216, R267: `kwait` of complete tokens acquires, at the mask and scope of what each token covers, and goes on. R316, R318, R147: `nsleep` of a time other than 0 commits and
waits for a deadline on the time base, and goes on once the deadline has passed; `yield` waits for the other candidates ready now, and goes
on once its wait has ended.
The model's own readings and choices in it: log entries 14, 39. -/
def Obligations.GoingOnAndSleeping : Prop :=
  (∀ (s : State) (p : Site), site? s = some p → ∀ (h : BitVec 2),
    let goes := fun (i : Instr) (v : View) => ∃ t, exec i s = .next t ∧ Advanced p v s t
    goes (.nop h) p.side.core.view ∧
    (∀ dm m as, memLanes s p m = some as → goes (.prefetch h dm m) p.side.core.view) ∧
    (∀ c code cs, opndBits s p .b1 c = some cs → (∀ i, i < 128 → p.mask.getLsbD i = true → nth 0 cs i ≠ 0) →
      goes (.assert h c code) p.side.core.view) ∧
    (∀ m x, opndOne s p .i32 m = some x → goes (.clrflag h m) (p.side.core.view.clear (x.truncate 32))) ∧
    (∀ n, opndOne s p .i32 n = some 0 → p.side.pend = .none → goes (.nsleep h n) p.side.core.view) ∧
    (p.side.pend = .none → yieldedTo s p.grp.core p.g p.sd = [] →
      goes (.yield h) p.side.core.view) ∧
    (∀ ks es, opndToks p ks = some es → es.all (fun e => decide (tokState p.grp e = none ∨ tokState p.grp e = some .complete)) = true →
      exec (.kwait h ks) s = .next (advance p (p.acquireToks es s)))) ∧
  (∀ (s : State) (p : Site), site? s = some p → ∀ (h : BitVec 2) (n : Opnd) (x : DWord), opndOne s p .i32 n = some x →
    (p.side.pend = .none → x ≠ 0 →
      exec (.nsleep h n) s =
        .next (waitFor p (.sleep (s.time + x.toNat)) (commit p.g p.sd (setPend p (.deadline (s.time + x.toNat)) s)))) ∧
    (∀ t, p.side.pend = .deadline t → t ≤ s.time → exec (.nsleep h n) s = .next (advance p (setPend p .none s))) ∧
    (∀ t, p.side.pend = .deadline t → s.time < t → exec (.nsleep h n) s = .next (waitFor p (.sleep t) s)) ∧
    (p.side.pend = .done → exec (.yield h) s = .next (advance p (setPend p .none s))) ∧
    (∀ o os, p.side.pend = .none →
      yieldedTo s p.grp.core p.g p.sd = o :: os →
      exec (.yield h) s = .next (waitFor p (.yielding (o :: os) ((nth Core.reset s.cores p.grp.core).clk + 64)) s)))

/-- R317, R395, R396: the reads of the clock count, the time base, the counters, the flags, and the first-event record. R396, R397:
`ctrctl` gates its change of a counter to the region's commit; `brkpt` gates its stop and commits at once.
The model's own readings and choices in it: log entry 39. -/
def Obligations.SystemReadsAndCounterControl : Prop :=
  (∀ (s : State) (p : Site), site? s = some p → ∀ (h : BitVec 2),
    let all := fun (x : DWord) => List.replicate 128 (Val.bits x)
    Gives (.rdclk h) s p (all (BitVec.ofNat 64 (nth Core.reset s.cores p.grp.core).clk)) ∧
    Gives (.rdtime h) s p (all (BitVec.ofNat 64 s.time)) ∧
    Gives (.rdflag h) s p (all ((p.side.core.view.flags &&& 0x7F).zeroExtend 64)) ∧
    Gives (.rdfev h) s p (all p.side.core.view.fev) ∧
    (∀ n, Gives (.ctrrd h n) s p (all (nth 0 (ctxAt s p.ctx).counts (immNat n)))) ∧
    (∀ k e, opndTok p k = some e → tokState p.grp e = some .pending → Gives (.ktest h k) s p (all 0)) ∧
    (∀ k e, opndTok p k = some e → tokState p.grp e = some .complete →
      exec (.ktest h k) s = .next (defineAll p 1 (p.acquireToks [e] s))) ∧
    (∀ T, p.lau.travel = some T →
      (∀ n, Gives (.trvmapRep h n) s p (all (BitVec.ofNat 64 (replicas (nth 0 T.mapw (immNat n))).length))) ∧
      Gives (.trvmapVer h) s p (all (BitVec.ofNat 64 (T.ver % 2 ^ 32))))) ∧
  (∀ (s : State) (p : Site), site? s = some p → ∀ (h : BitVec 2) (n : Opnd),
    (∀ clear cfg c, opndOne s p .i32 cfg = some c →
      exec (.ctrctl h clear n cfg) s = .next (advance p (gate p [.ctrctl (immNat n) (c.truncate 32) clear] s))) ∧
    exec (.brkpt h n) s = .next (commit p.g p.sd (advance p (gate p [.brkpt (immNat n) p.pc] s))))

/-- R75, R397, R392: `trap` and a failed `assert` take their fault at their own address, with AUX the code: lane the lowest active lane,
and the lowest active lane whose condition is 0. -/
def Obligations.TrapAndAssertFaults : Prop :=
  ∀ (s : State) (p : Site), site? s = some p → ∀ (h : BitVec 2) (code : Opnd),
    exec (.trap h code) s = .next (faultAt p.g p.sd .userTrap p.pc (some p.low) (BitVec.ofNat 64 (immNat code)) s) ∧
    (∀ c cs i, opndBits s p .b1 c = some cs → (lanesOf p.mask).find? (fun i => nth 0 cs i = 0) = some i →
      exec (.assert h c code) s = .next (faultAt p.g p.sd .assertion p.pc (some i) (BitVec.ofNat 64 (immNat code)) s))

/-- R396, R397, R415, R240, R241: what a gated operation does when it is performed. -/
def Obligations.GatedOperationsPerform : Prop :=
  ∀ (x g sd : Nat) (s : State),
    (∀ l a bs, performGop x g sd (.store l a bs) s = storeBytes x a bs s) ∧
    (∀ l a bs mask sc, performGop x g sd (.relStore l a bs mask sc) s = storeBytes x a bs s) ∧
    (∀ l a w t, performGop x g sd (.refStore l a w t) s = storeTagged x a w t s) ∧
    (∀ m mask sc, performGop x g sd (.fence m mask sc) s = s) ∧
    (∀ n cfg clear C, s.ctxs[x]? = some C →
      (ctxAt (performGop x g sd (.ctrctl n cfg clear) s) x).cfgs = modifyAt (fun _ => cfg &&& 0x1FFFF) C.cfgs n ∧
      (ctxAt (performGop x g sd (.ctrctl n cfg clear) s) x).counts = (if clear then modifyAt (fun _ => 0) C.counts n else C.counts)) ∧
    (∀ G, s.groups[g]? = some G → (performGop x g sd .accrel s).groups[g]? = some { G with acc := none }) ∧
    (∀ l a, NMap.wf false s.tag = true → headerAt s a = false →
      seenTag (performGop x g sd (.untag l a) s) x a = false ∧ (performGop x g sd (.untag l a) s).mem = s.mem) ∧
    (∀ code pc, (ctxAt s x).dbg = false → performGop x g sd (.brkpt code pc) s = s)

/-- R70, R71, R329: each transfer sends every active lane to the target that its operands choose. R15, R16, R70, R147: a transfer of all
lanes to one block of the same segment places the side at the block with its arguments, and commits at a MARK; one to a block of another
segment commits, and parks the side at the segment exit (R326, R327).
The model's own readings and choices in it: log entry 15. -/
def Obligations.ControlTransfers : Prop :=
  (∀ (s : State) (p : Site), site? s = some p → ∀ (h : BitVec 2) (t f : Target),
    exec (.br h t) s = .next (transfer [(p.mask, t)] p s) ∧
    (∀ c cs, opndBits s p .b1 c = some cs →
      ∃ m n : Mask, exec (.cbr h c t f) s = .next (transfer [(m, t), (n, f)] p s) ∧
        (∀ i, i < 128 → m.getLsbD i = (p.mask.getLsbD i && decide (nth 0 cs i = 1)) ∧
                        n.getLsbD i = (p.mask.getLsbD i && !decide (nth 0 cs i = 1)))) ∧
    (∀ i cs xs, opndBits s p .i32 i = some xs →
      exec (.switch h i t cs) s = .next (transfer ((pick p xs (fun x => decide (cs.length ≤ x.toNat)), t)
        :: cs.zipIdx.map (fun (u, k) => (pick p xs (fun x => x.toNat = k), u))) p s)) ∧
    (∀ m, exec (.hop h m none t) s = .next (transferBy m 0 [(p.mask, t)] p s)) ∧
    (∀ m k x, opndOne s p .i32 k = some x → exec (.hop h m (some k) t) s = .next (transferBy m (x.truncate 32) [(p.mask, t)] p s))) ∧
  (∀ (s : State) (p : Site) (mode : HopMode) (key : Word) (parts : List (Mask × Target)) (m : Mask) (k : Nat) (vs : List (List Val)),
    transferParts s p (blocksOf s p.fr.fn) parts = some [(m, k, vs)] →
    (exitSeg s p.grp p.lau p.fr.fn k = none →
      transferBy mode key parts p s = settleGroup p.g (arrive p.g p.sd (isMarkBlk (blocksOf s p.fr.fn) k)
        (s.updCore p.g p.sd (enterBlock (blocksOf s p.fr.fn) k vs)))) ∧
    (∀ sg, exitSeg s p.grp p.lau p.fr.fn k = some sg →
      transferBy mode key parts p s = ((commit p.g p.sd s).updCore p.g p.sd (enterBlock (blocksOf s p.fr.fn) k vs)).updSide p.g p.sd
        (Side.park sg mode key)))

/-- R72, R73, R43, R326: a call whose callee's translation is ready enters it, with the call's arguments, the caller's frame stored and the
caller standing past the call; a callee whose entry lies in another segment is entered under no translation, and its side parks at that exit; beyond the depth or the frame of the launch it takes the call-depth fault; a failed translation gives its fault at
its own address; one that is not ready is awaited.
The model's own readings and choices in it: log entries 16, 21, 22. -/
def Obligations.CallEntersItsCallee : Prop :=
  ∀ (s : State) (p : Site), site? s = some p → ∀ (h ty : _) (callee : Opnd) (args : List Opnd) (i j fn : Nat) (o : Obj),
    calleeIndex s p callee = some i → objectAt s p.ctx p.fr.fn = some (j, o) → tableFn o i = some fn →
    let depth := p.side.core.frames.length
    let used := outerBytes p s + frameBytes s p.callFrame
    let fns := fn :: p.side.core.fns
    (64 < depth ∨ p.lau.frame < used →
      exec (.call h ty callee args) s = .next (faultAt p.g p.sd .callDepth p.pc none (BitVec.ofNat 64 depth) s)) ∧
    (depth ≤ 64 → used ≤ p.lau.frame → (exitSeg s p.grp p.lau fn 0).isSome = true → ∀ b bs vals, blocksOf s fn = b :: bs →
      targetArgs s p b { blk := 0, args := args } = some vals →
      exec (.call h ty callee args) s = .next (enterCallee p fn none vals s)) ∧
    (depth ≤ 64 → used ≤ p.lau.frame → exitSeg s p.grp p.lau fn 0 = none →
      (∀ x t sl st b bs vals, findXlat s p.grp p.lau fns = some (x, t) → t.st = .ok sl st → blocksOf s fn = b :: bs →
        targetArgs s p b { blk := 0, args := args } = some vals →
        exec (.call h ty callee args) s = .next (enterCallee p fn (some x) vals s)) ∧
      (∀ x t a c, findXlat s p.grp p.lau fns = some (x, t) → t.st = .failed a c →
        exec (.call h ty callee args) s = .next (faultAt p.g p.sd c (fn + a) none 0 (countEv p.ctx 0x44 1 s))) ∧
      (∀ x t, findXlat s p.grp p.lau fns = some (x, t) → t.st = .queued ∨ t.st = .inProgress →
        exec (.call h ty callee args) s = .next (missTranslation p.g fns s)) ∧
      (findXlat s p.grp p.lau fns = none → exec (.call h ty callee args) s = .next (missTranslation p.g fns s)))

/-- R72, R74, R148: a return of a procedure that no return join parks gives its values to the caller and commits; a return or an exit of
a kernel ends the side's threads once its region has committed, where no token of its last side is pending.
The model's own readings and choices in it: log entry 15. -/
def Obligations.ReturnAndExit : Prop :=
  ∀ (s : State) (p : Site), site? s = some p → ∀ (h : BitVec 2) (args : List Opnd),
    (∀ F C r vs, p.side.core.frames = F :: C :: r → retVals s p args = some vs → p.side.core.joins = [] → retSeg s p = none →
      exec (.ret h args) s = .next (commit p.g p.sd (reloadFrame p.ctx C
        ((s.updCore p.g p.sd (SideCore.onFrame (fun F => { F with rets := vs }))).updCore p.g p.sd SideCore.ret)))) ∧
    (∀ G, (commit p.g p.sd s).groups[p.g]? = some G → G.st = .ready → (1 < G.liveSides.length ∨ G.pendingToks = []) →
      let ended := settleGroup p.g ((endThreads p.g p.mask (commit p.g p.sd s)).updSide p.g p.sd (fun S => { S with status := .ended }))
      exec (.exit h) s = .next ended ∧
      (∀ F, p.side.core.frames = [F] → exec (.ret h []) s = .next ended))

/-- R220, R262 to R264: an arrival passes the region's gated operations and releases at block scope, counts every active thread, and commits; `barar` gives each thread
its phase; `bar` and `barwt` go on when the phase of every active thread is complete, acquiring at block scope, and wait while one is not. -/
def Obligations.BarrierResults : Prop :=
  ∀ (s : State) (p : Site), site? s = some p → ∀ (h : BitVec 2) (mask : BitVec 3) (n : Opnd),
    let b := immNat n % 16
    let arrived := arriveAll p b (owe p.g p.mask mask 2 (flush p.g p.sd s))
    (arriveMisuse p (p.block s) b = none →
      exec (.barar h mask n) s =
        .next (commit p.g p.sd (defineBits p ((lanePhases p (p.block arrived) b).map (fun w => w.zeroExtend 64)) arrived)) ∧
      (p.side.pend = .none →
        let s' := commit p.g p.sd (setPend p (.phase 0) arrived)
        exec (.bar h mask n) s = .next
          (if barDone p (p.block s') b (lanePhases p (p.block s') b) = true then advance p (setPend p .none (acquire p.g p.mask mask 2 s'))
           else waitFor p (.barrier b (nth 0 (lanePhases p (p.block s') b) p.low)) s'))) ∧
    (∀ i, arriveMisuse p (p.block s) b = some i →
      exec (.barar h mask n) s = .next (faultAt p.g p.sd .barrierMisuse p.pc (some i) (BitVec.ofNat 64 b) s)) ∧
    (∀ ph xs, opndBits s p .i32 ph = some xs →
      let phs : List Word := xs.map (fun x => x.truncate 32)
      let ahead := fun (i : Nat) => (nth 0 phs i - lastPhase (p.block s) b (p.thread i) : Word).toNat
      (∀ i, i < 128 → p.mask.getLsbD i = true → ahead i = 0 ∨ 2 ^ 31 ≤ ahead i) →
      exec (.barwt h mask n ph) s = .next
        (if barDone p (p.block s) b phs = true then advance p (acquire p.g p.mask mask 2 s) else waitFor p (.barrier b (nth 0 phs p.low)) s))

/-- R242: `refeq` yields 1 when the two address fields are equal, whatever the tags, so two null references are equal; `refadr` yields
the address bits as an i64, with no tag; neither accesses memory: all storage is as it was. -/
def Obligations.ReferenceCompareAndAddress : Prop :=
  ∀ (s : State) (p : Site), site? s = some p → ∀ (h : BitVec 2) (a b : Opnd) (xs ys : List (DWord × Bool)),
    opndRefs p a = some xs → opndRefs p b = some ys →
    (∃ t, exec (.refeq h a b) s = .next t ∧ SameStorage s t ∧
      Defined p ((List.zipWith (fun (x y : DWord × Bool) => if x.1 = y.1 then (1 : DWord) else 0) xs ys).map .bits) p.side.core.view s t) ∧
    (∃ t, exec (.refadr h a) s = .next t ∧ SameStorage s t ∧ Defined p (xs.map (fun x => .bits x.1)) p.side.core.view s t)

/-- R238 to R241: where every active lane's operation of a reference instruction passes its checks, each lane seeing the operations of the
lanes before it, `mkref` and `ldref` define tagged references, and the others gate their operations and go on. R229, R236, R238, R239:
what one lane of `mkref`, `ldref` and `stref` requires and gives: `mkref` refuses a word that is no header; `ldref` refuses a word that is
neither a reference nor an untagged zero; `stref` of a reference to a published object stores it with its tag, and stores null as an
untagged zero. A read first has performed what is owed to its lanes there (R219); a lane's `ldref` gives the word it sees or, by free choice,
one that it has read early there (R217).
The model's own readings and choices in it: log entry 59. -/
def Obligations.ReferenceResultsAndChecks : Prop :=
  (∀ (s : State) (p : Site), site? s = some p → ∀ (h : BitVec 2) (m : MemOp) (as : List DWord), memLanes s p m = some as →
    ∀ (accs : List (Nat × Acc)) (ops : List GOp),
    let view := fun (s : State) => sideView s p.ctx p.g p.sd p.side.gated
    let seen := fun (n : Nat) (as : List DWord) (s : State) =>
      p.requests s n as accs (p.rearm (touchWith p.who n (p.addrs as) (accs.filterMap (fun e => e.2.page)) s))
    let calm := fun (rd wr : Bool) (n : Nat) (as : List DWord) (s : State) => watchLane s p n rd wr as accs = none
    let gated := fun (i : Instr) (n : Nat) (as : List DWord) (s' : State) => exec i s = .next (advance p (gate p ops (seen n as s')))
    let near := fun (accs : List (Nat × Acc)) => dropLanes p 8 accs (reachLanes p false 8 accs s)
    (∀ rs, objLanes p (0 : DWord) (mkrefLane p as) (lanesOf p.mask) (view s) = .ok (accs, ops, rs) → calm false false 8 as s →
      exec (.mkref h m) s = .next (define p ((List.range 128).map (fun i => .ref (NMap.get 0 rs i) true)) (seen 8 as s))) ∧
    (∀ accs0 ops0 rs0 rs, let old := earlyRef s p (freeAddr s p m)
      objLanes p ((0 : DWord), false) (fun _ i => ldrefLane p as (old i) (p.laneView s i) i) (lanesOf p.mask) (view s) =
        .ok (accs0, ops0, rs0) →
      let s' := near accs0
      objLanes p ((0 : DWord), false) (fun _ i => ldrefLane p as (old i) (p.laneView s' i) i) (lanesOf p.mask) (view s') = .ok (accs, ops, rs) →
      calm true false 8 as s' →
      exec (.ldref h m) s =
        .next (define p ((List.range 128).map (fun i => .ref (NMap.get (0, false) rs i).1 (NMap.get (0, false) rs i).2)) (seen 8 as s'))) ∧
    (∀ accs0 ops0 us0 us, objLanes p () (unrefLane p as) (lanesOf p.mask) (view s) = .ok (accs0, ops0, us0) →
      objLanes p () (unrefLane p as) (lanesOf p.mask) (view (near accs0)) = .ok (accs, ops, us) → calm true true 8 as (near accs0) →
      gated (.unref h m) 8 as (near accs0)) ∧
    (∀ us, objLanes p () (retireLane p as) (lanesOf p.mask) (view s) = .ok (accs, ops, us) → calm false false 8 as s →
      gated (.objinitRetire h m) 8 as s) ∧
    (∀ r rs us, opndRefs p r = some rs → objLanes p () (strefLane p as rs) (lanesOf p.mask) (view s) = .ok (accs, ops, us) →
      calm false true 8 as s → gated (.stref h m r) 8 as s) ∧
    (∀ leaf ctx n ns us, opndBits s p .i32 n = some ns →
      objLanes p () (objinitLane p leaf ctx as ns) (lanesOf p.mask) (view s) = .ok (accs, ops, us) → calm false false 8 as s →
      gated (.objinit h leaf ctx m n) 8 as s) ∧
    (∀ t r off x rs offs vs us, opndRefs p r = some rs → opndBits s p .i32 off = some offs → opndBits s p t x = some vs →
      objLanes p () (objstLane p t rs offs vs) (lanesOf p.mask) (view s) = .ok (accs, ops, us) →
      let at_ := (List.range 128).map (fun i => BitVec.ofNat 64 (objstAddr rs offs i))
      calm false true (Ty.bytes t) at_ s → gated (.objst h t r off x) (Ty.bytes t) at_ s)) ∧
  (∀ (p : Site) (v : State) (as : List DWord) (i : Nat) (acc : Acc) (w : DWord) (t : Bool),
    (refWord v p (nth 0 as i) 64 true false = .ok (acc, w, t) →
      (isHdrWord w t = false → mkrefLane p as v i = .error (.brokenReference, nth 0 as i)) ∧
      (isHdrWord w t = true → hdrOwner w = p.ctx → hdrState w = 2 → mkrefLane p as v i = .ok ([(i, acc)], [], nth 0 as i))) ∧
    (refWord v p (nth 0 as i) 8 true false = .ok (acc, w, t) → ∀ old : Nat → Option (DWord × Bool),
      let r := (old acc.key).getD (w, t)
      (isRefWord r.1 r.2 = true → ldrefLane p as old v i = .ok ([(i, acc)], [], (r.1, true))) ∧
      (r.2 = false → r.1 = 0 → ldrefLane p as old v i = .ok ([(i, acc)], [], (0, false))) ∧
      (isRefWord r.1 r.2 = false → (r.2 = true ∨ r.1 ≠ 0) → ldrefLane p as old v i = .error (.notAReference, nth 0 as i))) ∧
    (refWord v p (nth 0 as i) 8 false true = .ok (acc, w, t) → ∀ rs,
      ((nth (0, false) rs i).1 = 0 → strefLane p as rs v i = .ok ([(i, acc)], [.refStore i acc.key 0 false], ())) ∧
      (∀ l k H, (nth (0, false) rs i).1 ≠ 0 → referent v p.ctx (nth (0, false) rs i).1.toNat = some (l, k, H) → hdrState H = 2 →
        strefLane p as rs v i = .ok ([(i, acc)], [.refStore i acc.key (nth (0, false) rs i).1 true], ()))))

/-! ### Matrix instructions -/

/-- R115, R117, R119, R120, R415: `accacq` of a converged group that holds no set is granted fresh tiles at once when the queue of its core
is empty and enough are free, and else waits in it; a second `accacq` is the region-limit fault; `accrel` waits for Saved tiles to
be restored and for steps in flight, and with none gates the release to the region's commit.
The model's own readings and choices in it: log entries 15, 81, 82. -/
def Obligations.AccumulatorAcquireAndRelease : Prop :=
  ∀ (s : State) (p : Site), site? s = some p → p.converged = true → ∀ (h n : BitVec 2) (c : Opnd),
    let need := tilesOf p.lau (2 ^ n.toNat)
    let C := nth Core.reset s.cores p.grp.core
    (p.grp.acc = none → need ≤ coreTiles → C.accQueue = [] → usedTiles s p.grp.core + need ≤ coreTiles → C.matrixReset = false →
      exec (.accacq h n) s =
        .next (define p (List.replicate 128 .acc) (s.updGroup p.g (fun G => { G with acc := some (freshSet p.ctx need) })))) ∧
    (p.grp.acc.isSome = true → p.side.pend = .done →
      exec (.accacq h n) s = .next (define p (List.replicate 128 .acc) (setPend p .none s))) ∧
    (p.grp.acc.isSome = true → p.side.pend = .none →
      exec (.accacq h n) s = .next (faultAt p.g p.sd .regionLimit p.pc none 0 s)) ∧
    (∀ A, p.grp.acc = some A → opndAcc p c = true →
      (A.anySaved = false → A.busy = false → exec (.accrel h c) s = .next (advance p (gate p [.accrel] s))) ∧
      (A.anySaved = false → A.busy = true → exec (.accrel h c) s = .next (waitFor p (.tile none) s)) ∧
      (A.anySaved = true → exec (.accrel h c) s = .next (requestRestore p.g p.sd s)))

/-- R120, R124 to R130: a matrix instruction that writes tile t of a set that its converged group holds, with a token free, gives the tile
its new contents under a new completion token, and raises its flags once for the group (lane 0xFF). R129 to R132: a read of a tile by its
latest completion token, which is complete, or in relaxed mode with no write in flight, gives the words of the slice after folding
(`accrd`), or the residue words, each reduced where it is out of range (`rsdraw`, R56).
The model's own readings and choices in it: log entries 59, 80. -/
def Obligations.MatrixWritesAndReads : Prop :=
  (∀ (s : State) (p : Site), site? s = some p → p.converged = true → tokenFree s p.grp = true →
    ∀ (h : BitVec 2) (c t : Opnd) (A : AccSet) (T : Tile),
    opndAcc p c = true → p.grp.acc.map (AccSet.seenBy p.ctx) = some A → A.anySaved = false →
    A.tiles[p.tileIx (immNat t)]? = some T → T.st ≠ .lost →
    let U := (A.tiles[p.tileIx (immNat t) + 1]?).getD T
    (∀ fm fs ws, opndAll s p .i32 fs = some ws → (fm = .mo → p.moment = true ∧ badVarLane (nth [] (fragWords p.mask ws) 1) = none) →
      let r := mmaTiles fm T U (fragWords p.mask ws)
      exec (.mma h fm c t fs) s = .next (writeTiles p (immNat t) r.1 (raiseGroup p r.2 s))) ∧
    (let z := fun (T : Tile) => { T with el := [], res := [], ctr := 0, bad := [] }
     exec (.acczero h c t) s =
       .next (writeTiles p (immNat t) (if p.moment then [z T, z U] else [z T]) (raiseGroup p (foldTile T).2 s))) ∧
    (∀ ty j v vs, opndBits s p (AccTy.ty ty) v = some vs → ty ≠ .mo →
      exec (.accwr h ty c t j v) s = .next (writeTiles p (immNat t)
        [Tile.written p.mask (immNat j) { (foldTile T).1 with el := setSlice p.mask (foldTile T).1.el (immNat j) vs }]
        (raiseGroup p (foldTile T).2 s))) ∧
    (∀ j v vs V, opndBits s p .mo v = some vs → p.moment = true → A.tiles[p.tileIx (immNat t) + 1]? = some V →
      (lanesOf p.mask).all (fun i => !badVar (Mo.ofBits (nth 0 vs i)).v) = true →
      exec (.accwr h .mo c t j v) s = .next (writeTiles p (immNat t)
        [Tile.written p.mask (immNat j) { (foldTile T).1 with el := setSlice p.mask (foldTile T).1.el (immNat j) vs },
         Tile.written p.mask (immNat j) { V with el := setSlice p.mask V.el (immNat j) (vs.map (fun (x : DWord) => posZero (x >>> 32))) }]
        (raiseGroup p (foldTile T).2 s))) ∧
    (∀ e es, opndBits s p .i32 e = some es →
      exec (.ldscale h c t e) s = .next (writeTiles p (immNat t) [T.scaled p.mask es] (raiseFlags p (scaleEvents p.mask es) s)))) ∧
  (∀ (s : State) (p : Site), site? s = some p → ∀ (h : BitVec 2) (c t j : Opnd) (k : Option Opnd) (A : AccSet) (T : Tile),
    opndAcc p c = true → p.grp.acc.map (AccSet.seenBy p.ctx) = some A → A.anySaved = false →
    A.tiles[p.tileIx (immNat t)]? = some T → T.st ≠ .lost →
    ((p.relaxed = true ∧ T.flight = [] ∧ (k = none ∨ ∃ o e, k = some o ∧ opndTok p o = some e)) ∨
     (p.relaxed = false ∧ ∃ o e, k = some o ∧ opndTok p o = some e ∧ T.lastTok = some e ∧ tokState p.grp e ≠ some .pending)) →
    let folded := raiseGroup p (foldTile T).2 (s.updGroup p.g (fun G => { G with acc := G.acc.map (fun A =>
      { A with tiles := modifyAt (fun _ => (foldTile T).1) A.tiles (p.tileIx (immNat t)) }) }))
    let ms := sliceWords (foldTile T).1.el (immNat j)
    let rs := readRsd (sliceWords T.res (immNat j))
    (T.badLane p.mask (immNat j) = none →
      exec (.rsdraw h c t j k) s = .next (defineBits p (rs.map (·.1)) (raiseFlags p (laneEvents p.mask (rs.map (·.2))) s)) ∧
      (∀ ty, ty ≠ .mo → exec (.accrd h ty c t j k) s = .next (defineBits p ms folded))) ∧
    (∀ V, p.moment = true → A.tiles[p.tileIx (immNat t) + 1]? = some V →
      Tile.badLane p.mask (immNat j) { T with bad := T.bad ++ V.bad } = none →
      exec (.accrd h .mo c t j k) s =
        .next (defineBits p (List.zipWith (fun (m v : DWord) => m ||| (v <<< 32)) ms (sliceWords V.el (immNat j))) folded)))

/-- R118, R131: what a tile write does when it issues: its tile is Held-busy with the write in flight and the write's token as its latest,
its contents are the new ones, the token is Pending, and no byte of storage changes. -/
def Obligations.MatrixWriteTakesToken : Prop :=
  ∀ (s : State) (p : Site) (A : AccSet) (i id : Nat) (T : Tile), s.groups[p.g]? = some p.grp → p.grp.acc = some A → i < A.tiles.length →
    let t := putTiles p i id [T] s
    SameStorage s t ∧
    ∃ G B, t.groups[p.g]? = some G ∧ G.acc = some B ∧ (∀ k, k ≠ i → B.tiles[k]? = A.tiles[k]?) ∧
      B.tiles[i]? = some { T with st := .heldBusy, lastTok := some id, flight := T.flight ++ [id] } ∧
      { e := id, st := .pending } ∈ G.toks

/-- R120, R126, R131, R173: the faults of a matrix instruction: a diverged group, a value that holds no set's tile, a Lost tile, and a
read by a token that is not the tile's latest. -/
def Obligations.MatrixFaults : Prop :=
  ∀ (s : State) (p : Site), site? s = some p → ∀ (h : BitVec 2) (c t : Opnd),
    (p.converged = false →
      exec (.acczero h c t) s = .next (faultAt p.g p.sd .divergentMatrix p.pc none 0 s) ∧
      (∀ n, exec (.accacq h n) s = .next (faultAt p.g p.sd .divergentMatrix p.pc none 0 s)) ∧
      exec (.accrel h c) s = .next (faultAt p.g p.sd .divergentMatrix p.pc none 0 s)) ∧
    (∀ A, opndAcc p c = true → p.grp.acc.map (AccSet.seenBy p.ctx) = some A → A.anySaved = false →
      let miss := fun (i : Instr) => exec i s = .next (faultAt p.g p.sd .accessWithoutToken p.pc none (BitVec.ofNat 64 (immNat t)) s)
      (A.tiles[p.tileIx (immNat t)]? = none →
        (∀ j k, miss (.rsdraw h c t j k)) ∧ (p.converged = true → miss (.acczero h c t))) ∧
      (∀ T, A.tiles[p.tileIx (immNat t)]? = some T →
        (T.st = .lost → (∀ j k, miss (.rsdraw h c t j k)) ∧ (p.converged = true → miss (.acczero h c t))) ∧
        (∀ j o e, T.st ≠ .lost → p.relaxed = false → opndTok p o = some e → T.lastTok ≠ some e → miss (.rsdraw h c t j (some o)))))

/-! ### Engine instructions -/

/-- R265 to R277, R309, R315: where its operands are readable, a token is free and its checks pass, each engine instruction issues the
engine instruction that its operands describe: gated (`copy`, `gather`, `scatter`, `coll`, `tjoin`), or as its region's committing
operation (`post`, `sigdec`, `sigset`, `enq`). -/
def Obligations.EngineInstructionsIssue : Prop :=
  ∀ (s : State) (p : Site), site? s = some p → tokenFree s p.grp = true → ∀ (h : BitVec 2) (ks : List Opnd) (es : List Nat),
    opndToks p ks = some es → ∀ (sc mask : BitVec 3),
    let v := p.view s
    (exec (.tjoin h ks) s = .next (issueEngine p .tjoin 0 0 es s)) ∧
    (∀ dst src d a, memLanes s p dst = some d → memLanes s p src = some a →
      let d0 := (nth 0 d p.low).toNat
      let a0 := (nth 0 a p.low).toNat
      (∀ len n dirty tag sps, opndOne s p .i32 len = some n →
        n.toNat % 4 = 0 → 4 ≤ n.toNat → n.toNat ≤ 2 ^ 30 → d0 % 4 = 0 → a0 % 4 = 0 →
        let k := EngKind.copy dirty tag d0 a0 n.toNat 1 0 0
        checkMoves v p.who mask 4 (engMoves k) = .ok sps → (dirty = true → sps.all (fun e => e == (.sp, .ds)) = true) →
        (tag = true → sps.all (fun e => e.1 != .sp && e.2 != .sp) = true) →
        exec (.copy h sc mask dirty tag dst src len none ks) s = .next (issueEngine p k sc mask es (touchMoves p.who (engMoves k) s))) ∧
      (∀ len n dirty tag r ds ss rows dstr sstr sps, opndOne s p .i32 len = some n → opndOne s p .i32 r = some rows →
        opndOne s p .i32 ds = some dstr → opndOne s p .i32 ss = some sstr →
        n.toNat % 4 = 0 → 4 ≤ n.toNat → n.toNat ≤ 2 ^ 30 → d0 % 4 = 0 → a0 % 4 = 0 → 1 ≤ rows.toNat → rows.toNat ≤ 65535 →
        dstr.toNat % 4 = 0 → sstr.toNat % 4 = 0 → n.toNat ≤ dstr.toNat → n.toNat ≤ sstr.toNat →
        let k := EngKind.copy dirty tag d0 a0 n.toNat rows.toNat dstr.toNat sstr.toNat
        checkMoves v p.who mask 4 (engMoves k) = .ok sps → (dirty = true → sps.all (fun e => e == (.sp, .ds)) = true) →
        (tag = true → sps.all (fun e => e.1 != .sp && e.2 != .sp) = true) →
        exec (.copy h sc mask dirty tag dst src len (some (r, ds, ss)) ks) s = .next (issueEngine p k sc mask es (touchMoves p.who (engMoves k) s))) ∧
      (∀ kind op t cnt grp c g n r tmo, opndOne s p .i32 cnt = some c → opndOne s p .i32 grp = some g → g.toNat < 256 →
        collGroup s p.ctx g.toNat = some (n, r, tmo) → 1 ≤ c.toNat → c.toNat ≤ 2 ^ 28 → 2 ≤ n →
        (kind = .redsc ∨ kind = .allgat → c.toNat % n = 0) →
        let z := collSizes kind c.toNat n r
        let b := Ty.bytes t
        (∃ l, checkWords v p.who mask false a0 ((z.1 * b + 3) / 4) 0 = .ok l) → (∃ l, checkWords v p.who mask true d0 ((z.2 * b + 3) / 4) 0 = .ok l) →
        exec (.coll h kind op mask t dst src cnt grp ks) s = .next (issueEngine p (.coll kind op t d0 a0 c.toNat g.toNat 0) 5 mask es
          (touchAddrs p.who 1 (pageSpots a0 (z.1 * b) ++ pageSpots d0 (z.2 * b)) s)))) ∧
    (∀ le pk x e ps xs sps, memLanes s p pk = some ps → scattered s p x = some xs →
      let k0 := (nth 0 ps p.low).toNat
      let n := 2 ^ le.toNat
      2 ≤ le.toNat → le.toNat ≤ 8 →
      (checkMoves v p.who mask (min n 16) (engMoves (.gather k0 xs n)) = .ok sps →
        exec (.gather h sc mask le pk x e ks) s =
          .next (issueEngine p (.gather k0 xs n) sc mask es (touchMoves p.who (engMoves (.gather k0 xs n)) s))) ∧
      (checkMoves v p.who mask (min n 16) (engMoves (.scatter k0 xs n)) = .ok sps →
        exec (.scatter h sc mask le x pk e ks) s =
          .next (issueEngine p (.scatter k0 xs n) sc mask es (touchMoves p.who (engMoves (.scatter k0 xs n)) s)))) ∧
    (∀ m x a y, lowAddr s p m = some a → opndOne s p .i64 x = some y → (∃ k, resolve v p.who a.toNat 8 8 mask true = .ok k) →
      let s' := touchAddrs p.who 8 [a.toNat] s
      exec (.sigset h sc mask m x ks) s = .next (commitEngine p (.sigset a.toNat y) sc mask es s') ∧
      ((∃ k, resolve v p.who a.toNat 8 8 mask false = .ok k) →
        exec (.sigdec h sc mask m x ks) s = .next (commitEngine p (.sigdec a.toNat y) sc mask es s'))) ∧
    (∀ b q d x y, opndOne s p .i32 q = some x → opndOne s p .i64 d = some y → enqBad s p.ctx x.toNat y = false →
      exec (.enq h b sc mask q d ks) s = .next (commitEngine p (.enq x.toNat y.toNat b) sc mask es s)) ∧
    (∀ seg fn vs i j o f b bs vals, calleeIndex s p fn = some i → objectAt s p.ctx p.fr.fn = some (j, o) → tableFn o i = some f →
      blocksOf s f = b :: bs → vs.length = b.args.length → targetArgs s p b { blk := 0, args := vs } = some vals →
      exec (.post h sc seg fn (vs ++ ks)) s = .next (commitEngine p (.post s.groups.length) sc 2 es
        { s with groups := s.groups ++ [{ newGroup p.grp.block p.grp.gid (entrySide s f p.mask vals) with seg := immNat seg, handler := true }] }))

/-- R266, R267: with no token free an engine instruction waits for one; `kwait` waits while one of its tokens is pending, and a Failed
token is the engine-failure fault of `kwait` and `ktest`, with AUX its origin and cause. R265, R266, R268: an engine instruction that
issues is gated, takes the next number, appends one engine instruction that has not started, has a Pending token which it defines, and
changes no byte of storage. -/
def Obligations.TokensAndTheirWaits : Prop :=
  (∀ (s : State) (p : Site), site? s = some p → ∀ (h : BitVec 2) (ks : List Opnd) (es : List Nat), opndToks p ks = some es →
    (tokenFree s p.grp = false → exec (.tjoin h ks) s = .next (waitFor p .tokenFree s)) ∧
    (failedTok p.grp es = none → es.any (fun e => tokState p.grp e = some .pending) = true →
      exec (.kwait h ks) s = .next (waitFor p (.tokens es) s)) ∧
    (∀ c o, failedTok p.grp es = some (c, o) →
      exec (.kwait h ks) s = .next (faultAt p.g p.sd .engineFailure p.pc none (failAux c o) s)) ∧
    (∀ k e c o, opndTok p k = some e → tokState p.grp e = some (.failed c o) →
      exec (.ktest h k) s = .next (faultAt p.g p.sd .engineFailure p.pc none (failAux c o) s))) ∧
  (∀ (s : State) (p : Site), site? s = some p → ∀ (kind : EngKind) (sc mask : BitVec 3) (es : List Nat),
    let t := issueEngine p kind sc mask es s
    SameStorage s t ∧ t.ids = s.ids + 1 ∧
    t.engs = s.engs ++ [{ id := s.ids, ctx := p.ctx, group := p.g, kind := kind, scope := sc, mask := mask, deps := es, origin := p.pc,
                          st := .gated, since := s.time, done := [], wrote := [] }] ∧
    ∃ G S F, t.groups[p.g]? = some G ∧ G.sides[p.sd]? = some S ∧ S.core.frames.head? = some F ∧
      { e := s.ids, st := .pending } ∈ G.toks ∧ S.gated = p.side.gated ++ [.engine s.ids] ∧
      F.next = p.fr.next + 1 ∧ F.pc = p.fr.pc + 4 * p.len ∧
      (∀ l, l < 128 → p.mask.getLsbD l = true → nth (.bits 0) (NMap.get [] F.vals p.fr.next) l = .tok s.ids))

/-- R243 to R245: a publication of null whose tokens are complete claims nothing: with a token free and the slot accessible its walk
succeeds at once. A publication of an object opens a walk that is to visit it and waits for its claim phase, and when the group issues it
again after that phase has ended, the walk succeeds, or the fault of a failed one is taken with its AUX.
The model's own readings and choices in it: log entry 62. -/
def Obligations.PublicationClaims : Prop :=
  ∀ (s : State) (p : Site), site? s = some p → tokenFree s p.grp = true → ∀ (h : BitVec 2) (sc mask : BitVec 3) (m : MemOp) (r : Opnd)
      (ks : List Opnd) (es : List Nat) (as : List DWord) (rs : List (DWord × Bool)),
    memLanes s p m = some as → opndRefs p r = some rs → opndToks p ks = some es →
    es.all (fun e => decide (tokState p.grp e = none ∨ tokState p.grp e = some .complete)) = true →
    let v := sideView s p.ctx p.g p.sd p.side.gated
    let root := (nth (0, false) rs p.low).1
    let slot := (nth 0 as p.low).toNat
    (openWalk s p.g p.low = none → (∃ k, resolve v p.who slot 8 8 2 true = .ok k) →
      let s0 := landAll p.g (touchAddrs p.who 8 [slot] s)
      let W : Walk := { id := s0.ids, group := p.g, side := p.low, ctx := p.ctx, stamp := p.grp.stamp, scope := sc, root := root, slot := slot,
                        eng := s0.ids + 1, claimed := [], widened := [], waits := [], queue := [], scan := none,
                        visits := if root = 0 then [] else [root.toNat], released := false, fault := none, st := .claiming }
      let s' := countEv p.ctx 0x70 1 { s0 with ids := s0.ids + 2 }
      (root = 0 → exec (.publ h sc mask m r ks) s = .next (succeedWalk p.port W mask es s')) ∧
      (root ≠ 0 → exec (.publ h sc mask m r ks) s = .next (waitFor p (.claim W.id) (putWalk W s')))) ∧
    (∀ W, openWalk s p.g p.low = some W →
      (W.st = .claimed → exec (.publ h sc mask m r ks) s = .next (succeedWalk p.port W mask es s)) ∧
      (W.st = .claiming → exec (.publ h sc mask m r ks) s = .next (waitFor p (.claim W.id) s)) ∧
      (∀ c x, W.st = .failed → W.fault = some (c, x) → exec (.publ h sc mask m r ks) s =
        .next (faultAt p.g p.sd c p.pc none (BitVec.ofNat 64 x) (putWalk { W with released := true } s))))

/-! ### Signals -/

/-- R214, R311 to R314: a read of a signal by the group comes after the group's own stores to it, and after those owed to it, and ends what its
lanes read early of it; where nothing is held back and the region holds nothing gated it gives the word as its context loads it. `sigrd` gives
the signal in every active lane; `sigwait` whose condition holds at registration gives the signal's value;
`twait` gives 1 when its condition holds, 0 when its deadline has passed; a wait that has been satisfied gives the value that satisfied it;
and one whose condition does not hold yet waits. A read that gives a value acquires.
The model's own readings and choices in it: log entry 14. -/
def Obligations.SignalReadsAndWaits : Prop :=
  ∀ (s : State) (p : Site), site? s = some p → ∀ (h : BitVec 2) (sc mask : BitVec 3) (m : MemOp) (a : DWord) (acc : Acc),
    lowAddr s p m = some a → resolve (p.view s) p.who a.toNat 8 8 mask false = .ok acc →
    let s' := p.readsWord acc.key (touchAddrs p.who 8 [a.toNat] s)
    let v := loadWord s' p.ctx acc.key
    let got := fun (x : DWord) (s : State) => Host.Outcome.next (defineAll p x (p.acquires sc mask s))
    let all := fun (x : DWord) (s : State) => Host.Outcome.next (defineAll p x s)
    exec (.sigrd h sc mask m) s = got v s' ∧
    ((∀ G ∈ s.groups, G.wbuf = []) → p.side.gated = [] → SameStorage s s' ∧ v = loadWord s p.ctx acc.key) ∧
    (∀ cc o x, opndOne s p .i64 o = some x →
      (p.side.pend = .none →
        (condMet cc v x = true → exec (.sigwait h cc sc mask m o) s = got v s') ∧
        (condMet cc v x = false → exec (.sigwait h cc sc mask m o) s =
          .next (waitFor p (.signal { a := acc.key, cond := cc, x := x, deadline := none, hit := none }) s'))) ∧
      (∀ w, p.side.pend = .hit w →
        exec (.sigwait h cc sc mask m o) s = all w (setPend p .none (p.acquires sc mask (p.forget mask m s)))) ∧
      (∀ n k, opndOne s p .i32 n = some k →
        (∀ w, p.side.pend = .hit w →
          exec (.twait h cc sc mask m o n) s = all 1 (setPend p .none (p.acquires sc mask (p.forget mask m s)))) ∧
        (p.side.pend = .done → exec (.twait h cc sc mask m o n) s = all 0 (setPend p .none s)) ∧
        (p.side.pend = .none →
          (condMet cc v x = true → exec (.twait h cc sc mask m o n) s = all 1 (setPend p .none (p.acquires sc mask s'))) ∧
          (condMet cc v x = false → k = 0 → exec (.twait h cc sc mask m o n) s = all 0 (setPend p .none s')) ∧
          (condMet cc v x = false → k ≠ 0 → exec (.twait h cc sc mask m o n) s =
            .next (waitFor p (.signal { a := acc.key, cond := cc, x := x, deadline := some (s.time + k.toNat), hit := none })
              (commit p.g p.sd (setPend p (.deadline (s.time + k.toNat)) s')))))))

/-! ### Slot operations -/

/-- R162, R165, R167, R178, with the values of R77 to R82: each integer operation of a V slot leaves its queue and writes its lanes'
32-bit results to D, readable after its latency, in the lanes that act (active, and with guard 1 where it has one); with KP its operand A
goes into the slot's operand buffer; nothing else changes. `isel` and the carry and compare operations act as R167 says.
The model's own readings and choices in it: log entry 26. -/
def Obligations.NativeIntegerResults : Prop :=
  ∀ (s : State) (p : NSite), nsite? s = some p → ∀ v : VOp,
    let x := fun (i : Nat) => nth 0 (p.g_ v.a.toNat) i
    let y := fun (i : Nat) => nth 0 (p.g_ v.b.toNat) i
    let z := fun (i : Nat) => nth 0 (p.g_ v.d.toNat) i
    let n := fun (w : DWord) => w.toNat % 2 ^ 32
    let m := p.act v.grd
    let q := fun (i : Nat) => p.predAt (v.grd.toNat % 8) i
    let lanes := fun (f : Nat → DWord) => (List.range 128).map f
    let op := fun (i : Instr) (W N : Nat) (f : DWord → DWord → DWord → DWord) =>
      NWrites i s p (p.wrG v.d.toNat (p.lat W N) m (lanes (fun i => lowBits 32 (f (x i) (y i) (z i)))) ++ p.wrA v)
    let carry := fun (i : Instr) (m : Mask) (c : Nat → Nat) =>
      NWrites i s p (p.wrG v.d.toNat (p.lat 3 4) m (lanes (fun i => lowBits 32 (x i + y i + BitVec.ofNat 64 (c i)))) ++
        [p.wr .push (p.lat 3 4) m (lanes (fun i => b1 (carryOf (x i) (y i) (c i)))) false] ++ p.wrA v)
    op (.iadd v) 3 4 (fun a b _ => iAdd 32 a b) ∧ op (.isub v) 3 4 (fun a b _ => iSub 32 a b) ∧
    op (.imul v) 5 6 (fun a b _ => iMul true false 32 a b) ∧ op (.imhs v) 5 6 (fun a b _ => iMulhi true 32 a b) ∧
    op (.imhn v) 5 6 (fun a b _ => iMulhi false 32 a b) ∧ op (.imad v) 5 6 (fun a b d => iMad true 32 a b d) ∧
    op (.iand v) 3 4 (fun a b _ => a &&& b) ∧ op (.ior v) 3 4 (fun a b _ => a ||| b) ∧ op (.ixor v) 3 4 (fun a b _ => a ^^^ b) ∧
    op (.ishl v) 3 4 (fun a b _ => iShl 32 a (n b)) ∧ op (.ishrs v) 3 4 (fun a b _ => iShr true 32 a (n b)) ∧
    op (.ishrn v) 3 4 (fun a b _ => iShr false 32 a (n b)) ∧ op (.irotl v) 3 4 (fun a b _ => iRotl 32 a (n b)) ∧
    op (.imins v) 3 4 (fun a b _ => iMin true 32 a b) ∧ op (.iminn v) 3 4 (fun a b _ => iMin false 32 a b) ∧
    op (.imaxs v) 3 4 (fun a b _ => iMax true 32 a b) ∧ op (.imaxn v) 3 4 (fun a b _ => iMax false 32 a b) ∧
    op (.iclz v) 3 4 (fun a _ _ => iClz 32 a) ∧ op (.ipopc v) 3 4 (fun a _ _ => iPopc 32 a) ∧ op (.ibrev v) 3 4 (fun a _ _ => iBrev 32 a) ∧
    op (.ibfxs v) 3 4 (fun a b _ => iBfx true 32 a (n b % 256) (n b / 256 % 256)) ∧
    op (.ibfxn v) 3 4 (fun a b _ => iBfx false 32 a (n b % 256) (n b / 256 % 256)) ∧
    op (.ibfi v) 3 4 (fun a b d => iBfi 32 d a (n b % 256) (n b / 256 % 256)) ∧
    op (.iaddss v) 3 4 (fun a b _ => iAddsat true 32 a b) ∧ op (.iaddsn v) 3 4 (fun a b _ => iAddsat false 32 a b) ∧
    op (.isubss v) 3 4 (fun a b _ => iSubsat true 32 a b) ∧ op (.isubsn v) 3 4 (fun a b _ => iSubsat false 32 a b) ∧
    op (.idivs v) 36 42 (fun a b _ => (iDivRem true 32 a b).1) ∧ op (.idivn v) 36 42 (fun a b _ => (iDivRem false 32 a b).1) ∧
    op (.irems v) 36 42 (fun a b _ => (iDivRem true 32 a b).2) ∧ op (.iremn v) 36 42 (fun a b _ => (iDivRem false 32 a b).2) ∧
    NWrites (.isel v) s p (p.wrG v.d.toNat (p.lat 3 4) p.e.mask (lanes (fun i => if q i = 1 then x i else y i)) ++ p.wrA v) ∧
    carry (.iaddcp v) m (fun _ => 0) ∧ carry (.iaddci v) p.e.mask q ∧
    (∀ cc, Cond.ofCode (v.d.toNat % 8) = some cc →
      NWrites (.icmp v) s p (p.wr .push (p.lat 3 4) m
        (lanes (fun i => b1 (intCond cc (rdInt (v.d.getLsbD 3) 32 (x i)) (rdInt (v.d.getLsbD 3) 32 (y i))))) false :: p.wrA v))

/-- R164, R167, R170, R178, with the values of R83 to R89 and R98 to R100: the floating-point and residue operations of a V slot in the
format, rounding and subnormal mode of FMW, and the special functions of the F slot, with the flags that each lane that acts raises. -/
def Obligations.NativeFloatResults : Prop :=
  ∀ (s : State) (p : NSite), nsite? s = some p →
    let lanes := fun {α : Type} (f : Nat → α) => (List.range 128).map f
    let f := Ty.fmt p.fty
    (∀ v : VOp,
      let x := fun (i : Nat) => nth 0 (p.g_ v.a.toNat) i
      let y := fun (i : Nat) => nth 0 (p.g_ v.b.toNat) i
      let z := fun (i : Nat) => nth 0 (p.g_ v.d.toNat) i
      let m := p.act v.grd
      let pure := fun (i : Instr) (W N : Nat) (g : DWord → DWord → DWord) =>
        NWrites i s p (p.wrG v.d.toNat (p.lat W N) m (lanes (fun i => lowBits 32 (g (x i) (y i)))) ++ p.wrA v)
      let flagged := fun (i : Instr) (W N : Nat) (g : DWord → DWord → DWord → DWord × Flags) =>
        NRaises i s p (laneEvents m (lanes (fun i => (g (x i) (y i) (z i)).2)))
          (p.wrG v.d.toNat (p.lat W N) m (lanes (fun i => lowBits 32 (g (x i) (y i) (z i)).1)) ++ p.wrA v)
      flagged (.vFadd v) 5 6 (fun a b _ => fpAdd f p.rm p.dn a b) ∧ flagged (.vFsub v) 5 6 (fun a b _ => fpSub f p.rm p.dn a b) ∧
      flagged (.vFmul v) 5 6 (fun a b _ => fpMul f p.rm p.dn a b) ∧ flagged (.ffma v) 5 6 (fun a b d => fpFma f p.rm p.dn a b d) ∧
      (p.fty = .f32 → flagged (.vFdiv v) 30 34 (fun a b _ => fpDiv f p.rm p.dn a b)) ∧
      (p.fty ≠ .f32 → flagged (.vFdiv v) 24 28 (fun a b _ => fpDiv f p.rm p.dn a b)) ∧
      flagged (.fscl v) 5 6 (fun a b _ => fpScale f p.rm p.dn a (rdInt true 32 b)) ∧
      (∀ st t, CTy.ofCode (v.b.extractLsb' 0 4) = some st → CTy.ofCode (v.b.extractLsb' 4 4) = some t →
        flagged (.vCvt v) 5 6 (fun a _ _ => cvtLane (vcvtKind v.b) t st p.rm p.dn a)) ∧
      flagged (.rsenc v) 6 8 (fun a _ _ => rsdencLane (v.b.getLsbD 8) a) ∧ flagged (.rsdec v) 6 8 (fun a _ _ => rsddecLane a) ∧
      pure (.vFmin v) 3 4 (fpMinMax false f p.dn) ∧ pure (.vFmax v) 3 4 (fpMinMax true f p.dn) ∧ pure (.fcsgn v) 3 4 (fpCopysign f) ∧
      (∀ t, Ty.ofCode (v.b.extractLsb' 0 4) = some t → pure (.vFclass v) 3 4 (fun a _ => fpClass (Ty.fmt t) a)) ∧
      pure (.vFrnd v) 5 6 (fun a _ => fpRnd f p.rm p.dn a) ∧
      (∀ cc, FCond.ofCode (v.d.toNat % 8) = some cc →
        NWrites (.vFcmp v) s p (p.wr .push (p.lat 3 4) m (lanes (fun i => b1 (fpCmp f p.dn cc (x i) (y i)))) false :: p.wrA v))) ∧
    (∀ o : FOp,
      let x := fun (i : Nat) => nth 0 (p.g_ o.a.toNat) i
      let sf := fun (i : Instr) (g : Bool → DWord → DWord × Flags) =>
        NRaises i s p (laneEvents (p.act o.grd) (lanes (fun i => (g p.dn (x i)).2)))
          (p.wrG o.d.toNat 14 (p.act o.grd) (lanes (fun i => (g p.dn (x i)).1)))
      sf (.fExp2 o) sfExp2 ∧ sf (.fLog2 o) sfLog2 ∧ sf (.fRcp o) sfRcp ∧ sf (.fSqrt o) sfSqrt ∧ sf (.fRsqrt o) sfRsqrt ∧
      sf (.fSinpi o) sfSinpi ∧ sf (.fCospi o) sfCospi ∧ sf (.fTanh o) sfTanh ∧ sf (.fSigmoid o) sfSigmoid ∧ sf (.fErf o) sfErf)


/-- R90 to R93, R167, R169, R176: the cross-lane operations and the register-file operations of a V slot. An index out of range writes no
lane and is the array-bounds fault of the lowest such lane, with AUX the index; an element that is no register, or whose second
destination would be the operand buffer, is the illegal-bundle trap (R182).
The model's own readings and choices in it: log entries 26, 27. -/
def Obligations.NativeLaneResults : Prop :=
  ∀ (s : State) (p : NSite), nsite? s = some p → ∀ v : VOp,
    let a := p.g_ v.a.toNat
    let y := fun (i : Nat) => nth 0 (p.g_ v.b.toNat) i
    let m := p.act v.grd
    let lanes := fun (f : Nat → DWord) => (List.range 128).map f
    let all := fun (x : DWord) => List.replicate 128 x
    let D := v.d.toNat
    NWrites (.xshf v) s p (p.wrG D (p.lat 4 6) m (lanes (fun i => shflLane 0 p.e.mask a (y i).toNat i)) ++ p.wrA v) ∧
    NWrites (.xbc v) s p (p.wrG D (p.lat 4 6) m (all (bcastVal 0 p.e.mask a (y p.low).toNat)) ++ p.wrA v) ∧
    (∀ k, VoteMode.ofCode (v.b.toNat % 4) = some k →
      NWrites (.xvote v) s p (p.wr .push (p.lat 4 6) m (all (b1 (voteVal k m (condBits a)))) false :: p.wrA v)) ∧
    (let x := ballotVal (v.b.getLsbD 0) m (condBits a)
     NWrites (.xblt v) s p (p.wrG D (p.lat 4 6) m (all (lowBits 32 x)) ++ p.wrG (D + 1) (p.lat 4 6) m (all (x >>> 32)) ++ p.wrA v)) ∧
    (∀ op, RedOp.ofCode (v.b.toNat % 16) = some op →
      let c := redComb op (v.b.getLsbD 4) p.rm p.dn (p.redTy op)
      NRaises (.xred v) s p (redVal c.1 c.2 m a).2 (p.wrG D (p.lat 30 44) m (all (lowBits 32 (redVal c.1 c.2 m a).1)) ++ p.wrA v) ∧
      NRaises (.xscn v) s p (scanVal (v.b.getLsbD 5) c.1 c.2 m a).2
        (p.wrG D (p.lat 34 50) m ((scanVal (v.b.getLsbD 5) c.1 c.2 m a).1.map (lowBits 32)) ++ p.wrA v)) ∧
    (let u := all ((p.s_ v.a.toNat).zeroExtend 64)
     NWrites (.ubc v) s p (p.wrG D (p.lat 3 4) m u ++ p.wrBuf v u)) ∧
    NWrites (.mld v) s p (p.wrG D (p.lat 3 4) m (lanes (fun i =>
      let x := nth 0 (p.m_ (v.a.toNat % 128)) i
      if v.a.getLsbD 7 then x >>> 32 else lowBits 32 x))) ∧
    NWrites (.mst v) s p (p.wr (.m (D % 128) (v.d.getLsbD 7)) (p.lat 3 4) m a false :: p.wrA v) ∧
    (let X := p.x_ (v.a.toNat % 4)
     let ix := p.indices v.a
     let lat := p.ixLat v.a
     let trap := fun (i : Instr) =>
       exec i s = .next (faultAt p.g p.e.side .illegalBundle (p.nat.port p.e.pc) none (BitVec.ofNat 64 p.e.pc) (p.pop s))
     (badIndex m ix X.len = none →
       ((X.pair = true ∧ D + 1 = p.bufIx) ∨ X.beyond m ix (p.bufIx + 1) = true → trap (.rget v)) ∧
       (X.beyond m ix p.bufIx = true → trap (.rset v)) ∧
       (¬(X.pair = true ∧ D + 1 = p.bufIx) → X.beyond m ix (p.bufIx + 1) = false →
        let el := fun (k : Nat) => lanes (fun i => if m.getLsbD i then nth 0 (p.g_ (X.reg (nth 0 ix i).toNat + k)) i else 0)
        NWrites (.rget v) s p (p.wrG D lat m (el 0) ++ (if X.pair then p.wrG (D + 1) lat m (el 1) else []))) ∧
       (X.beyond m ix p.bufIx = false → NWrites (.rset v) s p ((List.range X.len).flatMap (fun i =>
         let mi := m &&& maskOf (fun l => (nth 0 ix l).toNat = i)
         if mi = 0 then []
         else p.wrG (X.reg i) lat mi (p.g_ v.b.toNat) ++ (if X.pair then p.wrG (X.reg i + 1) lat mi (p.g_ (v.b.toNat + 1)) else []))))) ∧
     (∀ l, badIndex m ix X.len = some l →
       let out := Host.Outcome.next (faultAt p.g p.e.side .arrayBounds (p.nat.port p.e.pc) (some l) (nth 0 ix l) (p.pop s))
       exec (.rget v) s = out ∧ exec (.rset v) s = out))

/-- R161, R169, R176, R260, R267, R317, R395, R396: the scalar, uniform and system operations of the S slot that write registers, and the
operations of every slot that do nothing; `fnc` has performed what its group has stored and what its region has gated, and closes the region
where it has gated any.
The model's own readings and choices in it: log entries 44, 45, 73, 97. -/
def Obligations.NativeScalarResults : Prop :=
  ∀ (s : State) (p : NSite), nsite? s = some p →
    (∀ i, i ∈ [Instr.sNop, .vNop, .fNop, .lNop, .mNop, .aNop] → NGives i s p p.popped) ∧
    (∀ o, NGives (.pref o) s p p.popped ∧
      ((p.nat.gatedOf p.e.side).isEmpty = true → exec (.fnc o) s = .next (landAll p.g (p.pop s)) ∧
        ((∀ G ∈ s.groups, G.wbuf = []) → NGives (.fnc o) s p p.popped)) ∧
      ((p.nat.gatedOf p.e.side).isEmpty = false → exec (.fnc o) s = .next (p.committed (p.flush (p.pop s))))) ∧
    (∀ d a f,
      let x := (p.s_ d.toNat).zeroExtend 64
      let y := (p.s_ a.toNat).zeroExtend 64
      (∀ r, intFn f.toNat x y x = some r → NUniform (.salu d a f) s p [(d.toNat, r.truncate 32)]) ∧
      (intFn f.toNat x y x = none →
        NUniform (.salu d a f) s p [(d.toNat, p.s_ d.toNat)] ∨ NUniform (.salu d a f) s p [(d.toNat, p.s_ a.toNat)])) ∧
    (∀ d i, NUniform (.sli d i) s p [(d.toNat, i.signExtend 32)] ∧
      NUniform (.slhi d i) s p [(d.toNat, i ++ (p.s_ d.toNat).extractLsb' 0 15)]) ∧
    (∀ d a, NUniform (.sv2s d a) s p [(d.toNat, (nth 0 (p.g_ a.toNat) p.low).truncate 32)]) ∧
    (∀ f, NWrites (.ssetfm f) s p [p.wr .fmw 2 0 [f.zeroExtend 64] false]) ∧
    (∀ x b l q, NWrites (.sxset x b l q) s p
      [p.wr (.x x.toNat) 2 0 [BitVec.ofNat 64 (b.toNat + (l.toNat + 1) * 512 + (if q then 2 ^ 16 else 0))] false]) ∧
    (∀ x u, let i := p.s_ u.toNat
      (i.toNat < (p.x_ x.toNat).len → NWrites (.sxidx x u) s p [p.wr (.xi x.toNat) 2 0 [i.zeroExtend 64] false]) ∧
      ((p.x_ x.toNat).len ≤ i.toNat → exec (.sxidx x u) s =
        .next (faultAt p.g p.e.side .arrayBounds (p.nat.port p.e.pc) (some p.low) (i.zeroExtend 64) (p.pop s)))) ∧
    (∀ d t,
      let st := (p.tok t.toNat).bind (tokState p.grp)
      (st = some .pending → NUniform (.skest d t) s p [(d.toNat, 0)]) ∧
      (st = none ∨ st = some .complete → NUniform (.skest d t) s p [(d.toNat, 1)]) ∧
      (∀ c o, st = some (.failed c o) →
        exec (.skest d t) s = .next (faultAt p.g p.e.side .engineFailure (p.nat.port p.e.pc) none (failAux c o) (p.pop s)))) ∧
    (∀ u : BitVec 9,
      let n := u.toNat
      let pair := fun (o : BitVec 4) (x : DWord) => NUniform (.ssys u o) s p [(n, x.truncate 32), (n + 1, x.extractLsb' 32 32)]
      pair 3 (BitVec.ofNat 64 (nth Core.reset s.cores p.grp.core).clk) ∧
      pair 4 (BitVec.ofNat 64 s.time) ∧
      NUniform (.ssys u 5) s p [(n, p.site.side.core.view.flags &&& 0x7F)] ∧
      NGives (.ssys u 6) s p { p.popped with
        slots := modifyAt (Option.map (fun P => { P with view := P.view.clear (p.s_ n), events := if (p.s_ n).getLsbD 7 then [] else P.events }))
          p.own.slots p.e.side } ∧
      pair 7 p.site.side.core.view.fev ∧
      pair 8 (nth 0 (ctxAt s p.ctx).counts ((p.s_ n).toNat % 16)))

/-- R72, R73, R75, R169, R177: the control operations of the S slot. R74, R169, R189: the threads of a side end at `sexit`, and at `sret`
with no call: its region commits, its PC slot becomes free, its view stays for the rejoins ahead of it, and the group settles; the last
side first waits for the group's pending tokens.
The model's own readings and choices in it: log entries 16, 28, 43. -/
def Obligations.NativeControlAndEndOfThread : Prop :=
  (∀ (s : State) (p : NSite), nsite? s = some p → (nth none p.own.slots p.e.side).all (fun P => !P.comm) = true →
    let at_ := fun (b : Nat) => modifyAt (Option.map (fun P => { P with pc := b })) p.own.slots p.e.side
    let calls := fun (b : Nat) (l : List (Nat × Nat)) =>
      { p.popped with slots := modifyAt (Option.map (fun P => { P with pc := b, calls := l })) p.own.slots p.e.side }
    (∀ o, NGives (.sbr o) s p { p.popped with slots := at_ (relBundle p.e.pc o) }) ∧
    (∀ c o,
      let t := p.e.mask &&& nth 0 p.preds c.toNat
      (t = 0 → NGives (.sbrc c o) s p p.popped) ∧
      (t ≠ 0 → t = p.e.mask → NGives (.sbrc c o) s p { p.popped with slots := at_ (relBundle p.e.pc o) }) ∧
      (t ≠ 0 → t ≠ p.e.mask → exec (.sbrc c o) s = .next (p.diverge t (relBundle p.e.pc o) (p.pop s)))) ∧
    (∀ o,
      let used := p.calls.foldl (fun n c => n + c.2) 0
      (used + p.frame ≤ p.lau.frame → p.calls.length < 64 →
        NGives (.scall o) s p (calls (relBundle p.e.pc o) ((p.e.pc + 1, p.frame) :: p.calls))) ∧
      (p.lau.frame < used + p.frame ∨ 64 ≤ p.calls.length → exec (.scall o) s =
        .next (faultAt p.g p.e.side .callDepth (p.nat.port p.e.pc) none (BitVec.ofNat 64 (p.calls.length + 1)) (p.pop s)))) ∧
    (∀ b n r, p.calls = (b, n) :: r → NGives .sret s p (calls b r)) ∧
    (∀ c, exec (.strap c) s = .next (faultAt p.g p.e.side .userTrap (p.nat.port p.e.pc) (some p.low) (c.zeroExtend 64) (p.pop s))) ∧
    (∀ n e r l,
      let trip := (p.s_ r.toNat).toNat
      let total := trip + e.toNat
      let L : Loop := { on := decide (0 < total), iter := 0, trip := trip, total := total, head := p.e.pc + 1, len := l.toNat }
      let N : Native := { p.popped with
        shadow := .preds p.e.side (BitVec.allOnes 128) p.own.regs.preds :: .ctl p.e.side p.own.regs.x p.own.regs.lc p.own.regs.fmw :: p.own.shadow,
        regs := { p.own.regs with
          lc := modifyAt (fun _ => L) p.own.regs.lc n.toNat,
          preds := if 0 < total then pushPreds p.e.mask (iterBits 0 trip) (List.replicate 8 0) else List.replicate 8 0 } }
      (0 < total → NGives (.sloop n e r l) s p N) ∧
      (total = 0 → NGives (.sloop n e r l) s p { N with slots := at_ (p.e.pc + 1 + l.toNat) })) ∧
    (let rj := nearestJoin (codeOf (p.pop s) p.grp p.nat) p.nat.nbnd (p.e.pc + 1)
     ∃ t, Issued p { p.popped with slots := modifyAt (Option.map (fun P =>
        { P with rejoin := rj, parked := some (p.e.pc, p.nat.bundles) })) p.own.slots p.e.side } s t ∧
      exec .sjoin s = .next (settleNative p.g t)) ∧
    (∀ u : BitVec 9,
      (p.site.side.pend = .none → yieldedTo (p.pop s) p.grp.core p.g p.e.side = [] → NGives (.ssys u 0) s p p.popped) ∧
      (p.site.side.pend = .none → (p.s_ u.toNat).toNat = 0 → NGives (.ssys u 1) s p p.popped) ∧
      (p.site.side.pend = .none → (p.s_ u.toNat).toNat ≠ 0 →
        let t := s.time + (p.s_ u.toNat).toNat
        exec (.ssys u 1) s = .next (p.wait (.sleep t) (p.keepPend (.deadline t) (p.pop s)))))) ∧
  (∀ (s : State) (p : NSite) (G : Group) (N : Native), nsite? s = some p →
    let c := nCommit p.g p.e.side ((p.pop s).updNative p.g (fun N => N.settleSide p.e.side ((p.pop s).fresh + 1))).tick
    c.groups[p.g]? = some G → G.st = .ready → G.native = some N →
    let last := N.slots.all Option.isNone = true ∨ ((N.slots.filter Option.isSome).length ≤ 1 ∧ N.stack = [])
    let ended := settleNative p.g ((endThreads p.g p.e.mask c).updNative p.g (fun N =>
      { N with slots := modifyAt (fun _ => none) N.slots p.e.side, markSlots := modifyAt (fun _ => none) N.markSlots p.e.side,
               gone := N.gone ++ (match nth none N.slots p.e.side with
                 | some P => if P.path = [] then [] else [(P.path, P.view)]
                 | none => []) }))
    let waits := p.wait (.tokens G.pendingToks) c
    ((last → G.pendingToks = []) → exec .sexit s = .next ended ∧ (p.calls = [] → exec .sret s = .next ended)) ∧
    (last → G.pendingToks ≠ [] → exec .sexit s = .next waits ∧ (p.calls = [] → exec .sret s = .next waits)))

/-- R171, R172, R178, R179, R195 to R199, R257 to R259: the accesses of the L slot. Where the lanes that act pass their checks through the
operation's window (translated first when its pair was written, its page standing before the TLB), a load writes what its lanes read, their own
group's stores among it and after the stores of others that they wait for, into DR and the registers after it, late; a store gates the stores
of its lanes, in lane order, as one entry of the store buffer, `strl` as a release; an atomic
performs the region's gated operations, acts on the lanes' words in lane order, writes the old values, and commits. R151, R155, R172,
R236, R239, R386: a spill gates the stores of its lanes into the slots of the group's spill area, with the tag beside a reference's pair;
a reload reads the slots as the region sees them, a word without its tag giving the null reference; through a window (WIN not 0) a
reference is loaded and stored with the checks of `ldref` and `stref`, each lane seeing those before it.
The model's own readings and choices in it: log entries 3, 14, 29, 46. -/
def Obligations.NativeMemoryResults : Prop :=
  (∀ (s : State) (p : NSite), nsite? s = some p → ∀ (o : LOp) (W : Win) (w : State), p.window o.win.toNat (p.pop s) = (W, w) →
    ∀ accs : List (Nat × Acc),
    let q := p.acting o.grd
    let as := p.addrs W o.a
    let n := lBytes o
    let seen := match W.entry p.ctx with | none => w | some e => { w with cores := modifyAt (Core.before e) w.cores p.grp.core }
    let out := fun (k : State → State) => Host.Outcome.next (p.through W (fun t => k (accessed q n as accs t)) w)
    let load := fun (sg : Bool) (u : State) =>
      let t := reachLanes q false n accs u
      p.putWords o (p.loadLat accs)
        (fun i k => match accAt accs i with
          | none => (0 : DWord)
          | some a =>
            let x := laneWord t p.ctx (ownOps t p.g q.side.gated) i (a.key + 4 * k) (min 4 n)
            if sg then iExt true (8 * min 4 n) 32 x else x)
        t
    (Passes seen q n plainSpaces true false as accs → exec (.ldn o) s = out (load false) ∧ exec (.lds o) s = out (load true)) ∧
    (Passes seen q n 7 true false as accs → exec (.ldq o) s = out (load false)) ∧
    (Passes seen q n plainSpaces false true as accs →
      exec (.lSt o) s = out (p.gate (accs.map (fun e => GOp.store e.1 e.2.key (p.data o e.1)))) ∧
      exec (.strl o) s = out (p.gate (accs.map (fun e => GOp.relStore e.1 e.2.key (p.data o e.1) 7 5)))) ∧
    (Passes seen q n plainSpaces true true as accs →
      let done := fun (f : Nat → DWord → DWord) => out (fun t =>
        let r := accs.foldl (atomAt p.g p.ctx n f) ([], p.flush t)
        p.committed (p.putWords o (p.loadLat accs) (fun i k => BitVec.ofNat 64 ((NMap.get 0 r.1 i).toNat / 2 ^ (32 * k) % 2 ^ 32)) r.2))
      let op := fun (i : Instr) (k : AtomOp) => exec i s = done (fun i old => atomNew k (8 * n) old (p.operand o o.dr.toNat i))
      op (.aadd o) .add ∧ op (.amins o) .mins ∧ op (.aminn o) .minn ∧ op (.amaxs o) .maxs ∧ op (.amaxn o) .maxn ∧
      op (.aand o) .and ∧ op (.aor o) .or ∧ op (.axor o) .xor ∧ op (.axchg o) .xchg ∧
      exec (.acas o) s = done (fun i old =>
        if old = p.operand o o.dr.toNat i then p.operand o (o.dr.toNat + o.sz.toNat - 1) i else old)) ∧
    (∀ i c, checkLanes seen q n n plainSpaces true false as = .error (i, c) →
      exec (.ldn o) s = .next (p.through W (fun t => faultAt p.g p.e.side c (p.nat.port p.e.pc) (some i) (nth 0 as i) (q.touch n as t)) w))) ∧
  (∀ (s : State) (p : NSite), nsite? s = some p → ∀ o : LOp,
    let m := p.act o.grd
    let n := o.a.toNat
    let word := fun (i k : Nat) => laneWord (p.pop s) p.ctx (p.nat.gatedOf p.e.side) i (p.slotKey (n + k) i) 4
    let ref := fun (i : Nat) => p.operand o o.dr.toNat i
    exec (.spst o) s = .next (p.gate ((lanesOf m).map (fun i => .store i (p.slotKey n i) (leBytes 4 (nth 0 (p.g_ o.dr.toNat) i).toNat)))
      (countEv p.ctx 0x46 1 (p.pop s))) ∧
    exec (.spld o) s = .next (p.putL o.dr.toNat 10 m ((List.range 128).map (fun i => word i 0)) (countEv p.ctx 0x47 1 (p.pop s))) ∧
    (o.win = 0 →
      exec (.stt o) s = .next (p.gate ((lanesOf m).flatMap (fun i =>
        [.store i (p.slotKey n i) (leBytes 4 (ref i).toNat), .store i (p.slotKey (n + 1) i) (leBytes 4 ((ref i).toNat / 2 ^ 32)),
         .spillTag i (p.slotTag n i) (ref i != 0)])) (countEv p.ctx 0x46 1 (p.pop s))) ∧
      exec (.ldt o) s = .next (p.putWords o 10 (fun i k => if p.slotTagAt (p.pop s) n i = true then word i k else 0)
        (countEv p.ctx 0x47 1 (p.pop s)))) ∧
    (∀ (W : Win) (w : State) (accs : List (Nat × Acc)) (ops : List GOp), o.win ≠ 0 → p.window o.win.toNat (p.pop s) = (W, w) →
      let q := p.acting o.grd
      let as := p.addrs W o.a
      let seen := match W.entry p.ctx with | none => w | some e => { w with cores := modifyAt (Core.before e) w.cores p.grp.core }
      let near := fun (a : List (Nat × Acc)) (t : State) => dropLanes q 8 a (reachLanes q false 8 a t)
      let passed := fun (t : State) =>
        q.requests t 8 as accs (q.rearm (touchWith q.who 8 (q.addrs as) (accs.filterMap (fun e => e.2.page)) t))
      let lanes := fun (t : State) => objLanes q ((0 : DWord), ([] : List (Nat × Acc))) (fun _ i => ldtLane q as (q.laneView t i) i)
        (lanesOf m) (sideView t p.ctx p.g p.e.side q.side.gated)
      (∀ accs0 ops0 rs0 rs, lanes seen = .ok (accs0, ops0, rs0) → lanes (near accs0 seen) = .ok (accs, ops, rs) →
        watchLane (near accs0 seen) q 8 true false as accs = none →
        exec (.ldt o) s = .next (p.through W (fun t =>
          p.putWords o (p.loadLat ((lanesOf m).flatMap (fun i => (NMap.get (0, []) rs i).2)))
            (fun i k => BitVec.ofNat 64 ((NMap.get (0, []) rs i).1.toNat / 2 ^ (32 * k) % 2 ^ 32)) (passed (near accs0 t))) w)) ∧
      (∀ us, objLanes q () (strefLane q as ((List.range 128).map (fun i => (ref i, ref i != 0)))) (lanesOf m)
          (sideView seen p.ctx p.g p.e.side q.side.gated) = .ok (accs, ops, us) →
        watchLane seen q 8 false true as accs = none →
        exec (.stt o) s = .next (p.through W (fun t => p.gate ops (passed t)) w))))

/-- R115 to R119, R124 to R132, R173: the tile operations. `sacq` is granted a fresh set at once where the core's queue is empty and enough
tiles are free; `srel` of idle tiles is gated; a write takes its token and gives its tiles their new contents; a read by the tile's
latest token, or with the wait bit of a tile at rest, gives a slice.
The model's own readings and choices in it: log entry 59. -/
def Obligations.NativeTileResults : Prop :=
  ∀ (s : State) (p : NSite), nsite? s = some p →
    let t := p.pop s
    (∀ n : BitVec 2,
      let need := tilesOf p.lau (2 ^ n.toNat)
      let C := nth Core.reset s.cores p.grp.core
      (p.converged = true → p.grp.acc = none → need ≤ coreTiles → C.accQueue = [] → usedTiles t p.grp.core + need ≤ coreTiles →
        C.matrixReset = false → exec (.sacq n) s = .next (t.updGroup p.g (fun G => { G with acc := some (freshSet p.ctx need) }))) ∧
      (p.converged = false → exec (.sacq n) s = .next (faultAt p.g p.e.side .divergentMatrix (p.nat.port p.e.pc) none 0 t))) ∧
    (∀ A, p.grp.acc = some A →
      (p.converged = true → A.busy = false → exec .srel s = .next (p.gate [.accrel] t)) ∧
      (p.converged = true → A.busy = true → exec .srel s = .next (p.wait (.tile none) t)) ∧
      (∀ (i : BitVec 3) (T : Tile), (A.seenBy p.ctx).tiles[i.toNat]? = some T → T.st ≠ .lost → T.st ≠ .saved →
        (∀ (k : BitVec 4) (f : BitVec 3), ¬(f.toNat = (MmaForm.code .mo).toNat ∧ i.toNat % 2 = 1) →
          exec (.tlatch i k f) s = .next (t.updNative p.g (fun N => { N with
            latch := (i.toNat, f.toNat, (p.word 0).map (fun x => x.truncate 32), (p.word 1).map (fun x => x.truncate 32))
              :: N.latch.filter (fun l => l.1 != i.toNat),
            k := modifyAt (fun _ => none) N.k k.toNat }))) ∧
        (∀ (k : BitVec 4) (f : BitVec 3), f.toNat = (MmaForm.code .mo).toNat → i.toNat % 2 = 1 →
          exec (.tlatch i k f) s =
            .next (faultAt p.g p.e.side .illegalBundle (p.nat.port p.e.pc) none (BitVec.ofNat 64 p.e.pc) t)) ∧
        (p.converged = true →
          (∀ k f j, exec (.twr i k f j) s = .next (p.putTiles i.toNat k.toNat
            [Tile.written p.e.mask j.toNat { (foldTile T).1 with el := setSlice p.e.mask (foldTile T).1.el j.toNat (p.buf 0) }]
            (p.raise [(0xFF, (foldTile T).2)] t))) ∧
          (∀ k, p.lau.amode ≠ 1 → exec (.tzero i k) s = .next (p.putTiles i.toNat k.toNat
            [{ T with el := [], res := [], ctr := 0, bad := [] }] (p.raise [(0xFF, (foldTile T).2)] t))) ∧
          (∀ k U, p.lau.amode = 1 → (A.seenBy p.ctx).tiles[i.toNat + 1]? = some U → exec (.tzero i k) s = .next (p.putTiles i.toNat k.toNat
            [{ T with el := [], res := [], ctr := 0, bad := [] }, { U with el := [], res := [], ctr := 0, bad := [] }]
            (p.raise [(0xFF, (foldTile T).2)] t))) ∧
          (∀ g k pa a, exec (.sscl g k i pa a) s = .next (p.putTiles i.toNat k.toNat
            [T.scaled (p.act g) (p.g_ a.toNat)] (p.raise (scaleEvents (p.act g) (p.g_ a.toNat)) t))) ∧
          (∀ k f fm ws, MmaForm.ofCode f.toNat = some fm → p.frags i.toNat fm = some ws →
            (fm = .mo → i.toNat % 2 = 0 ∧ p.lau.amode = 1 ∧ badVarLane (nth [] ws 1) = none) →
            let r := mmaTiles fm T (((A.seenBy p.ctx).tiles[i.toNat + 1]?).getD T) ws
            exec (.tstep i k f) s = .next ((p.putTiles i.toNat k.toNat r.1 (p.raise [(0xFF, r.2)] t)).updNative p.g (fun N =>
              { N with latch := N.latch.filter (fun l => l.1 != i.toNat) })))) ∧
        (∀ v : VOp, v.a.toNat % 8 = i.toNat →
          let j := v.a.toNat / 8 % 32
          (T.flight = [] ∧ (v.b.getLsbD 4 = true ∨ p.lau.amode = 2) ∨
            v.b.getLsbD 4 = false ∧ p.lau.amode ≠ 2 ∧ T.lastTok = p.tok (v.b.toNat % 16)) →
          T.badLane (p.act v.grd) j = none →
          (v.a.getLsbD 8 = true →
            let rs := readRsd (sliceWords T.res j)
            NRaises (.tread v) s p (laneEvents (p.act v.grd) (rs.map (·.2)))
              (p.wrG v.d.toNat (p.lat 6 8) (p.act v.grd) (rs.map (·.1)))) ∧
          (v.a.getLsbD 8 = false → exec (.tread v) s = .next (p.putG v.d.toNat (p.lat 6 8) (p.act v.grd) (sliceWords (foldTile T).1.el j)
            (p.raise [(0xFF, (foldTile T).2)] (t.updGroup p.g (fun G => { G with acc := G.acc.map (fun A =>
              { A with tiles := modifyAt (fun _ => (foldTile T).1) A.tiles i.toNat }) })))))))) ∧
    (∀ k : BitVec 4, ∀ e, p.tok k.toNat = some e →
      (tokState p.grp e = none ∨ tokState p.grp e = some .complete → exec (.skwait k) s = .next t) ∧
      (tokState p.grp e = some .pending → exec (.skwait k) s = .next (p.wait (.tokens [e]) t)) ∧
      (∀ c o, tokState p.grp e = some (.failed c o) →
        exec (.skwait k) s = .next (faultAt p.g p.e.side .engineFailure (p.nat.port p.e.pc) none (failAux c o) t)))

/-- R262 to R264, R311 to R313, R318, R320: the barrier operations and the waits of `ssys`.
The model's own readings and choices in it: log entry 45. -/
def Obligations.NativeBarrierAndWaitResults : Prop :=
  ∀ (s : State) (p : NSite), nsite? s = some p → ∀ u : BitVec 9,
    let t := p.pop s
    let b := (p.s_ u.toNat).toNat % 16
    let arrived := arriveAll p.site b (p.flush t)
    let n := u.toNat
    (arriveMisuse p.site (p.site.block t) b = none →
      exec (.sbar u 1) s = .next (p.committed (p.putS (n + 1) 2 (nth 0 (lanePhases p.site (p.site.block arrived) b) p.low) arrived)) ∧
      exec (.sbar u 0) s = .next (p.committed (p.keepPend (.phase (BitVec.ofNat 32 b)) arrived))) ∧
    (∀ i, arriveMisuse p.site (p.site.block t) b = some i →
      exec (.sbar u 1) s = .next (faultAt p.g p.e.side .barrierMisuse (p.nat.port p.e.pc) (some i) (BitVec.ofNat 64 b) t)) ∧
    (let ph := p.s_ (n + 1)
     (∀ i, i < 128 → p.e.mask.getLsbD i = true →
        (ph - lastPhase (p.site.block t) b (p.site.thread i) : Word).toNat = 0 ∨
        2 ^ 31 ≤ (ph - lastPhase (p.site.block t) b (p.site.thread i) : Word).toNat) →
      exec (.sbar u 2) s = .next (p.barWait b (List.replicate 128 ph) t)) ∧
    (∀ k : BitVec 4, k = 9 → exec (.ssys u k) s = .next (p.gate [.ctrctl ((p.s_ n).toNat % 16) (p.s_ (n + 1)) ((p.s_ n).getLsbD 4)] t)) ∧
    (let c := (p.s_ (n + 4)).toNat
     let x := p.s2 (n + 2)
     let T := s.time + (p.s_ (n + 5)).toNat
     let nodl := decide (c / 2 ^ 9 % 2 = 1)
     ∀ cc acc, Cond.ofCode (c % 8) = some cc → c / 2 ^ 10 = 0 → c / 8 % 8 < 6 → p.site.side.pend = .none →
       let w := touchAddrs p.site.who 8 [(p.s2 n).toNat] t
       resolve w p.site.who (p.s2 n).toNat 8 8 (BitVec.ofNat 3 (c / 2 ^ 6)) false = .ok acc →
       let t' := reach (.thread p.g p.site.low) false acc.key 8 (landOver acc.key 8 p.g w)
       let v := laneWord t' p.ctx (p.nat.gatedOf p.e.side) p.site.low acc.key 8
       (condMet cc v x = true → exec (.ssys u 2) s = .next (p.keepPend .none (p.putS (n + 6) 2 1 (p.putS2 (n + 2) 2 v t')))) ∧
       (condMet cc v x = false → nodl = false → T ≤ s.time → exec (.ssys u 2) s = .next (p.keepPend .none (p.putS (n + 6) 2 0 t'))) ∧
       (condMet cc v x = false → (nodl = true ∨ s.time < T) → exec (.ssys u 2) s = .next
         (p.wait (.signal { a := acc.key, cond := cc, x := x, deadline := if nodl then none else some T, hit := none })
           (if nodl then t' else p.keepPend (.deadline T) t'))))

/-- R174, R243, R265 to R277, R309, R315, R326: each operation of the A slot whose descriptor is well formed and whose operands pass their
checks takes its token for the engine instruction that its registers describe: gated, or as its region's committing operation; `hop`
leaves its lanes parked at the segment exit. What the descriptor does not carry is free (log entry 47). -/
def Obligations.NativeEngineInstructionsIssue : Prop :=
  ∀ (s : State) (p : NSite), nsite? s = some p → ∀ (k : BitVec 4) (d : BitVec 9) (D : Desc), p.desc d.toNat = some D →
    let t := p.pop s
    let b := D.base
    let n := fun (i : Nat) => (p.s_ (b + i)).toNat
    let f := s.fresh + 1
    let gated := fun (kind : EngKind) (t : State) => Host.Outcome.next (p.issueEng k.toNat kind D.scope D.mask D.toks t)
    let closes := fun (kind : EngKind) (mask : BitVec 3) (t : State) =>
      Host.Outcome.next (p.committed (p.flush (p.issueEng k.toNat kind D.scope mask D.toks t)))
    (exec (.aTjoin k d) s = .next (p.issueEng k.toNat .tjoin 0 0 D.toks t)) ∧
    (let two := Config.freeBool f 2
     let kind := EngKind.copy (Config.freeBool f 0) (Config.freeBool f 1) (p.mem3 b).toNat (p.mem3 (b + 3)).toNat (n 6)
       (if two then n 7 else 1) (if two then n 8 else 0) (if two then n 9 else 0)
     n 6 % 4 = 0 → 4 ≤ n 6 → n 6 ≤ 2 ^ 30 → (p.mem3 b).toNat % 4 = 0 → (p.mem3 (b + 3)).toNat % 4 = 0 →
     (two = true → 1 ≤ n 7 ∧ n 7 ≤ 65535 ∧ n 8 % 4 = 0 ∧ n 9 % 4 = 0 ∧ n 6 ≤ n 8 ∧ n 6 ≤ n 9) →
     ∀ sps, checkMoves (p.site.view t.tick) p.site.who D.mask 4 (engMoves kind) = .ok sps →
       (Config.freeBool f 0 = true → sps.all (fun e => e == (.sp, .ds)) = true) →
       (Config.freeBool f 1 = true → sps.all (fun e => e.1 != .sp && e.2 != .sp) = true) →
       exec (.aCopy k d) s = gated kind (touchMoves p.site.who (engMoves kind) t.tick)) ∧
    (let xs := p.scattered (b + 3)
     let kind := EngKind.gather (p.mem3 b).toNat xs (n 6)
     [4, 8, 16, 32, 64, 128, 256].contains (n 6) = true → ∀ sps,
       checkMoves (p.site.view t) p.site.who D.mask (min (n 6) 16) (engMoves kind) = .ok sps →
       exec (.aGather k d) s = gated kind (touchMoves p.site.who (engMoves kind) t)) ∧
    (let xs := p.scattered (b + 3)
     let kind := EngKind.scatter (p.mem3 b).toNat xs (n 6)
     [4, 8, 16, 32, 64, 128, 256].contains (n 6) = true → ∀ sps,
       checkMoves (p.site.view t) p.site.who D.mask (min (n 6) 16) (engMoves kind) = .ok sps →
       exec (.aScatter k d) s = gated kind (touchMoves p.site.who (engMoves kind) t)) ∧
    (let kind := (CollKind.ofCode (Config.freeNat f 0 % 4)).getD .bcast
     let op := (CollOp.ofCode (Config.freeNat f 1 % 3)).getD .add
     let ty := nth Ty.i32 [Ty.i32, Ty.i64, Ty.bf16, Ty.f32] (Config.freeNat f 2 % 4)
     ∀ m r tmo, n 7 < 256 → collGroup t.tick p.ctx (n 7) = some (m, r, tmo) → 1 ≤ n 6 → n 6 ≤ 2 ^ 28 → 2 ≤ m →
      (kind = .redsc ∨ kind = .allgat → n 6 % m = 0) →
      let z := collSizes kind (n 6) m r
      let e := Ty.bytes ty
      let d0 := (p.mem3 b).toNat
      let a0 := (p.mem3 (b + 3)).toNat
      (∃ l, checkWords (p.site.view t.tick) p.site.who D.mask false a0 ((z.1 * e + 3) / 4) 0 = .ok l) →
      (∃ l, checkWords (p.site.view t.tick) p.site.who D.mask true d0 ((z.2 * e + 3) / 4) 0 = .ok l) →
      exec (.aColl k d) s = .next (p.issueEng k.toNat (.coll kind op ty d0 a0 (n 6) (n 7) 0) 5 D.mask D.toks
        (touchAddrs p.site.who 1 (pageSpots a0 (z.1 * e) ++ pageSpots d0 (z.2 * e)) t.tick))) ∧
    (∀ a, resolve (p.site.view t) p.site.who (p.mem3 b).toNat 8 8 D.mask true = .ok a →
      let t := touchAddrs p.site.who 8 [(p.mem3 b).toNat] t
      exec (.aSigset k d) s = closes (.sigset (p.mem3 b).toNat (p.s2 (b + 3))) D.mask t ∧
      (∀ a', resolve (p.site.view (p.pop s)) p.site.who (p.mem3 b).toNat 8 8 D.mask false = .ok a' →
        exec (.aSigdec k d) s = closes (.sigdec (p.mem3 b).toNat (p.s2 (b + 3))) D.mask t)) ∧
    (enqBad t.tick p.ctx ((p.s_ b).zeroExtend 64 : DWord).toNat (p.s2 (b + 1)) = false →
      exec (.aEnq k d) s = closes (.enq ((p.s_ b).zeroExtend 64 : DWord).toNat (p.s2 (b + 1)).toNat (Config.freeBool f 0)) D.mask t.tick) ∧
    (∀ i o fn B bs, p.lau.travel.isSome = true → objectAt t p.ctx p.nat.fn = some (i, o) → tableFn o (n 1) = some fn → blocksOf t fn = B :: bs →
      exec (.aPost k d) s = closes (.post t.groups.length) 2 { t with groups := t.groups ++
        [{ newGroup p.grp.block p.grp.gid (entrySide t fn p.e.mask (p.params B.args (b + 2))) with seg := n 0, handler := true }] }) ∧
    (D.toks = [] → p.s2 (b + 3) = 0 →
      openWalk t p.g p.site.low = none →
      ∀ a, resolve (sideView t p.ctx p.g p.e.side p.site.side.gated) p.site.who (p.mem3 b).toNat 8 8 2 true = .ok a →
      let u := landAll p.g (touchAddrs p.site.who 8 [(p.mem3 b).toNat] t)
      exec (.aPubl k d) s = .next (succeedWalk (p.port k.toNat)
        { id := u.ids, group := p.g, side := p.site.low, ctx := p.ctx, stamp := p.grp.stamp, scope := D.scope, root := 0,
          slot := (p.mem3 b).toNat, eng := u.ids + 1, claimed := [], widened := [], waits := [], queue := [], scan := none, visits := [],
          released := false, fault := none, st := .claiming } D.mask []
        (countEv p.ctx 0x70 1 { u with ids := u.ids + 2 }))) ∧
    (∀ (a : BitVec 13) (M : LiveMap) (G : Group) (N : Native), p.nat.lmap[a.toNat]? = some M → M.exit = true →
      D.toks.all (fun e => tokState p.grp e != some .pending) = true →
      (p.committed t).groups[p.g]? = some G → G.native = some N →
      ∃ (u : State) (S : Side) (sg : Nat) (mode : HopMode), exec (.aHop k d a) s = .next (settleNative p.g u) ∧
        u.groups[p.g]? = some { G with
          sides := G.twoSides ++ [S],
          native := some { N with slots := modifyAt (fun _ => none) N.slots p.e.side, markSlots := modifyAt (fun _ => none) N.markSlots p.e.side } } ∧
        S.status = .atExit (p.nat.fn + 0x20 + 4 * M.port) sg mode (p.s_ b) ∧ S.core.mask = p.e.mask ∧
        (∀ P, nth none N.slots p.e.side = some P → S.core.view = P.view ∧ S.core.joins = N.joins P.path) ∧ S.mark = S.core ∧ S.gated = [])


/-! ### Events of the machine -/

/-- R284 to R289, R310: the events of a command queue. A free queue with a well-formed descriptor is enabled with its counts at 0; a ready
queue serves the entry at its head, when the entry is of the kind asked for and no earlier entry holds it back: it starts the entry,
and does what the entry's kind says, or refuses it. What the queue reads has been performed by then (R219). A signal on a private or
pending line, and a header word, is not written, and event 0x0074 counts (R234, R235; the model's choice).
The model's own readings and choices in it: log entries 37, 50, 91. -/
def Obligations.QueueEvents : Prop :=
  ∀ (s : State) (q : Nat),
    let Q := queueAt s q
    (q < 1024 →
      (∀ d : BitVec 128, Q.en = false → (Q.fields d).mayEnable s = true →
        exec (.queueEnable q d) s = .next (updQueue q (fun _ => { Q.fields d with
          en := true, st := .empty, before := .empty, err := 0, head := 0, tail := 0, open_ := [], waits := [] }) s)) ∧
      exec (.queueDisable q) s = .next (updQueue q (fun _ => { Q with en := false, st := .disabled, waits := [] }) s)) ∧
    (∀ t, let s' := reachVa Q.ctx Q.rbase 8 s
      ringTail s' q = some t → Q.st = .empty → (queueAt s' q).st = .empty → (queueAt s' q).head < t →
      (ctxAt s (queueAt s' q).ctx).st ≠ .halted →
      exec (.tailPoll q) s = .next (updQueue q (fun Q => { Q with tail := t, st := .ready }) s')) ∧
    (∀ kind e t, Serving s q kind e t →
      let seen := queueSeen s q
      let x := (queueAt seen q).ctx
      let started := startEntry q t seen
      (kind = 5 → exec (.queueNoOperation q) s = .next started) ∧
      (kind = 1 →
        let u := reachLaunch x e.arg0 seen
        (∀ L, acceptLaunch u q e.arg0 = .ok L → exec (.queueLaunch q) s =
          .next (updQueue q (fun Q => { Q with open_ := Q.open_ ++ [u.launches.length] })
            (startEntry q t { u with launches := u.launches ++ [L] }))) ∧
        (∀ c, acceptLaunch u q e.arg0 = .error c → exec (.queueLaunch q) s = .next (queueFail q c seen))) ∧
      (∀ k, signalKey seen x e.arg0 = some k →
        let at_ := fun (wr : Bool) => reach .outside wr k 8 seen
        let low := if hiddenLine (at_ false) x k = true then 0 else loadWord (at_ false) x k
        let u := reach .outside true k 8 started
        (hiddenLine u x k = false → noHeader u x k 8 = true →
          (kind = 3 → exec (.queueDecrement q) s = .next (storeWord x k (loadWord u x k - BitVec.ofNat 64 e.arg1) u)) ∧
          (kind = 4 → exec (.queueSet q) s = .next (storeWord x k (BitVec.ofNat 64 e.arg1) u))) ∧
        (hiddenLine u x k = true ∨ noHeader u x k 8 = false →
          (kind = 3 → exec (.queueDecrement q) s = .next (chargeEv x 0x74 1 u)) ∧
          (kind = 4 → exec (.queueSet q) s = .next (chargeEv x 0x74 1 u))) ∧
        (kind = 2 →
          (condMet .le low (BitVec.ofNat 64 e.arg1) = true →
            exec (.queueWait q) s = .next (endQueueWait q (startEntry q t (at_ false)))) ∧
          (condMet .le low (BitVec.ofNat 64 e.arg1) = false → exec (.queueWait q) s =
            .next (endQueueWait q (updQueue q (fun R => { R with st := .waiting, waits := [((queueAt seen q).head,
              { a := k, cond := .le, x := BitVec.ofNat 64 e.arg1, deadline := none, hit := none })] })
              (startEntry q t (at_ false))))))))

/-- R291 to R294, R296, R298 to R303, R342, R343, R387: the events of placement, issue and suspension. A bundle dispatch lets a clock pass
and dispatches the candidate that the ages and the pointer choose: the bundle of a native side, or the next instruction of a portable one.
The model's own readings and choices in it: log entries 39, 49, 52, 58, 84. -/
def Obligations.SchedulingEvents : Prop :=
  ∀ s : State,
    (∀ cl l r t, placeOrder s cl = l :: r → placeNext l cl s = some t → exec (.blockPlace cl) s = .next t) ∧
    (∀ cl l r L w, placeOrder s cl = l :: r → s.launches[l]? = some L → (cl, w) ∈ L.waiting → w + 1000000 ≤ s.time →
      exec (.blockWaitLimit cl) s = .next { s with clusters := modifyAt (fun C => { C with hold := some l }) s.clusters cl }) ∧
    (∀ l cl L c lo hi,
      let d := dieOf (8 * cl)
      let sib := fun (c : Nat) => decide (dieOf (8 * c) = d)
      s.launches[l]? = some L → L.travel = none → L.complete = false → nextBlock L cl = none → L.dies.getLsbD d = true →
      (bestCrew s (2 ^ L.crewLog) (fun c => crewRoom s L.ctx none c (2 ^ L.crewLog) (L.ntid / 128) (partSize (imgShared s L.kaddr) L.crewLog)
        (if overLimit s L d 0 = true then 0 else spillArea s L d 0)) (clusterCrews s l cl (2 ^ L.crewLog))).isSome = true →
      (if L.ranges.any (fun r => sib r.1) = true then stealFrom L.ranges sib else stealFrom L.ranges (fun c => !sib c)) = some (c, lo, hi) →
      exec (.workSteal l cl) s = .next { s with
        launches := modifyAt (fun L => { L with
          ranges := L.ranges.map (fun r => if r = (c, lo, hi) then (c, lo, hi - (hi - lo) / 2) else r) ++ [(cl, hi - (hi - lo) / 2, hi)] })
          s.launches l }) ∧
    (∀ c i g sd,
      let t := tickCore c s
      let C := nth Core.reset t.cores c
      let cs := readyCands t c
      let u := noteDispatch c i { t with cores := modifyAt (fun C => { C with ptr := i, ages := aged C.ages (cs.map (·.1)) i }) t.cores c }
      pickCand C.ptr C.ages (cs.map (·.1)) = some i → cs.find? (fun e => e.1 = i) = some (i, g, sd) →
      ((u.groups[g]?).bind Group.native = none → exec (.bundleDispatch c) s =
        .next { u.updGroup g (fun G => { G with sides := modifyAt (fun S =>
          { S with turns := S.turns + (if G.stacked = true then 1 else 0), unchecked := S.unchecked + 1 }) G.sides sd }) with
            issue := .portable g sd 0 }) ∧
      (∀ N, (u.groups[g]?).bind Group.native = some N → exec (.bundleDispatch c) s = .next (dispatchNative g sd u))) ∧
    (∀ d x, exec (.preemptRequest d x) s = .next (preempt d x s) ∧
      (nth 0 (ctxAt s x).resumed d + 1000 * (ctxAt s x).quant ≤ s.time → blockStuck s d x = true →
        exec (.quantumExpiry d x) s = .next (preempt d x s))) ∧
    (∀ b B L, s.blocks[b]? = some B → s.launches[B.launch]? = some L →
      (crewStopped s b = true → exec (.crewSuspend b) s = .next (suspendCrew b L.ctx s)) ∧
      (∀ core t, B.st = .suspended → crewCalled s b L.ctx = true → (ctxAt s L.ctx).newSeed = none → turnBefore s (dieOf core) L.ctx = false →
        let done := Host.Outcome.next { t with ctxs := modifyAt (fun C => { C with resumed := modifyAt (fun _ => t.time) C.resumed (dieOf core) }) t.ctxs L.ctx }
        (∀ T, L.travel = some T → seatTravel b core L B.launch s = some t → exec (.crewResume b core) s = done) ∧
        (∀ G g gs, L.travel = none → core % 2 ^ L.crewLog = 0 → core < 208 → dieIsN (dieOf core) = dieIsN B.die →
          (resumeCrews s b B.launch (core / 8) (2 ^ L.crewLog)).contains core = true → crewGroups s [b] = g :: gs → s.groups[g]? = some G →
          seatBlock b core G.spillLen s = some t → exec (.crewResume b core) s = done)) ∧
      (B.st = .draining → (∀ g G, s.groups[g]? = some G → G.block = b →
          G.st = .ended ∧ G.acc = none ∧ G.toks.all (fun t => t.st != .pending) = true ∧
          s.engs.any (fun E => E.group == g && E.st != .gated && E.st != .finished) = false) →
        exec (.blockDone b) s = .next (endBlock b .done s))) ∧
    (∀ g sd G, s.groups[g]? = some G → groupStale s g = true → exec (.regionCommit g sd) s = .next (rollback g s)) ∧
    (∀ g sd G, s.groups[g]? = some G → groupStale s g = false → G.st = .ready →
      (G.native = none → exec (.regionCommit g sd) s = .next (commit g sd s)) ∧
      (∀ N, G.native = some N → exec (.regionCommit g sd) s = .next (nCommit g sd s)) ∧
      (∀ i, G.native = none → dueSide G = some (i, sd) → G.stacked = true →
        exec (.sideRotation g) s = .next (s.updGroup g (fun G => { G with
          sides := (G.sides.take sd ++ G.sides.drop (sd + 1)) ++ ((G.sides[sd]?).map (fun S => { S with turns := 0 })).toList }))) ∧
      (∀ N P, G.native = some N → N.stack ≠ [] → N.latch = [] → nth none N.slots 0 = some P → 4096 ≤ P.turns →
        (∀ S, G.sides[0]? = some S → S.pend = .none) →
        isMark (codeOf s G N P.pc) = true → nativeReady s G N 0 = true → exec (.sideRotation g) s = .next (rotateNative g 0 s)))

/-- R43, R153, R155 to R157, R248, R349, R369 to R371, R379, R381, R404 to R409, R416: the events of translation, of code objects, and of
the migration of a context.
The model's own readings and choices in it: log entries 21, 35, 55, 57, 60, 61. -/
def Obligations.TranslationAndCodeEvents : Prop :=
  ∀ s : State,
    (∀ g G, s.groups[g]? = some G → G.resident = true → G.native = none → G.translation = none → G.st = .ready →
      exec (.translationMiss g) s = .next (enterTranslation g s)) ∧
    (∀ x t, s.xlats[x]? = some t → t.live = true → t.st = .inProgress →
      let o := outcome s t
      let room := makeRoom t.die ({ t with code := o.2 } : Xlat).size (entryWaiters s x ++ callWaiters s x) s.xlats.length s
      (∀ u, room = some u → exec (.translationComplete x) s = .next (finishTranslation x
        { u with xlats := modifyAt (fun t => { t with st := o.1, code := o.2, used := u.time }) u.xlats x })) ∧
      (room = none → exec (.translationComplete x) s = .next s)) ∧
    (∀ c x p, runningXlat s c x ≠ [] →
      let ps := (nth Core.reset s.cores c).pages
      let r := storeRoom s c ps
      let fill := fun (v : State) (p : Nat) => fillPage c x p (runningXlat s c x) v
      (∀ t, s.xlats[x]? = some t → t.seg ≠ 0 → exec (.instructionStoreFill c x p) s = .next ((List.range (xlatPages s x)).foldl fill s)) ∧
      (∀ t, s.xlats[x]? = some t → t.seg = 0 → p < xlatPages s x → ps.contains (x, p) = false → r.length < storePages →
        exec (.instructionStoreFill c x p) s = .next (countGroups ((runningXlat s c x).take 1) 0x45
          { s with cores := modifyAt (fun C => { C with pages := r ++ [(x, p)] }) s.cores c }))) ∧
    (∀ r, s.mbox.codeRun = some r →
      let x := blockNat r 2 1
      let img := blockNat r 8 8
      let len := blockNat r 0x10 8
      let sig := blockNat r 0x20 8
      let u := reclaim s
      let f := ctxBytes u x img len
      (blockNat r 0 2 = 0x0011 → (slotIs s x .live = true ∨ slotIs s x .halted = true) → img % 64 = 0 → len ≠ 0 →
        rangeMapped s x img len false = true →
        (∀ i O, u.objs.findIdx? (fun o => o.live && o.digest == digestOf f) = some i → u.objs[i]? = some O →
          exec .codeObjectLoad s = .next (answerCode x 1 0 (some O.laddr) sig (loadInto x i u))) ∧
        (u.objs.findIdx? (fun o => o.live && o.digest == digestOf f) = none →
          (∀ c, installObj f (digestOf f) u = .error c → exec .codeObjectLoad s = .next (answerCode x 3 c none sig u)) ∧
          (∀ i v O, installObj f (digestOf f) u = .ok (i, v) → v.objs[i]? = some O →
            exec .codeObjectLoad s = .next (answerCode x 1 0 (some O.laddr) sig (loadInto x i v))))) ∧
      (blockNat r 0 2 = 0x0012 → ∀ i, s.objs.findIdx? (fun o => o.live && decide (o.laddr = blockNat r 8 8) && o.ctxs.contains x) = some i →
        exec .codeObjectUnload s =
          .next (answerCode x 1 0 none sig (reclaim { s with objs := modifyAt (fun o => { o with ctxs := o.ctxs.erase x }) s.objs i })))) ∧
    (∀ r, s.mbox.migRun = some r → refusedMig r s = false →
      let x := blockNat r 2 1
      let u := { haltContext x s with ctxs := modifyAt (fun C => { C with migrating := true }) (haltContext x s).ctxs x }
      enginesBusy x u = false → ∀ v, migrateTo x (blockNat r 4 2) (BitVec.ofNat 4 (blockNat r 3 1)) u = .ok v →
      exec .migrate s = .next (releaseContext x (answerMig r 1 0 { v with ctxs := modifyAt (fun C => { C with migrating := false }) v.ctxs x })))

/-- R133, R304, R306, R385 to R392, R398 to R402, R409: the events of errors, resets of units, rollback and the host's disposition.
The model's own readings and choices in it: log entries 40, 41. -/
def Obligations.RecoveryEvents : Prop :=
  ∀ s : State,
    (∀ g sd G S, s.groups[g]? = some G → G.sides[sd]? = some S → 0 < S.unchecked → G.st = .ready → S.live = true →
      exec (.timingCheck g sd false) s = .next (s.updSide g sd (fun S => { S with unchecked := S.unchecked - 1 })) ∧
      exec (.timingCheck g sd true) s = .next (timingReplay g sd s)) ∧
    (∀ cl, exec (.clockRestore cl) s = .next { s with clusters := modifyAt (Cluster.raise s.time) s.clusters cl }) ∧
    (∀ g sd G S c lane aux, s.groups[g]? = some G → G.sides[sd]? = some S → S.live = true → G.st ≠ .ended → c ≠ .collectiveMismatch →
      c ≠ .collectiveTimeout →
      exec (.faultRollback g sd c lane aux) s =
        .next (faultAt g sd c (standsAt G sd) (if lane = 0xFF then none else some lane.toNat) aux s)) ∧
    (∀ g sd b, exec (.eccError (.register g sd b) false) s = .next (countGroups [g] 0xA0 s) ∧
      (∀ G, s.groups[g]? = some G → G.st ≠ .ended →
        exec (.eccError (.register g sd true) true) s = .next (replayGroup g s) ∧
        exec (.eccError (.register g sd false) true) s = .next (faultAt g sd .uncorrectableState (standsAt G sd) none 0 s))) ∧
    (∀ a, exec (.eccError (.word a) true) s = .next { s with poison := NMap.set false s.poison (a / 4) true } ∧
      exec (.eccError (.word a) false) s = .next (chargeEv (keyCtx s a) 0xA0 1 s)) ∧
    (∀ x, (ctxAt s x).migrating = false →
      exec (.dispPoll x) s = .next ((heldGroups s x).foldl (fun s e => applyDisp x e.1 e.2 s) s)) ∧
    (∀ c, (engsOn s c).any (Eng.hung s) = true →
      exec (.engineReset c) s = .next ((uniq ((engsOn s c).map (fun E => E.group))).foldl (fun s g => engineLost c g s)
        { s with engs := s.engs.filter (fun E => !(engsOn s c).any (fun F => F.id == E.id)) })) ∧
    (∀ c, matrixHung s c = true →
      exec (.matrixUnitReset c) s = .next ((heldOwners s c).foldl (fun s g => loseTiles c g s)
        { s with cores := modifyAt (fun C => { C with matrixReset := true }) s.cores c })) ∧
    (∀ c, exec (.matrixResetComplete c) s = .next { s with cores := modifyAt (fun C => { C with matrixReset := false }) s.cores c }) ∧
    (∀ cl, exec (.ballastStep cl) s = .next s)

/-- R117, R118, R179, R204, R221, R244, R245, R266 to R269, R275, R276: the events of tiles, engine instructions, publications, collectives
and late results. An engine instruction starts when every token that it consumes is Complete, performs its accesses and completes its
token, or fails it, where what it has performed stays; a publication claims, marks and stores its root in three phases; a set of walks
that wait on one another succeeds together.
The model's own readings and choices in it: log entries 25, 56, 90, 96. -/
def Obligations.EngineAndTileEvents : Prop :=
  ∀ s : State,
    (∀ c g r G need w, (nth Core.reset s.cores c).accQueue = g :: r → s.groups[g]? = some G → G.st = .waiting (.accAcq need) w →
      (nth Core.reset s.cores c).matrixReset = false → usedTiles s c + need ≤ coreTiles →
      exec (.accGrant c) s = .next (resumeWait g G.wside .done (({ s with
        cores := modifyAt (fun C => { C with accQueue := r }) s.cores c }).updGroup g (Group.granted (groupCtx s G) need)))) ∧
    (∀ g G A, s.groups[g]? = some G → G.acc = some A →
      (∀ (t : Nat) (T : Tile), A.tiles[t]? = some T → G.resident = true → (nth Core.reset s.cores G.core).accQueue.head?.any (wantsTiles s) = true →
        A.tiles.all (fun T => T.flight.isEmpty) = true → G.blocked = true → T.st = .heldIdle →
        exec (.tileSave g t) s = .next (saveTile g t s)) ∧
      (∀ w r, G.st = .waiting .restore w → (nth Core.reset s.cores G.core).matrixReset = false →
        (nth Core.reset s.cores G.core).accQueue = g :: r → usedTiles s G.core + (A.tiles.filter (fun T => T.st == .saved)).length ≤ coreTiles →
        exec (.tileRestore g) s = .next (afterRestore g (restoreTiles g
          { s with cores := modifyAt (fun C => { C with accQueue := C.accQueue.tail }) s.cores G.core }))) ∧
      (∀ (t : Nat) (T : Tile) (e : Nat) (r : List Nat), A.tiles[t]? = some T → T.flight = e :: r →
        exec (.tileWriteComplete g t) s = .next (completeToken e s))) ∧
    (∀ e E G, engAt s e = some E → s.groups[E.group]? = some G →
      (E.st = .issued →
        (∀ c o, failedTok G E.deps = some (c, o) → exec (.engineStart e) s = .next (failEng E c o s)) ∧
        (failedTok G E.deps = none → E.deps.any (fun d => decide (tokState G d = some .pending)) = false →
          let u := reachOwn (landBefore E.mask e E.group s) E
          (∀ fs, collFrames u E = .ok fs → exec (.engineStart e) s = .next { u with
            engs := u.engs.map (fun F => if F.id = e then { F with st := .started, since := u.time } else F),
            replies := (collSends u E fs).foldl (fun r f => f :: r) u.replies }) ∧
          (∀ c, collFrames u E = .error c → exec (.engineStart e) s = .next (failSelf E (tokenCause c) u)))) ∧
      (E.st = .started →
        (∀ h, E.kind = .post h → exec (.tokenComplete e) s = .next (postPerform E h s)) ∧
        ((∀ h, E.kind ≠ .post h) → (∀ t, E.kind ≠ .tile t) →
          (∀ r, partsStep s E = some r → exec (.tokenComplete e) s = .next (settleRun E r) ∧
            (∀ c, r.cause = some c → exec (.tokenFail e (tokenCause c)) s = .next (settleRun E r))) ∧
          (partsStep s E = none →
            (∀ u, performEng s E = some (.ok u) → exec (.tokenComplete e) s = .next (completeToken e u)) ∧
            (∀ c, performEng s E = some (.error c) → exec (.tokenComplete e) s = .next (failSelf E (tokenCause c) s) ∧
              exec (.tokenFail e (tokenCause c)) s = .next (failSelf E (tokenCause c) s)))) ∧
        (∀ r, partsStep s E = some r →
          (∀ c, r.cause = some c → settleRun E r = failSelf E (tokenCause c) r.st) ∧
          (r.cause = none → r.done.length = partCount r.st E → settleRun E r = completeToken E.id
            (dropFrames E { r.st with dirty := r.wrote.foldl (fun d k => NMap.set false d k false) r.st.dirty }))) ∧
        (∀ k o t d a c g v n r tmo, E.kind = .coll k o t d a c g v → collGroup s E.ctx g = some (n, r, tmo) →
          E.since + (if tmo = 0 then 10000000000 else 1000 * tmo) ≤ s.time → collStep s E = none →
          exec (.collectiveTimeout e) s = .next (failSelf E .collectiveTimeout s)))) ∧
    (∀ w W, s.walks.find? (fun V => decide (V.id = w) && V.st == .claiming) = some W →
      walkGone s W = false →
      let v := sideView s W.ctx W.group 0 (walkGated s W)
      (W.idle = true → W.waits.filter (failedWait s) = [] →
        (claimsEnded s W = true → exec (.claimRound w) s = .next (succeedClaims s W)) ∧
        (claimsEnded s W = false → exec (.claimRound w) s = .next s)) ∧
      (W.idle = true → W.waits.filter (failedWait s) ≠ [] → exec (.claimRound w) s = .next (putWalk { W with
        waits := W.waits.filter (fun e => !failedWait s e), visits := (W.waits.filter (failedWait s)).flatMap (·.2) } s)) ∧
      (W.idle = false →
        (∀ W' n, claimStep v W = .ok (W', n) →
          let new := W'.claimed.drop W.claimed.length
          exec (.claimRound w) s =
            .next (chargeEv W.ctx 0x71 new.length (chargeEv W.ctx 0x72 n (putWalk W' (markPending { W' with claimed := new } s))))) ∧
        (∀ c x, claimStep v W = .error (c, x) → atPubl s W = true →
          exec (.claimRound w) s = .next (failWalk W c x (chargeEv W.ctx 0x72 (follows v W) s))))) ∧
    (∀ w W, s.walks.find? (fun V => decide (V.id = w) && V.st == .claimed && (V.released || walkGone s V)) = some W →
      exec (.markPhase w) s = .next (putWalk { W with st := .marked }
        (W.widened.foldl (fun s h => putHeader W.group W.ctx h
            (fun H => reHdr H (hdrState H) (if hdrScope H < W.scope then W.scope else hdrScope H)) (fun _ => (.shared, 0)) s)
          (W.claimed.foldl (fun s h => putHeader W.group W.ctx h (fun H => reHdr H 2 W.scope) (fun _ => (.shared, 0)) s) s)))) ∧
    (∀ w W l, s.walks.find? (fun V => decide (V.id = w) && V.st == .marked) = some W → rootWaits s W = false → W.released = true →
      walk (putWalk { W with st := .stored } s) W.ctx W.slot = some l →
      let k := l.pa + (W.slot - l.va)
      exec (.rootStore w) s = .next (completeToken W.eng (storeTagged W.ctx k W.root (W.root != 0)
        (reach (.engine W.group) true k 8 (landAll W.group (putWalk { W with st := .stored } s)))))) ∧
    (∀ x fr, (readFrame fr = none → exec (.collectiveFrame x fr) s = .next (chargeEv x 0x80 1 s)) ∧
      (∀ f, readFrame fr = some f →
        let mine := s.engs.filter (fun E => E.ctx == x && E.st != .gated)
        let bad := mine.filter (fun E => collMismatch s E f)
        mine.any (fun E => collShort s E f) = false →
        (bad = [] → exec (.collectiveFrame x fr) s = .next { s with frames := s.frames ++ [(x, fr)] }) ∧
        (∀ E r, bad = E :: r → exec (.collectiveFrame x fr) s =
          .next ((E :: r).foldl (fun s E => failSelf E .collectiveMismatch s) s)))) ∧
    (∀ c,
      let C := nth Core.reset s.cores c
      let held := C.mshr.eraseIdx (Config.freeNat s.fresh 0 % C.mshr.length)
      let put := fun (m : List Nat) (r : List (Nat × Nat)) =>
        { s with cores := modifyAt (fun C => { C with mshr := m, mshrRej := r }) s.cores c, fresh := s.fresh + 1 }
      (C.mshrRej = [] → exec (.mshrRetry c) s = .next (put held [])) ∧
      (∀ r rest, C.mshrRej = r :: rest → C.reserved = true → exec (.mshrRetry c) s = .next (put (held ++ [r.1]) rest))) ∧
    (∀ g sd G, s.groups[g]? = some G →
      let u := s.updNative g (fun N => { N with pend := arriveFirst sd N.pend })
      let last := ((u.groups[g]?).bind Group.native).all (fun N => N.pend.all (fun w => !w.late))
      (rejected s G.core g = true → exec (.lSlotResultArrival g sd) s = .next s) ∧
      (rejected s G.core g = false → last = false → exec (.lSlotResultArrival g sd) s = .next u) ∧
      (rejected s G.core g = false → last = true → exec (.lSlotResultArrival g sd) s =
        .next { u with cores := modifyAt (fun C => { C with mshr := C.mshr.filter (· != g) }) u.cores G.core }))

/-- R199, R225, R230, R234, R235, R310, R347, R356, R360: the accesses of the host port, to the control space among them, and the migration
of pages.
The model's own readings and choices in it: log entries 6, 25, 40, 56, 63, 78. -/
def Obligations.HostAndPageEvents : Prop :=
  ∀ (s : State) (x : Nat) (va : DWord),
    let a := va.toNat
    let posted := fun (M : Msg) => { s with msgs := s.msgs ++ [M] }
    (∀ bs, bs ≠ [] → x ≠ 0 → regionCtx s x = true → rangeMapped s x a bs.length true = true →
      let M : Msg := { ctx := x, a := a, n := bs.length, data := some bs, rest := List.range (hostParts a bs.length).length, got := [] }
      ((turnMsg s x).isSome = true → exec (.hostRdmaWrite x va bs) s = .next (posted M)) ∧
      (turnMsg s x = none → exec (.hostRdmaWrite x va bs) s = .next (stepMsg false s.msgs.length (posted M)) ∧
        (hostParts a bs.length = [(a, bs.length)] →
          let u := (msgPart M (a, bs.length) (posted M).tick).1
          exec (.hostRdmaWrite x va bs) s = .next { u with msgs := u.msgs.eraseIdx s.msgs.length }))) ∧
    (∀ n, x ≠ 0 → regionCtx s x = true → rangeMapped s x a n false = true →
      let M : Msg := { ctx := x, a := a, n := n, data := none, rest := List.range (hostParts a n).length, got := [] }
      ((turnMsg s x).isSome = true → exec (.hostRdmaRead x va n) s = .next (posted M)) ∧
      (turnMsg s x = none → exec (.hostRdmaRead x va n) s = .next (stepMsg false s.msgs.length (posted M)) ∧
        (hostParts a n = [(a, n)] →
          let u := msgPart M (a, n) (posted M).tick
          exec (.hostRdmaRead x va n) s =
            .next { u.1 with msgs := u.1.msgs.eraseIdx s.msgs.length, replies := { kind := 0x52, bytes := u.2 } :: u.1.replies }))) ∧
    (∀ bs, bs ≠ [] → a + bs.length ≤ 0x20000000 → exec (.hostRdmaWrite 0 va bs) s = .next (writeRegs bs.length a bs s)) ∧
    (∀ n, a + n ≤ 0x20000000 → 0x30020 ≤ a ∨ a + n ≤ 0x30008 →
      exec (.hostRdmaRead 0 va n) s =
        .next { s with replies := { kind := 0x52, bytes := (List.range n).map (fun i => controlByte s (a + i)) } :: s.replies }) ∧
    (∀ k v,
      let u := drainMsgs x s
      let t := reach .outside true k 8 u
      regionCtx s x = true → a % 8 = 0 → ctxKey u x a true = some k → hiddenLine t x k = false → noHeader t x k 8 = true →
      let old := loadWord t x k
      let answer := fun (s : State) => { s with replies := { kind := 0x53, bytes := leBytes 8 old.toNat } :: s.replies }
      let put := fun (w : DWord) => Host.Outcome.next (answer (hostWrote x a 8 (storeWord x k w t)))
      exec (.hostRdmaAtomic x va none v) s = put (old + v) ∧
      (∀ c, (old = c → exec (.hostRdmaAtomic x va (some c) v) s = put v) ∧
        (old ≠ c → exec (.hostRdmaAtomic x va (some c) v) s = .next (answer t)))) ∧
    (∀ d l pa, walk s x a = some l → mayMigrate s x d l = true → pickFrame s d l.size = some pa →
      exec (.pageMigration x va d) s = .next (movePage x l pa s).tick) ∧
    exec (.counterHalving x) s = .next { s with
      pageCnt := (dsPages s x).foldl (fun m l => NMap.set [0, 0, 0, 0] m l.pa ((NMap.get [0, 0, 0, 0] m l.pa).map (· / 2))) s.pageCnt }

/-- R311, R312, R316, R318, R319, R325 to R341, R345, R346: the events that end waits, and the events of travelling groups.
The model's own readings and choices in it: log entries 23, 24, 39. -/
def Obligations.WaitAndTravelEvents : Prop :=
  ∀ s : State,
    (∀ g G sd w since, s.groups[g]? = some G →
      let kept := fun (q : Pend) => s.updSide g sd (fun S => { S with markPend := q })
      let first := fun (f : Watch → Bool) => G.waits.find? (fun e => match e.2.1 with | .signal w => f w | _ => false) = some (sd, .signal w, since)
      (∀ v, first (fun w => w.hit.isSome) → w.hit = some v → exec (.watchSatisfied g) s = .next (resumeWait g sd (.hit v) (kept (.hit v)))) ∧
      (first (fun w => w.hit.isNone && w.deadline.any (fun t => decide (t ≤ s.time))) →
        exec (.twaitDeadline g) s = .next (resumeWait g sd .done (kept .done))) ∧
      (∀ os t, G.waits.find? (fun e => match e.2.1 with
          | .yielding os t => os.isEmpty || decide (t ≤ (nth Core.reset s.cores G.core).clk) | _ => false) = some (sd, .yielding os t, since) →
        exec (.yieldEnd g) s = .next (resumeWait g sd .done s))) ∧
    (∀ g, exec (.nsleepExpiry g) s =
      .next (s.updGroup g (Group.endWaits (fun w => match w with | .sleep t => decide (t ≤ s.time) | _ => false)))) ∧
    (∀ cl,
      let C := nth Cluster.reset s.clusters cl
      let clk := (nth Core.reset s.cores (8 * cl)).clk
      let now := (C.phases.flatMap (phaseWaiters s)).take (max C.slope.toNat 1)
      let u := now.foldl (fun t e => t.updGroup e.1 (Group.endWaits (Wait.onPhase e.2))) s
      C.phases ≠ [] →
      (clk < C.waveAt → exec (.barrierReleaseWave cl) s = .next s) ∧
      (C.waveAt ≤ clk → exec (.barrierReleaseWave cl) s = .next { u with
        clusters := modifyAt (fun C => { C with phases := C.phases.filter (fun q => !(phaseWaiters u q).isEmpty),
                                                waveAt := if now = [] then C.waveAt else clk + 64 }) u.clusters cl })) ∧
    (∀ cl mhz, 400 ≤ mhz → mhz ≤ 800 → (s.full = true ∨ mhz = 400) →
      exec (.frequencyTransition cl mhz) s = .next { s with clusters := modifyAt (fun C => { C with mhz := mhz }) s.clusters cl }) ∧
    (∀ g G L T S r pc0 sg mode key slots B c u, s.groups[g]? = some G → launchOfBlk s G.block = some L → L.travel = some T →
      mergeExits s (departOrder G) = S :: r → S.exit? = some (pc0, sg, mode, key) → G.st = .ready → canDepart G = true →
      let toks := departToks s G
      failedTok G toks = none → toks.any (fun e => decide (tokState G e = some .pending)) = false →
      (∀ A, G.acc = some A → A.tiles.all (fun T => T.flight.isEmpty) = true) →
      poolTake s L.ctx (poolNeed G) = some slots → s.blocks[G.block]? = some B →
      chooseCore s L T sg B.bid G.gid mode key = some c →
      let G' := departing G (S :: r) sg toks slots
      placeRec (launchIx s G) c 1 g (recBytes s 1 B.bid { G' with toks := G.toks }) (poolTiles L.ctx G slots s) = some u →
      exec (.travelDeparture g) s = .next (departed g (launchIx s G) c L.ctx G' slots u)) ∧
    (∀ c R G L slot sl stamp, s.recs.find? (fun r => r.core = c) = some R → s.groups[R.group]? = some G → s.launches[R.launch]? = some L →
      G.st ≠ .ended → freeSlotsFor s L.ctx none c = slot :: sl → seedWaits s L.ctx = false → leavesCores s R.launch L = false →
      travelLimit s L G.seg ≠ 0 → (residents s c).length < travelLimit s L G.seg →
      (if G.stamp = 0 then freeStamp s L.ctx else some G.stamp) = some stamp →
      let a := spillArea s L (launchDie L) G.seg
      let u := settleScopes R.group { s with cores := modifyAt (Core.fresh slot) s.cores c }
      exec (.recordStart c) s = .next (awaitTiles false R.group (settleGroup R.group (comeBack L.ctx ((startsOn L.ctx (dieOf c) (dropRec R u)).updGroup
        R.group (fun G => G.placed c slot (imgShared u L.kaddr + slot * a) a stamp)))))) ∧
    (∀ c R g G w slots, s.recs.find? (fun r => r.core = c) = some R → (longWaiters s c).length = (residents s c).length →
      let t := suspendGroup g s
      longest (longWaiters s c) = some (g, G, w) → poolTake t (groupCtx s G) (((t.groups[g]?).map poolNeed).getD 0) = some slots →
      exec (.arrivalSuspend c) s = .next (suspendArrival g c (groupCtx s G) (launchIx s G) slots t)) ∧
    (∀ l c L T, s.launches[l]? = some L → L.travel = some T → L.complete = false → NMap.get 0 T.above c ≠ 0 →
      NMap.get 0 T.above c + 50000 ≤ s.time + 1 → T.holds = true → replicas T.rsrv = [] →
      exec (.replication l c) s = .next (chargeEv L.ctx 0x93 1 { s with
        launches := modifyAt (fun L => { L with travel := some { T with above := NMap.set 0 T.above c (s.time + 1) } }) s.launches l })) ∧
    (∀ l c L T r rs k, s.launches[l]? = some L → L.travel = some T → L.complete = false → NMap.get 0 T.above c ≠ 0 →
      NMap.get 0 T.above c + 50000 ≤ s.time + 1 → T.holds = true → replicas T.rsrv = r :: rs → T.msig = 0 →
      let d := launchDie L
      let sg := ((List.range 64).find? (fun k => (nth 0 T.mapw k).getLsbD (c - dieBase d))).getD 0
      let T' := T.replicate sg r s.time c
      let v := { s with
        launches := modifyAt (fun L => { L with travel := some T' }) s.launches l,
        cores := modifyAt (fun C => { C with rtail := 0, rhead := 0 }) s.cores (dieBase d + r) }
      let u := startWords (dieBase d + r) 0 (imgShared v L.kaddr) (fillSegment L sg (dieBase d + r) v)
      ctxKey u L.ctx (T.smap + 8 * sg) false = some k →
      exec (.replication l c) s = .next (chargeEv L.ctx 0x92 1 (syncControl l (storeWord L.ctx k (nth 0 T'.mapw sg) u)))) ∧
    (∀ l L T, s.launches[l]? = some L → L.travel = some T → T.holds = false → L.complete = false → (ctxAt s L.ctx).st = .live →
      s.launches.zipIdx.any (fun e => e.2 != l && !e.1.complete && shares L.cores e.1.cores
        && (match e.1.travel with | some U => U.holds || decide (e.2 < l) | none => false)) = false →
      L.cores.any (fun c => (residents s c).any (fun e => launchIx s e.2 != l) || !(heldRanges s L.ctx none c).isEmpty) = false →
      let T' := { T with holds := true }
      let u := L.cores.foldl (fun s c => startWords c 0 (imgShared s L.kaddr) s) { s with
        launches := modifyAt (fun L => { L with travel := some T' }) s.launches l,
        cores := L.cores.foldl (fun cores c => modifyAt (fun C => { C with rtail := 0, rhead := 0 }) cores c) s.cores }
      exec (.travelLaunchHold l) s = .next ((List.range L.nblk).foldl (fun s bid => startBlock l L T' bid s) (openControl l u)))

/-- R202, R347, R352, R357, R361 to R365: the events of context slots and control registers, and the debug commands. A command at the head
of a debugged context's ring is answered with its state and result, and consumed.
The model's own readings and choices in it: log entries 42, 48, 53. -/
def Obligations.ContextAndDebugEvents : Prop :=
  ∀ (s : State) (x : Nat),
    (∀ w : BitVec 512, slotIs s x .free = true → exec (.contextCreate x w) s = .next (writeFree x w true s)) ∧
    (slotIs s x .live = true ∨ slotIs s x .halted = true →
      exec (.contextEnd x) s = .next { endContext x s with
        ctxs := modifyAt (fun C => { C with hhalt := false, shalt := false }) (endContext x s).ctxs x } ∧
      (∀ w, exec (.seedChange x w) s = .next (changeSeed x w s))) ∧
    (slotIs s x .ending = true → ctxDrained s x = true →
      let u := clearOwner x s
      exec (.contextFree x) s = .next (reclaim { u with
        engs := u.engs.filter (fun E => decide (E.ctx ≠ x)), walks := u.walks.filter (fun W => decide (W.ctx ≠ x)),
        frames := u.frames.filter (fun f => decide (f.1 ≠ x)), msgs := u.msgs.filter (fun m => decide (m.ctx ≠ x)), objs := u.objs.map (Obj.without x),
        cores := u.cores.map (fun C => { C with tlb := C.tlb.filter (fun t => decide (t.ctx ≠ x)) }),
        ctxs := modifyAt (fun C => { C with st := .free, dbg := false, newSeed := none, pool := [], seqs := [] }) u.ctxs x })) ∧
    (∀ off bs, exec (.registerWrite off bs) s = .next (writeRegs bs.length off bs s)) ∧
    (∀ w : BitVec 128, s.tlbinv.run = none →
      let T := s.tlbinv.fields (w ||| 0x80)
      exec (.tlbInvalidate w) s = .next { s with tlbinv := { T with run := some (T.ctx, T.all, T.va, T.len) } }) ∧
    (∀ all lo len, s.tlbinv.run = some (x, all, lo, len) →
      let u := (groupsOf s x).foldl (fun s g => (landAll g s).updGroup g (fun G => { G with early := [] })) s
      exec .tlbInvalidateComplete s = .next { u with
        tlbinv := { u.tlbinv with run := none },
        cores := u.cores.map (fun C => { C with tlb := C.tlb.filter (fun t => !(decide (t.ctx = x) && invHits all lo len t.va t.size)) }),
        groups := u.groups.map (fun G => if groupCtx u G = x then G.invalidated all lo len else G) }) ∧
    (∀ c, debugHead s x = some c →
      let h := hostHold x s
      (c.cmd = 1 → exec (.halt x) s = .next (answerCmd x 1 (leBytes 4 (stampsOf h x).length) h)) ∧
      (c.cmd = 2 → exec (.resume x) s =
        .next (answerCmd x 1 [] (releaseContext x { s with ctxs := modifyAt (fun C => { C with hhalt := false }) s.ctxs x }))) ∧
      (c.cmd = 4 → ((ctxAt s x).bps.contains c.arg0 = true ∨ (ctxAt s x).bps.length < 256) → exec (.bset x) s = .next (answerCmd x 1 []
        { h with ctxs := modifyAt (fun C => if C.bps.contains c.arg0 = true then C else { C with bps := insertNat c.arg0 C.bps }) h.ctxs x })) ∧
      (c.cmd = 5 → exec (.bclr x) s =
        .next (answerCmd x 1 [] { h with ctxs := modifyAt (fun C => { C with bps := C.bps.filter (· ≠ c.arg0) }) h.ctxs x })) ∧
      (c.cmd = 10 → exec (.wclr x) s = .next (answerCmd x 1 []
        { s with ctxs := modifyAt (fun C => { C with wps := modifyAt (fun _ => none) C.wps (c.arg0 % 4) }) s.ctxs x })) ∧
      ((ctxAt s x).st = .halted →
        (c.cmd = 3 → exec (.list x) s = .next (answerCmd x 1
          (((((stampsOf s x).foldl (fun l n => insertNat n l) []).drop c.arg0).take 20).flatMap (leBytes 2)) s)) ∧
        (∀ w, c.cmd = 9 → wsetOf s x c = some w → exec (.wset x) s = .next (answerCmd x 1 []
          { s with ctxs := modifyAt (fun C => { C with wps := modifyAt (fun _ => some w) C.wps (c.arg0 % 4) }) s.ctxs x })) ∧
        (∀ g G, stampGroup s x c.stamp = some g → s.groups[g]? = some G →
          (c.cmd = 6 → G.st = .suspended → G.held = none → onCore s g = true →
            exec (.step x) s = .next (resumeGroup g (s.updGroup g Group.steps))) ∧
          (∀ S, c.cmd = 7 → c.lane < 128 → G.native = none → sideOfLane G c.lane = some S →
            exec (.rval x) s = .next (answerCmd x (rvalPortable s x S c.arg0 c.lane c.arg1).1 (rvalPortable s x S c.arg0 c.lane c.arg1).2 s)) ∧
          (∀ N P, c.cmd = 7 → c.lane < 128 → G.native = some N → slotOfLane N c.lane = some P →
            exec (.rval x) s = .next (answerCmd x (rvalNative s G N P c.arg0 c.lane c.arg1).1 (rvalNative s G N P c.arg0 c.lane c.arg1).2 s)) ∧
          (∀ S F r, c.cmd = 8 → G.native = none → lowestSide G = some S → S.core.frames = F :: r →
            exec (.rstat x) s = .next (answerCmd x 1 (statBytes F.pc S.core.view) s)) ∧
          (∀ N P, c.cmd = 8 → G.native = some N → lowestSlot N = some P →
            exec (.rstat x) s = .next (answerCmd x 1 (statBytes (N.port P.pc) P.view) s)))))

/-- R374, R376 to R378, R383, R405 to R407: the events of power, temperature, resets, service states, firmware, and the SPDM and PLDM
messages. What an SPDM or PLDM answer that the rules give no layout for holds is a free value (log entry 31).
The model's own readings and choices in it: log entries 31, 33, 36, 51, 54. -/
def Obligations.ManagementEvents : Prop :=
  ∀ s : State,
    let p := samplePeak s
    let answers := fun (i : Instr) (b : List Byte) => exec i s = .next (answer 0x61 b s)
    (∀ w, exec (.powerCapWrite w) s = .next (writePower w s)) ∧
    exec .pwrstatRead s = .next (answer 0x62 (leBytes 32 (pwrstat p)) { p with power := { p.power with ppkRead := p.time } }) ∧
    (∀ d, stepDue p d = true → p.power.scap < Config.power p.time →
      exec (.sustainedThrottleStep d) s = .next (stepDie d Cluster.stepDown { p with power := { p.power with sthr := true } })) ∧
    (∀ d D, s.dies[d]? = some D → D.on = true →
      (105 ≤ Config.temperature s.time d → D.last + 1000000 ≤ s.time → exec (.thermalThrottle d) s =
        .next (stepDie d Cluster.stepDown { s with dies := modifyAt (fun D => { D with hot := D.on && true }) s.dies d })) ∧
      exec (.dieReset d) s = .next (resetDie d s) ∧
      (115 ≤ Config.temperature s.time d → exec (.thermalReset d) s = .next (resetDie d s))) ∧
    exec .moduleReset s = .next { State.reset with
      mem := s.mem.filter (fun e => isDM e.1), tag := s.tag.filter (fun e => isDM (8 * e.1)), owner := s.owner.filter (fun e => isDM (64 * e.1)),
      poison := s.poison.filter (fun e => isDM (4 * e.1)), fwImage := if s.staged.isSome then s.staged else s.fwImage,
      agenda := s.agenda, fresh := s.fresh, ids := s.ids, replies := s.replies } ∧
    (s.full = false → ∃ t, exec .bringUpComplete s = .next t ∧ (s.groups = [] → t = { s with
      full := true, caps := some ((s.dies.zipIdx.map (fun e => e.1.join s.time e.2)).map Die.on),
      dies := s.dies.zipIdx.map (fun e => e.1.join s.time e.2),
      clusters := s.clusters.map (fun C => { C with mhz := 800, cuts := [] }) })) ∧
    (∀ x, slotIs s x .live = true ∨ slotIs s x .halted = true →
      exec (.safelightHalt x) s = .next (haltContext x { s with ctxs := modifyAt (fun C => { C with shalt := true }) s.ctxs x }) ∧
      exec (.safelightRelease x) s = .next (releaseContext x { s with ctxs := modifyAt (fun C => { C with shalt := false }) s.ctxs x })) ∧
    (∀ img, (∀ b, s.staged = some b → exec (.firmwareStaging img) s = .next (answer 0x63 [1] s)) ∧
      (s.staged = none → Config.signatureValid img = true →
        exec (.firmwareStaging img) s = .next (answer 0x63 [0] { s with staged := some img })) ∧
      (s.staged = none → Config.signatureValid img = false → exec (.firmwareStaging img) s = .next (answer 0x63 [2] s))) ∧
    (∀ req,
      let light := fun (i : Instr) (code : Nat) => exec i s = .next (answer 0x60 (Config.spdmResponse code req (measurements s)) s)
      let host := fun (i : Instr) (code : Nat) => s.mbox.spdmRun = true →
        let r := (Config.spdmResponse code req (measurements s)).take 2544
        exec i s = .next { s with
          mbox := { s.mbox with spdm := patch s.mbox.spdm 0 r, rlen := r.length, spdmSt := 1, spdmRun := false } }
      light (.getVersion .safelight req) 0x84 ∧ light (.getCapabilities .safelight req) 0xE1 ∧
      light (.negotiateAlgorithms .safelight req) 0xE3 ∧ light (.getDigests .safelight req) 0x81 ∧
      light (.getCertificate .safelight req) 0x82 ∧ light (.challenge .safelight req) 0x83 ∧ light (.getMeasurements .safelight req) 0xE0 ∧
      host (.getVersion .host req) 0x84 ∧ host (.getCapabilities .host req) 0xE1 ∧ host (.negotiateAlgorithms .host req) 0xE3 ∧
      host (.getDigests .host req) 0x81 ∧ host (.getCertificate .host req) 0x82 ∧ host (.challenge .host req) 0x83 ∧
      host (.getMeasurements .host req) 0xE0 ∧
      answers (.getTid req) (Config.pldmResponse 0x02 req) ∧ answers (.getPldmVersion req) (Config.pldmResponse 0x03 req) ∧
      answers (.getPldmTypes req) (Config.pldmResponse 0x04 req) ∧ answers (.getPldmCommands req) (Config.pldmResponse 0x05 req) ∧
      answers (.getPdr req) (Config.pldmResponse 0x51 req)) ∧
    (∀ id v, sensorReading s id = some v → id ≠ 2 → answers (.getSensorReading id) (pldmNumber v)) ∧
    (∀ v, sensorReading s 2 = some v →
      exec (.getSensorReading 2) s = .next (answer 0x61 (pldmNumber v) { s with power := { s.power with ppkRead := s.time } })) ∧
    (∀ id v, stateReading p id = some v → exec (.getStateSensorReadings id) s = .next (answer 0x61 (pldmNumber v) p)) ∧
    (∀ id v, id = 1 ∨ id = 2 →
      (∀ P, setCap s.power id v = some P → exec (.setNumericEffecterValue id v) s = .next (answer 0x61 [0] { s with power := P })) ∧
      (setCap s.power id v = none → answers (.setNumericEffecterValue id v) [2])) ∧
    answers (.getNumericEffecterValue 1) (pldmNumber s.power.scap) ∧ answers (.getNumericEffecterValue 2) (pldmNumber s.power.pcap) ∧
    (s.updating = false → exec .requestUpdate s = .next (answer 0x61 [0] { s with updating := true })) ∧
    (s.updating = true → exec .activateFirmware s = .next (answer 0x61 [0] { s with updating := false }) ∧ answers .requestUpdate [0x81])

/-! ### Rules of integer and floating-point results, word for word -/

/-- R78, word for word: in the active lanes `div` and `rem` give the quotient rounded toward zero and the remainder of the readings of
their operands; a zero divisor gives all ones and the dividend; the most negative value by -1 gives itself and 0; the remainder takes
the sign of the dividend. Neither faults, and the view, with its flags, is as it was. -/
def Obligations.DivisionAndRemainder : Prop :=
  ∀ (s : State) (p : Site), site? s = some p → ∀ (h : BitVec 2) (t : Ty) (sg : Bool) (a b : Opnd) (xs ys : List DWord),
    t.isInt = true → opndBits s p t a = some xs → opndBits s p t b = some ys →
    let w := Ty.bits t
    let rd := fun (x : DWord) =>
      let u := x.toNat % 2 ^ w
      if sg = true ∧ 2 ^ (w - 1) ≤ u then (u : Int) - 2 ^ w else (u : Int)
    ∃ q r : DWord → DWord → DWord,
      Gives (.div h t sg a b) s p ((List.zipWith q xs ys).map .bits) ∧ Gives (.rem h t sg a b) s p ((List.zipWith r xs ys).map .bits) ∧
      ∀ x y : DWord,
        (rd y = 0 → (q x y).toNat = 2 ^ w - 1 ∧ (r x y).toNat = x.toNat % 2 ^ w) ∧
        (sg = true → rd x = -(2 ^ (w - 1)) → rd y = -1 → (q x y).toNat = x.toNat % 2 ^ w ∧ r x y = 0) ∧
        (rd y ≠ 0 → ¬(sg = true ∧ rd x = -(2 ^ (w - 1)) ∧ rd y = -1) →
          ((q x y).toNat : Int) = Int.tdiv (rd x) (rd y) % 2 ^ w ∧
          ((r x y).toNat : Int) = (rd x - Int.tdiv (rd x) (rd y) * rd y) % 2 ^ w) ∧
        (rd (r x y) = 0 ∨ (rd (r x y) < 0 ↔ rd x < 0))

/-- R79, word for word: `bfx` gives the field of l bits from bit p, cut at the width, in the reading that MOD[0] gives, and 0 for a field
that begins at the width or has no bits; `bfi` gives its base with that field replaced by the low bits of its source. -/
def Obligations.BitFieldRules : Prop :=
  ∀ (s : State) (p : Site), site? s = some p → ∀ (h : BitVec 2) (t : Ty) (a n l : Opnd) (xs ns ls : List DWord), t.isInt = true →
    opndBits s p t a = some xs → opndBits s p .i32 n = some ns → opndBits s p .i32 l = some ls →
    let w := Ty.bits t
    let lanes := fun (f : Nat → DWord) => (List.range 128).map (fun i => Val.bits (f i))
    (∀ sg, ∃ f : DWord → Nat → Nat → DWord,
      Gives (.bfx h t sg a n l) s p (lanes (fun i => f (nth 0 xs i) (nth 0 ns i).toNat (nth 0 ls i).toNat)) ∧
      ∀ x pos len,
        (w ≤ pos ∨ len = 0 → f x pos len = 0) ∧
        (pos < w → len ≠ 0 →
          let k := min len (w - pos)
          let F := x.toNat / 2 ^ pos % 2 ^ k
          ((f x pos len).toNat : Int) = (if sg = true ∧ 2 ^ (k - 1) ≤ F then (F : Int) - 2 ^ k else (F : Int)) % 2 ^ w)) ∧
    (∀ b ys, opndBits s p t b = some ys → ∃ f : DWord → DWord → Nat → Nat → DWord,
      Gives (.bfi h t a b n l) s p (lanes (fun i => f (nth 0 xs i) (nth 0 ys i) (nth 0 ns i).toNat (nth 0 ls i).toNat)) ∧
      ∀ x y pos len j, (f x y pos len).getLsbD j =
        if w ≤ j then false
        else if pos < w ∧ len ≠ 0 ∧ pos ≤ j ∧ j < pos + min len (w - pos) then y.getLsbD (j - pos)
        else x.getLsbD j)

/-- R84, word for word: `fmin` and `fmax` order the numbers with −0 below +0, return the operand that is no NaN when exactly one is a NaN,
and the default NaN when both are; under DN = 0 a subnormal operand is first a zero of its sign; no flag is set. -/
def Obligations.MinimumAndMaximum : Prop :=
  ∀ (s : State) (p : Site), site? s = some p → ∀ (h : BitVec 2) (t : Ty) (dn : Bool) (a b : Opnd) (xs ys : List DWord),
    opndBits s p t a = some xs → opndBits s p t b = some ys → ∀ fb quiet : Nat,
    (t = .f16 ∧ fb = 10 ∧ quiet = 0x7E00) ∨ (t = .bf16 ∧ fb = 7 ∧ quiet = 0x7FC0) ∨ (t = .f32 ∧ fb = 23 ∧ quiet = 0x7FC00000) →
    let w := Ty.bits t
    let mag := fun (x : DWord) => x.toNat % 2 ^ (w - 1)
    let low := fun (x : DWord) => x.toNat % 2 ^ w
    let nan := fun (x : DWord) => 2 ^ (w - 1) - 2 ^ fb < mag x
    let taken := fun (x : DWord) => if dn = false ∧ 0 < mag x ∧ mag x < 2 ^ fb then BitVec.ofNat 64 (low x - mag x) else x
    let order := fun (x : DWord) => if x.getLsbD (w - 1) = true then -1 - (mag x : Int) else (mag x : Int)
    ∃ mn mx : DWord → DWord → DWord,
      Gives (.fmin h t dn a b) s p ((List.zipWith mn xs ys).map .bits) ∧ Gives (.fmax h t dn a b) s p ((List.zipWith mx xs ys).map .bits) ∧
      ∀ x y : DWord,
        let x' := taken x
        let y' := taken y
        (nan x' → nan y' → (mn x y).toNat = quiet ∧ (mx x y).toNat = quiet) ∧
        (nan x' → ¬nan y' → mn x y = y' ∧ mx x y = y') ∧
        (¬nan x' → nan y' → mn x y = x' ∧ mx x y = x') ∧
        (¬nan x' → ¬nan y' →
          low (mn x y) = (if order x' ≤ order y' then low x' else low y') ∧
          low (mx x y) = (if order x' ≤ order y' then low y' else low x'))

/-! ### Decoding, the step and the reset state -/

/-- R28 to R40, R166 to R174: words written out from the encoding tables decode to the instructions that they stand for, and words of no
instruction give the cause of R42. -/
def Obligations.DecodeExamples : Prop :=
  decode [0x10404800, 0x00020001] = .ok (.add 0 .i32 true (.val 1) (.val 2)) 2 ∧
  decode [0x06000000] = .ok (.exit 0) 1 ∧
  decode [0x01000400, 0x0000E003] = .ok (.br 0 { blk := 3, args := [] }) 2 ∧
  decode [0x94068003] = .ok (.fence 0 .ar 2 3) 1 ∧
  decode [0x09000000] = .bad .illegalOpcode ∧
  decode [0x10404840, 0x00020001] = .bad .trappingHint ∧
  decode [0x10C04800, 0x00020001] = .bad .illegalEncoding ∧
  decodeSlot .v 0x2200004000 = some (.ior { kp := true, grd := 0, d := 0, pa := false, a := 16, pb := false, b := 0 }) ∧
  decodeSlot .s 0x24000000 = some .sexit ∧
  decodeSlot .m 0x400000 = some (.tzero 0 0) ∧
  decodeSlot .s 0xFC000000 = none

/-- R28 to R40: for every well-formed portable instruction whose slots a count word can count, the words of its encoding, whatever
follows them, decode to it, and their number is its length. -/
def Obligations.PortableRoundTrip : Prop :=
  ∀ (i : Instr) (r : Raw) (more : List Word), i.wf = true → i.raw? = some r → r.slots.length ≤ 1023 →
    decode (encode i ++ more) = .ok i (encode i).length

/-- R158, R166 to R174: for every well-formed slot operation, its slot field fits the slot's width and decodes to it. -/
def Obligations.SlotRoundTrip : Prop :=
  ∀ (i : Instr) (k : SlotKind) (n : Nat), i.wf = true → i.slot? = some (k, n) → n < 2 ^ k.bits ∧ decodeSlot k n = some i

/-- R31, R42, R147, R158, R160: a step that issues a portable side runs the instruction that the words at its pc decode to, at the state in
which the MARK before it has committed; words that are no instruction give their fault at its pc; a group with a gated object operation whose condition another write has
since undone goes back to its MARKs instead (R215); a step that issues a slot runs the
operation that the word at the head of its stream decodes to. After either, nothing issues and the debugger's hooks are looked at.
The model's own readings and choices in it: log entries 2, 10, 88. -/
def Obligations.StepRunsDecodedInstruction : Prop :=
  ∀ (s : State) (g : Nat),
    (∀ sd n p d, s.issue = .portable g sd n → fetch s g sd = some (p, d) → groupStale s g = false → p.grp.stepping ≠ some true →
      hookStop s p.ctx g sd p.pc = false →
      (∀ i k, d = .ok i k → step s = onNext (fun t => afterIssue g p.pc (spills p t)) (exec i (issued s p i k))) ∧
      (∀ c, d = .bad c → step s = .next { faultAt g sd c p.pc none 0 s with issue := .none })) ∧
    (∀ sd n, s.issue = .portable g sd n → (fetch s g sd).isSome = true → groupStale s g = true →
      step s = .next { rollback g s with issue := .none }) ∧
    (∀ sl, s.issue = .slot g sl → groupStale s g = true → step s = .next { rollback g s with issue := .none }) ∧
    (∀ sl w i, s.issue = .slot g sl → groupStale s g = false → slotWord s g sl = some w → decodeSlot (slotKind sl) w = some i →
      step s = onNext (fun t => nativeHook g (afterIssue g 0 t)) (exec i s))

/-- R9, R284, R296, R305, R348, R350, R406: the machine right after reset. The storage it starts from lists no byte (log entry 4: the model's
choice), and every map of it stands in the canonical form.
The model's own readings and choices in it: log entries 4, 8. -/
def Obligations.ResetState : Prop :=
  let s := State.reset
  s.full = false ∧ s.time = 0 ∧ s.groups = [] ∧ s.launches = [] ∧ s.objs = [] ∧ s.queues = [] ∧ s.mem = [] ∧ Storage.wf s = true ∧
  s.ctxs.length = 64 ∧ (ctxAt s 0).valid = true ∧ (ctxAt s 0).st = .live ∧
  (∀ x, 1 ≤ x → x < 64 → (ctxAt s x).valid = false ∧ (ctxAt s x).st = .free ∧ (ctxAt s x).root = 0 ∧ (ctxAt s x).quota = [0, 0, 0, 0]) ∧
  (∀ q, (queueAt s q).en = false ∧ (queueAt s q).st = .disabled) ∧
  s.cores.length = 208 ∧ (∀ C ∈ s.cores, C.ptr = 63 ∧ C.tlb = []) ∧
  s.clusters.length = 26 ∧ (∀ C ∈ s.clusters, C.slope = 0x10 ∧ C.mhz = 400) ∧
  s.dies.map (fun D => D.on) = [false, false, true, false] ∧
  step s = chooseNext s

/-- Every step keeps the canonical form of the bytes of storage, from every state that has it: keys strictly rising, and no byte listed that
equals what an unlisted one reads as (log entry 4). So equal memories are equal data, whatever has run. -/
def Obligations.StepKeepsMemoryForm : Prop :=
  ∀ s t : State, Memory.wf s = true → step s = .next t → Memory.wf t = true

end
end

