-- ==== Sys2Proof/Laws/Map.lean ====
section
/-! SUPPORT. The laws of sparse storage: what a read finds after a write, and that writing keeps the canonical form. -/

namespace Sys2Proof.Machine

variable {α : Type}

/-- A read of the key that a value other than d was written to finds that value. -/
theorem NMap.get_set_same [DecidableEq α] (d : α) (m : NMap α) (k : Nat) (v : α) (h : v ≠ d) :
    NMap.get d (NMap.set d m k v) k = v := by
  induction m with
  | nil => simp [NMap.set, NMap.get, h]
  | cons e r ih =>
    obtain ⟨k', v'⟩ := e
    simp only [NMap.set, h, if_false]
    split
    · simp [NMap.get]
    · split
      · simp [NMap.get]
      · rename_i h1 h2; simp [NMap.get, h1, h2, ih]

/-- A write of a value other than d leaves every other key as it was. -/
theorem NMap.get_set_other [DecidableEq α] (d : α) (m : NMap α) (k j : Nat) (v : α) (h : v ≠ d) (hj : j ≠ k) :
    NMap.get d (NMap.set d m k v) j = NMap.get d m j := by
  induction m with
  | nil => simp [NMap.set, NMap.get, h, hj]
  | cons e r ih =>
    obtain ⟨k', v'⟩ := e
    simp only [NMap.set, h, if_false]
    split
    · simp only [NMap.get, hj, if_false]
      split <;> split <;> (try split) <;> first | rfl | omega
    · split
      · rename_i h1 h2; subst h2; simp [NMap.get, hj]
      · simp only [NMap.get, ih]

theorem NMap.wfFrom_weaken [DecidableEq α] (d : α) (m : NMap α) (a b : Nat) (h : a ≤ b)
    (w : NMap.wfFrom d (some b) m = true) : NMap.wfFrom d (some a) m = true := by
  cases m with
  | nil => rfl
  | cons e r =>
    obtain ⟨k, v⟩ := e
    simp only [NMap.wfFrom, Bool.and_eq_true, decide_eq_true_eq] at w ⊢
    exact ⟨⟨by omega, w.1.2⟩, w.2⟩

theorem NMap.wf_of_wfFrom [DecidableEq α] (d : α) (m : NMap α) (a : Nat)
    (w : NMap.wfFrom d (some a) m = true) : NMap.wf d m = true := by
  cases m with
  | nil => rfl
  | cons e r =>
    obtain ⟨k, v⟩ := e
    simp only [NMap.wf, NMap.wfFrom, Bool.and_eq_true, decide_eq_true_eq] at w ⊢
    exact ⟨⟨trivial, w.1.2⟩, w.2⟩

/-- A key below every listed one reads as d. -/
theorem NMap.get_of_wfFrom [DecidableEq α] (d : α) (m : NMap α) (lo k : Nat) (h : k ≤ lo)
    (w : NMap.wfFrom d (some lo) m = true) : NMap.get d m k = d := by
  cases m with
  | nil => rfl
  | cons e r =>
    obtain ⟨j, v⟩ := e
    simp only [NMap.wfFrom, Bool.and_eq_true, decide_eq_true_eq] at w
    simp [NMap.get, show k ≠ j by omega, show k < j by omega]

theorem NMap.wfFrom_set [DecidableEq α] (d : α) (m : NMap α) (lo k : Nat) (v : α) (hk : lo < k)
    (w : NMap.wfFrom d (some lo) m = true) : NMap.wfFrom d (some lo) (NMap.set d m k v) = true := by
  induction m generalizing lo with
  | nil => by_cases h : v = d <;> simp [NMap.set, NMap.wfFrom, h, hk]
  | cons e r ih =>
    obtain ⟨j, u⟩ := e
    simp only [NMap.wfFrom, Bool.and_eq_true, decide_eq_true_eq] at w
    obtain ⟨⟨h1, h2⟩, h3⟩ := w
    simp only [NMap.set]
    split
    · by_cases h : v = d <;> simp_all [NMap.wfFrom]
    · split
      · by_cases h : v = d
        · subst_vars; simpa using NMap.wfFrom_weaken _ r lo j (by omega) h3
        · simp_all [NMap.wfFrom]
      · simp [NMap.wfFrom, h1, h2, ih j (by omega) h3]

/-- A write keeps the canonical form. -/
theorem NMap.wf_set [DecidableEq α] (d : α) (m : NMap α) (k : Nat) (v : α) (w : NMap.wf d m = true) :
    NMap.wf d (NMap.set d m k v) = true := by
  cases m with
  | nil => by_cases h : v = d <;> simp [NMap.set, NMap.wf, NMap.wfFrom, h]
  | cons e r =>
    obtain ⟨j, u⟩ := e
    simp only [NMap.wf, NMap.wfFrom, Bool.and_eq_true, decide_eq_true_eq] at w
    obtain ⟨⟨-, h2⟩, h3⟩ := w
    simp only [NMap.set, NMap.wf]
    split
    · by_cases h : v = d <;> simp_all [NMap.wfFrom]
    · split
      · by_cases h : v = d
        · subst_vars; simpa [NMap.wf] using NMap.wf_of_wfFrom _ r j h3
        · simp_all [NMap.wfFrom]
      · simp [NMap.wfFrom, h2, NMap.wfFrom_set d r j k v (by omega) h3]

theorem NMap.wfFrom_filter [DecidableEq α] (d : α) (m : NMap α) (lo : Nat) (p : Nat × α → Bool)
    (w : NMap.wfFrom d (some lo) m = true) : NMap.wfFrom d (some lo) (m.filter p) = true := by
  induction m generalizing lo with
  | nil => rfl
  | cons e r ih =>
    obtain ⟨j, u⟩ := e
    simp only [NMap.wfFrom, Bool.and_eq_true, decide_eq_true_eq] at w
    obtain ⟨⟨h1, h2⟩, h3⟩ := w
    simp only [List.filter]
    split
    · simp [NMap.wfFrom, h1, h2, ih j h3]
    · exact ih lo (NMap.wfFrom_weaken d r lo j (by omega) h3)

/-- Dropping entries keeps the canonical form. -/
theorem NMap.wf_filter [DecidableEq α] (d : α) (m : NMap α) (p : Nat × α → Bool) (w : NMap.wf d m = true) :
    NMap.wf d (List.filter p m) = true := by
  cases m with
  | nil => rfl
  | cons e r =>
    obtain ⟨j, u⟩ := e
    simp only [NMap.wf, NMap.wfFrom, Bool.and_eq_true, decide_eq_true_eq] at w
    obtain ⟨⟨-, h2⟩, h3⟩ := w
    simp only [List.filter]
    split
    · simp [NMap.wf, NMap.wfFrom, h2, NMap.wfFrom_filter d r j p h3]
    · exact NMap.wf_of_wfFrom d _ j (NMap.wfFrom_filter d r j p h3)

theorem NMap.wf_keep [DecidableEq α] (d : α) (m : NMap α) (p : Nat → Bool) (w : NMap.wf d m = true) :
    NMap.wf d (NMap.keep p m) = true := NMap.wf_filter d m _ w

/-- Changing the element at an index. -/
theorem modifyAt_getElem? (f : α → α) (l : List α) (i j : Nat) :
    (modifyAt f l i)[j]? = if j = i then (l[j]?).map f else l[j]? := by
  induction l generalizing i j with
  | nil => simp [modifyAt]
  | cons a r ih =>
    cases i <;> cases j <;> simp [modifyAt, ih]

@[simp] theorem modifyAt_length (f : α → α) (l : List α) (i : Nat) : (modifyAt f l i).length = l.length := by
  induction l generalizing i with
  | nil => rfl
  | cons a r ih => cases i <;> simp [modifyAt, ih]

end Sys2Proof.Machine
end

