-- ==== Sys2Proof/Laws/State.lean ====
section
/-! SUPPORT. What each update of the state leaves as it was: one lemma per field and update, true by definition. -/

namespace Sys2Proof.Machine
open Sys2Proof

@[simp] theorem State.updGroup_mem (s : State) (g : Nat) (f : Group → Group) : (s.updGroup g f).mem = s.mem := rfl
@[simp] theorem State.updGroup_tag (s : State) (g : Nat) (f : Group → Group) : (s.updGroup g f).tag = s.tag := rfl
@[simp] theorem State.updGroup_lines (s : State) (g : Nat) (f : Group → Group) : (s.updGroup g f).lines = s.lines := rfl
@[simp] theorem State.updGroup_owner (s : State) (g : Nat) (f : Group → Group) : (s.updGroup g f).owner = s.owner := rfl
@[simp] theorem State.updGroup_dirty (s : State) (g : Nat) (f : Group → Group) : (s.updGroup g f).dirty = s.dirty := rfl
@[simp] theorem State.updGroup_poison (s : State) (g : Nat) (f : Group → Group) : (s.updGroup g f).poison = s.poison := rfl
@[simp] theorem State.updGroup_pageCnt (s : State) (g : Nat) (f : Group → Group) : (s.updGroup g f).pageCnt = s.pageCnt := rfl
@[simp] theorem State.updGroup_ctxs (s : State) (g : Nat) (f : Group → Group) : (s.updGroup g f).ctxs = s.ctxs := rfl
@[simp] theorem State.updGroup_queues (s : State) (g : Nat) (f : Group → Group) : (s.updGroup g f).queues = s.queues := rfl
@[simp] theorem State.updGroup_tlbinv (s : State) (g : Nat) (f : Group → Group) : (s.updGroup g f).tlbinv = s.tlbinv := rfl
@[simp] theorem State.updGroup_mbox (s : State) (g : Nat) (f : Group → Group) : (s.updGroup g f).mbox = s.mbox := rfl
@[simp] theorem State.updGroup_power (s : State) (g : Nat) (f : Group → Group) : (s.updGroup g f).power = s.power := rfl
@[simp] theorem State.updGroup_dies (s : State) (g : Nat) (f : Group → Group) : (s.updGroup g f).dies = s.dies := rfl
@[simp] theorem State.updGroup_clusters (s : State) (g : Nat) (f : Group → Group) : (s.updGroup g f).clusters = s.clusters := rfl
@[simp] theorem State.updGroup_cores (s : State) (g : Nat) (f : Group → Group) : (s.updGroup g f).cores = s.cores := rfl
@[simp] theorem State.updGroup_objs (s : State) (g : Nat) (f : Group → Group) : (s.updGroup g f).objs = s.objs := rfl
@[simp] theorem State.updGroup_launches (s : State) (g : Nat) (f : Group → Group) : (s.updGroup g f).launches = s.launches := rfl
@[simp] theorem State.updGroup_blocks (s : State) (g : Nat) (f : Group → Group) : (s.updGroup g f).blocks = s.blocks := rfl
@[simp] theorem State.updGroup_recs (s : State) (g : Nat) (f : Group → Group) : (s.updGroup g f).recs = s.recs := rfl
@[simp] theorem State.updGroup_engs (s : State) (g : Nat) (f : Group → Group) : (s.updGroup g f).engs = s.engs := rfl
@[simp] theorem State.updGroup_walks (s : State) (g : Nat) (f : Group → Group) : (s.updGroup g f).walks = s.walks := rfl
@[simp] theorem State.updGroup_xlats (s : State) (g : Nat) (f : Group → Group) : (s.updGroup g f).xlats = s.xlats := rfl
@[simp] theorem State.updGroup_full (s : State) (g : Nat) (f : Group → Group) : (s.updGroup g f).full = s.full := rfl
@[simp] theorem State.updGroup_staged (s : State) (g : Nat) (f : Group → Group) : (s.updGroup g f).staged = s.staged := rfl
@[simp] theorem State.updGroup_updating (s : State) (g : Nat) (f : Group → Group) : (s.updGroup g f).updating = s.updating := rfl
@[simp] theorem State.updGroup_fwImage (s : State) (g : Nat) (f : Group → Group) : (s.updGroup g f).fwImage = s.fwImage := rfl
@[simp] theorem State.updGroup_time (s : State) (g : Nat) (f : Group → Group) : (s.updGroup g f).time = s.time := rfl
@[simp] theorem State.updGroup_agenda (s : State) (g : Nat) (f : Group → Group) : (s.updGroup g f).agenda = s.agenda := rfl
@[simp] theorem State.updGroup_issue (s : State) (g : Nat) (f : Group → Group) : (s.updGroup g f).issue = s.issue := rfl
@[simp] theorem State.updGroup_fresh (s : State) (g : Nat) (f : Group → Group) : (s.updGroup g f).fresh = s.fresh := rfl
@[simp] theorem State.updGroup_ids (s : State) (g : Nat) (f : Group → Group) : (s.updGroup g f).ids = s.ids := rfl
@[simp] theorem State.updGroup_frames (s : State) (g : Nat) (f : Group → Group) : (s.updGroup g f).frames = s.frames := rfl
@[simp] theorem State.updGroup_replies (s : State) (g : Nat) (f : Group → Group) : (s.updGroup g f).replies = s.replies := rfl
@[simp] theorem State.updGroup_caps (s : State) (g : Nat) (f : Group → Group) : (s.updGroup g f).caps = s.caps := rfl
@[simp] theorem State.updGroup_msgs (s : State) (g : Nat) (f : Group → Group) : (s.updGroup g f).msgs = s.msgs := rfl
@[simp] theorem State.updGroup_rota (s : State) (g : Nat) (f : Group → Group) : (s.updGroup g f).rota = s.rota := rfl
@[simp] theorem State.updGroup_since (s : State) (g : Nat) (f : Group → Group) : (s.updGroup g f).since = s.since := rfl

@[simp] theorem State.updSide_mem (s : State) (g sd : Nat) (f : Side → Side) : (s.updSide g sd f).mem = s.mem := rfl
@[simp] theorem State.updSide_tag (s : State) (g sd : Nat) (f : Side → Side) : (s.updSide g sd f).tag = s.tag := rfl
@[simp] theorem State.updSide_lines (s : State) (g sd : Nat) (f : Side → Side) : (s.updSide g sd f).lines = s.lines := rfl
@[simp] theorem State.updSide_owner (s : State) (g sd : Nat) (f : Side → Side) : (s.updSide g sd f).owner = s.owner := rfl
@[simp] theorem State.updSide_dirty (s : State) (g sd : Nat) (f : Side → Side) : (s.updSide g sd f).dirty = s.dirty := rfl
@[simp] theorem State.updSide_poison (s : State) (g sd : Nat) (f : Side → Side) : (s.updSide g sd f).poison = s.poison := rfl
@[simp] theorem State.updSide_pageCnt (s : State) (g sd : Nat) (f : Side → Side) : (s.updSide g sd f).pageCnt = s.pageCnt := rfl
@[simp] theorem State.updSide_ctxs (s : State) (g sd : Nat) (f : Side → Side) : (s.updSide g sd f).ctxs = s.ctxs := rfl
@[simp] theorem State.updSide_queues (s : State) (g sd : Nat) (f : Side → Side) : (s.updSide g sd f).queues = s.queues := rfl
@[simp] theorem State.updSide_tlbinv (s : State) (g sd : Nat) (f : Side → Side) : (s.updSide g sd f).tlbinv = s.tlbinv := rfl
@[simp] theorem State.updSide_mbox (s : State) (g sd : Nat) (f : Side → Side) : (s.updSide g sd f).mbox = s.mbox := rfl
@[simp] theorem State.updSide_power (s : State) (g sd : Nat) (f : Side → Side) : (s.updSide g sd f).power = s.power := rfl
@[simp] theorem State.updSide_dies (s : State) (g sd : Nat) (f : Side → Side) : (s.updSide g sd f).dies = s.dies := rfl
@[simp] theorem State.updSide_clusters (s : State) (g sd : Nat) (f : Side → Side) : (s.updSide g sd f).clusters = s.clusters := rfl
@[simp] theorem State.updSide_cores (s : State) (g sd : Nat) (f : Side → Side) : (s.updSide g sd f).cores = s.cores := rfl
@[simp] theorem State.updSide_objs (s : State) (g sd : Nat) (f : Side → Side) : (s.updSide g sd f).objs = s.objs := rfl
@[simp] theorem State.updSide_launches (s : State) (g sd : Nat) (f : Side → Side) : (s.updSide g sd f).launches = s.launches := rfl
@[simp] theorem State.updSide_blocks (s : State) (g sd : Nat) (f : Side → Side) : (s.updSide g sd f).blocks = s.blocks := rfl
@[simp] theorem State.updSide_recs (s : State) (g sd : Nat) (f : Side → Side) : (s.updSide g sd f).recs = s.recs := rfl
@[simp] theorem State.updSide_engs (s : State) (g sd : Nat) (f : Side → Side) : (s.updSide g sd f).engs = s.engs := rfl
@[simp] theorem State.updSide_walks (s : State) (g sd : Nat) (f : Side → Side) : (s.updSide g sd f).walks = s.walks := rfl
@[simp] theorem State.updSide_xlats (s : State) (g sd : Nat) (f : Side → Side) : (s.updSide g sd f).xlats = s.xlats := rfl
@[simp] theorem State.updSide_full (s : State) (g sd : Nat) (f : Side → Side) : (s.updSide g sd f).full = s.full := rfl
@[simp] theorem State.updSide_staged (s : State) (g sd : Nat) (f : Side → Side) : (s.updSide g sd f).staged = s.staged := rfl
@[simp] theorem State.updSide_updating (s : State) (g sd : Nat) (f : Side → Side) : (s.updSide g sd f).updating = s.updating := rfl
@[simp] theorem State.updSide_fwImage (s : State) (g sd : Nat) (f : Side → Side) : (s.updSide g sd f).fwImage = s.fwImage := rfl
@[simp] theorem State.updSide_time (s : State) (g sd : Nat) (f : Side → Side) : (s.updSide g sd f).time = s.time := rfl
@[simp] theorem State.updSide_agenda (s : State) (g sd : Nat) (f : Side → Side) : (s.updSide g sd f).agenda = s.agenda := rfl
@[simp] theorem State.updSide_issue (s : State) (g sd : Nat) (f : Side → Side) : (s.updSide g sd f).issue = s.issue := rfl
@[simp] theorem State.updSide_fresh (s : State) (g sd : Nat) (f : Side → Side) : (s.updSide g sd f).fresh = s.fresh := rfl
@[simp] theorem State.updSide_ids (s : State) (g sd : Nat) (f : Side → Side) : (s.updSide g sd f).ids = s.ids := rfl
@[simp] theorem State.updSide_frames (s : State) (g sd : Nat) (f : Side → Side) : (s.updSide g sd f).frames = s.frames := rfl
@[simp] theorem State.updSide_replies (s : State) (g sd : Nat) (f : Side → Side) : (s.updSide g sd f).replies = s.replies := rfl
@[simp] theorem State.updSide_caps (s : State) (g sd : Nat) (f : Side → Side) : (s.updSide g sd f).caps = s.caps := rfl
@[simp] theorem State.updSide_msgs (s : State) (g sd : Nat) (f : Side → Side) : (s.updSide g sd f).msgs = s.msgs := rfl
@[simp] theorem State.updSide_rota (s : State) (g sd : Nat) (f : Side → Side) : (s.updSide g sd f).rota = s.rota := rfl
@[simp] theorem State.updSide_since (s : State) (g sd : Nat) (f : Side → Side) : (s.updSide g sd f).since = s.since := rfl

@[simp] theorem State.updCore_mem (s : State) (g sd : Nat) (f : SideCore → SideCore) : (s.updCore g sd f).mem = s.mem := rfl
@[simp] theorem State.updCore_tag (s : State) (g sd : Nat) (f : SideCore → SideCore) : (s.updCore g sd f).tag = s.tag := rfl
@[simp] theorem State.updCore_lines (s : State) (g sd : Nat) (f : SideCore → SideCore) : (s.updCore g sd f).lines = s.lines := rfl
@[simp] theorem State.updCore_owner (s : State) (g sd : Nat) (f : SideCore → SideCore) : (s.updCore g sd f).owner = s.owner := rfl
@[simp] theorem State.updCore_dirty (s : State) (g sd : Nat) (f : SideCore → SideCore) : (s.updCore g sd f).dirty = s.dirty := rfl
@[simp] theorem State.updCore_poison (s : State) (g sd : Nat) (f : SideCore → SideCore) : (s.updCore g sd f).poison = s.poison := rfl
@[simp] theorem State.updCore_pageCnt (s : State) (g sd : Nat) (f : SideCore → SideCore) : (s.updCore g sd f).pageCnt = s.pageCnt := rfl
@[simp] theorem State.updCore_ctxs (s : State) (g sd : Nat) (f : SideCore → SideCore) : (s.updCore g sd f).ctxs = s.ctxs := rfl
@[simp] theorem State.updCore_queues (s : State) (g sd : Nat) (f : SideCore → SideCore) : (s.updCore g sd f).queues = s.queues := rfl
@[simp] theorem State.updCore_tlbinv (s : State) (g sd : Nat) (f : SideCore → SideCore) : (s.updCore g sd f).tlbinv = s.tlbinv := rfl
@[simp] theorem State.updCore_mbox (s : State) (g sd : Nat) (f : SideCore → SideCore) : (s.updCore g sd f).mbox = s.mbox := rfl
@[simp] theorem State.updCore_power (s : State) (g sd : Nat) (f : SideCore → SideCore) : (s.updCore g sd f).power = s.power := rfl
@[simp] theorem State.updCore_dies (s : State) (g sd : Nat) (f : SideCore → SideCore) : (s.updCore g sd f).dies = s.dies := rfl
@[simp] theorem State.updCore_clusters (s : State) (g sd : Nat) (f : SideCore → SideCore) : (s.updCore g sd f).clusters = s.clusters := rfl
@[simp] theorem State.updCore_cores (s : State) (g sd : Nat) (f : SideCore → SideCore) : (s.updCore g sd f).cores = s.cores := rfl
@[simp] theorem State.updCore_objs (s : State) (g sd : Nat) (f : SideCore → SideCore) : (s.updCore g sd f).objs = s.objs := rfl
@[simp] theorem State.updCore_launches (s : State) (g sd : Nat) (f : SideCore → SideCore) : (s.updCore g sd f).launches = s.launches := rfl
@[simp] theorem State.updCore_blocks (s : State) (g sd : Nat) (f : SideCore → SideCore) : (s.updCore g sd f).blocks = s.blocks := rfl
@[simp] theorem State.updCore_recs (s : State) (g sd : Nat) (f : SideCore → SideCore) : (s.updCore g sd f).recs = s.recs := rfl
@[simp] theorem State.updCore_engs (s : State) (g sd : Nat) (f : SideCore → SideCore) : (s.updCore g sd f).engs = s.engs := rfl
@[simp] theorem State.updCore_walks (s : State) (g sd : Nat) (f : SideCore → SideCore) : (s.updCore g sd f).walks = s.walks := rfl
@[simp] theorem State.updCore_xlats (s : State) (g sd : Nat) (f : SideCore → SideCore) : (s.updCore g sd f).xlats = s.xlats := rfl
@[simp] theorem State.updCore_full (s : State) (g sd : Nat) (f : SideCore → SideCore) : (s.updCore g sd f).full = s.full := rfl
@[simp] theorem State.updCore_staged (s : State) (g sd : Nat) (f : SideCore → SideCore) : (s.updCore g sd f).staged = s.staged := rfl
@[simp] theorem State.updCore_updating (s : State) (g sd : Nat) (f : SideCore → SideCore) : (s.updCore g sd f).updating = s.updating := rfl
@[simp] theorem State.updCore_fwImage (s : State) (g sd : Nat) (f : SideCore → SideCore) : (s.updCore g sd f).fwImage = s.fwImage := rfl
@[simp] theorem State.updCore_time (s : State) (g sd : Nat) (f : SideCore → SideCore) : (s.updCore g sd f).time = s.time := rfl
@[simp] theorem State.updCore_agenda (s : State) (g sd : Nat) (f : SideCore → SideCore) : (s.updCore g sd f).agenda = s.agenda := rfl
@[simp] theorem State.updCore_issue (s : State) (g sd : Nat) (f : SideCore → SideCore) : (s.updCore g sd f).issue = s.issue := rfl
@[simp] theorem State.updCore_fresh (s : State) (g sd : Nat) (f : SideCore → SideCore) : (s.updCore g sd f).fresh = s.fresh := rfl
@[simp] theorem State.updCore_ids (s : State) (g sd : Nat) (f : SideCore → SideCore) : (s.updCore g sd f).ids = s.ids := rfl
@[simp] theorem State.updCore_frames (s : State) (g sd : Nat) (f : SideCore → SideCore) : (s.updCore g sd f).frames = s.frames := rfl
@[simp] theorem State.updCore_replies (s : State) (g sd : Nat) (f : SideCore → SideCore) : (s.updCore g sd f).replies = s.replies := rfl
@[simp] theorem State.updCore_caps (s : State) (g sd : Nat) (f : SideCore → SideCore) : (s.updCore g sd f).caps = s.caps := rfl
@[simp] theorem State.updCore_msgs (s : State) (g sd : Nat) (f : SideCore → SideCore) : (s.updCore g sd f).msgs = s.msgs := rfl
@[simp] theorem State.updCore_rota (s : State) (g sd : Nat) (f : SideCore → SideCore) : (s.updCore g sd f).rota = s.rota := rfl
@[simp] theorem State.updCore_since (s : State) (g sd : Nat) (f : SideCore → SideCore) : (s.updCore g sd f).since = s.since := rfl

@[simp] theorem define_mem (p : Site) (vs : List Val) (s : State) : (define p vs s).mem = s.mem := rfl
@[simp] theorem define_tag (p : Site) (vs : List Val) (s : State) : (define p vs s).tag = s.tag := rfl
@[simp] theorem define_lines (p : Site) (vs : List Val) (s : State) : (define p vs s).lines = s.lines := rfl
@[simp] theorem define_owner (p : Site) (vs : List Val) (s : State) : (define p vs s).owner = s.owner := rfl
@[simp] theorem define_dirty (p : Site) (vs : List Val) (s : State) : (define p vs s).dirty = s.dirty := rfl
@[simp] theorem define_poison (p : Site) (vs : List Val) (s : State) : (define p vs s).poison = s.poison := rfl
@[simp] theorem define_pageCnt (p : Site) (vs : List Val) (s : State) : (define p vs s).pageCnt = s.pageCnt := rfl
@[simp] theorem define_ctxs (p : Site) (vs : List Val) (s : State) : (define p vs s).ctxs = s.ctxs := rfl
@[simp] theorem define_queues (p : Site) (vs : List Val) (s : State) : (define p vs s).queues = s.queues := rfl
@[simp] theorem define_tlbinv (p : Site) (vs : List Val) (s : State) : (define p vs s).tlbinv = s.tlbinv := rfl
@[simp] theorem define_mbox (p : Site) (vs : List Val) (s : State) : (define p vs s).mbox = s.mbox := rfl
@[simp] theorem define_power (p : Site) (vs : List Val) (s : State) : (define p vs s).power = s.power := rfl
@[simp] theorem define_dies (p : Site) (vs : List Val) (s : State) : (define p vs s).dies = s.dies := rfl
@[simp] theorem define_clusters (p : Site) (vs : List Val) (s : State) : (define p vs s).clusters = s.clusters := rfl
@[simp] theorem define_cores (p : Site) (vs : List Val) (s : State) : (define p vs s).cores = s.cores := rfl
@[simp] theorem define_objs (p : Site) (vs : List Val) (s : State) : (define p vs s).objs = s.objs := rfl
@[simp] theorem define_launches (p : Site) (vs : List Val) (s : State) : (define p vs s).launches = s.launches := rfl
@[simp] theorem define_blocks (p : Site) (vs : List Val) (s : State) : (define p vs s).blocks = s.blocks := rfl
@[simp] theorem define_recs (p : Site) (vs : List Val) (s : State) : (define p vs s).recs = s.recs := rfl
@[simp] theorem define_engs (p : Site) (vs : List Val) (s : State) : (define p vs s).engs = s.engs := rfl
@[simp] theorem define_walks (p : Site) (vs : List Val) (s : State) : (define p vs s).walks = s.walks := rfl
@[simp] theorem define_xlats (p : Site) (vs : List Val) (s : State) : (define p vs s).xlats = s.xlats := rfl
@[simp] theorem define_full (p : Site) (vs : List Val) (s : State) : (define p vs s).full = s.full := rfl
@[simp] theorem define_staged (p : Site) (vs : List Val) (s : State) : (define p vs s).staged = s.staged := rfl
@[simp] theorem define_updating (p : Site) (vs : List Val) (s : State) : (define p vs s).updating = s.updating := rfl
@[simp] theorem define_fwImage (p : Site) (vs : List Val) (s : State) : (define p vs s).fwImage = s.fwImage := rfl
@[simp] theorem define_time (p : Site) (vs : List Val) (s : State) : (define p vs s).time = s.time := rfl
@[simp] theorem define_agenda (p : Site) (vs : List Val) (s : State) : (define p vs s).agenda = s.agenda := rfl
@[simp] theorem define_issue (p : Site) (vs : List Val) (s : State) : (define p vs s).issue = s.issue := rfl
@[simp] theorem define_fresh (p : Site) (vs : List Val) (s : State) : (define p vs s).fresh = s.fresh := rfl
@[simp] theorem define_ids (p : Site) (vs : List Val) (s : State) : (define p vs s).ids = s.ids := rfl
@[simp] theorem define_frames (p : Site) (vs : List Val) (s : State) : (define p vs s).frames = s.frames := rfl
@[simp] theorem define_replies (p : Site) (vs : List Val) (s : State) : (define p vs s).replies = s.replies := rfl
@[simp] theorem define_caps (p : Site) (vs : List Val) (s : State) : (define p vs s).caps = s.caps := rfl
@[simp] theorem define_msgs (p : Site) (vs : List Val) (s : State) : (define p vs s).msgs = s.msgs := rfl
@[simp] theorem define_rota (p : Site) (vs : List Val) (s : State) : (define p vs s).rota = s.rota := rfl
@[simp] theorem define_since (p : Site) (vs : List Val) (s : State) : (define p vs s).since = s.since := rfl

@[simp] theorem defineBits_mem (p : Site) (xs : List DWord) (s : State) : (defineBits p xs s).mem = s.mem := rfl
@[simp] theorem defineBits_tag (p : Site) (xs : List DWord) (s : State) : (defineBits p xs s).tag = s.tag := rfl
@[simp] theorem defineBits_lines (p : Site) (xs : List DWord) (s : State) : (defineBits p xs s).lines = s.lines := rfl
@[simp] theorem defineBits_owner (p : Site) (xs : List DWord) (s : State) : (defineBits p xs s).owner = s.owner := rfl
@[simp] theorem defineBits_dirty (p : Site) (xs : List DWord) (s : State) : (defineBits p xs s).dirty = s.dirty := rfl
@[simp] theorem defineBits_poison (p : Site) (xs : List DWord) (s : State) : (defineBits p xs s).poison = s.poison := rfl
@[simp] theorem defineBits_pageCnt (p : Site) (xs : List DWord) (s : State) : (defineBits p xs s).pageCnt = s.pageCnt := rfl
@[simp] theorem defineBits_ctxs (p : Site) (xs : List DWord) (s : State) : (defineBits p xs s).ctxs = s.ctxs := rfl
@[simp] theorem defineBits_queues (p : Site) (xs : List DWord) (s : State) : (defineBits p xs s).queues = s.queues := rfl
@[simp] theorem defineBits_tlbinv (p : Site) (xs : List DWord) (s : State) : (defineBits p xs s).tlbinv = s.tlbinv := rfl
@[simp] theorem defineBits_mbox (p : Site) (xs : List DWord) (s : State) : (defineBits p xs s).mbox = s.mbox := rfl
@[simp] theorem defineBits_power (p : Site) (xs : List DWord) (s : State) : (defineBits p xs s).power = s.power := rfl
@[simp] theorem defineBits_dies (p : Site) (xs : List DWord) (s : State) : (defineBits p xs s).dies = s.dies := rfl
@[simp] theorem defineBits_clusters (p : Site) (xs : List DWord) (s : State) : (defineBits p xs s).clusters = s.clusters := rfl
@[simp] theorem defineBits_cores (p : Site) (xs : List DWord) (s : State) : (defineBits p xs s).cores = s.cores := rfl
@[simp] theorem defineBits_objs (p : Site) (xs : List DWord) (s : State) : (defineBits p xs s).objs = s.objs := rfl
@[simp] theorem defineBits_launches (p : Site) (xs : List DWord) (s : State) : (defineBits p xs s).launches = s.launches := rfl
@[simp] theorem defineBits_blocks (p : Site) (xs : List DWord) (s : State) : (defineBits p xs s).blocks = s.blocks := rfl
@[simp] theorem defineBits_recs (p : Site) (xs : List DWord) (s : State) : (defineBits p xs s).recs = s.recs := rfl
@[simp] theorem defineBits_engs (p : Site) (xs : List DWord) (s : State) : (defineBits p xs s).engs = s.engs := rfl
@[simp] theorem defineBits_walks (p : Site) (xs : List DWord) (s : State) : (defineBits p xs s).walks = s.walks := rfl
@[simp] theorem defineBits_xlats (p : Site) (xs : List DWord) (s : State) : (defineBits p xs s).xlats = s.xlats := rfl
@[simp] theorem defineBits_full (p : Site) (xs : List DWord) (s : State) : (defineBits p xs s).full = s.full := rfl
@[simp] theorem defineBits_staged (p : Site) (xs : List DWord) (s : State) : (defineBits p xs s).staged = s.staged := rfl
@[simp] theorem defineBits_updating (p : Site) (xs : List DWord) (s : State) : (defineBits p xs s).updating = s.updating := rfl
@[simp] theorem defineBits_fwImage (p : Site) (xs : List DWord) (s : State) : (defineBits p xs s).fwImage = s.fwImage := rfl
@[simp] theorem defineBits_time (p : Site) (xs : List DWord) (s : State) : (defineBits p xs s).time = s.time := rfl
@[simp] theorem defineBits_agenda (p : Site) (xs : List DWord) (s : State) : (defineBits p xs s).agenda = s.agenda := rfl
@[simp] theorem defineBits_issue (p : Site) (xs : List DWord) (s : State) : (defineBits p xs s).issue = s.issue := rfl
@[simp] theorem defineBits_fresh (p : Site) (xs : List DWord) (s : State) : (defineBits p xs s).fresh = s.fresh := rfl
@[simp] theorem defineBits_ids (p : Site) (xs : List DWord) (s : State) : (defineBits p xs s).ids = s.ids := rfl
@[simp] theorem defineBits_frames (p : Site) (xs : List DWord) (s : State) : (defineBits p xs s).frames = s.frames := rfl
@[simp] theorem defineBits_replies (p : Site) (xs : List DWord) (s : State) : (defineBits p xs s).replies = s.replies := rfl
@[simp] theorem defineBits_caps (p : Site) (xs : List DWord) (s : State) : (defineBits p xs s).caps = s.caps := rfl
@[simp] theorem defineBits_msgs (p : Site) (xs : List DWord) (s : State) : (defineBits p xs s).msgs = s.msgs := rfl
@[simp] theorem defineBits_rota (p : Site) (xs : List DWord) (s : State) : (defineBits p xs s).rota = s.rota := rfl
@[simp] theorem defineBits_since (p : Site) (xs : List DWord) (s : State) : (defineBits p xs s).since = s.since := rfl

@[simp] theorem defineAll_mem (p : Site) (x : DWord) (s : State) : (defineAll p x s).mem = s.mem := rfl
@[simp] theorem defineAll_tag (p : Site) (x : DWord) (s : State) : (defineAll p x s).tag = s.tag := rfl
@[simp] theorem defineAll_lines (p : Site) (x : DWord) (s : State) : (defineAll p x s).lines = s.lines := rfl
@[simp] theorem defineAll_owner (p : Site) (x : DWord) (s : State) : (defineAll p x s).owner = s.owner := rfl
@[simp] theorem defineAll_dirty (p : Site) (x : DWord) (s : State) : (defineAll p x s).dirty = s.dirty := rfl
@[simp] theorem defineAll_poison (p : Site) (x : DWord) (s : State) : (defineAll p x s).poison = s.poison := rfl
@[simp] theorem defineAll_pageCnt (p : Site) (x : DWord) (s : State) : (defineAll p x s).pageCnt = s.pageCnt := rfl
@[simp] theorem defineAll_ctxs (p : Site) (x : DWord) (s : State) : (defineAll p x s).ctxs = s.ctxs := rfl
@[simp] theorem defineAll_queues (p : Site) (x : DWord) (s : State) : (defineAll p x s).queues = s.queues := rfl
@[simp] theorem defineAll_tlbinv (p : Site) (x : DWord) (s : State) : (defineAll p x s).tlbinv = s.tlbinv := rfl
@[simp] theorem defineAll_mbox (p : Site) (x : DWord) (s : State) : (defineAll p x s).mbox = s.mbox := rfl
@[simp] theorem defineAll_power (p : Site) (x : DWord) (s : State) : (defineAll p x s).power = s.power := rfl
@[simp] theorem defineAll_dies (p : Site) (x : DWord) (s : State) : (defineAll p x s).dies = s.dies := rfl
@[simp] theorem defineAll_clusters (p : Site) (x : DWord) (s : State) : (defineAll p x s).clusters = s.clusters := rfl
@[simp] theorem defineAll_cores (p : Site) (x : DWord) (s : State) : (defineAll p x s).cores = s.cores := rfl
@[simp] theorem defineAll_objs (p : Site) (x : DWord) (s : State) : (defineAll p x s).objs = s.objs := rfl
@[simp] theorem defineAll_launches (p : Site) (x : DWord) (s : State) : (defineAll p x s).launches = s.launches := rfl
@[simp] theorem defineAll_blocks (p : Site) (x : DWord) (s : State) : (defineAll p x s).blocks = s.blocks := rfl
@[simp] theorem defineAll_recs (p : Site) (x : DWord) (s : State) : (defineAll p x s).recs = s.recs := rfl
@[simp] theorem defineAll_engs (p : Site) (x : DWord) (s : State) : (defineAll p x s).engs = s.engs := rfl
@[simp] theorem defineAll_walks (p : Site) (x : DWord) (s : State) : (defineAll p x s).walks = s.walks := rfl
@[simp] theorem defineAll_xlats (p : Site) (x : DWord) (s : State) : (defineAll p x s).xlats = s.xlats := rfl
@[simp] theorem defineAll_full (p : Site) (x : DWord) (s : State) : (defineAll p x s).full = s.full := rfl
@[simp] theorem defineAll_staged (p : Site) (x : DWord) (s : State) : (defineAll p x s).staged = s.staged := rfl
@[simp] theorem defineAll_updating (p : Site) (x : DWord) (s : State) : (defineAll p x s).updating = s.updating := rfl
@[simp] theorem defineAll_fwImage (p : Site) (x : DWord) (s : State) : (defineAll p x s).fwImage = s.fwImage := rfl
@[simp] theorem defineAll_time (p : Site) (x : DWord) (s : State) : (defineAll p x s).time = s.time := rfl
@[simp] theorem defineAll_agenda (p : Site) (x : DWord) (s : State) : (defineAll p x s).agenda = s.agenda := rfl
@[simp] theorem defineAll_issue (p : Site) (x : DWord) (s : State) : (defineAll p x s).issue = s.issue := rfl
@[simp] theorem defineAll_fresh (p : Site) (x : DWord) (s : State) : (defineAll p x s).fresh = s.fresh := rfl
@[simp] theorem defineAll_ids (p : Site) (x : DWord) (s : State) : (defineAll p x s).ids = s.ids := rfl
@[simp] theorem defineAll_frames (p : Site) (x : DWord) (s : State) : (defineAll p x s).frames = s.frames := rfl
@[simp] theorem defineAll_replies (p : Site) (x : DWord) (s : State) : (defineAll p x s).replies = s.replies := rfl
@[simp] theorem defineAll_caps (p : Site) (x : DWord) (s : State) : (defineAll p x s).caps = s.caps := rfl
@[simp] theorem defineAll_msgs (p : Site) (x : DWord) (s : State) : (defineAll p x s).msgs = s.msgs := rfl
@[simp] theorem defineAll_rota (p : Site) (x : DWord) (s : State) : (defineAll p x s).rota = s.rota := rfl
@[simp] theorem defineAll_since (p : Site) (x : DWord) (s : State) : (defineAll p x s).since = s.since := rfl

@[simp] theorem advance_mem (p : Site) (s : State) : (advance p s).mem = s.mem := rfl
@[simp] theorem advance_tag (p : Site) (s : State) : (advance p s).tag = s.tag := rfl
@[simp] theorem advance_lines (p : Site) (s : State) : (advance p s).lines = s.lines := rfl
@[simp] theorem advance_owner (p : Site) (s : State) : (advance p s).owner = s.owner := rfl
@[simp] theorem advance_dirty (p : Site) (s : State) : (advance p s).dirty = s.dirty := rfl
@[simp] theorem advance_poison (p : Site) (s : State) : (advance p s).poison = s.poison := rfl
@[simp] theorem advance_pageCnt (p : Site) (s : State) : (advance p s).pageCnt = s.pageCnt := rfl
@[simp] theorem advance_ctxs (p : Site) (s : State) : (advance p s).ctxs = s.ctxs := rfl
@[simp] theorem advance_queues (p : Site) (s : State) : (advance p s).queues = s.queues := rfl
@[simp] theorem advance_tlbinv (p : Site) (s : State) : (advance p s).tlbinv = s.tlbinv := rfl
@[simp] theorem advance_mbox (p : Site) (s : State) : (advance p s).mbox = s.mbox := rfl
@[simp] theorem advance_power (p : Site) (s : State) : (advance p s).power = s.power := rfl
@[simp] theorem advance_dies (p : Site) (s : State) : (advance p s).dies = s.dies := rfl
@[simp] theorem advance_clusters (p : Site) (s : State) : (advance p s).clusters = s.clusters := rfl
@[simp] theorem advance_cores (p : Site) (s : State) : (advance p s).cores = s.cores := rfl
@[simp] theorem advance_objs (p : Site) (s : State) : (advance p s).objs = s.objs := rfl
@[simp] theorem advance_launches (p : Site) (s : State) : (advance p s).launches = s.launches := rfl
@[simp] theorem advance_blocks (p : Site) (s : State) : (advance p s).blocks = s.blocks := rfl
@[simp] theorem advance_recs (p : Site) (s : State) : (advance p s).recs = s.recs := rfl
@[simp] theorem advance_engs (p : Site) (s : State) : (advance p s).engs = s.engs := rfl
@[simp] theorem advance_walks (p : Site) (s : State) : (advance p s).walks = s.walks := rfl
@[simp] theorem advance_xlats (p : Site) (s : State) : (advance p s).xlats = s.xlats := rfl
@[simp] theorem advance_full (p : Site) (s : State) : (advance p s).full = s.full := rfl
@[simp] theorem advance_staged (p : Site) (s : State) : (advance p s).staged = s.staged := rfl
@[simp] theorem advance_updating (p : Site) (s : State) : (advance p s).updating = s.updating := rfl
@[simp] theorem advance_fwImage (p : Site) (s : State) : (advance p s).fwImage = s.fwImage := rfl
@[simp] theorem advance_time (p : Site) (s : State) : (advance p s).time = s.time := rfl
@[simp] theorem advance_agenda (p : Site) (s : State) : (advance p s).agenda = s.agenda := rfl
@[simp] theorem advance_issue (p : Site) (s : State) : (advance p s).issue = s.issue := rfl
@[simp] theorem advance_fresh (p : Site) (s : State) : (advance p s).fresh = s.fresh := rfl
@[simp] theorem advance_ids (p : Site) (s : State) : (advance p s).ids = s.ids := rfl
@[simp] theorem advance_frames (p : Site) (s : State) : (advance p s).frames = s.frames := rfl
@[simp] theorem advance_replies (p : Site) (s : State) : (advance p s).replies = s.replies := rfl
@[simp] theorem advance_caps (p : Site) (s : State) : (advance p s).caps = s.caps := rfl
@[simp] theorem advance_msgs (p : Site) (s : State) : (advance p s).msgs = s.msgs := rfl
@[simp] theorem advance_rota (p : Site) (s : State) : (advance p s).rota = s.rota := rfl
@[simp] theorem advance_since (p : Site) (s : State) : (advance p s).since = s.since := rfl

@[simp] theorem raiseFlags_mem (p : Site) (evs : List (Nat × Flags)) (s : State) : (raiseFlags p evs s).mem = s.mem := rfl
@[simp] theorem raiseFlags_tag (p : Site) (evs : List (Nat × Flags)) (s : State) : (raiseFlags p evs s).tag = s.tag := rfl
@[simp] theorem raiseFlags_lines (p : Site) (evs : List (Nat × Flags)) (s : State) : (raiseFlags p evs s).lines = s.lines := rfl
@[simp] theorem raiseFlags_owner (p : Site) (evs : List (Nat × Flags)) (s : State) : (raiseFlags p evs s).owner = s.owner := rfl
@[simp] theorem raiseFlags_dirty (p : Site) (evs : List (Nat × Flags)) (s : State) : (raiseFlags p evs s).dirty = s.dirty := rfl
@[simp] theorem raiseFlags_poison (p : Site) (evs : List (Nat × Flags)) (s : State) : (raiseFlags p evs s).poison = s.poison := rfl
@[simp] theorem raiseFlags_pageCnt (p : Site) (evs : List (Nat × Flags)) (s : State) : (raiseFlags p evs s).pageCnt = s.pageCnt := rfl
@[simp] theorem raiseFlags_ctxs (p : Site) (evs : List (Nat × Flags)) (s : State) : (raiseFlags p evs s).ctxs = s.ctxs := rfl
@[simp] theorem raiseFlags_queues (p : Site) (evs : List (Nat × Flags)) (s : State) : (raiseFlags p evs s).queues = s.queues := rfl
@[simp] theorem raiseFlags_tlbinv (p : Site) (evs : List (Nat × Flags)) (s : State) : (raiseFlags p evs s).tlbinv = s.tlbinv := rfl
@[simp] theorem raiseFlags_mbox (p : Site) (evs : List (Nat × Flags)) (s : State) : (raiseFlags p evs s).mbox = s.mbox := rfl
@[simp] theorem raiseFlags_power (p : Site) (evs : List (Nat × Flags)) (s : State) : (raiseFlags p evs s).power = s.power := rfl
@[simp] theorem raiseFlags_dies (p : Site) (evs : List (Nat × Flags)) (s : State) : (raiseFlags p evs s).dies = s.dies := rfl
@[simp] theorem raiseFlags_clusters (p : Site) (evs : List (Nat × Flags)) (s : State) : (raiseFlags p evs s).clusters = s.clusters := rfl
@[simp] theorem raiseFlags_cores (p : Site) (evs : List (Nat × Flags)) (s : State) : (raiseFlags p evs s).cores = s.cores := rfl
@[simp] theorem raiseFlags_objs (p : Site) (evs : List (Nat × Flags)) (s : State) : (raiseFlags p evs s).objs = s.objs := rfl
@[simp] theorem raiseFlags_launches (p : Site) (evs : List (Nat × Flags)) (s : State) : (raiseFlags p evs s).launches = s.launches := rfl
@[simp] theorem raiseFlags_blocks (p : Site) (evs : List (Nat × Flags)) (s : State) : (raiseFlags p evs s).blocks = s.blocks := rfl
@[simp] theorem raiseFlags_recs (p : Site) (evs : List (Nat × Flags)) (s : State) : (raiseFlags p evs s).recs = s.recs := rfl
@[simp] theorem raiseFlags_engs (p : Site) (evs : List (Nat × Flags)) (s : State) : (raiseFlags p evs s).engs = s.engs := rfl
@[simp] theorem raiseFlags_walks (p : Site) (evs : List (Nat × Flags)) (s : State) : (raiseFlags p evs s).walks = s.walks := rfl
@[simp] theorem raiseFlags_xlats (p : Site) (evs : List (Nat × Flags)) (s : State) : (raiseFlags p evs s).xlats = s.xlats := rfl
@[simp] theorem raiseFlags_full (p : Site) (evs : List (Nat × Flags)) (s : State) : (raiseFlags p evs s).full = s.full := rfl
@[simp] theorem raiseFlags_staged (p : Site) (evs : List (Nat × Flags)) (s : State) : (raiseFlags p evs s).staged = s.staged := rfl
@[simp] theorem raiseFlags_updating (p : Site) (evs : List (Nat × Flags)) (s : State) : (raiseFlags p evs s).updating = s.updating := rfl
@[simp] theorem raiseFlags_fwImage (p : Site) (evs : List (Nat × Flags)) (s : State) : (raiseFlags p evs s).fwImage = s.fwImage := rfl
@[simp] theorem raiseFlags_time (p : Site) (evs : List (Nat × Flags)) (s : State) : (raiseFlags p evs s).time = s.time := rfl
@[simp] theorem raiseFlags_agenda (p : Site) (evs : List (Nat × Flags)) (s : State) : (raiseFlags p evs s).agenda = s.agenda := rfl
@[simp] theorem raiseFlags_issue (p : Site) (evs : List (Nat × Flags)) (s : State) : (raiseFlags p evs s).issue = s.issue := rfl
@[simp] theorem raiseFlags_fresh (p : Site) (evs : List (Nat × Flags)) (s : State) : (raiseFlags p evs s).fresh = s.fresh := rfl
@[simp] theorem raiseFlags_ids (p : Site) (evs : List (Nat × Flags)) (s : State) : (raiseFlags p evs s).ids = s.ids := rfl
@[simp] theorem raiseFlags_frames (p : Site) (evs : List (Nat × Flags)) (s : State) : (raiseFlags p evs s).frames = s.frames := rfl
@[simp] theorem raiseFlags_replies (p : Site) (evs : List (Nat × Flags)) (s : State) : (raiseFlags p evs s).replies = s.replies := rfl
@[simp] theorem raiseFlags_caps (p : Site) (evs : List (Nat × Flags)) (s : State) : (raiseFlags p evs s).caps = s.caps := rfl
@[simp] theorem raiseFlags_msgs (p : Site) (evs : List (Nat × Flags)) (s : State) : (raiseFlags p evs s).msgs = s.msgs := rfl
@[simp] theorem raiseFlags_rota (p : Site) (evs : List (Nat × Flags)) (s : State) : (raiseFlags p evs s).rota = s.rota := rfl
@[simp] theorem raiseFlags_since (p : Site) (evs : List (Nat × Flags)) (s : State) : (raiseFlags p evs s).since = s.since := rfl

@[simp] theorem gate_mem (p : Site) (ops : List GOp) (s : State) : (gate p ops s).mem = s.mem := rfl
@[simp] theorem gate_tag (p : Site) (ops : List GOp) (s : State) : (gate p ops s).tag = s.tag := rfl
@[simp] theorem gate_lines (p : Site) (ops : List GOp) (s : State) : (gate p ops s).lines = s.lines := rfl
@[simp] theorem gate_owner (p : Site) (ops : List GOp) (s : State) : (gate p ops s).owner = s.owner := rfl
@[simp] theorem gate_dirty (p : Site) (ops : List GOp) (s : State) : (gate p ops s).dirty = s.dirty := rfl
@[simp] theorem gate_poison (p : Site) (ops : List GOp) (s : State) : (gate p ops s).poison = s.poison := rfl
@[simp] theorem gate_pageCnt (p : Site) (ops : List GOp) (s : State) : (gate p ops s).pageCnt = s.pageCnt := rfl
@[simp] theorem gate_ctxs (p : Site) (ops : List GOp) (s : State) : (gate p ops s).ctxs = s.ctxs := rfl
@[simp] theorem gate_queues (p : Site) (ops : List GOp) (s : State) : (gate p ops s).queues = s.queues := rfl
@[simp] theorem gate_tlbinv (p : Site) (ops : List GOp) (s : State) : (gate p ops s).tlbinv = s.tlbinv := rfl
@[simp] theorem gate_mbox (p : Site) (ops : List GOp) (s : State) : (gate p ops s).mbox = s.mbox := rfl
@[simp] theorem gate_power (p : Site) (ops : List GOp) (s : State) : (gate p ops s).power = s.power := rfl
@[simp] theorem gate_dies (p : Site) (ops : List GOp) (s : State) : (gate p ops s).dies = s.dies := rfl
@[simp] theorem gate_clusters (p : Site) (ops : List GOp) (s : State) : (gate p ops s).clusters = s.clusters := rfl
@[simp] theorem gate_cores (p : Site) (ops : List GOp) (s : State) : (gate p ops s).cores = s.cores := rfl
@[simp] theorem gate_objs (p : Site) (ops : List GOp) (s : State) : (gate p ops s).objs = s.objs := rfl
@[simp] theorem gate_launches (p : Site) (ops : List GOp) (s : State) : (gate p ops s).launches = s.launches := rfl
@[simp] theorem gate_blocks (p : Site) (ops : List GOp) (s : State) : (gate p ops s).blocks = s.blocks := rfl
@[simp] theorem gate_recs (p : Site) (ops : List GOp) (s : State) : (gate p ops s).recs = s.recs := rfl
@[simp] theorem gate_engs (p : Site) (ops : List GOp) (s : State) : (gate p ops s).engs = s.engs := rfl
@[simp] theorem gate_walks (p : Site) (ops : List GOp) (s : State) : (gate p ops s).walks = s.walks := rfl
@[simp] theorem gate_xlats (p : Site) (ops : List GOp) (s : State) : (gate p ops s).xlats = s.xlats := rfl
@[simp] theorem gate_full (p : Site) (ops : List GOp) (s : State) : (gate p ops s).full = s.full := rfl
@[simp] theorem gate_staged (p : Site) (ops : List GOp) (s : State) : (gate p ops s).staged = s.staged := rfl
@[simp] theorem gate_updating (p : Site) (ops : List GOp) (s : State) : (gate p ops s).updating = s.updating := rfl
@[simp] theorem gate_fwImage (p : Site) (ops : List GOp) (s : State) : (gate p ops s).fwImage = s.fwImage := rfl
@[simp] theorem gate_time (p : Site) (ops : List GOp) (s : State) : (gate p ops s).time = s.time := rfl
@[simp] theorem gate_agenda (p : Site) (ops : List GOp) (s : State) : (gate p ops s).agenda = s.agenda := rfl
@[simp] theorem gate_issue (p : Site) (ops : List GOp) (s : State) : (gate p ops s).issue = s.issue := rfl
@[simp] theorem gate_fresh (p : Site) (ops : List GOp) (s : State) : (gate p ops s).fresh = s.fresh := rfl
@[simp] theorem gate_ids (p : Site) (ops : List GOp) (s : State) : (gate p ops s).ids = s.ids := rfl
@[simp] theorem gate_frames (p : Site) (ops : List GOp) (s : State) : (gate p ops s).frames = s.frames := rfl
@[simp] theorem gate_replies (p : Site) (ops : List GOp) (s : State) : (gate p ops s).replies = s.replies := rfl
@[simp] theorem gate_caps (p : Site) (ops : List GOp) (s : State) : (gate p ops s).caps = s.caps := rfl
@[simp] theorem gate_msgs (p : Site) (ops : List GOp) (s : State) : (gate p ops s).msgs = s.msgs := rfl
@[simp] theorem gate_rota (p : Site) (ops : List GOp) (s : State) : (gate p ops s).rota = s.rota := rfl
@[simp] theorem gate_since (p : Site) (ops : List GOp) (s : State) : (gate p ops s).since = s.since := rfl

@[simp] theorem setPend_mem (p : Site) (q : Pend) (s : State) : (setPend p q s).mem = s.mem := rfl
@[simp] theorem setPend_tag (p : Site) (q : Pend) (s : State) : (setPend p q s).tag = s.tag := rfl
@[simp] theorem setPend_lines (p : Site) (q : Pend) (s : State) : (setPend p q s).lines = s.lines := rfl
@[simp] theorem setPend_owner (p : Site) (q : Pend) (s : State) : (setPend p q s).owner = s.owner := rfl
@[simp] theorem setPend_dirty (p : Site) (q : Pend) (s : State) : (setPend p q s).dirty = s.dirty := rfl
@[simp] theorem setPend_poison (p : Site) (q : Pend) (s : State) : (setPend p q s).poison = s.poison := rfl
@[simp] theorem setPend_pageCnt (p : Site) (q : Pend) (s : State) : (setPend p q s).pageCnt = s.pageCnt := rfl
@[simp] theorem setPend_ctxs (p : Site) (q : Pend) (s : State) : (setPend p q s).ctxs = s.ctxs := rfl
@[simp] theorem setPend_queues (p : Site) (q : Pend) (s : State) : (setPend p q s).queues = s.queues := rfl
@[simp] theorem setPend_tlbinv (p : Site) (q : Pend) (s : State) : (setPend p q s).tlbinv = s.tlbinv := rfl
@[simp] theorem setPend_mbox (p : Site) (q : Pend) (s : State) : (setPend p q s).mbox = s.mbox := rfl
@[simp] theorem setPend_power (p : Site) (q : Pend) (s : State) : (setPend p q s).power = s.power := rfl
@[simp] theorem setPend_dies (p : Site) (q : Pend) (s : State) : (setPend p q s).dies = s.dies := rfl
@[simp] theorem setPend_clusters (p : Site) (q : Pend) (s : State) : (setPend p q s).clusters = s.clusters := rfl
@[simp] theorem setPend_cores (p : Site) (q : Pend) (s : State) : (setPend p q s).cores = s.cores := rfl
@[simp] theorem setPend_objs (p : Site) (q : Pend) (s : State) : (setPend p q s).objs = s.objs := rfl
@[simp] theorem setPend_launches (p : Site) (q : Pend) (s : State) : (setPend p q s).launches = s.launches := rfl
@[simp] theorem setPend_blocks (p : Site) (q : Pend) (s : State) : (setPend p q s).blocks = s.blocks := rfl
@[simp] theorem setPend_recs (p : Site) (q : Pend) (s : State) : (setPend p q s).recs = s.recs := rfl
@[simp] theorem setPend_engs (p : Site) (q : Pend) (s : State) : (setPend p q s).engs = s.engs := rfl
@[simp] theorem setPend_walks (p : Site) (q : Pend) (s : State) : (setPend p q s).walks = s.walks := rfl
@[simp] theorem setPend_xlats (p : Site) (q : Pend) (s : State) : (setPend p q s).xlats = s.xlats := rfl
@[simp] theorem setPend_full (p : Site) (q : Pend) (s : State) : (setPend p q s).full = s.full := rfl
@[simp] theorem setPend_staged (p : Site) (q : Pend) (s : State) : (setPend p q s).staged = s.staged := rfl
@[simp] theorem setPend_updating (p : Site) (q : Pend) (s : State) : (setPend p q s).updating = s.updating := rfl
@[simp] theorem setPend_fwImage (p : Site) (q : Pend) (s : State) : (setPend p q s).fwImage = s.fwImage := rfl
@[simp] theorem setPend_time (p : Site) (q : Pend) (s : State) : (setPend p q s).time = s.time := rfl
@[simp] theorem setPend_agenda (p : Site) (q : Pend) (s : State) : (setPend p q s).agenda = s.agenda := rfl
@[simp] theorem setPend_issue (p : Site) (q : Pend) (s : State) : (setPend p q s).issue = s.issue := rfl
@[simp] theorem setPend_fresh (p : Site) (q : Pend) (s : State) : (setPend p q s).fresh = s.fresh := rfl
@[simp] theorem setPend_ids (p : Site) (q : Pend) (s : State) : (setPend p q s).ids = s.ids := rfl
@[simp] theorem setPend_frames (p : Site) (q : Pend) (s : State) : (setPend p q s).frames = s.frames := rfl
@[simp] theorem setPend_replies (p : Site) (q : Pend) (s : State) : (setPend p q s).replies = s.replies := rfl
@[simp] theorem setPend_caps (p : Site) (q : Pend) (s : State) : (setPend p q s).caps = s.caps := rfl
@[simp] theorem setPend_msgs (p : Site) (q : Pend) (s : State) : (setPend p q s).msgs = s.msgs := rfl
@[simp] theorem setPend_rota (p : Site) (q : Pend) (s : State) : (setPend p q s).rota = s.rota := rfl
@[simp] theorem setPend_since (p : Site) (q : Pend) (s : State) : (setPend p q s).since = s.since := rfl

@[simp] theorem waitFor_mem (p : Site) (w : Wait) (s : State) : (waitFor p w s).mem = s.mem := rfl
@[simp] theorem waitFor_tag (p : Site) (w : Wait) (s : State) : (waitFor p w s).tag = s.tag := rfl
@[simp] theorem waitFor_lines (p : Site) (w : Wait) (s : State) : (waitFor p w s).lines = s.lines := rfl
@[simp] theorem waitFor_owner (p : Site) (w : Wait) (s : State) : (waitFor p w s).owner = s.owner := rfl
@[simp] theorem waitFor_dirty (p : Site) (w : Wait) (s : State) : (waitFor p w s).dirty = s.dirty := rfl
@[simp] theorem waitFor_poison (p : Site) (w : Wait) (s : State) : (waitFor p w s).poison = s.poison := rfl
@[simp] theorem waitFor_pageCnt (p : Site) (w : Wait) (s : State) : (waitFor p w s).pageCnt = s.pageCnt := rfl
@[simp] theorem waitFor_ctxs (p : Site) (w : Wait) (s : State) : (waitFor p w s).ctxs = s.ctxs := rfl
@[simp] theorem waitFor_queues (p : Site) (w : Wait) (s : State) : (waitFor p w s).queues = s.queues := rfl
@[simp] theorem waitFor_tlbinv (p : Site) (w : Wait) (s : State) : (waitFor p w s).tlbinv = s.tlbinv := rfl
@[simp] theorem waitFor_mbox (p : Site) (w : Wait) (s : State) : (waitFor p w s).mbox = s.mbox := rfl
@[simp] theorem waitFor_power (p : Site) (w : Wait) (s : State) : (waitFor p w s).power = s.power := rfl
@[simp] theorem waitFor_dies (p : Site) (w : Wait) (s : State) : (waitFor p w s).dies = s.dies := rfl
@[simp] theorem waitFor_clusters (p : Site) (w : Wait) (s : State) : (waitFor p w s).clusters = s.clusters := rfl
@[simp] theorem waitFor_cores (p : Site) (w : Wait) (s : State) : (waitFor p w s).cores = s.cores := rfl
@[simp] theorem waitFor_objs (p : Site) (w : Wait) (s : State) : (waitFor p w s).objs = s.objs := rfl
@[simp] theorem waitFor_launches (p : Site) (w : Wait) (s : State) : (waitFor p w s).launches = s.launches := rfl
@[simp] theorem waitFor_blocks (p : Site) (w : Wait) (s : State) : (waitFor p w s).blocks = s.blocks := rfl
@[simp] theorem waitFor_recs (p : Site) (w : Wait) (s : State) : (waitFor p w s).recs = s.recs := rfl
@[simp] theorem waitFor_engs (p : Site) (w : Wait) (s : State) : (waitFor p w s).engs = s.engs := rfl
@[simp] theorem waitFor_walks (p : Site) (w : Wait) (s : State) : (waitFor p w s).walks = s.walks := rfl
@[simp] theorem waitFor_xlats (p : Site) (w : Wait) (s : State) : (waitFor p w s).xlats = s.xlats := rfl
@[simp] theorem waitFor_full (p : Site) (w : Wait) (s : State) : (waitFor p w s).full = s.full := rfl
@[simp] theorem waitFor_staged (p : Site) (w : Wait) (s : State) : (waitFor p w s).staged = s.staged := rfl
@[simp] theorem waitFor_updating (p : Site) (w : Wait) (s : State) : (waitFor p w s).updating = s.updating := rfl
@[simp] theorem waitFor_fwImage (p : Site) (w : Wait) (s : State) : (waitFor p w s).fwImage = s.fwImage := rfl
@[simp] theorem waitFor_time (p : Site) (w : Wait) (s : State) : (waitFor p w s).time = s.time := rfl
@[simp] theorem waitFor_agenda (p : Site) (w : Wait) (s : State) : (waitFor p w s).agenda = s.agenda := rfl
@[simp] theorem waitFor_issue (p : Site) (w : Wait) (s : State) : (waitFor p w s).issue = s.issue := rfl
@[simp] theorem waitFor_fresh (p : Site) (w : Wait) (s : State) : (waitFor p w s).fresh = s.fresh := rfl
@[simp] theorem waitFor_ids (p : Site) (w : Wait) (s : State) : (waitFor p w s).ids = s.ids := rfl
@[simp] theorem waitFor_frames (p : Site) (w : Wait) (s : State) : (waitFor p w s).frames = s.frames := rfl
@[simp] theorem waitFor_replies (p : Site) (w : Wait) (s : State) : (waitFor p w s).replies = s.replies := rfl
@[simp] theorem waitFor_caps (p : Site) (w : Wait) (s : State) : (waitFor p w s).caps = s.caps := rfl
@[simp] theorem waitFor_msgs (p : Site) (w : Wait) (s : State) : (waitFor p w s).msgs = s.msgs := rfl
@[simp] theorem waitFor_rota (p : Site) (w : Wait) (s : State) : (waitFor p w s).rota = s.rota := rfl
@[simp] theorem waitFor_since (p : Site) (w : Wait) (s : State) : (waitFor p w s).since = s.since := rfl

@[simp] theorem wake_mem (g : Nat) (s : State) : (wake g s).mem = s.mem := rfl
@[simp] theorem wake_tag (g : Nat) (s : State) : (wake g s).tag = s.tag := rfl
@[simp] theorem wake_lines (g : Nat) (s : State) : (wake g s).lines = s.lines := rfl
@[simp] theorem wake_owner (g : Nat) (s : State) : (wake g s).owner = s.owner := rfl
@[simp] theorem wake_dirty (g : Nat) (s : State) : (wake g s).dirty = s.dirty := rfl
@[simp] theorem wake_poison (g : Nat) (s : State) : (wake g s).poison = s.poison := rfl
@[simp] theorem wake_pageCnt (g : Nat) (s : State) : (wake g s).pageCnt = s.pageCnt := rfl
@[simp] theorem wake_ctxs (g : Nat) (s : State) : (wake g s).ctxs = s.ctxs := rfl
@[simp] theorem wake_queues (g : Nat) (s : State) : (wake g s).queues = s.queues := rfl
@[simp] theorem wake_tlbinv (g : Nat) (s : State) : (wake g s).tlbinv = s.tlbinv := rfl
@[simp] theorem wake_mbox (g : Nat) (s : State) : (wake g s).mbox = s.mbox := rfl
@[simp] theorem wake_power (g : Nat) (s : State) : (wake g s).power = s.power := rfl
@[simp] theorem wake_dies (g : Nat) (s : State) : (wake g s).dies = s.dies := rfl
@[simp] theorem wake_clusters (g : Nat) (s : State) : (wake g s).clusters = s.clusters := rfl
@[simp] theorem wake_cores (g : Nat) (s : State) : (wake g s).cores = s.cores := rfl
@[simp] theorem wake_objs (g : Nat) (s : State) : (wake g s).objs = s.objs := rfl
@[simp] theorem wake_launches (g : Nat) (s : State) : (wake g s).launches = s.launches := rfl
@[simp] theorem wake_blocks (g : Nat) (s : State) : (wake g s).blocks = s.blocks := rfl
@[simp] theorem wake_recs (g : Nat) (s : State) : (wake g s).recs = s.recs := rfl
@[simp] theorem wake_engs (g : Nat) (s : State) : (wake g s).engs = s.engs := rfl
@[simp] theorem wake_walks (g : Nat) (s : State) : (wake g s).walks = s.walks := rfl
@[simp] theorem wake_xlats (g : Nat) (s : State) : (wake g s).xlats = s.xlats := rfl
@[simp] theorem wake_full (g : Nat) (s : State) : (wake g s).full = s.full := rfl
@[simp] theorem wake_staged (g : Nat) (s : State) : (wake g s).staged = s.staged := rfl
@[simp] theorem wake_updating (g : Nat) (s : State) : (wake g s).updating = s.updating := rfl
@[simp] theorem wake_fwImage (g : Nat) (s : State) : (wake g s).fwImage = s.fwImage := rfl
@[simp] theorem wake_time (g : Nat) (s : State) : (wake g s).time = s.time := rfl
@[simp] theorem wake_agenda (g : Nat) (s : State) : (wake g s).agenda = s.agenda := rfl
@[simp] theorem wake_issue (g : Nat) (s : State) : (wake g s).issue = s.issue := rfl
@[simp] theorem wake_fresh (g : Nat) (s : State) : (wake g s).fresh = s.fresh := rfl
@[simp] theorem wake_ids (g : Nat) (s : State) : (wake g s).ids = s.ids := rfl
@[simp] theorem wake_frames (g : Nat) (s : State) : (wake g s).frames = s.frames := rfl
@[simp] theorem wake_replies (g : Nat) (s : State) : (wake g s).replies = s.replies := rfl
@[simp] theorem wake_caps (g : Nat) (s : State) : (wake g s).caps = s.caps := rfl
@[simp] theorem wake_msgs (g : Nat) (s : State) : (wake g s).msgs = s.msgs := rfl
@[simp] theorem wake_rota (g : Nat) (s : State) : (wake g s).rota = s.rota := rfl
@[simp] theorem wake_since (g : Nat) (s : State) : (wake g s).since = s.since := rfl

@[simp] theorem State.tick_mem (s : State) : (s.tick).mem = s.mem := rfl
@[simp] theorem State.tick_tag (s : State) : (s.tick).tag = s.tag := rfl
@[simp] theorem State.tick_lines (s : State) : (s.tick).lines = s.lines := rfl
@[simp] theorem State.tick_owner (s : State) : (s.tick).owner = s.owner := rfl
@[simp] theorem State.tick_dirty (s : State) : (s.tick).dirty = s.dirty := rfl
@[simp] theorem State.tick_poison (s : State) : (s.tick).poison = s.poison := rfl
@[simp] theorem State.tick_pageCnt (s : State) : (s.tick).pageCnt = s.pageCnt := rfl
@[simp] theorem State.tick_ctxs (s : State) : (s.tick).ctxs = s.ctxs := rfl
@[simp] theorem State.tick_queues (s : State) : (s.tick).queues = s.queues := rfl
@[simp] theorem State.tick_tlbinv (s : State) : (s.tick).tlbinv = s.tlbinv := rfl
@[simp] theorem State.tick_mbox (s : State) : (s.tick).mbox = s.mbox := rfl
@[simp] theorem State.tick_power (s : State) : (s.tick).power = s.power := rfl
@[simp] theorem State.tick_dies (s : State) : (s.tick).dies = s.dies := rfl
@[simp] theorem State.tick_clusters (s : State) : (s.tick).clusters = s.clusters := rfl
@[simp] theorem State.tick_cores (s : State) : (s.tick).cores = s.cores := rfl
@[simp] theorem State.tick_objs (s : State) : (s.tick).objs = s.objs := rfl
@[simp] theorem State.tick_launches (s : State) : (s.tick).launches = s.launches := rfl
@[simp] theorem State.tick_blocks (s : State) : (s.tick).blocks = s.blocks := rfl
@[simp] theorem State.tick_groups (s : State) : (s.tick).groups = s.groups := rfl
@[simp] theorem State.tick_recs (s : State) : (s.tick).recs = s.recs := rfl
@[simp] theorem State.tick_engs (s : State) : (s.tick).engs = s.engs := rfl
@[simp] theorem State.tick_walks (s : State) : (s.tick).walks = s.walks := rfl
@[simp] theorem State.tick_xlats (s : State) : (s.tick).xlats = s.xlats := rfl
@[simp] theorem State.tick_full (s : State) : (s.tick).full = s.full := rfl
@[simp] theorem State.tick_staged (s : State) : (s.tick).staged = s.staged := rfl
@[simp] theorem State.tick_updating (s : State) : (s.tick).updating = s.updating := rfl
@[simp] theorem State.tick_fwImage (s : State) : (s.tick).fwImage = s.fwImage := rfl
@[simp] theorem State.tick_time (s : State) : (s.tick).time = s.time := rfl
@[simp] theorem State.tick_agenda (s : State) : (s.tick).agenda = s.agenda := rfl
@[simp] theorem State.tick_issue (s : State) : (s.tick).issue = s.issue := rfl
@[simp] theorem State.tick_ids (s : State) : (s.tick).ids = s.ids := rfl
@[simp] theorem State.tick_frames (s : State) : (s.tick).frames = s.frames := rfl
@[simp] theorem State.tick_replies (s : State) : (s.tick).replies = s.replies := rfl
@[simp] theorem State.tick_caps (s : State) : (s.tick).caps = s.caps := rfl
@[simp] theorem State.tick_msgs (s : State) : (s.tick).msgs = s.msgs := rfl
@[simp] theorem State.tick_rota (s : State) : (s.tick).rota = s.rota := rfl
@[simp] theorem State.tick_since (s : State) : (s.tick).since = s.since := rfl

@[simp] theorem setTag_mem (a : Nat) (t : Bool) (s : State) : (setTag a t s).mem = s.mem := rfl
@[simp] theorem setTag_lines (a : Nat) (t : Bool) (s : State) : (setTag a t s).lines = s.lines := rfl
@[simp] theorem setTag_owner (a : Nat) (t : Bool) (s : State) : (setTag a t s).owner = s.owner := rfl
@[simp] theorem setTag_dirty (a : Nat) (t : Bool) (s : State) : (setTag a t s).dirty = s.dirty := rfl
@[simp] theorem setTag_poison (a : Nat) (t : Bool) (s : State) : (setTag a t s).poison = s.poison := rfl
@[simp] theorem setTag_pageCnt (a : Nat) (t : Bool) (s : State) : (setTag a t s).pageCnt = s.pageCnt := rfl
@[simp] theorem setTag_ctxs (a : Nat) (t : Bool) (s : State) : (setTag a t s).ctxs = s.ctxs := rfl
@[simp] theorem setTag_queues (a : Nat) (t : Bool) (s : State) : (setTag a t s).queues = s.queues := rfl
@[simp] theorem setTag_tlbinv (a : Nat) (t : Bool) (s : State) : (setTag a t s).tlbinv = s.tlbinv := rfl
@[simp] theorem setTag_mbox (a : Nat) (t : Bool) (s : State) : (setTag a t s).mbox = s.mbox := rfl
@[simp] theorem setTag_power (a : Nat) (t : Bool) (s : State) : (setTag a t s).power = s.power := rfl
@[simp] theorem setTag_dies (a : Nat) (t : Bool) (s : State) : (setTag a t s).dies = s.dies := rfl
@[simp] theorem setTag_clusters (a : Nat) (t : Bool) (s : State) : (setTag a t s).clusters = s.clusters := rfl
@[simp] theorem setTag_cores (a : Nat) (t : Bool) (s : State) : (setTag a t s).cores = s.cores := rfl
@[simp] theorem setTag_objs (a : Nat) (t : Bool) (s : State) : (setTag a t s).objs = s.objs := rfl
@[simp] theorem setTag_launches (a : Nat) (t : Bool) (s : State) : (setTag a t s).launches = s.launches := rfl
@[simp] theorem setTag_blocks (a : Nat) (t : Bool) (s : State) : (setTag a t s).blocks = s.blocks := rfl
@[simp] theorem setTag_groups (a : Nat) (t : Bool) (s : State) : (setTag a t s).groups = s.groups := rfl
@[simp] theorem setTag_recs (a : Nat) (t : Bool) (s : State) : (setTag a t s).recs = s.recs := rfl
@[simp] theorem setTag_engs (a : Nat) (t : Bool) (s : State) : (setTag a t s).engs = s.engs := rfl
@[simp] theorem setTag_walks (a : Nat) (t : Bool) (s : State) : (setTag a t s).walks = s.walks := rfl
@[simp] theorem setTag_xlats (a : Nat) (t : Bool) (s : State) : (setTag a t s).xlats = s.xlats := rfl
@[simp] theorem setTag_full (a : Nat) (t : Bool) (s : State) : (setTag a t s).full = s.full := rfl
@[simp] theorem setTag_staged (a : Nat) (t : Bool) (s : State) : (setTag a t s).staged = s.staged := rfl
@[simp] theorem setTag_updating (a : Nat) (t : Bool) (s : State) : (setTag a t s).updating = s.updating := rfl
@[simp] theorem setTag_fwImage (a : Nat) (t : Bool) (s : State) : (setTag a t s).fwImage = s.fwImage := rfl
@[simp] theorem setTag_time (a : Nat) (t : Bool) (s : State) : (setTag a t s).time = s.time := rfl
@[simp] theorem setTag_agenda (a : Nat) (t : Bool) (s : State) : (setTag a t s).agenda = s.agenda := rfl
@[simp] theorem setTag_issue (a : Nat) (t : Bool) (s : State) : (setTag a t s).issue = s.issue := rfl
@[simp] theorem setTag_fresh (a : Nat) (t : Bool) (s : State) : (setTag a t s).fresh = s.fresh := rfl
@[simp] theorem setTag_ids (a : Nat) (t : Bool) (s : State) : (setTag a t s).ids = s.ids := rfl
@[simp] theorem setTag_frames (a : Nat) (t : Bool) (s : State) : (setTag a t s).frames = s.frames := rfl
@[simp] theorem setTag_replies (a : Nat) (t : Bool) (s : State) : (setTag a t s).replies = s.replies := rfl
@[simp] theorem setTag_caps (a : Nat) (t : Bool) (s : State) : (setTag a t s).caps = s.caps := rfl
@[simp] theorem setTag_msgs (a : Nat) (t : Bool) (s : State) : (setTag a t s).msgs = s.msgs := rfl
@[simp] theorem setTag_rota (a : Nat) (t : Bool) (s : State) : (setTag a t s).rota = s.rota := rfl
@[simp] theorem setTag_since (a : Nat) (t : Bool) (s : State) : (setTag a t s).since = s.since := rfl

@[simp] theorem noteWatches_mem (a n : Nat) (s : State) : (noteWatches a n s).mem = s.mem := rfl
@[simp] theorem noteWatches_tag (a n : Nat) (s : State) : (noteWatches a n s).tag = s.tag := rfl
@[simp] theorem noteWatches_lines (a n : Nat) (s : State) : (noteWatches a n s).lines = s.lines := rfl
@[simp] theorem noteWatches_owner (a n : Nat) (s : State) : (noteWatches a n s).owner = s.owner := rfl
@[simp] theorem noteWatches_dirty (a n : Nat) (s : State) : (noteWatches a n s).dirty = s.dirty := rfl
@[simp] theorem noteWatches_poison (a n : Nat) (s : State) : (noteWatches a n s).poison = s.poison := rfl
@[simp] theorem noteWatches_pageCnt (a n : Nat) (s : State) : (noteWatches a n s).pageCnt = s.pageCnt := rfl
@[simp] theorem noteWatches_ctxs (a n : Nat) (s : State) : (noteWatches a n s).ctxs = s.ctxs := rfl
@[simp] theorem noteWatches_tlbinv (a n : Nat) (s : State) : (noteWatches a n s).tlbinv = s.tlbinv := rfl
@[simp] theorem noteWatches_mbox (a n : Nat) (s : State) : (noteWatches a n s).mbox = s.mbox := rfl
@[simp] theorem noteWatches_power (a n : Nat) (s : State) : (noteWatches a n s).power = s.power := rfl
@[simp] theorem noteWatches_dies (a n : Nat) (s : State) : (noteWatches a n s).dies = s.dies := rfl
@[simp] theorem noteWatches_clusters (a n : Nat) (s : State) : (noteWatches a n s).clusters = s.clusters := rfl
@[simp] theorem noteWatches_cores (a n : Nat) (s : State) : (noteWatches a n s).cores = s.cores := rfl
@[simp] theorem noteWatches_objs (a n : Nat) (s : State) : (noteWatches a n s).objs = s.objs := rfl
@[simp] theorem noteWatches_launches (a n : Nat) (s : State) : (noteWatches a n s).launches = s.launches := rfl
@[simp] theorem noteWatches_blocks (a n : Nat) (s : State) : (noteWatches a n s).blocks = s.blocks := rfl
@[simp] theorem noteWatches_recs (a n : Nat) (s : State) : (noteWatches a n s).recs = s.recs := rfl
@[simp] theorem noteWatches_engs (a n : Nat) (s : State) : (noteWatches a n s).engs = s.engs := rfl
@[simp] theorem noteWatches_walks (a n : Nat) (s : State) : (noteWatches a n s).walks = s.walks := rfl
@[simp] theorem noteWatches_xlats (a n : Nat) (s : State) : (noteWatches a n s).xlats = s.xlats := rfl
@[simp] theorem noteWatches_full (a n : Nat) (s : State) : (noteWatches a n s).full = s.full := rfl
@[simp] theorem noteWatches_staged (a n : Nat) (s : State) : (noteWatches a n s).staged = s.staged := rfl
@[simp] theorem noteWatches_updating (a n : Nat) (s : State) : (noteWatches a n s).updating = s.updating := rfl
@[simp] theorem noteWatches_fwImage (a n : Nat) (s : State) : (noteWatches a n s).fwImage = s.fwImage := rfl
@[simp] theorem noteWatches_time (a n : Nat) (s : State) : (noteWatches a n s).time = s.time := rfl
@[simp] theorem noteWatches_agenda (a n : Nat) (s : State) : (noteWatches a n s).agenda = s.agenda := rfl
@[simp] theorem noteWatches_issue (a n : Nat) (s : State) : (noteWatches a n s).issue = s.issue := rfl
@[simp] theorem noteWatches_fresh (a n : Nat) (s : State) : (noteWatches a n s).fresh = s.fresh := rfl
@[simp] theorem noteWatches_ids (a n : Nat) (s : State) : (noteWatches a n s).ids = s.ids := rfl
@[simp] theorem noteWatches_frames (a n : Nat) (s : State) : (noteWatches a n s).frames = s.frames := rfl
@[simp] theorem noteWatches_replies (a n : Nat) (s : State) : (noteWatches a n s).replies = s.replies := rfl
@[simp] theorem noteWatches_caps (a n : Nat) (s : State) : (noteWatches a n s).caps = s.caps := rfl
@[simp] theorem noteWatches_msgs (a n : Nat) (s : State) : (noteWatches a n s).msgs = s.msgs := rfl
@[simp] theorem noteWatches_rota (a n : Nat) (s : State) : (noteWatches a n s).rota = s.rota := rfl
@[simp] theorem noteWatches_since (a n : Nat) (s : State) : (noteWatches a n s).since = s.since := rfl

@[simp] theorem countEv_mem (x ev n : Nat) (s : State) : (countEv x ev n s).mem = s.mem := rfl
@[simp] theorem countEv_tag (x ev n : Nat) (s : State) : (countEv x ev n s).tag = s.tag := rfl
@[simp] theorem countEv_lines (x ev n : Nat) (s : State) : (countEv x ev n s).lines = s.lines := rfl
@[simp] theorem countEv_owner (x ev n : Nat) (s : State) : (countEv x ev n s).owner = s.owner := rfl
@[simp] theorem countEv_dirty (x ev n : Nat) (s : State) : (countEv x ev n s).dirty = s.dirty := rfl
@[simp] theorem countEv_poison (x ev n : Nat) (s : State) : (countEv x ev n s).poison = s.poison := rfl
@[simp] theorem countEv_pageCnt (x ev n : Nat) (s : State) : (countEv x ev n s).pageCnt = s.pageCnt := rfl
@[simp] theorem countEv_queues (x ev n : Nat) (s : State) : (countEv x ev n s).queues = s.queues := rfl
@[simp] theorem countEv_tlbinv (x ev n : Nat) (s : State) : (countEv x ev n s).tlbinv = s.tlbinv := rfl
@[simp] theorem countEv_mbox (x ev n : Nat) (s : State) : (countEv x ev n s).mbox = s.mbox := rfl
@[simp] theorem countEv_power (x ev n : Nat) (s : State) : (countEv x ev n s).power = s.power := rfl
@[simp] theorem countEv_dies (x ev n : Nat) (s : State) : (countEv x ev n s).dies = s.dies := rfl
@[simp] theorem countEv_clusters (x ev n : Nat) (s : State) : (countEv x ev n s).clusters = s.clusters := rfl
@[simp] theorem countEv_cores (x ev n : Nat) (s : State) : (countEv x ev n s).cores = s.cores := rfl
@[simp] theorem countEv_objs (x ev n : Nat) (s : State) : (countEv x ev n s).objs = s.objs := rfl
@[simp] theorem countEv_launches (x ev n : Nat) (s : State) : (countEv x ev n s).launches = s.launches := rfl
@[simp] theorem countEv_blocks (x ev n : Nat) (s : State) : (countEv x ev n s).blocks = s.blocks := rfl
@[simp] theorem countEv_groups (x ev n : Nat) (s : State) : (countEv x ev n s).groups = s.groups := rfl
@[simp] theorem countEv_recs (x ev n : Nat) (s : State) : (countEv x ev n s).recs = s.recs := rfl
@[simp] theorem countEv_engs (x ev n : Nat) (s : State) : (countEv x ev n s).engs = s.engs := rfl
@[simp] theorem countEv_walks (x ev n : Nat) (s : State) : (countEv x ev n s).walks = s.walks := rfl
@[simp] theorem countEv_xlats (x ev n : Nat) (s : State) : (countEv x ev n s).xlats = s.xlats := rfl
@[simp] theorem countEv_full (x ev n : Nat) (s : State) : (countEv x ev n s).full = s.full := rfl
@[simp] theorem countEv_staged (x ev n : Nat) (s : State) : (countEv x ev n s).staged = s.staged := rfl
@[simp] theorem countEv_updating (x ev n : Nat) (s : State) : (countEv x ev n s).updating = s.updating := rfl
@[simp] theorem countEv_fwImage (x ev n : Nat) (s : State) : (countEv x ev n s).fwImage = s.fwImage := rfl
@[simp] theorem countEv_time (x ev n : Nat) (s : State) : (countEv x ev n s).time = s.time := rfl
@[simp] theorem countEv_agenda (x ev n : Nat) (s : State) : (countEv x ev n s).agenda = s.agenda := rfl
@[simp] theorem countEv_issue (x ev n : Nat) (s : State) : (countEv x ev n s).issue = s.issue := rfl
@[simp] theorem countEv_fresh (x ev n : Nat) (s : State) : (countEv x ev n s).fresh = s.fresh := rfl
@[simp] theorem countEv_ids (x ev n : Nat) (s : State) : (countEv x ev n s).ids = s.ids := rfl
@[simp] theorem countEv_frames (x ev n : Nat) (s : State) : (countEv x ev n s).frames = s.frames := rfl
@[simp] theorem countEv_replies (x ev n : Nat) (s : State) : (countEv x ev n s).replies = s.replies := rfl
@[simp] theorem countEv_caps (x ev n : Nat) (s : State) : (countEv x ev n s).caps = s.caps := rfl
@[simp] theorem countEv_msgs (x ev n : Nat) (s : State) : (countEv x ev n s).msgs = s.msgs := rfl
@[simp] theorem countEv_rota (x ev n : Nat) (s : State) : (countEv x ev n s).rota = s.rota := rfl
@[simp] theorem countEv_since (x ev n : Nat) (s : State) : (countEv x ev n s).since = s.since := rfl

@[simp] theorem State.tick_fresh (s : State) : s.tick.fresh = s.fresh + 1 := rfl
@[simp] theorem State.updGroup_groups (s : State) (g : Nat) (f : Group → Group) : (s.updGroup g f).groups = modifyAt f s.groups g := rfl
@[simp] theorem setTag_tag (a : Nat) (t : Bool) (s : State) : (setTag a t s).tag = NMap.set false s.tag (a / 8) t := rfl

end Sys2Proof.Machine
end

