-- ==== Sys2Proof/Laws/Memory.lean ====
section
/-! SUPPORT. Every operation on storage keeps the canonical form of the map that it writes, and the operations on whole states that
write storage keep the form of every map. -/

namespace Sys2Proof.Machine
open Sys2Proof

/-! ### Single maps -/

theorem setBytes_wf (m : NMap Byte) (a : Nat) (bs : List Byte) (w : NMap.wf 0 m = true) : NMap.wf 0 (setBytes m a bs) = true := by
  induction bs generalizing m a with
  | nil => exact w
  | cons b r ih => exact ih _ _ (NMap.wf_set 0 m a b w)

theorem clearTags_wf (m : NMap Bool) (k n : Nat) (w : NMap.wf false m = true) : NMap.wf false (clearTags m k n) = true := by
  induction n generalizing m k with
  | zero => exact w
  | succ n ih => exact ih _ _ (NMap.wf_set false m k false w)

theorem setDirty_wf (m : NMap Bool) (v : Bool) (k n : Nat) (w : NMap.wf false m = true) : NMap.wf false (setDirty m v k n) = true := by
  induction n generalizing m k with
  | zero => exact w
  | succ n ih => exact ih _ _ (NMap.wf_set false m k v w)

theorem setLines_wf (m : NMap (LSt × Half)) (v : LSt × Half) (k n : Nat) (w : NMap.wf (LSt.shared, 0) m = true) :
    NMap.wf (LSt.shared, 0) (setLines m v k n) = true := by
  induction n generalizing m k with
  | zero => exact w
  | succ n ih => exact ih _ _ (NMap.wf_set _ m k v w)

theorem moveMap_wf {α : Type} [DecidableEq α] (d : α) (a b n : Nat) (m : NMap α) (w : NMap.wf d m = true) :
    NMap.wf d (moveMap d a b n m) = true := by
  unfold moveMap
  generalize m.filter (fun e => decide (a ≤ e.1) && decide (e.1 < a + n)) = l
  induction l generalizing m with
  | nil => exact w
  | cons e r ih => exact ih _ (NMap.wf_set d _ _ _ (NMap.wf_set d _ _ _ w))

/-! ### The whole storage -/

/-- The form of every map of the storage, one by one. -/
theorem Storage.wf_iff (s : State) : Storage.wf s = true ↔
    NMap.wf 0 s.mem = true ∧ NMap.wf false s.tag = true ∧ NMap.wf (LSt.shared, 0) s.lines = true ∧ NMap.wf (0, 0) s.owner = true ∧
    NMap.wf false s.dirty = true ∧ NMap.wf false s.poison = true := by
  simp [Storage.wf, Memory.wf, and_assoc]

/-- The form of the bytes depends on the bytes alone. -/
theorem Memory.wf_congr {s t : State} (h : t.mem = s.mem) : Memory.wf t = Memory.wf s := by simp [Memory.wf, h]

/-- The form of the storage depends on the storage alone. -/
theorem Storage.wf_congr {s t : State} (h : SameStorage s t) : Storage.wf t = Storage.wf s := by
  simp [Storage.wf, Memory.wf, h.mem, h.tag, h.lines, h.owner, h.dirty, h.poison]

theorem Storage.wf_memory {s : State} (w : Storage.wf s = true) : Memory.wf s = true := ((Storage.wf_iff s).mp w).1

theorem claimLine_wf (s : State) (x ln : Nat) (w : Storage.wf s = true) : Storage.wf (claimLine s x ln) = true := by
  obtain ⟨m, t, l, o, d, p⟩ := (Storage.wf_iff s).mp w
  unfold claimLine
  dsimp only
  split
  · exact w
  split
  · split
    · exact (Storage.wf_iff _).mpr ⟨m, t, l, NMap.wf_set _ _ _ _ o, d, p⟩
    · refine (Storage.wf_iff _).mpr ⟨?_, ?_, NMap.wf_set _ _ _ _ l, NMap.wf_set _ _ _ _ o, d, ?_⟩ <;> dsimp only
      · exact NMap.wf_keep _ _ _ m
      · exact NMap.wf_keep _ _ _ t
      · exact NMap.wf_keep _ _ _ p
  · split
    · exact (Storage.wf_iff _).mpr ⟨m, t, l, NMap.wf_set _ _ _ _ o, d, p⟩
    · refine (Storage.wf_iff _).mpr ⟨?_, t, l, NMap.wf_set _ _ _ _ o, d, p⟩
      dsimp only
      exact setBytes_wf _ _ _ m

theorem claimLines_wf (s : State) (x ln n : Nat) (w : Storage.wf s = true) : Storage.wf (claimLines s x ln n) = true := by
  induction n generalizing s ln with
  | zero => exact w
  | succ n ih => exact ih _ _ (claimLine_wf s x ln w)

theorem storeBytes_wf (x a : Nat) (bs : List Byte) (s : State) (w : Storage.wf s = true) : Storage.wf (storeBytes x a bs s) = true := by
  unfold storeBytes
  dsimp only
  split
  · exact w
  · obtain ⟨m, t, l, o, d, p⟩ := (Storage.wf_iff _).mp (claimLines_wf s x (a / 64) ((a + bs.length - 1) / 64 - a / 64 + 1) w)
    refine (Storage.wf_iff _).mpr ⟨setBytes_wf _ _ _ m, clearTags_wf _ _ _ t, l, o, ?_, setDirty_wf _ _ _ _ p⟩
    dsimp only [noteWatches]
    split
    · exact setDirty_wf _ _ _ _ d
    · exact d

theorem storeWord_wf (x a : Nat) (v : DWord) (s : State) (w : Storage.wf s = true) : Storage.wf (storeWord x a v s) = true :=
  storeBytes_wf x a _ s w

theorem setTag_wf (a : Nat) (t : Bool) (s : State) (w : Storage.wf s = true) : Storage.wf (setTag a t s) = true := by
  obtain ⟨m, tg, l, o, d, p⟩ := (Storage.wf_iff s).mp w
  exact (Storage.wf_iff _).mpr ⟨m, NMap.wf_set _ _ _ _ tg, l, o, d, p⟩

theorem storeTagged_wf (x a : Nat) (v : DWord) (t : Bool) (s : State) (w : Storage.wf s = true) :
    Storage.wf (storeTagged x a v t s) = true := setTag_wf a t _ (storeWord_wf x a v s w)

theorem performObjInit_wf (x a : Nat) (v : DWord) (n : Nat) (stamp : Half) (s : State) (w : Storage.wf s = true) :
    Storage.wf (performObjInit x a v n stamp s) = true := by
  unfold performObjInit
  generalize v.toNat % 2 ^ 32 + 1 = k
  obtain ⟨m, t, l, o, d, p⟩ := (Storage.wf_iff _).mp (claimLines_wf s x (a / 64) n w)
  have h := storeTagged_wf x a v true { claimLines s x (a / 64) n with tag := clearTags (claimLines s x (a / 64) n).tag (a / 8) k }
    ((Storage.wf_iff _).mpr ⟨m, clearTags_wf _ _ _ t, l, o, d, p⟩)
  obtain ⟨m, t, l, o, d, p⟩ := (Storage.wf_iff _).mp h
  exact (Storage.wf_iff _).mpr ⟨m, t, setLines_wf _ _ _ _ l, o, d, p⟩

theorem performObjRetire_wf (x a n : Nat) (s : State) (w : Storage.wf s = true) : Storage.wf (performObjRetire x a n s) = true := by
  unfold performObjRetire
  dsimp only
  generalize (wordAt s a).toNat % 2 ^ 32 + 1 = k
  obtain ⟨m, t, l, o, d, p⟩ := (Storage.wf_iff _).mp (storeWord_wf x a 0 s w)
  exact (Storage.wf_iff _).mpr ⟨m, clearTags_wf _ _ _ t, setLines_wf _ _ _ _ l, o, d, p⟩

theorem movePage_wf (x : Nat) (f : Leaf) (pa : Nat) (s : State) (w : Storage.wf s = true) : Storage.wf (movePage x f pa s) = true := by
  obtain ⟨m, t, l, o, d, p⟩ := (Storage.wf_iff s).mp w
  exact (Storage.wf_iff _).mpr ⟨setBytes_wf _ _ _ (moveMap_wf _ _ _ _ _ m), moveMap_wf _ _ _ _ _ t, moveMap_wf _ _ _ _ _ l,
    moveMap_wf _ _ _ _ _ o, d, moveMap_wf _ _ _ _ _ p⟩

/-- The counters go to their save area by a write of bytes (R361). -/
theorem saveCounts_wf (x : Nat) (s : State) (w : Storage.wf s = true) : Storage.wf (saveCounts x s) = true :=
  storeBytes_wf x _ _ s w

theorem loadCounts_wf (x : Nat) (s : State) (w : Storage.wf s = true) : Storage.wf (loadCounts x s) = true := w

theorem comeBack_wf (x : Nat) (s : State) (w : Storage.wf s = true) : Storage.wf (comeBack x s) = true := by
  unfold comeBack
  split
  · exact loadCounts_wf x s w
  · exact w

theorem chargeEv_wf (x ev n : Nat) (s : State) (w : Storage.wf s = true) : Storage.wf (chargeEv x ev n s) = true := by
  unfold chargeEv
  split
  · exact saveCounts_wf x _ w
  · exact w

/-- The start of a block drops bytes only (R281). -/
theorem startWords_wf (c o n : Nat) (s : State) (w : Storage.wf s = true) : Storage.wf (startWords c o n s) = true := by
  obtain ⟨m, t, l, ow, d, p⟩ := (Storage.wf_iff s).mp w
  refine (Storage.wf_iff _).mpr ⟨?_, t, l, ow, d, p⟩
  dsimp only [startWords, State.tick]
  exact NMap.wf_keep _ _ _ m

/-! ### Stores that a MARK has passed -/

theorem noteEarly_wf (B : Agent) (a n : Nat) (s : State) (w : Storage.wf s = true) : Storage.wf (noteEarly B a n s) = true := w

theorem performStore_wf (x : Nat) (o : GOp) (s : State) (w : Storage.wf s = true) : Storage.wf (performStore x o s) = true := by
  unfold performStore
  split
  · exact storeBytes_wf _ _ _ s w
  · exact storeBytes_wf _ _ _ s w
  · exact storeTagged_wf _ _ _ _ s w
  · exact w

/-- A fold of operations that each keep the form keeps it. -/
theorem foldl_wf {α : Type} (f : State → α → State) (h : ∀ s a, Storage.wf s = true → Storage.wf (f s a) = true) (l : List α) (s : State)
    (w : Storage.wf s = true) : Storage.wf (l.foldl f s) = true := by
  induction l generalizing s with
  | nil => exact w
  | cons a r ih => exact ih _ (h s a w)

/-- Performing buffered stores keeps the form where what is owed to their lanes does. -/
theorem landHeld_wf (k : Agent → Nat → Nat → State → State) (hk : ∀ B a n s, Storage.wf s = true → Storage.wf (k B a n s) = true)
    (g n : Nat) (want : Held → Bool) (seen : List (Nat × Nat × Nat)) (s : State) (w : Storage.wf s = true) :
    Storage.wf (landHeld k g n want seen s) = true := by
  unfold landHeld
  split
  · exact w
  · split
    · exact w
    · refine foldl_wf _ (fun s e w => ?_) _ _ w
      split
      · exact performStore_wf _ _ _ (noteEarly_wf _ _ _ _ (hk _ _ _ _ w))
      · exact w

theorem force_wf (f : Nat) (B : Agent) (a n : Nat) (s : State) (w : Storage.wf s = true) : Storage.wf (force f B a n s) = true := by
  induction f generalizing B a n s with
  | zero => exact w
  | succ f ih => exact foldl_wf _ (fun s g w => landHeld_wf _ (fun B a n s w => ih B a n s w) _ _ _ _ s w) _ _ w

/-- An access by any agent keeps the form, whatever it makes others perform. -/
theorem reach_wf (B : Agent) (wr : Bool) (a n : Nat) (s : State) (w : Storage.wf s = true) : Storage.wf (reach B wr a n s) = true := by
  unfold reach
  dsimp only
  split
  · exact noteEarly_wf _ _ _ _ (force_wf _ _ _ _ s w)
  · exact force_wf _ _ _ _ s w

theorem putHeader_wf (g x h : Nat) (f : DWord → DWord) (line : DWord → LSt × Half) (s : State) (w : Storage.wf s = true) :
    Storage.wf (putHeader g x h f line s) = true := by
  unfold putHeader
  split
  · exact w
  next k H _ =>
    obtain ⟨m, t, l, o, d, p⟩ := (Storage.wf_iff _).mp (reach_wf (.engine g) true k 8 s w)
    dsimp only
    split
    · exact (Storage.wf_iff _).mpr ⟨setBytes_wf _ _ _ m, t, setLines_wf _ _ _ _ l, o, d, p⟩
    · exact (Storage.wf_iff _).mpr ⟨setBytes_wf _ _ _ m, t, l, o, d, p⟩

theorem landWhere_wf (g : Nat) (want : Held → Bool) (s : State) (w : Storage.wf s = true) : Storage.wf (landWhere g want s) = true :=
  landHeld_wf _ (fun B a n s w => force_wf _ B a n s w) _ _ _ _ s w

/-! ### What performing stores changes -/

/-- The two states agree in everything but the storage that stores write, and what groups and queues hold back or wait for. -/
def OnlyStores (s t : State) : Prop :=
  t = { s with mem := t.mem, tag := t.tag, lines := t.lines, owner := t.owner, dirty := t.dirty, poison := t.poison, groups := t.groups, queues := t.queues }

theorem OnlyStores.refl (s : State) : OnlyStores s s := rfl

theorem OnlyStores.trans {s t u : State} (h : OnlyStores s t) (k : OnlyStores t u) : OnlyStores s u := by
  unfold OnlyStores at *
  rw [k, h]

theorem OnlyStores.time {s t : State} (h : OnlyStores s t) : t.time = s.time := by rw [h]
theorem OnlyStores.ctxs {s t : State} (h : OnlyStores s t) : t.ctxs = s.ctxs := by rw [h]
theorem OnlyStores.blocks {s t : State} (h : OnlyStores s t) : t.blocks = s.blocks := by rw [h]
theorem OnlyStores.launches {s t : State} (h : OnlyStores s t) : t.launches = s.launches := by rw [h]
theorem OnlyStores.engs {s t : State} (h : OnlyStores s t) : t.engs = s.engs := by rw [h]

theorem onlyStores_foldl {α : Type} (f : State → α → State) (h : ∀ s a, OnlyStores s (f s a)) (l : List α) (s : State) :
    OnlyStores s (l.foldl f s) := by
  induction l generalizing s with
  | nil => exact .refl s
  | cons a r ih => exact (h s a).trans (ih _)

/-- Writing bytes, line states and owner tags is such a change. -/
theorem onlyStores_write (s : State) (m : NMap Byte) (t : NMap Bool) (l : NMap (LSt × Half)) (o : NMap (Nat × Nat)) (p : NMap Bool) :
    OnlyStores s { s with mem := m, tag := t, lines := l, owner := o, poison := p } := rfl

theorem onlyStores_claimLine (s : State) (x ln : Nat) : OnlyStores s (claimLine s x ln) := by
  unfold claimLine
  dsimp only
  split
  · exact .refl s
  split
  · split <;> exact onlyStores_write ..
  · split <;> exact onlyStores_write ..

theorem onlyStores_claimLines (s : State) (x ln n : Nat) : OnlyStores s (claimLines s x ln n) := by
  induction n generalizing s ln with
  | zero => rfl
  | succ n ih => exact (onlyStores_claimLine s x ln).trans (ih _ _)

theorem onlyStores_storeBytes (x a : Nat) (bs : List Byte) (s : State) : OnlyStores s (storeBytes x a bs s) := by
  unfold storeBytes
  dsimp only
  split
  · rfl
  · refine (onlyStores_claimLines s x (a / 64) ((a + bs.length - 1) / 64 - a / 64 + 1)).trans ?_
    generalize claimLines s x (a / 64) ((a + bs.length - 1) / 64 - a / 64 + 1) = c
    rfl

theorem onlyStores_performStore (x : Nat) (o : GOp) (s : State) : OnlyStores s (performStore x o s) := by
  unfold performStore
  split
  · exact onlyStores_storeBytes ..
  · exact onlyStores_storeBytes ..
  · exact (onlyStores_storeBytes ..).trans rfl
  · rfl

theorem onlyStores_landHeld (k : Agent → Nat → Nat → State → State) (hk : ∀ B a n s, OnlyStores s (k B a n s)) (g n : Nat)
    (want : Held → Bool) (seen : List (Nat × Nat × Nat)) (s : State) : OnlyStores s (landHeld k g n want seen s) := by
  unfold landHeld
  split
  · rfl
  · split
    · rfl
    · refine OnlyStores.trans (t := s.updGroup g _) rfl (onlyStores_foldl _ (fun s e => ?_) _ _)
      split
      · exact (hk _ _ _ s).trans (OnlyStores.trans (t := noteEarly _ _ _ _) rfl (onlyStores_performStore ..))
      · rfl

theorem onlyStores_force (f : Nat) (B : Agent) (a n : Nat) (s : State) : OnlyStores s (force f B a n s) := by
  induction f generalizing B a n s with
  | zero => rfl
  | succ f ih => exact onlyStores_foldl _ (fun s g => onlyStores_landHeld _ (fun B a n s => ih B a n s) _ _ _ _ s) _ _

/-- An access changes, before it is performed, only what the stores that it waits for change. -/
theorem onlyStores_reach (B : Agent) (wr : Bool) (a n : Nat) (s : State) : OnlyStores s (reach B wr a n s) := by
  unfold reach
  dsimp only
  split
  · exact (onlyStores_force ..).trans rfl
  · exact onlyStores_force ..

theorem onlyStores_landWhere (g : Nat) (want : Held → Bool) (s : State) : OnlyStores s (landWhere g want s) :=
  onlyStores_landHeld _ (fun B a n s => onlyStores_force _ B a n s) _ _ _ _ s

/-- Where no group holds a store back, none is performed. -/
theorem landHeld_idle (k : Agent → Nat → Nat → State → State) (g n : Nat) (want : Held → Bool) (seen : List (Nat × Nat × Nat)) (s : State)
    (h : ∀ G ∈ s.groups, G.wbuf = []) : landHeld k g n want seen s = s := by
  unfold landHeld
  split
  · rfl
  · rename_i G hG
    simp [h G (List.mem_of_getElem? hG)]

theorem foldl_fixed {α β : Type} (f : β → α → β) (b : β) (h : ∀ a, f b a = b) (l : List α) : l.foldl f b = b := by
  induction l with
  | nil => rfl
  | cons a r ih => rw [List.foldl_cons, h a, ih]

/-- Nor does an access make any be performed (R219). -/
theorem force_idle (f : Nat) (B : Agent) (a n : Nat) (s : State) (h : ∀ G ∈ s.groups, G.wbuf = []) : force f B a n s = s := by
  cases f with
  | zero => rfl
  | succ f => exact foldl_fixed _ _ (fun g => landHeld_idle _ _ _ _ _ _ h) _

/-- A read where no group holds a store back changes nothing. -/
theorem reach_idle (B : Agent) (a n : Nat) (s : State) (h : ∀ G ∈ s.groups, G.wbuf = []) : reach B false a n s = s := by
  unfold reach
  rw [force_idle _ _ _ _ _ h]
  rfl

theorem landWhere_idle (g : Nat) (want : Held → Bool) (s : State) (h : ∀ G ∈ s.groups, G.wbuf = []) : landWhere g want s = s :=
  landHeld_idle _ _ _ _ _ _ h

end Sys2Proof.Machine
end

