-- ==== Sys2Proof/Laws/Site.lean ====
section
/-! SUPPORT. What the shared operations of a portable meaning do at its site: define, advance and raise flags change the issuing
side and nothing else. -/

namespace Sys2Proof.Machine
open Sys2Proof

/-- What a site is: its group, its side, its frame, its block and its launch stand in the state. -/
theorem siteOf_some {s : State} {g sd len : Nat} {p : Site} (h : siteOf s g sd len = some p) :
    p.g = g ∧ p.sd = sd ∧ p.len = len ∧ s.groups[g]? = some p.grp ∧ p.grp.sides[sd]? = some p.side
      ∧ (∃ r, p.side.core.frames = p.fr :: r) ∧ s.blocks[p.grp.block]? = some p.blk ∧ s.launches[p.blk.launch]? = some p.lau := by
  unfold siteOf at h
  split at h
  · simp at h
  · split at h
    · split at h
      · simp only [Option.some.injEq] at h
        subst h
        simp_all
      · simp at h
    · simp at h

theorem site?_some {s : State} {p : Site} (h : site? s = some p) :
    s.issue = .portable p.g p.sd p.len ∧ s.groups[p.g]? = some p.grp ∧ p.grp.sides[p.sd]? = some p.side
      ∧ (∃ r, p.side.core.frames = p.fr :: r) ∧ s.blocks[p.grp.block]? = some p.blk ∧ s.launches[p.blk.launch]? = some p.lau := by
  unfold site? at h
  split at h
  · rename_i g sd len hi
    obtain ⟨rfl, rfl, rfl, h'⟩ := siteOf_some h
    exact ⟨hi, h'⟩
  · simp at h

/-- A portable meaning acts at the site. -/
theorem portable_eq {s : State} {p : Site} (h : site? s = some p) (k : Site → State → State) :
    portable s k = .next (k p s) := by
  simp [portable, h]

theorem modifyAt_congr {α : Type} (f g : α → α) (l : List α) (i : Nat) (a : α) (ha : l[i]? = some a) (h : f a = g a) :
    modifyAt f l i = modifyAt g l i := by
  induction l generalizing i with
  | nil => rfl
  | cons b r ih =>
    cases i with
    | zero => simp at ha; subst ha; simp [modifyAt, h]
    | succ i => simp at ha; simp [modifyAt, ih i ha]

theorem modifyAt_modifyAt {α : Type} (f g : α → α) (l : List α) (i : Nat) :
    modifyAt f (modifyAt g l i) i = modifyAt (fun a => f (g a)) l i := by
  induction l generalizing i with
  | nil => rfl
  | cons b r ih => cases i <;> simp [modifyAt, ih]

/-- A change of the sides of group g changes nothing else. -/
theorem onlySides_updSide (s : State) (g sd : Nat) (f : Side → Side) : OnlySides g s (s.updSide g sd f) where
  rest := rfl
  others := by
    intro k hk
    simp [State.updSide, State.updGroup, modifyAt_getElem?, hk]
  group := by
    intro G hG
    exact ⟨modifyAt f G.sides sd, by simp [State.updSide, State.updGroup, modifyAt_getElem?, hG]⟩

theorem OnlySides.trans {g : Nat} {s t u : State} (h : OnlySides g s t) (k : OnlySides g t u) : OnlySides g s u where
  rest := by rw [k.rest, h.rest]
  others := fun j hj => (k.others j hj).trans (h.others j hj)
  group := by
    intro G hG
    obtain ⟨l, hl⟩ := h.group G hG
    obtain ⟨l', hl'⟩ := k.group _ hl
    exact ⟨l', hl'⟩

theorem updSide_groups (s : State) (g sd : Nat) (f : Side → Side) (G : Group) (h : s.groups[g]? = some G) :
    (s.updSide g sd f).groups[g]? = some { G with sides := modifyAt f G.sides sd } := by
  simp [State.updSide, State.updGroup, modifyAt_getElem?, h]

/-- The frame that an instruction's definition leaves. -/
theorem definesIn_define (p : Site) (vs : List Val) : DefinesIn p vs (p.fr.define p.mask vs p.len) where
  fn := rfl
  pc := rfl
  next := rfl
  rets := rfl
  active := by
    intro l hl hm
    have hne : mergeLanes p.mask (NMap.get [] p.fr.vals p.fr.next) vs ≠ [] := by
      intro h; have := congrArg List.length h; simp [mergeLanes] at this
    simp only [Frame.define, NMap.get_set_same _ _ _ _ hne]
    simp [mergeLanes, nth, hl, hm]
  inactive := by
    intro l hl hm
    have hne : mergeLanes p.mask (NMap.get [] p.fr.vals p.fr.next) vs ≠ [] := by
      intro h; have := congrArg List.length h; simp [mergeLanes] at this
    simp only [Frame.define, NMap.get_set_same _ _ _ _ hne]
    simp only [mergeLanes, nth, List.getD_eq_getElem?_getD, List.getElem?_map, List.getElem?_range hl, Option.map_some, Option.getD_some, hm]
    simp
  others := by
    intro n hn
    have hne : mergeLanes p.mask (NMap.get [] p.fr.vals p.fr.next) vs ≠ [] := by
      intro h; have := congrArg List.length h; simp [mergeLanes] at this
    simp only [Frame.define, NMap.get_set_other _ _ _ _ _ hne hn]

/-- `define` defines its values and changes nothing else. -/
theorem defined_define {s : State} {p : Site} (h : site? s = some p) (vs : List Val) :
    Defined p vs p.side.core.view s (define p vs s) := by
  obtain ⟨-, hg, hs, ⟨r, hr⟩, -, -⟩ := site?_some h
  refine ⟨onlySides_updSide _ _ _ _, p.fr.define p.mask vs p.len, definesIn_define p vs, ?_⟩
  rw [define, State.updCore, updSide_groups _ _ _ _ _ hg]
  congr 2
  apply modifyAt_congr _ _ _ _ _ hs
  simp [SideCore.onFrame, hr]

/-- Raising flags and then defining. -/
theorem defined_raise_define {s : State} {p : Site} (h : site? s = some p) (evs : List (Nat × Flags)) (vs : List Val) :
    Defined p vs (p.side.core.view.raise p.lau.fev p.pc evs) s (define p vs (raiseFlags p evs s)) := by
  obtain ⟨-, hg, hs, ⟨r, hr⟩, -, -⟩ := site?_some h
  refine ⟨(onlySides_updSide _ _ _ _).trans (onlySides_updSide _ _ _ _), p.fr.define p.mask vs p.len, definesIn_define p vs, ?_⟩
  rw [define, raiseFlags, State.updCore, State.updCore, updSide_groups _ _ _ _ _ (updSide_groups _ _ _ _ _ hg)]
  simp only [modifyAt_modifyAt]
  congr 2
  apply modifyAt_congr _ _ _ _ _ hs
  simp [SideCore.onFrame, hr]

/-- `advance` moves the pc of the issuing side and changes nothing else. -/
theorem advanced_advance {s : State} {p : Site} (h : site? s = some p) : Advanced p p.side.core.view s (advance p s) := by
  obtain ⟨-, hg, hs, ⟨r, hr⟩, -, -⟩ := site?_some h
  refine ⟨onlySides_updSide _ _ _ _, ?_⟩
  rw [advance, State.updCore, updSide_groups _ _ _ _ _ hg]
  congr 2
  apply modifyAt_congr _ _ _ _ _ hs
  simp [SideCore.onFrame, hr]

/-- A lane by lane instruction of one operand gives its lanes. -/
theorem gives_lanes1 {s : State} {p : Site} (h : site? s = some p) {t : Ty} {a : Opnd} {xs : List DWord} (ha : opndBits s p t a = some xs)
    (f : DWord → DWord) : ∃ u, lanes1 s t a f = .next u ∧ Defined p ((xs.map f).map .bits) p.side.core.view s u :=
  ⟨_, by rw [lanes1, portable_eq h]; simp only [ha]; rfl, defined_define h _⟩

/-- A lane by lane instruction of two operands gives its lanes. -/
theorem gives_lanes2 {s : State} {p : Site} (h : site? s = some p) {ta tb : Ty} {a b : Opnd} {xs ys : List DWord}
    (ha : opndBits s p ta a = some xs) (hb : opndBits s p tb b = some ys) (f : DWord → DWord → DWord) :
    ∃ u, lanes2 s ta tb a b f = .next u ∧ Defined p ((List.zipWith f xs ys).map .bits) p.side.core.view s u :=
  ⟨_, by rw [lanes2, portable_eq h]; simp only [ha, hb]; rfl, defined_define h _⟩

end Sys2Proof.Machine
end

