-- ==== Sys2Proof/Laws/Native.lean ====
section
/-! SUPPORT. What the shared operations of a slot operation do at its site: they change the native state of its group and
nothing else. -/

namespace Sys2Proof.Machine
open Sys2Proof

/-- What a native site is: its group and native state stand in the state, and its slot issues. -/
theorem nsite?_some {s : State} {p : NSite} (h : nsite? s = some p) :
    s.groups[p.g]? = some p.grp ∧ p.grp.native = some p.own ∧ p.nat = { p.own with regs := p.own.regs.seenBy p.lau.ctx }
      ∧ s.issue = .slot p.g p.sl := by
  unfold nsite? at h
  split at h
  · rename_i g sl hi
    split at h
    · simp at h
    · rename_i G hG
      split at h
      · rename_i N B hN hB
        split at h
        · simp only [Option.some.injEq] at h; subst h; simp [NSite.own, hG, hN, hi]
        · simp at h
      · simp at h
  · simp at h

/-- A slot operation acts at the site, gone from its queue. -/
theorem native_eq {s : State} {p : NSite} (h : nsite? s = some p) (k : NSite → State → State) :
    native s k = .next (k p (p.pop s)) := by
  simp [native, h]

/-- The group whose native state changes. -/
theorem updNative_groups {s : State} {g : Nat} {G : Group} {N : Native} (f : Native → Native) (h : s.groups[g]? = some G) (hN : G.native = some N) :
    (s.updNative g f).groups[g]? = some { G with native := some (f N) } := by
  simp [State.updNative, State.updGroup, modifyAt_getElem?, h, hN]

@[simp] theorem NSite.popped_pend (p : NSite) : p.popped.pend = p.own.pend := rfl
@[simp] theorem NSite.popped_slots (p : NSite) : p.popped.slots = p.own.slots := rfl
@[simp] theorem NSite.popped_win (p : NSite) : p.popped.win = p.own.win := rfl

/-- Leaving the queue is all that a slot operation has done when it begins. -/
theorem Issued.start {s : State} {p : NSite} (h : nsite? s = some p) : Issued p p.popped s (p.pop s) := by
  obtain ⟨hg, hn, -, -⟩ := nsite?_some h
  exact ⟨rfl, fun k hk => by simp [NSite.pop, State.updNative, State.updGroup, State.tick, modifyAt_getElem?, hk],
    by simp [NSite.pop, State.tick, NSite.popped, updNative_groups _ hg hn]⟩

/-- A further change of the native state. -/
theorem Issued.upd {s t : State} {p : NSite} {N : Native} (f : Native → Native) (h : Issued p N s t) :
    Issued p (f N) s (t.updNative p.g f) := by
  refine ⟨?_, fun k hk => ?_, ?_⟩
  · rw [h.rest]; rfl
  · simp [State.updNative, State.updGroup, modifyAt_getElem?, hk, h.others k hk]
  · rw [updNative_groups f h.group rfl]

/-- One more write. -/
theorem Issued.put {s t : State} {p : NSite} {N : Native} (h : Issued p N s t) (r lat m vals late) :
    Issued p { N with pend := N.pend ++ [p.wr r lat m vals late] } s (p.put r lat m vals late t) :=
  h.upd (fun N => { N with pend := N.pend ++ [p.wr r lat m vals late] })

/-- One more write of a vector register. -/
theorem Issued.putG {s t : State} {p : NSite} {N : Native} (h : Issued p N s t) (n lat m vals) :
    Issued p { N with pend := N.pend ++ p.wrG n lat m vals } s (p.putG n lat m vals t) := by
  unfold NSite.putG NSite.wrG; split
  · simpa using h
  · exact h.put ..

/-- The write of the operand buffer that KP makes. -/
theorem Issued.keep {s t : State} {p : NSite} {N : Native} (h : Issued p N s t) (v a) :
    Issued p { N with pend := N.pend ++ p.wrBuf v a } s (p.keep v a t) := by
  unfold NSite.keep NSite.wrBuf; split
  · exact h.put ..
  · simpa using h

/-- The same of an operation whose A is a vector register. -/
theorem Issued.retain {s t : State} {p : NSite} {N : Native} (h : Issued p N s t) (v) :
    Issued p { N with pend := N.pend ++ p.wrA v } s (p.retain v t) := h.keep v _

/-- Flags raised in the view of the operation's side. -/
theorem Issued.raise {s t : State} {p : NSite} {N : Native} (h : Issued p N s t) (evs : List (Nat × Flags)) :
    Issued p { N with slots := modifyAt (Option.map (PcSlot.raise p.lau.fev p.sl p.e.bundle (p.nat.port p.e.pc) p.e.pc evs)) N.slots p.e.side }
      s (p.raise evs t) :=
  h.upd (fun N => { N with slots := modifyAt (Option.map (PcSlot.raise p.lau.fev p.sl p.e.bundle (p.nat.port p.e.pc) p.e.pc evs)) N.slots p.e.side })

/-- A write of a uniform register. -/
theorem Issued.putS {s t : State} {p : NSite} {N : Native} (h : Issued p N s t) (n : Nat) (x : Word) :
    Issued p { N with pend := N.pend ++ [p.wr (.s n) 2 0 [x.zeroExtend 64] false], win := staleWin n N.win } s (p.putS n 2 x t) :=
  (h.put ..).upd (fun N => { N with win := staleWin n N.win })

end Sys2Proof.Machine
end

