-- ==== Sys2Proof/Laws/PerInstr.lean ====
section
/-! SUPPORT. Of each instruction: it has at most one kind of encoding. A portable instruction has no slot field, a slot operation no
portable words, and a step of the machine itself neither. -/

namespace Sys2Proof.Laws.Encoding
open Sys2Proof

/-- The instruction has no portable words, or no slot field. -/
def Statement (i : Instr) : Prop := i.raw? = none ∨ i.slot? = none

theorem nop (x0) : Statement (.nop x0) := .inr rfl
theorem br (x0 x1) : Statement (.br x0 x1) := .inr rfl
theorem cbr (x0 x1 x2 x3) : Statement (.cbr x0 x1 x2 x3) := .inr rfl
theorem switch (x0 x1 x2 x3) : Statement (.switch x0 x1 x2 x3) := .inr rfl
theorem call (x0 x1 x2 x3) : Statement (.call x0 x1 x2 x3) := .inr rfl
theorem ret (x0 x1) : Statement (.ret x0 x1) := .inr rfl
theorem exit (x0) : Statement (.exit x0) := .inr rfl
theorem trap (x0 x1) : Statement (.trap x0 x1) := .inr rfl
theorem copyV (x0 x1 x2) : Statement (.copyV x0 x1 x2) := .inr rfl
theorem copyVRet (x0 x1 x2) : Statement (.copyVRet x0 x1 x2) := .inr rfl
theorem add (x0 x1 x2 x3 x4) : Statement (.add x0 x1 x2 x3 x4) := .inr rfl
theorem sub (x0 x1 x2 x3 x4) : Statement (.sub x0 x1 x2 x3 x4) := .inr rfl
theorem mul (x0 x1 x2 x3 x4 x5) : Statement (.mul x0 x1 x2 x3 x4 x5) := .inr rfl
theorem mulhi (x0 x1 x2 x3 x4) : Statement (.mulhi x0 x1 x2 x3 x4) := .inr rfl
theorem mad (x0 x1 x2 x3 x4 x5) : Statement (.mad x0 x1 x2 x3 x4 x5) := .inr rfl
theorem div (x0 x1 x2 x3 x4) : Statement (.div x0 x1 x2 x3 x4) := .inr rfl
theorem rem (x0 x1 x2 x3 x4) : Statement (.rem x0 x1 x2 x3 x4) := .inr rfl
theorem neg (x0 x1 x2 x3) : Statement (.neg x0 x1 x2 x3) := .inr rfl
theorem abs (x0 x1 x2 x3) : Statement (.abs x0 x1 x2 x3) := .inr rfl
theorem min (x0 x1 x2 x3 x4) : Statement (.min x0 x1 x2 x3 x4) := .inr rfl
theorem max (x0 x1 x2 x3 x4) : Statement (.max x0 x1 x2 x3 x4) := .inr rfl
theorem and (x0 x1 x2 x3) : Statement (.and x0 x1 x2 x3) := .inr rfl
theorem or (x0 x1 x2 x3) : Statement (.or x0 x1 x2 x3) := .inr rfl
theorem xor (x0 x1 x2 x3) : Statement (.xor x0 x1 x2 x3) := .inr rfl
theorem not (x0 x1 x2) : Statement (.not x0 x1 x2) := .inr rfl
theorem shl (x0 x1 x2 x3) : Statement (.shl x0 x1 x2 x3) := .inr rfl
theorem shr (x0 x1 x2 x3 x4) : Statement (.shr x0 x1 x2 x3 x4) := .inr rfl
theorem rotl (x0 x1 x2 x3) : Statement (.rotl x0 x1 x2 x3) := .inr rfl
theorem clz (x0 x1 x2) : Statement (.clz x0 x1 x2) := .inr rfl
theorem popc (x0 x1 x2) : Statement (.popc x0 x1 x2) := .inr rfl
theorem brev (x0 x1 x2) : Statement (.brev x0 x1 x2) := .inr rfl
theorem bfx (x0 x1 x2 x3 x4 x5) : Statement (.bfx x0 x1 x2 x3 x4 x5) := .inr rfl
theorem bfi (x0 x1 x2 x3 x4 x5) : Statement (.bfi x0 x1 x2 x3 x4 x5) := .inr rfl
theorem cmp (x0 x1 x2 x3 x4 x5) : Statement (.cmp x0 x1 x2 x3 x4 x5) := .inr rfl
theorem sel (x0 x1 x2 x3 x4) : Statement (.sel x0 x1 x2 x3 x4) := .inr rfl
theorem ext (x0 x1 x2 x3 x4) : Statement (.ext x0 x1 x2 x3 x4) := .inr rfl
theorem trunc (x0 x1 x2 x3 x4 x5) : Statement (.trunc x0 x1 x2 x3 x4 x5) := .inr rfl
theorem addsat (x0 x1 x2 x3 x4) : Statement (.addsat x0 x1 x2 x3 x4) := .inr rfl
theorem subsat (x0 x1 x2 x3 x4) : Statement (.subsat x0 x1 x2 x3 x4) := .inr rfl
theorem lea (x0 x1 x2 x3 x4 x5 x6 x7) : Statement (.lea x0 x1 x2 x3 x4 x5 x6 x7) := .inr rfl
theorem shfl (x0 x1 x2 x3 x4) : Statement (.shfl x0 x1 x2 x3 x4) := .inr rfl
theorem bcast (x0 x1 x2 x3) : Statement (.bcast x0 x1 x2 x3) := .inr rfl
theorem vote (x0 x1 x2) : Statement (.vote x0 x1 x2) := .inr rfl
theorem ballot (x0 x1 x2) : Statement (.ballot x0 x1 x2) := .inr rfl
theorem redg (x0 x1 x2 x3 x4 x5 x6) : Statement (.redg x0 x1 x2 x3 x4 x5 x6) := .inr rfl
theorem scang (x0 x1 x2 x3 x4 x5 x6 x7) : Statement (.scang x0 x1 x2 x3 x4 x5 x6 x7) := .inr rfl
theorem aset (x0 x1 x2 x3 x4 x5) : Statement (.aset x0 x1 x2 x3 x4 x5) := .inr rfl
theorem aget (x0 x1 x2 x3) : Statement (.aget x0 x1 x2 x3) := .inr rfl
theorem afill (x0 x1 x2 x3) : Statement (.afill x0 x1 x2 x3) := .inr rfl
theorem fadd (x0 x1 x2 x3 x4 x5) : Statement (.fadd x0 x1 x2 x3 x4 x5) := .inr rfl
theorem fsub (x0 x1 x2 x3 x4 x5) : Statement (.fsub x0 x1 x2 x3 x4 x5) := .inr rfl
theorem fmul (x0 x1 x2 x3 x4 x5) : Statement (.fmul x0 x1 x2 x3 x4 x5) := .inr rfl
theorem fma (x0 x1 x2 x3 x4 x5 x6) : Statement (.fma x0 x1 x2 x3 x4 x5 x6) := .inr rfl
theorem fdiv (x0 x1 x2 x3 x4 x5) : Statement (.fdiv x0 x1 x2 x3 x4 x5) := .inr rfl
theorem fneg (x0 x1 x2) : Statement (.fneg x0 x1 x2) := .inr rfl
theorem fabs (x0 x1 x2) : Statement (.fabs x0 x1 x2) := .inr rfl
theorem fmin (x0 x1 x2 x3 x4) : Statement (.fmin x0 x1 x2 x3 x4) := .inr rfl
theorem fmax (x0 x1 x2 x3 x4) : Statement (.fmax x0 x1 x2 x3 x4) := .inr rfl
theorem fcmp (x0 x1 x2 x3 x4 x5) : Statement (.fcmp x0 x1 x2 x3 x4 x5) := .inr rfl
theorem fclass (x0 x1 x2) : Statement (.fclass x0 x1 x2) := .inr rfl
theorem fcopysign (x0 x1 x2 x3) : Statement (.fcopysign x0 x1 x2 x3) := .inr rfl
theorem frnd (x0 x1 x2 x3 x4) : Statement (.frnd x0 x1 x2 x3 x4) := .inr rfl
theorem fscale (x0 x1 x2 x3 x4 x5) : Statement (.fscale x0 x1 x2 x3 x4 x5) := .inr rfl
theorem cvt (x0 x1 x2 x3 x4 x5 x6) : Statement (.cvt x0 x1 x2 x3 x4 x5 x6) := .inr rfl
theorem pack (x0 x1 x2) : Statement (.pack x0 x1 x2) := .inr rfl
theorem unpack (x0 x1 x2 x3) : Statement (.unpack x0 x1 x2 x3) := .inr rfl
theorem rsdenc (x0 x1 x2) : Statement (.rsdenc x0 x1 x2) := .inr rfl
theorem rsddec (x0 x1) : Statement (.rsddec x0 x1) := .inr rfl
theorem exp2 (x0 x1 x2) : Statement (.exp2 x0 x1 x2) := .inr rfl
theorem log2 (x0 x1 x2) : Statement (.log2 x0 x1 x2) := .inr rfl
theorem rcp (x0 x1 x2) : Statement (.rcp x0 x1 x2) := .inr rfl
theorem sqrt (x0 x1 x2) : Statement (.sqrt x0 x1 x2) := .inr rfl
theorem rsqrt (x0 x1 x2) : Statement (.rsqrt x0 x1 x2) := .inr rfl
theorem sinpi (x0 x1 x2) : Statement (.sinpi x0 x1 x2) := .inr rfl
theorem cospi (x0 x1 x2) : Statement (.cospi x0 x1 x2) := .inr rfl
theorem tanh (x0 x1 x2) : Statement (.tanh x0 x1 x2) := .inr rfl
theorem sigmoid (x0 x1 x2) : Statement (.sigmoid x0 x1 x2) := .inr rfl
theorem erf (x0 x1 x2) : Statement (.erf x0 x1 x2) := .inr rfl
theorem madd (x0 x1 x2 x3 x4 x5) : Statement (.madd x0 x1 x2 x3 x4 x5) := .inr rfl
theorem msub (x0 x1 x2 x3 x4 x5) : Statement (.msub x0 x1 x2 x3 x4 x5) := .inr rfl
theorem mmul (x0 x1 x2 x3 x4 x5) : Statement (.mmul x0 x1 x2 x3 x4 x5) := .inr rfl
theorem mfma (x0 x1 x2 x3 x4 x5 x6) : Statement (.mfma x0 x1 x2 x3 x4 x5 x6) := .inr rfl
theorem mexp (x0 x1 x2) : Statement (.mexp x0 x1 x2) := .inr rfl
theorem mrelu (x0 x1 x2) : Statement (.mrelu x0 x1 x2) := .inr rfl
theorem msig (x0 x1 x2) : Statement (.msig x0 x1 x2) := .inr rfl
theorem mtanh (x0 x1 x2) : Statement (.mtanh x0 x1 x2) := .inr rfl
theorem mgelu (x0 x1 x2) : Statement (.mgelu x0 x1 x2) := .inr rfl
theorem mcol (x0 x1 x2 x3 x4) : Statement (.mcol x0 x1 x2 x3 x4) := .inr rfl
theorem mmake (x0 x1 x2 x3) : Statement (.mmake x0 x1 x2 x3) := .inr rfl
theorem mscale (x0 x1 x2 x3 x4) : Statement (.mscale x0 x1 x2 x3 x4) := .inr rfl
theorem mma (x0 x1 x2 x3 x4) : Statement (.mma x0 x1 x2 x3 x4) := .inr rfl
theorem accacq (x0 x1) : Statement (.accacq x0 x1) := .inr rfl
theorem accrel (x0 x1) : Statement (.accrel x0 x1) := .inr rfl
theorem accrd (x0 x1 x2 x3 x4 x5) : Statement (.accrd x0 x1 x2 x3 x4 x5) := .inr rfl
theorem accwr (x0 x1 x2 x3 x4 x5) : Statement (.accwr x0 x1 x2 x3 x4 x5) := .inr rfl
theorem acczero (x0 x1 x2) : Statement (.acczero x0 x1 x2) := .inr rfl
theorem ldfrag (x0 x1 x2 x3 x4 x5 x6) : Statement (.ldfrag x0 x1 x2 x3 x4 x5 x6) := .inr rfl
theorem ldscale (x0 x1 x2 x3) : Statement (.ldscale x0 x1 x2 x3) := .inr rfl
theorem rsdraw (x0 x1 x2 x3 x4) : Statement (.rsdraw x0 x1 x2 x3 x4) := .inr rfl
theorem ld (x0 x1 x2 x3) : Statement (.ld x0 x1 x2 x3) := .inr rfl
theorem st (x0 x1 x2 x3 x4) : Statement (.st x0 x1 x2 x3 x4) := .inr rfl
theorem atom (x0 x1 x2 x3 x4 x5 x6 x7) : Statement (.atom x0 x1 x2 x3 x4 x5 x6 x7) := .inr rfl
theorem cas (x0 x1 x2 x3 x4 x5 x6 x7) : Statement (.cas x0 x1 x2 x3 x4 x5 x6 x7) := .inr rfl
theorem fence (x0 x1 x2 x3) : Statement (.fence x0 x1 x2 x3) := .inr rfl
theorem bar (x0 x1 x2) : Statement (.bar x0 x1 x2) := .inr rfl
theorem barar (x0 x1 x2) : Statement (.barar x0 x1 x2) := .inr rfl
theorem barwt (x0 x1 x2 x3) : Statement (.barwt x0 x1 x2 x3) := .inr rfl
theorem ldacq (x0 x1 x2 x3 x4) : Statement (.ldacq x0 x1 x2 x3 x4) := .inr rfl
theorem strel (x0 x1 x2 x3 x4 x5) : Statement (.strel x0 x1 x2 x3 x4 x5) := .inr rfl
theorem prefetch (x0 x1 x2) : Statement (.prefetch x0 x1 x2) := .inr rfl
theorem ldw (x0 x1 x2 x3 x4) : Statement (.ldw x0 x1 x2 x3 x4) := .inr rfl
theorem stw (x0 x1 x2 x3 x4 x5) : Statement (.stw x0 x1 x2 x3 x4 x5) := .inr rfl
theorem mkref (x0 x1) : Statement (.mkref x0 x1) := .inr rfl
theorem unref (x0 x1) : Statement (.unref x0 x1) := .inr rfl
theorem objinit (x0 x1 x2 x3 x4) : Statement (.objinit x0 x1 x2 x3 x4) := .inr rfl
theorem objinitRetire (x0 x1) : Statement (.objinitRetire x0 x1) := .inr rfl
theorem publ (x0 x1 x2 x3 x4 x5) : Statement (.publ x0 x1 x2 x3 x4 x5) := .inr rfl
theorem refeq (x0 x1 x2) : Statement (.refeq x0 x1 x2) := .inr rfl
theorem refadr (x0 x1) : Statement (.refadr x0 x1) := .inr rfl
theorem ldref (x0 x1) : Statement (.ldref x0 x1) := .inr rfl
theorem stref (x0 x1 x2) : Statement (.stref x0 x1 x2) := .inr rfl
theorem objst (x0 x1 x2 x3 x4) : Statement (.objst x0 x1 x2 x3 x4) := .inr rfl
theorem copy (x0 x1 x2 x3 x4 x5 x6 x7 x8 x9) : Statement (.copy x0 x1 x2 x3 x4 x5 x6 x7 x8 x9) := .inr rfl
theorem gather (x0 x1 x2 x3 x4 x5 x6 x7) : Statement (.gather x0 x1 x2 x3 x4 x5 x6 x7) := .inr rfl
theorem scatter (x0 x1 x2 x3 x4 x5 x6 x7) : Statement (.scatter x0 x1 x2 x3 x4 x5 x6 x7) := .inr rfl
theorem coll (x0 x1 x2 x3 x4 x5 x6 x7 x8 x9) : Statement (.coll x0 x1 x2 x3 x4 x5 x6 x7 x8 x9) := .inr rfl
theorem post (x0 x1 x2 x3 x4) : Statement (.post x0 x1 x2 x3 x4) := .inr rfl
theorem tjoin (x0 x1) : Statement (.tjoin x0 x1) := .inr rfl
theorem kwait (x0 x1) : Statement (.kwait x0 x1) := .inr rfl
theorem ktest (x0 x1) : Statement (.ktest x0 x1) := .inr rfl
theorem sigdec (x0 x1 x2 x3 x4 x5) : Statement (.sigdec x0 x1 x2 x3 x4 x5) := .inr rfl
theorem sigwait (x0 x1 x2 x3 x4 x5) : Statement (.sigwait x0 x1 x2 x3 x4 x5) := .inr rfl
theorem sigset (x0 x1 x2 x3 x4 x5) : Statement (.sigset x0 x1 x2 x3 x4 x5) := .inr rfl
theorem sigrd (x0 x1 x2 x3) : Statement (.sigrd x0 x1 x2 x3) := .inr rfl
theorem enq (x0 x1 x2 x3 x4 x5 x6) : Statement (.enq x0 x1 x2 x3 x4 x5 x6) := .inr rfl
theorem nsleep (x0 x1) : Statement (.nsleep x0 x1) := .inr rfl
theorem twait (x0 x1 x2 x3 x4 x5 x6) : Statement (.twait x0 x1 x2 x3 x4 x5 x6) := .inr rfl
theorem rdclk (x0) : Statement (.rdclk x0) := .inr rfl
theorem rdtime (x0) : Statement (.rdtime x0) := .inr rfl
theorem yield (x0) : Statement (.yield x0) := .inr rfl
theorem hop (x0 x1 x2 x3) : Statement (.hop x0 x1 x2 x3) := .inr rfl
theorem trvmapRep (x0 x1) : Statement (.trvmapRep x0 x1) := .inr rfl
theorem trvmapVer (x0) : Statement (.trvmapVer x0) := .inr rfl
theorem ctrrd (x0 x1) : Statement (.ctrrd x0 x1) := .inr rfl
theorem ctrctl (x0 x1 x2 x3) : Statement (.ctrctl x0 x1 x2 x3) := .inr rfl
theorem brkpt (x0 x1) : Statement (.brkpt x0 x1) := .inr rfl
theorem assert (x0 x1 x2) : Statement (.assert x0 x1 x2) := .inr rfl
theorem rdflag (x0) : Statement (.rdflag x0) := .inr rfl
theorem clrflag (x0 x1) : Statement (.clrflag x0 x1) := .inr rfl
theorem rdfev (x0) : Statement (.rdfev x0) := .inr rfl
theorem sNop : Statement .sNop := .inl rfl
theorem salu (x0 x1 x2) : Statement (.salu x0 x1 x2) := .inl rfl
theorem sli (x0 x1) : Statement (.sli x0 x1) := .inl rfl
theorem slhi (x0 x1) : Statement (.slhi x0 x1) := .inl rfl
theorem sbr (x0) : Statement (.sbr x0) := .inl rfl
theorem sbrc (x0 x1) : Statement (.sbrc x0 x1) := .inl rfl
theorem sjoin : Statement .sjoin := .inl rfl
theorem scall (x0) : Statement (.scall x0) := .inl rfl
theorem sret : Statement .sret := .inl rfl
theorem sexit : Statement .sexit := .inl rfl
theorem strap (x0) : Statement (.strap x0) := .inl rfl
theorem sloop (x0 x1 x2 x3) : Statement (.sloop x0 x1 x2 x3) := .inl rfl
theorem ssetfm (x0) : Statement (.ssetfm x0) := .inl rfl
theorem sxset (x0 x1 x2 x3) : Statement (.sxset x0 x1 x2 x3) := .inl rfl
theorem sxidx (x0 x1) : Statement (.sxidx x0 x1) := .inl rfl
theorem sacq (x0) : Statement (.sacq x0) := .inl rfl
theorem srel : Statement .srel := .inl rfl
theorem skwait (x0) : Statement (.skwait x0) := .inl rfl
theorem skest (x0 x1) : Statement (.skest x0 x1) := .inl rfl
theorem sbar (x0 x1) : Statement (.sbar x0 x1) := .inl rfl
theorem ssys (x0 x1) : Statement (.ssys x0 x1) := .inl rfl
theorem sv2s (x0 x1) : Statement (.sv2s x0 x1) := .inl rfl
theorem vNop : Statement .vNop := .inl rfl
theorem iadd (x0) : Statement (.iadd x0) := .inl rfl
theorem isub (x0) : Statement (.isub x0) := .inl rfl
theorem imul (x0) : Statement (.imul x0) := .inl rfl
theorem imhs (x0) : Statement (.imhs x0) := .inl rfl
theorem imhn (x0) : Statement (.imhn x0) := .inl rfl
theorem imad (x0) : Statement (.imad x0) := .inl rfl
theorem iand (x0) : Statement (.iand x0) := .inl rfl
theorem ior (x0) : Statement (.ior x0) := .inl rfl
theorem ixor (x0) : Statement (.ixor x0) := .inl rfl
theorem ishl (x0) : Statement (.ishl x0) := .inl rfl
theorem ishrs (x0) : Statement (.ishrs x0) := .inl rfl
theorem ishrn (x0) : Statement (.ishrn x0) := .inl rfl
theorem irotl (x0) : Statement (.irotl x0) := .inl rfl
theorem isel (x0) : Statement (.isel x0) := .inl rfl
theorem imins (x0) : Statement (.imins x0) := .inl rfl
theorem iminn (x0) : Statement (.iminn x0) := .inl rfl
theorem imaxs (x0) : Statement (.imaxs x0) := .inl rfl
theorem imaxn (x0) : Statement (.imaxn x0) := .inl rfl
theorem iclz (x0) : Statement (.iclz x0) := .inl rfl
theorem ipopc (x0) : Statement (.ipopc x0) := .inl rfl
theorem ibrev (x0) : Statement (.ibrev x0) := .inl rfl
theorem ibfxs (x0) : Statement (.ibfxs x0) := .inl rfl
theorem ibfxn (x0) : Statement (.ibfxn x0) := .inl rfl
theorem ibfi (x0) : Statement (.ibfi x0) := .inl rfl
theorem iaddss (x0) : Statement (.iaddss x0) := .inl rfl
theorem iaddsn (x0) : Statement (.iaddsn x0) := .inl rfl
theorem isubss (x0) : Statement (.isubss x0) := .inl rfl
theorem isubsn (x0) : Statement (.isubsn x0) := .inl rfl
theorem iaddcp (x0) : Statement (.iaddcp x0) := .inl rfl
theorem iaddci (x0) : Statement (.iaddci x0) := .inl rfl
theorem icmp (x0) : Statement (.icmp x0) := .inl rfl
theorem idivs (x0) : Statement (.idivs x0) := .inl rfl
theorem idivn (x0) : Statement (.idivn x0) := .inl rfl
theorem irems (x0) : Statement (.irems x0) := .inl rfl
theorem iremn (x0) : Statement (.iremn x0) := .inl rfl
theorem vFcmp (x0) : Statement (.vFcmp x0) := .inl rfl
theorem vFadd (x0) : Statement (.vFadd x0) := .inl rfl
theorem vFsub (x0) : Statement (.vFsub x0) := .inl rfl
theorem vFmul (x0) : Statement (.vFmul x0) := .inl rfl
theorem ffma (x0) : Statement (.ffma x0) := .inl rfl
theorem vFdiv (x0) : Statement (.vFdiv x0) := .inl rfl
theorem vFmin (x0) : Statement (.vFmin x0) := .inl rfl
theorem vFmax (x0) : Statement (.vFmax x0) := .inl rfl
theorem fcsgn (x0) : Statement (.fcsgn x0) := .inl rfl
theorem vFclass (x0) : Statement (.vFclass x0) := .inl rfl
theorem vFrnd (x0) : Statement (.vFrnd x0) := .inl rfl
theorem fscl (x0) : Statement (.fscl x0) := .inl rfl
theorem vCvt (x0) : Statement (.vCvt x0) := .inl rfl
theorem rsenc (x0) : Statement (.rsenc x0) := .inl rfl
theorem rsdec (x0) : Statement (.rsdec x0) := .inl rfl
theorem xshf (x0) : Statement (.xshf x0) := .inl rfl
theorem xbc (x0) : Statement (.xbc x0) := .inl rfl
theorem xvote (x0) : Statement (.xvote x0) := .inl rfl
theorem xblt (x0) : Statement (.xblt x0) := .inl rfl
theorem xred (x0) : Statement (.xred x0) := .inl rfl
theorem xscn (x0) : Statement (.xscn x0) := .inl rfl
theorem ubc (x0) : Statement (.ubc x0) := .inl rfl
theorem rget (x0) : Statement (.rget x0) := .inl rfl
theorem rset (x0) : Statement (.rset x0) := .inl rfl
theorem mld (x0) : Statement (.mld x0) := .inl rfl
theorem mst (x0) : Statement (.mst x0) := .inl rfl
theorem tread (x0) : Statement (.tread x0) := .inl rfl
theorem fNop : Statement .fNop := .inl rfl
theorem fExp2 (x0) : Statement (.fExp2 x0) := .inl rfl
theorem fLog2 (x0) : Statement (.fLog2 x0) := .inl rfl
theorem fRcp (x0) : Statement (.fRcp x0) := .inl rfl
theorem fSqrt (x0) : Statement (.fSqrt x0) := .inl rfl
theorem fRsqrt (x0) : Statement (.fRsqrt x0) := .inl rfl
theorem fSinpi (x0) : Statement (.fSinpi x0) := .inl rfl
theorem fCospi (x0) : Statement (.fCospi x0) := .inl rfl
theorem fTanh (x0) : Statement (.fTanh x0) := .inl rfl
theorem fSigmoid (x0) : Statement (.fSigmoid x0) := .inl rfl
theorem fErf (x0) : Statement (.fErf x0) := .inl rfl
theorem sscl (x0 x1 x2 x3 x4) : Statement (.sscl x0 x1 x2 x3 x4) := .inl rfl
theorem lNop : Statement .lNop := .inl rfl
theorem ldn (x0) : Statement (.ldn x0) := .inl rfl
theorem lds (x0) : Statement (.lds x0) := .inl rfl
theorem lSt (x0) : Statement (.lSt x0) := .inl rfl
theorem ldq (x0) : Statement (.ldq x0) := .inl rfl
theorem strl (x0) : Statement (.strl x0) := .inl rfl
theorem aadd (x0) : Statement (.aadd x0) := .inl rfl
theorem amins (x0) : Statement (.amins x0) := .inl rfl
theorem aminn (x0) : Statement (.aminn x0) := .inl rfl
theorem amaxs (x0) : Statement (.amaxs x0) := .inl rfl
theorem amaxn (x0) : Statement (.amaxn x0) := .inl rfl
theorem aand (x0) : Statement (.aand x0) := .inl rfl
theorem aor (x0) : Statement (.aor x0) := .inl rfl
theorem axor (x0) : Statement (.axor x0) := .inl rfl
theorem axchg (x0) : Statement (.axchg x0) := .inl rfl
theorem acas (x0) : Statement (.acas x0) := .inl rfl
theorem pref (x0) : Statement (.pref x0) := .inl rfl
theorem fnc (x0) : Statement (.fnc x0) := .inl rfl
theorem spst (x0) : Statement (.spst x0) := .inl rfl
theorem spld (x0) : Statement (.spld x0) := .inl rfl
theorem ldt (x0) : Statement (.ldt x0) := .inl rfl
theorem stt (x0) : Statement (.stt x0) := .inl rfl
theorem mNop : Statement .mNop := .inl rfl
theorem tstep (x0 x1 x2) : Statement (.tstep x0 x1 x2) := .inl rfl
theorem tlatch (x0 x1 x2) : Statement (.tlatch x0 x1 x2) := .inl rfl
theorem twr (x0 x1 x2 x3) : Statement (.twr x0 x1 x2 x3) := .inl rfl
theorem tzero (x0 x1) : Statement (.tzero x0 x1) := .inl rfl
theorem aNop : Statement .aNop := .inl rfl
theorem aCopy (x0 x1) : Statement (.aCopy x0 x1) := .inl rfl
theorem aGather (x0 x1) : Statement (.aGather x0 x1) := .inl rfl
theorem aScatter (x0 x1) : Statement (.aScatter x0 x1) := .inl rfl
theorem aColl (x0 x1) : Statement (.aColl x0 x1) := .inl rfl
theorem aPubl (x0 x1) : Statement (.aPubl x0 x1) := .inl rfl
theorem aPost (x0 x1) : Statement (.aPost x0 x1) := .inl rfl
theorem aEnq (x0 x1) : Statement (.aEnq x0 x1) := .inl rfl
theorem aSigdec (x0 x1) : Statement (.aSigdec x0 x1) := .inl rfl
theorem aSigset (x0 x1) : Statement (.aSigset x0 x1) := .inl rfl
theorem aHop (x0 x1 x2) : Statement (.aHop x0 x1 x2) := .inl rfl
theorem aTjoin (x0 x1) : Statement (.aTjoin x0 x1) := .inl rfl
theorem queueEnable (x0 x1) : Statement (.queueEnable x0 x1) := .inl rfl
theorem queueDisable (x0) : Statement (.queueDisable x0) := .inl rfl
theorem tailPoll (x0) : Statement (.tailPoll x0) := .inl rfl
theorem queueLaunch (x0) : Statement (.queueLaunch x0) := .inl rfl
theorem queueWait (x0) : Statement (.queueWait x0) := .inl rfl
theorem queueDecrement (x0) : Statement (.queueDecrement x0) := .inl rfl
theorem queueSet (x0) : Statement (.queueSet x0) := .inl rfl
theorem queueNoOperation (x0) : Statement (.queueNoOperation x0) := .inl rfl
theorem workSteal (x0 x1) : Statement (.workSteal x0 x1) := .inl rfl
theorem blockPlace (x0) : Statement (.blockPlace x0) := .inl rfl
theorem blockWaitLimit (x0) : Statement (.blockWaitLimit x0) := .inl rfl
theorem translationMiss (x0) : Statement (.translationMiss x0) := .inl rfl
theorem translationComplete (x0) : Statement (.translationComplete x0) := .inl rfl
theorem instructionStoreFill (x0 x1 x2) : Statement (.instructionStoreFill x0 x1 x2) := .inl rfl
theorem bundleDispatch (x0) : Statement (.bundleDispatch x0) := .inl rfl
theorem sideRotation (x0) : Statement (.sideRotation x0) := .inl rfl
theorem timingCheck (x0 x1 x2) : Statement (.timingCheck x0 x1 x2) := .inl rfl
theorem clockRestore (x0) : Statement (.clockRestore x0) := .inl rfl
theorem regionCommit (x0 x1) : Statement (.regionCommit x0 x1) := .inl rfl
theorem faultRollback (x0 x1 x2 x3 x4) : Statement (.faultRollback x0 x1 x2 x3 x4) := .inl rfl
theorem eccError (x0 x1) : Statement (.eccError x0 x1) := .inl rfl
theorem dispPoll (x0) : Statement (.dispPoll x0) := .inl rfl
theorem quantumExpiry (x0 x1) : Statement (.quantumExpiry x0 x1) := .inl rfl
theorem preemptRequest (x0 x1) : Statement (.preemptRequest x0 x1) := .inl rfl
theorem crewSuspend (x0) : Statement (.crewSuspend x0) := .inl rfl
theorem crewResume (x0 x1) : Statement (.crewResume x0 x1) := .inl rfl
theorem engineReset (x0) : Statement (.engineReset x0) := .inl rfl
theorem matrixUnitReset (x0) : Statement (.matrixUnitReset x0) := .inl rfl
theorem matrixResetComplete (x0) : Statement (.matrixResetComplete x0) := .inl rfl
theorem ballastStep (x0) : Statement (.ballastStep x0) := .inl rfl
theorem accGrant (x0) : Statement (.accGrant x0) := .inl rfl
theorem tileSave (x0 x1) : Statement (.tileSave x0 x1) := .inl rfl
theorem tileRestore (x0) : Statement (.tileRestore x0) := .inl rfl
theorem tileWriteComplete (x0 x1) : Statement (.tileWriteComplete x0 x1) := .inl rfl
theorem engineStart (x0) : Statement (.engineStart x0) := .inl rfl
theorem tokenComplete (x0) : Statement (.tokenComplete x0) := .inl rfl
theorem tokenFail (x0 x1) : Statement (.tokenFail x0 x1) := .inl rfl
theorem claimRound (x0) : Statement (.claimRound x0) := .inl rfl
theorem markPhase (x0) : Statement (.markPhase x0) := .inl rfl
theorem rootStore (x0) : Statement (.rootStore x0) := .inl rfl
theorem collectiveFrame (x0 x1) : Statement (.collectiveFrame x0 x1) := .inl rfl
theorem collectiveTimeout (x0) : Statement (.collectiveTimeout x0) := .inl rfl
theorem hostRdmaWrite (x0 x1 x2) : Statement (.hostRdmaWrite x0 x1 x2) := .inl rfl
theorem hostRdmaRead (x0 x1 x2) : Statement (.hostRdmaRead x0 x1 x2) := .inl rfl
theorem hostRdmaAtomic (x0 x1 x2 x3) : Statement (.hostRdmaAtomic x0 x1 x2 x3) := .inl rfl
theorem pageMigration (x0 x1 x2) : Statement (.pageMigration x0 x1 x2) := .inl rfl
theorem counterHalving (x0) : Statement (.counterHalving x0) := .inl rfl
theorem mshrRetry (x0) : Statement (.mshrRetry x0) := .inl rfl
theorem barrierReleaseWave (x0) : Statement (.barrierReleaseWave x0) := .inl rfl
theorem watchSatisfied (x0) : Statement (.watchSatisfied x0) := .inl rfl
theorem twaitDeadline (x0) : Statement (.twaitDeadline x0) := .inl rfl
theorem nsleepExpiry (x0) : Statement (.nsleepExpiry x0) := .inl rfl
theorem yieldEnd (x0) : Statement (.yieldEnd x0) := .inl rfl
theorem frequencyTransition (x0 x1) : Statement (.frequencyTransition x0 x1) := .inl rfl
theorem travelDeparture (x0) : Statement (.travelDeparture x0) := .inl rfl
theorem recordStart (x0) : Statement (.recordStart x0) := .inl rfl
theorem arrivalSuspend (x0) : Statement (.arrivalSuspend x0) := .inl rfl
theorem replication (x0 x1) : Statement (.replication x0 x1) := .inl rfl
theorem travelLaunchHold (x0) : Statement (.travelLaunchHold x0) := .inl rfl
theorem blockDone (x0) : Statement (.blockDone x0) := .inl rfl
theorem contextCreate (x0 x1) : Statement (.contextCreate x0 x1) := .inl rfl
theorem contextEnd (x0) : Statement (.contextEnd x0) := .inl rfl
theorem contextFree (x0) : Statement (.contextFree x0) := .inl rfl
theorem seedChange (x0 x1) : Statement (.seedChange x0 x1) := .inl rfl
theorem registerWrite (x0 x1) : Statement (.registerWrite x0 x1) := .inl rfl
theorem tlbInvalidate (x0) : Statement (.tlbInvalidate x0) := .inl rfl
theorem tlbInvalidateComplete : Statement .tlbInvalidateComplete := .inl rfl
theorem codeObjectLoad : Statement .codeObjectLoad := .inl rfl
theorem codeObjectUnload : Statement .codeObjectUnload := .inl rfl
theorem migrate : Statement .migrate := .inl rfl
theorem getVersion (x0 x1) : Statement (.getVersion x0 x1) := .inl rfl
theorem getCapabilities (x0 x1) : Statement (.getCapabilities x0 x1) := .inl rfl
theorem negotiateAlgorithms (x0 x1) : Statement (.negotiateAlgorithms x0 x1) := .inl rfl
theorem getDigests (x0 x1) : Statement (.getDigests x0 x1) := .inl rfl
theorem getCertificate (x0 x1) : Statement (.getCertificate x0 x1) := .inl rfl
theorem challenge (x0 x1) : Statement (.challenge x0 x1) := .inl rfl
theorem getMeasurements (x0 x1) : Statement (.getMeasurements x0 x1) := .inl rfl
theorem halt (x0) : Statement (.halt x0) := .inl rfl
theorem resume (x0) : Statement (.resume x0) := .inl rfl
theorem list (x0) : Statement (.list x0) := .inl rfl
theorem bset (x0) : Statement (.bset x0) := .inl rfl
theorem bclr (x0) : Statement (.bclr x0) := .inl rfl
theorem step (x0) : Statement (.step x0) := .inl rfl
theorem rval (x0) : Statement (.rval x0) := .inl rfl
theorem rstat (x0) : Statement (.rstat x0) := .inl rfl
theorem wset (x0) : Statement (.wset x0) := .inl rfl
theorem wclr (x0) : Statement (.wclr x0) := .inl rfl
theorem powerCapWrite (x0) : Statement (.powerCapWrite x0) := .inl rfl
theorem pwrstatRead : Statement .pwrstatRead := .inl rfl
theorem sustainedThrottleStep (x0) : Statement (.sustainedThrottleStep x0) := .inl rfl
theorem thermalThrottle (x0) : Statement (.thermalThrottle x0) := .inl rfl
theorem thermalReset (x0) : Statement (.thermalReset x0) := .inl rfl
theorem safelightHalt (x0) : Statement (.safelightHalt x0) := .inl rfl
theorem safelightRelease (x0) : Statement (.safelightRelease x0) := .inl rfl
theorem dieReset (x0) : Statement (.dieReset x0) := .inl rfl
theorem moduleReset : Statement .moduleReset := .inl rfl
theorem bringUpComplete : Statement .bringUpComplete := .inl rfl
theorem firmwareStaging (x0) : Statement (.firmwareStaging x0) := .inl rfl
theorem getTid (x0) : Statement (.getTid x0) := .inl rfl
theorem getPldmVersion (x0) : Statement (.getPldmVersion x0) := .inl rfl
theorem getPldmTypes (x0) : Statement (.getPldmTypes x0) := .inl rfl
theorem getPldmCommands (x0) : Statement (.getPldmCommands x0) := .inl rfl
theorem getPdr (x0) : Statement (.getPdr x0) := .inl rfl
theorem getSensorReading (x0) : Statement (.getSensorReading x0) := .inl rfl
theorem getStateSensorReadings (x0) : Statement (.getStateSensorReadings x0) := .inl rfl
theorem setNumericEffecterValue (x0 x1) : Statement (.setNumericEffecterValue x0 x1) := .inl rfl
theorem getNumericEffecterValue (x0) : Statement (.getNumericEffecterValue x0) := .inl rfl
theorem requestUpdate : Statement .requestUpdate := .inl rfl
theorem activateFirmware : Statement .activateFirmware := .inl rfl
theorem lSlotResultArrival (x0 x1) : Statement (.lSlotResultArrival x0 x1) := .inl rfl

end Sys2Proof.Laws.Encoding
end

