-- ==== Sys2Proof/Laws/Queue.lean ====
section
/-! SUPPORT. What a queue does when it may start the entry at its head. -/

namespace Sys2Proof.Machine
open Sys2Proof

/-- A queue that may start its head entry does what its kind says, or refuses it. -/
theorem serveHead_eq {s : State} {q kind t : Nat} {e : QEntry} (S : Serving s q kind e t) (k : QEntry → Nat → State → Except Nat State) :
    serveHead q kind k s = match k e t (queueSeen s q) with | .error c => queueFail q c (queueSeen s q) | .ok s => s := by
  have h1 : ¬(((queueAt s q).st ≠ .ready ∧ (queueAt s q).st ≠ .waiting) ∨ (ctxAt s (queueAt s q).ctx).st ≠ .live
      ∨ (!(queueAt s q).waits.isEmpty) = true) := by
    have := S.st; simp only [S.live, S.waits, List.isEmpty_nil]; simp; intro h; simp_all
  have h2 : (decide (kind = 0 ∨ 5 < kind) || e.dirty
      || (ctxBytes (queueSeen s q) (queueAt s q).ctx ((queueAt s q).rbase + 8) 56).any (· != 0)) = false := by
    have := S.one; have := S.five; rw [S.clean, S.line]; simp; omega
  have h3 : ¬(((queueAt s q).ser = true ∨ e.flags % 2 = 1) ∧ queueOpen (queueSeen s q) (queueAt s q) = true) := by
    rcases S.free with ⟨h, h'⟩ | h <;> simp [*]
  have h4 : ¬(ctxKey (queueSeen s q) (queueAt s q).ctx ((queueAt s q).entry (queueAt s q).head) false).isNone = true := by
    have := S.mapped; simp_all [Option.isNone_iff_eq_none, Option.isSome_iff_ne_none]
  unfold serveHead
  simp only [if_neg h1, S.tail, if_neg S.some, if_neg (Nat.not_lt.mpr S.fits), if_neg h4, ← S.entry, h2, S.sort,
    if_neg h3, ne_eq, not_true_eq_false, false_and, if_false, Bool.false_eq_true]
  all_goals rfl

end Sys2Proof.Machine
end

