-- ==== Sys2Proof/Tests/Slice0.lean ====
section
/-! SUPPORT. Tests: words of the encoding tables decode to their instructions, ill-formed terms are refused, and each statement's
hypotheses are met by a concrete state and operands. -/

namespace Sys2Proof.Tests
open Sys2Proof Sys2Proof.Machine
set_option Elab.async false

/-! ### The state that the witnesses start from -/

/-- The first die-store page of die 2, which is in service in every state of the module (R9). -/
def page0 : Nat := 2 ^ 39 + 2 ^ 37

/-- Words in the code window from the address of the probe's image: FHDR, CLEN, PCNT, FRET (4096 bytes of shared memory), four words,
and the code. -/
def image (fhdr : Nat) (code : List Nat) : List Byte := ([fhdr, 16, 0, 0x00100000, 0, 0, 0, 0] ++ code).flatMap (leBytes 4)

/-- The values of the probe's frame: a die-store address, a scratchpad address, a tagged reference to the die store, an array, a token,
the tile set, a moment of variance 1, one of variance -1, a device-memory address, the number 5. -/
def vals : List Val :=
  [.bits 0x100000, .bits 0xFF0000000000, .ref 0x100000 true, .arr [1, 2, 3, 4], .tok 7, .acc, .bits 0x3F8000003F800000,
   .bits 0xBF8000003F800000, .bits 0x200000, .bits 5]

/-- The operand of value i of those. -/
def v (i : Nat) : Opnd := .val (BitVec.ofNat 14 (10 - i))
/-- An immediate. -/
def k (n : Nat) : Opnd := .imm (BitVec.ofNat 14 n)
/-- The memory operand of an address value with no offset. -/
def at0 (i : Nat) : MemOp := { base := v i, off := k 0 }

/-- The probe: a portable side of context 1 on core 128, lanes 0 and 2, with those values, the code of an image, and the pages of its addresses in the
core's TLB. -/
noncomputable def world (code : List Nat) : State :=
  let s := { probeState none 0 State.reset with issue := .portable 0 0 1 }
  let s := s.updCore 0 0 (fun c => { c with mask := 5 })
  let s := s.updCore 0 0 (SideCore.onFrame (fun F => { F with
    next := 10, vals := vals.zipIdx.map (fun (x, i) => (i, List.replicate 128 x)), rets := [List.replicate 128 (.bits 1), List.replicate 128 (.bits 2)] }))
  { s with
    mem := setBytes [] (keyCode 0x10000) (image 1 code),
    cores := modifyAt (fun C => { C with tlb := [
      { ctx := 1, va := 0x100000, size := 65536, pa := page0, rd := true, wr := true },
      { ctx := 1, va := 0x200000, size := 65536, pa := 2 ^ 38, rd := true, wr := true }] }) s.cores 128 }

/-- The world with one block of one `nop`. -/
noncomputable def W : State := world [0x0F000000, 0]

/-- p holds at the issuing portable side. -/
def atSite (s : State) (p : Site → Bool) : Bool := match site? s with | some q => p q | none => false

/-- A portable state in which one thing of the issuing side, or of its group, differs. -/
noncomputable def onSide (f : Side → Side) : State := W.updSide 0 0 f
/-- As onSide, of the group. -/
noncomputable def onGroup (f : Group → Group) : State := W.updGroup 0 f

/-- The value of a result that is none of an error. -/
def good {ε α : Type} : Except ε α → Bool | .ok _ => true | .error _ => false

/-! ### Hypotheses of the statements about portable instructions -/

theorem witness_IntegerResultsOfTwoOperands : (atSite W fun p => (opndBits W p .i32 (k 8191)).isSome && (opndBits W p .i32 (v 9)).isSome &&
    (opndBits W p .i64 (v 0)).isSome) = true := by decide +kernel

theorem witness_IntegerResultsOfOtherForms : (atSite W fun p => (opndBits W p .i32 (v 9)).isSome && (opndBits W p .i32 (k 31)).isSome &&
    (opndBits W p .i64 (k 0x3FFF)).isSome) = true := by decide +kernel

theorem witness_CopyAndSelectResults : (atSite W fun p => (opndVals W p (.ty .ref) (v 2)).isSome && (opndVals W p (.arr .i32 3) (v 3)).isSome &&
    (opndBits W p .b1 (k 1)).isSome && (p.fr.rets[immNat (k 1)]?).isSome) = true := by decide +kernel

theorem witness_FloatResults : (atSite W fun p => (opndBits W p .f32 (k 3)).isSome && (opndBits W p .f16 (v 9)).isSome &&
    (opndBits W p .i32 (k 0x3FFF)).isSome) = true := by decide +kernel

theorem witness_ConversionAndSpecialFunctionResults : (atSite W fun p => (opndC W p .s8 (v 9)).isSome && (opndC W p (.ty .i32) (k 5)).isSome &&
    (opndAllC W p (.ty .bf16) [k 1, v 9]).isSome && (opndBits W p .f32 (k 1)).isSome) = true := by decide +kernel

/-- A variance of 1 is no bad lane; one of -1 is, in lane 0. -/
theorem witness_MomentResults : (atSite W fun p =>
    (match opndBits W p .mo (v 6), opndBits W p .mo (v 7) with
     | some xs, some ys =>
       let f := fun (zs : List DWord) => (List.range 128).map (fun i => moFrame false [nth 0 zs i] (fun ps => moRelu (nth ⟨0, 0⟩ ps 0)))
       decide (badLane p.mask (f xs) = none) && decide (badLane p.mask (f ys) = some 0)
     | _, _ => false)) = true := by decide +kernel

theorem witness_CrossLaneResults : (atSite W fun p => (opndVals W p (.ty .i32) (v 9)).isSome && (opndBits W p .i32 (k 127)).isSome &&
    (opndBits W p .b1 (k 0)).isSome) = true := by decide +kernel

/-- Index 3 of an array of 4 is in range, index 4 is not, in lane 0. -/
theorem witness_RegisterArrayResults : (atSite W fun p =>
    (match opndArrs p (v 3), opndBits W p .i32 (k 3), opndBits W p .i32 (k 4) with
     | some arrs, some xs, some ys =>
       let bad := fun (zs : List DWord) => (lanesOf p.mask).find? (fun j => (nth [] arrs p.low).length ≤ (nth 0 zs j).toNat)
       decide (bad xs = none) && decide (bad ys = some 0)
     | _, _, _ => false)) = true := by decide +kernel

/-- The access of 4 bytes passes in the die store and in the scratchpad, to read and to write. -/
theorem witness_LoadAndStoreResults : ([false, true].all fun ds => [false, true].all fun wr => atSite W fun p =>
    (match memLanes W p (at0 (if ds then 0 else 1)) with
     | some as => (match checkLanes W p 4 4 (spaceMask ds) (!wr) wr as with
       | .ok accs => (watchLane W p 4 (!wr) wr as accs).isNone | .error _ => false)
     | none => false)) = true := by decide +kernel

/-- A misaligned address, one of the other space, and one that no page maps fail in lane 0. -/
theorem witness_AccessFaults : (atSite W fun p =>
    (match memLanes W p { base := v 0, off := k 1 }, memLanes W p (at0 1), memLanes W p { base := k 0, off := k 0 } with
     | some as, some bs, some cs =>
       (match checkLanes W p 4 4 2 true false as, checkLanes W p 4 4 2 false true bs, checkLanes W p 4 4 2 true true cs with
        | .error (0, .misalignment), .error (0, .space), .error (0, .page) => true | _, _, _ => false)
     | _, _, _ => false)) = true := by decide +kernel

theorem witness_ArrayAndFragmentAccessResults : (atSite W fun p =>
    (match memLanes W p (at0 0), opndArrs p (v 3), opndBits W p .i32 (k 64) with
     | some as, some _, some _ => [false, true].all fun wr => (match elemAccs W p 4 2 wr as 4 0 with
       | .ok accss => (elemWatch W p 4 wr as accss).isNone | .error _ => false)
     | _, _, _ => false)) = true := by decide +kernel

theorem witness_AtomicResults : (atSite W fun p =>
    (match memLanes W p (at0 0), opndBits W p .i64 (v 9) with
     | some as, some _ => (match checkLanes W p 8 8 2 true true as with | .ok accs => (watchLane W p 8 true true as accs).isNone | .error _ => false)
     | _, _ => false)) = true := by decide +kernel

/-- The world holds no store back and has read nothing early; its access loads. -/
theorem witness_LoadAndStoreResults_storage : (W.groups.all (fun G => G.wbuf.isEmpty) && atSite W fun p => p.grp.early.isEmpty &&
    (match memLanes W p (at0 0) with
     | some as => (match checkLanes W p 4 4 2 true false as with
       | .ok accs => (watchLane W p 4 true false as accs).isNone | .error _ => false)
     | none => false)) = true := by decide +kernel

/-- A group of the world; its storage in the canonical form, with no store held back. -/
theorem witness_StoresPastAMark :
    ((W.groups[0]?).isSome && Storage.wf W && W.groups.all (fun G => G.wbuf.isEmpty)) = true := by decide +kernel

/-- The hypotheses of the frame are those of the results. -/
theorem witness_LoadAndStoreFrame : ([false, true].all fun wr => atSite W fun p =>
    (match memLanes W p (at0 0), opndBits W p .i32 (v 9) with
     | some as, some _ => (match checkLanes W p 4 4 2 (!wr) wr as with
       | .ok accs => (watchLane W p 4 (!wr) wr as accs).isNone | .error _ => false)
     | _, _ => false)) = true := by decide +kernel

/-! ### Control, waits and system instructions -/

/-- A store to two words whose line context 1 owns. -/
theorem witness_StoreChangesItsBytes :
    (let s := storeBytes 1 (page0) [1, 2, 3] { W with mem := [] }
     Storage.wf s && decide (NMap.get (0, 0) s.owner (page0 / 64) = ownerWord s 1) && noHeader s 1 (page0 + 62) 2
       && decide ((page0 + 62) / 64 = page0 / 64) && decide ((page0 + 62 + 2 - 1) / 64 = page0 / 64)) = true := by decide +kernel

/-- Each form that goes on has its hypotheses met: a condition of 1, tokens none of which is pending, no wait begun. -/
theorem witness_GoingOnAndSleeping : (atSite W fun p => (memLanes W p (at0 0)).isSome && (opndBits W p .b1 (k 1)).isSome
    && decide (opndOne W p .i32 (k 0) = some 0) && decide (opndOne W p .i32 (k 1) = some 1) && decide (p.side.pend = .none)
    && (candidates W p.grp.core).all (fun e => decide (e.2.1 = p.g ∧ e.2.2 = p.sd))
    && (match opndToks p [v 4] with | some es => es.all (fun e => decide (tokState p.grp e = none)) | none => false)) = true := by decide +kernel

/-- Sleeps whose deadline has passed, at the deadline, and has not; an ended yield; a yield with another side to wait for. -/
theorem witness_SleepAndYield :
    (atSite (onSide fun S => { S with pend := .deadline 0 }) fun p => decide (p.side.pend = .deadline W.time)) = true ∧
    (atSite (onSide fun S => { S with pend := .deadline 1 }) fun p => decide (p.side.pend = .deadline (W.time + 1))) = true ∧
    (atSite (onSide fun S => { S with pend := .done }) fun p => decide (p.side.pend = .done)) = true ∧
    (let s := onGroup (fun G => { G with sides := G.sides ++ G.sides })
     atSite s fun p => (candidates s p.grp.core).any (fun e => decide (¬(e.2.1 = p.g ∧ e.2.2 = p.sd)))) = true := by decide +kernel

/-- A pending and a complete token. -/
theorem witness_SystemReadsAndCounterControl : ([TokSt.pending, .complete].all fun st =>
    atSite (onGroup fun G => { G with toks := [{ e := 7, st := st }] }) fun p =>
      decide (opndTok p (v 4) = some 7) && decide (tokState p.grp 7 = some st) && (opndOne W p .i32 (k 3)).isSome) = true := by decide +kernel

/-- A launch of a travel descriptor with one replica of segment 1. -/
def descriptor : Travel :=
  { smap := 0x100000, rsrv := 0, pbase := 0, psize := 0, least := false, msig := 0, mapw := [1, 1], ver := 1, holds := true, above := [] }

/-- The world as part of a launch that travels. -/
noncomputable def travelling : State := { W with launches := modifyAt (fun L => { L with travel := some descriptor }) W.launches 0 }

theorem witness_TravelMapReads : (atSite travelling fun p => p.lau.travel.isSome) = true := by decide +kernel

theorem witness_TrapAndAssertFaults : (atSite W fun p => (match opndBits W p .b1 (k 0) with
    | some cs => decide ((lanesOf p.mask).find? (fun i => nth 0 cs i = 0) = some 0) | none => false)) = true := by decide +kernel

theorem witness_GatedOperationsPerform : (match W.ctxs[1]?, W.groups[0]? with
    | some _, some _ => NMap.wf false W.tag && !headerAt W 0 && !(ctxAt W 1).dbg | _, _ => false) = true := by decide +kernel

/-- Two blocks: a branch to block 1, which takes one i32. -/
def twoBlocks : List Nat := [0x0F000000, 0x01000800, 0x4001E001, 0x0F000400, 0x00000004, 0x06000000]

theorem witness_ControlTransfers : (let s := world twoBlocks
    atSite s fun p => (match transferParts s p (blocksOf s p.fr.fn) [(p.mask, { blk := 1, args := [k 1] })] with
      | some [(_, 1, [_])] => decide (exitSeg s p.grp p.lau p.fr.fn 1 = none) | _ => false)
      && (opndBits s p .b1 (k 1)).isSome && (opndBits s p .i32 (k 2)).isSome && (opndOne s p .i32 (k 2)).isSome) = true := by decide +kernel

/-- A call of the probe's own function, a procedure: the depth and the frame allow it, or do not, at depth 64 and 65. -/
noncomputable def caller (depth : Nat) : State :=
  let s := world [0x0F000000, 0]
  { s with mem := setBytes [] (keyCode 0x10000) (image 2 [0x0F000000, 0]) }.updCore 0 0 (fun c =>
    { c with frames := (c.frames.head?.map (List.replicate depth)).getD [] })

/-- That state with a translation of the procedure, under the key of the call, in a state. -/
noncomputable def translated (st : XSt) : State :=
  let s := caller 2
  { s with xlats := [{ die := 2, cluster := 16, hash := digestOf (imgBytes s 0x10000), fn := 0x10000, obj := 0,
                       budget := budgetOn s probeLaunch 2 [0x10000, 0x10000, 0x10000], crewLog := 0, seg := 0, amode := 0, bps := [], st := st,
                       code := none, re := false, used := 0, live := true }] }

/-- A callee whose translation is ready, failed, queued, and in progress. -/
theorem witness_CallEntersItsCallee_translated :
    ([XSt.ok 0 0, .failed 0 .regionLimit, .queued, .inProgress].all fun st => let s := translated st
      atSite s fun p => decide (calleeIndex s p (k 0) = some 0) &&
        (match findXlat s p.grp p.lau (0x10000 :: p.side.core.fns) with | some (0, t) => decide (t.st = st) | _ => false)) = true := by
  decide +kernel

theorem witness_CallEntersItsCallee : ([64, 65].all fun depth => let s := caller depth
    atSite s fun p => decide (calleeIndex s p (k 0) = some 0) &&
      (match objectAt s p.ctx p.fr.fn with
       | some (_, o) => (match tableFn o 0 with
         | some fn => (match blocksOf s fn with
           | b :: _ => (targetArgs s p b { blk := 0, args := [] }).isSome && decide ((imgFhdr s fn).toNat % 4 = 2)
             && decide (p.side.core.frames.length = depth) && (findXlat s p.grp p.lau (fn :: p.side.core.fns)).isNone
             && (decide (64 < depth) || decide (outerBytes p s + frameBytes s p.callFrame ≤ p.lau.frame))
           | [] => false)
         | none => false)
       | none => false)) = true := by decide +kernel

/-- A return with a value to a caller, and the end of a kernel. -/
theorem witness_ReturnAndExit :
    (let s := caller 2
     atSite s fun p => decide (p.side.core.joins = []) && decide (p.side.core.frames.length = 2) && decide (retSeg s p = none)
       && (retVals s p []).isSome) = true ∧
    (atSite W fun p => (match (commit p.g p.sd W).groups[p.g]? with
      | some G => decide (G.st = .ready) && decide (G.pendingToks = []) | none => false)) = true := by decide +kernel

/-- The active threads have arrived on barrier 15. -/
noncomputable def arriveOf (s : State) : State := match site? s with | some p => arriveAll p 15 s | none => s

/-- A first arrival is no misuse; a second while the phase is open is, of lane 0; a wait for the phase of the last arrival is none. -/
theorem witness_BarrierResults :
    (atSite W fun p => decide (arriveMisuse p (p.block W) 0 = none) && decide (p.side.pend = .none)) = true ∧
    (let s := arriveOf W
     atSite s fun p => decide (arriveMisuse p (p.block s) 15 = some 0) &&
      (lanesOf p.mask).all (fun i => decide (((0 : Word) - lastPhase (p.block s) 15 (p.thread i) : Word).toNat = 0))) = true := by decide +kernel

/-! ### References, matrix, engine instructions, signals -/

/-- The tables that map the die-store page and the device-memory page of the probe for context 1. -/
def tables (m : NMap Byte) : NMap Byte :=
  [(0, 0x1001), (0x1000, 0x2001), (0x2000, 0x3001), (0x3080, 15 + page0 + 2 ^ 48), (0x2008, 0x4001), (0x4000, 15 + 2 ^ 38 + 2 ^ 48)].foldl (fun m e => setBytes m (keyPool e.1) (leBytes 8 e.2)) m

/-- The world with its tables, a header at the first line of the page, in a state, and a reference to it in the second line. -/
noncomputable def objects (st : Nat) : State :=
  let s := { W with mem := tables W.mem }
  storeTagged 1 (page0 + 64) 0x100000 true (storeTagged 1 (page0) (mkHdr 7 st false 5 1 0) true s)

/-- One active lane. -/
noncomputable def lane0 (s : State) : State := s.updCore 0 0 (fun c => { c with mask := 1 })

/-- Every lane's checks of a reference instruction pass in state s, and again once what is owed to the lanes there is performed. -/
noncomputable def lanesPass {β : Type} (s : State) (p : Site) (d : β)
    (f : State → State → Nat → Except (Cause × DWord) (List (Nat × Acc) × List GOp × β)) (as : List DWord) (n : Nat) : Bool :=
  let pass := fun (s : State) => objLanes p d (f s) (lanesOf p.mask) (sideView s p.ctx p.g p.sd p.side.gated)
  match pass s with
  | .ok (accs, _, _) =>
    let t := dropLanes p 8 accs (reachLanes p false 8 accs s)
    good (pass t) && (watchLane s p n true true as accs).isNone && (watchLane t p n true true as accs).isNone
  | .error _ => false

theorem witness_ReferenceCompareAndAddress : (atSite W fun p => (opndRefs p (v 2)).isSome && (opndRefs p (k 0)).isSome) = true := by decide +kernel

theorem witness_ReferenceResultsAndChecks :
    (let s := objects 2
     atSite s fun p => match memLanes s p (at0 0), memLanes s p { base := v 0, off := k 64 }, memLanes s p { base := v 0, off := k 128 },
         opndRefs p (v 2), opndBits s p .i32 (k 7), opndBits s p .i32 (k 8) with
       | some as, some bs, some cs, some rs, some ns, some os =>
         lanesPass s p 0 (fun _ => mkrefLane p as) as 8 && lanesPass s p (0, false) (fun s _ i => ldrefLane p bs (fun _ => none) (p.laneView s i) i) bs 8 &&
         lanesPass s p () (fun _ => unrefLane p bs) bs 8 &&
         lanesPass s p () (fun _ => strefLane p cs rs) cs 8 && lanesPass s p () (fun _ => objstLane p .i32 rs os ns) bs 4 &&
         (match refWord s p (nth 0 as 0) 64 true false, refWord s p (nth 0 bs 0) 8 true false, refWord s p (nth 0 cs 0) 8 false true with
          | .ok (_, w, t), .ok (_, u, g), .ok (_, z, f) => isHdrWord w t && decide (hdrOwner w = 1) && decide (hdrState w = 2) && isRefWord u g
            && !f && decide (z = 0) && !isHdrWord z f && (referent s 1 0x100000).isSome
          | _, _, _ => false)
       | _, _, _, _, _, _ => false) = true ∧
    (let s := lane0 (objects 0)
     atSite s fun p => match memLanes s p (at0 0), memLanes s p { base := v 0, off := k 128 }, opndBits s p .i32 (k 7) with
       | some as, some cs, some ns =>
         lanesPass s p () (fun _ => retireLane p as) as 8 && lanesPass s p () (fun _ => objinitLane p true false cs ns) cs 8
       | _, _, _ => false) = true := by decide +kernel

/-- A word that is neither a reference nor an untagged zero. -/
theorem witness_NotAReference : (let s := setTag (page0 + 64) false (objects 2)
    atSite s fun p => match memLanes s p { base := v 0, off := k 64 } with
      | some as => (match refWord s p (nth 0 as 0) 8 true false with | .ok (_, w, t) => !isRefWord w t && decide (w ≠ 0) | _ => false)
      | none => false) = true := by decide +kernel

/-- The group converged, in a mode of accumulation, holding a set of tiles. -/
noncomputable def tiles (amode : Nat) (A : Option AccSet) : State :=
  { (W.updCore 0 0 (fun c => { c with mask := BitVec.allOnes 128 })).updGroup 0 (fun G => { G with acc := A }) with
    launches := modifyAt (fun L => { L with amode := amode }) W.launches 0 }

/-- Free tiles, none; a set; a set with a write in flight; a wait that has ended. -/
theorem witness_AccumulatorAcquireAndRelease :
    (let s := tiles 0 none
     atSite s fun p => p.converged && (let C := nth Core.reset s.cores p.grp.core
       decide (p.grp.acc = none) && decide (tilesOf p.lau 8 ≤ coreTiles) && decide (C.accQueue = []) &&
         decide (usedTiles s p.grp.core + tilesOf p.lau 8 ≤ coreTiles) && !C.matrixReset && decide (p.side.pend = .none))) = true ∧
    ([([], TileSt.heldIdle), ([7], .heldBusy), ([], .saved)].all fun (fl, st) =>
     let s := (tiles 0 (some { tiles := [{ Tile.fresh 1 with flight := fl, st := st }], pool := [] })).updSide 0 0 (fun S => { S with pend := .done })
     atSite s fun p => p.converged && opndAcc p (v 5) && decide (p.side.pend = .done) && (match p.grp.acc with
       | some A => A.busy == !fl.isEmpty && A.anySaved == (st == .saved) | none => false)) = true ∧
    (let s := tiles 0 (some (freshSet 1 1))
     atSite s fun p => p.converged && p.grp.acc.isSome && decide (p.side.pend = .none)) = true := by decide +kernel

/-- In each mode: a tile at rest whose latest token is value 4's, or in relaxed mode any; fragments of variance 0. -/
theorem witness_MatrixWritesAndReads : ([0, 1, 2].all fun amode =>
    let s := tiles amode (some { tiles := List.replicate 2 { Tile.fresh 1 with lastTok := some 7 }, pool := [] })
    atSite s fun p => p.converged && tokenFree s p.grp && opndAcc p (v 5) && (match p.grp.acc.map (AccSet.seenBy p.ctx) with
      | some A => !A.anySaved && (match A.tiles[p.tileIx (immNat (k 0))]? with
        | some T => decide (T.st ≠ .lost) && decide (T.lastTok = opndTok p (v 4)) && decide (tokState p.grp 7 ≠ some .pending)
          && decide (p.relaxed = (amode == 2)) && decide (p.moment = (amode == 1)) && decide (T.badLane p.mask (immNat (k 31)) = none)
          && T.flight.isEmpty && (A.tiles[p.tileIx (immNat (k 0)) + 1]?).isSome
          && (match opndAll s p .i32 [v 9, k 0, v 9] with | some ws => decide (badVarLane (nth [] ws 1) = none) | none => false)
          && (match opndBits s p .mo (v 6) with | some vs => (lanesOf p.mask).all (fun i => !badVar (Mo.ofBits (nth 0 vs i)).v) | none => false)
        | none => false)
      | none => false)) = true := by decide +kernel

theorem witness_MatrixWriteTakesToken : (let s := tiles 0 (some (freshSet 1 1))
    atSite s fun p => decide (s.groups[p.g]? = some p.grp) && (match p.grp.acc with | some A => decide (0 < A.tiles.length) | none => false)) = true := by
  decide +kernel

/-- A diverged group; a set without the tile; with a Lost tile; with a tile of another token. -/
theorem witness_MatrixFaults :
    (let s := (onGroup fun G => { G with sides := G.sides ++ G.sides }); atSite s fun p => !p.converged) = true ∧
    (let s := tiles 0 (some { tiles := [{ Tile.fresh 1 with st := .lost }, { Tile.fresh 1 with lastTok := some 8 }], pool := [] })
     atSite s fun p => p.converged && opndAcc p (v 5) && !p.relaxed && (match p.grp.acc.map (AccSet.seenBy p.ctx) with
       | some A => !A.anySaved && decide (A.tiles[p.tileIx (immNat (k 7))]? = none)
         && (match A.tiles[p.tileIx (immNat (k 0))]?, A.tiles[p.tileIx (immNat (k 1))]? with
           | some T, some U => decide (T.st = .lost) && decide (U.st ≠ .lost) && decide (U.lastTok ≠ opndTok p (v 4)) | _, _ => false)
       | none => false)) = true := by decide +kernel

/-- Context 1 with a command queue, a collective group of two members, and its tables. -/
noncomputable def engines : State :=
  let s := { W with mem := tables W.mem, queues := [(3, { Queue.reset with en := true, ctx := 1, st := .ready })] }
  storeWord 1 0 5 s

/-- A copy of 4 bytes and one of rows, a collective call of 2 elements, a gather of 4-byte elements, a signal, an enqueue, a post. -/
theorem witness_EngineInstructionsIssue : (let s := engines
    atSite s fun p => tokenFree s p.grp && decide (opndToks p [v 4] = some [7]) &&
      (match opndOne s p .i32 (k 4), memLanes s p (at0 0), memLanes s p (at0 1), memLanes s p (at0 8), scattered s p (at0 0) with
       | some n, some d, some _, some a, some xs =>
         let w := p.view s
         decide (n.toNat = 4) && good (checkMoves w p.who 6 4 (engMoves (.copy false true (nth 0 d 0).toNat (nth 0 a 0).toNat 4 1 0 0)))
         && good (checkMoves w p.who 3 4 (engMoves (.copy true false (nth 0 d 0).toNat 0xFF0000000000 4 1 0 0)))
         && good (checkMoves w p.who 6 4 (engMoves (.copy false false (nth 0 d 0).toNat (nth 0 a 0).toNat 4 2 4 4)))
         && decide (collGroup s p.ctx 0 = some (2, 0, 0)) && good (checkWords w p.who 6 true 0x100000 2 0) && good (checkWords w p.who 6 false 0x200000 2 0)
         && good (checkMoves w p.who 6 4 (engMoves (.gather 0x100000 xs 4)))
         && good (checkMoves w p.who 6 4 (engMoves (.scatter 0x100000 xs 4)))
         && decide (lowAddr s p (at0 0) = some 0x100000) && good (resolve w p.who 0x100000 8 8 2 true) && good (resolve w p.who 0x100000 8 8 2 false)
         && !enqBad s p.ctx 3 0x200000 && decide (opndOne s p .i32 (k 3) = some 3) && decide (opndOne s p .i64 (v 8) = some 0x200000)
         && decide (calleeIndex s p (k 0) = some 0) && (match objectAt s p.ctx p.fr.fn with
           | some (_, o) => (match tableFn o 0 with
             | some f => (match blocksOf s f with | b :: _ => (targetArgs s p b { blk := 0, args := [] }).isSome && b.args.isEmpty | [] => false)
             | none => false)
           | none => false)
       | _, _, _, _, _ => false)) = true := by decide +kernel

/-- Sixteen pending tokens; a pending and a failed token of value 4. -/
theorem witness_TokensAndTheirWaits :
    (atSite (onGroup fun G => { G with toks := (List.range 16).map (fun e => { e := e, st := .pending }) }) fun p =>
      decide (opndToks p [v 4] = some [7]) && decide (failedTok p.grp [7] = none) && decide (tokState p.grp 7 = some .pending)
      && !tokenFree W p.grp) = true ∧
    (atSite (onGroup fun G => { G with toks := [{ e := 7, st := .failed .page 0x10024 }] }) fun p =>
      decide (failedTok p.grp [7] = some (.page, 0x10024)) && decide (tokState p.grp 7 = some (.failed .page 0x10024))) = true := by decide +kernel

/-- The walk of a publication of the page's object in a state of its claim phase. -/
def walkOf (st : WalkSt) (fault : Option (Cause × Nat)) : Walk :=
  { id := 5, group := 0, side := 0, ctx := 1, stamp := 1, scope := 5, root := 0x100000, slot := 0x100080, eng := 6, claimed := [], widened := [],
    waits := [], queue := [], scan := none, visits := [0x100000], released := false, fault := fault, st := st }

/-- A publication of null and of an object that begins; a walk whose claim phase runs, has ended, and has failed. -/
theorem witness_PublicationClaims : (let s := objects 0
    atSite s fun p => tokenFree s p.grp && (memLanes s p { base := v 0, off := k 128 }).isSome && (opndRefs p (v 2)).isSome && (opndRefs p (k 0)).isSome
      && decide (opndToks p [] = some []) && decide (openWalk s p.g p.low = none)
      && good (resolve (sideView s p.ctx p.g p.sd p.side.gated) p.who 0x100080 8 8 2 true)) = true ∧
    ([(WalkSt.claiming, none), (.claimed, none), (.failed, some (Cause.brokenReference, 0x100000))].all fun (st, c) =>
      let s := { objects 0 with walks := [walkOf st c] }
      atSite s fun p => tokenFree s p.grp && decide (openWalk s p.g p.low = some (walkOf st c))) = true := by decide +kernel

/-- A signal of value 0 meets `le 0` and does not meet `lt 0`; each wait that a re-execution finds. -/
theorem witness_SignalReadsAndWaits :
    (atSite W fun p => decide (lowAddr W p (at0 0) = some 0x100000) && good (resolve (p.view W) p.who 0x100000 8 8 2 false)
      && (match resolve (p.view W) p.who 0x100000 8 8 2 false with
        | .ok acc => condMet .le (loadWord W p.ctx acc.key) 0 && !condMet .lt (loadWord W p.ctx acc.key) 0 | .error _ => false)
      && decide (opndOne W p .i64 (k 0) = some 0) && decide (opndOne W p .i32 (k 0) = some 0) && decide (opndOne W p .i32 (k 1) = some 1)
      && decide (p.side.pend = .none)) = true ∧
    ([Pend.hit 5, .done].all fun q => atSite (onSide fun S => { S with pend := q }) fun p => decide (p.side.pend = q)) = true := by decide +kernel

/-! ### Slot operations -/

/-- A native group whose slot operation issues. -/
noncomputable def nworld (sl : Slot) (f : Native → Native) : State :=
  let s := { probeState (some (f (probeNative sl 0))) 0 State.reset with issue := .slot 0 sl }
  { s with
    mem := setBytes [] (keyCode 0x10000) (image 1 [0x0F000000, 0]),
    groups := modifyAt (fun G => { G with spillLen := 65536 }) s.groups 0,
    cores := modifyAt (fun C => { C with tlb := [{ ctx := 1, va := 0x100000, size := 65536, pa := page0, rd := true, wr := true }] }) s.cores 128 }

/-- p holds at the issuing slot operation. -/
def atSlot (s : State) (p : NSite → Bool) : Bool := match nsite? s with | some q => p q | none => false

theorem witness_NativeIntegerResults : (atSlot (nworld .v0 id) fun p => (Cond.ofCode 5).isSome && p.e.mask.getLsbD 127) = true := by decide +kernel

theorem witness_NativeFloatResults : ([4, 0].all fun (m : BitVec 5) => atSlot (nworld .v1 (fun N => { N with regs := { N.regs with fmw := m } })) fun p =>
    decide (p.fty = .f32) == decide (m = 0)) = true ∧
    (atSlot (nworld .f id) fun _ => (CTy.ofCode 15).isSome && (Ty.ofCode 10).isSome && (FCond.ofCode 7).isSome) = true := by decide +kernel

/-- Index 0 of an index register of length 1 is in range; with length 0 it is not. -/
theorem witness_NativeLaneResults : ([0, 1].all fun n =>
    atSlot (nworld .v0 (fun N => { N with regs := { N.regs with x := List.replicate 4 { base := 8, len := n, pair := false, idx := 0 } } })) fun p =>
      (let ix := p.indices 4
       decide (badIndex (p.act 0) ix (p.x_ 0).len = if n = 0 then some 0 else none)) && (RedOp.ofCode 8).isSome && (VoteMode.ofCode 2).isSome) = true := by
  decide +kernel

/-- Each state of a token; an index in range and one that is not; both outcomes of `salu`; a region that holds nothing gated and one that does. -/
theorem witness_NativeScalarResults :
    ([TokSt.pending, .complete, .failed .page 0].all fun st =>
      let s := (nworld .s (fun N => { N with k := List.replicate 16 (some 7), regs := { N.regs with
        x := List.replicate 4 { base := 8, len := 1, pair := false, idx := 0 }, s := [(9, 1)] } })).updGroup 0 (fun G => { G with toks := [{ e := 7, st := st }] })
      atSlot s fun p => decide ((p.tok 15).bind (tokState p.grp) = some st) && decide ((p.s_ 8).toNat < (p.x_ 3).len)
        && decide ((p.x_ 3).len ≤ (p.s_ 9).toNat)) = true ∧
    (atSlot (nworld .s id) fun p => decide ((p.tok 15).bind (tokState p.grp) = none) && (intFn 1 0 0 0).isSome && (intFn 0x0E 0 0 0).isNone) = true ∧
    ([[], [(0, GOp.accrel)]].all fun l => atSlot (nworld .l (fun N => { N with gated := l })) fun p =>
      (p.nat.gatedOf p.e.side).isEmpty == l.isEmpty) = true := by
  decide +kernel

/-- A native group whose PC slots differ. -/
def onSlots (f : PcSlot → PcSlot) (N : Native) : Native := { N with slots := N.slots.map (Option.map f) }

/-- The sides of a branch: no lane, every lane, some lanes; a call that fits and a return; an empty and a full loop; an end of threads. -/
theorem witness_NativeControlAndEndOfThread :
    ([(0 : Mask), BitVec.allOnes 128, 5].all fun m => atSlot (nworld .s (fun N => { N with
        queue := N.queue.map (List.map (fun e => { e with preds := List.replicate 8 m })), regs := { N.regs with preds := List.replicate 8 m } })) fun p =>
      (nth none p.own.slots p.e.side).all (fun P => !P.comm) && decide (p.e.mask &&& nth 0 p.preds 7 = m)) = true ∧
    (atSlot (nworld .s (fun N => onSlots (fun P => { P with calls := [(3, 16)] }) { N with regs := { N.regs with s := [(9, 2)] } })) fun p =>
      decide (p.calls = [(3, 16)]) && decide (p.calls.foldl (fun n c => n + c.2) 0 + p.frame ≤ p.lau.frame) && decide (p.calls.length < 64)
        && decide ((p.s_ 8).toNat + (0 : BitVec 3).toNat = 0) && decide (0 < (p.s_ 9).toNat) && decide (p.site.side.pend = .none)) = true ∧
    (atSlot (nworld .s (onSlots (fun P => { P with calls := [(3, 4096), (4, 16)] }))) fun p =>
      decide (p.lau.frame < p.calls.foldl (fun n c => n + c.2) 0 + p.frame)) = true := by decide +kernel

/-- With no result unsettled a SYNC changes nothing else. -/
theorem settle_nil (sd : Nat) (N : Native) (n : Nat) (h : N.pend = []) : N.settleSide sd n = { N with pend := [] } := by
  have e : ∀ l : List Slot, l.flatMap (fun _ => ([] : List PendW)) = [] := fun l => by induction l <;> simp_all
  simp [Native.settleSide, Native.settleIn, h, byReady, pushesOf, e]

theorem nsite_some : (nsite? (nworld .s id)).isSome = true := by decide +kernel

/-- After the commit of an end of threads the group is ready with no pending token. -/
theorem witness_NativeEndOfThread : ∃ p, nsite? (nworld .s id) = some p ∧
    let t := p.pop (nworld .s id)
    let c := nCommit p.g p.e.side (t.updNative p.g (fun N => N.settleSide p.e.side (t.fresh + 1))).tick
    (match c.groups[p.g]? with | some G => decide (G.st = .ready) && G.native.isSome && decide (G.pendingToks = []) | none => false) = true := by
  refine ⟨(nsite? (nworld .s id)).get nsite_some, (Option.some_get nsite_some).symm, ?_⟩
  generalize hq : (nsite? (nworld .s id)).get nsite_some = p
  have hg : ((p.pop (nworld .s id)).groups[p.g]?).any (fun G => (G.native.map (fun N => N.pend.isEmpty)).getD false) = true := by
    subst hq; decide +kernel
  have key : (p.pop (nworld .s id)).updNative p.g (fun N => N.settleSide p.e.side ((p.pop (nworld .s id)).fresh + 1))
      = (p.pop (nworld .s id)).updNative p.g (fun N => { N with pend := [] }) := by
    cases hG : (p.pop (nworld .s id)).groups[p.g]? with
    | none => simp [hG] at hg
    | some G =>
      cases hN : G.native with
      | none => simp [hG, hN] at hg
      | some N =>
        have hN' : N.pend = [] := by simpa [hG, hN] using hg
        simp only [State.updNative, State.updGroup]
        congr 1
        exact modifyAt_congr _ _ _ _ G hG (by simp [hN, settle_nil _ N _ hN'])
  dsimp only
  rw [key]
  subst hq
  decide +kernel

/-- A window of the die-store page, in use and to be translated first. -/
theorem witness_NativeMemoryResults : ([false, true].all fun stale =>
    let s := nworld .l (fun N => { N with
      regs := { N.regs with s := [(1, 0x100000)] },
      win := List.replicate 16 { vbase := 0x100000, frame := page0, limit := 65536, space := 2, rd := true, wr := true, size := 65536, stale := stale } })
    atSlot s fun p => (let Q := p.window 1 (p.pop s)
      let as := p.addrs Q.1 0
      decide (Q.1.space = 2) && (match Q.1.entry p.ctx with
        | none => false
        | some e =>
          let w := { Q.2 with cores := modifyAt (Core.before e) Q.2.cores p.grp.core }
          let q := { p.acting 0 with side := { (p.acting 0).side with core := { (p.acting 0).side.core with mask := 5 } } }
          [false, true].all fun wr => match checkLanes w q 4 4 plainSpaces (!wr) wr as with
            | .ok accs => (watchLane w q 4 (!wr) wr as accs).isNone | .error _ => false))) = true := by decide +kernel

/-- A set with a tile at rest whose latest token the operation names; free tiles. -/
theorem witness_NativeTileResults :
    ([0, 1, 2].all fun amode =>
      let s := nworld .m (fun N => { N with k := List.replicate 16 (some 7), latch := [(0, 5, [], []), (0, 7, [], [])] })
      let s := { s with
        groups := modifyAt (fun G => { G with acc := some { tiles := List.replicate 2 { Tile.fresh 1 with lastTok := some 7 }, pool := [] } }) s.groups 0,
        launches := modifyAt (fun L => { L with amode := amode }) s.launches 0 }
      atSlot s fun p => p.converged && (match p.grp.acc with
        | some A => !A.busy && (p.frags 0 .bf16).isSome && (match p.frags 0 .mo with | some ws => decide (badVarLane (nth [] ws 1) = none) | none => false)
          && (match (A.seenBy p.ctx).tiles[0]? with
          | some T => decide (T.st ≠ .lost) && decide (T.st ≠ .saved) && T.flight.isEmpty && decide (T.badLane p.e.mask 31 = none) && decide (T.lastTok = p.tok 15) | none => false)
        | none => false) && decide (tokState p.grp 7 = none)) = true ∧
    (let s := nworld .s id
     atSlot s fun p => p.converged && decide (p.grp.acc = none) && (let C := nth Core.reset s.cores p.grp.core
       decide (C.accQueue = []) && decide (usedTiles (p.pop s) p.grp.core + tilesOf p.lau 8 ≤ coreTiles) && !C.matrixReset)) = true := by decide +kernel

theorem witness_NativeBarrierAndWaitResults : (let s := nworld .s (fun N => { N with regs := { N.regs with s := [(8, 0x100000), (12, 0x83)] } })
    atSlot s fun p => decide (arriveMisuse p.site (p.site.block (p.pop s)) 0 = none) && decide (p.site.side.pend = .none)
      && good (resolve (p.pop s) p.site.who (p.s2 8).toNat 8 8 2 false) && decide (Cond.ofCode ((p.s_ 12).toNat % 8) = some .le)
      && decide ((p.s_ 12).toNat / 2 ^ 10 = 0) && decide (BitVec.ofNat 3 ((p.s_ 12).toNat / 2 ^ 6) = 2)) = true := by decide +kernel

/-- A descriptor whose destination is a signal. -/
theorem witness_NativeEngineInstructionsIssue : (let s := nworld .a (fun N => { N with regs := { N.regs with s := [(8, 0x11), (9, 0x100000)] } })
    atSlot s fun p => match p.desc 8 with
      | some D => decide ((p.mem3 D.base).toNat = 0x100000) && good (resolve (p.site.view (p.pop s)) p.site.who 0x100000 8 8 2 true)
        && good (resolve (p.site.view (p.pop s)) p.site.who 0x100000 8 8 2 false)
      | none => false) = true := by decide +kernel

/-! ### Events -/

/-- The world's tables, and bytes of its device-memory page that its context owns, at offsets from the page's start. -/
noncomputable def paged (bs : List (Nat × List Byte)) : State :=
  { W with
    mem := bs.foldl (fun m e => setBytes m (2 ^ 38 + e.1) e.2) (tables []), owner := [(2 ^ 32, (1, 0)), (2 ^ 32 + 1, (1, 0)), (2 ^ 32 + 2, (1, 0))] }

/-- A ready queue of the world's context with a ring in device memory: TAIL is 1, and entry 0 a wait for a signal at 0x200000 + 8 to be at
most 7. -/
noncomputable def ring (f : Queue → Queue) : State :=
  { paged [(0, [1]), (8, [7]), (64, [2]), (72, [8, 0, 32]), (80, [7])] with
    queues := [(3, f { Queue.reset with en := true, ctx := 1, rbase := 0x200000, st := .ready })] }

/-- The queue's descriptor enables; an empty queue finds TAIL past its head; the queue serves its entry; a signal of 7 meets `le 7` and not
`le 6`. -/
theorem witness_QueueEvents :
    ((let d : BitVec 128 := BitVec.ofNat 128 (0x200000 * 2 ^ 64 + 1 * 2 ^ 4 + 1)
      !(queueAt W 1023).en && ((queueAt W 1023).fields d).mayEnable W) &&
     (let s := ring (fun Q => { Q with st := .empty })
      decide (ringTail s 3 = some 1) && decide ((queueAt s 3).head < 1) && decide ((ctxAt s 1).st ≠ .halted)) &&
     (let s := ring id
      let Q := queueAt s 3
      let e := QEntry.ofBytes (ctxBytes s Q.ctx (Q.entry Q.head) 64)
      decide (Q.st = .ready) && decide ((ctxAt s Q.ctx).st = .live) && decide (Q.waits = []) && decide (ringTail s 3 = some 1) &&
      decide ((BitVec.ofNat 64 1 - BitVec.ofNat 64 Q.head).toNat ≤ Q.size) && (ctxKey s Q.ctx (Q.entry Q.head) false).isSome &&
      decide (e.kind = 2) && !e.dirty && !Q.ser && decide (e.flags % 2 ≠ 1) &&
      (match signalKey s 1 0x200008 with
       | some k => condMet .le (loadWord s 1 k) 7 && !condMet .le (loadWord s 1 k) 6 | none => false))) = true := by decide +kernel

/-- A signal that a queue entry may write, one on a private line, and one that is a header word. -/
theorem witness_QueueEvents_signals :
    (let at_ := fun (s : State) (va : Nat) (f : State → Nat → Bool) => match signalKey (queueSeen s 3) 1 va with
       | some k => f (reach .outside true k 8 (startEntry 3 1 (queueSeen s 3))) k | none => false
     let s := ring id
     at_ s 0x200008 (fun u k => !hiddenLine u 1 k && noHeader u 1 k 8) &&
     at_ { s with lines := [(page0 / 64, (.priv, 0))], owner := [(page0 / 64, ownerWord s 1)] } 0x100000 (fun u k => hiddenLine u 1 k) &&
     at_ (storeTagged 1 page0 (mkHdr 7 2 false 5 1 0) true s) 0x100000 (fun u k => !noHeader u 1 k 8)) = true := by decide +kernel

/-- A launch descriptor is accepted; one at a misaligned address is not. -/
theorem witness_QueueEvents_launch :
    (let bs := leBytes 8 0x10000 ++ leBytes 4 4 ++ leBytes 4 128 ++ leBytes 2 254 ++ [0, 4] ++ leBytes 4 4096
     let s := { ring id with mem := setBytes (setBytes (tables []) (2 ^ 38 + 64) bs) (keyCode 0x10000) (image 1 []) }
     good (acceptLaunch s 3 0x200040) && !good (acceptLaunch s 3 0x200044)) = true := by decide +kernel

/-! ### Placement, issue, suspension -/

/-- The world with its launch changed. -/
noncomputable def onLaunch (f : Launch → Launch) : State := { W with launches := modifyAt f W.launches 0 }

/-- A block is placed; one that cannot be placed holds its cluster; another cluster steals. -/
theorem witness_SchedulingEvents_place :
    (let s := onLaunch (fun L => { L with ranges := [(16, 0, 4)], waiting := [(16, 0)], dies := 4 })
     decide (placeOrder s 16 = [0]) && (placeNext 0 16 s).isSome &&
     (match s.launches[0]? with
      | some L => L.waiting.contains (16, 0) && decide (0 + 1000000 ≤ ({ s with time := 1000000 } : State).time) &&
        decide (L.travel = none) && !L.complete && decide (nextBlock L 17 = none) && L.dies.getLsbD (dieOf (8 * 17)) &&
        (bestCrew s 1 (fun c => crewRoom s 1 none c 1 1 4096 (if overLimit s L 2 0 then 0 else spillArea s L 2 0)) (clusterCrews s 0 17 1)).isSome &&
        decide (stealFrom L.ranges (fun c => decide (dieOf (8 * c) = dieOf (8 * 17))) = some (16, 0, 4))
      | none => false)) = true := by decide +kernel

/-- With no limited cluster nothing is counted. -/
theorem countLimited_none (n : Nat) (s : State) (h : (List.range 26).filter (limitedCluster s) = []) : countLimited n s = s := by
  simp [countLimited, h]

/-- What the clock of core 128 leaves when no cluster is limited and the time base may stand. -/
noncomputable def clocked (s : State) : State :=
  clockEvents 128 { s with
    fresh := s.fresh + 1, cores := modifyAt (fun C => { C with clk := C.clk + 1 }) s.cores 128,
    time := s.time + Config.timeStep * Config.freeNat s.fresh 0 }

theorem tickCore_eq (s : State) (hl : leastSteps 128 s = 0) (h : (List.range 26).filter (limitedCluster s) = []) :
    tickCore 128 s = clocked s := by
  simp only [tickCore, clocked, passTime, hl, Nat.zero_add]
  exact congrArg (clockEvents 128) (countLimited_none _ _ (Eq.trans (by congr 1) h))

/-- A candidate stands first at core 128 in a state. -/
noncomputable def candAt (u : State) : Bool :=
  let C := nth Core.reset u.cores 128
  let cs := readyCands u 128
  decide (pickCand C.ptr C.ages (cs.map (·.1)) = some 0) && (cs.find? (fun e => e.1 = 0)).isSome

/-- A portable and a native candidate of the core's next clock. -/
theorem witness_SchedulingEvents_dispatch : candAt (tickCore 128 W) = true ∧ candAt (tickCore 128 (nworld .v0 id)) = true := by
  rw [tickCore_eq W (by decide +kernel) (by decide +kernel), tickCore_eq (nworld .v0 id) (by decide +kernel) (by decide +kernel)]
  exact ⟨by decide +kernel, by decide +kernel⟩

/-- A context's quantum has run out, and a block of another cannot be placed. -/
theorem witness_SchedulingEvents_quantum :
    (let s := { W with
      ctxs := modifyAt (fun C => { C with st := .live }) W.ctxs 2, time := 1000000000,
      launches := W.launches ++ [{ probeLaunch with ctx := 2, ntid := 32768, ranges := [(16, 0, 1)] }] }
     decide (nth 0 (ctxAt s 1).resumed 2 + 1000 * (ctxAt s 1).quant ≤ s.time) && blockStuck s 2 1) = true := by decide +kernel

/-- A suspended crew is saved; a saved one resumes on a crew; a block whose groups have ended is done. -/
theorem witness_SchedulingEvents_crew :
    (crewStopped (onGroup (fun G => { G with st := .suspended })) 0 &&
     (let s := onGroup (fun G => { G with st := .suspended, resident := false })
      let s := { s with blocks := modifyAt (fun B => { B with st := .suspended }) s.blocks 0 }
      crewCalled s 0 1 && decide ((ctxAt s 1).newSeed = none) && !turnBefore s 2 1 &&
      (seatBlock 0 129 4096 s).isSome && (resumeCrews s 0 0 16 1).contains 129 && decide (dieIsN (dieOf 129) = dieIsN 2)
        && decide (crewGroups s [0] = [0])) &&
     (let s := { onGroup (fun G => { G with st := .suspended, resident := false }) with
        launches := modifyAt (fun L => { L with travel := some descriptor }) W.launches 0 }
      match s.launches[0]? with
      | some L => (seatTravel 0 128 L 0 { s with blocks := modifyAt (fun B => { B with st := .suspended }) s.blocks 0 }).isSome
      | none => false) &&
     (let s := onGroup (fun G => { G with st := .ended })
      s.groups.all (fun G => decide (G.block ≠ 0) || (decide (G.st = .ended) && decide (G.acc = none) && G.toks.all (fun t => t.st != .pending)))
        && s.engs.isEmpty)) = true := by decide +kernel

/-- R361: while a context is not resident, an event charged to it is added in the counter save at RSVD + 0x1000. -/
theorem test_counterSave :
    (let f := fun (C : Ctx) => { C with rsvd := 0x40000000, counts := modifyAt (fun _ => 5) C.counts 0, cfgs := modifyAt (fun _ => 0x10074) C.cfgs 0 }
     let s := saveCounts 1 { W with ctxs := modifyAt f W.ctxs 1 }
     decide (loadBytes (chargeEv 1 0x74 2 s) 1 0x40001000 1 = [7]) && decide (nth 0 (ctxAt (comeBack 1 (chargeEv 1 0x74 2 s)) 1).counts 0 = 7)) = true := by
  decide +kernel

/-- A group that holds a retirement gated whose header is gone; none of the world's does. -/
theorem witness_SchedulingEvents_stale :
    (groupStale (onSide (fun S => { S with gated := [.objRetire 0 page0 1] })) 0 && !groupStale W 0 && !groupStale (nworld .v0 id) 0) = true := by
  decide +kernel

/-- A ready portable side and a ready native one commit; each has a side to rotate. -/
theorem witness_SchedulingEvents_rotation :
    ((let s := onGroup (fun G => { G with sides := (G.sides ++ G.sides ++ G.sides).map (fun S => { S with turns := 4096 }) })
      match s.groups[0]? with
      | some G => decide (G.st = .ready) && decide (G.native = none) && decide (dueSide G = some (0, 0)) && G.stacked
      | none => false) &&
     (let P : PcSlot := { PcSlot.start 0 1 with turns := 4096 }
      let s := nworld .v0 (fun N => { N with stack := [P], slots := [some P, none], queue := List.replicate 7 [] })
      let s := { s with mem := setBytes s.mem (keyIstore 128 0) [4] }
      match s.groups[0]? with
      | some G => (match G.native with
        | some N => decide (G.st = .ready) && !N.stack.isEmpty && N.latch.isEmpty && decide (nth none N.slots 0 = some P) && isMark (codeOf s G N P.pc)
            && nativeReady s G N 0 && (G.sides[0]?).all (fun S => decide (S.pend = .none))
        | none => false)
      | none => false)) = true := by decide +kernel

/-! ### Translation, code objects, migration, recovery -/

/-- The world with a translation that its group runs or waits for. -/
noncomputable def translating (live : Bool) : State :=
  let t : Xlat := { die := 2, cluster := 16, hash := 0, fn := 0x10000, obj := 9, budget := 254, crewLog := 0, seg := 0, amode := 0, bps := [],
                    st := .inProgress, code := none, re := false, used := 0, live := live }
  { onGroup (fun G => { G with translation := some 0 }) with xlats := [t] }

theorem witness_TranslationAndCodeEvents :
    ((match W.groups[0]? with
      | some G => G.resident && decide (G.native = none) && decide (G.translation = none) && decide (G.st = .ready) | none => false) &&
     (let s := translating true
      (match s.xlats[0]? with
       | some t => t.live && decide (t.st = .inProgress) && decide (outcome s t = (.failed 0 .illegalEncoding, none)) &&
           (makeRoom t.die ({ t with code := none } : Xlat).size (entryWaiters s 0 ++ callWaiters s 0) s.xlats.length s).isSome | none => false) &&
      decide (runningXlat s 128 0 = [0]) && !(nth Core.reset s.cores 128).pages.contains (0, 5))) = true := by decide +kernel

/-- A translation of two bundles, whole and of a segment, whose page is not on the core yet and has room there. -/
theorem witness_TranslationAndCodeEvents_fill :
    ([0, 1].all fun seg =>
      let s := translating true
      let c : NCode := { bundles := [0, 0], table := [], marks := [], stores := [], loads := [] }
      let s := { s with xlats := s.xlats.map (fun t => { t with code := some c, seg := seg }) }
      decide (runningXlat s 128 0 ≠ []) && decide ((s.xlats[0]?).map Xlat.seg = some seg) && decide (0 < xlatPages s 0)
        && !(nth Core.reset s.cores 128).pages.contains (0, 0)
        && decide ((storeRoom s 128 (nth Core.reset s.cores 128).pages).length < storePages)) = true := by decide +kernel

/-- A load request of a file of 64 bytes that the world's page holds, not loaded yet and no object file. -/
theorem witness_TranslationAndCodeEvents_load :
    (let r := leBytes 2 0x11 ++ leBytes 6 1 ++ leBytes 8 0x200000 ++ leBytes 8 64 ++ List.replicate 40 0
     let s := paged []
     decide (blockNat r 0 2 = 0x11) && decide (blockNat r 2 1 = 1) && slotIs s 1 .live && decide (blockNat r 8 8 % 64 = 0) &&
       rangeMapped s 1 (blockNat r 8 8) (blockNat r 0x10 8) false && (match installObj [] 0 s with | .error 1 => true | _ => false)) = true := by decide +kernel

/-- The object of the world is loaded for its context; its migration to die 2 with a budget of 8 is possible. -/
theorem witness_TranslationAndCodeEvents_migrate :
    (decide (W.objs.findIdx? (fun o => o.live && decide (o.laddr = 0x10000) && o.ctxs.contains 1) = some 0) &&
     (let r := leBytes 2 0x21 ++ [1, 4] ++ leBytes 4 8 ++ leBytes 24 0
      let s := { onGroup (fun G => { G with spillLen := 0 }) with mem := [] }
      let u := { haltContext 1 s with ctxs := modifyAt (fun C => { C with migrating := true }) (haltContext 1 s).ctxs 1 }
      !refusedMig r s && !enginesBusy 1 u && (good (migrateTo 1 8 4 u)))) = true := by decide +kernel

/-- A side with a bundle not yet checked; a hung engine; a hung matrix unit. -/
theorem witness_RecoveryEvents :
    ((atSite (onSide (fun S => { S with unchecked := 1 })) fun p => decide (0 < p.side.unchecked) && decide (p.grp.st = .ready) && p.side.live
        && decide (p.grp.st ≠ .ended)) &&
     !(ctxAt W 1).migrating &&
     (let E : Eng := { id := 7, ctx := 1, group := 0, kind := .copy false false 0 0 4 1 0 0, scope := 0, mask := 0, deps := [], origin := 0, st := .started, since := 0, done := [], wrote := [] }
      let s := { W with engs := [E], time := 10 ^ 12 }
      (engsOn s 128).any (Eng.hung s)) &&
     (let s := onGroup (fun G => { G with
        toks := [{ e := 7, st := .pending }],
        acc := some { tiles := [{ Tile.fresh 1 with st := .heldBusy, flight := [7], lastTok := some 7 }], pool := [] } })
      matrixHung { s with
        time := 10 ^ 12,
        engs := [{ id := 7, ctx := 1, group := 0, kind := .tile 0, scope := 0, mask := 0, deps := [], origin := 0, st := .started, since := 0, done := [], wrote := [] }] } 128)) = true := by
  decide +kernel

/-! ### Engine instructions, tiles, publications; the host port -/

/-- An engine instruction of the world's group. -/
def eng (k : EngKind) (st : EngSt) : Eng :=
  { id := 7, ctx := 1, group := 0, kind := k, scope := 0, mask := 6, deps := [], origin := 0x10024, st := st, since := 0, done := [], wrote := [] }

/-- A request that is granted; a tile to save, one to restore, one in flight. -/
theorem witness_EngineAndTileEvents_tiles :
    ((let s := onGroup (fun G => { G with st := .waiting (.accAcq 8) 0 })
      let s := { s with cores := modifyAt (fun C => { C with accQueue := [0] }) s.cores 128 }
      decide ((nth Core.reset s.cores 128).accQueue = [0]) && !(nth Core.reset s.cores 128).matrixReset && decide (usedTiles s 128 + 8 ≤ coreTiles)) &&
     ([Wait.sleep 5, .restore].all fun w =>
      let st := if w = Wait.restore then TileSt.saved else .heldIdle
      let s := onGroup (fun G => { G with st := .waiting w 0, acc := some { tiles := [{ Tile.fresh 1 with st := st }], pool := [] } })
      let s := { s with groups := s.groups ++ (s.groups.map (fun G => { G with st := .waiting (.accAcq 8) 0, acc := none })),
                        cores := modifyAt (fun C => { C with accQueue := if w = Wait.restore then [0] else [1] }) s.cores 128 }
      match (s.groups[0]?).bind (fun G => G.acc.map (fun A => (G, A))) with
      | some (G, A) => (if w = Wait.restore then decide (usedTiles s 128 + 1 ≤ coreTiles) else
          G.resident && G.blocked && (nth Core.reset s.cores G.core).accQueue.head?.any (wantsTiles s)) && A.tiles.all (fun T => T.flight.isEmpty)
      | none => false)) = true := by decide +kernel

/-- An instruction that starts and one whose token has failed; one that performs and one that cannot; a collective call at its limit. -/
theorem witness_EngineAndTileEvents_engines :
    (let s := { engines with engs := [eng (.sigset 0x100000 5) .issued] }
     (engAt s 7).isSome &&
     (match s.groups[0]? with
      | some G => decide (failedTok G [] = none) &&
          decide (failedTok { G with toks := [{ e := 3, st := .failed .page 0 }] } [3] = some (.page, 0)) | none => false) &&
     (match performEng s (eng (.sigset 0x100000 5) .started) with | some r => good r | none => false) &&
     (let E := eng (.copy false false 0x100000 0x200000 4 1 0 0) .started
      match partsStep s E with
      | some q => (match partsStep q.st { E with buf := q.buf } with
        | some r => q.cause.isNone && decide (q.buf.length = 1) && r.cause.isNone && decide (r.done.length = partCount r.st E) | none => false)
      | none => false) &&
     (match partsStep s (eng (.copy false false 0x100000 0x900000 4 1 0 0) .started) with | some r => r.cause.isSome | none => false) &&
     (collStep s (eng (.coll .allred .add .i32 0x100000 0x200000 2 0 0) .started)).isNone &&
     (match performEng s (eng (.sigset 0x900000 5) .started) with | some (.error _) => true | _ => false) &&
     (match collGroup s 1 0 with | some (_, _, tmo) => decide (0 + (if tmo = 0 then 10000000000 else 1000 * tmo) ≤ 10 ^ 15) | none => false)) = true := by
  decide +kernel

/-- A walk that claims, one that marks, one whose root is stored; a malformed frame and a frame of no call; a result that arrives. -/
theorem witness_EngineAndTileEvents_walks :
    ((let s := objects 0
      let V := { walkOf .claiming none with claimed := [page0] }
      let U := { V with visits := [] }
      let at_ := fun (V : Walk) => { s with walks := [V] }
      !V.idle && U.idle && claimsEnded (at_ U) U && good (claimStep (sideView (at_ V) 1 0 0 (walkGated (at_ V) V)) V) &&
        !walkGone (at_ V) V && !rootWaits (at_ { U with st := .marked }) { U with st := .marked } &&
        (walk (putWalk { U with st := .stored } (at_ U)) 1 0x100080).isSome) &&
     decide (readFrame [] = none) &&
     (match readFrame ([0x43, 0x47, 1, 0] ++ List.replicate 20 0 ++ [16, 0, 0, 0] ++ List.replicate 20 0) with
      | some f => !collShort engines (eng (.coll .allred .add .i32 0x100000 0x200000 2 0 1) .started) f
          && !collMismatch engines (eng (.coll .allred .add .i32 0x100000 0x200000 2 0 1) .started) f
          && collMismatch engines (eng (.coll .allred .add .i64 0x100000 0x200000 2 0 0) .started) f
          && !collShort engines (eng (.coll .allred .add .i64 0x100000 0x200000 2 0 0) .started) f | none => false) && !rejected W 128 0 &&
     !((nth Core.reset W.cores 128).reserved) && decide ((nth Core.reset W.cores 128).mshrRej = [])) = true := by decide +kernel

/-- A range of the context that the host may read and write, in one part and in two, with no message before it and with one; a word of it
for an atomic. -/
theorem witness_HostAndPageEvents :
    (let s := paged [(8, [7])]
     let M : Msg := { ctx := 1, a := 0x200000, n := 4, data := none, rest := [0], got := [] }
     regionCtx s 1 && rangeMapped s 1 0x200000 32 true && rangeMapped s 1 0x200000 32 false &&
     decide (turnMsg s 1 = none) && (turnMsg { s with msgs := [M] } 1).isSome && decide (hostParts 0x200000 16 = [(0x200000, 16)]) &&
     decide ((hostParts 0x200000 32).length = 2) &&
     (let u := drainMsgs 1 s
      match ctxKey u 1 0x200008 true with
      | some k => (let t := reach .outside true k 8 u
                   !hiddenLine t 1 k && noHeader t 1 k 8 && decide (loadWord t 1 k = 7)) | none => false)) = true := by decide +kernel

/-- R348, R305, R377 and their reset values, read in the control space: slot 0 reads VALID 1 and STATE live (byte 0x03), a cluster's
SLOPE 0x10, and PWRCTL 1500 and 2000 × 2^11 (bytes DC 85 3E). The offsets of the statement's read lie below PWRSTAT. -/
theorem test_controlSpace :
    (List.range 2).map (controlByte State.reset) = [3, 0] ∧ controlByte State.reset 0x20004 = 0x10 ∧
    (List.range 3).map (fun i => controlByte State.reset (0x30000 + i)) = [0xDC, 0x85, 0x3E] ∧ (0 : Nat) + 2 ≤ 0x30008 := by decide +kernel

/-- The page's state before its migration: the counter of die 3 has reached the threshold. -/
noncomputable def busyPage : State :=
  let s := paged []
  { s with full := true, dies := s.dies.map (fun D => { D with on := true }), ctxs := modifyAt (fun C => { C with migth := 4, quota := [9, 9, 9, 9] }) s.ctxs 1, pageCnt := [(page0, [0, 0, 0, 4])] }

/-- A frame past every leaf is free. -/
theorem frameFree_past (s : State) (pa n lim : Nat) (hp : lim ≤ pa)
    (h : (List.range 64).all (fun x => !(ctxAt s x).valid || (leavesOf s x).all (fun l => decide (l.pa + l.size ≤ lim))) = true) :
    frameFree s pa n = true := by
  simp only [frameFree, List.all_eq_true, Bool.or_eq_true, decide_eq_true_eq] at h ⊢
  exact fun x hx => (h x hx).imp id (fun k l hl => .inl (Nat.le_trans (k l hl) hp))

/-- The die-store page may migrate to die 3, wherever the free choice of a frame there begins. -/
theorem witness_HostAndPageEvents_page :
    (match walk busyPage 1 0x100000 with | some l => mayMigrate busyPage 1 3 l && decide (l.size = 65536) | none => false) = true ∧
    (pickFrame busyPage 3 65536).isSome = true := by
  refine ⟨by decide +kernel, ?_⟩
  rw [pickFrame, List.find?_isSome]
  refine ⟨_, List.mem_map.2 ⟨0, List.mem_range.2 (by decide : 0 < dsBytes 3 / 65536), rfl⟩, frameFree_past _ _ _ (2 ^ 39 + 3 * 2 ^ 36) (by omega) ?_⟩
  decide +kernel

/-! ### Waits and travelling groups -/

/-- A satisfied and an expired wait for a signal, an ended yield; a barrier wave. -/
theorem witness_WaitAndTravelEvents_waits :
    (([some 5, none].all fun hit =>
      let w : Watch := { a := page0, cond := .le, x := 0, deadline := some 0, hit := hit }
      match (onGroup (fun G => { G with st := .waiting (.signal w) 0 })).groups[0]? with
      | some G =>
        let first := fun (f : Watch → Bool) => decide (G.waits.find? (fun e => match e.2.1 with | .signal w => f w | _ => false) = some (0, .signal w, 0))
        if hit.isSome then first (fun w => w.hit.isSome) else first (fun w => w.hit.isNone && w.deadline.any (fun t => decide (t ≤ W.time)))
      | none => false) &&
     (match (onGroup (fun G => { G with st := .waiting (.yielding [] 9) 0 })).groups[0]? with
      | some G => decide (G.waits.find? (fun e => match e.2.1 with
          | .yielding os t => os.isEmpty || decide (t ≤ (nth Core.reset W.cores G.core).clk) | _ => false) = some (0, .yielding [] 9, 0))
      | none => false) &&
     (let s := onGroup (fun G => { G with st := .waiting (.barrier 0 0) 0 })
      let s := { s with clusters := modifyAt (fun C => { C with phases := [(0, 0, 0)] }) s.clusters 16 }
      let C := nth Cluster.reset s.clusters 16
      decide (C.phases.flatMap (phaseWaiters s) = [(0, 0, 0, 0)]) && decide (C.waveAt ≤ (nth Core.reset s.cores 128).clk)
        && decide ((nth Core.reset s.cores 128).clk < { C with waveAt := 64 }.waveAt))) = true := by decide +kernel

/-- A travel launch whose segment 1 is on core 128 and whose segment 2 is on core 129, with core 130 in reserve, and no parking. -/
def trip : Travel :=
  { smap := 0x200000, rsrv := 4, pbase := 0x100000, psize := 0, least := false, msig := 0, mapw := [0, 1, 2], ver := 0, holds := true, above := [(128, 1)] }

/-- The world in that launch, its side at an exit to segment 2. -/
noncomputable def traveller (T : Travel) (f : Group → Group) : State :=
  let s := onSide (fun S => { S with status := .atExit 0x10020 2 .dflt 0 })
  let s := s.updGroup 0 f
  { s with launches := modifyAt (fun L => { L with travel := some T }) s.launches 0, mem := tables s.mem }

/-- A group departs for segment 2. -/
theorem witness_WaitAndTravelEvents_departure :
    (let s := traveller trip id
     match s.groups[0]?, s.launches[0]? with
     | some G, some L =>
       (match mergeExits s (departOrder G) with
        | S :: r => decide (S.exit? = some (0x10020, 2, .dflt, 0)) && decide (G.st = .ready) && canDepart G &&
            (let toks := departToks s G
             decide (failedTok G toks = none) && !toks.any (fun e => decide (tokState G e = some .pending)) &&
             (match G.acc with | some A => A.tiles.all (fun T => T.flight.isEmpty) | none => true) && decide (poolTake s 1 (poolNeed G) = some []) &&
             decide (chooseCore s L trip 2 0 0 .dflt 0 = some 129) &&
             (placeRec 0 129 1 0 (recBytes s 1 0 { departing G (S :: r) 2 toks [] with toks := G.toks }) (poolTiles 1 G [] s)).isSome)
        | [] => false)
     | _, _ => false) = true := by decide +kernel

/-- A record starts on a core with a free slot; it waits on one whose group has been Waiting for 10 µs. -/
theorem witness_WaitAndTravelEvents_arrival :
    (let R : Rec := { kind := 1, launch := 0, group := 0, core := 129, rlen := 128, inRing := true, at_ := 0 }
     let s := { traveller trip (fun G => { G with resident := false, st := .travelling, seg := 2 }) with recs := [R] }
     decide (s.recs.find? (fun r => r.core = 129) = some R) && !(freeSlotsFor s 1 none 129).isEmpty && !seedWaits s 1 &&
     (match s.launches[0]?, s.groups[0]? with
      | some L, some G => decide (G.st ≠ .ended) && decide (travelLimit s L G.seg ≠ 0) && decide ((residents s 129).length < travelLimit s L G.seg) && decide (G.stamp ≠ 0) && !leavesCores s 0 L
      | _, _ => false) &&
     (let u := { traveller trip (fun G => { G with st := .waiting .tokenFree 0 }) with recs := [{ R with core := 128 }], time := 10000 }
      let t := suspendGroup 0 u
      decide ((longWaiters u 128).length = (residents u 128).length) && (match longest (longWaiters u 128) with
        | some (g, G, _) => decide (g = 0) && decide (groupCtx u G = 1) && decide (poolTake t 1 (((t.groups[0]?).map poolNeed).getD 0) = some [])
        | none => false))) = true := by decide +kernel

/-- A ring above the line replicates, with a reserve core and without one; a launch that does not hold its cores takes them. -/
theorem witness_WaitAndTravelEvents_launch :
    ([0, 4].all fun (rsrv : DWord) =>
      let T := { trip with rsrv := rsrv }
      let s := { traveller T id with time := 50000 }
      decide (NMap.get 0 T.above 128 ≠ 0) && decide (NMap.get 0 T.above 128 + 50000 ≤ s.time + 1) &&
        T.holds && decide (replicas T.rsrv = if rsrv = 0 then [] else [2]) && (ctxKey s 1 (T.smap + 8) false).isSome) = true ∧
    (let s := traveller { trip with holds := false } (fun G => { G with resident := false, st := .travelling })
     match s.launches[0]? with
     | some L => !L.complete && decide ((ctxAt s L.ctx).st = .live) &&
         !(s.launches.zipIdx.any (fun e => e.2 != 0 && !e.1.complete && shares L.cores e.1.cores)) &&
         !L.cores.any (fun c => (residents s c).any (fun e => launchIx s e.2 != 0) || !(heldRanges s L.ctx none c).isEmpty)
     | none => false) = true := by decide +kernel

/-! ### Contexts, the debugger, management -/

/-- The world with a debug ring whose head entry begins with some bytes, its context in a state and its group changed. -/
noncomputable def debugged (st : CSt) (f : Group → Group) (cmd : List Byte) : State :=
  let s := onGroup f
  let s := { s with ctxs := modifyAt (fun C => { C with dbg := true, rsvd := 2 ^ 36, st := st }) s.ctxs 1 }
  { s with mem := setBytes (setBytes (tables []) (2 ^ 36 + 0x2000) cmd) (2 ^ 36 + 0x3000) [1] }

theorem witness_ContextAndDebugEvents_slots :
    (slotIs W 2 .free && slotIs W 1 .live && (let s := { W with ctxs := modifyAt (fun C => { C with st := .ending }) W.ctxs 1 }
      slotIs s 1 .ending && ctxDrained s 1) && decide (W.tlbinv.run = none)) = true := by decide +kernel

/-- Each command stands at the head of the ring; breakpoints have room; a watchpoint of 8 bytes to read in the die store. -/
theorem witness_ContextAndDebugEvents_commands :
    ([1, 2, 4, 5, 10].all (fun (n : Byte) => decide ((debugHead (debugged .live id [n]) 1).map Cmd.cmd = some n.toNat)) &&
     decide ((ctxAt W 1).bps.length < 256) &&
     (let s := debugged .halted id ([9, 0, 0, 0, 0, 0, 0, 0] ++ leBytes 8 (0x100000 * 2 ^ 16 + 4) ++ leBytes 8 8)
      match debugHead s 1 with | some c => decide (c.cmd = 9) && (wsetOf s 1 c).isSome | none => false) &&
     ([3, 6, 7, 8].all fun (n : Byte) =>
      let s := debugged .halted (fun G => { G with st := .suspended }) [n, 0, 1, 0, 2]
      (match debugHead s 1 with
       | some c => decide (c.cmd = n.toNat) && decide (stampGroup s 1 c.stamp = some 0) && decide (c.lane < 128) && decide ((ctxAt s 1).st = .halted) &&
           (match s.groups[0]? with
            | some G => decide (G.st = .suspended) && decide (G.held = none) && onCore s 0 && (sideOfLane G c.lane).isSome
                && (match lowestSide G with | some S => !S.core.frames.isEmpty | none => false)
            | none => false)
       | none => false)) &&
     (slotOfLane (probeNative .s 0) 2).isSome && (lowestSlot (probeNative .s 0)).isSome) = true := by decide +kernel

/-- Die 2 is on; early service; no group at reset; two caps in range and one that is not; an update to begin and one to end. -/
theorem witness_ManagementEvents :
    ((match W.dies[2]? with | some D => D.on && decide (D.last + 1000000 ≤ ({ W with time := 1000000 } : State).time) | none => false) &&
     decide (State.reset.full = false) && State.reset.groups.isEmpty && decide (W.staged = none) && slotIs W 1 .live && decide (W.updating = false) &&
     (setCap W.power 1 600).isSome && (setCap W.power 1 1600).isSome && (setCap W.power 2 2000).isSome && (setCap W.power 1 599).isNone &&
     (setCap W.power 2 1499).isNone && (sensorReading W 2).isSome && (sensorReading W 6).isSome && (stateReading (samplePeak W) 7).isSome) = true := by
  decide +kernel

/-! ### Results, decoding, the step -/

/-- A zero divisor, the most negative value by -1, and a remainder of a negative dividend, by R78's own words. -/
theorem witness_DivisionAndRemainder : (atSite W fun p => Ty.isInt .i8 && (opndBits W p .i8 (k 0x3F80)).isSome && (opndBits W p .i8 (k 0x3FFF)).isSome
    && (opndBits W p .i8 (k 0)).isSome) = true := by decide +kernel

/-- A field of 64 bits from bit 63 of a width of 64, and one from bit 64. -/
theorem witness_BitFieldRules : (atSite W fun p => Ty.isInt .i64 && (opndBits W p .i64 (v 0)).isSome && (opndBits W p .i32 (k 63)).isSome
    && (opndBits W p .i32 (k 64)).isSome && (opndBits W p .i32 (k 0)).isSome) = true := by decide +kernel

/-- Numbers, and a NaN in the low half of a moment read as f32. -/
theorem witness_MinimumAndMaximum : (atSite W fun p => (opndBits W p .f32 (k 1)).isSome && (opndBits W p .f32 (k 0x3FFF)).isSome
    && (opndBits W p .bf16 (k 0)).isSome && (opndBits W p .f16 (k 2)).isSome) = true := by decide +kernel

theorem witness_PortableRoundTrip : (Instr.wf (.add 1 .i64 true (.val 3) (.pool 5)) &&
    (match Instr.raw? (.add 1 .i64 true (.val 3) (.pool 5)) with | some r => decide (r.slots.length ≤ 1023) | none => false)) = true := by decide +kernel

theorem witness_SlotRoundTrip : (Instr.wf (.ffma { kp := true, grd := 9, d := 8, pa := true, a := 510, pb := true, b := 0 }) &&
    (Instr.slot? (.ffma { kp := true, grd := 9, d := 8, pa := true, a := 510, pb := true, b := 0 })).isSome) = true := by decide +kernel

/-- The fetched word of the world is an instruction; a word of no instruction is not; a slot's word is an operation. -/
theorem witness_StepRunsDecodedInstruction :
    ((match fetch (W.withFetchWord 32 0x06000000) 0 0 with
      | some (p, .ok _ _) => decide (p.grp.stepping ≠ some true) && !hookStop W p.ctx 0 0 p.pc && !groupStale (W.withFetchWord 32 0x06000000) 0
      | _ => false) &&
     (let s := onSide (fun S => { S with gated := [.objRetire 0 page0 1] })
      (fetch s 0 0).isSome && groupStale s 0) && !groupStale (nworld .v0 id) 0 &&
     (let s := nworld .v0 (fun N => { N with gated := [(0, .objRetire 0 page0 1)] })
      groupStale s 0) &&
     (match fetch (W.withFetchWord 32 0x10404800) 0 0 with | some (_, .ok (.add ..) 2) => true | _ => false) &&
     (match fetch (onSide (fun S => { S with core := { S.core with frames := S.core.frames.map (fun F => { F with pc := 0x10000 }) } })) 0 0 with
      | some (_, .bad _) => true | _ => false) &&
     (match slotWord ((State.reset).withFetchWord 40 0x2200004000) 0 .v0 with | some w => (decodeSlot .v w).isSome | none => false)) = true := by
  decide +kernel

/-- The state after reset has the form; a step from it goes on. -/
theorem witness_StepKeepsMemoryForm : Memory.wf State.reset = true ∧ Memory.wf W = true ∧
    (match step (State.reset.withFetchWord 32 0x0C000400) with | .next _ => true | _ => false) = true := by
  refine ⟨by decide +kernel, by decide +kernel, by decide +kernel⟩

/-! ### Words written out from the encoding tables -/

theorem test_decode_integer : decode [0x27124802, 0x00020001] = .ok (.cmp 0 .lt true .i32 (.val 1) (.val 2)) 2 := by decide +kernel
/-- The `fma` that the float chapter encodes (0x4380_6C00), of %1, an immediate 1 and %2. -/
theorem test_decode_float : decode [0x43806C00, 0x40010001, 0x00000002] = .ok (.fma 0 .f32 .rz true (.val 1) (.imm 1) (.val 2)) 3 := by decide +kernel
/-- The `cvt` that it encodes (0x4D98_0400), of pool constant 3. -/
theorem test_decode_conversion : decode [0x4D980400, 0x00008003] = .ok (.cvt 0 .ff (.ty .e4m3) (.ty .f32) .rne false (.pool 3)) 2 := by decide +kernel
theorem test_decode_moment : decode [0x72B00800, 0x00020001] = .ok (.mmul 0 .ind false (.val 1) (.val 2) none) 2 := by decide +kernel
theorem test_decode_matrix : decode [0x80D01001, 0x40030001, 0x00050004] = .ok (.mma 0 .e4m3 (.val 1) (.imm 3) [.val 4, .val 5]) 3 := by decide +kernel
theorem test_decode_engine : decode [0xC0D65400, 0x40000001, 0x40000002, 0x00004040] =
    .ok (.copy 0 1 3 false false { base := .val 1, off := .imm 0 } { base := .val 2, off := .imm 0 } (.imm 64) none []) 4 := by decide +kernel
theorem test_decode_memory : decode [0x90420800, 0x40080001] = .ok (.ld 0 .i32 false { base := .val 1, off := .imm 8 }) 2 := by decide +kernel
theorem test_decode_publication : decode [0xB3D4CC00, 0x40080001, 0x00000002] =
    .ok (.publ 0 3 2 { base := .val 1, off := .imm 8 } (.val 2) []) 3 := by decide +kernel
/-- The `twait` that the chapter of signals encodes (0xD619_1003). -/
theorem test_decode_wait : decode [0xD6191003, 0x40000001, 0x40090002] =
    .ok (.twait 0 .le 4 4 { base := .val 1, off := .imm 0 } (.val 2) (.imm 9)) 3 := by decide +kernel
theorem test_decode_travel : decode [0xE0000801, 0x0001E005] = .ok (.hop 0 .hash none { blk := 5, args := [.val 1] }) 2 := by decide +kernel
theorem test_decode_v : decodeSlot .v 0x9C00300402 = some (.vFmul { kp := false, grd := 0, d := 3, pa := false, a := 1, pb := false, b := 2 }) := by
  decide +kernel
theorem test_decode_v_guard : decodeSlot .v 0xA12088A005 = some (.ffma { kp := false, grd := 9, d := 8, pa := true, a := 40, pb := false, b := 5 }) := by
  decide +kernel
theorem test_decode_v_sub : decodeSlot .v 0x7C00A04011 = some (.icmp { kp := false, grd := 0, d := 10, pa := false, a := 16, pb := false, b := 17 }) ∧
    decodeSlot .v 0x7C00E04011 = none := by decide +kernel
theorem test_decode_l : decodeSlot .l 0x18028301D4 = some (.aadd { grd := 0, dr := 20, pd := false, win := 3, pa := false, a := 7, sz := 2, scp := 4 }) := by
  decide +kernel
theorem test_decode_s : decodeSlot .s 0x04120802 = some (.salu 9 8 2) ∧ decodeSlot .s 0x16FFFFFF = some (.sbrc 3 0x3FFFFF) ∧
    decodeSlot .s 0x35028E00 = some (.sxset 1 5 7 false) ∧ decodeSlot .s 0x2E609001 = some (.sloop 2 3 9 1) := by decide +kernel
theorem test_decode_f : decodeSlot .f 0x1810C400 = some (.fExp2 { grd := 8, d := 33, pa := true, a := 32 }) := by decide +kernel
theorem test_decode_m : decodeSlot .m 0x16B400 = some (.tstep 3 5 5) := by decide +kernel
theorem test_decode_a : decodeSlot .a 0x1C812000 = some (.aEnq 2 9) := by decide +kernel

/-! ### Worked examples of the spec -/

/-- R34: the immediate 200 in an i8 slot. -/
theorem test_immediate_i8 : (atSite W fun p => decide ((opndBits W p .i8 (k 200)).map (nth 0 · 0) = some 0xC8)) = true := by decide +kernel

/-- Subnormals: 2^-127 times 2 with DN 0 and 1; 2^-100 times 2^-30. -/
theorem test_fmul_subnormal :
    ((fpMul (Ty.fmt .f32) .rne false 0x00400000 0x40000000).1 = 0 ∧ (fpMul (Ty.fmt .f32) .rne true 0x00400000 0x40000000).1 = 0x00800000) ∧
    (let r := fpMul (Ty.fmt .f32) .rne false 0x0D800000 0x30800000
     r.1 = 0 ∧ r.2 = fUF ||| fNX) := by decide +kernel

/-- R89: `rsdenc.s` of -1, and `rsddec` of its word. -/
theorem test_residues : (rsdencLane true 0xFFFFFFFF).1 = 0x0803FFFE ∧ (rsddecLane 0x0803FFFE).1 = 0xFFFFFFFF := by decide +kernel

/-- R356: the page of context 5 at VA 0x2000_1000, whose entry is 0x0005_0080_0001_000F. -/
theorem test_page_walk :
    (let m := [(0, 0x1001), (0x1000, 0x2001), (0x2000 + 8 * 256, 0x3001), (0x3000, 0x000500800001000F)].foldl
       (fun m e => setBytes m (keyPool e.1) (leBytes 8 e.2)) ([] : NMap Byte)
     decide ((walk { W with mem := m, full := true, dies := W.dies.map (fun D => { D with on := true }) } 1 0x20001000).map (fun l => (l.pa + (0x20001000 - l.va), l.owner, l.rd, l.wr)) = some (0x8000011000, 5, true, true))) = true := by
  decide +kernel

/-- The words of the procedure `sum`. -/
def sum (addWord : Nat) : List Byte :=
  [2, 0x15, 0, 1, 4, 0, 0, 0, 0x0F000400, 4, 0x01000C00, 0x4000E001, 0x4000, 0x0F000800, 0x00040004, 0x10404800, 0x00020001, 0x10404800,
   addWord, 0x27124802, 0x00050001, 0x02001800, 0xE0010001, 0x00030002, 0x0003E002, 0x0F000400, 4, 0x05000400, 1, 0].flatMap (leBytes 4)

/-- The worked image passes verification; with a value of distance 0 its second `add` is reported at offset 0x44. -/
theorem test_verify_sum :
    (let o := { probeObj with ftab := [(0, 0x78)] }
     let s := fun (w : Nat) => { W with mem := setBytes [] (keyCode 0x10000) (sum w) }
     decide (verify (s 0x40010003) o 0x10000 0 = none) && decide (verify (s 0x40010000) o 0x10000 0 = some (0x44, .illegalEncoding))) = true := by
  decide +kernel

/-! ### Ill-formed terms: one for each check -/

/-- A V operation of no guard. -/
def vop (d a b : Nat) : VOp := { kp := false, grd := 0, d := BitVec.ofNat 9 d, pa := false, a := BitVec.ofNat 9 a, pb := false, b := BitVec.ofNat 9 b }
/-- An L operation of no guard. -/
def lop (dr win a sz scp : Nat) : LOp :=
  { grd := 0, dr := BitVec.ofNat 9 dr, pd := false, win := BitVec.ofNat 4 win, pa := false, a := BitVec.ofNat 9 a, sz := BitVec.ofNat 3 sz, scp := BitVec.ofNat 3 scp }
/-- A memory operand with a special base. -/
def badMem : MemOp := { base := .spec 0, off := k 0 }
/-- One with a negative offset. -/
def negMem : MemOp := { base := .val 1, off := .imm (-1) }
/-- One that is right. -/
def mem1 : MemOp := { base := .val 1, off := k 0 }

theorem test_wf_control : ([.br 0 { blk := 0, args := [] }, .br 0 { blk := 1, args := [.blk 2] }, .cbr 0 (.imm 2) { blk := 1, args := [] } { blk := 2, args := [] },
    .switch 0 (.val 1) { blk := 1, args := [] } [], .call 0 none (.imm (-1)) [], .call 0 none (.val 1) [], .ret 0 (List.replicate 9 (.val 1)),
    .trap 0 (.imm (-1)), .copyV 0 (.ty .tok) (.val 1), .copyV 0 (.arr .mo 3) (.val 1), .copyV 0 (.arr .i32 3) (k 1), .copyVRet 0 (.ty .i32) (k 0),
    .copyVRet 0 (.ty .i32) (k 8)].all (fun i => !Instr.wf i)) = true := by decide +kernel

theorem test_wf_integer : ([.add 0 .f32 true (.val 1) (.val 2), .add 0 .i32 true (.blk 1) (.val 2), .add 0 .i32 true (.val 2) (.spec 12), .mul 0 .b1 true false (.val 1) (.val 2),
    .mad 0 .i8 true (.val 1) (.spec 0) (.val 1), .and 0 .f16 (.val 1) (.val 1), .and 0 .b1 (.val 1) (k 2), .not 0 .mo (.val 1), .neg 0 .b1 false (.val 1),
    .shl 0 .i64 (.val 1) (.blk 0), .clz 0 .b1 (.val 1), .bfx 0 .i32 true (.val 1) (.blk 0) (.val 1), .bfi 0 .ref (.val 1) (.val 1) (.val 1) (.val 1),
    .cmp 0 .lt true .b1 (.val 1) (.val 1), .cmp 0 .eq true .f32 (.val 1) (.val 1), .sel 0 (.ty .acc) (.val 1) (.val 1) (.val 1), .sel 0 (.ty .i32) (k 2) (.val 1) (.val 1),
    .ext 0 .i8 true .b1 (.val 1), .ext 0 .i32 true .i32 (.val 1), .trunc 0 .i64 false false .i64 (.val 1), .trunc 0 .i8 true false .i32 (.val 1),
    .trunc 0 .b1 false true .i32 (.val 1), .lea 0 .i32 true .i64 0 (.val 1) (.val 1) (.val 1), .lea 0 .i64 true .i32 5 (.val 1) (.val 1) (.val 1)].all
    (fun i => !Instr.wf i)) = true := by decide +kernel

theorem test_wf_lanes_and_floats : ([.shfl 0 .idx .mo (.val 1) (.val 1), .bcast 0 .i32 (.val 1) (.blk 0), .vote 0 .any (k 2), .ballot 0 false (.spec 0),
    .redg 0 .add true .rz false .i32 (.val 1), .redg 0 .and true .rne false .i32 (.val 1), .redg 0 .fadd false .rne false .i32 (.val 1),
    .scang 0 false .fmin false .rz false .f32 (.val 1), .aset 0 .i32 3 (.val 1) (k 4) (.val 1), .aset 0 .mo 3 (.val 1) (k 0) (.val 1), .aget 0 .i32 (k 0) (k 0),
    .aget 0 .i32 (.val 1) (.imm (-1)), .afill 0 .b1 3 (.val 1), .fadd 0 .e4m3 .rne false (.val 1) (.val 1), .fadd 0 .f16 .rne false (k 4097) (.val 1),
    .fma 0 .bf16 .rne false (k 257) (.val 1) (.val 1), .fneg 0 .i32 (.val 1), .fcmp 0 .eq .mo false (.val 1) (.val 1), .fclass 0 .i8 (.val 1),
    .fscale 0 .f32 .rne false (.val 1) (.blk 0), .cvt 0 .ff (.ty .f32) (.ty .f32) .rne false (.val 1), .cvt 0 .s .s8 (.ty .i32) .rz false (.val 1),
    .cvt 0 .n .s8 (.ty .i32) .rne false (.val 1), .cvt 0 .s (.ty .f32) (.ty .i32) .rne true (.val 1), .pack 0 (.ty .f16) [.val 1], .pack 0 (.ty .i8) [],
    .unpack 0 (.ty .f16) 2 (.val 1), .unpack 0 .s8 3 (.spec 13), .rsdenc 0 true (.blk 0), .rsddec 0 (.blk 0), .exp2 0 false (.spec 0)].all
    (fun i => !Instr.wf i)) = true := by decide +kernel

theorem test_wf_moments_and_matrix : ([.madd 0 .cov false (.val 1) (.val 1) none, .madd 0 .ind false (.val 1) (.val 1) (some (.val 1)), .mfma 0 .ind false (k 0) (.val 1) (.val 1) none,
    .mexp 0 false (k 0), .mcol 0 .hi false (.val 1) none, .mcol 0 .mean false (.val 1) (some (.val 1)), .mmake 0 false (.spec 0) (.val 1),
    .mscale 0 false (k 0) (.val 1) (.val 1), .mma 0 .bf16 (.val 1) (k 0) [.val 1], .mma 0 .s8 (.val 1) (k 8) [.val 1, .val 1], .mma 0 .s8 (.val 1) (k 7) [k 1, .val 1],
    .accrel 0 (k 0), .accrd 0 .i32 (.val 1) (k 0) (k 32) none, .accwr 0 .mo (.val 1) (k 0) (k 0) (k 1), .acczero 0 (.val 1) (.val 1),
    .ldfrag 0 false false true false mem1 (.val 1), .ldscale 0 (.val 1) (k 0) (.blk 0), .rsdraw 0 (.val 1) (k 8) (k 0) none].all
    (fun i => !Instr.wf i)) = true := by decide +kernel

theorem test_wf_memory : ([.ld 0 .b1 true mem1, .ld 0 .i32 true badMem, .ld 0 .i32 true negMem, .st 0 .mo true mem1 (k 0), .atom 0 .add .rlx 0 .f32 true mem1 (.val 1),
    .atom 0 .add .rlx 6 .i32 true mem1 (.val 1), .cas 0 .rlx 0 .i8 true mem1 (.val 1) (.val 1), .fence 0 .ar 0 1, .fence 0 .ar 1 0, .bar 0 0 (k 0), .bar 0 1 (k 16),
    .barwt 0 1 (k 0) (k 0), .ldacq 0 0 .i32 true mem1, .strel 0 1 .i32 true mem1 (.blk 0), .prefetch 0 false badMem, .ldw 0 .mo 3 true mem1, .stw 0 .i32 3 true mem1 (k 0),
    .mkref 0 badMem, .objinit 0 true false mem1 (.blk 0), .publ 0 1 1 mem1 (.val 1) [], .publ 0 1 2 mem1 (k 1) [], .publ 0 1 2 mem1 (k 0) [.val 1, .val 1, .val 1, .val 1],
    .refeq 0 (k 1) (.val 1), .refadr 0 (.pool 0), .stref 0 mem1 (k 1), .objst 0 .mo (.val 1) (k 8) (.val 1), .objst 0 .i32 (.val 1) (k 7) (.val 1)].all
    (fun i => !Instr.wf i)) = true := by decide +kernel

theorem test_wf_engines_and_system : ([.copy 0 6 3 false false mem1 mem1 (k 4) none [], .copy 0 1 3 false false mem1 mem1 (.blk 0) none [],
    .copy 0 1 3 false false mem1 mem1 (k 4) (some (.blk 0, k 0, k 0)) [], .gather 0 1 3 1 mem1 mem1 (k 2) [], .gather 0 1 3 2 mem1 mem1 (k 8) [],
    .coll 0 .bcast .min 2 .i32 mem1 mem1 (k 1) (k 0) [], .coll 0 .allred .add 1 .i32 mem1 mem1 (k 1) (k 0) [], .coll 0 .allred .add 2 .i8 mem1 mem1 (k 1) (k 0) [],
    .post 0 2 (k 1) (k 0) [], .post 0 3 (k 0) (k 0) [], .post 0 3 (k 1) (k 0) (List.replicate 36 (.val 1)), .tjoin 0 [], .kwait 0 [], .ktest 0 (k 0),
    .sigdec 0 0 1 mem1 (.val 1) [], .sigset 0 1 0 mem1 (.val 1) [], .sigwait 0 .eq 1 1 mem1 (.blk 0), .sigrd 0 0 1 mem1, .enq 0 false 3 4 (k 0) (.val 1) [],
    .enq 0 false 4 3 (k 0) (.val 1) [], .nsleep 0 (.blk 0), .twait 0 .eq 0 1 mem1 (.val 1) (.val 1), .hop 0 .key none { blk := 1, args := [] },
    .hop 0 .dflt (some (.val 1)) { blk := 1, args := [] }, .trvmapRep 0 (k 64), .ctrrd 0 (k 16), .ctrctl 0 false (k 0) (.blk 0), .brkpt 0 (.val 1),
    .assert 0 (.val 1) (.val 1), .clrflag 0 (k 256)].all (fun i => !Instr.wf i)) = true := by decide +kernel

theorem test_wf_native : ([.salu 0 0 0x1D, .sloop 0 0 0 0, .ssetfm 0xC, .sbar 0 3, .ssys 0 11, .iadd { vop 1 2 3 with grd := 1 }, .isel { vop 1 2 3 with grd := 8 },
    .iclz (vop 1 2 3), .icmp (vop 16 2 3), .icmp (vop 6 2 3), .vFcmp (vop 8 2 3), .vFclass (vop 1 2 5), .vCvt (vop 1 2 0x44), .rsenc (vop 1 2 1), .xvote (vop 1 2 0),
    .xvote (vop 0 2 3), .xblt (vop 1 2 2), .xred (vop 1 2 9), .xscn (vop 1 2 64), .ubc { vop 1 2 0 with pa := true }, .rget (vop 1 8 0), .rset (vop 1 0 3), .mld (vop 1 256 0),
    .mst (vop 256 1 0), .tread (vop 1 0 32), .fExp2 { grd := 2, d := 0, pa := false, a := 0 }, .sscl 1 0 0 false 0, .ldn (lop 1 0 0 5 0), .ldn (lop 1 0 0 2 6),
    .pref (lop 1 0 0 0 0), .aadd (lop 1 0 0 1 0), .fnc (lop 0 0 0 0 0), .fnc (lop 8 0 0 0 0), .spst (lop 1 1 0 2 0), .spld (lop 1 0 0 3 0), .ldt (lop 1 0 0 2 0)].all
    (fun i => !Instr.wf i)) = true := by decide +kernel

end Sys2Proof.Tests
end

namespace Sys2Proof.Machine
open Sys2Proof

/-! ### The machine right after reset -/

/-- No map of the storage lists a key at reset (log entry 4). -/
theorem storage_wf_reset : Storage.wf State.reset = true := (Storage.wf_iff _).mpr ⟨rfl, rfl, rfl, rfl, rfl, rfl⟩

/-- At reset no slot but slot 0 holds a context, nor does any number beyond the table (R348, R350). -/
theorem ctxAt_reset_of_pos {x : Nat} (h : 1 ≤ x) : ctxAt State.reset x = Ctx.reset := by
  obtain ⟨n, rfl⟩ := Nat.exists_eq_add_of_le' h
  rw [ctxAt, nth, State.reset, List.getD_cons_succ, List.getD_eq_getElem?_getD, List.getElem?_replicate]
  split
  · rw [Option.getD_some]
  · rw [Option.getD_none]

/-- At reset every queue is disabled, since none is listed (R284). -/
theorem queueAt_reset (q : Nat) : queueAt State.reset q = Queue.reset := rfl

/-- Every core is at its reset value (R296). -/
theorem core_eq_of_mem_reset {C : Core} (h : C ∈ State.reset.cores) : C = Core.reset := List.eq_of_mem_replicate h

/-- Every cluster is at its reset value (R305, R406). -/
theorem cluster_eq_of_mem_reset {C : Cluster} (h : C ∈ State.reset.clusters) : C = Cluster.reset := List.eq_of_mem_replicate h

/-- With nothing dispatched, a step is one of the things that may come next. -/
theorem step_of_issue_none {s : State} (h : s.issue = .none) : step s = chooseNext s := by simp only [step, h]

/-- Settles O59: slot by slot, queue by queue and core by core, from what the tables hold at reset. -/
theorem resetState : Obligations.ResetState := by
  have hctx : ∀ x, 1 ≤ x → x < 64 → (ctxAt State.reset x).valid = false ∧ (ctxAt State.reset x).st = .free ∧
      (ctxAt State.reset x).root = 0 ∧ (ctxAt State.reset x).quota = [0, 0, 0, 0] := by
    intro x hx _
    rw [ctxAt_reset_of_pos hx]
    exact ⟨rfl, rfl, rfl, rfl⟩
  have hqueue : ∀ q, (queueAt State.reset q).en = false ∧ (queueAt State.reset q).st = .disabled := by
    intro q
    rw [queueAt_reset]
    exact ⟨rfl, rfl⟩
  have hcore : ∀ C ∈ State.reset.cores, C.ptr = 63 ∧ C.tlb = [] := by
    intro C hC
    rw [core_eq_of_mem_reset hC]
    exact ⟨rfl, rfl⟩
  have hcluster : ∀ C ∈ State.reset.clusters, C.slope = 0x10 ∧ C.mhz = 400 := by
    intro C hC
    rw [cluster_eq_of_mem_reset hC]
    exact ⟨rfl, rfl⟩
  exact ⟨rfl, rfl, rfl, rfl, rfl, rfl, rfl, storage_wf_reset, rfl, rfl, rfl, hctx, hqueue, List.length_replicate, hcore,
    List.length_replicate, hcluster, rfl, step_of_issue_none rfl⟩

end Sys2Proof.Machine

namespace Sys2Proof

/-! ### Codes read back (R29, R32 and each description) -/

@[simp] theorem Ty.code_ne_fifteen (t : Ty) : t.code ≠ 15#4 := by cases t <;> decide
@[simp] theorem Ty.ofCode_code (t : Ty) : Ty.ofCode t.code = some t := by cases t <;> rfl
theorem Ty.code_ne_zero (t : Ty) : t.code ≠ 0 := by cases t <;> decide
@[simp] theorem Ty.ofCode_one : Ty.ofCode 1#4 = some .b1 := rfl
@[simp] theorem Ty.ofCode_four : Ty.ofCode 4#4 = some .i32 := rfl
@[simp] theorem Ty.ofCode_five : Ty.ofCode 5#4 = some .i64 := rfl
@[simp] theorem RM.ofCode_code (m : RM) : RM.ofCode m.code = m := by cases m <;> rfl
@[simp] theorem Cond.ofCode_code (c : Cond) : Cond.ofCode c.code.toNat = some c := by cases c <;> rfl
@[simp] theorem FCond.ofCode_code (c : FCond) : FCond.ofCode c.code.toNat = some c := by cases c <;> rfl
@[simp] theorem ShflMode.ofCode_code (m : ShflMode) : ShflMode.ofCode m.code.toNat = some m := by cases m <;> rfl
@[simp] theorem VoteMode.ofCode_code (m : VoteMode) : VoteMode.ofCode m.code.toNat = some m := by cases m <;> rfl
@[simp] theorem RedOp.ofCode_code (o : RedOp) : RedOp.ofCode o.code.toNat = some o := by cases o <;> rfl
@[simp] theorem CvtKind.ofCode_code (k : CvtKind) : CvtKind.ofCode k.code.toNat = some k := by cases k <;> rfl
@[simp] theorem Cov.ofCode_code (c : Cov) : Cov.ofCode c.code = c := by cases c <;> rfl
@[simp] theorem ColSel.ofCode_code (c : ColSel) : ColSel.ofCode c.code.toNat = some c := by cases c <;> rfl
@[simp] theorem MmaForm.ofCode_code (f : MmaForm) : MmaForm.ofCode f.code.toNat = some f := by cases f <;> rfl
@[simp] theorem AccTy.ofCode_code (t : AccTy) : AccTy.ofCode t.code = some t := by cases t <;> rfl
@[simp] theorem AccTy.code_ne_fifteen (t : AccTy) : t.code ≠ 15#4 := by cases t <;> decide
@[simp] theorem AtomOp.ofCode_code (o : AtomOp) : AtomOp.ofCode o.code.toNat = some o := by cases o <;> rfl
@[simp] theorem AtomKind.ofCode_code (k : AtomKind) : AtomKind.ofCode k.code = k := by cases k <;> rfl
@[simp] theorem FenceKind.ofCode_code (k : FenceKind) : FenceKind.ofCode k.code.toNat = some k := by cases k <;> rfl
@[simp] theorem CollKind.ofCode_code (k : CollKind) : CollKind.ofCode k.code.toNat = some k := by cases k <;> rfl
@[simp] theorem CollOp.ofCode_code (o : CollOp) : CollOp.ofCode o.code.toNat = some o := by cases o <;> rfl
@[simp] theorem HopMode.ofCode_code (m : HopMode) : HopMode.ofCode m.code.toNat = some m := by cases m <;> rfl
@[simp] theorem CTy.ofCode_code (t : CTy) : CTy.ofCode t.code = some t := by
  cases t with
  | s8 => rfl
  | ty t => simp [CTy.ofCode, CTy.code]

/-! ### MOD fields read back (R29) -/

section
variable (sg sat ds cl : Bool) (rm : RM) (s : Ty) (c : BitVec 4) (lo : BitVec 2) (cv : Cov) (mask sc : BitVec 3)

@[simp] theorem mSg_getElem_zero : (mSg sg)[0] = sg := by cases sg <;> rfl
@[simp] theorem mSat_getElem_zero : (mSat sg sat)[0] = sg := by cases sg <;> cases sat <;> rfl
@[simp] theorem mSat_getElem_one : (mSat sg sat)[1] = sat := by cases sg <;> cases sat <;> rfl
@[simp] theorem extractLsb'_mRm : (mRm rm).extractLsb' 0 2 = rm.code := BitVec.extractLsb'_append_eq_right
@[simp] theorem mTy1_getElem_zero : (mTy1 s sg)[0] = sg := by cases s <;> cases sg <;> rfl
@[simp] theorem extractLsb'_mTy1 : (mTy1 s sg).extractLsb' 1 4 = s.code := by cases s <;> cases sg <;> rfl
@[simp] theorem extractLsb'_mTy2_high : (mTy2 c lo).extractLsb' 2 4 = c := BitVec.extractLsb'_append_eq_left
@[simp] theorem extractLsb'_mTy2_low : (mTy2 c lo).extractLsb' 0 2 = lo := BitVec.extractLsb'_append_eq_right
@[simp] theorem extractLsb'_mTy0 : (mTy0 c).extractLsb' 0 4 = c := BitVec.extractLsb'_append_eq_right
@[simp] theorem mMo_getElem_two : (mMo cv cl)[2] = cl := by cases cv <;> cases cl <;> rfl
@[simp] theorem extractLsb'_mMo : (mMo cv cl).extractLsb' 0 2 = cv.code := by cases cv <;> cases cl <;> rfl
@[simp] theorem extractLsb'_mMem_scope : (mMem mask sc).extractLsb' 0 3 = sc := BitVec.extractLsb'_append_eq_right
@[simp] theorem extractLsb'_mMem_mask : (mMem mask sc).extractLsb' 3 3 = mask := BitVec.extractLsb'_append_eq_left
@[simp] theorem mMem_oneSpace_getElem_four : (mMem (oneSpace ds) sc)[4] = ds := by
  rw [← BitVec.getLsbD_eq_getElem, mMem, BitVec.getLsbD_append]
  cases ds <;> rfl
theorem mTy2_getElem_zero : (mTy2 c lo)[0] = lo[0] := by
  rw [← BitVec.getLsbD_eq_getElem, mTy2, BitVec.getLsbD_append]
  rfl
theorem mTy2_getElem_one : (mTy2 c lo)[1] = lo[1] := by
  rw [← BitVec.getLsbD_eq_getElem, mTy2, BitVec.getLsbD_append]
  rfl
@[simp] theorem mTy2_sat_getElem_zero : (mTy2 c (BitVec.ofBool sat ++ BitVec.ofBool sg))[0] = sg := by
  rw [mTy2_getElem_zero]
  cases sg <;> cases sat <;> rfl
@[simp] theorem mTy2_sat_getElem_one : (mTy2 c (BitVec.ofBool sat ++ BitVec.ofBool sg))[1] = sat := by
  rw [mTy2_getElem_one]
  cases sg <;> cases sat <;> rfl
@[simp] theorem mMem_prefetch_getElem_five : (mMem (if ds then 4#3 else 2#3) sc)[5] = ds := by
  rw [← BitVec.getLsbD_eq_getElem, mMem, BitVec.getLsbD_append]
  cases ds <;> rfl
end

/-! ### Slots (R33) -/

section
variable (t : BitVec 2) (y : BitVec 14)

theorem extractLsb'_half_tag : (t ++ y : Half).extractLsb' 14 2 = t := BitVec.extractLsb'_append_eq_left
theorem extractLsb'_half_payload : (t ++ y : Half).extractLsb' 0 14 = y := BitVec.extractLsb'_append_eq_right
theorem extractLsb'_half_tag_code (b : BitVec 1) (c : BitVec 13) : (t ++ (b ++ c) : Half).extractLsb' 14 2 = t :=
  BitVec.extractLsb'_append_eq_left
theorem extractLsb'_half_code (b : BitVec 1) (c : BitVec 13) : (t ++ (b ++ c) : Half).extractLsb' 0 13 = c :=
  (BitVec.extractLsb'_append_eq_of_add_le (by decide)).trans BitVec.extractLsb'_append_eq_right
theorem getLsbD_half_thirteen (b : BitVec 1) (c : BitVec 13) : (t ++ (b ++ c) : Half).getLsbD 13 = b.getLsbD 0 :=
  BitVec.getLsbD_append.trans BitVec.getLsbD_append
end

@[simp] theorem Opnd.ofHalf_half (o : Opnd) : Opnd.ofHalf o.half = o := by
  cases o with
  | val d =>
    simp only [Opnd.ofHalf, Opnd.half, extractLsb'_half_tag, extractLsb'_half_payload]
    rfl
  | imm i =>
    simp only [Opnd.ofHalf, Opnd.half, extractLsb'_half_tag, extractLsb'_half_payload]
    rfl
  | pool i =>
    simp only [Opnd.ofHalf, Opnd.half, extractLsb'_half_tag, extractLsb'_half_payload]
    rfl
  | spec c =>
    simp only [Opnd.ofHalf, Opnd.half, extractLsb'_half_tag_code, extractLsb'_half_code, getLsbD_half_thirteen]
    rfl
  | blk b =>
    simp only [Opnd.ofHalf, Opnd.half, extractLsb'_half_tag_code, extractLsb'_half_code, getLsbD_half_thirteen]
    rfl

/-- Packed slots are read back, whatever words follow them (R31). -/
theorem readSlots_packSlots (xs : List Opnd) (more : List Word) :
    readSlots xs.length (packSlots xs ++ more) = some (xs, (packSlots xs).length) := by
  induction xs using packSlots.induct with
  | case1 => rfl
  | case2 a =>
    have hpad : (0#16 ++ a.half : Word).extractLsb' 16 16 = 0#16 := BitVec.extractLsb'_append_eq_left
    have hlow : (0#16 ++ a.half : Word).extractLsb' 0 16 = a.half := BitVec.extractLsb'_append_eq_right
    simp [packSlots, readSlots, hpad, hlow]
  | case3 a b r ih =>
    have hhigh : (b.half ++ a.half : Word).extractLsb' 16 16 = b.half := BitVec.extractLsb'_append_eq_left
    have hlow : (b.half ++ a.half : Word).extractLsb' 0 16 = a.half := BitVec.extractLsb'_append_eq_right
    simp [packSlots, readSlots, hhigh, hlow, ih]

/-! ### The base word (R28) -/

section
variable (r : Raw)

theorem Raw.base_op : r.base.extractLsb' 24 8 = r.op := BitVec.extractLsb'_append_eq_left
theorem Raw.base_ty : r.base.extractLsb' 20 4 = r.ty := by
  refine (BitVec.extractLsb'_append_eq_of_add_le (by decide)).trans ?_
  exact BitVec.extractLsb'_append_eq_left
theorem Raw.base_md : r.base.extractLsb' 14 6 = r.md := by
  iterate 2 refine (BitVec.extractLsb'_append_eq_of_add_le (by decide)).trans ?_
  exact BitVec.extractLsb'_append_eq_left
theorem Raw.base_dn : r.base.getLsbD 13 = r.dn := by
  iterate 4 refine BitVec.getLsbD_append.trans ?_
  exact BitVec.getLsbD_ofBool r.dn 0
theorem Raw.base_nops : r.base.extractLsb' 10 3 = r.nops := by
  iterate 4 refine (BitVec.extractLsb'_append_eq_of_add_le (by decide)).trans ?_
  exact BitVec.extractLsb'_append_eq_left
theorem Raw.base_hi : r.base.extractLsb' 8 2 = r.hi := by
  iterate 5 refine (BitVec.extractLsb'_append_eq_of_add_le (by decide)).trans ?_
  exact BitVec.extractLsb'_append_eq_left
theorem Raw.base_hr : r.base.extractLsb' 6 2 = r.hr := by
  iterate 6 refine (BitVec.extractLsb'_append_eq_of_add_le (by decide)).trans ?_
  exact BitVec.extractLsb'_append_eq_left
theorem Raw.base_sub : r.base.extractLsb' 0 6 = r.sub := by
  iterate 6 refine (BitVec.extractLsb'_append_eq_of_add_le (by decide)).trans ?_
  exact BitVec.extractLsb'_append_eq_right

theorem Raw.nops_toNat : r.nops.toNat = if r.slots.length < 7 then r.slots.length else 7 := by
  unfold Raw.nops
  split
  · exact Nat.mod_eq_of_lt (by omega)
  · rfl

/-- A type word stands exactly where TY is 15 (R32). -/
def Raw.Typed (r : Raw) : Prop := r.ty = 15 ↔ r.descr.isSome

/-- The raw form is read back from its words, whatever words follow them (R28, R31). -/
theorem readRaw_words {r : Raw} (ht : r.Typed) (hn : r.slots.length ≤ 1023) (more : List Word) :
    readRaw (r.words ++ more) = some (r, r.words.length) := by
  have hword : ∀ d : Half, (0#16 ++ d : Word).extractLsb' 16 16 = 0#16 := fun d => BitVec.extractLsb'_append_eq_left
  have hdescr : ∀ d : Half, (0#16 ++ d : Word).extractLsb' 0 16 = d := fun d => BitVec.extractLsb'_append_eq_right
  have hcount : (BitVec.ofNat 32 r.slots.length).toNat = r.slots.length := Nat.mod_eq_of_lt (by omega)
  have hslots := readSlots_packSlots r.slots more
  simp only [Raw.Typed] at ht
  simp only [readRaw, Raw.words, List.cons_append, Raw.base_ty, Raw.base_op, Raw.base_md, Raw.base_dn, Raw.base_nops,
    Raw.base_hi, Raw.base_hr, Raw.base_sub, Raw.nops_toNat]
  generalize r.base = w
  obtain ⟨op, ty, md, dn, hi, hr, sub, descr, slots⟩ := r
  simp only at ht hn hcount hslots ⊢
  have hshort : slots.length < 7 → slots.length ≠ 7 := Nat.ne_of_lt
  cases descr with
  | none =>
    have hty : ty ≠ 15#4 := by simpa using ht
    by_cases h7 : slots.length < 7
    · simp [hty, h7, hshort, hslots]
      omega
    · simp [hty, h7, Nat.le_of_not_lt h7, hn, hcount, hslots]
      omega
  | some d =>
    have hty : ty = 15#4 := by simpa using ht
    by_cases h7 : slots.length < 7
    · simp [hty, h7, hshort, hslots, hword, hdescr]
      omega
    · simp [hty, h7, Nat.le_of_not_lt h7, hn, hcount, hslots, hword, hdescr]
      omega
end

/-! ### Type descriptors (R32) -/

theorem TyD.ofHalf_half {t : TyD} (ht : t.ok = true) (hw : t.word ≠ none) : TyD.ofHalf t.half = some t := by
  cases t with
  | ty t => exact absurd rfl hw
  | s8 => rfl
  | arr e l =>
    have htag : (TyD.arr e l).half.extractLsb' 0 4 = 15#4 :=
      (BitVec.extractLsb'_append_eq_of_add_le (by decide)).trans
        ((BitVec.extractLsb'_append_eq_of_add_le (by decide)).trans BitVec.extractLsb'_append_eq_right)
    have hkind : (TyD.arr e l).half.extractLsb' 4 2 = 1#2 :=
      (BitVec.extractLsb'_append_eq_of_add_le (by decide)).trans
        ((BitVec.extractLsb'_append_eq_of_add_le (by decide)).trans BitVec.extractLsb'_append_eq_left)
    have helem : (TyD.arr e l).half.extractLsb' 6 4 = e.code :=
      (BitVec.extractLsb'_append_eq_of_add_le (by decide)).trans BitVec.extractLsb'_append_eq_left
    have hlen : (TyD.arr e l).half.extractLsb' 10 6 = l := BitVec.extractLsb'_append_eq_left
    have he : e.isElem = true := ht
    simp [TyD.ofHalf, htag, hkind, helem, hlen, he]

/-- The descriptor that types a raw form is read back from it. -/
theorem rawD_tyD {t : TyD} (ht : t.ok = true) (op md h sub xs) : (rawD op t md h sub xs).tyD = some t := by
  cases t with
  | ty t => simp [Raw.tyD, rawD, TyD.word, TyD.tyField]
  | arr e l => exact TyD.ofHalf_half ht nofun
  | s8 => rfl

theorem TyD.ok_of_copyOk {t : TyD} (ht : t.copyOk = true) : t.ok = true := by
  cases t with
  | ty t => rfl
  | arr e l => exact ht
  | s8 => rfl

/-! ### Block targets (R36) -/

/-- Slots that name no block come before the first target. -/
theorem splitTargets_append {xs : List Opnd} (hx : xs.all Opnd.isArg = true) (ys : List Opnd) :
    splitTargets (xs ++ ys) = (xs ++ (splitTargets ys).1, (splitTargets ys).2) := by
  induction xs with
  | nil => rfl
  | cons x xs ih =>
    simp only [List.all_cons, Bool.and_eq_true] at hx
    obtain ⟨hx, hxs⟩ := hx
    cases x with
    | blk b => exact absurd hx nofun
    | _ => simp [splitTargets, ih hxs]

/-- The slots of well-formed targets split into those targets. -/
theorem splitTargets_targets {ts : List Target} (ht : ts.all Target.ok = true) :
    splitTargets (ts.map Target.opnds).flatten = ([], ts) := by
  induction ts with
  | nil => rfl
  | cons t ts ih =>
    simp only [List.all_cons, Target.ok, Bool.and_eq_true] at ht
    obtain ⟨⟨_, hargs⟩, hts⟩ := ht
    simp [splitTargets, Target.opnds, splitTargets_append hargs, ih hts]

/-- The slots before the targets, and the targets, are what the decoder splits off. -/
theorem targetsAfter_targets {pre : List Opnd} {ts : List Target} (hp : pre.all Opnd.isArg = true) (ht : ts.all Target.ok = true) :
    targetsAfter pre.length (pre ++ (ts.map Target.opnds).flatten) = some (pre, ts) := by
  simp [targetsAfter, splitTargets_append hp, splitTargets_targets ht]

theorem Opnd.isArg_of_slotOk {t : Ty} {o : Opnd} (h : slotOk t o = true) : o.isArg = true := by
  cases o with
  | blk b => exact absurd h nofun
  | spec c => exact (Bool.and_eq_true_iff.mp h).2
  | _ => rfl

/-! ### SUB fields read back (each description)

The fields are stated at width 6, as `Raw.sub` has it; `simp` keeps the widths inside an append as they stand only without
`Nat.reduceAdd`, so a proof that reads a SUB of three or more parts switches it off. -/

section
variable (p q s : Bool) (n2 : BitVec 2) (k : BitVec 3) (n4 : BitVec 4) (ko : AtomKind) (rd : RedOp) (ck : CollKind) (co : CollOp)

@[simp] theorem extractLsb'_sub_two : (0#4 ++ n2 : BitVec 6).extractLsb' 0 2 = n2 := BitVec.extractLsb'_append_eq_right
@[simp] theorem extractLsb'_sub_three : (0#3 ++ k : BitVec 6).extractLsb' 0 3 = k := BitVec.extractLsb'_append_eq_right
@[simp] theorem extractLsb'_sub_four : (0#2 ++ n4 : BitVec 6).extractLsb' 0 4 = n4 := BitVec.extractLsb'_append_eq_right
@[simp] theorem sub_one_getElem_zero : getElem (coll := BitVec 6) (0#5 ++ BitVec.ofBool p) 0 (by decide) = p := by cases p <;> rfl
@[simp] theorem sub_two_getElem_zero :
    getElem (coll := BitVec 6) (0#4 ++ (BitVec.ofBool q ++ BitVec.ofBool p)) 0 (by decide) = p := by
  cases q <;> cases p <;> rfl
@[simp] theorem sub_two_getElem_one :
    getElem (coll := BitVec 6) (0#4 ++ (BitVec.ofBool q ++ BitVec.ofBool p)) 1 (by decide) = q := by
  cases q <;> cases p <;> rfl
@[simp] theorem sub_three_getElem_zero :
    getElem (coll := BitVec 6) (0#3 ++ (BitVec.ofBool s ++ (BitVec.ofBool q ++ BitVec.ofBool p))) 0 (by decide) = p := by
  cases s <;> cases q <;> cases p <;> rfl
@[simp] theorem sub_three_getElem_one :
    getElem (coll := BitVec 6) (0#3 ++ (BitVec.ofBool s ++ (BitVec.ofBool q ++ BitVec.ofBool p))) 1 (by decide) = q := by
  cases s <;> cases q <;> cases p <;> rfl
@[simp] theorem sub_three_getElem_two :
    getElem (coll := BitVec 6) (0#3 ++ (BitVec.ofBool s ++ (BitVec.ofBool q ++ BitVec.ofBool p))) 2 (by decide) = s := by
  cases s <;> cases q <;> cases p <;> rfl
@[simp] theorem extractLsb'_sub_kind_high : (ko.code ++ n4 : BitVec 6).extractLsb' 4 2 = ko.code := BitVec.extractLsb'_append_eq_left
@[simp] theorem extractLsb'_sub_kind_low : (ko.code ++ n4 : BitVec 6).extractLsb' 0 4 = n4 := BitVec.extractLsb'_append_eq_right
@[simp] theorem extractLsb'_sub_coll_high : (co.code ++ ck.code : BitVec 6).extractLsb' 3 3 = co.code := BitVec.extractLsb'_append_eq_left
@[simp] theorem extractLsb'_sub_coll_low : (co.code ++ ck.code : BitVec 6).extractLsb' 0 3 = ck.code := BitVec.extractLsb'_append_eq_right
@[simp] theorem extractLsb'_sub_scan : BitVec.extractLsb' (n := 6) 0 4 (0#1 ++ (BitVec.ofBool p ++ rd.code)) = rd.code := by
  cases p <;> cases rd <;> rfl
@[simp] theorem sub_scan_getElem_four : getElem (coll := BitVec 6) (0#1 ++ (BitVec.ofBool p ++ rd.code)) 4 (by decide) = p := by
  cases p <;> cases rd <;> rfl
end

/-! ### Fields of a raw form typed by a descriptor -/

section
variable (op : BitVec 8) (t : TyD) (md : BitVec 6) (h : BitVec 2) (sub : BitVec 6) (xs : List Opnd)

@[simp] theorem rawD_op : (rawD op t md h sub xs).op = op := rfl
@[simp] theorem rawD_md : (rawD op t md h sub xs).md = md := rfl
@[simp] theorem rawD_hi : (rawD op t md h sub xs).hi = h := rfl
@[simp] theorem rawD_sub : (rawD op t md h sub xs).sub = sub := rfl
@[simp] theorem rawD_slots : (rawD op t md h sub xs).slots = xs := rfl
@[simp] theorem rawD_ty : (rawD op t md h sub xs).ty = t.tyField := rfl
@[simp] theorem rawD_descr : (rawD op t md h sub xs).descr = t.word := rfl
end

theorem TyD.tyField_ne_zero (t : TyD) : t.tyField ≠ 0#4 := by
  cases t with
  | ty t => exact Ty.code_ne_zero t
  | arr e l => exact (by decide : (15#4) ≠ 0#4)
  | s8 => exact (by decide : (15#4) ≠ 0#4)

/-! ### MOD of a reduction (R93) -/

section
variable {op : RedOp} {sg : Bool} {rm : RM} {dn : Bool} {t : Ty}

/-- The reading of a well-formed reduction is what the decoder takes from MOD. -/
theorem redMod_sg (h : redOk op sg rm dn t = true) : (!decide (op = .fadd) && (redMod op sg rm)[0]) = sg := by
  cases op <;> simp_all [redOk, redMod]

/-- The rounding of a well-formed reduction is what the decoder takes from MOD. -/
theorem redMod_rm (h : redOk op sg rm dn t = true) :
    (if op = .fadd then RM.ofCode ((redMod op sg rm).extractLsb' 0 2) else .rne) = rm := by
  cases op <;> simp_all [redOk, redMod]
end

/-! ### The fields of a raw form stand for the instruction it was made of (R28 to R42) -/

/-- What the decoder reads in the raw form of the instruction is the instruction. -/
def Instr.ParsesBack (i : Instr) : Prop := ∀ r, i.wf = true → i.raw? = some r → r.parse = some i

theorem Instr.parsesBack_br (h t) : (Instr.br h t).ParsesBack := by
  intro r hwf hraw
  cases hraw
  have ht : t.ok = true := hwf
  have hs : targetsAfter 0 t.opnds = some ([], [t]) := by
    simpa using targetsAfter_targets (pre := []) (ts := [t]) rfl (by simp [ht])
  simp [Raw.parse, parseControl, raw, hs]

theorem Instr.parsesBack_cbr (h c t f) : (Instr.cbr h c t f).ParsesBack := by
  intro r hwf hraw
  cases hraw
  have hok : (slotOk .b1 c && t.ok && f.ok) = true := hwf
  simp only [Bool.and_eq_true] at hok
  obtain ⟨⟨hc, ht⟩, hf⟩ := hok
  have hs : targetsAfter 1 (c :: (t.opnds ++ f.opnds)) = some ([c], [t, f]) := by
    simpa using targetsAfter_targets (pre := [c]) (ts := [t, f]) (by simp [Opnd.isArg_of_slotOk hc]) (by simp [ht, hf])
  simp [Raw.parse, parseControl, raw, hs]

theorem Instr.parsesBack_switch (h i d cs) : (Instr.switch h i d cs).ParsesBack := by
  intro r hwf hraw
  cases hraw
  have hok : (slotOk .i32 i && d.ok && cs.all Target.ok && decide (1 ≤ cs.length) && decide (cs.length ≤ 256)) = true := hwf
  simp only [Bool.and_eq_true] at hok
  obtain ⟨⟨⟨⟨hi, hd⟩, hcs⟩, _⟩, _⟩ := hok
  have hs : targetsAfter 1 (i :: (d.opnds ++ (cs.map Target.opnds).flatten)) = some ([i], d :: cs) := by
    simpa using targetsAfter_targets (pre := [i]) (ts := d :: cs) (by simp [Opnd.isArg_of_slotOk hi]) (by simp [hd, hcs])
  simp [Raw.parse, parseControl, raw, hs]

theorem Instr.parsesBack_call (h t c args) : (Instr.call h t c args).ParsesBack := by
  intro r hwf hraw
  cases t with
  | none =>
    cases hraw
    simp [Raw.parse, parseControl, raw]
  | some t =>
    cases hraw
    have hok : (t.ok && calleeOk c && args.all Opnd.isArg) = true := hwf
    simp only [Bool.and_eq_true] at hok
    obtain ⟨⟨ht, _⟩, _⟩ := hok
    simp [Raw.parse, parseControl, rawD_tyD ht, TyD.tyField_ne_zero]

theorem Instr.parsesBack_copyV (h t a) : (Instr.copyV h t a).ParsesBack := by
  intro r hwf hraw
  cases hraw
  have ht := TyD.ok_of_copyOk (Bool.and_eq_true_iff.mp hwf).1
  simp [Raw.parse, parseControl, rawD_tyD ht]

theorem Instr.parsesBack_copyVRet (h t k) : (Instr.copyVRet h t k).ParsesBack := by
  intro r hwf hraw
  cases hraw
  have ht : t.ok = true := (Bool.and_eq_true_iff.mp hwf).1
  simp [Raw.parse, parseControl, rawD_tyD ht]

theorem Instr.parsesBack_sel (h t c a b) : (Instr.sel h t c a b).ParsesBack := by
  intro r hwf hraw
  cases hraw
  have hok : (t.copyOk && slotOk .b1 c && slotOkD t a && slotOkD t b) = true := hwf
  simp only [Bool.and_eq_true] at hok
  obtain ⟨⟨⟨ht, _⟩, _⟩, _⟩ := hok
  simp [Raw.parse, parseInt, rawD_tyD (TyD.ok_of_copyOk ht)]

theorem Instr.parsesBack_redg (h op sg rm dn t v) : (Instr.redg h op sg rm dn t v).ParsesBack := by
  intro r hwf hraw
  cases hraw
  have hred : redOk op sg rm dn t = true := (Bool.and_eq_true_iff.mp hwf).1
  simp [Raw.parse, parseLane, raw, redMod_sg hred, redMod_rm hred, -Nat.reduceAdd]

theorem Instr.parsesBack_scang (h x op sg rm dn t v) : (Instr.scang h x op sg rm dn t v).ParsesBack := by
  intro r hwf hraw
  cases hraw
  have hred : redOk op sg rm dn t = true := (Bool.and_eq_true_iff.mp hwf).1
  simp [Raw.parse, parseLane, raw, redMod_sg hred, redMod_rm hred, -Nat.reduceAdd]

theorem Instr.parsesBack_aset (h e l a i v) : (Instr.aset h e l a i v).ParsesBack := by
  intro r hwf hraw
  cases hraw
  have hok : (e.isElem && a.isVal && slotOk .i32 i && slotOk e v) = true := (Bool.and_eq_true_iff.mp hwf).1
  simp only [Bool.and_eq_true] at hok
  obtain ⟨⟨⟨he, _⟩, _⟩, _⟩ := hok
  have harr : TyD.ofHalf (TyD.arr e l).half = _ := TyD.ofHalf_half he nofun
  simp [Raw.parse, parseLane, TyD.word, harr]

theorem Instr.parsesBack_afill (h e l v) : (Instr.afill h e l v).ParsesBack := by
  intro r hwf hraw
  cases hraw
  have he : e.isElem = true := (Bool.and_eq_true_iff.mp hwf).1
  have harr : TyD.ofHalf (TyD.arr e l).half = _ := TyD.ofHalf_half he nofun
  simp [Raw.parse, parseLane, TyD.word, harr]

theorem Instr.parsesBack_cvt (h k t s rm dn a) : (Instr.cvt h k t s rm dn a).ParsesBack := by
  intro r hwf hraw
  cases hraw
  cases t with
  | ty t => simp [Raw.parse, parseFloat, Raw.tyD, CTy.toTyD, TyD.word, TyD.tyField]
  | s8 => simp [Raw.parse, parseFloat, Raw.tyD, CTy.toTyD, TyD.word, TyD.ofHalf_half (t := .s8) rfl nofun]

theorem Instr.parsesBack_unpack (h e n a) : (Instr.unpack h e n a).ParsesBack := by
  intro r hwf hraw
  cases hraw
  cases e with
  | ty t => simp [Raw.parse, parseFloat, rawD_tyD (t := .ty t) rfl, CTy.toTyD]
  | s8 => simp [Raw.parse, parseFloat, rawD_tyD (t := .s8) rfl, CTy.toTyD]

theorem Instr.parsesBack_ldw (h e l ds m) : (Instr.ldw h e l ds m).ParsesBack := by
  intro r hwf hraw
  cases hraw
  have he : e.isElem = true := (Bool.and_eq_true_iff.mp hwf).1
  simp [Raw.parse, parseMemory, MemOp.opnds, rawD_tyD (t := .arr e l) he]

theorem Instr.parsesBack_stw (h e l ds m x) : (Instr.stw h e l ds m x).ParsesBack := by
  intro r hwf hraw
  cases hraw
  have hok : (e.isElem && m.ok && x.isVal) = true := hwf
  simp only [Bool.and_eq_true] at hok
  obtain ⟨⟨he, _⟩, _⟩ := hok
  simp [Raw.parse, parseMemory, MemOp.opnds, rawD_tyD (t := .arr e l) he]

theorem Instr.parsesBack_copy (h sc mask dirty tag d s len dd ks) : (Instr.copy h sc mask dirty tag d s len dd ks).ParsesBack := by
  intro r hwf hraw
  cases hraw
  cases dd with
  | none => simp [Raw.parse, parseEngines, raw, MemOp.opnds, -Nat.reduceAdd, -BitVec.ofBool_false]
  | some dd => simp [Raw.parse, parseEngines, raw, MemOp.opnds, -Nat.reduceAdd, -BitVec.ofBool_true]

theorem Instr.parsesBack_hop (h m key t) : (Instr.hop h m key t).ParsesBack := by
  intro r hwf hraw
  cases hraw
  have hok : t.ok = true := (Bool.and_eq_true_iff.mp hwf).1
  have hts : splitTargets t.opnds = ([], [t]) := by simpa using splitTargets_targets (ts := [t]) (by simp [hok])
  cases key with
  | none => simp [Raw.parse, parseSystem, raw, optSlot, hts]
  | some k =>
    have hk : k.isArg = true := by
      cases m with
      | key => exact Opnd.isArg_of_slotOk (Bool.and_eq_true_iff.mp hwf).2
      | _ => exact absurd (Bool.and_eq_true_iff.mp hwf).2 nofun
    have hs : splitTargets (k :: t.opnds) = ([k], [t]) := by
      simpa [hts] using splitTargets_append (xs := [k]) (by simp [hk]) t.opnds
    simp [Raw.parse, parseSystem, raw, optSlot, hs]

/-- Only the instructions with block targets, descriptors or reductions need to be well formed for this; each has its lemma above. -/
theorem Instr.parsesBack (i : Instr) : i.ParsesBack := by
  intro r hwf hraw
  cases i with
  | nop | exit | ret | trap =>
    cases hraw
    simp [Raw.parse, parseControl, raw]
  | add | sub | mul | mulhi | mad | div | rem | neg | abs | min | max | and | or | xor | not | shl | shr | rotl
  | clz | popc | brev | bfx | bfi | cmp | ext | trunc | addsat | subsat =>
    cases hraw
    simp [Raw.parse, parseInt, raw]
  | lea | shfl | bcast | vote | ballot | aget =>
    cases hraw
    simp [Raw.parse, parseLane, raw]
  | fadd | fsub | fmul | fma | fdiv | fneg | fabs | fmin | fmax | fcmp | fclass | fcopysign | frnd | fscale | pack | rsdenc | rsddec =>
    cases hraw
    simp [Raw.parse, parseFloat, raw]
  | exp2 | log2 | rcp | sqrt | rsqrt | sinpi | cospi | tanh | sigmoid | erf =>
    cases hraw
    simp [Raw.parse, parseSfu, raw]
  | mexp | mrelu | msig | mtanh | mgelu | mmake | mscale =>
    cases hraw
    simp [Raw.parse, parseMoment, raw]
  | madd h cv cl a b c | msub h cv cl a b c | mmul h cv cl a b c | mfma h cv cl a b d c | mcol h cv cl a c =>
    cases hraw
    cases c <;> simp [Raw.parse, parseMoment, raw, optSlot]
  | mma | accacq | accrel | accwr | acczero | ldfrag | ldscale =>
    cases hraw
    simp [Raw.parse, parseMatrix, raw, MemOp.opnds, -Nat.reduceAdd]
  | accrd h ty c t j k | rsdraw h c t j k =>
    cases hraw
    cases k <;> simp [Raw.parse, parseMatrix, raw, optSlot]
  | ld | st | atom | cas | fence | bar | barar | barwt | ldacq | strel | prefetch =>
    cases hraw
    simp [Raw.parse, parseMemory, raw, MemOp.opnds]
  | mkref | unref | objinit | objinitRetire | publ | refeq | refadr | ldref | stref | objst =>
    cases hraw
    simp [Raw.parse, parseRefs, raw, MemOp.opnds, -Nat.reduceAdd]
  | gather | scatter | coll | post | tjoin | kwait | ktest =>
    cases hraw
    simp [Raw.parse, parseEngines, raw, MemOp.opnds, -Nat.reduceAdd]
  | sigdec | sigwait | sigset | sigrd | enq | nsleep | twait | rdclk | rdtime | yield =>
    cases hraw
    simp [Raw.parse, parseSignals, raw, MemOp.opnds]
  | trvmapRep | trvmapVer | ctrrd | ctrctl | brkpt | assert | rdflag | clrflag | rdfev =>
    cases hraw
    simp [Raw.parse, parseSystem, raw]
  | br h t => exact Instr.parsesBack_br h t r hwf hraw
  | cbr h c t f => exact Instr.parsesBack_cbr h c t f r hwf hraw
  | switch h i d cs => exact Instr.parsesBack_switch h i d cs r hwf hraw
  | call h t c args => exact Instr.parsesBack_call h t c args r hwf hraw
  | copyV h t a => exact Instr.parsesBack_copyV h t a r hwf hraw
  | copyVRet h t k => exact Instr.parsesBack_copyVRet h t k r hwf hraw
  | sel h t c a b => exact Instr.parsesBack_sel h t c a b r hwf hraw
  | redg h op sg rm dn t v => exact Instr.parsesBack_redg h op sg rm dn t v r hwf hraw
  | scang h x op sg rm dn t v => exact Instr.parsesBack_scang h x op sg rm dn t v r hwf hraw
  | aset h e l a i v => exact Instr.parsesBack_aset h e l a i v r hwf hraw
  | afill h e l v => exact Instr.parsesBack_afill h e l v r hwf hraw
  | cvt h k t s rm dn a => exact Instr.parsesBack_cvt h k t s rm dn a r hwf hraw
  | unpack h e n a => exact Instr.parsesBack_unpack h e n a r hwf hraw
  | ldw h e l ds m => exact Instr.parsesBack_ldw h e l ds m r hwf hraw
  | stw h e l ds m x => exact Instr.parsesBack_stw h e l ds m x r hwf hraw
  | copy h sc mask dirty tag d s len dd ks => exact Instr.parsesBack_copy h sc mask dirty tag d s len dd ks r hwf hraw
  | hop h m key t => exact Instr.parsesBack_hop h m key t r hwf hraw
  | _ => cases hraw

/-! ### The words of an instruction -/

/-- An assigned opcode, no trapping hint, and a type word exactly where TY is 15 (R28, R38, R40). -/
structure Raw.Framed (r : Raw) : Prop where
  assigned : opAssigned r.op.toNat = true
  hint : r.hr = 0
  typed : r.Typed

@[simp] theorem raw_typed {op ty md dn h sub xs} : (raw op ty md dn h sub xs).Typed ↔ ty ≠ 15#4 := by
  simp [Raw.Typed, raw]

/-- A raw form with the TY field and the type word of one descriptor. -/
theorem Raw.typed_of_tyD {r : Raw} {t : TyD} (hty : r.ty = t.tyField) (hd : r.descr = t.word) : r.Typed := by
  cases t with
  | ty t => simp [Raw.Typed, hty, hd, TyD.tyField, TyD.word]
  | arr e l => simp [Raw.Typed, hty, hd, TyD.tyField, TyD.word]
  | s8 => simp [Raw.Typed, hty, hd, TyD.tyField, TyD.word]

@[simp] theorem rawD_typed {op t md h sub xs} : (rawD op t md h sub xs).Typed := Raw.typed_of_tyD rfl rfl

theorem Instr.framed_raw? {i : Instr} {r : Raw} (hraw : i.raw? = some r) : r.Framed := by
  cases i with
  | call h t c args =>
    cases t with
    | none =>
      cases hraw
      exact ⟨rfl, rfl, by simp⟩
    | some t =>
      cases hraw
      exact ⟨rfl, rfl, rawD_typed⟩
  | cvt h k t s rm dn a =>
    cases hraw
    exact ⟨rfl, rfl, Raw.typed_of_tyD (t := t.toTyD) rfl rfl⟩
  | _ => cases hraw <;> exact ⟨rfl, rfl, by simp⟩

/-- The decoder reads an instruction in the words of its raw form, whatever follows them. -/
theorem decode_words {i : Instr} {r : Raw} (hwf : i.wf = true) (hraw : i.raw? = some r) (hn : r.slots.length ≤ 1023)
    (more : List Word) : decode (r.words ++ more) = .ok i r.words.length := by
  have hread := readRaw_words (Instr.framed_raw? hraw).typed hn more
  have hparse := Instr.parsesBack i r hwf hraw
  obtain ⟨hop, hhr, _⟩ := Instr.framed_raw? hraw
  obtain ⟨ws, hws⟩ : ∃ ws, r.words ++ more = r.base :: ws := ⟨_, rfl⟩
  rw [hws] at hread ⊢
  simp [decode, Raw.base_op, Raw.base_hr, hop, hhr, hread, hparse, hwf, hraw]

theorem Instr.encode_of_raw? {i : Instr} {r : Raw} (hraw : i.raw? = some r) : encode i = r.words := by
  simp [encode, hraw]

/-- Settles O56: the raw form is read back from its words field by field, and the instruction from the raw form, constructor by
constructor. -/
theorem portableRoundTrip : Obligations.PortableRoundTrip := by
  unfold Obligations.PortableRoundTrip
  intro i r more hwf hraw hn
  rw [Instr.encode_of_raw? hraw]
  exact decode_words hwf hraw hn more

end Sys2Proof

namespace Sys2Proof.Machine
open Sys2Proof

/-! ### What issues (R42, R147, R160) -/

section
variable {s : State} {g sd n : Nat} {sl : Slot}

theorem step_of_issue_portable (h : s.issue = .portable g sd n) : step s = issuePortable g sd s := by simp only [step, h]

theorem step_of_issue_slot (h : s.issue = .slot g sl) : step s = issueSlot g sl s := by simp only [step, h]

/-- A group with a stale gated operation goes back to its MARKs instead of issuing (R215). -/
theorem issuePortable_of_stale (hf : (fetch s g sd).isSome = true) (hst : groupStale s g = true) :
    issuePortable g sd s = .next { rollback g s with issue := .none } := by
  obtain ⟨⟨p, d⟩, hpd⟩ := Option.isSome_iff_exists.mp hf
  simp [issuePortable, hpd, hst]

/-- A side that neither steps nor stops at a hook runs the instruction that its words decode to. -/
theorem issuePortable_of_ok {p : Site} {i : Instr} {k : Nat} (hf : fetch s g sd = some (p, .ok i k)) (hst : groupStale s g = false)
    (hstep : p.grp.stepping ≠ some true) (hhook : hookStop s p.ctx g sd p.pc = false) :
    issuePortable g sd s = onNext (fun t => afterIssue g p.pc (spills p t)) (exec i (issued s p i k)) := by
  simp [issuePortable, hf, hst, hstep, hhook]

/-- Words that are no instruction give their cause (R42). -/
theorem issuePortable_of_bad {p : Site} {c : Cause} (hf : fetch s g sd = some (p, .bad c)) (hst : groupStale s g = false)
    (hstep : p.grp.stepping ≠ some true) (hhook : hookStop s p.ctx g sd p.pc = false) :
    issuePortable g sd s = .next { faultAt g sd c p.pc none 0 s with issue := .none } := by
  simp [issuePortable, hf, hst, hstep, hhook]

theorem issueSlot_of_stale (hst : groupStale s g = true) : issueSlot g sl s = .next { rollback g s with issue := .none } := by
  simp [issueSlot, hst]

theorem issueSlot_of_decode {w : Nat} {i : Instr} (hst : groupStale s g = false) (hw : slotWord s g sl = some w)
    (hi : decodeSlot (slotKind sl) w = some i) : issueSlot g sl s = onNext (fun t => nativeHook g (afterIssue g 0 t)) (exec i s) := by
  simp [issueSlot, hst, hw, hi]

end

/-- Settles O58: the step issues what has been dispatched, and each clause is one way of issuing. -/
theorem stepRunsDecodedInstruction : Obligations.StepRunsDecodedInstruction := by
  unfold Obligations.StepRunsDecodedInstruction
  intro s g
  refine ⟨?_, ?_, ?_, ?_⟩
  · intro sd n p d hs hf hst hstep hhook
    refine ⟨?_, ?_⟩
    · rintro i k rfl
      exact (step_of_issue_portable hs).trans (issuePortable_of_ok hf hst hstep hhook)
    · rintro c rfl
      exact (step_of_issue_portable hs).trans (issuePortable_of_bad hf hst hstep hhook)
  · intro sd n hs hf hst
    exact (step_of_issue_portable hs).trans (issuePortable_of_stale hf hst)
  · intro sl hs hst
    exact (step_of_issue_slot hs).trans (issueSlot_of_stale hst)
  · intro sl w i hs hst hw hi
    exact (step_of_issue_slot hs).trans (issueSlot_of_decode hst hw hi)

/-! ### Words written out from the encoding tables -/

/-- Settles O55: the decoder is run on each word. -/
theorem decodeExamples : Obligations.DecodeExamples := by
  unfold Obligations.DecodeExamples
  refine ⟨rfl, rfl, rfl, rfl, rfl, rfl, rfl, rfl, rfl, rfl, rfl⟩

/-! ### Translation (R43, R153 to R156, R416) -/

/-- The machine with room in the cache for the outcome of translation x, where there is room (R154). -/
def outcomeRoom (s : State) (x : Nat) (t : Xlat) : Option State :=
  makeRoom t.die ({ t with code := (outcome s t).2 } : Xlat).size (entryWaiters s x ++ callWaiters s x) s.xlats.length s

section
variable {s u : State} {g c x p : Nat} {G : Group} {t : Xlat}

/-- A ready group of portable code without a translation enters it (R156). -/
theorem exec_translationMiss_of_ready (hG : s.groups[g]? = some G) (hres : G.resident = true) (hnat : G.native = none)
    (htr : G.translation = none) (hst : G.st = .ready) : exec (.translationMiss g) s = .next (enterTranslation g s) := by
  change execTranslationMiss g s = _
  simp [execTranslationMiss, hG, hres, hnat, htr, hst]

/-- The outcome of a translation in progress is written where the cache has room, and brings what waits for it (R154, R416). -/
theorem exec_translationComplete_of_room (ht : s.xlats[x]? = some t) (hlive : t.live = true) (hst : t.st = .inProgress)
    (hroom : outcomeRoom s x t = some u) : exec (.translationComplete x) s = .next (finishTranslation x
      { u with xlats := modifyAt (fun t' => { t' with st := (outcome s t).1, code := (outcome s t).2, used := u.time }) u.xlats x }) := by
  have hgo : (!t.live || t.st != .inProgress) = false := by simp [hlive, hst]
  rw [outcomeRoom] at hroom
  change execTranslationComplete x s = _
  simp only [execTranslationComplete, ht, hgo, hroom, Bool.false_eq_true, if_false]

/-- Without room in the cache, the outcome is not written (R154). -/
theorem exec_translationComplete_of_no_room (ht : s.xlats[x]? = some t) (hlive : t.live = true) (hst : t.st = .inProgress)
    (hroom : outcomeRoom s x t = none) : exec (.translationComplete x) s = .next s := by
  have hgo : (!t.live || t.st != .inProgress) = false := by simp [hlive, hst]
  rw [outcomeRoom] at hroom
  change execTranslationComplete x s = _
  simp only [execTranslationComplete, ht, hgo, hroom, Bool.false_eq_true, if_false]

/-- A page that some resident group runs is filled (R153). -/
theorem exec_instructionStoreFill_of_running (h : runningXlat s c x ≠ []) : exec (.instructionStoreFill c x p) s =
    .next ((fillPages s x p).foldl (fun v p => fillPage c x p (runningXlat s c x) v) s) := by
  change execInstructionStoreFill c x p s = _
  simp [execInstructionStoreFill, h]

/-- All pages of a travel segment's translation are filled together (R153). -/
theorem fillPages_of_segment (ht : s.xlats[x]? = some t) (hseg : t.seg ≠ 0) : fillPages s x p = List.range (xlatPages s x) := by
  simp [fillPages, ht, hseg]

theorem fillPages_of_whole (ht : s.xlats[x]? = some t) (hseg : t.seg = 0) (hp : p < xlatPages s x) : fillPages s x p = [p] := by
  simp [fillPages, ht, hseg, hp]

/-- A page that the store does not hold takes the room that is made for it, and is counted (R153, R155). -/
theorem fillPage_of_room {gs : List Nat} (hnew : (nth Core.reset s.cores c).pages.contains (x, p) = false)
    (hroom : (storeRoom s c (nth Core.reset s.cores c).pages).length < storePages) :
    fillPage c x p gs s = countGroups (gs.take 1) 0x45
      { s with cores := modifyAt (fun C => { C with pages := storeRoom s c (nth Core.reset s.cores c).pages ++ [(x, p)] }) s.cores c } := by
  rw [fillPage, if_neg]
  rintro (hold | hfull)
  · rw [hnew] at hold
    exact Bool.false_ne_true hold
  · exact Nat.not_le.mpr hroom hfull
end

/-! ### Code objects (R248, R349, R369 to R371, R379) -/

/-- A load request of a live or halted context for an aligned file that its memory maps (R349, R369). -/
structure LoadRequest (s : State) (r : List Byte) : Prop where
  pending : s.mbox.codeRun = some r
  load : blockNat r 0 2 = 0x0011
  running : slotIs s (blockNat r 2 1) .live = true ∨ slotIs s (blockNat r 2 1) .halted = true
  aligned : blockNat r 8 8 % 64 = 0
  nonempty : blockNat r 0x10 8 ≠ 0
  mapped : rangeMapped s (blockNat r 2 1) (blockNat r 8 8) (blockNat r 0x10 8) false = true

/-- The file that a load request names. -/
def requestFile (s : State) (r : List Byte) : List Byte := ctxBytes (reclaim s) (blockNat r 2 1) (blockNat r 8 8) (blockNat r 0x10 8)

/-- The live object with the digest of the file that a load request names. -/
def requestObj? (s : State) (r : List Byte) : Option Nat :=
  (reclaim s).objs.findIdx? (fun o => o.live && o.digest == digestOf (requestFile s r))

section
variable {s v : State} {r : List Byte} {i : Nat} {O : Obj}

/-- A legal load request is not refused for its words. -/
theorem LoadRequest.not_refused (h : LoadRequest s r) : ¬(blockNat r 0 2 ≠ 0x0011 ∨
    (!(slotIs s (blockNat r 2 1) .live || slotIs s (blockNat r 2 1) .halted)) = true ∨ blockNat r 8 8 % 64 ≠ 0 ∨ blockNat r 0x10 8 = 0 ∨
    (!rangeMapped s (blockNat r 2 1) (blockNat r 8 8) (blockNat r 0x10 8) false) = true) := by
  have hrun : (slotIs s (blockNat r 2 1) .live || slotIs s (blockNat r 2 1) .halted) = true := Bool.or_eq_true_iff.mpr h.running
  simp [h.load, hrun, h.aligned, h.nonempty, h.mapped]

/-- A file that the module holds is loaded again from its object (R371). -/
theorem exec_codeObjectLoad_of_held (h : LoadRequest s r) (hi : requestObj? s r = some i) (hO : (reclaim s).objs[i]? = some O) :
    exec .codeObjectLoad s =
      .next (answerCode (blockNat r 2 1) 1 0 (some O.laddr) (blockNat r 0x20 8) (loadInto (blockNat r 2 1) i (reclaim s))) := by
  have h12 : blockNat r 0 2 ≠ 0x0012 := by simp [h.load]
  rw [requestObj?, requestFile] at hi
  change execCodeObjectLoad s = _
  simp only [execCodeObjectLoad, h.pending, if_neg h12, if_neg h.not_refused, hi, hO]

/-- A new file that cannot be installed is answered with the cause (R369, R370). -/
theorem exec_codeObjectLoad_of_error (h : LoadRequest s r) (hi : requestObj? s r = none) {c : Nat}
    (hf : installObj (requestFile s r) (digestOf (requestFile s r)) (reclaim s) = .error c) :
    exec .codeObjectLoad s = .next (answerCode (blockNat r 2 1) 3 c none (blockNat r 0x20 8) (reclaim s)) := by
  have h12 : blockNat r 0 2 ≠ 0x0012 := by simp [h.load]
  rw [requestObj?, requestFile] at hi
  rw [requestFile] at hf
  change execCodeObjectLoad s = _
  simp only [execCodeObjectLoad, h.pending, if_neg h12, if_neg h.not_refused, hi, hf]

/-- A new file is installed and loaded (R369, R370). -/
theorem exec_codeObjectLoad_of_installed (h : LoadRequest s r) (hi : requestObj? s r = none)
    (hf : installObj (requestFile s r) (digestOf (requestFile s r)) (reclaim s) = .ok (i, v)) (hO : v.objs[i]? = some O) :
    exec .codeObjectLoad s = .next (answerCode (blockNat r 2 1) 1 0 (some O.laddr) (blockNat r 0x20 8) (loadInto (blockNat r 2 1) i v)) := by
  have h12 : blockNat r 0 2 ≠ 0x0012 := by simp [h.load]
  rw [requestObj?, requestFile] at hi
  rw [requestFile] at hf
  change execCodeObjectLoad s = _
  simp only [execCodeObjectLoad, h.pending, if_neg h12, if_neg h.not_refused, hi, hf, hO]

/-- One load of the object at the request's address is taken back (R371). -/
theorem exec_codeObjectUnload_of_loaded (hr : s.mbox.codeRun = some r) (hreq : blockNat r 0 2 = 0x0012)
    (hi : s.objs.findIdx? (fun o => o.live && decide (o.laddr = blockNat r 8 8) && o.ctxs.contains (blockNat r 2 1)) = some i) :
    exec .codeObjectUnload s = .next (answerCode (blockNat r 2 1) 1 0 none (blockNat r 0x20 8)
      (reclaim { s with objs := modifyAt (fun o => { o with ctxs := o.ctxs.erase (blockNat r 2 1) }) s.objs i })) := by
  change execCodeObjectUnload s = _
  simp only [execCodeObjectUnload, hr, hreq, ne_eq, not_true_eq_false, if_false, hi]
end

/-! ### Migration of a context (R404 to R409) -/

/-- The context that halts for its migration. -/
def migrating (x : Nat) (s : State) : State :=
  { haltContext x s with ctxs := modifyAt (fun C => { C with migrating := true }) (haltContext x s).ctxs x }

/-- A legal request whose context's transfers have ended moves the context where it fits, and is answered (R404, R408). -/
theorem exec_migrate_of_ok {s v : State} {r : List Byte} (hr : s.mbox.migRun = some r) (hreq : refusedMig r s = false)
    (hidle : enginesBusy (blockNat r 2 1) (migrating (blockNat r 2 1) s) = false)
    (hgo : migrateTo (blockNat r 2 1) (blockNat r 4 2) (BitVec.ofNat 4 (blockNat r 3 1)) (migrating (blockNat r 2 1) s) = .ok v) :
    exec .migrate s = .next (releaseContext (blockNat r 2 1)
      (answerMig r 1 0 { v with ctxs := modifyAt (fun C => { C with migrating := false }) v.ctxs (blockNat r 2 1) })) := by
  rw [migrating] at hidle hgo
  change execMigrate s = _
  simp only [execMigrate, hr, hreq, hidle, hgo, Bool.false_eq_true, if_false]

/-- Settles O45: event by event, from what each does under its conditions. -/
theorem translationAndCodeEvents : Obligations.TranslationAndCodeEvents := by
  unfold Obligations.TranslationAndCodeEvents
  intro s
  refine ⟨?miss, ?complete, ?fill, ?code, ?migrate⟩
  case miss =>
    intro g G hG hres hnat htr hst
    exact exec_translationMiss_of_ready hG hres hnat htr hst
  case complete =>
    intro x t ht hlive hst
    exact ⟨fun u hroom => exec_translationComplete_of_room ht hlive hst hroom,
      fun hroom => exec_translationComplete_of_no_room ht hlive hst hroom⟩
  case fill =>
    intro c x p hrun
    refine ⟨fun t ht hseg => ?_, fun t ht hseg hp hnew hroom => ?_⟩
    · rw [exec_instructionStoreFill_of_running hrun, fillPages_of_segment ht hseg]
    · rw [exec_instructionStoreFill_of_running hrun, fillPages_of_whole ht hseg hp, List.foldl_cons, List.foldl_nil,
        fillPage_of_room hnew hroom]
  case code =>
    intro r hr
    refine ⟨fun hload hslot halign hlen hmap => ?_, fun hreq i hi => exec_codeObjectUnload_of_loaded hr hreq hi⟩
    have h : LoadRequest s r := ⟨hr, hload, hslot, halign, hlen, hmap⟩
    exact ⟨fun i O hi hO => exec_codeObjectLoad_of_held h hi hO,
      fun hi => ⟨fun c hc => exec_codeObjectLoad_of_error h hi hc, fun i v O hv hO => exec_codeObjectLoad_of_installed h hi hv hO⟩⟩
  case migrate =>
    intro r hr hreq _ _ hidle v hgo
    exact exec_migrate_of_ok hr hreq hidle hgo

end Sys2Proof.Machine

namespace Sys2Proof.Machine
open Sys2Proof

/-! ### Moment instructions (R103 to R110) -/

/-- Instruction i at p gives the lane results rs and their flags where no active lane's variance is invalid, and takes the
negative-variance fault of the lowest such lane where one is (R106). -/
def GivesMoments (i : Instr) (s : State) (p : Site) (rs : List MoRes) : Prop :=
  (badLane p.mask rs = none → GivesFlags i s p (rs.map (fun r => (r.bits, r.flags)))) ∧
  ∀ l, badLane p.mask rs = some l → exec i s = .next (takeFault p .negativeVariance (some l) 0 s)

/-- The operands are readable at p, one by one, with the lanes xss. -/
inductive OperandsRead (s : State) (p : Site) : List (Ty × Opnd) → List (List DWord) → Prop
  | nil : OperandsRead s p [] []
  | cons {t : Ty} {o : Opnd} {xs : List DWord} {ops : List (Ty × Opnd)} {xss : List (List DWord)} (hread : opndBits s p t o = some xs)
      (hrest : OperandsRead s p ops xss) : OperandsRead s p ((t, o) :: ops) (xs :: xss)

/-- A fold that adds the lanes of a readable operand to those of the rest collects the lanes of operands that are all readable. -/
theorem OperandsRead.foldr_eq {s : State} {p : Site} {ops : List (Ty × Opnd)} {xss : List (List DWord)} (h : OperandsRead s p ops xss)
    {step : Ty × Opnd → Option (List (List DWord)) → Option (List (List DWord))}
    (hstep : ∀ t o xs rest, opndBits s p t o = some xs → step (t, o) (some rest) = some (xs :: rest)) :
    ops.foldr step (some []) = some xss := by
  induction h with
  | nil => rfl
  | cons hread _ ih => rw [List.foldr_cons, ih, hstep _ _ _ _ hread]

section
variable {s : State} {p : Site} {i : Instr} {cl : Bool} {a b d : Opnd} {c : Option Opnd} {xs ys zs : List DWord} {kss : List (List DWord)}

/-- A moment rule whose operands are readable acts on their lanes: the fault of the lowest invalid lane, else results and flags. -/
theorem moment_of_read (hp : site? s = some p) {ops : List (Ty × Opnd)} {xss : List (List DWord)} (hops : OperandsRead s p ops xss)
    (f : List DWord → MoRes) :
    (badLane p.mask (zipLanes f xss) = none → moment s ops f = .next (defineBits p ((zipLanes f xss).map MoRes.bits)
      (raiseFlags p (laneEvents p.mask ((zipLanes f xss).map MoRes.flags)) s))) ∧
    ∀ l, badLane p.mask (zipLanes f xss) = some l → moment s ops f = .next (takeFault p .negativeVariance (some l) 0 s) := by
  rw [moment, portable_eq hp, hops.foldr_eq fun t o xs rest hread => by simp only [hread]]
  refine ⟨fun hgood => ?_, fun l hbad => ?_⟩
  · simp only [hgood]
  · simp only [hbad]

/-- An instruction that is a moment rule of readable operands gives the rule's lane results. -/
theorem givesMoments_of_read (hp : site? s = some p) {ops : List (Ty × Opnd)} {f : List DWord → MoRes}
    (hi : exec i s = moment s ops f) {xss : List (List DWord)} (hops : OperandsRead s p ops xss) {rs : List MoRes}
    (hrs : zipLanes f xss = rs) : GivesMoments i s p rs := by
  subst hrs
  obtain ⟨hresults, hfault⟩ := moment_of_read hp hops f
  refine ⟨fun hgood => ⟨_, hi.trans (hresults hgood), ?_⟩, fun l hbad => hi.trans (hfault l hbad)⟩
  have hdefined := defined_raise_define hp (laneEvents p.mask ((zipLanes f xss).map MoRes.flags))
    (((zipLanes f xss).map MoRes.bits).map .bits)
  simp only [List.map_map] at hdefined ⊢
  exact hdefined

/-- A rule of one moment operand. -/
theorem givesMoments_mo1 (hp : site? s = some p) {rule : Mo → Step × Step} (hi : exec i s = mo1 s cl a rule)
    (ha : opndBits s p .mo a = some xs) :
    GivesMoments i s p ((List.range 128).map (fun i => moFrame cl [nth 0 xs i] (fun ps => rule (nth ⟨0, 0⟩ ps 0)))) :=
  givesMoments_of_read hp hi (.cons ha .nil) rfl

/-- A rule of two moment operands and the covariance, whose lanes kss are those of one slot or of none. -/
theorem givesMoments_mo2 (hp : site? s = some p) {rule : Mo → Mo → DWord → Step × Step}
    (hi : exec i s = mo2 s cl a b c rule) (ha : opndBits s p .mo a = some xs)
    (hb : opndBits s p .mo b = some ys) (hc : OperandsRead s p (covSlot c) kss) :
    GivesMoments i s p ((List.range 128).map (fun i => moFrame cl [nth 0 xs i, nth 0 ys i] (fun ps =>
      rule (nth ⟨0, 0⟩ ps 0) (nth ⟨0, 0⟩ ps 1) (moF32 (nth 0 (kss.map (nth 0 · i)) 0))))) :=
  givesMoments_of_read hp hi (.cons ha (.cons hb hc)) rfl

/-- MFMA: its rule of three moment operands and the covariance (R107). -/
theorem givesMoments_mfma (hp : site? s = some p) {cv : Cov} (hi : exec i s = execMfma cv cl a b d c s)
    (ha : opndBits s p .mo a = some xs) (hb : opndBits s p .mo b = some ys) (hd : opndBits s p .mo d = some zs)
    (hc : OperandsRead s p (covSlot c) kss) :
    GivesMoments i s p ((List.range 128).map (fun i => moFrame cl [nth 0 xs i, nth 0 ys i, nth 0 zs i] (fun ps =>
      moFma cv (nth ⟨0, 0⟩ ps 0) (nth ⟨0, 0⟩ ps 1) (nth ⟨0, 0⟩ ps 2) (moF32 (nth 0 (kss.map (nth 0 · i)) 0))))) :=
  givesMoments_of_read hp hi (.cons ha (.cons hb (.cons hd hc))) rfl

/-- MCOL: a column of a moment, with the factor of a bound in the covariance's slot (R110). -/
theorem givesMoments_mcol (hp : site? s = some p) {sel : ColSel} (hi : exec i s = execMcol sel cl a c s)
    (ha : opndBits s p .mo a = some xs) (hc : OperandsRead s p (covSlot c) kss) :
    GivesMoments i s p ((List.range 128).map (fun i => moCol sel cl (nth 0 xs i) (moF32 (nth 0 (kss.map (nth 0 · i)) 0)))) :=
  givesMoments_of_read hp hi (.cons ha hc) rfl

end

/-- Settles O6: instruction by instruction, each a moment rule of the operands that its clause takes as readable. -/
theorem momentResults : Obligations.MomentResults := by
  unfold Obligations.MomentResults
  intro s p hp h a
  refine ⟨fun xs ha cl => ⟨?mexp, ?mrelu, ?msig, ?mtanh, ?mgelu, ?column, ?bound, ?mscale, ?pairs⟩, ?mmake⟩
  case mexp => exact givesMoments_mo1 hp rfl ha
  case mrelu => exact givesMoments_mo1 hp rfl ha
  case msig => exact givesMoments_mo1 (rule := fun q => moSig (kst q.m) (kst q.v)) hp rfl ha
  case mtanh => exact givesMoments_mo1 hp rfl ha
  case mgelu => exact givesMoments_mo1 hp rfl ha
  case column => exact fun sel => givesMoments_mcol (kss := []) hp rfl ha .nil
  case bound => exact fun sel k ks hk => givesMoments_mcol (kss := [ks]) hp rfl ha (.cons hk .nil)
  case mscale => exact fun u t us ts hu ht => givesMoments_of_read hp rfl (.cons ha (.cons hu (.cons ht .nil))) rfl
  case mmake => exact fun v xs vs ha hv cl => givesMoments_of_read hp rfl (.cons ha (.cons hv .nil)) rfl
  case pairs =>
    intro b ys hb cv
    refine ⟨?madd, ?msub, ?mmul, fun c cs hc => ⟨?maddCov, ?msubCov, ?mmulCov⟩, fun d zs hd => ⟨?mfma, fun c cs hc => ?mfmaCov⟩⟩
    case madd => exact givesMoments_mo2 (kss := []) hp rfl ha hb .nil
    case msub => exact givesMoments_mo2 (kss := []) hp rfl ha hb .nil
    case mmul => exact givesMoments_mo2 (kss := []) hp rfl ha hb .nil
    case maddCov => exact givesMoments_mo2 (kss := [cs]) hp rfl ha hb (.cons hc .nil)
    case msubCov => exact givesMoments_mo2 (kss := [cs]) hp rfl ha hb (.cons hc .nil)
    case mmulCov => exact givesMoments_mo2 (kss := [cs]) hp rfl ha hb (.cons hc .nil)
    case mfma => exact givesMoments_mfma (kss := []) hp rfl ha hb hd .nil
    case mfmaCov => exact givesMoments_mfma (kss := [cs]) hp rfl ha hb hd (.cons hc .nil)

end Sys2Proof.Machine

namespace Sys2Proof.Machine
open Sys2Proof

/-! ### Accumulator tiles: acquire and release (R115, R117, R119, R415) -/

section
variable {s : State} {p : Site} {h n : BitVec 2} {c : Opnd} {A : AccSet}

/-- A converged group without a set is granted one at once where nobody waits and enough tiles are free (R115, R117). -/
theorem exec_accacq_of_free (hp : site? s = some p) (hconv : p.converged = true) (hnone : p.grp.acc = none)
    (hfits : tilesOf p.lau (2 ^ n.toNat) ≤ coreTiles) (hqueue : (nth Core.reset s.cores p.grp.core).accQueue = [])
    (hfree : usedTiles s p.grp.core + tilesOf p.lau (2 ^ n.toNat) ≤ coreTiles)
    (hunit : (nth Core.reset s.cores p.grp.core).matrixReset = false) :
    exec (.accacq h n) s = .next (define p (List.replicate 128 .acc)
      (s.updGroup p.g (fun G => { G with acc := some (freshSet p.ctx (tilesOf p.lau (2 ^ n.toNat))) }))) := by
  change execAccacq n s = _
  rw [execAccacq, portable_eq hp]
  simp [hconv, hnone, Nat.not_lt.mpr hfits, hqueue, hfree, hunit]

/-- The re-execution of an `accacq` whose wait has been served defines its value (R117). -/
theorem exec_accacq_of_served (hp : site? s = some p) (hconv : p.converged = true) (hset : p.grp.acc.isSome = true)
    (hserved : p.side.pend = .done) : exec (.accacq h n) s = .next (define p (List.replicate 128 .acc) (setPend p .none s)) := by
  change execAccacq n s = _
  rw [execAccacq, portable_eq hp]
  simp [hconv, hset, hserved]

/-- A second set is the region-limit fault (R115). -/
theorem exec_accacq_of_held (hp : site? s = some p) (hconv : p.converged = true) (hset : p.grp.acc.isSome = true)
    (hnew : p.side.pend = .none) : exec (.accacq h n) s = .next (takeFault p .regionLimit none 0 s) := by
  change execAccacq n s = _
  rw [execAccacq, portable_eq hp]
  simp [hconv, hset, hnew]

/-- A diverged group can acquire no set (R120). -/
theorem exec_accacq_of_diverged (hp : site? s = some p) (hdiv : p.converged = false) :
    exec (.accacq h n) s = .next (takeFault p .divergentMatrix none 0 s) := by
  change execAccacq n s = _
  rw [execAccacq, portable_eq hp]
  simp [hdiv]

/-- A release of idle tiles takes effect when its region commits (R119, R415). -/
theorem exec_accrel_of_idle (hp : site? s = some p) (hconv : p.converged = true) (hacc : opndAcc p c = true) (hset : p.grp.acc = some A)
    (hhere : A.anySaved = false) (hidle : A.busy = false) : exec (.accrel h c) s = .next (advance p (gate p [.accrel] s)) := by
  change execAccrel c s = _
  rw [execAccrel, portable_eq hp]
  simp [hconv, hacc, hset, hhere, hidle]

/-- A release waits for the steps in flight (R119). -/
theorem exec_accrel_of_busy (hp : site? s = some p) (hconv : p.converged = true) (hacc : opndAcc p c = true) (hset : p.grp.acc = some A)
    (hhere : A.anySaved = false) (hbusy : A.busy = true) : exec (.accrel h c) s = .next (waitFor p (.tile none) s) := by
  change execAccrel c s = _
  rw [execAccrel, portable_eq hp]
  simp [hconv, hacc, hset, hhere, hbusy]

/-- A release waits for Saved tiles to be restored (R117). -/
theorem exec_accrel_of_saved (hp : site? s = some p) (hconv : p.converged = true) (hacc : opndAcc p c = true) (hset : p.grp.acc = some A)
    (hsaved : A.anySaved = true) : exec (.accrel h c) s = .next (requestRestore p.g p.sd s) := by
  change execAccrel c s = _
  rw [execAccrel, portable_eq hp]
  simp [hconv, hacc, hset, hsaved]

/-- A diverged group can release no set (R120). -/
theorem exec_accrel_of_diverged (hp : site? s = some p) (hdiv : p.converged = false) :
    exec (.accrel h c) s = .next (takeFault p .divergentMatrix none 0 s) := by
  change execAccrel c s = _
  rw [execAccrel, portable_eq hp]
  simp [hdiv]

end

/-- Settles O26: a grant, its re-execution or a second set for `accacq`; idle, busy or Saved tiles for `accrel`. -/
theorem accumulatorAcquireAndRelease : Obligations.AccumulatorAcquireAndRelease := by
  unfold Obligations.AccumulatorAcquireAndRelease
  intro s p hp hconv h n c
  refine ⟨?free, ?served, ?second, ?release⟩
  case free => exact fun hnone hfits hqueue hfree hunit => exec_accacq_of_free hp hconv hnone hfits hqueue hfree hunit
  case served => exact fun hset hserved => exec_accacq_of_served hp hconv hset hserved
  case second => exact fun hset hnew => exec_accacq_of_held hp hconv hset hnew
  case release =>
    exact fun A hset hacc => ⟨fun hhere hidle => exec_accrel_of_idle hp hconv hacc hset hhere hidle,
      fun hhere hbusy => exec_accrel_of_busy hp hconv hacc hset hhere hbusy, fun hsaved => exec_accrel_of_saved hp hconv hacc hset hsaved⟩

/-! ### The tile of a matrix instruction (R117, R118, R120, R131, R173) -/

/-- Slot c of the instruction at p holds the set of its group, with no tile of it Saved: as the instruction's context reads it, A. -/
structure HoldsSet (p : Site) (c : Opnd) (A : AccSet) : Prop where
  operand : opndAcc p c = true
  set : p.grp.acc.map (AccSet.seenBy p.ctx) = some A
  restored : A.anySaved = false

section
variable {s : State} {p : Site} {c : Opnd} {t : Nat} {A : AccSet} {T : Tile} {k : AccSet → Tile → State → State}

/-- An access to a tile that the set holds and that is not Lost acts on it. -/
theorem HoldsSet.withTile_of_tile (hset : HoldsSet p c A) (htile : A.tiles[p.tileIx t]? = some T) (hkept : T.st ≠ .lost) :
    withTile p c t k s = k A T s := by
  simp [withTile, hset.operand, hset.set, hset.restored, htile, hkept]

/-- An access to a tile that the set does not hold is without token (R173). -/
theorem HoldsSet.withTile_of_none (hset : HoldsSet p c A) (htile : A.tiles[p.tileIx t]? = none) :
    withTile p c t k s = takeFault p .accessWithoutToken none (BitVec.ofNat 64 t) s := by
  simp only [withTile, hset.operand, hset.set, hset.restored, htile, Bool.not_true, Bool.false_eq_true, if_false]

/-- An access to a Lost tile is without token (R118). -/
theorem HoldsSet.withTile_of_lost (hset : HoldsSet p c A) (htile : A.tiles[p.tileIx t]? = some T) (hlost : T.st = .lost) :
    withTile p c t k s = takeFault p .accessWithoutToken none (BitVec.ofNat 64 t) s := by
  simp only [withTile, hset.operand, hset.set, hset.restored, htile, hlost, Bool.not_true, Bool.false_eq_true, if_false, if_true]

/-- A write of a diverged group is refused before all other checks (R120). -/
theorem withWrite_of_diverged (hdiv : p.converged = false) : withWrite p c t k s = takeFault p .divergentMatrix none 0 s := by
  simp [withWrite, hdiv]

/-- A converged group's write makes the checks of its tile. -/
theorem withWrite_of_converged (hconv : p.converged = true) :
    withWrite p c t k s = withTile p c t (fun A T s => if tokenFree s p.grp then k A T s else stallForToken p s) s := by
  simp [withWrite, hconv]

/-- With a token free, a converged group's write acts on the tile. -/
theorem HoldsSet.withWrite_of_tile (hset : HoldsSet p c A) (hconv : p.converged = true) (hfree : tokenFree s p.grp = true)
    (htile : A.tiles[p.tileIx t]? = some T) (hkept : T.st ≠ .lost) : withWrite p c t k s = k A T s := by
  rw [withWrite_of_converged hconv, hset.withTile_of_tile htile hkept, if_pos hfree]

end

end Sys2Proof.Machine

namespace Sys2Proof.Machine
open Sys2Proof

/-! ### Matrix instructions that write a tile (R120, R124 to R130) -/

/-- A tile whose elements and pending residues are zero, its scales kept (R130). -/
def Tile.zeroed (T : Tile) : Tile := { T with el := [], res := [], ctr := 0, bad := [] }

/-- The tile after `accwr` of the lanes vs into slice j: folded first (R129, R130). -/
def Tile.sliced (m : Mask) (j : Nat) (vs : List DWord) (T : Tile) : Tile := Tile.written m j { T with el := setSlice m T.el j vs }

section
variable {s : State} {p : Site} {h : BitVec 2} {c t j v e : Opnd} {A : AccSet} {T : Tile}

/-- Tile t of a set that the converged group at p holds can be written: it is not Lost, and a token is free. -/
structure WritesTile (s : State) (p : Site) (c : Opnd) (t : Nat) (A : AccSet) (T : Tile) : Prop extends HoldsSet p c A where
  converged : p.converged = true
  free : tokenFree s p.grp = true
  tile : A.tiles[p.tileIx t]? = some T
  kept : T.st ≠ .lost

theorem WritesTile.withWrite_eq {t : Nat} {k : AccSet → Tile → State → State} (hw : WritesTile s p c t A T) :
    withWrite p c t k s = k A T s :=
  hw.toHoldsSet.withWrite_of_tile hw.converged hw.free hw.tile hw.kept

/-- An array step, of the moment form only in moment mode and with good variance bytes (R125 to R128). -/
theorem exec_mma_of_tile (hp : site? s = some p) (hw : WritesTile s p c (immNat t) A T) {fm : MmaForm} {fs : List Opnd}
    {ws : List (List DWord)} (hfs : opndAll s p .i32 fs = some ws)
    (hmo : fm = .mo → p.moment = true ∧ badVarLane (nth [] (fragWords p.mask ws) 1) = none) :
    exec (.mma h fm c t fs) s = .next (writeTiles p (immNat t)
      (mmaTiles fm T ((A.tiles[p.tileIx (immNat t) + 1]?).getD T) (fragWords p.mask ws)).1
      (raiseGroup p (mmaTiles fm T ((A.tiles[p.tileIx (immNat t) + 1]?).getD T) (fragWords p.mask ws)).2 s)) := by
  have hmode : ¬(fm = .mo ∧ (!p.moment) = true) := fun ⟨h, hn⟩ => by simp [(hmo h).1] at hn
  have hgood : (if fm = .mo then badVarLane (nth [] (fragWords p.mask ws) 1) else none) = none := by
    split
    · exact (hmo ‹_›).2
    · rfl
  change execMma fm c t fs s = _
  rw [execMma, portable_eq hp]
  simp only [hfs, if_neg hmode, hw.withWrite_eq, hgood]

/-- `acczero` zeroes the tile, in moment mode the pair (R130). -/
theorem exec_acczero_of_tile (hp : site? s = some p) (hw : WritesTile s p c (immNat t) A T) :
    exec (.acczero h c t) s = .next (writeTiles p (immNat t)
      (if p.moment then [T.zeroed, ((A.tiles[p.tileIx (immNat t) + 1]?).getD T).zeroed] else [T.zeroed])
      (raiseGroup p (foldTile T).2 s)) := by
  change execAcczero c t s = _
  rw [execAcczero, portable_eq hp, hw.withWrite_eq]
  rfl

/-- `accwr` of a type other than mo replaces the slice (R130). -/
theorem exec_accwr_of_tile (hp : site? s = some p) (hw : WritesTile s p c (immNat t) A T) {ty : AccTy} {vs : List DWord}
    (hv : opndBits s p (AccTy.ty ty) v = some vs) (hty : ty ≠ .mo) :
    exec (.accwr h ty c t j v) s = .next (writeTiles p (immNat t) [(foldTile T).1.sliced p.mask (immNat j) vs]
      (raiseGroup p (foldTile T).2 s)) := by
  change execAccwr ty c t j v s = _
  rw [execAccwr, portable_eq hp]
  simp only [hv, hty, false_and, if_false, hw.withWrite_eq]
  rfl

/-- `accwr` of moments with good variances replaces the slice of means and that of variances (R130). -/
theorem exec_accwr_mo_of_tile (hp : site? s = some p) (hw : WritesTile s p c (immNat t) A T) {vs : List DWord} {V : Tile}
    (hv : opndBits s p .mo v = some vs) (hmode : p.moment = true) (hV : A.tiles[p.tileIx (immNat t) + 1]? = some V)
    (hgood : (lanesOf p.mask).all (fun i => !badVar (Mo.ofBits (nth 0 vs i)).v) = true) :
    exec (.accwr h .mo c t j v) s = .next (writeTiles p (immNat t)
      [(foldTile T).1.sliced p.mask (immNat j) vs, V.sliced p.mask (immNat j) (vs.map (fun (x : DWord) => posZero (x >>> 32)))]
      (raiseGroup p (foldTile T).2 s)) := by
  have hnone : (lanesOf p.mask).find? (fun i => badVar (Mo.ofBits (nth 0 vs i)).v) = none := by
    rw [List.find?_eq_none]
    intro i hi
    simpa using List.all_eq_true.mp hgood i hi
  change execAccwr .mo c t j v s = _
  rw [execAccwr, portable_eq hp]
  simp only [AccTy.ty, hv, hmode, Bool.not_true, Bool.false_eq_true, and_false, if_false, if_true, hw.withWrite_eq, hnone, hV,
    Option.getD_some]
  rfl

/-- `ldscale` loads the scales (R124). -/
theorem exec_ldscale_of_tile (hp : site? s = some p) (hw : WritesTile s p c (immNat t) A T) {es : List DWord}
    (he : opndBits s p .i32 e = some es) :
    exec (.ldscale h c t e) s = .next (writeTiles p (immNat t) [T.scaled p.mask es] (raiseFlags p (scaleEvents p.mask es) s)) := by
  change execLdscale c t e s = _
  rw [execLdscale, portable_eq hp]
  simp only [he, hw.withWrite_eq]

end

/-! ### Matrix instructions that read a tile (R129 to R132, R56) -/

/-- A read of tile T by the token in slot k, if it has one, may go on: in relaxed mode with no write in flight, else by the tile's
latest token, which is not Pending (R131, R132). -/
def ReadPermitted (p : Site) (k : Option Opnd) (T : Tile) : Prop :=
  (p.relaxed = true ∧ T.flight = [] ∧ (k = none ∨ ∃ o e, k = some o ∧ opndTok p o = some e)) ∨
  (p.relaxed = false ∧ ∃ o e, k = some o ∧ opndTok p o = some e ∧ T.lastTok = some e ∧ tokState p.grp e ≠ some .pending)

/-- The residue words of slice j, with their flags; a poisoned one is the uncorrectable-data fault of its lane (R56, R400). -/
def readResidues (p : Site) (j : Nat) (T : Tile) (s : State) : State :=
  match T.badLane p.mask j with
  | some i => takeFault p .uncorrectableData (some i) 0 s
  | none => defineBits p ((readRsd (sliceWords T.res j)).map (·.1))
      (raiseFlags p (laneEvents p.mask ((readRsd (sliceWords T.res j)).map (·.2))) s)

/-- Tile i of the group's set, which held T, is folded, and the fold's flags are raised for the group (R129, R64). -/
def foldAt (p : Site) (i : Nat) (T : Tile) (s : State) : State :=
  raiseGroup p (foldTile T).2 (s.updGroup p.g (fun G => { G with acc := G.acc.map (fun A =>
    { A with tiles := modifyAt (fun _ => (foldTile T).1) A.tiles i }) }))

theorem readResidues_of_clean {p : Site} {j : Nat} {T : Tile} {s : State} (hclean : T.badLane p.mask j = none) :
    readResidues p j T s = defineBits p ((readRsd (sliceWords T.res j)).map (·.1))
      (raiseFlags p (laneEvents p.mask ((readRsd (sliceWords T.res j)).map (·.2))) s) := by
  simp only [readResidues, hclean]

section
variable {s : State} {p : Site} {h : BitVec 2} {c t j : Opnd} {k : Option Opnd} {A : AccSet} {T : Tile}
  {f : AccSet → Tile → State → State}

/-- A permitted read acts on its tile. -/
theorem HoldsSet.withRead_of_permitted (hset : HoldsSet p c A) (htile : A.tiles[p.tileIx (immNat t)]? = some T) (hkept : T.st ≠ .lost)
    (hread : ReadPermitted p k T) : withRead p c t k f s = f A T s := by
  rw [withRead, hset.withTile_of_tile htile hkept]
  obtain ⟨hrel, hrest, rfl | ⟨o, e, rfl, htok⟩⟩ | ⟨hstrict, o, e, rfl, htok, hlast, hdone⟩ := hread
  · simp [hrel, hrest]
  · simp [hrel, hrest, htok]
  · simp [hstrict, htok, hlast, hdone]

/-- Outside relaxed mode, a read by a token that is not the tile's latest is without token (R131). -/
theorem HoldsSet.withRead_of_stale (hset : HoldsSet p c A) (htile : A.tiles[p.tileIx (immNat t)]? = some T) (hkept : T.st ≠ .lost)
    (hstrict : p.relaxed = false) {o : Opnd} {e : Nat} (htok : opndTok p o = some e) (hstale : T.lastTok ≠ some e) :
    withRead p c t (some o) f s = takeFault p .accessWithoutToken none (BitVec.ofNat 64 (immNat t)) s := by
  rw [withRead, hset.withTile_of_tile htile hkept]
  simp [hstrict, htok, hstale]

/-- `rsdraw` is a read of its tile (R130). -/
theorem exec_rsdraw_eq (hp : site? s = some p) :
    exec (.rsdraw h c t j k) s = .next (withRead p c t k (fun _ => readResidues p (immNat j)) s) := by
  change execRsdraw c t j k s = _
  rw [execRsdraw, portable_eq hp]
  rfl

/-- A permitted `rsdraw` of a clean slice gives its residue words (R56). -/
theorem HoldsSet.exec_rsdraw_of_permitted (hset : HoldsSet p c A) (hp : site? s = some p) (htile : A.tiles[p.tileIx (immNat t)]? = some T)
    (hkept : T.st ≠ .lost) (hread : ReadPermitted p k T) (hclean : T.badLane p.mask (immNat j) = none) :
    exec (.rsdraw h c t j k) s = .next (defineBits p ((readRsd (sliceWords T.res (immNat j))).map (·.1))
      (raiseFlags p (laneEvents p.mask ((readRsd (sliceWords T.res (immNat j))).map (·.2))) s)) := by
  rw [exec_rsdraw_eq hp, hset.withRead_of_permitted htile hkept hread, readResidues_of_clean hclean]

/-- A permitted `accrd` of a type other than mo folds its tile and gives the words of a clean slice (R129, R130). -/
theorem HoldsSet.exec_accrd_of_permitted (hset : HoldsSet p c A) (hp : site? s = some p) (htile : A.tiles[p.tileIx (immNat t)]? = some T)
    (hkept : T.st ≠ .lost) (hread : ReadPermitted p k T) (hclean : T.badLane p.mask (immNat j) = none) {ty : AccTy} (hty : ty ≠ .mo) :
    exec (.accrd h ty c t j k) s =
      .next (defineBits p (sliceWords (foldTile T).1.el (immNat j)) (foldAt p (p.tileIx (immNat t)) T s)) := by
  change execAccrd ty c t j k s = _
  rw [execAccrd, portable_eq hp]
  simp only [hty, false_and, if_false, hset.withRead_of_permitted htile hkept hread, hclean]
  cases ty with
  | mo => exact absurd rfl hty
  | i32 => rfl
  | f32 => rfl

/-- A permitted `accrd` of moments reads the means from the even tile and the variances from the odd one (R130). -/
theorem HoldsSet.exec_accrd_mo_of_permitted (hset : HoldsSet p c A) (hp : site? s = some p)
    (htile : A.tiles[p.tileIx (immNat t)]? = some T) (hkept : T.st ≠ .lost) (hread : ReadPermitted p k T) {V : Tile} (hmode : p.moment = true)
    (hV : A.tiles[p.tileIx (immNat t) + 1]? = some V) (hclean : Tile.badLane p.mask (immNat j) { T with bad := T.bad ++ V.bad } = none) :
    exec (.accrd h .mo c t j k) s = .next (defineBits p (List.zipWith (fun (m v : DWord) => m ||| (v <<< 32))
      (sliceWords (foldTile T).1.el (immNat j)) (sliceWords V.el (immNat j))) (foldAt p (p.tileIx (immNat t)) T s)) := by
  change execAccrd .mo c t j k s = _
  rw [execAccrd, portable_eq hp]
  simp only [hmode, Bool.not_true, Bool.false_eq_true, and_false, if_false, if_true, hset.withRead_of_permitted htile hkept hread, hV,
    Option.getD_some, hclean]
  rfl

end

/-- Settles O27: instruction by instruction, each acts on the tile that its checks let through. -/
theorem matrixWritesAndReads : Obligations.MatrixWritesAndReads := by
  unfold Obligations.MatrixWritesAndReads
  refine ⟨?writes, ?reads⟩
  case writes =>
    intro s p hp hconv hfree h c t A T hacc hset hhere htile hkept
    have hw : WritesTile s p c (immNat t) A T :=
      { operand := hacc, set := hset, restored := hhere, converged := hconv, free := hfree, tile := htile, kept := hkept }
    exact ⟨fun fm fs ws hfs hmo => exec_mma_of_tile hp hw hfs hmo, exec_acczero_of_tile hp hw,
      fun ty j v vs hv hty => exec_accwr_of_tile hp hw hv hty,
      fun j v vs V hv hmode hV hgood => exec_accwr_mo_of_tile hp hw hv hmode hV hgood, fun e es he => exec_ldscale_of_tile hp hw he⟩
  case reads =>
    intro s p hp h c t j k A T hacc hset hhere htile hkept hread
    have hheld : HoldsSet p c A := ⟨hacc, hset, hhere⟩
    exact ⟨fun hclean => ⟨hheld.exec_rsdraw_of_permitted hp htile hkept hread hclean,
        fun ty hty => hheld.exec_accrd_of_permitted hp htile hkept hread hclean hty⟩,
      fun V hmode hV hclean => hheld.exec_accrd_mo_of_permitted hp htile hkept hread hmode hV hclean⟩

/-! ### What a tile write leaves (R118, R131) -/

/-- The group that an update changes. -/
theorem updGroup_groups {s : State} {g : Nat} {G : Group} (f : Group → Group) (hg : s.groups[g]? = some G) :
    (s.updGroup g f).groups[g]? = some (f G) := by
  simp [State.updGroup, modifyAt_getElem?, hg]

theorem modifyAt_getElem?_self {α : Type} {f : α → α} {l : List α} {i : Nat} (hi : i < l.length) :
    (modifyAt f l i)[i]? = some (f l[i]) := by
  simp only [modifyAt_getElem?, if_true, List.getElem?_eq_getElem hi, Option.map_some]

/-- A write of one tile replaces it in the set, and its token is Pending. -/
theorem putTiles_singleton_group {s : State} {p : Site} {A : AccSet} (i id : Nat) (T : Tile) (hg : s.groups[p.g]? = some p.grp)
    (hset : p.grp.acc = some A) :
    ∃ G, (putTiles p i id [T] s).groups[p.g]? = some G ∧ G.acc = some { A with tiles := modifyAt (fun _ => T.writing id) A.tiles i } ∧
      { e := id, st := .pending } ∈ G.toks := by
  refine ⟨_, updGroup_groups _ (updGroup_groups _ hg), ?set, ?token⟩
  case set => simp [hset]
  case token => simp

/-- A tile write changes its core's tiles and tokens, and no storage. -/
theorem sameStorage_putTiles (p : Site) (i id : Nat) (new : List Tile) (s : State) : SameStorage s (putTiles p i id new s) :=
  ⟨rfl, rfl, rfl, rfl, rfl, rfl⟩

/-- Settles O28: the write replaces its tile in the set, and its token is the last of the group's. -/
theorem matrixWriteTakesToken : Obligations.MatrixWriteTakesToken := by
  unfold Obligations.MatrixWriteTakesToken
  intro s p A i id T hg hset hi
  obtain ⟨G, hG, hacc, htok⟩ := putTiles_singleton_group i id T hg hset
  refine ⟨sameStorage_putTiles p i id [T] s, G, _, hG, hacc, fun k hk => ?_, ?_, htok⟩
  · simp [modifyAt_getElem?, hk]
  · exact modifyAt_getElem?_self hi

/-! ### The faults of matrix instructions (R118, R120, R131, R173) -/

section
variable {s : State} {p : Site} {h : BitVec 2} {c t : Opnd} {A : AccSet} {T : Tile}

theorem exec_acczero_of_diverged (hp : site? s = some p) (hdiv : p.converged = false) :
    exec (.acczero h c t) s = .next (takeFault p .divergentMatrix none 0 s) := by
  change execAcczero c t s = _
  rw [execAcczero, portable_eq hp, withWrite_of_diverged hdiv]

/-- What `acczero` of a converged group answers where its tile is refused, whatever would be done with the tile. -/
theorem exec_acczero_of_refused (hp : site? s = some p) (hconv : p.converged = true) {u : State}
    (hmiss : ∀ k, withTile p c (immNat t) k s = u) : exec (.acczero h c t) s = .next u := by
  change execAcczero c t s = _
  rw [execAcczero, portable_eq hp, withWrite_of_converged hconv, hmiss]

/-- The same of `rsdraw`, which a diverged group may execute. -/
theorem exec_rsdraw_of_refused (hp : site? s = some p) {u : State} (hmiss : ∀ k, withTile p c (immNat t) k s = u) (j : Opnd)
    (k : Option Opnd) : exec (.rsdraw h c t j k) s = .next u := by
  rw [exec_rsdraw_eq hp, withRead, hmiss]

end

/-- Settles O29: a diverged group, a tile that the set does not hold, a Lost tile, and a token that is not the tile's latest. -/
theorem matrixFaults : Obligations.MatrixFaults := by
  unfold Obligations.MatrixFaults
  intro s p hp h c t
  refine ⟨?diverged, ?tile⟩
  case diverged =>
    exact fun hdiv => ⟨exec_acczero_of_diverged hp hdiv, fun n => exec_accacq_of_diverged hp hdiv, exec_accrel_of_diverged hp hdiv⟩
  case tile =>
    intro A hacc hset hhere
    have hheld : HoldsSet p c A := ⟨hacc, hset, hhere⟩
    refine ⟨fun hnone => ?none, fun T htile => ⟨fun hlost => ?lost, fun j o e hkept hstrict htok hstale => ?stale⟩⟩
    case none =>
      exact ⟨exec_rsdraw_of_refused hp fun _ => hheld.withTile_of_none hnone,
        fun hconv => exec_acczero_of_refused hp hconv fun _ => hheld.withTile_of_none hnone⟩
    case lost =>
      exact ⟨exec_rsdraw_of_refused hp fun _ => hheld.withTile_of_lost htile hlost,
        fun hconv => exec_acczero_of_refused hp hconv fun _ => hheld.withTile_of_lost htile hlost⟩
    case stale => exact (exec_rsdraw_eq hp).trans (congrArg _ (hheld.withRead_of_stale htile hkept hstrict htok hstale))

end Sys2Proof.Machine

namespace Sys2Proof.Machine
open Sys2Proof

/-- A native operation's fault is taken at the portable address of its instruction (R184). -/
theorem NSite.fault_eq (p : NSite) (c : Cause) (lane : Option Nat) (aux : DWord) (s : State) :
    p.fault c lane aux s = faultAt p.g p.e.side c (p.nat.port p.e.pc) lane aux s := rfl

/-- The illegal-bundle trap names the bundle (R182). -/
theorem NSite.illegal_eq (p : NSite) (s : State) :
    p.illegal s = faultAt p.g p.e.side .illegalBundle (p.nat.port p.e.pc) none (BitVec.ofNat 64 p.e.pc) s := rfl

/-! ### Tiles of a native group (R115 to R119) -/

section
variable {s : State} {p : NSite} {A : AccSet}

/-- A converged native group without a set is granted one at once where nobody waits and enough tiles are free (R115, R117). -/
theorem exec_sacq_of_free {n : BitVec 2} (hp : nsite? s = some p) (hconv : p.converged = true) (hnone : p.grp.acc = none)
    (hfits : tilesOf p.lau (2 ^ n.toNat) ≤ coreTiles) (hqueue : (nth Core.reset s.cores p.grp.core).accQueue = [])
    (hfree : usedTiles (p.pop s) p.grp.core + tilesOf p.lau (2 ^ n.toNat) ≤ coreTiles)
    (hunit : (nth Core.reset s.cores p.grp.core).matrixReset = false) :
    exec (.sacq n) s = .next ((p.pop s).updGroup p.g
      (fun G => { G with acc := some (freshSet p.ctx (tilesOf p.lau (2 ^ n.toNat))) })) := by
  have hcores : (p.pop s).cores = s.cores := rfl
  change execSacq n s = _
  rw [execSacq, native_eq hp]
  simp [hconv, hnone, Nat.not_lt.mpr hfits, hcores, hqueue, hfree, hunit]

/-- A diverged native group can acquire no set (R120). -/
theorem exec_sacq_of_diverged {n : BitVec 2} (hp : nsite? s = some p) (hdiv : p.converged = false) :
    exec (.sacq n) s = .next (p.fault .divergentMatrix none 0 (p.pop s)) := by
  change execSacq n s = _
  rw [execSacq, native_eq hp]
  simp [hdiv]

/-- A release of idle tiles takes effect when its region commits (R119, R415). -/
theorem exec_srel_of_idle (hp : nsite? s = some p) (hconv : p.converged = true) (hset : p.grp.acc = some A) (hidle : A.busy = false) :
    exec .srel s = .next (p.gate [.accrel] (p.pop s)) := by
  change execSrel s = _
  rw [execSrel, native_eq hp]
  simp [hconv, hset, hidle]

/-- A release waits for the steps in flight (R119). -/
theorem exec_srel_of_busy (hp : nsite? s = some p) (hconv : p.converged = true) (hset : p.grp.acc = some A) (hbusy : A.busy = true) :
    exec .srel s = .next (p.wait (.tile none) (p.pop s)) := by
  change execSrel s = _
  rw [execSrel, native_eq hp]
  simp [hconv, hset, hbusy]

end

/-! ### The tile of a native operation (R118, R120, R173) -/

/-- The set of the native group at p has tile T at t, which is neither Lost nor Saved; as the group's context reads it, the set is A. -/
structure NHoldsTile (p : NSite) (t : Nat) (A : AccSet) (T : Tile) : Prop where
  set : p.grp.acc.map (AccSet.seenBy p.ctx) = some A
  tile : A.tiles[t]? = some T
  kept : T.st ≠ .lost
  restored : T.st ≠ .saved

section
variable {s : State} {p : NSite} {A : AccSet} {T : Tile}

theorem NHoldsTile.withTile_eq {t : Nat} {f : AccSet → Tile → State → State} (ht : NHoldsTile p t A T) : p.withTile t f s = f A T s := by
  simp [NSite.withTile, ht.set, ht.tile, ht.kept, ht.restored]

theorem NHoldsTile.withWrite_eq {t : Nat} {f : AccSet → Tile → State → State} (ht : NHoldsTile p t A T) (hconv : p.converged = true) :
    p.withWrite t f s = f A T s := by
  simp [NSite.withWrite, hconv, ht.withTile_eq]

/-- `tlatch` keeps the first words of a step and needs no converged group; its token completes at once (R173). -/
theorem exec_tlatch_of_tile (hp : nsite? s = some p) {i f : BitVec 3} {k : BitVec 4} (ht : NHoldsTile p i.toNat A T)
    (heven : ¬(f.toNat = (MmaForm.code .mo).toNat ∧ i.toNat % 2 = 1)) :
    exec (.tlatch i k f) s = .next ((p.pop s).updNative p.g (fun N => { N with
      latch := (i.toNat, f.toNat, (p.word 0).map (fun x => x.truncate 32), (p.word 1).map (fun x => x.truncate 32))
        :: N.latch.filter (fun l => l.1 != i.toNat),
      k := modifyAt (fun _ => none) N.k k.toNat })) := by
  change execTlatch i k f s = _
  rw [execTlatch, native_eq hp]
  simp only [if_neg heven, ht.withTile_eq]

/-- The moment form stands on the even tile of a pair (R173). -/
theorem exec_tlatch_of_odd (hp : nsite? s = some p) {i f : BitVec 3} {k : BitVec 4} (hform : f.toNat = (MmaForm.code .mo).toNat)
    (hodd : i.toNat % 2 = 1) : exec (.tlatch i k f) s = .next (p.illegal (p.pop s)) := by
  change execTlatch i k f s = _
  rw [execTlatch, native_eq hp]
  simp only [hform, hodd, and_self, if_true]

/-- `twr` puts the V0 buffer into a slice (R130). -/
theorem exec_twr_of_tile (hp : nsite? s = some p) {i : BitVec 3} {k : BitVec 4} {j : BitVec 5} (ht : NHoldsTile p i.toNat A T)
    (hconv : p.converged = true) (f : Bool) :
    exec (.twr i k f j) s = .next (p.putTiles i.toNat k.toNat [(foldTile T).1.sliced p.e.mask j.toNat (p.buf 0)]
      (p.raise [(0xFF, (foldTile T).2)] (p.pop s))) := by
  change execTwr i k j s = _
  rw [execTwr, native_eq hp, ht.withWrite_eq hconv]
  rfl

/-- `tzero` zeroes the tile, in moment mode the pair (R130). -/
theorem exec_tzero_of_tile (hp : nsite? s = some p) {i : BitVec 3} {k : BitVec 4} (ht : NHoldsTile p i.toNat A T)
    (hconv : p.converged = true) :
    exec (.tzero i k) s = .next (p.putTiles i.toNat k.toNat
      (if p.lau.amode = 1 then [T.zeroed, ((A.tiles[i.toNat + 1]?).getD T).zeroed] else [T.zeroed])
      (p.raise [(0xFF, (foldTile T).2)] (p.pop s))) := by
  change execTzero i k s = _
  rw [execTzero, native_eq hp, ht.withWrite_eq hconv]
  rfl

/-- `sscl` loads the scales of the lanes that act (R124). -/
theorem exec_sscl_of_tile (hp : nsite? s = some p) {i : BitVec 3} {g k : BitVec 4} {a : BitVec 9} (ht : NHoldsTile p i.toNat A T)
    (hconv : p.converged = true) (pa : Bool) :
    exec (.sscl g k i pa a) s = .next (p.putTiles i.toNat k.toNat [T.scaled (p.act g) (p.g_ a.toNat)]
      (p.raise (scaleEvents (p.act g) (p.g_ a.toNat)) (p.pop s))) := by
  change execSscl g k i a s = _
  rw [execSscl, native_eq hp]
  simp only [ht.withWrite_eq hconv]

/-- An array step on fragments that stand ready, of the moment form only on an even tile in moment mode with good variance bytes; its
latch is used up (R125 to R128, R173). -/
theorem exec_tstep_of_tile (hp : nsite? s = some p) {i f : BitVec 3} {k : BitVec 4} {fm : MmaForm} {ws : List (List DWord)}
    (ht : NHoldsTile p i.toNat A T) (hconv : p.converged = true) (hform : MmaForm.ofCode f.toNat = some fm)
    (hfrags : p.frags i.toNat fm = some ws) (hmo : fm = .mo → i.toNat % 2 = 0 ∧ p.lau.amode = 1 ∧ badVarLane (nth [] ws 1) = none) :
    exec (.tstep i k f) s = .next ((p.putTiles i.toNat k.toNat (mmaTiles fm T ((A.tiles[i.toNat + 1]?).getD T) ws).1
      (p.raise [(0xFF, (mmaTiles fm T ((A.tiles[i.toNat + 1]?).getD T) ws).2)] (p.pop s))).updNative p.g (fun N =>
        { N with latch := N.latch.filter (fun l => l.1 != i.toNat) })) := by
  have heven : ¬(fm = .mo ∧ i.toNat % 2 = 1) := fun ⟨h, hodd⟩ => by have := (hmo h).1; omega
  have hmode : ¬(fm = .mo ∧ p.lau.amode ≠ 1) := fun ⟨h, hn⟩ => hn (hmo h).2.1
  have hgood : (if fm = .mo then badVarLane (nth [] ws 1) else none) = none := by
    split
    · exact (hmo ‹_›).2.2
    · rfl
  change execTstep i k f s = _
  rw [execTstep, native_eq hp]
  simp only [hform, if_neg heven, if_neg hmode, hfrags, ht.withWrite_eq hconv, hgood]

end

/-! ### Reads of the V slot (R130 to R132) -/

/-- A `tread` of tile T at p may go on: where it waits for the tile, no write is in flight; else its token is the tile's latest (R131, R132). -/
def TreadPermitted (p : NSite) (v : VOp) (T : Tile) : Prop :=
  (T.flight = [] ∧ (v.b.getLsbD 4 = true ∨ p.lau.amode = 2)) ∨
  (v.b.getLsbD 4 = false ∧ p.lau.amode ≠ 2 ∧ T.lastTok = p.tok (v.b.toNat % 16))

/-- Tile i of the native group's set, which held T, is folded, and the fold's flags are raised for the group (R129, R64). -/
def NSite.foldAt (p : NSite) (i : Nat) (T : Tile) (s : State) : State :=
  p.raise [(0xFF, (foldTile T).2)] (s.updGroup p.g (fun G => { G with acc := G.acc.map (fun A =>
    { A with tiles := modifyAt (fun _ => (foldTile T).1) A.tiles i }) }))

section
variable {s : State} {p : NSite} {A : AccSet} {T : Tile} {v : VOp}

/-- A permitted `tread` of a clean slice writes its residue words, or its words after folding (R129, R130, R56). -/
theorem exec_tread_of_permitted (hp : nsite? s = some p) (ht : NHoldsTile p (v.a.toNat % 8) A T) (hread : TreadPermitted p v T)
    (hclean : T.badLane (p.act v.grd) (v.a.toNat / 8 % 32) = none) :
    exec (.tread v) s = .next (if v.a.getLsbD 8
      then p.putG v.d.toNat (p.lat 6 8) (p.act v.grd) ((readRsd (sliceWords T.res (v.a.toNat / 8 % 32))).map (·.1))
        (p.raise (laneEvents (p.act v.grd) ((readRsd (sliceWords T.res (v.a.toNat / 8 % 32))).map (·.2))) (p.pop s))
      else p.putG v.d.toNat (p.lat 6 8) (p.act v.grd) (sliceWords (foldTile T).1.el (v.a.toNat / 8 % 32))
        (p.foldAt (v.a.toNat % 8) T (p.pop s))) := by
  have hwait : ((v.b.getLsbD 4 || p.lau.amode == 2) && !T.flight.isEmpty) = false := by
    obtain ⟨hrest, -⟩ | ⟨hbit, hmode, -⟩ := hread
    · simp [hrest]
    · simp only [hbit, beq_eq_false_iff_ne.mpr hmode, Bool.or_self, Bool.false_and]
  have htok : (!(v.b.getLsbD 4 || p.lau.amode == 2) && T.lastTok != p.tok (v.b.toNat % 16)) = false := by
    obtain ⟨-, hbit | hmode⟩ | ⟨-, -, hlast⟩ := hread
    · simp only [hbit, Bool.true_or, Bool.not_true, Bool.false_and]
    · simp [hmode]
    · simp [hlast]
  change execTread v s = _
  rw [execTread, native_eq hp]
  simp only [ht.withTile_eq, hwait, htok, Bool.false_eq_true, if_false, hclean]
  rfl

/-- Of the residue word, the operation raises the lanes' flags and writes its register, and does nothing else. -/
theorem nraises_tread_of_permitted (hp : nsite? s = some p) (ht : NHoldsTile p (v.a.toNat % 8) A T) (hread : TreadPermitted p v T)
    (hclean : T.badLane (p.act v.grd) (v.a.toNat / 8 % 32) = none) (hres : v.a.getLsbD 8 = true) :
    NRaises (.tread v) s p (laneEvents (p.act v.grd) ((readRsd (sliceWords T.res (v.a.toNat / 8 % 32))).map (·.2)))
      (p.wrG v.d.toNat (p.lat 6 8) (p.act v.grd) ((readRsd (sliceWords T.res (v.a.toNat / 8 % 32))).map (·.1))) :=
  ⟨_, (exec_tread_of_permitted hp ht hread hclean).trans (by rw [if_pos hres]), ((Issued.start hp).raise _).putG ..⟩

end

/-! ### Tokens of a native group (R267) -/

section
variable {s : State} {p : NSite} {k : BitVec 4} {e : Nat}

/-- A token that is Complete, or no longer held, lets the group go on. -/
theorem exec_skwait_of_complete (hp : nsite? s = some p) (hk : p.tok k.toNat = some e)
    (hdone : tokState p.grp e = none ∨ tokState p.grp e = some .complete) : exec (.skwait k) s = .next (p.pop s) := by
  change execSkwait k s = _
  rw [execSkwait, native_eq hp]
  obtain hdone | hdone := hdone <;> simp only [hk, hdone]

/-- A Pending token is waited for. -/
theorem exec_skwait_of_pending (hp : nsite? s = some p) (hk : p.tok k.toNat = some e) (hwait : tokState p.grp e = some .pending) :
    exec (.skwait k) s = .next (p.wait (.tokens [e]) (p.pop s)) := by
  change execSkwait k s = _
  rw [execSkwait, native_eq hp]
  simp only [hk, hwait]

/-- A Failed token is the engine-failure fault. -/
theorem exec_skwait_of_failed (hp : nsite? s = some p) (hk : p.tok k.toNat = some e) {c : Cause} {o : Nat}
    (hfail : tokState p.grp e = some (.failed c o)) :
    exec (.skwait k) s = .next (p.fault .engineFailure none (failAux c o) (p.pop s)) := by
  change execSkwait k s = _
  rw [execSkwait, native_eq hp]
  simp only [hk, hfail]

end

/-- Settles O40: operation by operation, each acts on the tile or the token that its checks let through. -/
theorem nativeTileResults : Obligations.NativeTileResults := by
  unfold Obligations.NativeTileResults
  intro s p hp
  refine ⟨fun n => ⟨?acquire, ?diverged⟩, fun A hset => ⟨?idle, ?busy, ?tile⟩, fun k e hk => ⟨?complete, ?pending, ?failed⟩⟩
  case acquire => exact fun hconv hnone hfits hqueue hfree hunit => exec_sacq_of_free hp hconv hnone hfits hqueue hfree hunit
  case diverged => exact fun hdiv => (exec_sacq_of_diverged hp hdiv).trans (by rw [NSite.fault_eq])
  case idle => exact fun hconv hidle => exec_srel_of_idle hp hconv hset hidle
  case busy => exact fun hconv hbusy => exec_srel_of_busy hp hconv hset hbusy
  case complete => exact fun hdone => exec_skwait_of_complete hp hk hdone
  case pending => exact fun hwait => exec_skwait_of_pending hp hk hwait
  case failed => exact fun c o hfail => (exec_skwait_of_failed hp hk hfail).trans (by rw [NSite.fault_eq])
  case tile =>
    intro i T htile hkept hrestored
    have ht : NHoldsTile p i.toNat (A.seenBy p.ctx) T := ⟨by rw [hset]; rfl, htile, hkept, hrestored⟩
    refine ⟨?latch, ?latchOdd, fun hconv => ⟨?twr, ?tzero, ?tzeroPair, ?sscl, ?tstep⟩, fun v hv => ?tread⟩
    case latch => exact fun k f heven => exec_tlatch_of_tile hp ht heven
    case latchOdd => exact fun k f hform hodd => (exec_tlatch_of_odd hp hform hodd).trans (by rw [NSite.illegal_eq])
    case twr => exact fun k f j => exec_twr_of_tile hp ht hconv f
    case tzero => exact fun k hmode => (exec_tzero_of_tile hp ht hconv).trans (by rw [if_neg hmode]; rfl)
    case tzeroPair => exact fun k U hmode hU => (exec_tzero_of_tile hp ht hconv).trans (by rw [if_pos hmode, hU]; rfl)
    case sscl => exact fun g k pa a => exec_sscl_of_tile hp ht hconv pa
    case tstep => exact fun k f fm ws hform hfrags hmo => exec_tstep_of_tile hp ht hconv hform hfrags hmo
    case tread =>
      intro j hread hclean
      rw [← hv] at ht
      refine ⟨fun hres => nraises_tread_of_permitted hp ht hread hclean hres, fun hel => ?_⟩
      rw [exec_tread_of_permitted hp ht hread hclean, if_neg (Bool.eq_false_iff.mp hel), hv]
      rfl

end Sys2Proof.Machine

namespace Sys2Proof.Machine
open Sys2Proof

/-! ### Errors of timing and of storage (R387, R398 to R400) -/

section
variable {s : State} {g sd : Nat} {G : Group} {S : Side}

/-- An unchecked bundle of a live side of a ready group passes its timing check, or its region replays (R399). -/
theorem exec_timingCheck_of_unchecked (hG : s.groups[g]? = some G) (hS : G.sides[sd]? = some S) (hsome : 0 < S.unchecked)
    (hready : G.st = .ready) (hlive : S.live = true) (err : Bool) :
    exec (.timingCheck g sd err) s =
      .next (if err then timingReplay g sd s else s.updSide g sd (fun S => { S with unchecked := S.unchecked - 1 })) := by
  have hopen : ¬(S.unchecked = 0 ∨ G.st ≠ .ready ∨ (!S.live) = true) := by simp [hready, hlive]; omega
  change execTimingCheck g sd err s = _
  simp only [execTimingCheck, hG, hS, Option.bind_some, Option.map_some, if_neg hopen]

/-- A fault reported outside an instruction is taken where the live side of a running group stands, its cause not one of a token alone
(R388, R390). -/
theorem exec_faultRollback_of_live (hG : s.groups[g]? = some G) (hS : G.sides[sd]? = some S) (hlive : S.live = true) (hrun : G.st ≠ .ended)
    {c : Cause} (hmismatch : c ≠ .collectiveMismatch) (htimeout : c ≠ .collectiveTimeout) (lane : BitVec 8) (aux : DWord) :
    exec (.faultRollback g sd c lane aux) s =
      .next (faultAt g sd c (standsAt G sd) (if lane = 0xFF then none else some lane.toNat) aux s) := by
  change execFaultRollback g sd c lane aux s = _
  simp only [execFaultRollback, hG, hS, hlive, hrun, hmismatch, htimeout, Bool.not_true, Bool.false_eq_true, or_self, if_false]

/-- A multi-bit error in a register of a running group replays its region where the register was written in it, and else is the
uncorrectable-state fault (R398). -/
theorem exec_eccError_register_of_running (hG : s.groups[g]? = some G) (hrun : G.st ≠ .ended) (current : Bool) :
    exec (.eccError (.register g sd current) true) s =
      .next (if current then replayGroup g s else faultAt g sd .uncorrectableState (standsAt G sd) none 0 s) := by
  change execEccError (.register g sd current) true s = _
  simp only [execEccError, hG, hrun, if_false]

end

/-! ### Held faults (R392, R409) -/

/-- Without a migration of the context pending, DISP of each of its held faults is read (R409). -/
theorem exec_dispPoll_of_not_migrating {s : State} {x : Nat} (h : (ctxAt s x).migrating = false) :
    exec (.dispPoll x) s = .next ((heldGroups s x).foldl (fun s e => applyDisp x e.1 e.2 s) s) := by
  change execDispPoll x s = _
  simp only [execDispPoll, h, Bool.false_eq_true, if_false]

/-! ### Resets of units (R133, R304, R401) -/

/-- A copy engine that hangs is reset: its instructions are gone, and each of their groups receives the engine-lost fault (R304). -/
theorem exec_engineReset_of_hung {s : State} {c : Nat} (h : (engsOn s c).any (Eng.hung s) = true) :
    exec (.engineReset c) s = .next ((uniq ((engsOn s c).map (fun E => E.group))).foldl (fun s g => engineLost c g s)
      { s with engs := s.engs.filter (fun E => !(engsOn s c).any (fun F => F.id == E.id)) }) := by
  change execEngineReset c s = _
  simp only [execEngineReset, h, Bool.not_true, Bool.false_eq_true, if_false]

/-- A matrix unit that hangs is reset: each owner of a Held tile loses its tiles (R133, R401). -/
theorem exec_matrixUnitReset_of_hung {s : State} {c : Nat} (h : matrixHung s c = true) :
    exec (.matrixUnitReset c) s = .next ((heldOwners s c).foldl (fun s g => loseTiles c g s)
      { s with cores := modifyAt (fun C => { C with matrixReset := true }) s.cores c }) := by
  change execMatrixUnitReset c s = _
  simp only [execMatrixUnitReset, h, Bool.not_true, Bool.false_eq_true, if_false]

/-- Settles O46: event by event. -/
theorem recoveryEvents : Obligations.RecoveryEvents := by
  unfold Obligations.RecoveryEvents
  intro s
  refine ⟨?timing, fun cl => rfl, ?rollback, fun g sd b => ⟨rfl, ?register⟩, fun a => ⟨rfl, rfl⟩, ?disp, ?engine, ?matrix,
    fun c => rfl, fun cl => rfl⟩
  case timing =>
    intro g sd G S hG hS hsome hready hlive
    exact ⟨exec_timingCheck_of_unchecked hG hS hsome hready hlive false, exec_timingCheck_of_unchecked hG hS hsome hready hlive true⟩
  case rollback =>
    exact fun g sd G S c lane aux hG hS hlive hrun hmismatch htimeout =>
      exec_faultRollback_of_live hG hS hlive hrun hmismatch htimeout lane aux
  case register =>
    exact fun G hG hrun => ⟨exec_eccError_register_of_running hG hrun true, exec_eccError_register_of_running hG hrun false⟩
  case disp => exact fun x h => exec_dispPoll_of_not_migrating h
  case engine => exact fun c h => exec_engineReset_of_hung h
  case matrix => exact fun c h => exec_matrixUnitReset_of_hung h

end Sys2Proof.Machine

namespace Sys2Proof.Machine
open Sys2Proof

/-! ### What the bookkeeping of an access leaves as it was (R197, R199, R204, R365) -/

theorem SameStorage.refl (s : State) : SameStorage s s := ⟨rfl, rfl, rfl, rfl, rfl, rfl⟩

theorem SameStorage.trans {s t u : State} (h : SameStorage s t) (k : SameStorage t u) : SameStorage s u :=
  ⟨k.mem.trans h.mem, k.tag.trans h.tag, k.lines.trans h.lines, k.owner.trans h.owner, k.dirty.trans h.dirty, k.poison.trans h.poison⟩

/-- A fold of steps that each leave the storage. -/
theorem sameStorage_foldl {α : Type} {f : State → α → State} (hf : ∀ s a, SameStorage s (f s a)) (l : List α) (s : State) :
    SameStorage s (l.foldl f s) := by
  induction l generalizing s with
  | nil => exact .refl s
  | cons a r ih => exact (hf s a).trans (ih _)

/-- Loads read the same in both states: storage, the contexts' keys, the stores held back and the early reads agree. -/
structure ReadsAlike (s t : State) : Prop extends SameStorage s t where
  keys : ∀ x, (ctxAt t x).key = (ctxAt s x).key
  held : t.groups.map Group.wbuf = s.groups.map Group.wbuf
  early : t.groups.map Group.early = s.groups.map Group.early

theorem ReadsAlike.refl (s : State) : ReadsAlike s s := ⟨.refl s, fun _ => rfl, rfl, rfl⟩

theorem ReadsAlike.trans {s t u : State} (h : ReadsAlike s t) (k : ReadsAlike t u) : ReadsAlike s u :=
  ⟨h.toSameStorage.trans k.toSameStorage, fun x => (k.keys x).trans (h.keys x), k.held.trans h.held, k.early.trans h.early⟩

/-- A fold of steps that each leave what loads read. -/
theorem readsAlike_foldl {α : Type} {f : State → α → State} (hf : ∀ s a, ReadsAlike s (f s a)) (l : List α) (s : State) :
    ReadsAlike s (l.foldl f s) := by
  induction l generalizing s with
  | nil => exact .refl s
  | cons a r ih => exact (hf s a).trans (ih _)

/-- Cores and page counters are nothing that a load reads. -/
theorem readsAlike_cores (s : State) (cs : List Core) : ReadsAlike s { s with cores := cs } :=
  ⟨⟨rfl, rfl, rfl, rfl, rfl, rfl⟩, fun _ => rfl, rfl, rfl⟩
theorem readsAlike_pageCnt (s : State) (m : NMap (List Nat)) : ReadsAlike s { s with pageCnt := m } :=
  ⟨⟨rfl, rfl, rfl, rfl, rfl, rfl⟩, fun _ => rfl, rfl, rfl⟩

/-- Counting an event leaves every key (R361). -/
theorem readsAlike_countEv (x ev n : Nat) (s : State) : ReadsAlike s (countEv x ev n s) := by
  refine ⟨⟨rfl, rfl, rfl, rfl, rfl, rfl⟩, fun y => ?_, rfl, rfl⟩
  simp only [ctxAt, countEv, nth, List.getD_eq_getElem?_getD, modifyAt_getElem?]
  split
  · cases s.ctxs[y]? with
    | none => rfl
    | some C => rfl
  · rfl

theorem readsAlike_touchPage (c x : Nat) (q : Tlb × Bool) (s : State) : ReadsAlike s (touchPage c x q s) := by
  unfold touchPage
  extract_lets e miss fill t
  have hfill : ReadsAlike s (fill s) := by
    simp only [fill]
    split
    · exact readsAlike_cores ..
    · exact .refl s
  have ht : ReadsAlike s t := by
    simp only [t]
    split
    · exact hfill.trans (readsAlike_countEv ..)
    · exact .refl s
  clear_value t
  split
  · exact ht.trans (readsAlike_pageCnt ..)
  · exact ht

theorem readsAlike_touchAddrs (w : Who) (al : Nat) (vas : List Nat) (s : State) : ReadsAlike s (touchAddrs w al vas s) := by
  unfold touchAddrs touchWith touchPages
  dsimp only
  split
  · exact readsAlike_foldl (fun s q => readsAlike_touchPage _ _ q s) ..
  · exact (readsAlike_countEv ..).trans (readsAlike_foldl (fun s q => readsAlike_touchPage _ _ q s) ..)

theorem readsAlike_request (c x g n : Nat) (s : State) : ReadsAlike s (request c x g n s) := by
  unfold request
  extract_lets C k t
  have hrest : ReadsAlike s t := readsAlike_cores ..
  clear_value t
  split
  · exact .refl s
  · split
    · exact hrest
    · exact hrest.trans (readsAlike_countEv ..)

/-- A change of one element that f cannot see. -/
theorem map_modifyAt_of_eq {α β : Type} {f : α → α} {h : α → β} (hf : ∀ a, h (f a) = h a) (l : List α) (i : Nat) :
    (modifyAt f l i).map h = l.map h := by
  induction l generalizing i with
  | nil => rfl
  | cons a r ih => cases i <;> simp [modifyAt, hf, ih]

/-- A side's own state is nothing that a load reads, its gated operations apart. -/
theorem readsAlike_updSide (s : State) (g sd : Nat) (f : Side → Side) : ReadsAlike s (s.updSide g sd f) :=
  ⟨⟨rfl, rfl, rfl, rfl, rfl, rfl⟩, fun _ => rfl, map_modifyAt_of_eq (by intro; rfl) _ g, map_modifyAt_of_eq (by intro; rfl) _ g⟩

theorem readsAlike_rearm (p : Site) (s : State) : ReadsAlike s (p.rearm s) := by
  unfold Site.rearm
  split
  · exact readsAlike_updSide ..
  · exact .refl s

theorem rawBytes_congr {s t : State} (h : t.mem = s.mem) (a n : Nat) : rawBytes t a n = rawBytes s a n := by
  induction n generalizing a with
  | zero => rfl
  | succ n ih => simp only [rawBytes, h, ih]

section
variable {s t : State}

theorem ReadsAlike.seenByte_eq (h : ReadsAlike s t) (x a : Nat) (b : Byte) : seenByte t x a b = seenByte s x a b := by
  have hword : ownerWord t x = ownerWord s x := by rw [ownerWord, ownerWord, h.keys]
  unfold seenByte
  rw [h.owner, hword, h.keys]

theorem ReadsAlike.headerAt_eq (h : ReadsAlike s t) (a : Nat) : headerAt t a = headerAt s a := by
  rw [headerAt, headerAt, tagAt, tagAt, wordAt, wordAt, h.tag, rawBytes_congr h.mem]

/-- A byte loads the same where storage and keys agree. -/
theorem ReadsAlike.loadByte_eq (h : ReadsAlike s t) (x a : Nat) : loadByte t x a = loadByte s x a := by
  unfold loadByte
  rw [h.mem, h.seenByte_eq, h.headerAt_eq]

theorem ReadsAlike.laneByte_eq (h : ReadsAlike s t) (x : Nat) (ops : List GOp) (l a : Nat) :
    laneByte t x ops l a = laneByte s x ops l a := by
  simp only [laneByte, h.loadByte_eq]

theorem ReadsAlike.laneBytes_eq (h : ReadsAlike s t) (x : Nat) (ops : List GOp) (l a n : Nat) :
    laneBytes t x ops l a n = laneBytes s x ops l a n := by
  induction n generalizing a with
  | zero => rfl
  | succ n ih => simp only [laneBytes, h.laneByte_eq, ih]

end

/-! ### Accesses that pass their checks (R194, R365) -/

/-- An access that passes its checks goes on with its lanes' accesses. -/
theorem access_of_passes {s : State} {p : Site} {n : Nat} {mask : BitVec 3} {rd wr : Bool} {as : List DWord} {accs : List (Nat × Acc)}
    {k : List (Nat × Acc) → State → State} (h : Passes s p n mask rd wr as accs) :
    access p n n mask rd wr as k s = k accs (accessed p n as accs s) := by
  obtain ⟨hcheck, hwatch⟩ := h
  simp only [access, hcheck, hwatch]
  rfl

/-- The state in which an access to register arrays of n elements of e bytes has passed its checks (R199, R204, R365). -/
def arrAccessed (p : Site) (e n : Nat) (as : List DWord) (accss : List (List (Nat × Acc))) (s : State) : State :=
  let vas := (List.range n).flatMap (fun j => p.addrs (as.map (· + BitVec.ofNat 64 (e * j))))
  request p.grp.core p.ctx p.g (requestsOf s p.who e vas (accss.flatMap id)) (p.rearm (touchAddrs p.who e vas s))

section
variable {s : State} {p : Site} {e n : Nat} {mask : BitVec 3} {wr : Bool} {as : List DWord} {accss : List (List (Nat × Acc))}

/-- An access to register arrays that passes its checks goes on with its elements' accesses. -/
theorem accessArr_of_ok {k : List (List (Nat × Acc)) → State → State} (hcheck : elemAccs s p e mask wr as n 0 = .ok accss)
    (hwatch : elemWatch s p e wr as accss = none) : accessArr p e n mask wr as k s = k accss (arrAccessed p e n as accss s) := by
  simp only [accessArr, hcheck, hwatch]
  rfl

theorem readsAlike_arrAccessed : ReadsAlike s (arrAccessed p e n as accss s) :=
  ((readsAlike_touchAddrs ..).trans (readsAlike_rearm ..)).trans (readsAlike_request ..)

/-- The accesses of the active lanes, and of no others, in increasing lane order. -/
theorem resolveLanes_lanes {v : State} {w : Who} {m : Mask} {al : Nat} {rd : Bool} {k i : Nat} {accs : List (Nat × Acc)}
    (h : resolveLanes v w m n al mask rd wr k i as = .ok accs) : accs.map (·.1) = (List.range' i k).filter (fun l => m.getLsbD l) := by
  induction k generalizing i as accs with
  | zero => cases h; rfl
  | succ k ih =>
    rw [List.range'_succ]
    simp only [resolveLanes] at h
    split at h
    next hact =>
      split at h
      next => cases h
      next acc _ =>
        split at h
        next => cases h
        next r hr =>
          cases h
          rw [List.map_cons, List.filter_cons_of_pos hact, ih hr]
    next hact => rw [List.filter_cons_of_neg hact, ih h]

theorem checkLanes_lanes {al : Nat} {rd : Bool} {accs : List (Nat × Acc)} (h : checkLanes s p n al mask rd wr as = .ok accs) :
    accs.map (·.1) = lanesOf p.mask := by
  rw [resolveLanes_lanes h, lanesOf, List.range_eq_range']

/-- Every element's accesses are those of the active lanes, and there is one for each element. -/
theorem elemAccs_lanes {j : Nat} (h : elemAccs s p e mask wr as n j = .ok accss) :
    accss.length = n ∧ ∀ accs ∈ accss, accs.map (·.1) = lanesOf p.mask := by
  induction n generalizing j accss with
  | zero => cases h; exact ⟨rfl, by simp⟩
  | succ n ih =>
    simp only [elemAccs] at h
    split at h
    next => split at h <;> cases h
    next => cases h
    next => cases h
    next a r ha hr =>
      cases h
      obtain ⟨hlen, hlanes⟩ := ih hr
      exact ⟨by rw [List.length_cons, hlen], List.forall_mem_cons.mpr ⟨checkLanes_lanes ha, hlanes⟩⟩

end

/-! ### Register arrays, part by part (R211, R255) -/

section
variable {accs : List (Nat × Acc)} {accss : List (List (Nat × Acc))}

/-- A lane has an access exactly where it is among the lanes that access. -/
theorem accAt_isSome_iff {i : Nat} : (accAt accs i).isSome ↔ i ∈ accs.map (·.1) := by
  simp [accAt]

/-- The parts of consecutive elements cover them in order. -/
theorem flatMap_partsOf {β : Type} {e : Nat} {read : Nat → Nat → List β} (hread : ∀ k n, read k (e + n) = read k e ++ read (k + e) n)
    (ks : List Nat) : (partsOf e ks).flatMap (fun q => read q.1 q.2) = ks.flatMap (fun k => read k e) := by
  induction ks with
  | nil => rfl
  | cons k r ih =>
    rw [List.flatMap_cons, ← ih]
    simp only [partsOf]
    split
    next b n t ht =>
      rw [ht]
      split
      next hnext => simp [hnext.1, Nat.add_comm n e, hread, List.append_assoc]
      next => simp
    next ht => simp [ht]

theorem laneBytes_add (s : State) (x : Nat) (ops : List GOp) (l a m n : Nat) :
    laneBytes s x ops l a (m + n) = laneBytes s x ops l a m ++ laneBytes s x ops l (a + m) n := by
  induction m generalizing a with
  | zero => simp [laneBytes]
  | succ m ih => simp [Nat.succ_add, laneBytes, ih, Nat.add_assoc]

@[simp] theorem laneBytes_length (s : State) (x : Nat) (ops : List GOp) (l a n : Nat) : (laneBytes s x ops l a n).length = n := by
  induction n generalizing a with
  | zero => rfl
  | succ n ih => simp [laneBytes, ih]

/-- The first element stands in the first e bytes, the others behind them. -/
theorem elemsOf_append {e : Nat} {b : List Byte} (hb : b.length = e) (n : Nat) (r : List Byte) :
    elemsOf e (n + 1) (b ++ r) = BitVec.ofNat 64 (leNat b) :: elemsOf e n r := by
  subst hb
  simp only [elemsOf, List.range_succ_eq_map, List.map_cons, List.map_map, Function.comp_def, Nat.mul_zero, List.drop_zero,
    List.take_left, Nat.succ_eq_add_one, Nat.mul_add, Nat.mul_one]
  congr 2
  funext j
  rw [Nat.add_comm, List.drop_length_add_append]

/-- Elements of no bytes are 0. -/
theorem elemsOf_nil (e n : Nat) : elemsOf e n [] = List.replicate n 0 := by
  refine List.eq_replicate_iff.mpr ⟨by rw [elemsOf, List.length_map, List.length_range], fun x hx => ?_⟩
  obtain ⟨j, -, rfl⟩ := List.mem_map.mp hx
  rw [List.drop_nil, List.take_nil, leNat, BitVec.ofNat_eq_ofNat]

/-- What the access of lane i gives, among the accesses of one element; 0 without one. -/
def elemRead (s : State) (x : Nat) (ops : List GOp) (e i : Nat) (accs : List (Nat × Acc)) : DWord :=
  match accAt accs i with
  | some a => laneWord s x ops i a.key e
  | none => 0

theorem ReadsAlike.elemRead_eq {s t : State} (h : ReadsAlike s t) (x : Nat) (ops : List GOp) (e i : Nat) :
    elemRead t x ops e i = elemRead s x ops e i := by
  funext accs
  simp only [elemRead, laneWord, h.laneBytes_eq]

/-- The parts of a lane with an access for each element give element by element what its own access gives. -/
theorem elemsOf_lane_of_active (s : State) (x : Nat) (ops : List GOp) (e : Nat) {i : Nat} (h : ∀ accs ∈ accss, (accAt accs i).isSome) :
    elemsOf e accss.length ((laneParts e accss i).flatMap (fun q => laneBytes s x ops i q.1 q.2)) = accss.map (elemRead s x ops e i) := by
  rw [laneParts, flatMap_partsOf (laneBytes_add s x ops i · e ·)]
  induction accss with
  | nil => rfl
  | cons accs r ih =>
    obtain ⟨a, ha⟩ := Option.isSome_iff_exists.mp (h accs List.mem_cons_self)
    rw [List.filterMap_cons_some (by rw [ha]; rfl), List.flatMap_cons, List.length_cons, elemsOf_append (laneBytes_length ..),
      ih fun b hb => h b (List.mem_cons_of_mem _ hb), List.map_cons, elemRead, ha]
    rfl

/-- A lane without an access reads zeros. -/
theorem elemsOf_lane_of_inactive (s : State) (x : Nat) (ops : List GOp) (e : Nat) {i : Nat} (h : ∀ accs ∈ accss, accAt accs i = none) :
    elemsOf e accss.length ((laneParts e accss i).flatMap (fun q => laneBytes s x ops i q.1 q.2)) = accss.map (elemRead s x ops e i) := by
  have hkeys : accss.filterMap (fun accs => (accAt accs i).map Acc.key) = [] := by
    rw [List.filterMap_eq_nil_iff]
    intro accs hmem
    rw [h accs hmem]
    rfl
  have hzero : ∀ accs ∈ accss, elemRead s x ops e i accs = 0 := fun accs hmem => by simp only [elemRead, h accs hmem]
  rw [laneParts, hkeys, List.map_congr_left hzero]
  exact (elemsOf_nil ..).trans (List.map_const' ..).symm

end

/-! ### Loads where nothing is held back and nothing was read early (R214, R217, R219) -/

/-- No group holds a store back, and group g has read nothing early. -/
structure Settled (g : Nat) (s : State) : Prop where
  held : ∀ G ∈ s.groups, G.wbuf = []
  early : ∀ G, s.groups[g]? = some G → G.early = []

/-- Both are of what loads read. -/
theorem ReadsAlike.settled {g : Nat} {s t : State} (h : ReadsAlike s t) (hs : Settled g s) : Settled g t where
  held := by
    have hall : ∀ b ∈ t.groups.map Group.wbuf, b = [] := by rw [h.held]; exact List.forall_mem_map.mpr hs.held
    exact List.forall_mem_map.mp hall
  early := by
    intro G hG
    have hsome : (s.groups.map Group.early)[g]? = some G.early := by rw [← h.early, List.getElem?_map, hG]; rfl
    rw [List.getElem?_map, Option.map_eq_some_iff] at hsome
    obtain ⟨H, hH, he⟩ := hsome
    rw [← he, hs.early H hH]

section
variable {s : State} {p : Site} {g e n : Nat} {accss : List (List (Nat × Acc))}

/-- Then no read finds an early value. -/
theorem Settled.pickEarly_eq (hs : Settled g s) (l a n : Nat) : pickEarly s g l a n = none := by
  unfold pickEarly
  split
  next => rfl
  next G hG => simp [earlyAt, hs.early G hG, Nat.mod_one]

/-- Nor do lanes that load make a store be performed. -/
theorem Settled.reachLanes_eq (hs : Settled g s) (accs : List (Nat × Acc)) : reachLanes p false n accs s = s :=
  foldl_fixed _ _ (fun _ => reach_idle _ _ _ _ hs.held) _

/-- A side's own operations are then its gated ones. -/
theorem Settled.ownOps_eq (hs : Settled g s) (gated : List GOp) : ownOps s g gated = gated := by
  unfold ownOps
  cases hG : s.groups[g]? with
  | none => rfl
  | some G => simp [hs.held G (List.mem_of_getElem? hG)]

/-- Each part of a lane is then read now. -/
theorem Settled.arrBytes_eq (hs : Settled p.g s) (free : Bool) (i : Nat) :
    arrBytes p e free accss s i = (laneParts e accss i).flatMap (fun q => laneBytes s p.ctx p.side.gated i q.1 q.2) := by
  have hnow : ∀ q : Nat × Nat, (if free then pickEarly s p.g i q.1 q.2 else none) = none := by
    intro q
    rw [hs.pickEarly_eq, ite_self]
  simp only [arrBytes, hnow, hs.ownOps_eq]

/-- Each element of a lane's array is then what its own access gives. -/
theorem Settled.loadArr_vals (hs : Settled p.g s) (free : Bool) (hlen : accss.length = n)
    (hlanes : ∀ accs ∈ accss, accs.map (·.1) = lanesOf p.mask) :
    (loadArr p e n free accss s).1 =
      (List.range 128).map (fun i => .arr (accss.map (elemRead s p.ctx p.side.gated e i))) := by
  subst hlen
  have hreach : accss.foldl (fun s accs => reachLanes p false e accs s) s = s := foldl_fixed _ _ (fun _ => hs.reachLanes_eq _) _
  simp only [loadArr, hreach]
  refine List.map_congr_left fun i _ => congrArg Val.arr ?_
  rw [hs.arrBytes_eq]
  by_cases hact : i ∈ lanesOf p.mask
  · exact elemsOf_lane_of_active _ _ _ _ fun accs hmem => accAt_isSome_iff.mpr (by rwa [hlanes accs hmem])
  · refine elemsOf_lane_of_inactive _ _ _ _ fun accs hmem => Option.not_isSome_iff_eq_none.mp fun hsome => hact ?_
    rw [← hlanes accs hmem]
    exact accAt_isSome_iff.mp hsome

theorem sameStorage_dropEarly (g l a n : Nat) (s : State) : SameStorage s (dropEarly g l a n s) := ⟨rfl, rfl, rfl, rfl, rfl, rfl⟩

theorem sameStorage_dropLanes (accs : List (Nat × Acc)) (s : State) : SameStorage s (dropLanes p n accs s) := by
  unfold dropLanes
  exact sameStorage_foldl (fun _ _ => sameStorage_dropEarly ..) accs s

/-- The load changes no storage. -/
theorem Settled.sameStorage_loadArr (hs : Settled p.g s) (free : Bool) : SameStorage s (loadArr p e n free accss s).2 := by
  have hreach : accss.foldl (fun s accs => reachLanes p false e accs s) s = s := foldl_fixed _ _ (fun _ => hs.reachLanes_eq _) _
  simp only [loadArr, hreach]
  split
  · exact ⟨rfl, rfl, rfl, rfl, rfl, rfl⟩
  · exact sameStorage_foldl (fun s accs => sameStorage_dropLanes accs s) accss s

end

/-! ### Array and fragment accesses (R123, R255, R256) -/

section
variable {s : State} {p : Site} {h : BitVec 2} {ds : Bool} {m : MemOp} {as : List DWord} {e : Ty} {l : BitVec 6}
  {accss : List (List (Nat × Acc))}

/-- A load of register arrays that passes its checks. -/
theorem exec_ldw_of_ok (hp : site? s = some p) (ha : memLanes s p m = some as)
    (hcheck : elemAccs s p (Ty.bytes e) (spaceMask ds) false as (l.toNat + 1) 0 = .ok accss)
    (hwatch : elemWatch s p (Ty.bytes e) false as accss = none) {t : State}
    (ht : arrAccessed p (Ty.bytes e) (l.toNat + 1) as accss s = t) :
    exec (.ldw h e l ds m) s = .next (define p (loadArr p (Ty.bytes e) (l.toNat + 1) (freeAddr t p m) accss t).1
      (loadArr p (Ty.bytes e) (l.toNat + 1) (freeAddr t p m) accss t).2) := by
  subst ht
  change execLdw e l ds m s = _
  rw [execLdw, portable_eq hp]
  simp only [ha, accessArr_of_ok hcheck hwatch]

/-- A store of register arrays that passes its checks gates the lanes' parts, in increasing lane order (R254, R255). -/
theorem exec_stw_of_ok (hp : site? s = some p) (ha : memLanes s p m = some as) {x : Opnd} {arrs : List (List DWord)}
    (hx : opndArrs p x = some arrs) (hcheck : elemAccs s p (Ty.bytes e) (spaceMask ds) true as (l.toNat + 1) 0 = .ok accss)
    (hwatch : elemWatch s p (Ty.bytes e) true as accss = none) :
    exec (.stw h e l ds m x) s = .next (advance p (gate p
      ((lanesOf p.mask).flatMap (fun i => arrStores (Ty.bytes e) accss (nth [] arrs i) i))
      (accss.foldl (fun s accs => dropLanes p (Ty.bytes e) accs s) (arrAccessed p (Ty.bytes e) (l.toNat + 1) as accss s)))) := by
  change execStw e ds m x l s = _
  rw [execStw, portable_eq hp]
  simp only [ha, hx, accessArr_of_ok hcheck hwatch]

/-- The address of lane i's word of a fragment of rows u apart: of 16-bit elements, word j of the two (R123). -/
def fragAddr (w16 j : Bool) (as us : List DWord) (i : Nat) : DWord :=
  nth 0 as i + BitVec.ofNat 64 (i % 64 * (nth 0 us i).toNat + (if w16 then 8 * (i / 64) + (if j then 4 else 0) else 4 * (i / 64)))

/-- A load of a fragment that passes its checks (R123). -/
theorem exec_ldfrag_of_passes (hp : site? s = some p) (ha : memLanes s p m = some as) {b w16 j : Bool} {u : Opnd} {us : List DWord}
    {accs : List (Nat × Acc)} (hu : opndBits s p .i32 u = some us)
    (hpass : Passes s p 4 (spaceMask ds) true false ((List.range 128).map (fragAddr w16 j as us)) accs) {t : State}
    (ht : accessed p 4 ((List.range 128).map (fragAddr w16 j as us)) accs s = t) :
    exec (.ldfrag h b w16 j ds m u) s = .next (defineBits p
      (loadNow p 4 (fun s => freeOpnds s p [m.base, m.off, u]) accs t).1 (loadNow p 4 (fun s => freeOpnds s p [m.base, m.off, u]) accs t).2) := by
  subst ht
  change execLdfrag w16 j ds m u s = _
  rw [execLdfrag, portable_eq hp]
  simp only [ha, hu]
  exact congrArg _ (access_of_passes hpass)

/-- `prefetch` of a readable address goes on (R256). -/
theorem exec_prefetch_eq (hp : site? s = some p) (ha : memLanes s p m = some as) (dm : Bool) :
    exec (.prefetch h dm m) s = .next (advance p s) := by
  change execPrefetch m s = _
  rw [execPrefetch, portable_eq hp]
  simp only [ha]

end

/-- Settles O11: the accesses pass their checks; where nothing is held back or read early, a lane's parts are put together from what each
element's own access gives. -/
theorem arrayAndFragmentAccessResults : Obligations.ArrayAndFragmentAccessResults := by
  unfold Obligations.ArrayAndFragmentAccessResults
  intro s p hp h ds m as ha
  refine ⟨fun e l accss => ⟨fun hcheck hwatch => ⟨?load, fun hheld hearly => ?now⟩, fun x arrs hx hcheck hwatch => ?store⟩,
    fun b w16 j u us accs hu hpass => ?frag, fun dm => exec_prefetch_eq hp ha dm⟩
  case load => exact exec_ldw_of_ok hp ha hcheck hwatch rfl
  case store => exact exec_stw_of_ok hp ha hx hcheck hwatch
  case frag => exact exec_ldfrag_of_passes hp ha hu hpass rfl
  case now =>
    obtain ⟨-, hg, -⟩ := site?_some hp
    obtain ⟨hlen, hlanes⟩ := elemAccs_lanes hcheck
    have hseen : ReadsAlike s (arrAccessed p (Ty.bytes e) (l.toNat + 1) as accss s) := readsAlike_arrAccessed
    have hsettled := hseen.settled ⟨hheld, fun G hG => by rw [hg] at hG; cases hG; exact hearly⟩
    refine ⟨hseen.toSameStorage.trans (hsettled.sameStorage_loadArr _), ?_⟩
    refine (hsettled.loadArr_vals _ hlen hlanes).trans ?_
    simp only [hseen.elemRead_eq]
    rfl

end Sys2Proof.Machine

namespace Sys2Proof.Machine
open Sys2Proof

/-! ### Events of tiles (R117, R118) -/

section
variable {s : State} {c g : Nat} {G : Group} {A : AccSet} {T : Tile}

/-- The request at the head is granted where the unit serves requests and enough tiles are free (R117). -/
theorem exec_accGrant_of_head {r : List Nat} {need w : Nat} (hqueue : (nth Core.reset s.cores c).accQueue = g :: r)
    (hG : s.groups[g]? = some G) (hwait : G.st = .waiting (.accAcq need) w) (hunit : (nth Core.reset s.cores c).matrixReset = false)
    (hfree : usedTiles s c + need ≤ coreTiles) :
    exec (.accGrant c) s = .next (resumeWait g G.wside .done (({ s with
      cores := modifyAt (fun C => { C with accQueue := r }) s.cores c }).updGroup g (Group.granted (groupCtx s G) need))) := by
  have hserve : ¬((nth Core.reset s.cores c).matrixReset = true ∨ coreTiles < usedTiles s c + need) := by
    simp [hunit, hfree]
  change execAccGrant c s = _
  simp only [execAccGrant, hqueue, hG, hwait, if_neg hserve]

/-- An idle tile of a blocked group without steps in flight is saved while the request at the head waits for tiles (R117). -/
theorem exec_tileSave_of_idle {t : Nat} (hG : s.groups[g]? = some G) (hset : G.acc = some A) (htile : A.tiles[t]? = some T)
    (hres : G.resident = true) (hwanted : (nth Core.reset s.cores G.core).accQueue.head?.any (wantsTiles s) = true)
    (hrest : A.tiles.all (fun T => T.flight.isEmpty) = true) (hblocked : G.blocked = true) (hidle : T.st = .heldIdle) :
    exec (.tileSave g t) s = .next (saveTile g t s) := by
  change execTileSave g t s = _
  simp only [execTileSave, hG, hset, Option.bind_some, htile, hres, hwanted, hrest, hblocked, hidle, and_self, if_true]

/-- A restore at the head is served where the unit serves requests and enough tiles are free (R117). -/
theorem exec_tileRestore_of_head {r : List Nat} {w : Nat} (hG : s.groups[g]? = some G) (hset : G.acc = some A)
    (hwait : G.st = .waiting .restore w) (hunit : (nth Core.reset s.cores G.core).matrixReset = false)
    (hqueue : (nth Core.reset s.cores G.core).accQueue = g :: r)
    (hfree : usedTiles s G.core + (A.tiles.filter (fun T => T.st == .saved)).length ≤ coreTiles) :
    exec (.tileRestore g) s = .next (afterRestore g (restoreTiles g
      { s with cores := modifyAt (fun C => { C with accQueue := C.accQueue.tail }) s.cores G.core })) := by
  have hserve : ¬((nth Core.reset s.cores G.core).matrixReset = true ∨ (nth Core.reset s.cores G.core).accQueue.head? ≠ some g ∨
      coreTiles < usedTiles s G.core + (A.tiles.filter (fun T => T.st == .saved)).length) := by
    simp [hunit, hqueue, hfree]
  change execTileRestore g s = _
  simp only [execTileRestore, hG, hwait, hset, if_neg hserve]

/-- The oldest write in flight on a tile completes (R118). -/
theorem exec_tileWriteComplete_of_flight {t e : Nat} {r : List Nat} (hG : s.groups[g]? = some G) (hset : G.acc = some A)
    (htile : A.tiles[t]? = some T) (hflight : T.flight = e :: r) : exec (.tileWriteComplete g t) s = .next (completeToken e s) := by
  change execTileWriteComplete g t s = _
  simp only [execTileWriteComplete, hG, Option.bind_some, hset, htile, hflight]

end

/-! ### Engine instructions in flight (R221, R266 to R269, R276) -/

section
variable {s : State} {e : Nat} {E : Eng} {G : Group}

/-- A Failed token that it consumes fails an issued instruction, with the same cause and origin (R267). -/
theorem exec_engineStart_of_failed (he : engAt s e = some E) (hG : s.groups[E.group]? = some G) (hst : E.st = .issued) {c : Cause} {o : Nat}
    (hfail : failedTok G E.deps = some (c, o)) : exec (.engineStart e) s = .next (failEng E c o s) := by
  change execEngineStart e s = _
  simp only [execEngineStart, he, hG, hst, hfail]

/-- The state in which an engine instruction has started: its group's earlier stores in its spaces performed, and what is owed to its own
accesses (R221). -/
def engReached (E : Eng) (e : Nat) (s : State) : State := reachOwn (landBefore E.mask e E.group s) E

/-- With every token that it consumes Complete, an issued instruction starts and sends its frames (R221, R275). -/
theorem exec_engineStart_of_frames (he : engAt s e = some E) (hG : s.groups[E.group]? = some G) (hst : E.st = .issued)
    (hgood : failedTok G E.deps = none) (hdone : E.deps.any (fun d => decide (tokState G d = some .pending)) = false)
    {fs : List (List Byte)} (hfs : collFrames (engReached E e s) E = .ok fs) :
    exec (.engineStart e) s = .next { engReached E e s with
      engs := (engReached E e s).engs.map (fun F => if F.id = e then { F with st := .started, since := (engReached E e s).time } else F),
      replies := (collSends (engReached E e s) E fs).foldl (fun r f => f :: r) (engReached E e s).replies } := by
  rw [engReached] at hfs
  change execEngineStart e s = _
  simp only [execEngineStart, he, hG, hst, hgood, hdone, Bool.false_eq_true, if_false, hfs]
  rfl

/-- An element of its own that a collective cannot read fails it (R269). -/
theorem exec_engineStart_of_unreadable (he : engAt s e = some E) (hG : s.groups[E.group]? = some G) (hst : E.st = .issued)
    (hgood : failedTok G E.deps = none) (hdone : E.deps.any (fun d => decide (tokState G d = some .pending)) = false)
    {c : Cause} (hfs : collFrames (engReached E e s) E = .error c) :
    exec (.engineStart e) s = .next (failSelf E (tokenCause c) (engReached E e s)) := by
  rw [engReached] at hfs
  change execEngineStart e s = _
  simp only [execEngineStart, he, hG, hst, hgood, hdone, Bool.false_eq_true, if_false, hfs]
  rfl

/-- A started post places its record (R266). -/
theorem exec_tokenComplete_post (he : engAt s e = some E) (hst : E.st = .started) {h : Nat} (hk : E.kind = .post h) :
    exec (.tokenComplete e) s = .next (postPerform E h s) := by
  change execTokenComplete e s = _
  simp only [execTokenComplete, he, hst, ne_eq, not_true_eq_false, if_false, hk]

/-- What the completion of engine instruction e, E, that is neither a post nor a tile write makes of its parts, or of its one access
(R266, R269). -/
def engStep (e : Nat) (E : Eng) (s : State) : State :=
  match partsStep s E, performEng s E with
  | some r, _ => settleRun E r
  | none, some (.ok u) => completeToken e u
  | none, some (.error c) => failSelf E (tokenCause c) s
  | none, none => s

theorem engStep_of_parts {r : EngRun} (hr : partsStep s E = some r) : engStep e E s = settleRun E r := by
  simp only [engStep, hr]

theorem engStep_of_ok {u : State} (hr : partsStep s E = none) (hu : performEng s E = some (.ok u)) : engStep e E s = completeToken e u := by
  simp only [engStep, hr, hu]

theorem engStep_of_error {c : Cause} (hr : partsStep s E = none) (hc : performEng s E = some (.error c)) :
    engStep e E s = failSelf E (tokenCause c) s := by
  simp only [engStep, hr, hc]

theorem exec_tokenComplete_eq (he : engAt s e = some E) (hst : E.st = .started) (hpost : ∀ h, E.kind ≠ .post h)
    (htile : ∀ t, E.kind ≠ .tile t) : exec (.tokenComplete e) s = .next (engStep e E s) := by
  change execTokenComplete e s = _
  simp only [execTokenComplete, he, hst, ne_eq, not_true_eq_false, if_false]
  cases hk : E.kind with
  | post h => exact absurd hk (hpost h)
  | tile t => exact absurd hk (htile t)
  | _ => rfl

/-- A step of a started instruction's parts that fails gives the token its cause (R269). -/
theorem exec_tokenFail_of_parts (he : engAt s e = some E) (hst : E.st = .started) {r : EngRun} (hr : partsStep s E = some r) {c : Cause}
    (hc : r.cause = some c) : exec (.tokenFail e (tokenCause c)) s = .next (settleRun E r) := by
  change execTokenFail e (tokenCause c) s = _
  simp only [execTokenFail, he, hst, hr, hc, Option.map_some, if_true]

/-- The one access of a started instruction that fails gives the token its cause (R269). -/
theorem exec_tokenFail_of_access (he : engAt s e = some E) (hst : E.st = .started) (hr : partsStep s E = none) {c : Cause}
    (hc : performEng s E = some (.error c)) : exec (.tokenFail e (tokenCause c)) s = .next (failSelf E (tokenCause c) s) := by
  change execTokenFail e (tokenCause c) s = _
  simp only [execTokenFail, he, hst, hr, hc, if_true]

/-- A part that fails makes the token Failed, and what has been performed stays (R269). -/
theorem settleRun_of_failed {r : EngRun} {c : Cause} (hc : r.cause = some c) : settleRun E r = failSelf E (tokenCause c) r.st := by
  simp only [settleRun, hc]

/-- With every part performed the token is Complete, and a masked copy-back clears the dirty bits of what it copied (R205, R270). -/
theorem settleRun_of_done {r : EngRun} (hc : r.cause = none) (hdone : r.done.length = partCount r.st E) :
    settleRun E r = completeToken E.id
      (dropFrames E { r.st with dirty := r.wrote.foldl (fun d k => NMap.set false d k false) r.st.dirty }) := by
  simp only [settleRun, hc, hdone, if_true]

/-- A started collective that can do nothing fails when its group's time has passed (R276). -/
theorem exec_collectiveTimeout_of_late (he : engAt s e = some E) (hst : E.st = .started) {k : CollKind} {o : CollOp} {t : Ty}
    {d a c g v n r tmo : Nat} (hk : E.kind = .coll k o t d a c g v) (hgrp : collGroup s E.ctx g = some (n, r, tmo))
    (hlate : E.since + (if tmo = 0 then 10000000000 else 1000 * tmo) ≤ s.time) (hstuck : collStep s E = none) :
    exec (.collectiveTimeout e) s = .next (failSelf E .collectiveTimeout s) := by
  change execCollectiveTimeout e s = _
  simp only [execCollectiveTimeout, he, hk, hgrp, hst, hlate, hstuck, Option.isNone_none, and_self, if_true]

end

/-! ### Frames of collectives (R275, R276) -/

section
variable {s : State} {x : Nat} {fr : List Byte}

/-- The instructions of context x that a frame may be for. -/
def frameEngs (s : State) (x : Nat) : List Eng := s.engs.filter (fun E => E.ctx == x && E.st != .gated)

/-- A malformed frame is discarded and counted (R276). -/
theorem exec_collectiveFrame_of_malformed (hf : readFrame fr = none) : exec (.collectiveFrame x fr) s = .next (chargeEv x 0x80 1 s) := by
  change execCollectiveFrame x fr s = _
  simp only [execCollectiveFrame, hf]

/-- Where no call could find the frame short, the calls that it fails are those that it disagrees with. -/
theorem frameEngs_filter_of_whole {f : Frm} {b : Bool} (hwhole : (frameEngs s x).any (fun E => collShort s E f) = false) :
    (frameEngs s x).filter (fun E => collMismatch s E f || (collShort s E f && b)) = (frameEngs s x).filter (fun E => collMismatch s E f) := by
  refine List.filter_congr fun E hE => ?_
  rw [Bool.eq_false_iff.mpr (List.any_eq_false.mp hwhole E hE), Bool.false_and, Bool.or_false]

/-- Such a frame is kept where it disagrees with no call (R275). -/
theorem exec_collectiveFrame_of_good {f : Frm} (hf : readFrame fr = some f)
    (hwhole : (frameEngs s x).any (fun E => collShort s E f) = false) (hgood : (frameEngs s x).filter (fun E => collMismatch s E f) = []) :
    exec (.collectiveFrame x fr) s = .next { s with frames := s.frames ++ [(x, fr)] } := by
  rw [← frameEngs_filter_of_whole hwhole (b := Config.freeBool s.fresh 0)] at hgood
  rw [frameEngs] at hwhole hgood
  change execCollectiveFrame x fr s = _
  simp only [execCollectiveFrame, hf, hwhole, hgood, Bool.false_eq_true, if_false]

/-- And it fails each call that it disagrees with (R276). -/
theorem exec_collectiveFrame_of_mismatch {f : Frm} (hf : readFrame fr = some f)
    (hwhole : (frameEngs s x).any (fun E => collShort s E f) = false) {E : Eng} {r : List Eng}
    (hbad : (frameEngs s x).filter (fun E => collMismatch s E f) = E :: r) :
    exec (.collectiveFrame x fr) s = .next ((E :: r).foldl (fun s E => failSelf E .collectiveMismatch s) s) := by
  rw [← frameEngs_filter_of_whole hwhole (b := Config.freeBool s.fresh 0)] at hbad
  rw [frameEngs] at hwhole hbad
  change execCollectiveFrame x fr s = _
  simp only [execCollectiveFrame, hf, hwhole, hbad, Bool.false_eq_true, if_false]

end

/-! ### The walk of a publication (R243 to R245) -/

section
variable {s : State} {w : Nat} {W : Walk}

/-- Walk w, in its claim phase, of a group that has not ended. -/
structure Claiming (s : State) (w : Nat) (W : Walk) : Prop where
  found : s.walks.find? (fun V => decide (V.id = w) && V.st == .claiming) = some W
  here : walkGone s W = false

/-- A round that has ended visits again what it recorded against walks that have failed (R245). -/
theorem Claiming.exec_of_failed (h : Claiming s w W) (hidle : W.idle = true) (hbad : W.waits.filter (failedWait s) ≠ []) :
    exec (.claimRound w) s = .next (putWalk { W with
      waits := W.waits.filter (fun e => !failedWait s e), visits := (W.waits.filter (failedWait s)).flatMap (·.2) } s) := by
  change execClaimRound w s = _
  simp only [execClaimRound, h.found, h.here, hidle, hbad, Bool.false_eq_true, ne_eq, not_false_eq_true, if_true, if_false]

/-- Otherwise the claim phase succeeds, with those of the walks that it waits on, where all of them may end (R245). -/
theorem Claiming.exec_of_idle (h : Claiming s w W) (hidle : W.idle = true) (hgood : W.waits.filter (failedWait s) = []) :
    exec (.claimRound w) s = .next (if claimsEnded s W then succeedClaims s W else s) := by
  change execClaimRound w s = _
  simp only [execClaimRound, h.found, h.here, hidle, hgood, Bool.false_eq_true, ne_eq, not_true_eq_false, if_true, if_false]

/-- Storage as the walk's group sees it at its `publ`. -/
def walkView (s : State) (W : Walk) : State := sideView s W.ctx W.group 0 (walkGated s W)

/-- A step of a round: what it claims is pending at once, and claims and followed fields are counted (R244, R249). -/
theorem Claiming.exec_of_step (h : Claiming s w W) (hround : W.idle = false) {V : Walk} {n : Nat}
    (hstep : claimStep (walkView s W) W = .ok (V, n)) :
    exec (.claimRound w) s = .next (chargeEv W.ctx 0x71 (V.claimed.drop W.claimed.length).length
      (chargeEv W.ctx 0x72 n (putWalk V (markPending { V with claimed := V.claimed.drop W.claimed.length } s)))) := by
  rw [walkView] at hstep
  change execClaimRound w s = _
  simp only [execClaimRound, h.found, h.here, hround, hstep, Bool.false_eq_true, if_false]

/-- A step that cannot claim fails the walk of a group at its `publ` (R243). -/
theorem Claiming.exec_of_error (h : Claiming s w W) (hround : W.idle = false) {c : Cause} {x : Nat}
    (hstep : claimStep (walkView s W) W = .error (c, x)) (hat : atPubl s W = true) :
    exec (.claimRound w) s = .next (failWalk W c x (chargeEv W.ctx 0x72 (follows (walkView s W) W) s)) := by
  rw [walkView] at hstep
  change execClaimRound w s = _
  simp only [execClaimRound, h.found, h.here, hround, hstep, hat, Bool.false_eq_true, if_false, if_true]
  rfl

/-- Once every walk that it waits on has marked, a walk stores its root with its tag, and its token completes (R244). -/
theorem exec_rootStore_of_marked (hW : s.walks.find? (fun V => decide (V.id = w) && V.st == .marked) = some W) (hready : rootWaits s W = false)
    (hrel : W.released = true) {l : Leaf} (hl : walk (putWalk { W with st := .stored } s) W.ctx W.slot = some l) :
    exec (.rootStore w) s = .next (completeToken W.eng (storeTagged W.ctx (l.pa + (W.slot - l.va)) W.root (W.root != 0)
      (reach (.engine W.group) true (l.pa + (W.slot - l.va)) 8 (landAll W.group (putWalk { W with st := .stored } s))))) := by
  have hgo : ¬(!W.released) = true := by simp [hrel]
  change execRootStore w s = _
  simp only [execRootStore, hW, hready, if_neg hgo, hl, Bool.false_eq_true, if_false]

/-- Claimed objects become published, then published objects of narrower scope widen (R244). -/
theorem exec_markPhase_of_claimed
    (hW : s.walks.find? (fun V => decide (V.id = w) && V.st == .claimed && (V.released || walkGone s V)) = some W) :
    exec (.markPhase w) s = .next (putWalk { W with st := .marked }
      (W.widened.foldl (fun s h => putHeader W.group W.ctx h
          (fun H => reHdr H (hdrState H) (if hdrScope H < W.scope then W.scope else hdrScope H)) (fun _ => (.shared, 0)) s)
        (W.claimed.foldl (fun s h => putHeader W.group W.ctx h (fun H => reHdr H 2 W.scope) (fun _ => (.shared, 0)) s) s))) := by
  change execMarkPhase w s = _
  simp only [execMarkPhase, hW]

end

/-! ### Late results (R179, R204) -/

section
variable {s : State}

/-- The miss-status entries of core c that stay held when one is freed, which one by free choice (R204). -/
def mshrKept (s : State) (c : Nat) : List Nat :=
  (nth Core.reset s.cores c).mshr.eraseIdx (Config.freeNat s.fresh 0 % (nth Core.reset s.cores c).mshr.length)

/-- Core c with other miss-status entries and rejected requests; a free choice has been made. -/
def putMshr (c : Nat) (m : List Nat) (r : List (Nat × Nat)) (s : State) : State :=
  ({ s with cores := modifyAt (fun C => { C with mshr := m, mshrRej := r }) s.cores c } : State).tick

theorem exec_mshrRetry_of_none {c : Nat} (h : (nth Core.reset s.cores c).mshrRej = []) :
    exec (.mshrRetry c) s = .next (putMshr c (mshrKept s c) [] s) := by
  change execMshrRetry c s = _
  simp only [execMshrRetry, h]
  rfl

/-- The request that was rejected first takes the entry that it has reserved (R204). -/
theorem exec_mshrRetry_of_reserved {c : Nat} {r : Nat × Nat} {rest : List (Nat × Nat)} (h : (nth Core.reset s.cores c).mshrRej = r :: rest)
    (hres : (nth Core.reset s.cores c).reserved = true) :
    exec (.mshrRetry c) s = .next (putMshr c (mshrKept s c ++ [r.1]) rest s) := by
  change execMshrRetry c s = _
  simp only [execMshrRetry, h, hres, true_or, if_true]
  rfl

/-- The state in which the oldest outstanding L result of PC slot sd of group g has arrived. -/
def arrived (g sd : Nat) (s : State) : State := s.updNative g (fun N => { N with pend := arriveFirst sd N.pend })

/-- No L result of group g is outstanding. -/
def allArrived (g : Nat) (s : State) : Bool := ((s.groups[g]?).bind Group.native).all (fun N => N.pend.all (fun w => !w.late))

variable {g sd : Nat} {G : Group}

/-- While a request of the group stands rejected, no result arrives (R179). -/
theorem exec_lSlotResultArrival_of_rejected (hG : s.groups[g]? = some G) (hrej : rejected s G.core g = true) :
    exec (.lSlotResultArrival g sd) s = .next s := by
  change execLSlotResultArrival g sd s = _
  simp only [execLSlotResultArrival, hG, hrej, if_true]

/-- Otherwise one arrives, and the last one frees the group's miss-status entries (R179, R204). -/
theorem exec_lSlotResultArrival_of_accepted (hG : s.groups[g]? = some G) (hrej : rejected s G.core g = false) :
    exec (.lSlotResultArrival g sd) s = .next (if allArrived g (arrived g sd s)
      then { arrived g sd s with cores := modifyAt (fun C => { C with mshr := C.mshr.filter (· != g) }) (arrived g sd s).cores G.core }
      else arrived g sd s) := by
  change execLSlotResultArrival g sd s = _
  simp only [execLSlotResultArrival, hG, hrej, Bool.false_eq_true, if_false]
  rfl

end

/-- Settles O47: event by event. -/
theorem engineAndTileEvents : Obligations.EngineAndTileEvents := by
  unfold Obligations.EngineAndTileEvents
  intro s
  refine ⟨?grant, fun g G A hG hset => ⟨?save, ?restore, ?write⟩, fun e E G he hG => ⟨fun hst => ⟨?failed, ?start⟩, fun hst =>
    ⟨?post, ?parts, ?settle, ?timeout⟩⟩, ?claim, ?mark, ?root, fun x fr => ⟨?malformed, ?frame⟩, fun c => ⟨?freed, ?taken⟩, ?arrival⟩
  case grant => exact fun c g r G need w hqueue hG hwait hunit hfree => exec_accGrant_of_head hqueue hG hwait hunit hfree
  case save =>
    exact fun t T htile hres hwanted hrest hblocked hidle => exec_tileSave_of_idle hG hset htile hres hwanted hrest hblocked hidle
  case restore => exact fun w r hwait hunit hqueue hfree => exec_tileRestore_of_head hG hset hwait hunit hqueue hfree
  case write => exact fun t T e r htile hflight => exec_tileWriteComplete_of_flight hG hset htile hflight
  case failed => exact fun c o hfail => exec_engineStart_of_failed he hG hst hfail
  case start =>
    exact fun hgood hdone => ⟨fun fs hfs => exec_engineStart_of_frames he hG hst hgood hdone hfs,
      fun c hfs => exec_engineStart_of_unreadable he hG hst hgood hdone hfs⟩
  case post => exact fun h hk => exec_tokenComplete_post he hst hk
  case parts =>
    intro hpost htile
    have hstep := exec_tokenComplete_eq he hst hpost htile
    exact ⟨fun r hr => ⟨by rw [hstep, engStep_of_parts hr], fun c hc => exec_tokenFail_of_parts he hst hr hc⟩,
      fun hr => ⟨fun u hu => by rw [hstep, engStep_of_ok hr hu],
        fun c hc => ⟨by rw [hstep, engStep_of_error hr hc], exec_tokenFail_of_access he hst hr hc⟩⟩⟩
  case settle => exact fun r _ => ⟨fun c hc => settleRun_of_failed hc, fun hc hdone => settleRun_of_done hc hdone⟩
  case timeout =>
    exact fun k o t d a c g v n r tmo hk hgrp hlate hstuck => exec_collectiveTimeout_of_late he hst hk hgrp hlate hstuck
  case claim =>
    intro w W hW hhere
    have h : Claiming s w W := ⟨hW, hhere⟩
    refine ⟨fun hidle hgood => ⟨fun hend => ?_, fun hopen => ?_⟩, fun hidle hbad => h.exec_of_failed hidle hbad,
      fun hround => ⟨fun V n hstep => h.exec_of_step hround hstep, fun c x hstep hat => h.exec_of_error hround hstep hat⟩⟩
    · rw [h.exec_of_idle hidle hgood, if_pos hend]
    · rw [h.exec_of_idle hidle hgood, if_neg (Bool.eq_false_iff.mp hopen)]
  case mark => exact fun w W hW => exec_markPhase_of_claimed hW
  case root => exact fun w W l hW hready hrel hl => exec_rootStore_of_marked hW hready hrel hl
  case malformed => exact fun hf => exec_collectiveFrame_of_malformed hf
  case frame =>
    exact fun f hf hwhole => ⟨fun hgood => exec_collectiveFrame_of_good hf hwhole hgood,
      fun E r hbad => exec_collectiveFrame_of_mismatch hf hwhole hbad⟩
  case freed => exact fun h => exec_mshrRetry_of_none h
  case taken => exact fun r rest h hres => exec_mshrRetry_of_reserved h hres
  case arrival =>
    intro g sd G hG
    refine ⟨fun hrej => exec_lSlotResultArrival_of_rejected hG hrej, fun hrej hmore => ?_, fun hrej hlast => ?_⟩
    · exact (exec_lSlotResultArrival_of_accepted hG hrej).trans (congrArg _ (if_neg (Bool.eq_false_iff.mp hmore)))
    · exact (exec_lSlotResultArrival_of_accepted hG hrej).trans (congrArg _ (if_pos hlast))

end Sys2Proof.Machine

namespace Sys2Proof.Machine
open Sys2Proof

/-! ### The frame of an access that passes its checks (R197, R199, R204, R361) -/

/-- The two states agree in everything but what lookups and requests count and cache: cores, page counters and contexts' counters. -/
def OnlyCounts (s t : State) : Prop := t = { s with cores := t.cores, pageCnt := t.pageCnt, ctxs := t.ctxs }

theorem OnlyCounts.refl (s : State) : OnlyCounts s s := rfl

theorem OnlyCounts.trans {s t u : State} (h : OnlyCounts s t) (k : OnlyCounts t u) : OnlyCounts s u := by
  unfold OnlyCounts at *
  rw [k, h]

theorem onlyCounts_touchPage (c x : Nat) (q : Tlb × Bool) (s : State) : OnlyCounts s (touchPage c x q s) := by
  unfold touchPage
  extract_lets e miss fill t
  have ht : OnlyCounts s t := by
    simp only [t, fill]
    split
    · split <;> rfl
    · rfl
  clear_value t
  split
  · exact ht.trans rfl
  · exact ht

theorem onlyCounts_touchPages (c x : Nat) (es : List (Tlb × Bool)) (s : State) : OnlyCounts s (touchPages c x es s) := by
  unfold touchPages
  induction es generalizing s with
  | nil => rfl
  | cons q r ih => exact (onlyCounts_touchPage c x q s).trans (ih _)

theorem onlyCounts_touchAddrs (w : Who) (al : Nat) (vas : List Nat) (s : State) : OnlyCounts s (touchAddrs w al vas s) := by
  unfold touchAddrs touchWith
  dsimp only
  split
  · exact onlyCounts_touchPages ..
  · exact OnlyCounts.trans (t := countEv ..) rfl (onlyCounts_touchPages ..)

theorem onlyCounts_request (c x g n : Nat) (s : State) : OnlyCounts s (request c x g n s) := by
  unfold request
  extract_lets C k t
  split
  · rfl
  · split <;> rfl

/-- Putting a watchpoint back in force does not look at what is counted (R365). -/
theorem OnlyCounts.rearm {s t : State} (h : OnlyCounts s t) (p : Site) : OnlyCounts (p.rearm s) (p.rearm t) := by
  rw [h]
  unfold Site.rearm
  split <;> rfl

section
variable {s : State} {p : Site} {n : Nat} {as : List DWord} {accs : List (Nat × Acc)}

theorem readsAlike_accessed : ReadsAlike s (accessed p n as accs s) :=
  ((readsAlike_touchAddrs ..).trans (readsAlike_rearm ..)).trans (readsAlike_request ..)

/-- An access that passes its checks changes the watchpoint that was ignored once, and what is counted. -/
theorem onlyCounts_accessed : OnlyCounts (p.rearm s) (accessed p n as accs s) :=
  ((onlyCounts_touchAddrs ..).rearm p).trans (onlyCounts_request ..)

/-- The groups are then those of the state with that watchpoint back in force. -/
theorem accessed_groups : (accessed p n as accs s).groups = (p.rearm s).groups := by
  rw [onlyCounts_accessed (p := p) (s := s)]

/-- Outside its groups, nothing but what is counted is another. -/
theorem accessed_eq : accessed p n as accs s = { s with
    cores := (accessed p n as accs s).cores, pageCnt := (accessed p n as accs s).pageCnt, ctxs := (accessed p n as accs s).ctxs,
    groups := (accessed p n as accs s).groups } := by
  refine Eq.trans (onlyCounts_accessed (p := p) (s := s)) ?_
  rw [accessed_groups]
  unfold Site.rearm
  split <;> rfl

/-- Every other group is as it was. -/
theorem accessed_groups_other {k : Nat} (hk : k ≠ p.g) : (accessed p n as accs s).groups[k]? = s.groups[k]? := by
  rw [accessed_groups]
  unfold Site.rearm
  split
  · simp [State.updSide, State.updGroup, modifyAt_getElem?, hk]
  · rfl

/-- Where no group holds a store back, lanes that load make none be performed (R219). -/
theorem reachLanes_accessed_idle (hheld : ∀ G ∈ s.groups, G.wbuf = []) :
    reachLanes p false n accs (accessed p n as accs s) = accessed p n as accs s := by
  have hidle : ∀ b ∈ (accessed p n as accs s).groups.map Group.wbuf, b = [] := by
    rw [readsAlike_accessed.held]
    exact List.forall_mem_map.mpr hheld
  exact foldl_fixed _ _ (fun _ => reach_idle _ _ _ _ (List.forall_mem_map.mp hidle)) _

/-- Of every group at most its sides, and of a side at most the watchpoint that it ignores once, are others. -/
theorem accessed_side {g sd : Nat} {G : Group} {S : Side} (hG : s.groups[g]? = some G) (hS : G.sides[sd]? = some S) :
    ∃ l w, (accessed p n as accs s).groups[g]? = some { G with sides := l } ∧ l[sd]? = some { S with skipWatch := w } := by
  rw [accessed_groups]
  unfold Site.rearm
  split
  · by_cases hg : g = p.g
    · subst hg
      refine ⟨_, if sd = p.sd then none else S.skipWatch, updSide_groups _ _ _ _ _ hG, ?_⟩
      rw [modifyAt_getElem?, hS]
      split <;> rfl
    · refine ⟨G.sides, S.skipWatch, ?_, hS⟩
      simp [State.updSide, State.updGroup, modifyAt_getElem?, hg, hG]
  · exact ⟨G.sides, S.skipWatch, hG, hS⟩

end

/-! ### Steps that touch no byte and one group at most -/

/-- Storage is the same, every byte loads the same to every context, and every group but g is as it was. -/
structure KeepsBytes (g : Nat) (s t : State) : Prop extends SameStorage s t where
  loads : ∀ x a, loadByte t x a = loadByte s x a
  others : ∀ k, k ≠ g → t.groups[k]? = s.groups[k]?

theorem KeepsBytes.refl (g : Nat) (s : State) : KeepsBytes g s s := ⟨.refl s, fun _ _ => rfl, fun _ _ => rfl⟩

theorem KeepsBytes.trans {g : Nat} {s t u : State} (h : KeepsBytes g s t) (k : KeepsBytes g t u) : KeepsBytes g s u :=
  ⟨h.toSameStorage.trans k.toSameStorage, fun x a => (k.loads x a).trans (h.loads x a), fun j hj => (k.others j hj).trans (h.others j hj)⟩

/-- A change of the group itself. -/
theorem keepsBytes_updGroup (s : State) (g : Nat) (f : Group → Group) : KeepsBytes g s (s.updGroup g f) :=
  ⟨⟨rfl, rfl, rfl, rfl, rfl, rfl⟩, fun _ _ => rfl, fun k hk => by simp [State.updGroup, modifyAt_getElem?, hk]⟩

/-- The counting of a free value. -/
theorem keepsBytes_tick (g : Nat) (s : State) : KeepsBytes g s s.tick := ⟨⟨rfl, rfl, rfl, rfl, rfl, rfl⟩, fun _ _ => rfl, fun _ _ => rfl⟩

section
variable {s : State} {p : Site} {n : Nat}

theorem keepsBytes_accessed (as : List DWord) (accs : List (Nat × Acc)) : KeepsBytes p.g s (accessed p n as accs s) :=
  ⟨readsAlike_accessed.toSameStorage, readsAlike_accessed.loadByte_eq, fun _ hk => accessed_groups_other hk⟩

theorem keepsBytes_define (vs : List Val) : KeepsBytes p.g s (define p vs s) := keepsBytes_updGroup ..

theorem keepsBytes_advance : KeepsBytes p.g s (advance p s) := keepsBytes_updGroup ..

theorem keepsBytes_gate (ops : List GOp) : KeepsBytes p.g s (gate p ops s) := keepsBytes_updGroup ..

theorem keepsBytes_acquire (g : Nat) (m : Mask) (mask : BitVec 3) (sc : Nat) : KeepsBytes g s (acquire g m mask sc s) := keepsBytes_updGroup ..

theorem keepsBytes_dropLanes (accs : List (Nat × Acc)) : KeepsBytes p.g s (dropLanes p n accs s) := by
  unfold dropLanes
  induction accs generalizing s with
  | nil => exact .refl p.g s
  | cons e r ih => exact (keepsBytes_updGroup ..).trans ih

/-- Once what is owed to its lanes has been performed, a load changes only what its group has read early (R214, R219). -/
theorem keepsBytes_loadNow (free : State → Bool) (accs : List (Nat × Acc)) :
    KeepsBytes p.g (reachLanes p false n accs s) (loadNow p n free accs s).2 := by
  simp only [loadNow]
  split
  · exact .refl _ _
  · split
    · exact (keepsBytes_updGroup ..).trans (keepsBytes_tick ..)
    · exact keepsBytes_dropLanes accs

end

/-! ### Loads and stores whose accesses pass their checks (R254, R256) -/

section
variable {s : State} {p : Site} {h : BitVec 2} {sc : BitVec 3} {t : Ty} {ds : Bool} {m : MemOp} {as : List DWord} {accs : List (Nat × Acc)}

theorem exec_ld_of_passes (hp : site? s = some p) (ha : memLanes s p m = some as)
    (hpass : Passes s p (Ty.bytes t) (spaceMask ds) true false as accs) :
    exec (.ld h t ds m) s = .next (defineBits p
      (loadNow p (Ty.bytes t) (fun s => freeAddr s p m) accs (accessed p (Ty.bytes t) as accs s)).1
      (loadNow p (Ty.bytes t) (fun s => freeAddr s p m) accs (accessed p (Ty.bytes t) as accs s)).2) := by
  change loadInstr s t (spaceMask ds) m none = _
  rw [loadInstr, portable_eq hp]
  simp only [ha]
  exact congrArg _ (access_of_passes hpass)

theorem exec_ldacq_of_passes (hp : site? s = some p) (ha : memLanes s p m = some as)
    (hpass : Passes s p (Ty.bytes t) (spaceMask ds) true false as accs) :
    exec (.ldacq h sc t ds m) s = .next (defineBits p
      (loadNow p (Ty.bytes t) (fun _ => false) accs (accessed p (Ty.bytes t) as accs s)).1
      (acquire p.g p.mask (spaceMask ds) sc.toNat
        (loadNow p (Ty.bytes t) (fun _ => false) accs (accessed p (Ty.bytes t) as accs s)).2)) := by
  change loadInstr s t (spaceMask ds) m (some sc) = _
  rw [loadInstr, portable_eq hp]
  simp only [ha]
  exact congrArg _ (access_of_passes hpass)

variable {v : Opnd} {vs : List DWord}

theorem exec_st_of_passes (hp : site? s = some p) (ha : memLanes s p m = some as) (hv : opndBits s p t v = some vs)
    (hpass : Passes s p (Ty.bytes t) (spaceMask ds) false true as accs) :
    exec (.st h t ds m v) s = .next (advance p (gate p (storeOps (Ty.bytes t) accs vs .store)
      (dropLanes p (Ty.bytes t) accs (accessed p (Ty.bytes t) as accs s)))) := by
  change storeInstr s t (spaceMask ds) m v .store = _
  rw [storeInstr, portable_eq hp]
  simp only [ha, hv]
  exact congrArg _ (access_of_passes hpass)

theorem exec_strel_of_passes (hp : site? s = some p) (ha : memLanes s p m = some as) (hv : opndBits s p t v = some vs)
    (hpass : Passes s p (Ty.bytes t) (spaceMask ds) false true as accs) :
    exec (.strel h sc t ds m v) s = .next (advance p (gate p
      (storeOps (Ty.bytes t) accs vs (fun l a bs => .relStore l a bs (spaceMask ds) sc))
      (dropLanes p (Ty.bytes t) accs (accessed p (Ty.bytes t) as accs s)))) := by
  change storeInstr s t (spaceMask ds) m v (fun l a bs => .relStore l a bs (spaceMask ds) sc) = _
  rw [storeInstr, portable_eq hp]
  simp only [ha, hv]
  exact congrArg _ (access_of_passes hpass)

/-- A load completes, and beyond the performing of what is owed to its lanes it keeps every byte and every other group. -/
theorem exec_load_keepsBytes (hp : site? s = some p) (ha : memLanes s p m = some as)
    (hpass : Passes s p (Ty.bytes t) (spaceMask ds) true false as accs) {i : Instr} (hi : i = .ld h t ds m ∨ i = .ldacq h sc t ds m) :
    ∃ u, exec i s = .next u ∧ KeepsBytes p.g (reachLanes p false (Ty.bytes t) accs (accessed p (Ty.bytes t) as accs s)) u := by
  obtain rfl | rfl := hi
  · exact ⟨_, exec_ld_of_passes hp ha hpass, (keepsBytes_loadNow ..).trans (keepsBytes_define ..)⟩
  · exact ⟨_, exec_ldacq_of_passes hp ha hpass, ((keepsBytes_loadNow ..).trans (keepsBytes_acquire ..)).trans (keepsBytes_define ..)⟩

/-- A store completes, and keeps every byte and every other group. -/
theorem exec_store_keepsBytes (hp : site? s = some p) (ha : memLanes s p m = some as) (hv : opndBits s p t v = some vs)
    (hpass : Passes s p (Ty.bytes t) (spaceMask ds) false true as accs) {i : Instr}
    (hi : i = .st h t ds m v ∨ i = .strel h sc t ds m v) : ∃ u, exec i s = .next u ∧ KeepsBytes p.g s u := by
  have hdrop := (keepsBytes_accessed (s := s) (p := p) (n := Ty.bytes t) as accs).trans (keepsBytes_dropLanes (n := Ty.bytes t) accs)
  obtain rfl | rfl := hi
  · exact ⟨_, exec_st_of_passes hp ha hv hpass, (hdrop.trans (keepsBytes_gate ..)).trans keepsBytes_advance⟩
  · exact ⟨_, exec_strel_of_passes hp ha hv hpass, (hdrop.trans (keepsBytes_gate ..)).trans keepsBytes_advance⟩

end

/-- Settles O13: an access that has passed its checks has changed counters, caches and one watchpoint; what a load or a store then does is
a change of its own group. -/
theorem loadAndStoreFrame : Obligations.LoadAndStoreFrame := by
  unfold Obligations.LoadAndStoreFrame
  refine ⟨fun p n as accs s => ?checks, fun s p hp h sc t ds m v as vs accs ha hv => ⟨fun i hi => ?load, fun i hi => ?store⟩⟩
  case checks =>
    have hseen : ReadsAlike s (accessed p n as accs s) := readsAlike_accessed
    have hrest := accessed_eq (s := s) (p := p) (n := n) (as := as) (accs := accs)
    refine ⟨hseen.toSameStorage, hseen.loadByte_eq, by rw [hrest], by rw [hrest], by rw [hrest], by rw [hrest], by rw [hrest], by rw [hrest],
      by rw [hrest], fun g sd G S hG hS => ?_⟩
    obtain ⟨l, w, hG', hS'⟩ := accessed_side (p := p) (n := n) (as := as) (accs := accs) hG hS
    exact ⟨_, _, hG', hS', rfl, rfl, rfl, rfl, rfl, rfl, rfl, rfl, rfl, rfl⟩
  case load =>
    obtain ⟨hi, hpass⟩ := hi
    obtain ⟨u, hu, hkeeps⟩ := exec_load_keepsBytes hp ha hpass hi
    refine ⟨u, hu, ⟨hkeeps.toSameStorage, hkeeps.loads, hkeeps.others⟩, fun hheld => ?_⟩
    rw [reachLanes_accessed_idle hheld] at hkeeps
    have hall := (keepsBytes_accessed as accs).trans hkeeps
    exact ⟨hall.toSameStorage, hall.loads, hall.others⟩
  case store =>
    have hkeep : ∃ u, exec i s = .next u ∧ KeepsBytes p.g s u := by
      obtain ⟨hi, hpass⟩ | rfl := hi
      · exact exec_store_keepsBytes hp ha hv hpass hi
      · exact ⟨_, exec_prefetch_eq hp ha ds, keepsBytes_advance⟩
    obtain ⟨u, hu, hkeeps⟩ := hkeep
    exact ⟨u, hu, hkeeps.toSameStorage, hkeeps.loads, hkeeps.others⟩

end Sys2Proof.Machine

namespace Sys2Proof.Machine
open Sys2Proof

/-! ### What loads give where nothing is held back and nothing was read early (R214, R254) -/

section
variable {s : State} {p : Site} {n : Nat}

/-- The lanes' loads are then the values now. -/
theorem Settled.loadNow_eq (hs : Settled p.g s) (free : State → Bool) (accs : List (Nat × Acc)) :
    loadNow p n free accs s = (loadLanes s p n accs, s) := by
  have hnone : (s.groups[p.g]?).all (fun G => G.early.isEmpty) = true := by
    cases hG : s.groups[p.g]? with
    | none => rfl
    | some G => simp [hs.early G hG]
  simp only [loadNow, hs.reachLanes_eq, hnone, if_true]

/-- A lane with an access loads the bytes there: its own latest gated store, else storage. -/
theorem Settled.loadLanes_nth (hs : Settled p.g s) {accs : List (Nat × Acc)} {l : Nat} {a : Acc} (hl : l < 128) (ha : accAt accs l = some a) :
    nth (.bits 0) ((loadLanes s p n accs).map Val.bits) l = .bits (laneWord s p.ctx p.side.gated l a.key n) := by
  simp [nth, loadLanes, hl, ha, hs.ownOps_eq]

/-- The word that a lane reads is of what loads read. -/
theorem ReadsAlike.laneWord_eq {s t : State} (h : ReadsAlike s t) (x : Nat) (ops : List GOp) (l a n : Nat) :
    laneWord t x ops l a n = laneWord s x ops l a n := by
  rw [laneWord, laneWord, h.laneBytes_eq]

/-- A side whose innermost frame is the site's has, once vs are defined there, the frame that defines them. -/
theorem define_frame {G : Group} {S : Side} (hG : s.groups[p.g]? = some G) (hS : G.sides[p.sd]? = some S)
    (hF : ∃ r, S.core.frames = p.fr :: r) (vs : List Val) :
    ∃ G S, (define p vs s).groups[p.g]? = some G ∧ G.sides[p.sd]? = some S ∧
      S.core.frames.head? = some (p.fr.define p.mask vs p.len) := by
  obtain ⟨r, hr⟩ := hF
  refine ⟨_, { S with core := S.core.onFrame (Frame.define p.mask vs p.len) }, updSide_groups _ _ _ _ _ hG, ?_, ?_⟩
  · rw [modifyAt_getElem?, if_pos rfl, hS]
    rfl
  · simp only [SideCore.onFrame, hr, List.head?_cons]

/-- An acquire takes early reads from the group only (R216). -/
theorem acquire_group {G : Group} {g : Nat} (hG : s.groups[g]? = some G) (m : Mask) (mask : BitVec 3) (sc : Nat) :
    ∃ e, (acquire g m mask sc s).groups[g]? = some { G with early := e } := by
  refine ⟨G.early.filter (fun r => !(m.getLsbD r.lane && (keySpace r.a).inMask mask
    && (decide (r.wrote ≤ sc) || owedTo s g r.lane r.a r.bs.length sc))), ?_⟩
  simp [acquire, State.updGroup, modifyAt_getElem?, hG]

end

section
variable {s : State} {p : Site} {h : BitVec 2} {sc : BitVec 3} {t : Ty} {ds : Bool} {m : MemOp} {as : List DWord} {accs : List (Nat × Acc)}

/-- Where no group holds a store back and the group has read nothing early, a load defines what its lanes load now, in a state whose
groups are those after the checks, or after an acquire that follows them. -/
theorem exec_load_of_settled (hp : site? s = some p) (hs : Settled p.g (accessed p (Ty.bytes t) as accs s)) (ha : memLanes s p m = some as)
    (hpass : Passes s p (Ty.bytes t) (spaceMask ds) true false as accs) {i : Instr} (hi : i = .ld h t ds m ∨ i = .ldacq h sc t ds m) :
    ∃ v, (v = accessed p (Ty.bytes t) as accs s ∨
        v = acquire p.g p.mask (spaceMask ds) sc.toNat (accessed p (Ty.bytes t) as accs s)) ∧
      exec i s = .next (defineBits p (loadLanes (accessed p (Ty.bytes t) as accs s) p (Ty.bytes t) accs) v) := by
  obtain rfl | rfl := hi
  · exact ⟨_, .inl rfl, by rw [exec_ld_of_passes hp ha hpass, hs.loadNow_eq]⟩
  · exact ⟨_, .inr rfl, by rw [exec_ldacq_of_passes hp ha hpass, hs.loadNow_eq]⟩

end

/-- Settles O9: an access that passes its checks goes on with its lanes; where nothing is held back or read early, each lane's value is
what it reads now, and the innermost frame of the issuing side defines it. -/
theorem loadAndStoreResults : Obligations.LoadAndStoreResults := by
  unfold Obligations.LoadAndStoreResults
  refine ⟨fun s p hp h sc t ds m as accs ha => ⟨fun hpass => ⟨exec_ld_of_passes hp ha hpass, exec_ldacq_of_passes hp ha hpass⟩,
    fun v vs hv hpass => ⟨exec_st_of_passes hp ha hv hpass, exec_strel_of_passes hp ha hv hpass⟩⟩,
    fun s p hp hheld hearly h sc t ds m as accs ha hpass i hi => ?now⟩
  case now =>
    obtain ⟨-, hg, hside, hframe, -⟩ := site?_some hp
    have hseen : ReadsAlike s (accessed p (Ty.bytes t) as accs s) := readsAlike_accessed
    have hsettled := hseen.settled ⟨hheld, fun G hG => by rw [hg] at hG; cases hG; exact hearly⟩
    obtain ⟨v, hv, hexec⟩ := exec_load_of_settled hp hsettled ha hpass hi
    obtain ⟨l, w, hG, hS⟩ := accessed_side (p := p) (n := Ty.bytes t) (as := as) (accs := accs) hg hside
    have hkeeps : KeepsBytes p.g s v := by
      obtain rfl | rfl := hv
      · exact keepsBytes_accessed ..
      · exact (keepsBytes_accessed ..).trans (keepsBytes_acquire ..)
    have hgroup : ∃ e, v.groups[p.g]? = some { p.grp with sides := l, early := e } := by
      obtain rfl | rfl := hv
      · exact ⟨_, hG⟩
      · exact acquire_group hG ..
    obtain ⟨e, hG'⟩ := hgroup
    refine ⟨_, _, _, hexec, (hkeeps.trans (keepsBytes_define ..)).toSameStorage, define_frame hG' hS hframe _, definesIn_define p _,
      fun k hk _ a hka => ?_⟩
    rw [hsettled.loadLanes_nth hk hka, hseen.laneWord_eq]

/-! ### Accesses that fail their checks (R194, R199, R200) -/

/-- An access that fails its checks takes the fault of its lowest failing lane, with its pages counted. -/
theorem access_of_error {s : State} {p : Site} {n : Nat} {mask : BitVec 3} {rd wr : Bool} {as : List DWord} {i : Nat} {c : Cause}
    (h : checkLanes s p n n mask rd wr as = .error (i, c)) (k : List (Nat × Acc) → State → State) :
    access p n n mask rd wr as k s = faultAt p.g p.sd c p.pc (some i) (nth 0 as i) (p.touch n as s) := by
  simp only [access, h]
  rfl

section
variable {s : State} {p : Site} {t : Ty} {ds : Bool} {m : MemOp} {as : List DWord} {i : Nat} {c : Cause}

theorem loadInstr_of_error (hp : site? s = some p) (ha : memLanes s p m = some as)
    (hbad : checkLanes s p (Ty.bytes t) (Ty.bytes t) (spaceMask ds) true false as = .error (i, c)) (acq : Option (BitVec 3)) :
    loadInstr s t (spaceMask ds) m acq = .next (faultAt p.g p.sd c p.pc (some i) (nth 0 as i) (p.touch (Ty.bytes t) as s)) := by
  rw [loadInstr, portable_eq hp]
  simp only [ha, access_of_error hbad]

variable {v : Opnd} {vs : List DWord}

theorem storeInstr_of_error (hp : site? s = some p) (ha : memLanes s p m = some as) (hv : opndBits s p t v = some vs)
    (hbad : checkLanes s p (Ty.bytes t) (Ty.bytes t) (spaceMask ds) false true as = .error (i, c))
    (op : Nat → Nat → List Byte → GOp) :
    storeInstr s t (spaceMask ds) m v op = .next (faultAt p.g p.sd c p.pc (some i) (nth 0 as i) (p.touch (Ty.bytes t) as s)) := by
  rw [storeInstr, portable_eq hp]
  simp only [ha, hv, access_of_error hbad]

theorem execAtom_of_error (hp : site? s = some p) (ha : memLanes s p m = some as) (hv : opndBits s p t v = some vs)
    (hbad : checkLanes s p (Ty.bytes t) (Ty.bytes t) (spaceMask ds) true true as = .error (i, c)) (op : AtomOp) (k : AtomKind)
    (sc : BitVec 3) :
    execAtom op k sc t ds m v s = .next (faultAt p.g p.sd c p.pc (some i) (nth 0 as i) (p.touch (Ty.bytes t) as s)) := by
  rw [execAtom, portable_eq hp]
  simp only [ha, hv, atomInstr, access_of_error hbad]

end

/-- Settles O10: each instruction is an access, and an access that fails its checks takes the fault of its lowest failing lane. -/
theorem accessFaults : Obligations.AccessFaults := by
  unfold Obligations.AccessFaults
  intro s p hp h sc t ds m as i c ha
  refine ⟨fun hbad => ⟨?ld, ?ldacq⟩, fun v vs hv hbad => ⟨?st, ?strel⟩, fun op k v vs hv hbad => ?atom⟩
  case ld => exact loadInstr_of_error hp ha hbad none
  case ldacq => exact loadInstr_of_error hp ha hbad (some sc)
  case st => exact storeInstr_of_error hp ha hv hbad .store
  case strel => exact storeInstr_of_error hp ha hv hbad (fun l a bs => .relStore l a bs (spaceMask ds) sc)
  case atom => exact execAtom_of_error hp ha hv hbad op k sc

end Sys2Proof.Machine

namespace Sys2Proof.Machine
open Sys2Proof

/-! ### Messages of the host port (R211, R225, R360) -/

/-- A message of context x that arrives, with all of its parts still to be performed. -/
def arrivedMsg (x a n : Nat) (data : Option (List Byte)) : Msg :=
  { ctx := x, a := a, n := n, data := data, rest := List.range (hostParts a n).length, got := [] }

/-- The state with a message behind those that have arrived. -/
def posted (M : Msg) (s : State) : State := { s with msgs := s.msgs ++ [M] }

section
variable {s : State} {x n : Nat} {va : DWord} {bs : List Byte} {M : Msg}

theorem posted_last (s : State) (M : Msg) : (posted M s).msgs[s.msgs.length]? = some M := List.getElem?_concat_length

/-- Behind a message of its context, a message waits for its turn. -/
theorem postMsg_of_turn (h : (turnMsg s M.ctx).isSome = true) : postMsg M s = posted M s := by
  obtain ⟨i, hi⟩ := Option.isSome_iff_exists.mp h
  simp only [postMsg, hi]
  rfl

/-- Without one it begins at once. -/
theorem postMsg_of_none (h : turnMsg s M.ctx = none) : postMsg M s = stepMsg false s.msgs.length (posted M s) := by
  simp only [postMsg, h]
  rfl

/-- The one part of a message is the part that a step performs. -/
theorem pickParts_single (fresh : Nat) (whole : Bool) (k : Nat) : pickParts fresh whole [k] = [k] := by
  simp [pickParts]

/-- A message of one part is performed whole by its first step: a write leaves it, a read is answered with what the part obtains. -/
theorem stepMsg_arrived_single {whole : Bool} {i a : Nat} {data : Option (List Byte)} {q : Nat × Nat}
    (hi : s.msgs[i]? = some (arrivedMsg x a n data)) (hq : hostParts a n = [q]) :
    stepMsg whole i s = answerMsg
      { arrivedMsg x a n data with
        rest := [], got := if data.isSome then [] else [(0, (msgPart (arrivedMsg x a n data) q s.tick).2)] }
      { (msgPart (arrivedMsg x a n data) q s.tick).1 with msgs := (msgPart (arrivedMsg x a n data) q s.tick).1.msgs.eraseIdx i } := by
  have hrest : (arrivedMsg x a n data).rest = [0] := by simp only [arrivedMsg, hq]; rfl
  have hps : hostParts (arrivedMsg x a n data).a (arrivedMsg x a n data).n = [q] := hq
  simp only [stepMsg, hi, hrest, hps, pickParts_single]
  rfl

/-- A read of one part is answered with it. -/
theorem answerMsg_single {a : Nat} {q : Nat × Nat} {b : List Byte} (hq : hostParts a n = [q]) (t : State) :
    answerMsg { arrivedMsg x a n none with rest := [], got := [(0, b)] } t = { t with replies := { kind := 0x52, bytes := b } :: t.replies } := by
  have hone : (List.range (hostParts a n).length).flatMap (fun i => (([(0, b)].find? (fun e => decide (e.1 = i))).map (·.2)).getD []) = b := by
    simp [hq]
  exact congrArg (fun b => { t with replies := { kind := 0x52, bytes := b } :: t.replies }) hone

/-- A write that the page tables allow arrives as a message. -/
theorem exec_hostRdmaWrite_of_mapped (hbs : bs ≠ []) (hx : x ≠ 0) (hreg : regionCtx s x = true)
    (hmap : rangeMapped s x va.toNat bs.length true = true) :
    exec (.hostRdmaWrite x va bs) s = .next (postMsg (arrivedMsg x va.toNat bs.length (some bs)) s) := by
  have hgo : ¬((!regionCtx s x) = true ∨ (!rangeMapped s x va.toNat bs.length true) = true) := by simp [hreg, hmap]
  change execHostRdmaWrite x va bs s = _
  simp only [execHostRdmaWrite, if_neg hbs, if_neg hx, if_neg hgo]
  rfl

theorem exec_hostRdmaRead_of_mapped (hx : x ≠ 0) (hreg : regionCtx s x = true) (hmap : rangeMapped s x va.toNat n false = true) :
    exec (.hostRdmaRead x va n) s = .next (postMsg (arrivedMsg x va.toNat n none) s) := by
  have hgo : ¬((!regionCtx s x) = true ∨ (!rangeMapped s x va.toNat n false) = true) := by simp [hreg, hmap]
  change execHostRdmaRead x va n s = _
  simp only [execHostRdmaRead, if_neg hx, if_neg hgo]
  rfl

/-! ### The control space through its region (R347, R360, R377) -/

theorem exec_hostRdmaWrite_control (hbs : bs ≠ []) (hfit : va.toNat + bs.length ≤ 0x20000000) :
    exec (.hostRdmaWrite 0 va bs) s = .next (writeRegs bs.length va.toNat bs s) := by
  change execHostRdmaWrite 0 va bs s = _
  simp only [execHostRdmaWrite, if_neg hbs, if_true, if_neg (Nat.not_lt.mpr hfit)]

/-- A read that stays clear of PWRSTAT samples nothing. -/
theorem controlSampled_of_clear {o : Nat} (h : 0x30020 ≤ o ∨ o + n ≤ 0x30008) : controlSampled o n s = s := if_neg (by omega)

/-- And starts nothing afresh. -/
theorem controlAfter_of_clear {o : Nat} (h : 0x30020 ≤ o ∨ o + n ≤ 0x30008) : controlAfter o n s = s := if_neg (by omega)

theorem exec_hostRdmaRead_control (hfit : va.toNat + n ≤ 0x20000000) (hclear : 0x30020 ≤ va.toNat ∨ va.toNat + n ≤ 0x30008) :
    exec (.hostRdmaRead 0 va n) s = .next (answer 0x52 ((List.range n).map (fun i => controlByte s (va.toNat + i))) s) := by
  change execHostRdmaRead 0 va n s = _
  simp only [execHostRdmaRead, if_true, readControlSpace, if_neg (Nat.not_lt.mpr hfit), controlSampled_of_clear hclear,
    controlAfter_of_clear hclear]

/-! ### Atomics of the host port (R310) -/

/-- The state in which an atomic of the host port reads its word at key k: its context's messages performed, then what is owed to it. -/
def atomicReached (x k : Nat) (s : State) : State := reach .outside true k 8 (drainMsgs x s)

/-- An atomic of the host port whose page is mapped and whose word it may write. -/
structure HostAtomic (s : State) (x : Nat) (va : DWord) (k : Nat) : Prop where
  region : regionCtx s x = true
  aligned : va.toNat % 8 = 0
  mapped : ctxKey (drainMsgs x s) x va.toNat true = some k
  shown : hiddenLine (atomicReached x k s) x k = false
  word : noHeader (atomicReached x k s) x k 8 = true

/-- The answer of the old word, which context x reads at key k. -/
def atomicAnswer (old : DWord) (s : State) : State := { s with replies := { kind := 0x53, bytes := leBytes 8 old.toNat } :: s.replies }

/-- What an atomic leaves that finds old: the answer, once its new word w, where there is one, has been written. -/
def atomicDone (x k : Nat) (va old : DWord) (w : Option DWord) (s : State) : State :=
  match w with
  | none => atomicAnswer old s
  | some w => atomicAnswer old (hostWrote x va.toNat 8 (storeWord x k w s))

variable {k : Nat} {v : DWord}

/-- The word that an atomic writes over the old one: the sum, or v where the old word is the one that it compares with. -/
def atomicNew (cmp : Option DWord) (v old : DWord) : Option DWord :=
  match cmp with
  | none => some (old + v)
  | some c => if old = c then some v else none

theorem atomicNew_of_eq {c old : DWord} (h : old = c) : atomicNew (some c) v old = some v := if_pos h

theorem atomicNew_of_ne {c old : DWord} (h : old ≠ c) : atomicNew (some c) v old = none := if_neg h

/-- It writes its new word, where there is one, and is answered with the old word. -/
theorem HostAtomic.exec_of_new (h : HostAtomic s x va k) {cmp w : Option DWord}
    (hw : atomicNew cmp v (loadWord (atomicReached x k s) x k) = w) :
    exec (.hostRdmaAtomic x va cmp v) s =
      .next (atomicDone x k va (loadWord (atomicReached x k s) x k) w (atomicReached x k s)) := by
  subst hw
  obtain ⟨hregion, halign, hmap, hshown, hword⟩ := h
  have hgo : ¬((!regionCtx s x) = true ∨ va.toNat % 8 ≠ 0) := by simp [hregion, halign]
  rw [atomicReached] at hshown hword
  change execHostRdmaAtomic x va cmp v s = _
  simp only [execHostRdmaAtomic, if_neg hgo, hmap, hshown, hword, Bool.not_true, Bool.false_eq_true, if_false, atomicReached]
  rfl

/-! ### Pages (R199, R356) -/

/-- A page that may migrate moves to a free frame of the die. -/
theorem exec_pageMigration_of_frame {d pa : Nat} {l : Leaf} (hl : walk s x va.toNat = some l) (hmay : mayMigrate s x d l = true)
    (hpa : pickFrame s d l.size = some pa) : exec (.pageMigration x va d) s = .next (movePage x l pa s).tick := by
  change execPageMigration x va d s = _
  simp only [execPageMigration, hl, hmay, hpa, Bool.not_true, Bool.false_eq_true, if_false]

end

/-- Settles O48: a message arrives and waits or begins; the control space answers at once; an atomic acts on what it reaches; a page moves
to its frame. -/
theorem hostAndPageEvents : Obligations.HostAndPageEvents := by
  unfold Obligations.HostAndPageEvents
  intro s x va
  refine ⟨fun bs hbs hx hreg hmap => ⟨fun hturn => ?queued, fun hnone => ⟨?begun, fun hone => ?single⟩⟩,
    fun n hx hreg hmap => ⟨fun hturn => ?readQueued, fun hnone => ⟨?readBegun, fun hone => ?readSingle⟩⟩,
    fun bs hbs hfit => exec_hostRdmaWrite_control hbs hfit, fun n hfit hclear => exec_hostRdmaRead_control hfit hclear,
    fun k v hreg halign hmap hshown hword => ?atomic, fun d l pa hl hmay hpa => exec_pageMigration_of_frame hl hmay hpa, rfl⟩
  case queued => rw [exec_hostRdmaWrite_of_mapped hbs hx hreg hmap, postMsg_of_turn hturn]; rfl
  case begun => rw [exec_hostRdmaWrite_of_mapped hbs hx hreg hmap, postMsg_of_none hnone]; rfl
  case single =>
    rw [exec_hostRdmaWrite_of_mapped hbs hx hreg hmap, postMsg_of_none hnone, stepMsg_arrived_single (posted_last ..) hone]
    rfl
  case readQueued => rw [exec_hostRdmaRead_of_mapped hx hreg hmap, postMsg_of_turn hturn]; rfl
  case readBegun => rw [exec_hostRdmaRead_of_mapped hx hreg hmap, postMsg_of_none hnone]; rfl
  case readSingle =>
    rw [exec_hostRdmaRead_of_mapped hx hreg hmap, postMsg_of_none hnone, stepMsg_arrived_single (posted_last ..) hone]
    exact congrArg _ (answerMsg_single hone _)
  case atomic =>
    have h : HostAtomic s x va k := ⟨hreg, halign, hmap, hshown, hword⟩
    exact ⟨h.exec_of_new rfl, fun c => ⟨fun heq => h.exec_of_new (atomicNew_of_eq heq), fun hne => h.exec_of_new (atomicNew_of_ne hne)⟩⟩

end Sys2Proof.Machine

namespace Sys2Proof.Machine
open Sys2Proof

/-! ### Context slots (R202, R352, R357) -/

section
variable {s : State} {x : Nat}

theorem exec_contextCreate_of_free (hfree : slotIs s x .free = true) (w : BitVec 512) :
    exec (.contextCreate x w) s = .next (writeFree x w true s) := congrArg _ (if_pos hfree)

/-- A running context ends, and its holds are dropped (R352, R376). -/
theorem endSlot_of_running (hrun : slotIs s x .live = true ∨ slotIs s x .halted = true) :
    endSlot x s = { endContext x s with
      ctxs := modifyAt (fun C => { C with hhalt := false, shalt := false }) (endContext x s).ctxs x } :=
  if_pos (Bool.or_eq_true_iff.mpr hrun)

theorem exec_seedChange_of_running (hrun : slotIs s x .live = true ∨ slotIs s x .halted = true) (w : Word) :
    exec (.seedChange x w) s = .next (changeSeed x w s) := congrArg _ (if_pos (Bool.or_eq_true_iff.mpr hrun))

/-- What stays of the module once nothing of context x does: its granules cleared, its work dropped, its slot free. -/
def withoutContext (x : Nat) (s : State) : State :=
  { clearOwner x s with
    engs := (clearOwner x s).engs.filter (fun E => decide (E.ctx ≠ x)),
    walks := (clearOwner x s).walks.filter (fun W => decide (W.ctx ≠ x)),
    frames := (clearOwner x s).frames.filter (fun f => decide (f.1 ≠ x)),
    msgs := (clearOwner x s).msgs.filter (fun m => decide (m.ctx ≠ x)),
    objs := (clearOwner x s).objs.map (Obj.without x),
    cores := (clearOwner x s).cores.map (fun C => { C with tlb := C.tlb.filter (fun t => decide (t.ctx ≠ x)) }),
    ctxs := modifyAt (fun C => { C with st := .free, dbg := false, newSeed := none, pool := [], seqs := [] }) (clearOwner x s).ctxs x }

theorem exec_contextFree_of_drained (hend : slotIs s x .ending = true) (hdrained : ctxDrained s x = true) :
    exec (.contextFree x) s = .next (reclaim (withoutContext x s)) :=
  congrArg _ (if_pos (Bool.and_eq_true_iff.mpr ⟨hend, hdrained⟩))

/-- TLBINV written with GO runs, unless an invalidation does. -/
theorem exec_tlbInvalidate_of_idle (hidle : s.tlbinv.run = none) (w : BitVec 128) :
    exec (.tlbInvalidate w) s = .next { s with tlbinv := { s.tlbinv.fields (w ||| 0x80) with
      run := some ((s.tlbinv.fields (w ||| 0x80)).ctx, (s.tlbinv.fields (w ||| 0x80)).all, (s.tlbinv.fields (w ||| 0x80)).va,
        (s.tlbinv.fields (w ||| 0x80)).len) } } := by
  have hgo : (w ||| 0x80).getLsbD 7 = true := by rw [BitVec.getLsbD_or]; simp
  change Host.Outcome.next (writeTlbInv (w ||| 0x80) s) = _
  simp only [writeTlbInv, hgo, hidle, if_true, Option.isSome_none, Bool.false_eq_true, if_false]

/-- The state in which a running invalidation completes: the context's accesses under the old entries performed. -/
def settledUnder (x : Nat) (s : State) : State :=
  (groupsOf s x).foldl (fun s g => (landAll g s).updGroup g (fun G => { G with early := [] })) s

theorem exec_tlbInvalidateComplete_of_run {all : Bool} {lo len : Nat} (hrun : s.tlbinv.run = some (x, all, lo, len)) :
    exec .tlbInvalidateComplete s = .next { settledUnder x s with
      tlbinv := { (settledUnder x s).tlbinv with run := none },
      cores := (settledUnder x s).cores.map (fun C =>
        { C with tlb := C.tlb.filter (fun t => !(decide (t.ctx = x) && invHits all lo len t.va t.size)) }),
      groups := (settledUnder x s).groups.map (fun G => if groupCtx (settledUnder x s) G = x then G.invalidated all lo len else G) } := by
  change execTlbInvalidateComplete s = _
  simp only [execTlbInvalidateComplete, hrun]
  rfl

end

/-! ### Debug commands (R361 to R365) -/

section
variable {s : State} {x : Nat} {c : Cmd}

/-- The command at the head is served as its number says. -/
theorem serveCmd_of_head {n : Nat} {k : Cmd → State → State} (hc : debugHead s x = some c) (hn : c.cmd = n) (hknown : knownCmd n = true) :
    serveCmd x n false k s = .next (k c s) := by
  subst hn
  simp only [serveCmd, hc, hknown, Bool.not_true, Bool.false_eq_true, if_false, ne_eq, not_true_eq_false, false_and]

/-- So is one that must find the context halted, and does. -/
theorem serveCmd_of_halted {n : Nat} {k : Cmd → State → State} (hc : debugHead s x = some c) (hhalted : (ctxAt s x).st = .halted)
    (hn : c.cmd = n) (hknown : knownCmd n = true) : serveCmd x n true k s = .next (k c s) := by
  subst hn
  simp only [serveCmd, hc, hhalted, hknown, Bool.not_true, Bool.false_eq_true, if_false, ne_eq, not_true_eq_false, and_false]

theorem exec_halt_of_head (hc : debugHead s x = some c) (hn : c.cmd = 1) :
    exec (.halt x) s = .next (answerCmd x 1 (leBytes 4 (stampsOf (hostHold x s) x).length) (hostHold x s)) := by
  change execHalt x s = _
  exact serveCmd_of_head hc hn rfl

theorem exec_resume_of_head (hc : debugHead s x = some c) (hn : c.cmd = 2) :
    exec (.resume x) s =
      .next (answerCmd x 1 [] (releaseContext x { s with ctxs := modifyAt (fun C => { C with hhalt := false }) s.ctxs x })) := by
  change execResume x s = _
  exact serveCmd_of_head hc hn rfl

/-- A breakpoint that is enabled already, or finds room, is enabled (R364). -/
theorem exec_bset_of_head (hc : debugHead s x = some c) (hn : c.cmd = 4)
    (hroom : (ctxAt s x).bps.contains c.arg0 = true ∨ (ctxAt s x).bps.length < 256) :
    exec (.bset x) s = .next (answerCmd x 1 [] { hostHold x s with
      ctxs := modifyAt (fun C => if C.bps.contains c.arg0 = true then C else { C with bps := insertNat c.arg0 C.bps }) (hostHold x s).ctxs x }) := by
  have hfits : ¬((!(ctxAt s x).bps.contains c.arg0) = true ∧ 256 ≤ (ctxAt s x).bps.length) := by
    rintro ⟨hnew, hfull⟩
    obtain hold | hless := hroom
    · rw [hold] at hnew
      cases hnew
    · omega
  change execBset x s = _
  refine (serveCmd_of_head hc hn rfl).trans (congrArg _ ?_)
  exact if_neg hfits

theorem exec_bclr_of_head (hc : debugHead s x = some c) (hn : c.cmd = 5) :
    exec (.bclr x) s = .next (answerCmd x 1 [] { hostHold x s with
      ctxs := modifyAt (fun C => { C with bps := C.bps.filter (· ≠ c.arg0) }) (hostHold x s).ctxs x }) := by
  change execBclr x s = _
  exact serveCmd_of_head hc hn rfl

theorem exec_wclr_of_head (hc : debugHead s x = some c) (hn : c.cmd = 10) :
    exec (.wclr x) s = .next (answerCmd x 1 []
      { s with ctxs := modifyAt (fun C => { C with wps := modifyAt (fun _ => none) C.wps (c.arg0 % 4) }) s.ctxs x }) := by
  change execWclr x s = _
  exact serveCmd_of_head hc hn rfl

section
variable (hc : debugHead s x = some c) (hhalted : (ctxAt s x).st = .halted)
include hc hhalted

theorem exec_list_of_head (hn : c.cmd = 3) :
    exec (.list x) s = .next (answerCmd x 1
      (((((stampsOf s x).foldl (fun l n => insertNat n l) []).drop c.arg0).take 20).flatMap (leBytes 2)) s) := by
  change execList x s = _
  exact serveCmd_of_halted hc hhalted hn rfl

theorem exec_wset_of_head (hn : c.cmd = 9) {w : WPt} (hw : wsetOf s x c = some w) :
    exec (.wset x) s = .next (answerCmd x 1 []
      { s with ctxs := modifyAt (fun C => { C with wps := modifyAt (fun _ => some w) C.wps (c.arg0 % 4) }) s.ctxs x }) := by
  change execWset x s = _
  refine (serveCmd_of_halted hc hhalted hn rfl).trans (congrArg _ ?_)
  simp only [hw]

variable {g : Nat} {G : Group} (hg : stampGroup s x c.stamp = some g) (hG : s.groups[g]? = some G)
include hg hG

/-- A suspended group without a fault to answer for, on its core, resumes alone (R364). -/
theorem exec_step_of_head (hn : c.cmd = 6) (hst : G.st = .suspended) (hheld : G.held = none) (hcore : onCore s g = true) :
    exec (.step x) s = .next (resumeGroup g (s.updGroup g Group.steps)) := by
  change execStep x s = _
  refine (serveCmd_of_halted hc hhalted hn rfl).trans (congrArg _ ?_)
  simp [hg, hG, hst, hheld, hcore]

theorem exec_rval_portable (hn : c.cmd = 7) (hlane : c.lane < 128) (hnat : G.native = none) {S : Side} (hS : sideOfLane G c.lane = some S) :
    exec (.rval x) s =
      .next (answerCmd x (rvalPortable s x S c.arg0 c.lane c.arg1).1 (rvalPortable s x S c.arg0 c.lane c.arg1).2 s) := by
  change execRval x s = _
  refine (serveCmd_of_halted hc hhalted hn rfl).trans (congrArg _ ?_)
  simp only [hg, Option.bind_some, hG, if_neg (Nat.not_le.mpr hlane), hnat, hS]

theorem exec_rval_native (hn : c.cmd = 7) (hlane : c.lane < 128) {N : Native} (hnat : G.native = some N) {P : PcSlot}
    (hP : slotOfLane N c.lane = some P) :
    exec (.rval x) s =
      .next (answerCmd x (rvalNative s G N P c.arg0 c.lane c.arg1).1 (rvalNative s G N P c.arg0 c.lane c.arg1).2 s) := by
  change execRval x s = _
  refine (serveCmd_of_halted hc hhalted hn rfl).trans (congrArg _ ?_)
  simp only [hg, Option.bind_some, hG, if_neg (Nat.not_le.mpr hlane), hnat, hP]

theorem exec_rstat_portable (hn : c.cmd = 8) (hnat : G.native = none) {S : Side} (hS : lowestSide G = some S) {F : Frame} {r : List Frame}
    (hF : S.core.frames = F :: r) : exec (.rstat x) s = .next (answerCmd x 1 (statBytes F.pc S.core.view) s) := by
  change execRstat x s = _
  refine (serveCmd_of_halted hc hhalted hn rfl).trans (congrArg _ ?_)
  simp only [hg, Option.bind_some, hG, hnat, hS, hF]

theorem exec_rstat_native (hn : c.cmd = 8) {N : Native} (hnat : G.native = some N) {P : PcSlot} (hP : lowestSlot N = some P) :
    exec (.rstat x) s = .next (answerCmd x 1 (statBytes (N.port P.pc) P.view) s) := by
  change execRstat x s = _
  refine (serveCmd_of_halted hc hhalted hn rfl).trans (congrArg _ ?_)
  simp only [hg, Option.bind_some, hG, hnat, hP]

end

end

/-- Settles O50: slot by slot and register by register; a debug command is served where it stands at the head. -/
theorem contextAndDebugEvents : Obligations.ContextAndDebugEvents := by
  unfold Obligations.ContextAndDebugEvents
  intro s x
  refine ⟨fun w hfree => exec_contextCreate_of_free hfree w,
    fun hrun => ⟨congrArg _ (endSlot_of_running hrun), exec_seedChange_of_running hrun⟩,
    fun hend hdrained => exec_contextFree_of_drained hend hdrained, fun _ _ => rfl,
    fun w hidle => exec_tlbInvalidate_of_idle hidle w, fun all lo len hrun => exec_tlbInvalidateComplete_of_run hrun,
    fun c hc => ⟨exec_halt_of_head hc, exec_resume_of_head hc, exec_bset_of_head hc, exec_bclr_of_head hc, exec_wclr_of_head hc,
      fun hhalted => ⟨exec_list_of_head hc hhalted, fun w hn hw => exec_wset_of_head hc hhalted hn hw, fun g G hg hG =>
        ⟨?step, ?rval, ?rvalNative, ?rstat, ?rstatNative⟩⟩⟩⟩
  case step => exact fun hn hst hheld hcore => exec_step_of_head hc hhalted hg hG hn hst hheld hcore
  case rval => exact fun S hn hlane hnat hS => exec_rval_portable hc hhalted hg hG hn hlane hnat hS
  case rvalNative => exact fun N P hn hlane hnat hP => exec_rval_native hc hhalted hg hG hn hlane hnat hP
  case rstat => exact fun S F r hn hnat hS hF => exec_rstat_portable hc hhalted hg hG hn hnat hS hF
  case rstatNative => exact fun N P hn hnat hP => exec_rstat_native hc hhalted hg hG hn hnat hP

end Sys2Proof.Machine

namespace Sys2Proof.Machine
open Sys2Proof

/-! ### Block barriers (R262 to R264) -/

/-- The state in which every active thread has arrived on barrier n: the region's gated operations have passed and are owed at block scope
(R220, R262). -/
def barArrived (p : Site) (mask : BitVec 3) (n : Nat) (s : State) : State :=
  arriveAll p n (owe p.g p.mask mask 2 (flush p.g p.sd s))

section
variable {s : State} {p : Site} {h : BitVec 2} {mask : BitVec 3} {n : Opnd} (hp : site? s = some p)
include hp

theorem exec_barar_of_arrives (harr : arriveMisuse p (p.block s) (barNum n) = none) :
    exec (.barar h mask n) s = .next (commit p.g p.sd (defineBits p
      ((lanePhases p (p.block (barArrived p mask (barNum n) s)) (barNum n)).map (fun w => w.zeroExtend 64))
      (barArrived p mask (barNum n) s))) := by
  change execBarar mask n s = _
  rw [execBarar, portable_eq hp]
  simp only [harr]
  rfl

theorem exec_barar_of_misuse {i : Nat} (hbad : arriveMisuse p (p.block s) (barNum n) = some i) :
    exec (.barar h mask n) s = .next (faultAt p.g p.sd .barrierMisuse p.pc (some i) (BitVec.ofNat 64 (barNum n)) s) := by
  change execBarar mask n s = _
  rw [execBarar, portable_eq hp]
  simp only [hbad]
  rfl

/-- `bar` waits for the phases of its own arrival, in the state after the MARK that stands behind it (R264). -/
theorem exec_bar_of_arrives (hpend : p.side.pend = .none) (harr : arriveMisuse p (p.block s) (barNum n) = none) {t : State}
    (ht : commit p.g p.sd (setPend p (.phase 0) (barArrived p mask (barNum n) s)) = t) :
    exec (.bar h mask n) s = .next
      (if barDone p (p.block t) (barNum n) (lanePhases p (p.block t) (barNum n)) = true
       then advance p (setPend p .none (acquire p.g p.mask mask 2 t))
       else waitFor p (.barrier (barNum n) (nth 0 (lanePhases p (p.block t) (barNum n)) p.low)) t) := by
  subst ht
  change execBar mask n s = _
  rw [execBar, portable_eq hp]
  simp only [hpend, harr]
  rfl

/-- `barwt` refuses a phase that lies ahead of the lane's last arrival (R262): where no active lane names one, it waits or goes on. -/
theorem exec_barwt_of_arrived {ph : Opnd} {xs : List DWord} (hx : opndBits s p .i32 ph = some xs) {phs : List Word}
    (hphs : xs.map (fun x => x.truncate 32) = phs)
    (hwin : ∀ i, i < 128 → p.mask.getLsbD i = true →
      (nth 0 phs i - lastPhase (p.block s) (barNum n) (p.thread i) : Word).toNat = 0 ∨
      2 ^ 31 ≤ (nth 0 phs i - lastPhase (p.block s) (barNum n) (p.thread i) : Word).toNat) :
    exec (.barwt h mask n ph) s = .next
      (if barDone p (p.block s) (barNum n) phs = true then advance p (acquire p.g p.mask mask 2 s)
       else waitFor p (.barrier (barNum n) (nth 0 phs p.low)) s) := by
  subst hphs
  change execBarwt mask n ph s = _
  rw [execBarwt, portable_eq hp]
  simp only [hx]
  split
  next i hi =>
    obtain ⟨hlt, hact⟩ := List.mem_filter.mp (List.mem_of_find?_eq_some hi)
    have hahead := List.find?_some hi
    have hok := hwin i (List.mem_range.mp hlt) hact
    simp only [Bool.and_eq_true, decide_eq_true_eq] at hahead
    omega
  next => rfl

end

/-- Settles O23: an arrival that is no misuse, one that is, and a wait for phases that the lanes have arrived in. -/
theorem barrierResults : Obligations.BarrierResults := by
  unfold Obligations.BarrierResults
  intro s p hp h mask n
  refine ⟨fun harr => ⟨?barar, fun hpend => ?bar⟩, fun i hbad => ?misuse, fun ph xs hx hwin => ?barwt⟩
  case barar => exact exec_barar_of_arrives hp harr
  case bar => exact exec_bar_of_arrives hp hpend harr rfl
  case misuse => exact exec_barar_of_misuse hp hbad
  case barwt => exact exec_barwt_of_arrived hp hx rfl hwin

end Sys2Proof.Machine

namespace Sys2Proof.Machine
open Sys2Proof

/-! ### What takes no time: the operations that a MARK passes (R223, R240, R317, R387) -/

/-- A fold of steps that each take no time. -/
theorem foldl_time {α : Type} {f : State → α → State} (hf : ∀ s a, (f s a).time = s.time) (l : List α) (s : State) :
    (l.foldl f s).time = s.time := by
  induction l generalizing s with
  | nil => rfl
  | cons a r ih => rw [List.foldl_cons, ih, hf]

@[simp] theorem claimLines_time (s : State) (x ln n : Nat) : (claimLines s x ln n).time = s.time := (onlyStores_claimLines s x ln n).time

@[simp] theorem storeBytes_time (x a : Nat) (bs : List Byte) (s : State) : (storeBytes x a bs s).time = s.time :=
  (onlyStores_storeBytes x a bs s).time

@[simp] theorem storeWord_time (x a : Nat) (v : DWord) (s : State) : (storeWord x a v s).time = s.time := storeBytes_time ..

@[simp] theorem storeTagged_time (x a : Nat) (v : DWord) (t : Bool) (s : State) : (storeTagged x a v t s).time = s.time := storeBytes_time ..

@[simp] theorem reach_time (B : Agent) (wr : Bool) (a n : Nat) (s : State) : (reach B wr a n s).time = s.time := (onlyStores_reach B wr a n s).time

@[simp] theorem landWhere_time (g : Nat) (want : Held → Bool) (s : State) : (landWhere g want s).time = s.time :=
  (onlyStores_landWhere g want s).time

@[simp] theorem landAll_time (g : Nat) (s : State) : (landAll g s).time = s.time := landWhere_time ..

@[simp] theorem landPart_time (b r : Nat) (s : State) : (landPart b r s).time = s.time := by
  unfold landPart
  split
  · rfl
  · exact foldl_time (fun s e => landWhere_time ..) ..

@[simp] theorem chargeEv_time (x ev n : Nat) (s : State) : (chargeEv x ev n s).time = s.time := by
  unfold chargeEv
  split
  · exact storeBytes_time ..
  · rfl

@[simp] theorem hwDecrement_time (x va : Nat) (v : DWord) (s : State) : (hwDecrement x va v s).time = s.time := by
  unfold hwDecrement hwSignal
  dsimp only
  split
  · rfl
  · split <;> simp

@[simp] theorem writeFault_time (x : Nat) (f : FaultRec) (s : State) : (writeFault x f s).time = s.time := by
  unfold writeFault
  dsimp only
  split <;> simp

@[simp] theorem rollback_time (g : Nat) (s : State) : (rollback g s).time = s.time := by
  unfold rollback
  split <;> rfl

@[simp] theorem suspendGroup_time (g : Nat) (s : State) : (suspendGroup g s).time = s.time := by
  unfold suspendGroup landMask
  split
  · rfl
  · split
    · split <;> simp
    · split <;> simp
    · rfl

@[simp] theorem hostHold_time (x : Nat) (s : State) : (hostHold x s).time = s.time :=
  foldl_time (fun s g => suspendGroup_time g s) ..

@[simp] theorem notePhases_time (b : Nat) (s : State) : (notePhases b s).time = s.time := by
  unfold notePhases
  split <;> rfl

@[simp] theorem endThreads_time (g : Nat) (m : Mask) (s : State) : (endThreads g m s).time = s.time := by
  unfold endThreads
  split
  · rfl
  · split <;> simp

@[simp] theorem freePool_time (g : Nat) (s : State) : (freePool g s).time = s.time := by
  unfold freePool
  split
  · rfl
  · split <;> rfl

@[simp] theorem checkDrain_time (b : Nat) (s : State) : (checkDrain b s).time = s.time := by
  unfold checkDrain
  split <;> rfl

@[simp] theorem freeBlock_time (b : Nat) (s : State) : (freeBlock b s).time = s.time := rfl

@[simp] theorem endGroup_time (g : Nat) (s : State) : (endGroup g s).time = s.time := by
  unfold endGroup
  split
  · rfl
  · extract_lets m threadsEnded enginesDropped ended failed
    have hended : ended.time = s.time :=
      calc ended.time = (freePool g (landPart _ _ (landAll g s))).time := endThreads_time ..
        _ = s.time := by simp
    split
    · exact (freeBlock_time ..).trans hended
    · exact (checkDrain_time ..).trans hended

/-- A breakpoint in the program is reported to the debugger, and its class holds the context (R383). -/
theorem report_brkpt_time (g sd pc : Nat) (lane : Option Nat) (aux : DWord) (s : State) :
    (report g sd .programBreakpoint pc lane aux s).time = s.time := by
  have hclass : ∀ t, (classEffect g .programBreakpoint t).time = t.time := by
    intro t
    unfold classEffect
    split
    · rfl
    · exact hostHold_time ..
  unfold report
  split
  · rfl
  · simp only [causeClass]
    split <;> simp [hclass]

@[simp] theorem performStore_time (x : Nat) (o : GOp) (s : State) : (performStore x o s).time = s.time := (onlyStores_performStore x o s).time

@[simp] theorem issueGated_time (x e : Nat) (s : State) : (issueGated x e s).time = s.time := by
  unfold issueGated
  split
  · rfl
  · dsimp only
    split <;> rfl

@[simp] theorem performGop_time (x g sd : Nat) (o : GOp) (s : State) : (performGop x g sd o s).time = s.time := by
  cases o with
  | store l a bs => exact performStore_time ..
  | relStore l a bs mask sc => exact performStore_time ..
  | refStore l a w t => exact performStore_time ..
  | objInit l a w n stamp => simp [performGop, performObjInit]
  | objRetire l a n => simp [performGop, performObjRetire]
  | engine e => exact issueGated_time ..
  | untag l a =>
    simp only [performGop]
    split <;> rfl
  | brkpt code pc =>
    simp only [performGop]
    split
    · exact report_brkpt_time ..
    · rfl
  | fence | ctrctl | accrel | spillTag => rfl

@[simp] theorem land_time (x g sd : Nat) (o : GOp) (s : State) : (land x g sd o s).time = s.time := by
  cases o <;> simp [land]

/-- A MARK takes no time. -/
@[simp] theorem commit_time (g sd : Nat) (s : State) : (commit g sd s).time = s.time := by
  unfold commit
  split
  · rfl
  · split
    · rfl
    · dsimp only
      split
      · rw [endGroup_time, foldl_time (fun s o => land_time ..), State.updGroup_time]
      · rw [foldl_time (fun s o => land_time ..), State.updGroup_time]

@[simp] theorem touchAddrs_time (w : Who) (al : Nat) (vas : List Nat) (s : State) : (touchAddrs w al vas s).time = s.time := by
  rw [onlyCounts_touchAddrs w al vas s]

/-! ### The signal as a group reads it (R214, R311, R314) -/

@[simp] theorem dropEarly_time (g l a n : Nat) (s : State) : (dropEarly g l a n s).time = s.time := rfl

/-- The reading of a signal takes no time, whatever it makes the group or others perform. -/
@[simp] theorem readsWord_time (p : Site) (a : Nat) (s : State) : (p.readsWord a s).time = s.time := by
  unfold Site.readsWord
  extract_lets closed reached
  have hclosed : closed.time = s.time := by
    simp only [closed]
    split <;> simp
  calc ((lanesOf p.mask).foldl (fun t l => dropEarly p.g l a 8 t) reached).time
      = reached.time := foldl_time (fun t l => dropEarly_time p.g l a 8 t) ..
    _ = closed.time := by simp [reached, landOver]
    _ = s.time := hclosed

section
variable {s : State} {p : Site}

/-- A word loads the same where each of its bytes does. -/
theorem loadWord_congr {t : State} {x : Nat} (h : ∀ a, loadByte t x a = loadByte s x a) (a : Nat) : loadWord t x a = loadWord s x a := by
  have hbytes : ∀ n a, loadBytes t x a n = loadBytes s x a n := by
    intro n
    induction n with
    | zero => exact fun _ => rfl
    | succ n ih => exact fun a => by simp only [loadBytes, h, ih]
  rw [loadWord, loadWord, hbytes]

/-- Where nothing is held back and the region holds nothing gated, only early reads of the group are ended. -/
theorem keepsBytes_readsWord (hheld : ∀ G ∈ s.groups, G.wbuf = []) (hgated : p.side.gated = []) (a : Nat) :
    KeepsBytes p.g s (p.readsWord a s) := by
  have hdrop : ∀ (ls : List Nat) (t : State), KeepsBytes p.g t (ls.foldl (fun t l => dropEarly p.g l a 8 t) t) := by
    intro ls
    induction ls with
    | nil => exact .refl p.g
    | cons l r ih => exact fun t => (keepsBytes_updGroup ..).trans (ih _)
  simpa [Site.readsWord, hgated, landOver, landWhere_idle _ _ _ hheld, reach_idle _ _ _ _ hheld] using hdrop (lanesOf p.mask) s

/-- The read then changes no storage, and gives the word as its context loads it (R311). -/
theorem signal_of_idle (hheld : ∀ G ∈ s.groups, G.wbuf = []) (hgated : p.side.gated = []) (w : Who) (vas : List Nat) (a : Nat) :
    SameStorage s (p.readsWord a (touchAddrs w 8 vas s)) ∧
      loadWord (p.readsWord a (touchAddrs w 8 vas s)) p.ctx a = loadWord s p.ctx a := by
  have htouch : ReadsAlike s (touchAddrs w 8 vas s) := readsAlike_touchAddrs ..
  have hheld' : ∀ b ∈ (touchAddrs w 8 vas s).groups.map Group.wbuf, b = [] := by
    rw [htouch.held]
    exact List.forall_mem_map.mpr hheld
  have hread := keepsBytes_readsWord (p := p) (List.forall_mem_map.mp hheld') hgated a
  exact ⟨htouch.toSameStorage.trans hread.toSameStorage,
    loadWord_congr (fun b => (hread.loads p.ctx b).trans (htouch.loadByte_eq p.ctx b)) a⟩

end

/-! ### Reads of signals and waits on them (R311 to R314) -/

section
variable {s t : State} {p : Site} {h : BitVec 2} {cc : Cond} {sc mask : BitVec 3} {m : MemOp} {a : DWord} {acc : Acc}

/-- A read of a signal that passes its checks goes on with the state after the read. -/
theorem withSignal_of_ok (ha : lowAddr s p m = some a) (hacc : resolve (p.view s) p.who a.toNat 8 8 mask false = .ok acc)
    (ht : p.readsWord acc.key (touchAddrs p.who 8 [a.toNat] s) = t) (k : DWord → Acc → State → State) :
    withSignal p mask m k s = k a acc t := by
  subst ht
  simp only [withSignal, ha, hacc]

variable (hp : site? s = some p)
include hp

theorem exec_sigrd_of_ok (ha : lowAddr s p m = some a) (hacc : resolve (p.view s) p.who a.toNat 8 8 mask false = .ok acc)
    (ht : p.readsWord acc.key (touchAddrs p.who 8 [a.toNat] s) = t) :
    exec (.sigrd h sc mask m) s = .next (defineAll p (loadWord t p.ctx acc.key) (p.acquires sc mask t)) := by
  change execSigrd sc mask m s = _
  rw [execSigrd, portable_eq hp, withSignal_of_ok ha hacc ht]
  rfl

variable {o n : Opnd} {x k w : DWord}

/-- `sigwait` evaluates its condition when it registers. -/
theorem exec_sigwait_of_ok (ha : lowAddr s p m = some a) (hacc : resolve (p.view s) p.who a.toNat 8 8 mask false = .ok acc)
    (ht : p.readsWord acc.key (touchAddrs p.who 8 [a.toNat] s) = t) (hx : opndOne s p .i64 o = some x) (hpend : p.side.pend = .none) :
    exec (.sigwait h cc sc mask m o) s = .next
      (if condMet cc (loadWord t p.ctx acc.key) x = true then defineAll p (loadWord t p.ctx acc.key) (p.acquires sc mask t)
       else waitFor p (.signal { a := acc.key, cond := cc, x := x, deadline := none, hit := none }) t) := by
  change execSigwait cc sc mask m o s = _
  rw [execSigwait, portable_eq hp]
  simp only [hpend, hx, withSignal_of_ok ha hacc ht]
  rfl

theorem exec_sigwait_of_hit (hpend : p.side.pend = .hit w) :
    exec (.sigwait h cc sc mask m o) s = .next (defineAll p w (setPend p .none (p.acquires sc mask (p.forget mask m s)))) := by
  change execSigwait cc sc mask m o s = _
  rw [execSigwait, portable_eq hp]
  simp only [hpend]

/-- `twait` at its first issue: the read takes no time, so that its deadline has passed where it waits for no clock at all. -/
theorem exec_twait_of_ok (ha : lowAddr s p m = some a) (hacc : resolve (p.view s) p.who a.toNat 8 8 mask false = .ok acc)
    (ht : p.readsWord acc.key (touchAddrs p.who 8 [a.toNat] s) = t) (hx : opndOne s p .i64 o = some x) (hn : opndOne s p .i32 n = some k)
    (hpend : p.side.pend = .none) :
    exec (.twait h cc sc mask m o n) s = .next
      (if condMet cc (loadWord t p.ctx acc.key) x = true then defineAll p 1 (setPend p .none (p.acquires sc mask t))
       else if k = 0 then defineAll p 0 (setPend p .none t)
       else waitFor p (.signal { a := acc.key, cond := cc, x := x, deadline := some (s.time + k.toNat), hit := none })
         (commit p.g p.sd (setPend p (.deadline (s.time + k.toNat)) t))) := by
  have htime : t.time = s.time := by rw [← ht, readsWord_time, touchAddrs_time]
  have hpassed : s.time + k.toNat ≤ t.time ↔ k = 0 := by
    rw [htime, ← BitVec.toNat_inj]
    change s.time + k.toNat ≤ s.time ↔ k.toNat = 0
    omega
  change execTwait cc sc mask m o n s = _
  rw [execTwait, portable_eq hp]
  simp only [hpend, hx, hn, withSignal_of_ok ha hacc ht, hpassed]
  rfl

theorem exec_twait_of_hit (hpend : p.side.pend = .hit w) :
    exec (.twait h cc sc mask m o n) s = .next (defineAll p 1 (setPend p .none (p.acquires sc mask (p.forget mask m s)))) := by
  change execTwait cc sc mask m o n s = _
  rw [execTwait, portable_eq hp]
  simp only [hpend]

theorem exec_twait_of_done (hpend : p.side.pend = .done) :
    exec (.twait h cc sc mask m o n) s = .next (defineAll p 0 (setPend p .none s)) := by
  change execTwait cc sc mask m o n s = _
  rw [execTwait, portable_eq hp]
  simp only [hpend]

end

/-- Settles O33: a read that passes its checks, and each wait by what it carries: nothing yet, a satisfying value, or a passed deadline. -/
theorem signalReadsAndWaits : Obligations.SignalReadsAndWaits := by
  unfold Obligations.SignalReadsAndWaits
  intro s p hp h sc mask m a acc ha hacc
  refine ⟨exec_sigrd_of_ok hp ha hacc rfl, fun hheld hgated => signal_of_idle hheld hgated .., fun cc o x hx =>
    ⟨fun hpend => ⟨fun hmet => ?sigMet, fun hnot => ?sigWaits⟩, fun w hpend => exec_sigwait_of_hit hp hpend, fun n k hn =>
      ⟨fun w hpend => exec_twait_of_hit hp hpend, fun hpend => exec_twait_of_done hp hpend, fun hpend =>
        ⟨fun hmet => ?met, fun hnot hk => ?passed, fun hnot hk => ?waits⟩⟩⟩⟩
  case sigMet => exact (exec_sigwait_of_ok hp ha hacc rfl hx hpend).trans (congrArg _ (if_pos hmet))
  case sigWaits => exact (exec_sigwait_of_ok hp ha hacc rfl hx hpend).trans (congrArg _ (if_neg (Bool.eq_false_iff.mp hnot)))
  case met => exact (exec_twait_of_ok hp ha hacc rfl hx hn hpend).trans (congrArg _ (if_pos hmet))
  case passed =>
    refine (exec_twait_of_ok hp ha hacc rfl hx hn hpend).trans (congrArg _ ?_)
    rw [if_neg (Bool.eq_false_iff.mp hnot), if_pos hk]
  case waits =>
    refine (exec_twait_of_ok hp ha hacc rfl hx hn hpend).trans (congrArg _ ?_)
    rw [if_neg (Bool.eq_false_iff.mp hnot), if_neg hk]

end Sys2Proof.Machine

namespace Sys2Proof.Machine
open Sys2Proof

/-! ### Comparison and address of references (R242) -/

section
variable {s : State} {p : Site} {h : BitVec 2} {a b : Opnd} {xs ys : List (DWord × Bool)}

/-- `refeq` looks at the address fields only. -/
theorem exec_refeq_eq (hp : site? s = some p) (ha : opndRefs p a = some xs) (hb : opndRefs p b = some ys) :
    exec (.refeq h a b) s =
      .next (defineBits p (List.zipWith (fun (x y : DWord × Bool) => if x.1 = y.1 then (1 : DWord) else 0) xs ys) s) := by
  change execRefeq a b s = _
  rw [execRefeq, portable_eq hp]
  simp only [ha, hb, b1, decide_eq_true_eq]

theorem exec_refadr_eq (hp : site? s = some p) (ha : opndRefs p a = some xs) :
    exec (.refadr h a) s = .next (define p (xs.map (fun x => .bits x.1)) s) := by
  change execRefadr a s = _
  rw [execRefadr, portable_eq hp]
  simp only [ha, defineBits, List.map_map]
  rfl

end

/-- Settles O24: each instruction defines bits of its operands, and a definition changes no storage. -/
theorem referenceCompareAndAddress : Obligations.ReferenceCompareAndAddress := by
  unfold Obligations.ReferenceCompareAndAddress
  intro s p hp h a b xs ys ha hb
  exact ⟨⟨_, exec_refeq_eq hp ha hb, (keepsBytes_define _).toSameStorage, defined_define hp _⟩,
    ⟨_, exec_refadr_eq hp ha, (keepsBytes_define _).toSameStorage, defined_define hp _⟩⟩

/-! ### Reference instructions whose lanes pass their checks (R213, R219, R238 to R241, R365) -/

/-- What a lane of a reference instruction answers: its cause and AUX, or its accesses, its operations and its result. -/
abbrev LaneOutcome (β : Type) := Except (Cause × DWord) (List (Nat × Acc) × List GOp × β)

/-- Every active lane's f passes, each lane seeing the operations of the lanes before it: accesses, operations and results. -/
def LanesPass {β : Type} (s : State) (p : Site) (d : β) (f : State → Nat → LaneOutcome β) (accs : List (Nat × Acc)) (ops : List GOp)
    (bs : NMap β) : Prop :=
  objLanes p d f (lanesOf p.mask) (sideView s p.ctx p.g p.sd p.side.gated) = .ok (accs, ops, bs)

/-- The state in which the lanes of a reference instruction have passed: a watchpoint that was ignored once is back in force, the pages
of the addresses and of the accesses are counted, and the requests are made (R199, R204, R365). -/
def objAccessed (p : Site) (n : Nat) (as : List DWord) (accs : List (Nat × Acc)) (s : State) : State :=
  p.requests s n as accs (p.rearm (touchWith p.who n (p.addrs as) (accs.filterMap (fun e => e.2.page)) s))

/-- The state in which what is owed to the lanes that read has been performed, and their early reads there have ended (R214, R219). -/
def objReached (p : Site) (accs : List (Nat × Acc)) (s : State) : State := dropLanes p 8 accs (reachLanes p false 8 accs s)

section
variable {β : Type} {s : State} {p : Site} {d : β} {wr : Bool} {n : Nat} {as : List DWord} {f : State → State → Nat → LaneOutcome β}
  {accs accs0 : List (Nat × Acc)} {ops ops0 : List GOp} {bs bs0 : NMap β}

/-- An instruction that reads no word as a load does goes on with its lanes' operations and results. -/
theorem LanesPass.objInstr_eq (hpass : LanesPass s p d (f s) accs ops bs) (hcalm : watchLane s p n false wr as accs = none)
    (k : List GOp → (Nat → β) → State → State) :
    objInstr p d false wr n as f k s = k ops (fun i => NMap.get d bs i) (objAccessed p n as accs s) := by
  rw [LanesPass] at hpass
  simp only [objInstr, Bool.false_eq_true, if_false, hpass, hcalm]
  rfl

/-- One that reads first has what is owed to its lanes performed, and looks again. -/
theorem LanesPass.objInstr_read_eq (hfirst : LanesPass s p d (f s) accs0 ops0 bs0) {t : State} (ht : objReached p accs0 s = t)
    (hpass : LanesPass t p d (f t) accs ops bs) (hcalm : watchLane t p n true wr as accs = none)
    (k : List GOp → (Nat → β) → State → State) :
    objInstr p d true wr n as f k s = k ops (fun i => NMap.get d bs i) (objAccessed p n as accs t) := by
  rw [objReached] at ht
  rw [LanesPass] at hfirst hpass
  simp only [objInstr, if_true, hfirst, ht, hpass, hcalm]
  rfl

end

section
variable {s t : State} {p : Site} {h : BitVec 2} {m : MemOp} {as : List DWord} {accs accs0 : List (Nat × Acc)} {ops ops0 : List GOp}
  {us us0 : NMap Unit} (hp : site? s = some p)
include hp

theorem exec_mkref_of_passes (ha : memLanes s p m = some as) {rs : NMap DWord}
    (hpass : LanesPass s p (0 : DWord) (mkrefLane p as) accs ops rs) (hcalm : watchLane s p 8 false false as accs = none) :
    exec (.mkref h m) s =
      .next (define p ((List.range 128).map (fun i => .ref (NMap.get 0 rs i) true)) (objAccessed p 8 as accs s)) := by
  change execMkref m s = _
  rw [execMkref, portable_eq hp]
  simp only [ha]
  exact congrArg _ (hpass.objInstr_eq hcalm _)

theorem exec_ldref_of_passes (ha : memLanes s p m = some as) {old : Nat → Nat → Option (DWord × Bool)}
    (hold : earlyRef s p (freeAddr s p m) = old) {rs rs0 : NMap (DWord × Bool)}
    (hfirst : LanesPass s p (0, false) (fun _ i => ldrefLane p as (old i) (p.laneView s i) i) accs0 ops0 rs0)
    (ht : objReached p accs0 s = t) (hpass : LanesPass t p (0, false) (fun _ i => ldrefLane p as (old i) (p.laneView t i) i) accs ops rs)
    (hcalm : watchLane t p 8 true false as accs = none) :
    exec (.ldref h m) s = .next (define p
      ((List.range 128).map (fun i => .ref (NMap.get (0, false) rs i).1 (NMap.get (0, false) rs i).2)) (objAccessed p 8 as accs t)) := by
  subst hold
  change execLdref m s = _
  rw [execLdref, portable_eq hp]
  simp only [ha]
  exact congrArg _ (LanesPass.objInstr_read_eq
    (f := fun u _ i => ldrefLane p as (earlyRef s p (freeAddr s p m) i) (p.laneView u i) i) hfirst ht hpass hcalm _)

theorem exec_unref_of_passes (ha : memLanes s p m = some as) (hfirst : LanesPass s p () (unrefLane p as) accs0 ops0 us0)
    (ht : objReached p accs0 s = t) (hpass : LanesPass t p () (unrefLane p as) accs ops us)
    (hcalm : watchLane t p 8 true true as accs = none) :
    exec (.unref h m) s = .next (advance p (gate p ops (objAccessed p 8 as accs t))) := by
  change execUnref m s = _
  rw [execUnref, portable_eq hp]
  simp only [ha]
  exact congrArg _ (LanesPass.objInstr_read_eq (f := fun _ => unrefLane p as) hfirst ht hpass hcalm (gateOps p))

theorem exec_objinitRetire_of_passes (ha : memLanes s p m = some as) (hpass : LanesPass s p () (retireLane p as) accs ops us)
    (hcalm : watchLane s p 8 false false as accs = none) :
    exec (.objinitRetire h m) s = .next (advance p (gate p ops (objAccessed p 8 as accs s))) := by
  change execObjinitRetire m s = _
  rw [execObjinitRetire, portable_eq hp]
  simp only [ha]
  exact congrArg _ (hpass.objInstr_eq hcalm (gateOps p))

theorem exec_stref_of_passes (ha : memLanes s p m = some as) {r : Opnd} {rs : List (DWord × Bool)} (hr : opndRefs p r = some rs)
    (hpass : LanesPass s p () (strefLane p as rs) accs ops us) (hcalm : watchLane s p 8 false true as accs = none) :
    exec (.stref h m r) s = .next (advance p (gate p ops (objAccessed p 8 as accs s))) := by
  change execStref m r s = _
  rw [execStref, portable_eq hp]
  simp only [ha, hr]
  exact congrArg _ (hpass.objInstr_eq hcalm (gateOps p))

theorem exec_objinit_of_passes (ha : memLanes s p m = some as) {leaf ctx : Bool} {n : Opnd} {ns : List DWord}
    (hn : opndBits s p .i32 n = some ns) (hpass : LanesPass s p () (objinitLane p leaf ctx as ns) accs ops us)
    (hcalm : watchLane s p 8 false false as accs = none) :
    exec (.objinit h leaf ctx m n) s = .next (advance p (gate p ops (objAccessed p 8 as accs s))) := by
  change execObjinit leaf ctx m n s = _
  rw [execObjinit, portable_eq hp]
  simp only [ha, hn]
  exact congrArg _ (hpass.objInstr_eq hcalm (gateOps p))

/-- The lanes of `objst` access the bodies at their references' addresses and their offsets (R241). -/
theorem exec_objst_of_passes {t : Ty} {r off x : Opnd} {rs : List (DWord × Bool)} {offs vs : List DWord} (hr : opndRefs p r = some rs)
    (hoff : opndBits s p .i32 off = some offs) (hx : opndBits s p t x = some vs)
    (hat : (List.range 128).map (fun i => BitVec.ofNat 64 (objstAddr rs offs i)) = as)
    (hpass : LanesPass s p () (objstLane p t rs offs vs) accs ops us) (hcalm : watchLane s p (Ty.bytes t) false true as accs = none) :
    exec (.objst h t r off x) s = .next (advance p (gate p ops (objAccessed p (Ty.bytes t) as accs s))) := by
  change execObjst t r off x s = _
  rw [execObjst, portable_eq hp]
  simp only [hr, hoff, hx, hat]
  exact congrArg _ (hpass.objInstr_eq hcalm (gateOps p))

end

/-! ### One lane of `mkref`, `ldref` and `stref` (R229, R236, R238, R239) -/

section
variable {v : State} {p : Site} {as : List DWord} {i : Nat} {acc : Acc} {w : DWord} {t : Bool}

theorem mkrefLane_of_not_header (hword : refWord v p (nth 0 as i) 64 true false = .ok (acc, w, t)) (hhdr : isHdrWord w t = false) :
    mkrefLane p as v i = .error (.brokenReference, nth 0 as i) := by
  simp only [mkrefLane, hword, hhdr, Bool.not_false, if_true]

/-- A published object of the context may be named by any of its groups (R238). -/
theorem mkrefLane_of_published (hword : refWord v p (nth 0 as i) 64 true false = .ok (acc, w, t)) (hhdr : isHdrWord w t = true)
    (hown : hdrOwner w = p.ctx) (hpub : hdrState w = 2) : mkrefLane p as v i = .ok ([(i, acc)], [], nth 0 as i) := by
  have hmay : ¬(hdrOwner w ≠ p.ctx ∨ (hdrState w ≠ 2 ∧ !mayUse p.grp.stamp w)) := by simp [hown, hpub]
  simp only [mkrefLane, hword, hhdr, if_neg hmay, Bool.not_true, Bool.false_eq_true, if_false]

/-- An untagged word is no reference (R229). -/
theorem isRefWord_untagged (w : DWord) : isRefWord w false = false := rfl

section
variable {old : Nat → Option (DWord × Bool)} (hword : refWord v p (nth 0 as i) 8 true false = .ok (acc, w, t))
include hword

/-- `ldref` judges the word that it has read early, where it has, else the one it sees (R217). -/
theorem ldrefLane_eq : ldrefLane p as old v i =
    if isRefWord ((old acc.key).getD (w, t)).1 ((old acc.key).getD (w, t)).2 then .ok ([(i, acc)], [], (((old acc.key).getD (w, t)).1, true))
    else if !((old acc.key).getD (w, t)).2 ∧ ((old acc.key).getD (w, t)).1 = 0 then .ok ([(i, acc)], [], (0, false))
    else .error (.notAReference, nth 0 as i) := by
  simp only [ldrefLane, hword]

variable {r : DWord × Bool} (hgot : (old acc.key).getD (w, t) = r)
include hgot

theorem ldrefLane_of_ref (href : isRefWord r.1 r.2 = true) : ldrefLane p as old v i = .ok ([(i, acc)], [], (r.1, true)) := by
  rw [ldrefLane_eq hword, hgot, if_pos href]

theorem ldrefLane_of_null (htag : r.2 = false) (hzero : r.1 = 0) : ldrefLane p as old v i = .ok ([(i, acc)], [], (0, false)) := by
  have href : ¬isRefWord r.1 r.2 = true := by simp [htag, isRefWord_untagged]
  rw [ldrefLane_eq hword, hgot, if_neg href, if_pos ⟨by rw [htag]; rfl, hzero⟩]

/-- Neither a reference nor an untagged zero. -/
theorem ldrefLane_of_neither (href : isRefWord r.1 r.2 = false) (hbad : r.2 = true ∨ r.1 ≠ 0) :
    ldrefLane p as old v i = .error (.notAReference, nth 0 as i) := by
  have hnull : ¬((!r.2) = true ∧ r.1 = 0) := by
    intro ⟨htag, hzero⟩
    obtain htagged | hnonzero := hbad
    · rw [htagged] at htag
      exact Bool.false_ne_true htag
    · exact hnonzero hzero
  rw [ldrefLane_eq hword, hgot, if_neg (Bool.eq_false_iff.mp href), if_neg hnull]

end

/-- A null is stored as an untagged zero (R239). -/
theorem strefLane_of_null (hword : refWord v p (nth 0 as i) 8 false true = .ok (acc, w, t)) {rs : List (DWord × Bool)}
    (hnull : (nth (0, false) rs i).1 = 0) : strefLane p as rs v i = .ok ([(i, acc)], [.refStore i acc.key 0 false], ()) := by
  simp only [strefLane, hword, hnull, if_true]

/-- A reference to a published object may be stored into any line (R236). -/
theorem escapeOk_of_published {x : Nat} {stamp : Half} {H : DWord} {k : Nat} (hpub : hdrState H = 2) : escapeOk v x stamp H k = true := by
  simp [escapeOk, hpub]

theorem strefLane_of_published (hword : refWord v p (nth 0 as i) 8 false true = .ok (acc, w, t)) {rs : List (DWord × Bool)}
    (hsome : (nth (0, false) rs i).1 ≠ 0) {l : Leaf} {k : Nat} {H : DWord}
    (hobj : referent v p.ctx (nth (0, false) rs i).1.toNat = some (l, k, H)) (hpub : hdrState H = 2) :
    strefLane p as rs v i = .ok ([(i, acc)], [.refStore i acc.key (nth (0, false) rs i).1 true], ()) := by
  simp only [strefLane, hword, if_neg hsome, hobj, escapeOk_of_published hpub, if_true]

end

/-- Settles O25: instruction by instruction, each goes on with the lanes that pass; then lane by lane of `mkref`, `ldref` and `stref`. -/
theorem referenceResultsAndChecks : Obligations.ReferenceResultsAndChecks := by
  unfold Obligations.ReferenceResultsAndChecks
  refine ⟨fun s p hp h m as ha accs ops => ⟨?mkref, ?ldref, ?unref, ?retire, ?stref, ?objinit, ?objst⟩,
    fun p v as i acc w t => ⟨?mkrefLane, ?ldrefLane, ?strefLane⟩⟩
  case mkref => exact fun rs hpass hcalm => exec_mkref_of_passes hp ha hpass hcalm
  case ldref => exact fun accs0 ops0 rs0 rs hfirst hpass hcalm => exec_ldref_of_passes hp ha rfl hfirst rfl hpass hcalm
  case unref => exact fun accs0 ops0 us0 us hfirst hpass hcalm => exec_unref_of_passes hp ha hfirst rfl hpass hcalm
  case retire => exact fun us hpass hcalm => exec_objinitRetire_of_passes hp ha hpass hcalm
  case stref => exact fun r rs us hr hpass hcalm => exec_stref_of_passes hp ha hr hpass hcalm
  case objinit => exact fun leaf ctx n ns us hn hpass hcalm => exec_objinit_of_passes hp ha hn hpass hcalm
  case objst => exact fun t r off x rs offs vs us hr hoff hx hpass hcalm => exec_objst_of_passes hp hr hoff hx rfl hpass hcalm
  case mkrefLane =>
    exact fun hword => ⟨fun hhdr => mkrefLane_of_not_header hword hhdr, fun hhdr hown hpub => mkrefLane_of_published hword hhdr hown hpub⟩
  case ldrefLane =>
    exact fun hword old => ⟨fun href => ldrefLane_of_ref hword rfl href, fun htag hzero => ldrefLane_of_null hword rfl htag hzero,
      fun href hbad => ldrefLane_of_neither hword rfl href hbad⟩
  case strefLane =>
    exact fun hword rs => ⟨fun hnull => strefLane_of_null hword hnull,
      fun l k H hsome hobj hpub => strefLane_of_published hword hsome hobj hpub⟩

end Sys2Proof.Machine

namespace Sys2Proof.Machine
open Sys2Proof

/-! ### Publications at their issue (R243 to R245) -/

/-- Every token of the list is Complete or Free, as a `publ` needs it. -/
def TokensDone (G : Group) (es : List Nat) : Prop := ∀ e ∈ es, tokState G e = none ∨ tokState G e = some .complete

section
variable {G : Group} {es : List Nat} (hdone : TokensDone G es)
include hdone

/-- Then none of them has failed (R267). -/
theorem TokensDone.failedTok_eq : failedTok G es = none := by
  rw [failedTok, List.head?_eq_none_iff, List.filterMap_eq_nil_iff]
  intro e he
  obtain hfree | hcomplete := hdone e he
  · rw [hfree]
  · rw [hcomplete]

/-- And none is in flight. -/
theorem TokensDone.any_pending_eq : es.any (fun e => tokState G e = some .pending) = false := by
  rw [List.any_eq_false]
  intro e he
  obtain hfree | hcomplete := hdone e he
  · simp [hfree]
  · simp [hcomplete]

end

/-- The state in which a publication's slot has been looked up and its group's own stores have been performed. -/
def publReached (p : Site) (slot : Nat) (s : State) : State := landAll p.g (touchAddrs p.who 8 [slot] s)

/-- The walk that a publication of root at slot opens in state s, with its claim phase still to run: an object is to be visited, null
claims nothing (R243). -/
def newWalk (p : Site) (sc : BitVec 3) (root : DWord) (slot : Nat) (s : State) : Walk :=
  { id := s.ids, group := p.g, side := p.low, ctx := p.ctx, stamp := p.grp.stamp, scope := sc, root := root, slot := slot,
    eng := s.ids + 1, claimed := [], widened := [], waits := [], queue := [], scan := none,
    visits := if root = 0 then [] else [root.toNat], released := false, fault := none, st := .claiming }

/-- The state in which the walk and its engine instruction have their numbers, and the publication is counted (R249). -/
def walkNumbered (p : Site) (s : State) : State := countEv p.ctx 0x70 1 { s with ids := s.ids + 2 }

section
variable {s t : State} {q : Port} {sc mask : BitVec 3} {a root : DWord} {es : List Nat} {W : Walk} (hdone : TokensDone q.site.grp es)
  (hfree : q.free s = true)
include hdone hfree

/-- A publication that issues for the first time and passes the check of its slot opens a walk; null claims nothing and succeeds. -/
theorem publAt_of_new (hnew : openWalk s q.site.g q.site.low = none) {k : Acc}
    (hslot : resolve (sideView s q.site.ctx q.site.g q.site.sd q.site.side.gated) q.site.who a.toNat 8 8 2 true = .ok k)
    (ht : publReached q.site a.toNat s = t) :
    publAt q sc mask a root es s =
      if root = 0 then succeedWalk q (newWalk q.site sc root a.toNat t) mask es (walkNumbered q.site t)
      else q.wait (.claim t.ids) (putWalk (newWalk q.site sc root a.toNat t) (walkNumbered q.site t)) := by
  rw [publReached] at ht
  simp only [publAt, Port.withFree, hdone.failedTok_eq, hdone.any_pending_eq, hfree, hnew, hslot, ht, Bool.false_eq_true, if_false, if_true]
  rfl

/-- When the group issues it again, it finds the walk that it has opened. A claim phase that has ended makes the walk succeed. -/
theorem publAt_of_claimed (hopen : openWalk s q.site.g q.site.low = some W) (hst : W.st = .claimed) :
    publAt q sc mask a root es s = succeedWalk q W mask es s := by
  simp only [publAt, Port.withFree, hdone.failedTok_eq, hdone.any_pending_eq, hfree, hopen, hst, Bool.false_eq_true, if_false, if_true]

theorem publAt_of_claiming (hopen : openWalk s q.site.g q.site.low = some W) (hst : W.st = .claiming) :
    publAt q sc mask a root es s = q.wait (.claim W.id) s := by
  simp only [publAt, Port.withFree, hdone.failedTok_eq, hdone.any_pending_eq, hfree, hopen, hst, Bool.false_eq_true, if_false, if_true]

theorem publAt_of_failed (hopen : openWalk s q.site.g q.site.low = some W) (hst : W.st = .failed) {c : Cause} {x : Nat}
    (hx : W.fault = some (c, x)) :
    publAt q sc mask a root es s = takeFault q.site c none (BitVec.ofNat 64 x) (putWalk { W with released := true } s) := by
  simp only [publAt, Port.withFree, hdone.failedTok_eq, hdone.any_pending_eq, hfree, hopen, hst, hx, Bool.false_eq_true, if_false, if_true]

end

/-- A `publ` with readable operands publishes for the side's lowest lane (R243). -/
theorem exec_publ_eq {s : State} {p : Site} {h : BitVec 2} {sc mask : BitVec 3} {m : MemOp} {r : Opnd} {ks : List Opnd} {as : List DWord}
    {rs : List (DWord × Bool)} {es : List Nat} (hp : site? s = some p) (ha : memLanes s p m = some as) (hr : opndRefs p r = some rs)
    (hk : opndToks p ks = some es) :
    exec (.publ h sc mask m r ks) s = .next (publAt p.port sc mask (nth 0 as p.low) (nth (0, false) rs p.low).1 es s) := by
  change execPubl sc mask m r ks s = _
  rw [execPubl, portable_eq hp]
  simp only [ha, hr, hk]

/-- Settles O32: a publication that opens its walk, by its root; then one that finds it, by the end of its claim phase. -/
theorem publicationClaims : Obligations.PublicationClaims := by
  unfold Obligations.PublicationClaims
  intro s p hp hfree h sc mask m r ks es as rs ha hr hk hall
  have hdone : TokensDone p.grp es := fun e he => of_decide_eq_true (List.all_eq_true.mp hall e he)
  simp only [exec_publ_eq hp ha hr hk]
  refine ⟨fun hnew hslot => ?first, fun W hopen => ⟨fun hst => ?claimed, fun hst => ?claiming, fun c x hst hx => ?failed⟩⟩
  case first =>
    obtain ⟨k, hslot⟩ := hslot
    have hpubl := publAt_of_new (q := p.port) (sc := sc) (mask := mask) (root := (nth (0, false) rs p.low).1) hdone hfree hnew hslot rfl
    exact ⟨fun hnull => congrArg _ (hpubl.trans (if_pos hnull)), fun hobj => congrArg _ (hpubl.trans (if_neg hobj))⟩
  case claimed => exact congrArg _ (publAt_of_claimed (q := p.port) hdone hfree hopen hst)
  case claiming => exact congrArg _ (publAt_of_claiming (q := p.port) hdone hfree hopen hst)
  case failed => exact congrArg _ (publAt_of_failed (q := p.port) hdone hfree hopen hst hx)

end Sys2Proof.Machine

namespace Sys2Proof.Machine
open Sys2Proof

/-! ### Checks at issue that pass, at either level (R268, R270 to R272, R277, R309, R315) -/

/-- How the model writes that b must hold where a does. -/
theorem not_or_of_imp_true {a b : Bool} (h : a = true → b = true) : (!a || b) = true := by
  cases a with
  | false => rfl
  | true => exact h rfl

section
variable {q : Port} {sc mask : BitVec 3} {es : List Nat} {s : State}

theorem issueTransfer_of_ok {kind : EngKind} {al dst : Nat} {ok : List (Space × Space) → Bool} {sps : List (Space × Space)}
    (hchk : checkMoves (q.site.view s) q.site.who mask al (engMoves kind) = .ok sps) (hok : ok sps = true) :
    issueTransfer q kind al ok sc mask dst es s = q.issue kind sc mask es (touchMoves q.site.who (engMoves kind) s) := by
  simp only [issueTransfer, hchk, hok, if_true]

/-- The limits of a `copy` of rows of n bytes from a to d (R270). -/
structure CopyFits (d a n rows : Nat) : Prop where
  words : n % 4 = 0
  some_word : 4 ≤ n
  bound : n ≤ 2 ^ 30
  dst_aligned : d % 4 = 0
  src_aligned : a % 4 = 0
  some_row : 1 ≤ rows
  rows_bound : rows ≤ 65535

/-- The limits of its strides: rows of n bytes that do not meet (R270). -/
structure StridesFit (n dstr sstr : Nat) : Prop where
  dst_aligned : dstr % 4 = 0
  src_aligned : sstr % 4 = 0
  dst_apart : n ≤ dstr
  src_apart : n ≤ sstr

/-- A copy within its limits whose ranges pass their checks is issued: `.dirty` from scratchpad to die store only, `.tag` outside the
scratchpad only (R270). -/
theorem copyAt_of_ok {dirty tag two : Bool} {d a n rows dstr sstr : Nat} {sps : List (Space × Space)} (hfit : CopyFits d a n rows)
    (hstr : two = true → StridesFit n dstr sstr)
    (hchk : checkMoves (q.site.view s) q.site.who mask 4 (engMoves (.copy dirty tag d a n rows dstr sstr)) = .ok sps)
    (hdirty : dirty = true → sps.all (fun e => e == (.sp, .ds)) = true)
    (htag : tag = true → sps.all (fun e => e.1 != .sp && e.2 != .sp) = true) :
    copyAt q sc mask dirty tag two d a n rows dstr sstr es s =
      q.issue (.copy dirty tag d a n rows dstr sstr) sc mask es (touchMoves q.site.who (engMoves (.copy dirty tag d a n rows dstr sstr)) s) := by
  have hlim : decide (n % 4 = 0 ∧ 4 ≤ n ∧ n ≤ 2 ^ 30 ∧ 1 ≤ rows ∧ rows ≤ 65535 ∧ d % 4 = 0 ∧ a % 4 = 0) = true :=
    decide_eq_true ⟨hfit.words, hfit.some_word, hfit.bound, hfit.some_row, hfit.rows_bound, hfit.dst_aligned, hfit.src_aligned⟩
  have hstrides : (!two || decide (dstr % 4 = 0 ∧ sstr % 4 = 0 ∧ n ≤ dstr ∧ n ≤ sstr)) = true :=
    not_or_of_imp_true fun htwo =>
      have h := hstr htwo
      decide_eq_true ⟨h.dst_aligned, h.src_aligned, h.dst_apart, h.src_apart⟩
  have hspaces : ((!dirty || sps.all (fun e => e == (.sp, .ds))) && (!tag || sps.all (fun e => e.1 != .sp && e.2 != .sp))) = true :=
    Bool.and_eq_true_iff.mpr ⟨not_or_of_imp_true hdirty, not_or_of_imp_true htag⟩
  rw [copyAt, hlim, hstrides]
  exact issueTransfer_of_ok hchk hspaces

/-- A gather or scatter of a size that SUB encodes, whose ranges pass their checks, is issued (R271). -/
theorem gatherAt_of_ok {k le : Nat} {xs : List (Nat × Nat)} {kind : Nat → List (Nat × Nat) → Nat → EngKind} {sps : List (Space × Space)}
    (hlo : 2 ≤ le) (hhi : le ≤ 8)
    (hchk : checkMoves (q.site.view s) q.site.who mask (min (2 ^ le) 16) (engMoves (kind k xs (2 ^ le))) = .ok sps) :
    gatherAt q sc mask k xs (2 ^ le) kind es s =
      q.issue (kind k xs (2 ^ le)) sc mask es (touchMoves q.site.who (engMoves (kind k xs (2 ^ le))) s) := by
  have hsize : [4, 8, 16, 32, 64, 128, 256].contains (2 ^ le) = true := by
    obtain rfl | rfl | rfl | rfl | rfl | rfl | rfl : le = 2 ∨ le = 3 ∨ le = 4 ∨ le = 5 ∨ le = 6 ∨ le = 7 ∨ le = 8 := by omega
    all_goals rfl
  rw [gatherAt, if_pos hsize]
  exact issueTransfer_of_ok hchk rfl

/-- A collective whose group stands in the table, whose count fits it and whose two ranges pass their checks is issued (R272, R274). -/
theorem collAt_of_ok {kind : CollKind} {op : CollOp} {t : Ty} {d a c g n r tmo : Nat} (hg : g < 256)
    (hgrp : collGroup s q.site.ctx g = some (n, r, tmo)) (hsome : 1 ≤ c) (hbound : c ≤ 2 ^ 28) (hn : 2 ≤ n)
    (hparts : kind = .redsc ∨ kind = .allgat → c % n = 0) {ls ld : List Space}
    (hsrc : checkWords (q.site.view s) q.site.who mask false a (((collSizes kind c n r).1 * Ty.bytes t + 3) / 4) 0 = .ok ls)
    (hdst : checkWords (q.site.view s) q.site.who mask true d (((collSizes kind c n r).2 * Ty.bytes t + 3) / 4) 0 = .ok ld) :
    collAt q kind op mask t d a c g es s = q.issue (.coll kind op t d a c g 0) 5 mask es (touchAddrs q.site.who 1
      (pageSpots a ((collSizes kind c n r).1 * Ty.bytes t) ++ pageSpots d ((collSizes kind c n r).2 * Ty.bytes t)) s) := by
  have hlim : ¬(c = 0 ∨ 2 ^ 28 < c ∨ n < 2 ∨ ((kind = .redsc ∨ kind = .allgat) ∧ c % n ≠ 0)) := by
    rintro (h | h | h | ⟨hkind, h⟩)
    · omega
    · omega
    · omega
    · exact h (hparts hkind)
  simp only [collAt, if_pos hg, hgrp, if_neg hlim, hsrc, hdst]

/-- A signal write whose address passes its checks is its region's committing operation (R309). -/
theorem signalAt_of_ok {rd : Bool} {a : DWord} {kind : EngKind} {k : Acc}
    (hwr : resolve (q.site.view s) q.site.who a.toNat 8 8 mask true = .ok k)
    (hrd : rd = true → ∃ k, resolve (q.site.view s) q.site.who a.toNat 8 8 mask false = .ok k) :
    signalAt q rd sc mask a kind es s = q.commit kind sc mask es (touchAddrs q.site.who 8 [a.toNat] s) := by
  cases rd with
  | false => simp only [signalAt, hwr, Bool.false_eq_true, if_false]
  | true =>
    obtain ⟨j, hj⟩ := hrd rfl
    simp only [signalAt, hwr, hj, if_true]

/-- An enqueue that meets none of its fault's conditions is its region's committing operation (R315). -/
theorem enqAt_of_ok {barrier : Bool} {x d : DWord} (hgood : enqBad s q.site.ctx x.toNat d = false) :
    enqAt q barrier sc mask x d es s = q.commit (.enq x.toNat d.toNat barrier) sc mask es s := by
  simp only [enqAt, hgood, Bool.false_eq_true, if_false]

end

/-! ### Engine instructions whose operands are readable (R265 to R267) -/

section
variable {s : State} {p : Site} {ks : List Opnd} {es : List Nat} (hk : opndToks p ks = some es)
include hk

/-- With its tokens read and one free, an engine instruction goes on to its checks. -/
theorem withToken_of_free (hfree : tokenFree s p.grp = true) (k : List Nat → State → State) : withToken p ks k s = k es s := by
  simp only [withToken, hk, Port.withFree, Site.port, hfree, if_true]

/-- With none free it waits (R266). -/
theorem withToken_of_full (hfull : tokenFree s p.grp = false) (k : List Nat → State → State) : withToken p ks k s = waitFor p .tokenFree s := by
  simp only [withToken, hk, Port.withFree, Site.port, hfull, Bool.false_eq_true, if_false]

variable {h : BitVec 2} (hp : site? s = some p)
include hp

theorem exec_tjoin_of_full (hfull : tokenFree s p.grp = false) : exec (.tjoin h ks) s = .next (waitFor p .tokenFree s) := by
  change execTjoin ks s = _
  rw [execTjoin, portable_eq hp, withToken_of_full hk hfull]

theorem exec_kwait_of_failed {c : Cause} {o : Nat} (hfail : failedTok p.grp es = some (c, o)) :
    exec (.kwait h ks) s = .next (takeFault p .engineFailure none (failAux c o) s) := by
  change execKwait ks s = _
  rw [execKwait, portable_eq hp]
  simp only [hk, hfail]

theorem exec_kwait_of_pending (hgood : failedTok p.grp es = none) (hwait : es.any (fun e => tokState p.grp e = some .pending) = true) :
    exec (.kwait h ks) s = .next (waitFor p (.tokens es) s) := by
  change execKwait ks s = _
  rw [execKwait, portable_eq hp]
  simp only [hk, hgood, hwait, if_true]

variable {sc mask : BitVec 3} (hfree : tokenFree s p.grp = true)
include hfree

theorem exec_tjoin_eq : exec (.tjoin h ks) s = .next (issueEngine p .tjoin 0 0 es s) := by
  change execTjoin ks s = _
  rw [execTjoin, portable_eq hp, withToken_of_free hk hfree]

section
variable {dst src : MemOp} {d a : List DWord} (hd : memLanes s p dst = some d) (ha : memLanes s p src = some a)
include hd ha

/-- `copy` in its form of one row. -/
theorem exec_copy_row_eq {dirty tag : Bool} {len : Opnd} {n : DWord} (hn : opndOne s p .i32 len = some n) :
    exec (.copy h sc mask dirty tag dst src len none ks) s =
      .next (copyAt p.port sc mask dirty tag false (nth 0 d p.low).toNat (nth 0 a p.low).toNat n.toNat 1 0 0 es s) := by
  change execCopy sc mask dirty tag dst src len none ks s = _
  rw [execCopy, portable_eq hp]
  simp only [hd, ha, hn, withToken_of_free hk hfree]
  rfl

/-- `copy` in its form with strides. -/
theorem exec_copy_rows_eq {dirty tag : Bool} {len r ds ss : Opnd} {n rows dstr sstr : DWord} (hn : opndOne s p .i32 len = some n)
    (hr : opndOne s p .i32 r = some rows) (hds : opndOne s p .i32 ds = some dstr) (hss : opndOne s p .i32 ss = some sstr) :
    exec (.copy h sc mask dirty tag dst src len (some (r, ds, ss)) ks) s =
      .next (copyAt p.port sc mask dirty tag true (nth 0 d p.low).toNat (nth 0 a p.low).toNat n.toNat rows.toNat dstr.toNat sstr.toNat es s) := by
  change execCopy sc mask dirty tag dst src len (some (r, ds, ss)) ks s = _
  rw [execCopy, portable_eq hp]
  simp only [hd, ha, hn, hr, hds, hss, withToken_of_free hk hfree]
  rfl

theorem exec_coll_eq {kind : CollKind} {op : CollOp} {t : Ty} {cnt grp : Opnd} {c g : DWord} (hc : opndOne s p .i32 cnt = some c)
    (hg : opndOne s p .i32 grp = some g) :
    exec (.coll h kind op mask t dst src cnt grp ks) s =
      .next (collAt p.port kind op mask t (nth 0 d p.low).toNat (nth 0 a p.low).toNat c.toNat g.toNat es s) := by
  change execColl kind op mask t dst src cnt grp ks s = _
  rw [execColl, portable_eq hp]
  simp only [hd, ha, hc, hg, withToken_of_free hk hfree]

end

section
variable {pk x : MemOp} {ps : List DWord} {xs : List (Nat × Nat)} (hps : memLanes s p pk = some ps) (hxs : scattered s p x = some xs)
include hps hxs

theorem gatherScatter_eq (le : BitVec 4) (kind : Nat → List (Nat × Nat) → Nat → EngKind) :
    gatherScatter s sc mask le pk x ks kind = .next (gatherAt p.port sc mask (nth 0 ps p.low).toNat xs (2 ^ le.toNat) kind es s) := by
  rw [gatherScatter, portable_eq hp]
  simp only [hps, hxs, withToken_of_free hk hfree]

theorem exec_gather_eq {le : BitVec 4} {e : Opnd} : exec (.gather h sc mask le pk x e ks) s =
    .next (gatherAt p.port sc mask (nth 0 ps p.low).toNat xs (2 ^ le.toNat) .gather es s) :=
  gatherScatter_eq hk hp hfree hps hxs le .gather

theorem exec_scatter_eq {le : BitVec 4} {e : Opnd} : exec (.scatter h sc mask le x pk e ks) s =
    .next (gatherAt p.port sc mask (nth 0 ps p.low).toNat xs (2 ^ le.toNat) .scatter es s) :=
  gatherScatter_eq hk hp hfree hps hxs le .scatter

end

section
variable {m : MemOp} {x : Opnd} {a y : DWord} (ha : lowAddr s p m = some a) (hy : opndOne s p .i64 x = some y)
include ha hy

theorem signalWrite_eq (rd : Bool) (kind : Nat → DWord → EngKind) :
    signalWrite s rd sc mask m x ks kind = .next (signalAt p.port rd sc mask a (kind a.toNat y) es s) := by
  rw [signalWrite, portable_eq hp]
  simp only [ha, hy, withToken_of_free hk hfree]

theorem exec_sigset_eq : exec (.sigset h sc mask m x ks) s = .next (signalAt p.port false sc mask a (.sigset a.toNat y) es s) :=
  signalWrite_eq hk hp hfree ha hy false fun a x => .sigset a x

theorem exec_sigdec_eq : exec (.sigdec h sc mask m x ks) s = .next (signalAt p.port true sc mask a (.sigdec a.toNat y) es s) :=
  signalWrite_eq hk hp hfree ha hy true fun a x => .sigdec a x

end

theorem exec_enq_eq {b : Bool} {q d : Opnd} {x y : DWord} (hx : opndOne s p .i32 q = some x) (hy : opndOne s p .i64 d = some y) :
    exec (.enq h b sc mask q d ks) s = .next (enqAt p.port b sc mask x y es s) := by
  change execEnq b sc mask q d ks s = _
  rw [execEnq, portable_eq hp]
  simp only [hx, hy, withToken_of_free hk hfree]

/-- The operands of a `post` are as many values as the handler's first block has header arguments, then its tokens (R277). -/
theorem exec_post_eq {seg fn : Opnd} {vs : List Opnd} {i j f : Nat} {o : Obj} {b : CBlk} {bs : List CBlk} {vals : List (List Val)}
    (hfn : calleeIndex s p fn = some i) (hobj : objectAt s p.ctx p.fr.fn = some (j, o)) (hf : tableFn o i = some f)
    (hbs : blocksOf s f = b :: bs) (hlen : vs.length = b.args.length) (hvals : targetArgs s p b { blk := 0, args := vs } = some vals) :
    exec (.post h sc seg fn (vs ++ ks)) s = .next (postAt p.port sc (immNat seg) f vals es s) := by
  change execPost sc seg fn (vs ++ ks) s = _
  rw [execPost, portable_eq hp]
  simp only [hfn, hobj, hf, hbs, List.take_left' hlen, List.drop_left' hlen, hvals, withToken_of_free hk hfree]

end

/-- Settles O30: with its operands read, each instruction goes on to its checks; where they pass, it is issued. -/
theorem engineInstructionsIssue : Obligations.EngineInstructionsIssue := by
  unfold Obligations.EngineInstructionsIssue
  intro s p hp hfree h ks es hk sc mask
  refine ⟨exec_tjoin_eq hk hp hfree, fun dst src d a hd ha => ⟨?row, ?rows, ?coll⟩, fun le pk x e ps xs sps hps hxs hlo hhi =>
    ⟨fun hchk => ?gather, fun hchk => ?scatter⟩, fun m x a y ha hy hwr => ⟨?sigset, fun hrd => ?sigdec⟩, ?enq, ?post⟩
  case row =>
    intro len n dirty tag sps hn hwords hword hbound hdst hsrc k hchk hdirty htag
    have hfit : CopyFits (nth 0 d p.low).toNat (nth 0 a p.low).toNat n.toNat 1 :=
      ⟨hwords, hword, hbound, hdst, hsrc, Nat.le_refl 1, by decide⟩
    exact (exec_copy_row_eq hk hp hfree hd ha hn).trans (congrArg _ (copyAt_of_ok (q := p.port) hfit (by simp) hchk hdirty htag))
  case rows =>
    intro len n dirty tag r ds ss rows dstr sstr sps hn hr hds hss hwords hword hbound hdst hsrc hrow hrows hdstr hsstr hdapart hsapart
      k hchk hdirty htag
    have hfit : CopyFits (nth 0 d p.low).toNat (nth 0 a p.low).toNat n.toNat rows.toNat :=
      ⟨hwords, hword, hbound, hdst, hsrc, hrow, hrows⟩
    have hstr : StridesFit n.toNat dstr.toNat sstr.toNat := ⟨hdstr, hsstr, hdapart, hsapart⟩
    exact (exec_copy_rows_eq hk hp hfree hd ha hn hr hds hss).trans
      (congrArg _ (copyAt_of_ok (q := p.port) hfit (fun _ => hstr) hchk hdirty htag))
  case coll =>
    intro kind op t cnt grp c g n r tmo hc hg hentry hgrp hsome hbound hn hparts z b hsrc hdst
    obtain ⟨ls, hsrc⟩ := hsrc
    obtain ⟨ld, hdst⟩ := hdst
    exact (exec_coll_eq hk hp hfree hd ha hc hg).trans
      (congrArg _ (collAt_of_ok (q := p.port) hentry hgrp hsome hbound hn hparts hsrc hdst))
  case gather =>
    exact (exec_gather_eq hk hp hfree hps hxs).trans (congrArg _ (gatherAt_of_ok (q := p.port) (kind := .gather) hlo hhi hchk))
  case scatter =>
    exact (exec_scatter_eq hk hp hfree hps hxs).trans (congrArg _ (gatherAt_of_ok (q := p.port) (kind := .scatter) hlo hhi hchk))
  case sigset =>
    obtain ⟨k, hwr⟩ := hwr
    exact (exec_sigset_eq hk hp hfree ha hy).trans (congrArg _ (signalAt_of_ok (q := p.port) hwr (by simp)))
  case sigdec =>
    obtain ⟨k, hwr⟩ := hwr
    exact (exec_sigdec_eq hk hp hfree ha hy).trans (congrArg _ (signalAt_of_ok (q := p.port) hwr fun _ => hrd))
  case enq =>
    intro b q d x y hx hy hgood
    exact (exec_enq_eq hk hp hfree hx hy).trans (congrArg _ (enqAt_of_ok (q := p.port) hgood))
  case post =>
    intro seg fn vs i j o f b bs vals hfn hobj hf hbs hlen hvals
    exact exec_post_eq hk hp hfree hfn hobj hf hbs hlen hvals

/-! ### What an issued engine instruction leaves (R265, R266, R268) -/

section
variable {s : State} {p : Site}

theorem exec_ktest_of_failed {h : BitVec 2} {k : Opnd} {e o : Nat} {c : Cause} (hp : site? s = some p) (hk : opndTok p k = some e)
    (hfail : tokState p.grp e = some (.failed c o)) :
    exec (.ktest h k) s = .next (takeFault p .engineFailure none (failAux c o) s) := by
  change execKtest k s = _
  rw [execKtest, portable_eq hp]
  simp only [hk, hfail]

variable {kind : EngKind} {sc mask : BitVec 3} {es : List Nat}

/-- An issue changes tokens, gated operations and frames of its group, and no storage. -/
theorem sameStorage_issueEngine : SameStorage s (issueEngine p kind sc mask es s) := ⟨rfl, rfl, rfl, rfl, rfl, rfl⟩

/-- Its group holds the new token, Pending; its side has gated the instruction and defined the token's value. -/
theorem issueEngine_group (hG : s.groups[p.g]? = some p.grp) (hS : p.grp.sides[p.sd]? = some p.side)
    (hF : ∃ r, p.side.core.frames = p.fr :: r) :
    ∃ G S, (issueEngine p kind sc mask es s).groups[p.g]? = some G ∧ G.sides[p.sd]? = some S ∧
      { e := s.ids, st := .pending } ∈ G.toks ∧ S.gated = p.side.gated ++ [.engine s.ids] ∧
      S.core.frames.head? = some (p.fr.define p.mask (tokVals s.ids) p.len) := by
  obtain ⟨r, hr⟩ := hF
  refine ⟨_, { p.side with gated := p.side.gated ++ [.engine s.ids], age := p.side.age + gateCount [.engine s.ids],
                           core := p.side.core.onFrame (Frame.define p.mask (tokVals s.ids) p.len) },
    updSide_groups _ _ _ _ _ (updSide_groups _ _ _ _ _ (updGroup_groups _ hG)), ?side, ?token, rfl, ?frame⟩
  case side =>
    rw [modifyAt_modifyAt, modifyAt_getElem?, if_pos rfl, hS]
    rfl
  case token => exact List.mem_append_right _ (List.mem_singleton_self _)
  case frame => simp only [SideCore.onFrame, hr, List.head?_cons]

end

/-- A token's value names its engine instruction in every lane (R21). -/
theorem nth_tokVals {l : Nat} (e : Nat) (hl : l < 128) : nth (.bits 0) (tokVals e) l = .tok e := by
  rw [nth, tokVals, List.getD_eq_getElem?_getD, List.getElem?_replicate_of_lt hl, Option.getD_some]

/-- Settles O31: the waits and faults by the tokens' states; then what an issue leaves in its group, its side and its frame. -/
theorem tokensAndTheirWaits : Obligations.TokensAndTheirWaits := by
  unfold Obligations.TokensAndTheirWaits
  refine ⟨fun s p hp h ks es hk => ⟨?full, ?pending, ?failed, ?tested⟩, fun s p hp kind sc mask es => ?issued⟩
  case full => exact exec_tjoin_of_full hk hp
  case pending => exact exec_kwait_of_pending hk hp
  case failed => exact fun c o hfail => exec_kwait_of_failed hk hp hfail
  case tested => exact fun k e c o htok hfail => exec_ktest_of_failed hp htok hfail
  case issued =>
    obtain ⟨-, hG, hS, hF, -, -⟩ := site?_some hp
    obtain ⟨G, S, hgroup, hside, htoken, hgated, hframe⟩ := issueEngine_group (kind := kind) (sc := sc) (mask := mask) (es := es) hG hS hF
    have hdef := definesIn_define p (tokVals s.ids)
    exact ⟨sameStorage_issueEngine, rfl, rfl, G, S, _, hgroup, hside, hframe, htoken, hgated, hdef.next, hdef.pc,
      fun l hl hact => (hdef.active l hl hact).trans (nth_tokVals s.ids hl)⟩

end Sys2Proof.Machine

namespace Sys2Proof.Machine
open Sys2Proof

/-! ### Barriers of a native group (R262 to R264) -/

/-- The state in which every active lane of a native operation has arrived on barrier b, its region's gated operations performed before
(R181, R262). -/
def NSite.barArrived (p : NSite) (b : Nat) (s : State) : State := arriveAll p.site b (p.flush s)

section
variable {s : State} {p : NSite} {u : BitVec 9} {b : Nat} (hp : nsite? s = some p) (hb : (p.s_ u.toNat).toNat % 16 = b)
include hp hb

/-- `sbar` of kind 1 leaves its phase for a later wait. -/
theorem exec_sbar_arrive_of_arrives (harr : arriveMisuse p.site (p.site.block (p.pop s)) b = none) :
    exec (.sbar u 1) s = .next (p.committed (p.putS (u.toNat + 1) 2
      (nth 0 (lanePhases p.site (p.site.block (p.barArrived b (p.pop s))) b) p.low) (p.barArrived b (p.pop s)))) := by
  subst hb
  change execSbar u 1 s = _
  rw [execSbar, native_eq hp]
  simp only [harr]
  rfl

/-- `sbar` of kind 0 waits after the MARK that follows it (R264). -/
theorem exec_sbar_of_arrives (harr : arriveMisuse p.site (p.site.block (p.pop s)) b = none) :
    exec (.sbar u 0) s = .next (p.committed (p.keepPend (.phase (BitVec.ofNat 32 b)) (p.barArrived b (p.pop s)))) := by
  subst hb
  change execSbar u 0 s = _
  rw [execSbar, native_eq hp]
  simp only [harr]
  rfl

theorem exec_sbar_of_misuse {i : Nat} (hbad : arriveMisuse p.site (p.site.block (p.pop s)) b = some i) :
    exec (.sbar u 1) s = .next (p.fault .barrierMisuse (some i) (BitVec.ofNat 64 b) (p.pop s)) := by
  subst hb
  change execSbar u 1 s = _
  rw [execSbar, native_eq hp]
  simp only [hbad]
  rfl

/-- `sbar` of kind 2 refuses a phase that lies ahead of a lane's last arrival (R262): with none it waits for the phase. -/
theorem exec_sbar_wait_of_arrived {ph : Word} (hph : p.s_ (u.toNat + 1) = ph)
    (hwin : ∀ i, i < 128 → p.e.mask.getLsbD i = true →
      (ph - lastPhase (p.site.block (p.pop s)) b (p.site.thread i) : Word).toNat = 0 ∨
      2 ^ 31 ≤ (ph - lastPhase (p.site.block (p.pop s)) b (p.site.thread i) : Word).toNat) :
    exec (.sbar u 2) s = .next (p.barWait b (List.replicate 128 ph) (p.pop s)) := by
  have hnone : (lanesOf p.e.mask).find? (fun i =>
      decide (1 ≤ (ph - lastPhase (p.site.block (p.pop s)) b (p.site.thread i) : Word).toNat) &&
      decide ((ph - lastPhase (p.site.block (p.pop s)) b (p.site.thread i) : Word).toNat < 2 ^ 31)) = none := by
    rw [List.find?_eq_none]
    intro i hi
    obtain ⟨hlt, hact⟩ := List.mem_filter.mp hi
    have hok := hwin i (List.mem_range.mp hlt) hact
    simp only [Bool.and_eq_true, decide_eq_true_eq]
    omega
  subst hb hph
  change execSbar u 2 s = _
  rw [execSbar, native_eq hp]
  simp only [hnone]
  rfl

end

/-! ### Waits of `ssys` (R311 to R313, R318, R320) -/

/-- `ssys` 9 gates a write of a counter's configuration, its operands in registers (R394; log entry 45). -/
theorem exec_ssys_ctrctl {s : State} {p : NSite} (hp : nsite? s = some p) (u : BitVec 9) : exec (.ssys u 9) s =
    .next (p.gate [.ctrctl ((p.s_ u.toNat).toNat % 16) (p.s_ (u.toNat + 1)) ((p.s_ u.toNat).getLsbD 4)] (p.pop s)) := by
  change execSsys u 9 s = _
  rw [execSsys, native_eq hp]
  rfl

theorem exec_ssys_wait {s : State} {p : NSite} (hp : nsite? s = some p) (u : BitVec 9) :
    exec (.ssys u 2) s = .next (p.waitSignal u.toNat (p.pop s)) := by
  change execSsys u 2 s = _
  rw [execSsys, native_eq hp]
  rfl

/-- The state in which a native wait reads the word at key a: its group's stores there performed, and what is owed to its lowest lane
there (R214, R219). -/
def NSite.readsWord (p : NSite) (a : Nat) (s : State) : State := reach (.thread p.g p.site.low) false a 8 (landOver a 8 p.g s)

/-- The read takes no time. -/
theorem NSite.readsWord_time (p : NSite) (a : Nat) (s : State) : (p.readsWord a s).time = s.time := by
  simp only [NSite.readsWord, landOver, reach_time, landWhere_time]

section
variable {s t : State} {p : NSite} {n : Nat} {cc : Cond} {acc : Acc}

/-- The descriptor of `ssys` 2 from s[n] holds a condition and a scope, its other bits are clear, and the group waits for the first time
(R320). -/
structure NSite.WaitsNew (p : NSite) (n : Nat) (cc : Cond) : Prop where
  cond : Cond.ofCode ((p.s_ (n + 4)).toNat % 8) = some cc
  clear : (p.s_ (n + 4)).toNat / 2 ^ 10 = 0
  scope : (p.s_ (n + 4)).toNat / 8 % 8 < 6
  fresh : p.site.side.pend = .none

/-- The descriptor names no deadline (R320). -/
def NSite.noDeadline (p : NSite) (n : Nat) : Bool := decide ((p.s_ (n + 4)).toNat / 2 ^ 9 % 2 = 1)

/-- A first wait whose address passes its checks ends with the value read, ends at its passed deadline, or registers (R311 to R313). -/
theorem NSite.waitSignal_of_ok (hw : p.WaitsNew n cc)
    (hacc : resolve (touchAddrs p.site.who 8 [(p.s2 n).toNat] s) p.site.who (p.s2 n).toNat 8 8
      (BitVec.ofNat 3 ((p.s_ (n + 4)).toNat / 2 ^ 6)) false = .ok acc)
    (ht : p.readsWord acc.key (touchAddrs p.site.who 8 [(p.s2 n).toNat] s) = t) :
    p.waitSignal n s =
      if condMet cc (laneWord t p.ctx (p.nat.gatedOf p.e.side) p.site.low acc.key 8) (p.s2 (n + 2)) = true then
        p.keepPend .none (p.putS (n + 6) 2 1
          (p.putS2 (n + 2) 2 (laneWord t p.ctx (p.nat.gatedOf p.e.side) p.site.low acc.key 8) t))
      else if (!p.noDeadline n && decide (s.time + (p.s_ (n + 5)).toNat ≤ s.time)) = true then p.keepPend .none (p.putS (n + 6) 2 0 t)
      else p.wait (.signal { a := acc.key, cond := cc, x := p.s2 (n + 2),
                             deadline := if p.noDeadline n then none else some (s.time + (p.s_ (n + 5)).toNat), hit := none })
        (if p.noDeadline n then t else p.keepPend (.deadline (s.time + (p.s_ (n + 5)).toNat)) t) := by
  have htime : t.time = s.time := by rw [← ht, NSite.readsWord_time, touchAddrs_time]
  have hlegal : ¬((p.s_ (n + 4)).toNat / 2 ^ 10 ≠ 0 ∨ 6 ≤ (p.s_ (n + 4)).toNat / 8 % 8) := by
    rintro (h | h)
    · exact h hw.clear
    · exact absurd hw.scope (Nat.not_lt.mpr h)
  rw [NSite.readsWord] at ht
  simp only [NSite.waitSignal, hw.cond, if_neg hlegal, hw.fresh, hacc, ht, htime]
  rfl

end

/-- Settles O41: an arrival that is no misuse, one that is, and a wait for a phase that the lanes have arrived in; then `ssys` 9 and 2. -/
theorem nativeBarrierAndWaitResults : Obligations.NativeBarrierAndWaitResults := by
  unfold Obligations.NativeBarrierAndWaitResults
  intro s p hp u
  refine ⟨fun harr => ⟨?arrive, ?barrier⟩, fun i hbad => ?misuse, fun hwin => ?barWait, fun k hk => ?control, ?signal⟩
  case arrive => exact exec_sbar_arrive_of_arrives hp rfl harr
  case barrier => exact exec_sbar_of_arrives hp rfl harr
  case misuse => exact (exec_sbar_of_misuse hp rfl hbad).trans (by rw [NSite.fault_eq])
  case barWait => exact exec_sbar_wait_of_arrived hp rfl rfl hwin
  case control =>
    subst hk
    exact exec_ssys_ctrctl hp u
  case signal =>
    intro c x T nodl cc acc hcond hclear hscope hpend w hacc
    have hwait := (exec_ssys_wait hp u).trans (congrArg _ (NSite.waitSignal_of_ok ⟨hcond, hclear, hscope, hpend⟩ hacc rfl))
    refine ⟨fun hmet => ?met, fun hnot hdl hpast => ?passed, fun hnot hopen => ?waits⟩
    case met => exact hwait.trans (congrArg _ (if_pos hmet))
    case passed =>
      have hover : (!nodl && decide (T ≤ s.time)) = true := by simp [hdl, hpast]
      exact hwait.trans (congrArg _ ((if_neg (Bool.eq_false_iff.mp hnot)).trans (if_pos hover)))
    case waits =>
      have hstill : ¬(!nodl && decide (T ≤ s.time)) = true := by
        obtain hopen | hopen := hopen
        · simp [hopen]
        · simp [Nat.not_le.mpr hopen]
      exact hwait.trans (congrArg _ ((if_neg (Bool.eq_false_iff.mp hnot)).trans (if_neg hstill)))

end Sys2Proof.Machine

namespace Sys2Proof.Machine
open Sys2Proof

/-! ### Descriptors and tails of command queues (R284, R285, R287) -/

/-- What the hardware reads at a virtual address leaves everything but storage and what is held back or waits as it was (R219). -/
theorem onlyStores_reachVa (x va n : Nat) (s : State) : OnlyStores s (reachVa x va n s) :=
  onlyStores_foldl _ (fun s i => by split; exacts [onlyStores_reach .., .refl s]) _ s

/-- Such a read changes no context. -/
theorem ctxAt_reachVa (x va n y : Nat) (s : State) : ctxAt (reachVa x va n s) y = ctxAt s y := by
  rw [ctxAt, ctxAt, (onlyStores_reachVa x va n s).ctxs]

/-- Only what the change makes of the queue as it stands matters. -/
theorem updQueue_congr {q : Nat} {f h : Queue → Queue} {s : State} (hf : f (queueAt s q) = h (queueAt s q)) :
    updQueue q f s = updQueue q h s := by
  rw [updQueue, updQueue, hf]

section
variable {s : State} {q t : Nat} {d : BitVec 128}

/-- A free queue takes a descriptor that enables it, its counts at 0 (R284, R287). -/
theorem exec_queueEnable_of_free (hq : q < 1024) (hfree : (queueAt s q).en = false) (hd : ((queueAt s q).fields d).mayEnable s = true) :
    exec (.queueEnable q d) s = .next (updQueue q (fun _ => { (queueAt s q).fields d with
      en := true, st := .empty, before := .empty, err := 0, head := 0, tail := 0, open_ := [], waits := [] }) s) := by
  have hopen : ¬(1024 ≤ q ∨ (queueAt s q).en = true) := by simp [hfree, hq]
  change execQueueEnable q d s = _
  rw [execQueueEnable, enableQueue, if_neg hopen]
  exact congrArg _ (updQueue_congr (if_pos hd))

/-- A queue whose EN becomes 0 is disabled (R287). -/
theorem exec_queueDisable_of_queue (hq : q < 1024) :
    exec (.queueDisable q) s = .next (updQueue q (fun _ => { queueAt s q with en := false, st := .disabled, waits := [] }) s) := by
  change execQueueDisable q s = _
  rw [execQueueDisable, if_neg (Nat.not_le.mpr hq)]
  exact congrArg _ (updQueue_congr rfl)

/-- An empty queue of a context that is not halted finds work where TAIL is past the count of entries consumed (R285, R287). -/
theorem exec_tailPoll_of_work (hempty : (queueAt s q).st = .empty)
    (ht : ringTail (reachVa (queueAt s q).ctx (queueAt s q).rbase 8 s) q = some t)
    (hstill : (queueAt (reachVa (queueAt s q).ctx (queueAt s q).rbase 8 s) q).st = .empty)
    (hwork : (queueAt (reachVa (queueAt s q).ctx (queueAt s q).rbase 8 s) q).head < t)
    (hrun : (ctxAt s (queueAt (reachVa (queueAt s q).ctx (queueAt s q).rbase 8 s) q).ctx).st ≠ .halted) :
    exec (.tailPoll q) s =
      .next (updQueue q (fun Q => { Q with tail := t, st := .ready }) (reachVa (queueAt s q).ctx (queueAt s q).rbase 8 s)) := by
  have hon : ¬((queueAt s q).st = .disabled ∨ (queueAt s q).st = .error) := by simp [hempty]
  rw [← ctxAt_reachVa (queueAt s q).ctx (queueAt s q).rbase 8] at hrun
  change execTailPoll q s = _
  rw [execTailPoll, readTail]
  simp only [if_neg hon, ht]
  exact congrArg _ (updQueue_congr (by simp [readyState, hstill, hwork, hrun]))
end

/-! ### The signal of an entry (R234, R235, R310) -/

section
variable {s : State} {x k : Nat} {f : DWord → DWord}

/-- Hardware writes a signal on a line that is open to it and holds no header there. -/
theorem hwSignal_of_open (hline : hiddenLine (reach .outside true k 8 s) x k = false)
    (hhdr : noHeader (reach .outside true k 8 s) x k 8 = true) :
    hwSignal x k f s = storeWord x k (f (loadWord (reach .outside true k 8 s) x k)) (reach .outside true k 8 s) := by
  simp [hwSignal, hline, hhdr]

/-- On a hidden line, and over a header, the write is discarded and counted (R234, R235). -/
theorem hwSignal_of_closed (h : hiddenLine (reach .outside true k 8 s) x k = true ∨ noHeader (reach .outside true k 8 s) x k 8 = false) :
    hwSignal x k f s = chargeEv x 0x74 1 (reach .outside true k 8 s) := by
  have hclosed : (hiddenLine (reach .outside true k 8 s) x k || !noHeader (reach .outside true k 8 s) x k 8) = true := by simpa using h
  simp only [hwSignal, if_pos hclosed]
end

/-- The value that a queue's wait reads at the key of its signal: 0 on a hidden line (R234). -/
def waitedWord (x k : Nat) (u : State) : DWord := if hiddenLine u x k = true then 0 else loadWord u x k

/-! ### The entry at the head of a queue (R286 to R289, R310) -/

section
variable {s : State} {q kind t : Nat} {e : QEntry}

/-- An entry without operation starts (R286). -/
theorem exec_queueNoOperation_of_serving (S : Serving s q 5 e t) :
    exec (.queueNoOperation q) s = .next (startEntry q t (queueSeen s q)) := by
  change execQueueNoOperation q s = _
  rw [execQueueNoOperation, serveHead_eq S]

/-- A launch whose descriptor passes the checks is accepted (R288, R289). -/
theorem exec_queueLaunch_of_ok (S : Serving s q 1 e t) {u : State} {L : Launch}
    (hu : u = reachLaunch (queueAt (queueSeen s q) q).ctx e.arg0 (queueSeen s q)) (hL : acceptLaunch u q e.arg0 = .ok L) :
    exec (.queueLaunch q) s = .next (updQueue q (fun Q => { Q with open_ := Q.open_ ++ [u.launches.length] })
      (startEntry q t { u with launches := u.launches ++ [L] })) := by
  change execQueueLaunch q s = _
  simp only [execQueueLaunch, serveHead_eq S, ← hu, hL]

/-- A launch whose descriptor fails a check is refused with the check's code (R288). -/
theorem exec_queueLaunch_of_error (S : Serving s q 1 e t) {c : Nat}
    (hc : acceptLaunch (reachLaunch (queueAt (queueSeen s q) q).ctx e.arg0 (queueSeen s q)) q e.arg0 = .error c) :
    exec (.queueLaunch q) s = .next (queueFail q c (queueSeen s q)) := by
  change execQueueLaunch q s = _
  simp only [execQueueLaunch, serveHead_eq S, hc]

variable {k : Nat}

theorem entrySignal_of_key (hk : signalKey s (queueAt s q).ctx e.arg0 = some k) : entrySignal s q e = .ok k := by
  simp only [entrySignal, hk]

/-- An entry that decrements a mapped signal starts, and hardware writes the signal (R310). -/
theorem exec_queueDecrement_of_key (S : Serving s q 3 e t)
    (hk : signalKey (queueSeen s q) (queueAt (queueSeen s q) q).ctx e.arg0 = some k) :
    exec (.queueDecrement q) s = .next (hwSignal (queueAt (queueSeen s q) q).ctx k (· - BitVec.ofNat 64 e.arg1)
      (startEntry q t (queueSeen s q))) := by
  change execQueueDecrement q s = _
  simp only [execQueueDecrement, serveHead_eq S, entrySignal_of_key hk]

/-- An entry that sets a mapped signal starts, and hardware writes the signal (R310). -/
theorem exec_queueSet_of_key (S : Serving s q 4 e t)
    (hk : signalKey (queueSeen s q) (queueAt (queueSeen s q) q).ctx e.arg0 = some k) :
    exec (.queueSet q) s = .next (hwSignal (queueAt (queueSeen s q) q).ctx k (fun _ => BitVec.ofNat 64 e.arg1)
      (startEntry q t (queueSeen s q))) := by
  change execQueueSet q s = _
  simp only [execQueueSet, serveHead_eq S, entrySignal_of_key hk]

variable {u : State}

/-- A wait whose signal meets the condition starts, and holds nothing back (R310). -/
theorem exec_queueWait_of_met (S : Serving s q 2 e t)
    (hk : signalKey (queueSeen s q) (queueAt (queueSeen s q) q).ctx e.arg0 = some k)
    (hu : u = reach .outside false k 8 (queueSeen s q))
    (hmet : condMet .le (waitedWord (queueAt (queueSeen s q) q).ctx k u) (BitVec.ofNat 64 e.arg1) = true) :
    exec (.queueWait q) s = .next (endQueueWait q (startEntry q t u)) := by
  subst hu
  rw [waitedWord] at hmet
  change execQueueWait q s = _
  simp only [execQueueWait, serveHead_eq S, entrySignal_of_key hk, if_pos hmet]

/-- A wait whose signal does not meet the condition starts, and its queue watches the signal (R286, R310). -/
theorem exec_queueWait_of_not_met (S : Serving s q 2 e t)
    (hk : signalKey (queueSeen s q) (queueAt (queueSeen s q) q).ctx e.arg0 = some k)
    (hu : u = reach .outside false k 8 (queueSeen s q))
    (hnot : condMet .le (waitedWord (queueAt (queueSeen s q) q).ctx k u) (BitVec.ofNat 64 e.arg1) = false) :
    exec (.queueWait q) s = .next (endQueueWait q (updQueue q (fun R => { R with st := .waiting, waits := [((queueAt (queueSeen s q) q).head,
      { a := k, cond := .le, x := BitVec.ofNat 64 e.arg1, deadline := none, hit := none })] }) (startEntry q t u))) := by
  subst hu
  rw [waitedWord] at hnot
  change execQueueWait q s = _
  simp only [execQueueWait, serveHead_eq S, entrySignal_of_key hk, if_neg (Bool.eq_false_iff.mp hnot)]
end

end Sys2Proof.Machine

namespace Sys2Proof
open Sys2Proof.Machine

/-- Settles O43: the descriptor and the tail of a queue, then the entry at its head by its kind. -/
theorem queueEvents : Obligations.QueueEvents := by
  unfold Obligations.QueueEvents
  intro s q Q
  refine ⟨fun hq => ⟨fun d hfree hd => exec_queueEnable_of_free hq hfree hd, exec_queueDisable_of_queue hq⟩, ?tail, ?serve⟩
  case tail =>
    intro t _ ht hempty hstill hwork hrun
    exact exec_tailPoll_of_work hempty ht hstill hwork hrun
  case serve =>
    intro kind e t S seen x started
    refine ⟨?noOperation, ?launch, fun k hk => ⟨?opened, ?closed, ?wait⟩⟩
    case noOperation =>
      rintro rfl
      exact exec_queueNoOperation_of_serving S
    case launch =>
      rintro rfl u
      exact ⟨fun L hL => exec_queueLaunch_of_ok S rfl hL, fun c hc => exec_queueLaunch_of_error S hc⟩
    case opened =>
      intro hline hhdr
      refine ⟨?_, ?_⟩ <;> rintro rfl
      · exact (exec_queueDecrement_of_key S hk).trans (congrArg _ (hwSignal_of_open hline hhdr))
      · exact (exec_queueSet_of_key S hk).trans (congrArg _ (hwSignal_of_open hline hhdr))
    case closed =>
      intro hclosed
      refine ⟨?_, ?_⟩ <;> rintro rfl
      · exact (exec_queueDecrement_of_key S hk).trans (congrArg _ (hwSignal_of_closed hclosed))
      · exact (exec_queueSet_of_key S hk).trans (congrArg _ (hwSignal_of_closed hclosed))
    case wait =>
      rintro rfl
      exact ⟨fun hmet => exec_queueWait_of_met S hk rfl hmet, fun hnot => exec_queueWait_of_not_met S hk rfl hnot⟩

end Sys2Proof

namespace Sys2Proof.Machine
open Sys2Proof

/-! ### Placement and stealing (R290 to R294) -/

section
variable {s t : State} {cl l : Nat} {r : List Nat} {L : Launch}

/-- The first launch in order places its next block where it has room (R292, R293). -/
theorem exec_blockPlace_of_room (hl : placeOrder s cl = l :: r) (ht : placeNext l cl s = some t) : exec (.blockPlace cl) s = .next t := by
  change execBlockPlace cl s = _
  simp only [execBlockPlace, hl, placeFirst, ht]

/-- The first launch in order whose block has waited 1 ms holds the later ones back (R293). -/
theorem exec_blockWaitLimit_of_waited {w : Nat} (hl : placeOrder s cl = l :: r) (hL : s.launches[l]? = some L)
    (hw : (cl, w) ∈ L.waiting) (hlong : w + 1000000 ≤ s.time) :
    exec (.blockWaitLimit cl) s = .next { s with clusters := modifyAt (fun C => { C with hold := some l }) s.clusters cl } := by
  have hfirst : L.waiting.any (fun w => w.1 == cl && decide (w.2 + 1000000 ≤ s.time)) = true :=
    List.any_eq_true.mpr ⟨(cl, w), hw, by simp [hlong]⟩
  change execBlockWaitLimit cl s = _
  simp only [execBlockWaitLimit, hl, List.find?_cons, hL, hfirst]

/-- The crew of cluster cl that takes a block of launch l, with its room. -/
def stealRoom (s : State) (l cl : Nat) (L : Launch) : Option (Nat × Nat × List (Nat × Nat × Nat × Nat)) :=
  bestCrew s (2 ^ L.crewLog) (fun c => crewRoom s L.ctx none c (2 ^ L.crewLog) (L.ntid / 128) (partSize (imgShared s L.kaddr) L.crewLog)
    (if overLimit s L (dieOf (8 * cl)) 0 = true then 0 else spillArea s L (dieOf (8 * cl)) 0)) (clusterCrews s l cl (2 ^ L.crewLog))

/-- The range that cluster cl steals from: of a sibling while its die has one, else of another die. -/
def stolenFrom (L : Launch) (cl : Nat) : Option (Nat × Nat × Nat) :=
  if L.ranges.any (fun r => decide (dieOf (8 * r.1) = dieOf (8 * cl))) = true
  then stealFrom L.ranges (fun c => decide (dieOf (8 * c) = dieOf (8 * cl)))
  else stealFrom L.ranges (fun c => !decide (dieOf (8 * c) = dieOf (8 * cl)))

/-- A cluster with room and no block left takes the upper half of the range that it steals from (R291). -/
theorem exec_workSteal_of_room {c lo hi : Nat} (hL : s.launches[l]? = some L) (htravel : L.travel = none) (hopen : L.complete = false)
    (hnext : nextBlock L cl = none) (hdie : L.dies.getLsbD (dieOf (8 * cl)) = true) (hroom : (stealRoom s l cl L).isSome = true)
    (hfrom : stolenFrom L cl = some (c, lo, hi)) :
    exec (.workSteal l cl) s = .next { s with
      launches := modifyAt (fun L => { L with
        ranges := L.ranges.map (fun r => if r = (c, lo, hi) then (c, lo, hi - (hi - lo) / 2) else r) ++ [(cl, hi - (hi - lo) / 2, hi)] })
        s.launches l } := by
  have hgo : ¬(L.travel.isSome = true ∨ L.complete = true ∨ (nextBlock L cl).isSome = true ∨ (stealRoom s l cl L).isNone = true ∨
      (!L.dies.getLsbD (dieOf (8 * cl))) = true) := by
    simpa [htravel, hopen, hnext, hdie, Option.isSome_iff_ne_none] using hroom
  rw [stealRoom] at hgo
  rw [stolenFrom] at hfrom
  change execWorkSteal l cl s = _
  simp only [execWorkSteal, hL, if_neg hgo, hfrom]
end

/-! ### Dispatch (R296) -/

/-- Core c after the clock in which candidate i has been chosen. -/
def dispatched (c i : Nat) (t : State) : State :=
  noteDispatch c i { t with
    cores := modifyAt (fun C => { C with ptr := i, ages := aged C.ages ((readyCands t c).map (·.1)) i }) t.cores c }

section
variable {s u : State} {c i g sd : Nat}

/-- Candidate i, side sd of group g, is the one that the ages and the pointer of core c choose (R296). -/
structure Chosen (t : State) (c i g sd : Nat) : Prop where
  index : pickCand (nth Core.reset t.cores c).ptr (nth Core.reset t.cores c).ages ((readyCands t c).map (·.1)) = some i
  side : (readyCands t c).find? (fun e => e.1 = i) = some (i, g, sd)

/-- The next instruction of a portable candidate issues next (R296). -/
theorem exec_bundleDispatch_of_portable (h : Chosen (tickCore c s) c i g sd) (hu : u = dispatched c i (tickCore c s))
    (hnat : (u.groups[g]?).bind Group.native = none) :
    exec (.bundleDispatch c) s =
      .next { u.updGroup g (fun G => { G with sides := modifyAt (fun S =>
        { S with turns := S.turns + (if G.stacked = true then 1 else 0), unchecked := S.unchecked + 1 }) G.sides sd }) with
          issue := .portable g sd 0 } := by
  rw [dispatched] at hu
  change execBundleDispatch c s = _
  simp only [execBundleDispatch, h.index, Option.bind_some, h.side, ← hu, hnat]

/-- The bundle of a native candidate is dispatched (R296). -/
theorem exec_bundleDispatch_of_native (h : Chosen (tickCore c s) c i g sd) (hu : u = dispatched c i (tickCore c s)) {N : Native}
    (hnat : (u.groups[g]?).bind Group.native = some N) : exec (.bundleDispatch c) s = .next (dispatchNative g sd u) := by
  rw [dispatched] at hu
  change execBundleDispatch c s = _
  simp only [execBundleDispatch, h.index, Option.bind_some, h.side, ← hu, hnat]
end

/-! ### Suspension and resumption (R299 to R303, R343) -/

/-- A context whose quantum is over is pre-empted where a block of another waits for its die (R299). -/
theorem exec_quantumExpiry_of_stuck {s : State} {d x : Nat} (hover : nth 0 (ctxAt s x).resumed d + 1000 * (ctxAt s x).quant ≤ s.time)
    (hstuck : blockStuck s d x = true) : exec (.quantumExpiry d x) s = .next (preempt d x s) := by
  change execQuantumExpiry d x s = _
  simp only [execQuantumExpiry, hover, hstuck, and_self, if_true]

section
variable {s t : State} {b core : Nat} {B : Block} {L : Launch}

/-- A crew that has come to its MARKs is saved (R300, R302). -/
theorem exec_crewSuspend_of_stopped (hB : s.blocks[b]? = some B) (hL : s.launches[B.launch]? = some L) (hstop : crewStopped s b = true) :
    exec (.crewSuspend b) s = .next (suspendCrew b L.ctx s) := by
  change execCrewSuspend b s = _
  simp only [execCrewSuspend, hB, Option.bind_some, hL, hstop, if_true]

/-- The suspended block b of launch L is to come back to the die of a core: it is called, no seed of its context waits, and no other
context has its turn there first (R6, R202, R303). -/
structure ComesBack (s : State) (b core : Nat) (B : Block) (L : Launch) : Prop where
  block : s.blocks[b]? = some B
  launch : s.launches[B.launch]? = some L
  suspended : B.st = .suspended
  called : crewCalled s b L.ctx = true
  seed : (ctxAt s L.ctx).newSeed = none
  turn : turnBefore s (dieOf core) L.ctx = false

/-- Context x has come back to the die of a core now. -/
def cameBack (x core : Nat) (t : State) : State :=
  { t with ctxs := modifyAt (fun C => { C with resumed := modifyAt (fun _ => t.time) C.resumed (dieOf core) }) t.ctxs x }

/-- Nothing keeps such a block back. -/
theorem ComesBack.not_kept (h : ComesBack s b core B L) : ¬(B.st ≠ .suspended ∨ (!crewCalled s b L.ctx) = true ∨
    (ctxAt s L.ctx).newSeed.isSome = true ∨ turnBefore s (dieOf core) L.ctx = true) := by
  simp [h.suspended, h.called, h.seed, h.turn]

/-- A travel launch resumes on the cores that a core gives it (R343). -/
theorem exec_crewResume_of_travel (h : ComesBack s b core B L) {T : Travel} (hT : L.travel = some T)
    (ht : seatTravel b core L B.launch s = some t) : exec (.crewResume b core) s = .next (cameBack L.ctx core t) := by
  change execCrewResume b core s = _
  simp only [execCrewResume, h.block, h.launch, if_neg h.not_kept, hT, Option.isSome_some, if_true, ht, cameBack]

/-- The crew that begins at a core may take the suspended block b: an aligned crew of the module, on a die of the block's kind, among
those that its launch may use (R303). -/
structure TakesCrew (s : State) (b core : Nat) (B : Block) (L : Launch) : Prop where
  aligned : core % 2 ^ L.crewLog = 0
  inside : core < 208
  kind : dieIsN (dieOf core) = dieIsN B.die
  free : (resumeCrews s b B.launch (core / 8) (2 ^ L.crewLog)).contains core = true

theorem TakesCrew.not_refused (h : TakesCrew s b core B L) : ¬(core % 2 ^ L.crewLog ≠ 0 ∨ 208 ≤ core ∨
    dieIsN (dieOf core) ≠ dieIsN B.die ∨ (!(resumeCrews s b B.launch (core / 8) (2 ^ L.crewLog)).contains core) = true) := by
  simp only [h.aligned, h.kind, h.free, Nat.not_le.mpr h.inside, ne_eq, not_true_eq_false, Bool.not_true, Bool.false_eq_true, or_self,
    not_false_eq_true]

/-- A block that does not travel takes its seats on a crew that may take it (R303). -/
theorem exec_crewResume_of_crew (h : ComesBack s b core B L) (hcrew : TakesCrew s b core B L) (hT : L.travel = none) {g : Nat} {gs : List Nat}
    {G : Group} (hgs : crewGroups s [b] = g :: gs) (hG : s.groups[g]? = some G) (ht : seatBlock b core G.spillLen s = some t) :
    exec (.crewResume b core) s = .next (cameBack L.ctx core t) := by
  change execCrewResume b core s = _
  simp only [execCrewResume, h.block, h.launch, if_neg h.not_kept, hT, Option.isSome_none, Bool.false_eq_true, if_false,
    if_neg hcrew.not_refused, hgs, List.head?_cons, Option.bind_some, hG, ht, cameBack]

/-- Group g has ended, holds no tiles and no token in flight, and no engine works for it (R294). -/
def quitGroup (s : State) (g : Nat) (G : Group) : Bool :=
  G.st == .ended && G.acc.isNone && G.toks.all (fun t => t.st != .pending)
    && !s.engs.any (fun E => E.group == g && E.st != .gated && E.st != .finished)

/-- A draining block whose groups are all through is done (R294, R342). -/
theorem exec_blockDone_of_quit (hB : s.blocks[b]? = some B) (hst : B.st = .draining)
    (hquit : ∀ g G, s.groups[g]? = some G → G.block = b → quitGroup s g G = true) :
    exec (.blockDone b) s = .next (endBlock b .done s) := by
  have hall : (s.groups.zipIdx.filter (fun (G, _) => decide (G.block = b))).all (fun (G, g) => quitGroup s g G) = true := by
    simp only [List.all_eq_true, List.mem_filter, decide_eq_true_eq, and_imp]
    exact fun e he hblock => hquit e.2 e.1 (List.mem_zipIdx_iff_getElem?.mp he) hblock
  simp only [quitGroup] at hall
  change execBlockDone b s = _
  simp only [execBlockDone, hB, hst, hall, and_self, if_true]
end

/-! ### MARKs and rotation (R298, R387) -/

section
variable {s : State} {g sd : Nat} {G : Group} {N : Native}

/-- A group that holds gated what another write has undone rolls back at its MARK. -/
theorem exec_regionCommit_of_stale (hG : s.groups[g]? = some G) (hstale : groupStale s g = true) :
    exec (.regionCommit g sd) s = .next (rollback g s) := by
  change execRegionCommit g sd s = _
  simp only [execRegionCommit, hG, hstale, if_true]

/-- Else the side of a ready group passes its MARK, as its level does (R387). -/
theorem exec_regionCommit_of_ready (hG : s.groups[g]? = some G) (hfresh : groupStale s g = false) (hready : G.st = .ready) :
    exec (.regionCommit g sd) s = .next (if G.native.isSome = true then nCommit g sd s else commit g sd s) := by
  change execRegionCommit g sd s = _
  simp only [execRegionCommit, hG, hfresh, hready, Bool.false_eq_true, if_false, if_true]

/-- A portable side that has had its turn goes behind those that wait (R298). -/
theorem exec_sideRotation_of_due (hG : s.groups[g]? = some G) (hfresh : groupStale s g = false) (hready : G.st = .ready)
    (hnat : G.native = none) {i : Nat} (hdue : dueSide G = some (i, sd)) (hstack : G.stacked = true) :
    exec (.sideRotation g) s = .next (s.updGroup g (fun G => { G with
      sides := (G.sides.take sd ++ G.sides.drop (sd + 1)) ++ ((G.sides[sd]?).map (fun S => { S with turns := 0 })).toList })) := by
  have hgo : ¬(G.st ≠ .ready ∨ (!G.stacked) = true) := by simp [hready, hstack]
  change execSideRotation g s = _
  simp only [execSideRotation, hG, hfresh, hnat, hdue, Bool.false_eq_true, if_false, if_neg hgo]

/-- A native side in slot 0 that has had its turn goes behind those that wait, where it stands before a MARK with nothing in flight
(R298). -/
theorem exec_sideRotation_of_native (hG : s.groups[g]? = some G) (hfresh : groupStale s g = false) (hready : G.st = .ready)
    (hnat : G.native = some N) (hstack : N.stack ≠ []) (hlatch : N.latch = []) {P : PcSlot} (hP : nth none N.slots 0 = some P)
    (hturns : 4096 ≤ P.turns) (hpend : ∀ S, G.sides[0]? = some S → S.pend = .none) (hmark : isMark (codeOf s G N P.pc) = true)
    (hdone : nativeReady s G N 0 = true) : exec (.sideRotation g) s = .next (rotateNative g 0 s) := by
  have hfirst : (rotates P.turns && isMark (codeOf s G N P.pc) && nativeReady s G N 0) = true := by simp [rotates, hturns, hmark, hdone]
  have hquiet : (G.sides[0]?).any (fun S => decide (S.pend ≠ .none)) = false := by
    cases hS : G.sides[0]? with
    | none => rfl
    | some S => simp [hpend S hS]
  have hgo : ¬(N.stack.isEmpty = true ∨ (G.sides[0]?).any (fun S => decide (S.pend ≠ .none)) = true ∨ G.st ≠ .ready ∨
      (!N.latch.isEmpty) = true) := by simp only [hquiet]; simp [hstack, hready, hlatch]
  change execSideRotation g s = _
  simp only [execSideRotation, hG, hfresh, hnat, Bool.false_eq_true, if_false, List.find?_cons, hP, hfirst, if_neg hgo]
end

/-- Settles O44: event by event, each under the conditions that its clause names. -/
theorem schedulingEvents : Obligations.SchedulingEvents := by
  unfold Obligations.SchedulingEvents
  intro s
  refine ⟨fun cl l r t hl ht => exec_blockPlace_of_room hl ht,
    fun cl l r L w hl hL hw hlong => exec_blockWaitLimit_of_waited hl hL hw hlong, ?steal, ?dispatch,
    fun d x => ⟨rfl, fun hover hstuck => exec_quantumExpiry_of_stuck hover hstuck⟩, ?crew,
    fun g sd G hG hstale => exec_regionCommit_of_stale hG hstale, ?mark⟩
  case steal =>
    intro l cl L c lo hi _ _ hL htravel hopen hnext hdie hroom hfrom
    exact exec_workSteal_of_room hL htravel hopen hnext hdie hroom hfrom
  case dispatch =>
    intro c i g sd t C cs u hindex hside
    have h : Chosen (tickCore c s) c i g sd := ⟨hindex, hside⟩
    exact ⟨fun hnat => exec_bundleDispatch_of_portable h rfl hnat, fun N hnat => exec_bundleDispatch_of_native h rfl hnat⟩
  case crew =>
    intro b B L hB hL
    refine ⟨fun hstop => exec_crewSuspend_of_stopped hB hL hstop, fun core t hst hcall hseed hturn => ?resume, fun hst hquit => ?done⟩
    case resume =>
      have h : ComesBack s b core B L := ⟨hB, hL, hst, hcall, hseed, hturn⟩
      exact ⟨fun T hT ht => exec_crewResume_of_travel h hT ht, fun G g gs hT halign hin hkind hfree hgs hG ht =>
        exec_crewResume_of_crew h ⟨halign, hin, hkind, hfree⟩ hT hgs hG ht⟩
    case done =>
      refine exec_blockDone_of_quit hB hst fun g G hG hblock => ?_
      obtain ⟨hend, hacc, htoks, hengs⟩ := hquit g G hG hblock
      simp [quitGroup, hend, hacc, htoks, hengs]
  case mark =>
    intro g sd G hG hfresh hready
    refine ⟨fun hnat => ?_, fun N hnat => ?_, fun i hnat hdue hstack => exec_sideRotation_of_due hG hfresh hready hnat hdue hstack,
      fun N P hnat hstack hlatch hP hturns hpend hmark hdone =>
        exec_sideRotation_of_native hG hfresh hready hnat hstack hlatch hP hturns hpend hmark hdone⟩
    · exact (exec_regionCommit_of_ready hG hfresh hready).trans (by simp [hnat])
    · exact (exec_regionCommit_of_ready hG hfresh hready).trans (by simp [hnat])

end Sys2Proof.Machine

namespace Sys2Proof.Machine
open Sys2Proof

/-! ### The bytes of storage keep their canonical form (log entry 4)

A lemma `f_mem` says that operation f writes no byte. A lemma `f_bytes` says that f, which may write some, keeps the bytes in the canonical
form: every write goes through `setBytes`, `NMap.set`, `NMap.keep`, `moveMap` or a filter, and the operations above these are folds, choices
and compositions of operations that keep it. -/

/-- A fold of steps none of which writes a byte. -/
theorem foldl_mem {α : Type} {f : State → α → State} (hf : ∀ s a, (f s a).mem = s.mem) (l : List α) (s : State) :
    (l.foldl f s).mem = s.mem := by
  induction l generalizing s with
  | nil => rfl
  | cons a r ih => exact (ih _).trans (hf s a)

/-- Bytes in the canonical form: keys strictly rising, no listed byte 0 (`Memory.wf`). -/
def Canonical (m : NMap Byte) : Prop := NMap.wf 0 m = true

/-- A fold of steps that each keep the bytes canonical keeps them so. -/
theorem foldl_bytes {α : Type} {f : State → α → State} (hf : ∀ s a, Canonical s.mem → Canonical (f s a).mem) (l : List α) {s : State}
    (h : Canonical s.mem) :
    Canonical (l.foldl f s).mem := by
  induction l generalizing s with
  | nil => exact h
  | cons a r ih => exact ih (hf s a h)

/-! ### Operations that write no byte: ends, rollback, translations, tokens, tiles -/

@[simp] theorem issueGated_mem (x e : Nat) (s : State) : (issueGated x e s).mem = s.mem := by
  unfold issueGated
  (repeat' split) <;> rfl
@[simp] theorem freeBlock_mem (b : Nat) (s : State) : (freeBlock b s).mem = s.mem := rfl
@[simp] theorem noteEarly_mem (B : Agent) (a n : Nat) (s : State) : (noteEarly B a n s).mem = s.mem := rfl
@[simp] theorem loadCounts_mem (x : Nat) (s : State) : (loadCounts x s).mem = s.mem := rfl

@[simp] theorem notePhases_mem (b : Nat) (s : State) : (notePhases b s).mem = s.mem := by
  unfold notePhases
  split <;> rfl

@[simp] theorem endThreads_mem (g : Nat) (m : Mask) (s : State) : (endThreads g m s).mem = s.mem := by
  unfold endThreads
  (repeat' split) <;> simp

@[simp] theorem freePool_mem (g : Nat) (s : State) : (freePool g s).mem = s.mem := by
  unfold freePool
  (repeat' split) <;> rfl

@[simp] theorem checkDrain_mem (b : Nat) (s : State) : (checkDrain b s).mem = s.mem := by
  unfold checkDrain
  split <;> rfl

@[simp] theorem rollback_mem (g : Nat) (s : State) : (rollback g s).mem = s.mem := by
  unfold rollback
  split <;> rfl

@[simp] theorem reloadFrame_mem (x : Nat) (F : Frame) (s : State) : (reloadFrame x F s).mem = s.mem := rfl
@[simp] theorem xlatEvent_mem (x : Nat) (re : Bool) (s : State) : (xlatEvent x re s).mem = s.mem := rfl

@[simp] theorem startTranslation_mem (x : Nat) (s : State) : (startTranslation x s).mem = s.mem := by
  unfold startTranslation
  split
  · rfl
  · exact foldl_mem (fun _ _ => xlatEvent_mem ..) ..

@[simp] theorem nextTranslation_mem (cl : Nat) (s : State) : (nextTranslation cl s).mem = s.mem := by
  unfold nextTranslation
  dsimp only
  split
  · rfl
  · split
    · rfl
    · exact startTranslation_mem ..

@[simp] theorem missTranslation_mem (g : Nat) (fns : List Nat) (s : State) : (missTranslation g fns s).mem = s.mem := by
  unfold missTranslation
  (repeat' split) <;> simp

@[simp] theorem requestRestore_mem (g sd : Nat) (s : State) : (requestRestore g sd s).mem = s.mem := by
  unfold requestRestore
  (repeat' split) <;> rfl

@[simp] theorem stallForToken_mem (p : Site) (s : State) : (stallForToken p s).mem = s.mem := rfl
@[simp] theorem addToken_mem (p : Site) (e : Nat) (s : State) : (addToken p e s).mem = s.mem := rfl
@[simp] theorem putTiles_mem (p : Site) (i id : Nat) (new : List Tile) (s : State) : (putTiles p i id new s).mem = s.mem := rfl
@[simp] theorem writeTiles_mem (p : Site) (t : Nat) (new : List Tile) (s : State) : (writeTiles p t new s).mem = s.mem := rfl
@[simp] theorem raiseGroup_mem (p : Site) (f : Flags) (s : State) : (raiseGroup p f s).mem = s.mem := rfl

/-! ### Operations that write no byte: what an access notes, barriers, waits -/

@[simp] theorem touchPage_mem (c x : Nat) (q : Tlb × Bool) (s : State) : (touchPage c x q s).mem = s.mem :=
  (readsAlike_touchPage c x q s).mem

@[simp] theorem touchPages_mem (c x : Nat) (es : List (Tlb × Bool)) (s : State) : (touchPages c x es s).mem = s.mem :=
  foldl_mem (fun s q => touchPage_mem c x q s) es s

@[simp] theorem touchWith_mem (w : Who) (al : Nat) (vas : List Nat) (more : List Tlb) (s : State) :
    (touchWith w al vas more s).mem = s.mem := by
  unfold touchWith
  dsimp only
  rw [touchPages_mem]
  split <;> rfl

@[simp] theorem touchAddrs_mem (w : Who) (al : Nat) (vas : List Nat) (s : State) : (touchAddrs w al vas s).mem = s.mem := by
  unfold touchAddrs
  simp

@[simp] theorem Site.touch_mem (p : Site) (al : Nat) (as : List DWord) (s : State) : (Site.touch p al as s).mem = s.mem := by
  unfold Site.touch
  simp

@[simp] theorem request_mem (c x g n : Nat) (s : State) : (request c x g n s).mem = s.mem := (readsAlike_request c x g n s).mem

@[simp] theorem Site.rearm_mem (p : Site) (s : State) : (Site.rearm p s).mem = s.mem := by
  unfold Site.rearm
  split <;> rfl

@[simp] theorem useEarly_mem (g : Nat) (qs : List (Nat × Nat × Nat)) (s : State) : (useEarly g qs s).mem = s.mem := rfl
@[simp] theorem dropEarly_mem (g l a n : Nat) (s : State) : (dropEarly g l a n s).mem = s.mem := rfl

@[simp] theorem dropLanes_mem (p : Site) (n : Nat) (accs : List (Nat × Acc)) (s : State) : (dropLanes p n accs s).mem = s.mem :=
  foldl_mem (fun _ _ => dropEarly_mem ..) ..

@[simp] theorem acquire_mem (g : Nat) (m : Mask) (mask : BitVec 3) (sc : Nat) (s : State) : (acquire g m mask sc s).mem = s.mem := rfl
@[simp] theorem owe_mem (g : Nat) (m : Mask) (mask : BitVec 3) (sc : Nat) (s : State) : (owe g m mask sc s).mem = s.mem := rfl

@[simp] theorem arriveAll_mem (p : Site) (n : Nat) (s : State) : (arriveAll p n s).mem = s.mem := by
  unfold arriveAll
  simp

/-! ### Operations that write no byte: gating and engine instructions -/

@[simp] theorem gateOps_mem {β : Type} (p : Site) (ops : List GOp) (tok : Nat → β) (s : State) : (gateOps p ops tok s).mem = s.mem :=
  rfl

@[simp] theorem settleToken_mem (e : Nat) (st : TokSt) (s : State) : (settleToken e st s).mem = s.mem := rfl
@[simp] theorem failToken_mem (e : Nat) (c : Cause) (origin : Nat) (s : State) : (failToken e c origin s).mem = s.mem := rfl
@[simp] theorem putWalk_mem (W : Walk) (s : State) : (putWalk W s).mem = s.mem := rfl

@[simp] theorem issueEngine_mem (p : Site) (kind : EngKind) (scope mask : BitVec 3) (deps : List Nat) (s : State) :
    (issueEngine p kind scope mask deps s).mem = s.mem :=
  rfl

@[simp] theorem touchMoves_mem (w : Who) (ms : List Move) (s : State) : (touchMoves w ms s).mem = s.mem := by
  unfold touchMoves
  simp

@[simp] theorem Site.acquireToks_mem (p : Site) (es : List Nat) (s : State) : (Site.acquireToks p es s).mem = s.mem :=
  foldl_mem (fun _ _ => acquire_mem ..) ..

@[simp] theorem Site.acquires_mem (p : Site) (sc mask : BitVec 3) (s : State) : (Site.acquires p sc mask s).mem = s.mem := rfl

@[simp] theorem Site.forget_mem (p : Site) (mask : BitVec 3) (m : MemOp) (s : State) : (Site.forget p mask m s).mem = s.mem := by
  unfold Site.forget
  split
  · rfl
  · split
    · rfl
    · exact foldl_mem (fun _ _ => dropEarly_mem ..) ..

/-! ### Operations that write no byte: the native level (R158 to R182) -/

@[simp] theorem State.updNative_mem (s : State) (g : Nat) (f : Native → Native) : (State.updNative s g f).mem = s.mem := rfl
@[simp] theorem NSite.pop_mem (p : NSite) (s : State) : (NSite.pop p s).mem = s.mem := rfl

@[simp] theorem NSite.put_mem (p : NSite) (r : Reg) (lat : Nat) (m : Mask) (vals : List DWord) (late : Bool) (s : State) :
    (NSite.put p r lat m vals late s).mem = s.mem :=
  rfl

@[simp] theorem NSite.putS_mem (p : NSite) (n lat : Nat) (v : Word) (s : State) : (NSite.putS p n lat v s).mem = s.mem := rfl
@[simp] theorem NSite.remark_mem (p : NSite) (s : State) : (NSite.remark p s).mem = s.mem := rfl
@[simp] theorem NSite.updSlot_mem (p : NSite) (f : PcSlot → PcSlot) (s : State) : (NSite.updSlot p f s).mem = s.mem := rfl
@[simp] theorem NSite.goto_mem (p : NSite) (b : Nat) (s : State) : (NSite.goto p b s).mem = s.mem := rfl
@[simp] theorem NSite.unpop_mem (p : NSite) (s : State) : (NSite.unpop p s).mem = s.mem := rfl
@[simp] theorem NSite.wait_mem (p : NSite) (w : Wait) (s : State) : (NSite.wait p w s).mem = s.mem := rfl
@[simp] theorem NSite.keepPend_mem (p : NSite) (q : Pend) (s : State) : (NSite.keepPend p q s).mem = s.mem := rfl

@[simp] theorem NSite.barWait_mem (p : NSite) (b : Nat) (phs : List Word) (s : State) : (NSite.barWait p b phs s).mem = s.mem := by
  unfold NSite.barWait
  split <;> rfl

@[simp] theorem NSite.yield__mem (p : NSite) (s : State) : (NSite.yield_ p s).mem = s.mem := by
  unfold NSite.yield_
  split
  · rfl
  · dsimp only
    split <;> rfl

@[simp] theorem NSite.sleep__mem (p : NSite) (n : Nat) (s : State) : (NSite.sleep_ p n s).mem = s.mem := by
  unfold NSite.sleep_
  (repeat' split) <;> rfl

@[simp] theorem NSite.putS2_mem (p : NSite) (n lat : Nat) (v : DWord) (s : State) : (NSite.putS2 p n lat v s).mem = s.mem := rfl

@[simp] theorem NSite.keep_mem (p : NSite) (v : VOp) (a : List DWord) (s : State) : (NSite.keep p v a s).mem = s.mem := by
  unfold NSite.keep
  split <;> rfl

@[simp] theorem NSite.retain_mem (p : NSite) (v : VOp) (s : State) : (NSite.retain p v s).mem = s.mem := by
  unfold NSite.retain
  simp

@[simp] theorem NSite.putG_mem (p : NSite) (n lat : Nat) (m : Mask) (vals : List DWord) (s : State) :
    (NSite.putG p n lat m vals s).mem = s.mem := by
  unfold NSite.putG
  split <;> rfl

@[simp] theorem NSite.push_mem (p : NSite) (lat : Nat) (m : Mask) (bits : List Bool) (s : State) :
    (NSite.push p lat m bits s).mem = s.mem :=
  rfl

@[simp] theorem NSite.raise_mem (p : NSite) (evs : List (Nat × Flags)) (s : State) : (NSite.raise p evs s).mem = s.mem := rfl
@[simp] theorem NSite.putTok_mem (p : NSite) (k e : Nat) (s : State) : (NSite.putTok p k e s).mem = s.mem := rfl

@[simp] theorem NSite.putTiles_mem (p : NSite) (t k : Nat) (new : List Tile) (s : State) : (NSite.putTiles p t k new s).mem = s.mem :=
  rfl

@[simp] theorem NSite.putL_mem (p : NSite) (n lat : Nat) (m : Mask) (vals : List DWord) (s : State) :
    (NSite.putL p n lat m vals s).mem = s.mem := by
  unfold NSite.putL
  split <;> rfl

@[simp] theorem NSite.putWords_mem (p : NSite) (o : LOp) (lat : Nat) (word : Nat → Nat → DWord) (s : State) :
    (NSite.putWords p o lat word s).mem = s.mem :=
  foldl_mem (fun s _ => NSite.putL_mem p _ _ _ _ s) _ s

/-! ### Operations that write no byte: queues, placement, dispatch, resumption -/

@[simp] theorem updQueue_mem (q : Nat) (f : Queue → Queue) (s : State) : (updQueue q f s).mem = s.mem := rfl

@[simp] theorem enableQueue_mem (q : Nat) (d : BitVec 128) (s : State) : (enableQueue q d s).mem = s.mem := by
  unfold enableQueue
  split <;> rfl

@[simp] theorem queueFail_mem (q code : Nat) (s : State) : (queueFail q code s).mem = s.mem := rfl
@[simp] theorem startEntry_mem (q t : Nat) (s : State) : (startEntry q t s).mem = s.mem := rfl
@[simp] theorem endQueueWait_mem (q : Nat) (s : State) : (endQueueWait q s).mem = s.mem := rfl

@[simp] theorem startsOn_mem (x d : Nat) (s : State) : (startsOn x d s).mem = s.mem := by
  unfold startsOn
  split <;> rfl

@[simp] theorem comeBack_mem (x : Nat) (s : State) : (comeBack x s).mem = s.mem := by
  unfold comeBack
  split <;> rfl

@[simp] theorem addFragments_mem (x : Nat) (fs : List (Nat × Nat)) (s : State) : (addFragments x fs s).mem = s.mem :=
  foldl_mem (fun _ _ => by rfl) ..

@[simp] theorem beginWait_mem (l cl : Nat) (s : State) : (beginWait l cl s).mem = s.mem := by
  unfold beginWait
  (repeat' split) <;> rfl

@[simp] theorem unplace_mem (b : Nat) (s : State) : (unplace b s).mem = s.mem := by
  unfold unplace
  split <;> rfl

@[simp] theorem countLimited_mem (n : Nat) (s : State) : (countLimited n s).mem = s.mem := by
  unfold countLimited
  split
  · rfl
  · exact foldl_mem (fun _ _ => foldl_mem (fun _ _ => countEv_mem ..) ..) ..

@[simp] theorem passTime_mem (n : Nat) (s : State) : (passTime n s).mem = s.mem := by
  unfold passTime
  simp
@[simp] theorem noteDispatch_mem (c i : Nat) (s : State) : (noteDispatch c i s).mem = s.mem := rfl

@[simp] theorem timingReplay_mem (g sd : Nat) (s : State) : (timingReplay g sd s).mem = s.mem := by
  unfold timingReplay
  split
  · rfl
  · split <;> (dsimp only; split <;> exact rollback_mem ..)

@[simp] theorem updTiles_mem (g : Nat) (f : AccSet → AccSet) (s : State) : (updTiles g f s).mem = s.mem := rfl
@[simp] theorem restoreRings_mem (m : List (Nat × Nat)) (T : Travel) (s : State) : (restoreRings m T s).mem = s.mem := rfl
@[simp] theorem dropSteps_mem (g : Nat) (s : State) : (dropSteps g s).mem = s.mem := rfl
@[simp] theorem wakeSide_mem (g sd : Nat) (s : State) : (wakeSide g sd s).mem = s.mem := rfl
@[simp] theorem resumeWait_mem (g sd : Nat) (q : Pend) (s : State) : (resumeWait g sd q s).mem = s.mem := rfl

@[simp] theorem restoreTiles_mem (g : Nat) (s : State) : (restoreTiles g s).mem = s.mem := by
  unfold restoreTiles
  split <;> rfl

@[simp] theorem completeToken_mem (e : Nat) (s : State) : (completeToken e s).mem = s.mem := rfl
@[simp] theorem noteOccupancy_mem (l c : Nat) (s : State) : (noteOccupancy l c s).mem = s.mem := rfl

@[simp] theorem dropFrames_mem (E : Eng) (s : State) : (dropFrames E s).mem = s.mem := by
  unfold dropFrames
  split <;> rfl

@[simp] theorem wakePubl_mem (W : Walk) (s : State) : (wakePubl W s).mem = s.mem := by
  unfold wakePubl
  split <;> rfl

@[simp] theorem succeedClaims_mem (s : State) (W : Walk) : (succeedClaims s W).mem = s.mem :=
  foldl_mem (fun t o => by split; split <;> simp; rfl) ..

/-! ### Operations that write no byte: the host's registers, power, messages -/

@[simp] theorem hostRefused_mem (s : State) : (hostRefused s).mem = s.mem := rfl
@[simp] theorem writeFree_mem (x : Nat) (w : BitVec 512) (v : Bool) (s : State) : (writeFree x w v s).mem = s.mem := rfl
@[simp] theorem changeSeed_mem (x : Nat) (seed : Word) (s : State) : (changeSeed x seed s).mem = s.mem := rfl

@[simp] theorem writeTlbInv_mem (w : BitVec 128) (s : State) : (writeTlbInv w s).mem = s.mem := by
  unfold writeTlbInv
  (repeat' split) <;> rfl

@[simp] theorem writeMbox_mem (o : Nat) (bs : List Byte) (s : State) : (writeMbox o bs s).mem = s.mem := rfl

@[simp] theorem writeQueue_mem (q : Nat) (d : BitVec 128) (s : State) : (writeQueue q d s).mem = s.mem := by
  unfold writeQueue
  (repeat' split) <;> simp

@[simp] theorem writePower_mem (w : DWord) (s : State) : (writePower w s).mem = s.mem := by
  unfold writePower
  dsimp only
  split <;> rfl

@[simp] theorem answerMsg_mem (M : Msg) (s : State) : (answerMsg M s).mem = s.mem := by
  unfold answerMsg
  split <;> rfl

@[simp] theorem samplePeak_mem (s : State) : (samplePeak s).mem = s.mem := rfl

@[simp] theorem controlSampled_mem (o n : Nat) (s : State) : (controlSampled o n s).mem = s.mem := by
  unfold controlSampled
  split <;> rfl

@[simp] theorem answer_mem (kind : Nat) (bs : List Byte) (s : State) : (answer kind bs s).mem = s.mem := rfl

@[simp] theorem controlAfter_mem (o n : Nat) (s : State) : (controlAfter o n s).mem = s.mem := by
  unfold controlAfter
  split <;> rfl

@[simp] theorem readControlSpace_mem (o n : Nat) (s : State) : (readControlSpace o n s).mem = s.mem := by
  unfold readControlSpace
  (repeat' split) <;> simp

@[simp] theorem endSignal_mem (g : Nat) (f : Watch → Option Pend) (s : State) : (endSignal g f s).mem = s.mem := by
  unfold endSignal
  dsimp only
  split <;> rfl

@[simp] theorem resumeFirst_mem (g : Nat) (f : Wait → Option Pend) (s : State) : (resumeFirst g f s).mem = s.mem := by
  unfold resumeFirst
  split <;> rfl

@[simp] theorem clearOwner_mem (x : Nat) (s : State) : (clearOwner x s).mem = s.mem := rfl
@[simp] theorem reclaim_mem (s : State) : (reclaim s).mem = s.mem := rfl
@[simp] theorem captureGroups_mem (x : Nat) (s : State) : (captureGroups x s).mem = s.mem := foldl_mem (fun t g => by split <;> rfl) ..
@[simp] theorem stepDie_mem (d : Nat) (f : Cluster → Cluster) (s : State) : (stepDie d f s).mem = s.mem := rfl
@[simp] theorem freshDie_mem (d : Nat) (s : State) : (freshDie d s).mem = s.mem := rfl

@[simp] theorem reloads_mem (p : Site) (s : State) : (reloads p s).mem = s.mem := by
  unfold reloads
  split <;> rfl

@[simp] theorem dueHalvings_mem (t0 : Nat) (s : State) : (dueHalvings t0 s).mem = s.mem := rfl
@[simp] theorem noteUnit_mem (c : Nat) (sl : Slot) (i : Nat) (s : State) : (noteUnit c sl i s).mem = s.mem := rfl
@[simp] theorem refuseSpdm_mem (s : State) : (refuseSpdm s).mem = s.mem := rfl

/-! ### Outcomes whose next state has canonical bytes -/

/-- The next state of an outcome, where it has one, has its bytes in the canonical form. -/
def NextWf : Out → Prop
  | .next t => Canonical t.mem
  | _ => True

@[simp] theorem nextWf_next (t : State) : NextWf (.next t) ↔ Canonical t.mem := Iff.rfl
@[simp] theorem nextWf_refused (r : Refusal) : NextWf (.refused r) := trivial
@[simp] theorem nextWf_fault (r : Fault) : NextWf (.fault r) := trivial

theorem portable_bytes {s : State} {k : Site → State → State} (hk : ∀ p s, Canonical s.mem → Canonical (k p s).mem)
    (h : Canonical s.mem) :
    NextWf (portable s k) := by
  unfold portable
  split
  · trivial
  · exact hk _ _ h

theorem native_bytes {s : State} {k : NSite → State → State} (hk : ∀ p s, Canonical s.mem → Canonical (k p s).mem) (h : Canonical s.mem)
    :
    NextWf (native s k) := by
  unfold native
  split
  · trivial
  · exact hk _ _ h

theorem onNext_bytes {f : State → State} (hf : ∀ s, Canonical s.mem → Canonical (f s).mem) {o : Out} (h : NextWf o) :
    NextWf (onNext f o) := by
  cases o with
  | next s => exact hf s h
  | fault r => trivial
  | refused r => trivial

/-- Every operation of a port keeps the bytes canonical. -/
structure Port.Keeps (q : Port) : Prop where
  wait : ∀ w s, Canonical s.mem → Canonical (q.wait w s).mem
  issue : ∀ kind scope mask deps s, Canonical s.mem → Canonical (q.issue kind scope mask deps s).mem
  commit : ∀ kind scope mask deps s, Canonical s.mem → Canonical (q.commit kind scope mask deps s).mem
  flush : ∀ s, Canonical s.mem → Canonical (q.flush s).mem
  close : ∀ e s, Canonical s.mem → Canonical (q.close e s).mem

theorem Port.withFree_bytes {q : Port} (hq : q.Keeps) {k : State → State} (hk : ∀ s, Canonical s.mem → Canonical (k s).mem) {s : State}
    (h : Canonical s.mem) :
    Canonical (q.withFree k s).mem := by
  unfold Port.withFree
  split
  · exact hk s h
  · exact hq.wait _ s h

@[simp] theorem Site.requests_mem (p : Site) (t : State) (al : Nat) (as : List DWord) (accs : List (Nat × Acc)) (s : State) :
    (p.requests t al as accs s).mem = s.mem :=
  request_mem ..

@[simp] theorem State.newId_mem (s : State) : s.newId.2.mem = s.mem := rfl

@[simp] theorem NSite.window_mem (p : NSite) (n : Nat) (s : State) : (p.window n s).2.mem = s.mem := by
  unfold NSite.window
  dsimp only
  split <;> rfl

theorem widenBlock_mem {b : Nat} {L : Launch} {s t : State} (ht : widenBlock b L s = some t) : t.mem = s.mem := by
  unfold widenBlock at ht
  split at ht
  · cases ht
  · obtain ⟨l, -, rfl⟩ := Option.map_eq_some_iff.mp ht
    exact foldl_mem (fun _ _ => by rfl) _ _

theorem canonical_ite {P : Prop} [Decidable P] {a b : State} (ha : Canonical a.mem) (hb : Canonical b.mem) :
    Canonical (if P then a else b).mem := by
  split
  · exact ha
  · exact hb

/-! ### Writes to storage, and stores that a MARK has passed (R208, R209, R214 to R219, R358, R359) -/

@[simp] theorem claimLine_bytes {s : State} {x ln : Nat} (h : Canonical s.mem) : Canonical (claimLine s x ln).mem := by
  unfold claimLine
  dsimp only
  split
  · exact h
  · split
    · split
      · exact h
      · dsimp only
        exact NMap.wf_keep _ _ _ h
    · split
      · exact h
      · dsimp only
        exact setBytes_wf _ _ _ h

@[simp] theorem claimLines_bytes {s : State} {x ln k : Nat} (h : Canonical s.mem) : Canonical (claimLines s x ln k).mem := by
  induction k generalizing s ln with
  | zero => exact h
  | succ n ih => exact ih (claimLine_bytes h)

@[simp] theorem storeBytes_bytes {x a : Nat} {bs : List Byte} {s : State} (h : Canonical s.mem) :
    Canonical (storeBytes x a bs s).mem := by
  unfold storeBytes
  dsimp only
  split
  · exact h
  · exact setBytes_wf _ _ _ (claimLines_bytes h)

@[simp] theorem storeWord_bytes {x a : Nat} {v : DWord} {s : State} (h : Canonical s.mem) : Canonical (storeWord x a v s).mem := by
  simp [storeWord, h]

@[simp] theorem storeTagged_bytes {x a : Nat} {v : DWord} {t : Bool} {s : State} (h : Canonical s.mem) :
    Canonical (storeTagged x a v t s).mem := by
  simp [storeTagged, h]

@[simp] theorem performStore_bytes {x : Nat} {o : GOp} {s : State} (h : Canonical s.mem) : Canonical (performStore x o s).mem := by
  unfold performStore
  split <;> simp [h]

@[simp] theorem performObjInit_bytes {x a : Nat} {w : DWord} {n : Nat} {stamp : Half} {s : State} (h : Canonical s.mem) :
    Canonical (performObjInit x a w n stamp s).mem := by
  simp [performObjInit, h]

@[simp] theorem performObjRetire_bytes {x a n : Nat} {s : State} (h : Canonical s.mem) : Canonical (performObjRetire x a n s).mem := by
  simp [performObjRetire, h]

theorem landHeld_bytes {force : Agent → Nat → Nat → State → State} {g n : Nat} {want : Held → Bool} {seen : List (Nat × Nat × Nat)}
    {s : State} (hk : ∀ B a n s, Canonical s.mem → Canonical (force B a n s).mem) (h : Canonical s.mem) :
    Canonical (landHeld force g n want seen s).mem := by
  unfold landHeld
  split
  · exact h
  · split
    · exact h
    · refine foldl_bytes (fun s e h => ?_) _ h
      split
      · exact performStore_bytes (hk _ _ _ _ h)
      · exact h

theorem force_bytes {f : Nat} {B : Agent} {a n : Nat} {s : State} (h : Canonical s.mem) : Canonical (force f B a n s).mem := by
  induction f generalizing B a n s with
  | zero => exact h
  | succ f ih => exact foldl_bytes (fun _ _ h => landHeld_bytes (fun _ _ _ _ h => ih h) h) _ h

@[simp] theorem reach_bytes {B : Agent} {wr : Bool} {a n : Nat} {s : State} (h : Canonical s.mem) :
    Canonical (reach B wr a n s).mem := by
  unfold reach
  dsimp only
  split
  · exact force_bytes h
  · exact force_bytes h

/-! ### Counters, signals from hardware, ends (R74, R294, R308, R352, R361) -/

@[simp] theorem saveCounts_bytes {x : Nat} {s : State} (h : Canonical s.mem) : Canonical (saveCounts x s).mem := by
  simp [saveCounts, h]

@[simp] theorem chargeEv_bytes {x ev n : Nat} {s : State} (h : Canonical s.mem) : Canonical (chargeEv x ev n s).mem := by
  unfold chargeEv
  split
  · exact saveCounts_bytes h
  · exact h

@[simp] theorem hwSignal_bytes {x k : Nat} {f : DWord → DWord} {s : State} (h : Canonical s.mem) :
    Canonical (hwSignal x k f s).mem := by
  unfold hwSignal
  dsimp only
  split <;> simp [h]

@[simp] theorem hwDecrement_bytes {x va : Nat} {v : DWord} {s : State} (h : Canonical s.mem) :
    Canonical (hwDecrement x va v s).mem := by
  unfold hwDecrement
  split <;> simp [h]

@[simp] theorem finishLaunch_bytes {l : Nat} {s : State} (h : Canonical s.mem) : Canonical (finishLaunch l s).mem := by
  unfold finishLaunch
  (repeat' split) <;> simp [h]

@[simp] theorem endBlock_bytes {b : Nat} {st : BSt} {s : State} (h : Canonical s.mem) : Canonical (endBlock b st s).mem := by
  unfold endBlock
  (repeat' split) <;> simp [h]

@[simp] theorem landWhere_bytes {g : Nat} {want : Held → Bool} {s : State} (h : Canonical s.mem) : Canonical (landWhere g want s).mem :=
  landHeld_bytes (fun _ _ _ _ h => force_bytes h) h

@[simp] theorem landPart_bytes {b r : Nat} {s : State} (h : Canonical s.mem) : Canonical (landPart b r s).mem := by
  unfold landPart
  split
  · exact h
  · exact foldl_bytes (fun _ _ h => landWhere_bytes h) _ h

@[simp] theorem landAll_bytes {g : Nat} {s : State} (h : Canonical s.mem) : Canonical (landAll g s).mem := by
  simp [landAll, h]

@[simp] theorem endGroup_bytes {g : Nat} {s : State} (h : Canonical s.mem) : Canonical (endGroup g s).mem := by
  unfold endGroup
  dsimp only
  (repeat' split) <;> simp [h]

@[simp] theorem doomGroup_bytes {c : Cause} {g : Nat} {s : State} (h : Canonical s.mem) : Canonical (doomGroup c g s).mem := by
  unfold doomGroup
  (repeat' split) <;> simp [h]

@[simp] theorem failBlock_bytes {b g : Nat} {c : Cause} {s : State} (h : Canonical s.mem) : Canonical (failBlock b g c s).mem :=
  foldl_bytes (fun _ _ h => doomGroup_bytes h) _ (endGroup_bytes (endBlock_bytes h))

@[simp] theorem endContext_bytes {x : Nat} {s : State} (h : Canonical s.mem) : Canonical (endContext x s).mem :=
  foldl_bytes (fun _ _ h => by simpa using h) _ (foldl_bytes (fun _ _ h => endGroup_bytes h) _ h)

@[simp] theorem landMask_bytes {mask : BitVec 3} {g : Nat} {s : State} (h : Canonical s.mem) : Canonical (landMask mask g s).mem := by
  simp [landMask, h]

@[simp] theorem suspendGroup_bytes {g : Nat} {s : State} (h : Canonical s.mem) : Canonical (suspendGroup g s).mem := by
  unfold suspendGroup
  (repeat' split) <;> simp [h]

@[simp] theorem haltContext_bytes {x : Nat} {s : State} (h : Canonical s.mem) : Canonical (haltContext x s).mem :=
  foldl_bytes (fun _ _ h => suspendGroup_bytes h) _ h

@[simp] theorem hostHold_bytes {x : Nat} {s : State} (h : Canonical s.mem) : Canonical (hostHold x s).mem := by
  simp [hostHold, h]

/-! ### The fault log, gated operations and commit (R147, R181, R386 to R393) -/

@[simp] theorem classEffect_bytes {g : Nat} {c : Cause} {s : State} (h : Canonical s.mem) : Canonical (classEffect g c s).mem := by
  unfold classEffect
  (repeat' split) <;> simp [h]

@[simp] theorem writeFault_bytes {x : Nat} {f : FaultRec} {s : State} (h : Canonical s.mem) : Canonical (writeFault x f s).mem := by
  unfold writeFault
  dsimp only
  split
  · exact storeWord_bytes h
  · exact hwDecrement_bytes (storeWord_bytes (storeBytes_bytes h))

@[simp] theorem report_bytes {g sd : Nat} {c : Cause} {pc : Nat} {lane : Option Nat} {aux : DWord} {s : State} (h : Canonical s.mem) :
    Canonical (report g sd c pc lane aux s).mem := by
  unfold report
  split
  · exact h
  · dsimp only
    split
    · simp [h]
    · split
      · split <;> simp -implicitDefEqProofs [h]
      · simp [h]

@[simp] theorem performGop_bytes {x g sd : Nat} {o : GOp} {s : State} (h : Canonical s.mem) :
    Canonical (performGop x g sd o s).mem := by
  unfold performGop
  (repeat' split) <;> simp [h]

@[simp] theorem answerCmd_bytes {x st : Nat} {res : List Byte} {s : State} (h : Canonical s.mem) :
    Canonical (answerCmd x st res s).mem := by
  simp [answerCmd, h]

@[simp] theorem endStep_bytes {g st : Nat} {s : State} (h : Canonical s.mem) : Canonical (endStep g st s).mem := by
  unfold endStep
  split
  · exact h
  · exact answerCmd_bytes h

@[simp] theorem faultAt_bytes {g sd : Nat} {c : Cause} {pc : Nat} {lane : Option Nat} {aux : DWord} {s : State} (h : Canonical s.mem) :
    Canonical (faultAt g sd c pc lane aux s).mem := by
  simp [faultAt, h]

@[simp] theorem land_bytes {x g sd : Nat} {o : GOp} {s : State} (h : Canonical s.mem) : Canonical (land x g sd o s).mem := by
  unfold land
  split
  case _ => exact h
  case _ => exact h
  case _ => exact h
  case _ => exact h
  case _ => exact performGop_bytes (reach_bytes (landAll_bytes h))
  case _ => exact performGop_bytes (reach_bytes (landAll_bytes h))
  case _ => exact performGop_bytes (reach_bytes (landAll_bytes h))
  all_goals exact performGop_bytes h

@[simp] theorem commit_bytes {g sd : Nat} {s : State} (h : Canonical s.mem) : Canonical (commit g sd s).mem := by
  unfold commit
  split
  · exact h
  · split
    · exact h
    · dsimp only
      split
      · exact endGroup_bytes (foldl_bytes (fun _ _ h => land_bytes h) _ h)
      · exact foldl_bytes (fun _ _ h => land_bytes h) _ h

@[simp] theorem stepHook_bytes {g sd pc : Nat} {s : State} (h : Canonical s.mem) : Canonical (stepHook g sd pc s).mem :=
  endStep_bytes (faultAt_bytes (commit_bytes h))

@[simp] theorem stepSettle_bytes {g : Nat} {s : State} (h : Canonical s.mem) : Canonical (stepSettle g s).mem := by
  unfold stepSettle
  split
  · exact h
  · split
    · exact h
    · split
      · split
        · exact endStep_bytes (suspendGroup_bytes h)
        · exact h
      · exact answerCmd_bytes h
      · split
        · exact endStep_bytes h
        · exact h
      · exact h

@[simp] theorem afterIssue_bytes {g pc : Nat} {s : State} (h : Canonical s.mem) : Canonical (afterIssue g pc s).mem :=
  stepSettle_bytes h

@[simp] theorem spillVal_bytes {g x core o j : Nat} {m : Mask} {F : Frame} {v n k : Nat} {s : State} (h : Canonical s.mem) :
    Canonical (spillVal g x core o j m F v n k s).mem := by
  refine foldl_bytes (fun s l h => ?_) _ h
  dsimp only
  split
  · rw [setTag_mem]
    exact foldl_bytes (fun _ _ h => storeBytes_bytes h) _ h
  · exact foldl_bytes (fun _ _ h => storeBytes_bytes h) _ h

@[simp] theorem spills_bytes {p : Site} {s : State} (h : Canonical s.mem) : Canonical (spills p s).mem := by
  unfold spills
  split
  · split
    · exact h
    · exact foldl_bytes (fun _ _ h => by simp [h]) _ h
  · exact h

@[simp] theorem takeFault_bytes {p : Site} {c : Cause} {lane : Option Nat} {aux : DWord} {s : State} (h : Canonical s.mem) :
    Canonical (takeFault p c lane aux s).mem := by
  simp [takeFault, h]

@[simp] theorem badOperand_bytes {p : Site} {s : State} (h : Canonical s.mem) : Canonical (badOperand p s).mem := by
  simp [badOperand, h]

/-! ### Control transfers, calls and frames (R65, R69 to R76, R148, R151) -/

@[simp] theorem settleGroup_bytes {g : Nat} {s : State} (h : Canonical s.mem) : Canonical (settleGroup g s).mem := by
  unfold settleGroup
  split
  · exact h
  · have hr := fun G => foldl_bytes (f := fun s F => reloadFrame (groupCtx s G) F s) (fun _ _ h => h)
    dsimp only
    split
    · exact hr _ _ h
    · exact endGroup_bytes (hr _ _ h)

@[simp] theorem arrive_bytes {g sd : Nat} {mark : Bool} {s : State} (h : Canonical s.mem) : Canonical (arrive g sd mark s).mem := by
  unfold arrive
  (repeat' split) <;> simp [h]

@[simp] theorem transferBy_bytes {mode : HopMode} {key : Word} {parts : List (Mask × Target)} {p : Site} {s : State}
    (h : Canonical s.mem) :
    Canonical (transferBy mode key parts p s).mem := by
  unfold transferBy
  dsimp only
  split
  · exact badOperand_bytes h
  · exact badOperand_bytes h
  · split
    · exact commit_bytes h
    · exact settleGroup_bytes (arrive_bytes h)
  · exact settleGroup_bytes (foldl_bytes (fun _ _ h => arrive_bytes h) _ (arrive_bytes (commit_bytes h)))

@[simp] theorem transfer_bytes {parts : List (Mask × Target)} {p : Site} {s : State} (h : Canonical s.mem) :
    Canonical (transfer parts p s).mem := by
  simp [transfer, h]

@[simp] theorem storeFrame_bytes {p : Site} {used : Nat} {F : Frame} {s : State} (h : Canonical s.mem) :
    Canonical (storeFrame p used F s).mem := by
  unfold storeFrame
  dsimp only
  rw [countEv_mem]
  generalize frameLive s F = vs
  have hv : ∀ n, Canonical (vs.foldl (fun (e : Nat × State) v => (e.1 + v.2, spillVal p.g p.ctx p.grp.core
      (p.grp.spill + (p.grp.spillLen - p.lau.frame) + used) (frameTag used e.1) p.mask F v.1 v.2 e.1 e.2)) (n, s)).2.mem := by
    induction vs generalizing s with
    | nil => exact fun _ => h
    | cons v r ih => exact fun n => ih (spillVal_bytes h) _
  exact hv 0

@[simp] theorem enterCallee_bytes {p : Site} {fn : Nat} {x : Option Nat} {vals : List (List Val)} {s : State} (h : Canonical s.mem) :
    Canonical (enterCallee p fn x vals s).mem := by
  unfold enterCallee
  dsimp only
  split <;> simp -implicitDefEqProofs [h]

@[simp] theorem endSide_bytes {p : Site} {s : State} (h : Canonical s.mem) : Canonical (endSide p s).mem := by
  unfold endSide
  dsimp only
  (repeat' split) <;> simp [h]

/-! ### Shared forms of lane results -/

@[simp] theorem lanes2_bytes {s : State} {ta tb : Ty} {a b : Opnd} {f : DWord → DWord → DWord} (h : Canonical s.mem) :
    NextWf (lanes2 s ta tb a b f) :=
  portable_bytes (fun p s h => by split <;> simp [h]) h

@[simp] theorem lanesN_bytes {s : State} {ops : List (Ty × Opnd)} {f : List DWord → DWord} (h : Canonical s.mem) :
    NextWf (lanesN s ops f) :=
  portable_bytes (fun p s h => by dsimp only; split <;> simp [h]) h

@[simp] theorem lanes1_bytes {s : State} {t : Ty} {a : Opnd} {f : DWord → DWord} (h : Canonical s.mem) : NextWf (lanes1 s t a f) :=
  portable_bytes (fun p s h => by split <;> simp [h]) h

@[simp] theorem lanesFlags_bytes {s : State} {ops : List (Ty × Opnd)} {f : List DWord → DWord × Flags} (h : Canonical s.mem) :
    NextWf (lanesFlags s ops f) :=
  portable_bytes (fun p s h => by dsimp only; split <;> simp [h]) h

@[simp] theorem fp2_bytes {s : State} {t : Ty} {a b : Opnd} {f : DWord → DWord → DWord × Flags} (h : Canonical s.mem) :
    NextWf (fp2 s t a b f) := by
  simp [fp2, h]

@[simp] theorem lanesC_bytes {s : State} {t : CTy} {ops : List Opnd} {f : List DWord → DWord × Flags} (h : Canonical s.mem) :
    NextWf (lanesC s t ops f) :=
  portable_bytes (fun p s h => by dsimp only; split <;> simp [h]) h

@[simp] theorem sfu_bytes {s : State} {a : Opnd} {f : DWord → DWord × Flags} (h : Canonical s.mem) : NextWf (sfu s a f) := by
  simp [sfu, h]

@[simp] theorem moment_bytes {s : State} {ops : List (Ty × Opnd)} {f : List DWord → MoRes} (h : Canonical s.mem) :
    NextWf (moment s ops f) := by
  refine portable_bytes (fun p s h => ?_) h
  dsimp only
  split
  · split <;> simp [h]
  · simp [h]

@[simp] theorem mo2_bytes {s : State} {cl : Bool} {a b : Opnd} {c : Option Opnd} {rule : Mo → Mo → DWord → Step × Step}
    (h : Canonical s.mem) :
    NextWf (mo2 s cl a b c rule) := by
  simp [mo2, h]

@[simp] theorem mo1_bytes {s : State} {cl : Bool} {a : Opnd} {rule : Mo → Step × Step} (h : Canonical s.mem) :
    NextWf (mo1 s cl a rule) := by
  simp [mo1, h]

/-! ### Tiles (R114 to R120) -/

theorem withTile_bytes {p : Site} {c : Opnd} {t : Nat} {k : AccSet → Tile → State → State} {s : State}
    (hk : ∀ A T s, Canonical s.mem → Canonical (k A T s).mem) (h : Canonical s.mem) :
    Canonical (withTile p c t k s).mem := by
  unfold withTile
  split
  · simp [h]
  · split
    · simp [h]
    · split
      · simp [h]
      · split
        · simp [h]
        · split <;> simp [h, hk]

theorem withWrite_bytes {p : Site} {c : Opnd} {t : Nat} {k : AccSet → Tile → State → State} {s : State}
    (hk : ∀ A T s, Canonical s.mem → Canonical (k A T s).mem) (h : Canonical s.mem) :
    Canonical (withWrite p c t k s).mem := by
  unfold withWrite
  split
  · simp [h]
  · exact withTile_bytes (fun A T s h => by split <;> simp [h, hk]) h

theorem withRead_bytes {p : Site} {c t : Opnd} {k? : Option Opnd} {k : AccSet → Tile → State → State} {s : State}
    (hk : ∀ A T s, Canonical s.mem → Canonical (k A T s).mem) (h : Canonical s.mem) :
    Canonical (withRead p c t k? k s).mem := by
  refine withTile_bytes (fun A T s h => ?_) h
  (repeat' split) <;> simp [h, hk]

/-! ### Accesses, atomics and objects (R193, R228 to R242, R251, R257) -/

theorem access_bytes {p : Site} {n al : Nat} {mask : BitVec 3} {rd wr : Bool} {as : List DWord} {k : List (Nat × Acc) → State → State}
    {s : State} (hk : ∀ accs s, Canonical s.mem → Canonical (k accs s).mem) (h : Canonical s.mem) :
    Canonical (access p n al mask rd wr as k s).mem := by
  unfold access
  dsimp only
  split
  · simp [h]
  · split
    · simp -implicitDefEqProofs [h]
    · exact hk _ _ (by simp [h])

@[simp] theorem reachLanes_bytes {p : Site} {wr : Bool} {n : Nat} {accs : List (Nat × Acc)} {s : State} (h : Canonical s.mem) :
    Canonical (reachLanes p wr n accs s).mem :=
  foldl_bytes (fun _ _ h => reach_bytes h) _ h

@[simp] theorem loadNow_bytes {p : Site} {n : Nat} {free : State → Bool} {accs : List (Nat × Acc)} {s : State} (h : Canonical s.mem) :
    Canonical (loadNow p n free accs s).2.mem := by
  unfold loadNow
  dsimp only
  split
  · exact reachLanes_bytes h
  · split
    · exact reachLanes_bytes h
    · simp [h]

@[simp] theorem loadInstr_bytes {s : State} {t : Ty} {mask : BitVec 3} {m : MemOp} {acq : Option (BitVec 3)} (h : Canonical s.mem) :
    NextWf (loadInstr s t mask m acq) := by
  refine portable_bytes (fun p s h => ?_) h
  split
  · simp [h]
  · exact access_bytes (fun accs s h => by split <;> simp [h]) h

@[simp] theorem storeInstr_bytes {s : State} {t : Ty} {mask : BitVec 3} {m : MemOp} {v : Opnd} {op : Nat → Nat → List Byte → GOp}
    (h : Canonical s.mem) :
    NextWf (storeInstr s t mask m v op) := by
  refine portable_bytes (fun p s h => ?_) h
  split
  · exact access_bytes (fun accs s h => by simp [h]) h
  · simp [h]

@[simp] theorem flush_bytes {g sd : Nat} {s : State} (h : Canonical s.mem) : Canonical (flush g sd s).mem := by
  unfold flush
  split
  · exact h
  · exact foldl_bytes (fun _ _ h => land_bytes h) _ h

@[simp] theorem landOver_bytes {a n g : Nat} {s : State} (h : Canonical s.mem) : Canonical (landOver a n g s).mem := by
  simp [landOver, h]

theorem atomAt_bytes {g x n : Nat} {f : Nat → DWord → DWord} {r : NMap DWord × State} {e : Nat × Acc} (h : Canonical r.2.mem) :
    Canonical (atomAt g x n f r e).2.mem := by
  exact storeBytes_bytes (reach_bytes (by simp [h]))

theorem foldl_atomAt_bytes {g x n : Nat} {f : Nat → DWord → DWord} {l : List (Nat × Acc)} {r : NMap DWord × State}
    (h : Canonical r.2.mem) :
    Canonical (l.foldl (atomAt g x n f) r).2.mem := by
  induction l generalizing r with
  | nil => exact h
  | cons e l ih => exact ih (atomAt_bytes h)

@[simp] theorem atomInstr_bytes {p : Site} {k : AtomKind} {sc : BitVec 3} {t : Ty} {mask : BitVec 3} {as : List DWord}
    {f : Nat → DWord → DWord} {s : State} (h : Canonical s.mem) :
    Canonical (atomInstr p k sc t mask as f s).mem := by
  refine access_bytes (fun accs s h => commit_bytes ?_) h
  have hr := fun (s : State) (h : Canonical s.mem) =>
    foldl_atomAt_bytes (g := p.g) (x := p.ctx) (n := Ty.bytes t) (f := f) (l := accs) (r := ([], s)) h
  split <;> split <;> simp -implicitDefEqProofs [h, hr]

theorem accessArr_bytes {p : Site} {e n : Nat} {mask : BitVec 3} {wr : Bool} {as : List DWord}
    {k : List (List (Nat × Acc)) → State → State} {s : State} (hk : ∀ accss s, Canonical s.mem → Canonical (k accss s).mem)
    (h : Canonical s.mem) :
    Canonical (accessArr p e n mask wr as k s).mem := by
  unfold accessArr
  dsimp only
  split
  · simp [h]
  · split <;> simp [h, hk]

@[simp] theorem loadArr_bytes {p : Site} {e n : Nat} {free : Bool} {accss : List (List (Nat × Acc))} {s : State} (h : Canonical s.mem) :
    Canonical (loadArr p e n free accss s).2.mem := by
  unfold loadArr
  dsimp only
  split
  · exact foldl_bytes (fun _ _ h => reachLanes_bytes h) _ h
  · exact foldl_bytes (fun _ _ h => by simp [h]) _ (foldl_bytes (fun _ _ h => reachLanes_bytes h) _ h)

theorem objInstr_bytes {β : Type} {p : Site} {d : β} {rd wr : Bool} {n : Nat} {as : List DWord}
    {f : State → State → Nat → Except (Cause × DWord) (List (Nat × Acc) × List GOp × β)} {k : List GOp → (Nat → β) → State → State}
    {s : State} (hk : ∀ ops b s, Canonical s.mem → Canonical (k ops b s).mem) (h : Canonical s.mem) :
    Canonical (objInstr p d rd wr n as f k s).mem := by
  unfold objInstr
  extract_lets look t
  have ht : Canonical t.mem := by
    simp only [t]
    split
    · split <;> simp [h]
    · exact h
  split
  · simp [ht]
  · dsimp only
    split
    · simp -implicitDefEqProofs [ht]
    · exact hk _ _ _ (by simp [ht])

/-! ### Publication and engine instructions at issue (R243 to R245, R265 to R276) -/

@[simp] theorem putHeader_bytes {g x a : Nat} {f : DWord → DWord} {line : DWord → LSt × Half} {s : State} (h : Canonical s.mem) :
    Canonical (putHeader g x a f line s).mem := by
  unfold putHeader
  split
  · exact h
  · dsimp only
    split
    · exact setBytes_wf _ _ _ (reach_bytes h)
    · exact setBytes_wf _ _ _ (reach_bytes h)

@[simp] theorem markPending_bytes {W : Walk} {s : State} (h : Canonical s.mem) : Canonical (markPending W s).mem :=
  foldl_bytes (fun _ _ h => putHeader_bytes h) _ h

theorem succeedWalk_bytes {q : Port} (hq : q.Keeps) {W : Walk} {mask : BitVec 3} {deps : List Nat} {s : State} (h : Canonical s.mem) :
    Canonical (succeedWalk q W mask deps s).mem := by
  refine hq.close _ _ ?_
  have hm := markPending_bytes (W := W) (landAll_bytes (g := q.site.g) (hq.flush s h))
  simpa using hm

theorem publAt_bytes {q : Port} (hq : q.Keeps) {sc mask : BitVec 3} {a root : DWord} {es : List Nat} {s : State} (h : Canonical s.mem) :
    Canonical (publAt q sc mask a root es s).mem := by
  unfold publAt
  dsimp only
  split
  · exact Port.withFree_bytes hq (fun s h => (failToken_mem ..).symm ▸ hq.commit _ _ _ _ s h) h
  · split
    · exact hq.wait _ _ h
    · refine Port.withFree_bytes hq (fun s h => ?_) h
      split
      · split
        · simp -implicitDefEqProofs [h]
        · exact hq.wait _ _ h
        · exact succeedWalk_bytes hq h
      · split
        · simp -implicitDefEqProofs [h]
        · split
          · exact succeedWalk_bytes hq (by simp -implicitDefEqProofs [State.newId, h])
          · exact hq.wait _ _ (by simp -implicitDefEqProofs [State.newId, h])

@[simp] theorem commitEngine_bytes {p : Site} {kind : EngKind} {scope mask : BitVec 3} {deps : List Nat} {s : State}
    (h : Canonical s.mem) :
    Canonical (commitEngine p kind scope mask deps s).mem :=
  commit_bytes h

theorem Site.port_keeps (p : Site) : p.port.Keeps where
  wait _ _ h := h
  issue _ _ _ _ _ h := h
  commit _ _ _ _ _ h := commitEngine_bytes h
  flush _ h := flush_bytes h
  close _ _ h := commit_bytes h

theorem withToken_bytes {p : Site} {ks : List Opnd} {k : List Nat → State → State} {s : State}
    (hk : ∀ es s, Canonical s.mem → Canonical (k es s).mem) (h : Canonical s.mem) :
    Canonical (withToken p ks k s).mem := by
  unfold withToken
  split
  · simp [h]
  · exact Port.withFree_bytes p.port_keeps (hk _) h

theorem issueTransfer_bytes {q : Port} (hq : q.Keeps) {kind : EngKind} {al : Nat} {ok : List (Space × Space) → Bool}
    {scope mask : BitVec 3} {dst : Nat} {es : List Nat} {s : State} (h : Canonical s.mem) :
    Canonical (issueTransfer q kind al ok scope mask dst es s).mem := by
  unfold issueTransfer
  dsimp only
  split
  · simp [h]
  · split
    · exact hq.issue _ _ _ _ _ (by simp [h])
    · simp [h]

theorem copyAt_bytes {q : Port} (hq : q.Keeps) {sc mask : BitVec 3} {dirty tag two : Bool} {d a n rows dstr sstr : Nat} {es : List Nat}
    {s : State} (h : Canonical s.mem) :
    Canonical (copyAt q sc mask dirty tag two d a n rows dstr sstr es s).mem := by
  unfold copyAt
  dsimp only
  split
  · simp [h]
  · exact issueTransfer_bytes hq h

theorem gatherAt_bytes {q : Port} (hq : q.Keeps) {sc mask : BitVec 3} {k : Nat} {xs : List (Nat × Nat)} {e : Nat}
    {kind : Nat → List (Nat × Nat) → Nat → EngKind} {es : List Nat} {s : State} (h : Canonical s.mem) :
    Canonical (gatherAt q sc mask k xs e kind es s).mem := by
  unfold gatherAt
  split
  · exact issueTransfer_bytes hq h
  · simp [h]

@[simp] theorem gatherScatter_bytes {s : State} {sc mask : BitVec 3} {le : BitVec 4} {pk x : MemOp} {ks : List Opnd}
    {kind : Nat → List (Nat × Nat) → Nat → EngKind} (h : Canonical s.mem) :
    NextWf (gatherScatter s sc mask le pk x ks kind) := by
  refine portable_bytes (fun p s h => ?_) h
  split
  · exact withToken_bytes (fun es s h => gatherAt_bytes p.port_keeps h) h
  · simp [h]

theorem collAt_bytes {q : Port} (hq : q.Keeps) {kind : CollKind} {op : CollOp} {mask : BitVec 3} {t : Ty} {d a c g : Nat}
    {es : List Nat} {s : State} (h : Canonical s.mem) :
    Canonical (collAt q kind op mask t d a c g es s).mem := by
  unfold collAt
  dsimp only
  split
  · simp [h]
  · split
    · simp [h]
    · split
      · simp [h]
      · simp [h]
      · exact hq.issue _ _ _ _ _ (by simp [h])

/-! ### Signals and enqueue (R309 to R315) -/

theorem signalAt_bytes {q : Port} (hq : q.Keeps) {rd : Bool} {sc mask : BitVec 3} {a : DWord} {kind : EngKind} {es : List Nat}
    {s : State} (h : Canonical s.mem) :
    Canonical (signalAt q rd sc mask a kind es s).mem := by
  unfold signalAt
  dsimp only
  split
  · simp [h]
  · simp [h]
  · exact hq.commit _ _ _ _ _ (by simp [h])

@[simp] theorem signalWrite_bytes {s : State} {rd : Bool} {sc mask : BitVec 3} {m : MemOp} {v : Opnd} {ks : List Opnd}
    {kind : Nat → DWord → EngKind} (h : Canonical s.mem) :
    NextWf (signalWrite s rd sc mask m v ks kind) := by
  refine portable_bytes (fun p s h => ?_) h
  split
  · exact withToken_bytes (fun es s h => signalAt_bytes p.port_keeps h) h
  · simp [h]

@[simp] theorem Site.readsWord_bytes {p : Site} {a : Nat} {s : State} (h : Canonical s.mem) : Canonical (Site.readsWord p a s).mem := by
  unfold Site.readsWord
  dsimp only
  refine foldl_bytes (fun _ _ h => by simp [h]) _ (reach_bytes (landOver_bytes ?_))
  split
  · exact commit_bytes h
  · exact h

theorem withSignal_bytes {p : Site} {mask : BitVec 3} {m : MemOp} {k : DWord → Acc → State → State} {s : State}
    (hk : ∀ a acc s, Canonical s.mem → Canonical (k a acc s).mem) (h : Canonical s.mem) :
    Canonical (withSignal p mask m k s).mem := by
  unfold withSignal
  split
  · simp [h]
  · dsimp only
    split <;> simp [h, hk]

theorem enqAt_bytes {q : Port} (hq : q.Keeps) {barrier : Bool} {sc mask : BitVec 3} {a d : DWord} {es : List Nat} {s : State}
    (h : Canonical s.mem) :
    Canonical (enqAt q barrier sc mask a d es s).mem := by
  unfold enqAt
  split
  · simp [h]
  · exact hq.commit _ _ _ _ _ h

/-! ### The native level (R158 to R182) -/

@[simp] theorem NSite.fault_bytes {p : NSite} {c : Cause} {lane : Option Nat} {aux : DWord} {s : State} (h : Canonical s.mem) :
    Canonical (NSite.fault p c lane aux s).mem := by
  simp [NSite.fault, h]

@[simp] theorem NSite.illegal_bytes {p : NSite} {s : State} (h : Canonical s.mem) : Canonical (NSite.illegal p s).mem := by
  simp [NSite.illegal, h]

@[simp] theorem performNow_bytes {x g sd : Nat} {o : GOp} {s : State} (h : Canonical s.mem) :
    Canonical (performNow x g sd o s).mem := by
  unfold performNow
  split <;> simp [h]

@[simp] theorem nLand_bytes {x g sd : Nat} {o : GOp} {s : State} (h : Canonical s.mem) : Canonical (nLand x g sd o s).mem := by
  unfold nLand
  dsimp only
  (repeat' split) <;> simp [h]

@[simp] theorem nCommit_bytes {g sd : Nat} {s : State} (h : Canonical s.mem) : Canonical (nCommit g sd s).mem := by
  unfold nCommit
  split
  · exact h
  · split
    · exact h
    · dsimp only
      split
      · exact endGroup_bytes (foldl_bytes (fun _ _ h => nLand_bytes h) _ h)
      · exact foldl_bytes (fun _ _ h => nLand_bytes h) _ h

@[simp] theorem writeStack_bytes {g : Nat} {s : State} (h : Canonical s.mem) : Canonical (writeStack g s).mem := by
  unfold writeStack
  split
  · exact h
  · split
    · exact h
    · exact foldl_bytes (fun _ _ h => storeBytes_bytes h) _ h

@[simp] theorem NSite.diverge_bytes {p : NSite} {t : Mask} {target : Nat} {s : State} (h : Canonical s.mem) :
    Canonical (NSite.diverge p t target s).mem := by
  unfold NSite.diverge
  dsimp only
  (repeat' split) <;> simp -implicitDefEqProofs [h]

@[simp] theorem mergeParked_bytes {g : Nat} {s : State} (h : Canonical s.mem) : Canonical (mergeParked g s).mem := by
  unfold mergeParked
  (repeat' split) <;> simp -implicitDefEqProofs [h]

@[simp] theorem releaseSide_bytes {g : Nat} {reach : Nat → Nat → Bool} {i : Nat} {s : State} (h : Canonical s.mem) :
    Canonical (releaseSide g reach i s).mem := by
  unfold releaseSide
  dsimp only
  (repeat' split) <;> simp -implicitDefEqProofs [h]

@[simp] theorem settleSlots_bytes {g : Nat} {reach : Nat → Nat → Bool} {fuel : Nat} {s : State} (h : Canonical s.mem) :
    Canonical (settleSlots g reach fuel s).mem := by
  induction fuel generalizing s with
  | zero => exact h
  | succ n ih => exact ih (mergeParked_bytes (releaseSide_bytes (releaseSide_bytes h)))

@[simp] theorem settleNative_bytes {g : Nat} {s : State} (h : Canonical s.mem) : Canonical (settleNative g s).mem := by
  unfold settleNative
  split
  · exact h
  · split
    · exact h
    · dsimp only
      split
      · split
        · exact writeStack_bytes (settleSlots_bytes h)
        · exact endGroup_bytes (writeStack_bytes (settleSlots_bytes h))
      · exact writeStack_bytes (settleSlots_bytes h)

@[simp] theorem NSite.endSide_bytes {p : NSite} {s : State} (h : Canonical s.mem) : Canonical (NSite.endSide p s).mem := by
  unfold NSite.endSide
  dsimp only
  (repeat' split) <;> simp -implicitDefEqProofs [h]

@[simp] theorem NSite.gate_bytes {p : NSite} {ops : List GOp} {s : State} (h : Canonical s.mem) :
    Canonical (NSite.gate p ops s).mem := by
  unfold NSite.gate
  split <;> simp [h]

@[simp] theorem NSite.flush_bytes {p : NSite} {s : State} (h : Canonical s.mem) : Canonical (NSite.flush p s).mem := by
  unfold NSite.flush
  split
  · exact h
  · exact foldl_bytes (fun _ _ h => performNow_bytes h) _ (landAll_bytes h)

@[simp] theorem NSite.committed_bytes {p : NSite} {s : State} (h : Canonical s.mem) : Canonical (NSite.committed p s).mem := by
  simp [NSite.committed, h]

@[simp] theorem NSite.waitSignal_bytes {p : NSite} {u : Nat} {s : State} (h : Canonical s.mem) :
    Canonical (NSite.waitSignal p u s).mem := by
  unfold NSite.waitSignal
  extract_lets c nodl a x fin t
  have hfin : ∀ v ok (s : State), Canonical s.mem → Canonical (fin v ok s).mem := fun v ok s h => by
    cases ok <;> simp [fin, h]
  have ht : Canonical t.mem := (touchAddrs_mem ..).symm ▸ h
  clear_value fin c a x nodl t
  generalize Cond.ofCode (c % 8) = o
  cases o with
  | none =>
    dsimp only
    exact NSite.illegal_bytes h
  | some cc =>
    dsimp only
    by_cases hc : c / 2 ^ 10 ≠ 0 ∨ 6 ≤ c / 8 % 8
    · rw [if_pos hc]
      exact NSite.illegal_bytes h
    rw [if_neg hc]
    cases p.site.side.pend with
    | hit v => exact hfin _ _ _ h
    | done => exact hfin _ _ _ h
    | _ =>
      dsimp only
      split
      · exact NSite.fault_bytes ht
      · have hr := fun k => reach_bytes (B := .thread p.g p.site.low) (wr := false) (a := k) (n := 8)
          (landOver_bytes (a := k) (n := 8) (g := p.g) ht)
        split
        · exact hfin _ _ _ (hr _)
        · split
          · exact hfin _ _ _ (hr _)
          · rw [NSite.wait_mem]
            exact canonical_ite (hr _) (hr _)

@[simp] theorem NSite.hook_bytes {p : NSite} {s : State} (h : Canonical s.mem) : Canonical (NSite.hook p s).mem := by
  unfold NSite.hook
  dsimp only
  (repeat' split) <;> simp [h]

theorem NSite.withTile_bytes {p : NSite} {t : Nat} {k : AccSet → Tile → State → State} {s : State}
    (hk : ∀ A T s, Canonical s.mem → Canonical (k A T s).mem) (h : Canonical s.mem) :
    Canonical (p.withTile t k s).mem := by
  unfold NSite.withTile
  split
  · simp [h]
  · split
    · simp [h]
    · split <;> simp [h, hk]

theorem NSite.withWrite_bytes {p : NSite} {t : Nat} {k : AccSet → Tile → State → State} {s : State}
    (hk : ∀ A T s, Canonical s.mem → Canonical (k A T s).mem) (h : Canonical s.mem) :
    Canonical (p.withWrite t k s).mem := by
  unfold NSite.withWrite
  split
  · simp [h]
  · exact NSite.withTile_bytes hk h

theorem NSite.through_bytes {p : NSite} {W : Win} {k : State → State} {s : State} (hk : ∀ s, Canonical s.mem → Canonical (k s).mem)
    (h : Canonical s.mem) :
    Canonical (p.through W k s).mem := by
  unfold NSite.through
  split
  · exact hk _ h
  · exact hk _ h

theorem NSite.access_bytes {p : NSite} {o : LOp} {n : Nat} {mask : BitVec 3} {rd wr : Bool}
    {k : Site → List (Nat × Acc) → State → State} {s : State} (hk : ∀ q accs s, Canonical s.mem → Canonical (k q accs s).mem)
    (h : Canonical s.mem) :
    Canonical (p.access o n mask rd wr k s).mem :=
  NSite.through_bytes (fun _ h => Sys2Proof.Machine.access_bytes (hk _) h) ((NSite.window_mem p _ s).symm ▸ h)

@[simp] theorem lLoad_bytes {s : State} {o : LOp} {mask : BitVec 3} {sg : Bool} (h : Canonical s.mem) : NextWf (lLoad s o mask sg) :=
  native_bytes (fun p s h => NSite.access_bytes (fun q accs s h => by simp [h]) h) h

@[simp] theorem lStore_bytes {s : State} {o : LOp} {op : Nat → Nat → List Byte → GOp} (h : Canonical s.mem) : NextWf (lStore s o op) :=
  native_bytes (fun p s h => NSite.access_bytes (fun q accs s h => NSite.gate_bytes h) h) h

@[simp] theorem lAtom_bytes {s : State} {o : LOp} {f : NSite → Nat → DWord → DWord} (h : Canonical s.mem) : NextWf (lAtom s o f) :=
  native_bytes (fun p s h => NSite.access_bytes (fun q accs s h =>
    NSite.committed_bytes (by simpa using foldl_atomAt_bytes (NSite.flush_bytes h))) h) h

@[simp] theorem lAtomOp_bytes {s : State} {o : LOp} {op : AtomOp} (h : Canonical s.mem) : NextWf (lAtomOp s o op) := by
  simp [lAtomOp, h]

@[simp] theorem NSite.issueEng_bytes {p : NSite} {k : Nat} {kind : EngKind} {scope mask : BitVec 3} {deps : List Nat} {s : State}
    (h : Canonical s.mem) :
    Canonical (NSite.issueEng p k kind scope mask deps s).mem :=
  NSite.gate_bytes h

theorem NSite.port_keeps (p : NSite) (k : Nat) : (p.port k).Keeps where
  wait _ _ h := h
  issue _ _ _ _ _ h := NSite.issueEng_bytes h
  commit _ _ _ _ _ h := NSite.committed_bytes (NSite.flush_bytes (NSite.issueEng_bytes h))
  flush _ h := NSite.flush_bytes h
  close _ _ h := NSite.committed_bytes h

theorem aSlot_bytes {s : State} {k : BitVec 4} {d : BitVec 9} {f : NSite → Port → Desc → State → State}
    (hf : ∀ p k D s, Canonical s.mem → Canonical (f p (p.port k) D s).mem) (h : Canonical s.mem) :
    NextWf (aSlot s k d f) := by
  refine native_bytes (fun p s h => ?_) h
  split
  · simp [h]
  · exact hf _ _ _ _ h

/-! ### Queues, placement and translations (R138, R284 to R293, R416) -/

@[simp] theorem reachVa_bytes {x va n : Nat} {s : State} (h : Canonical s.mem) : Canonical (reachVa x va n s).mem :=
  foldl_bytes (fun _ _ h => by split <;> simp [h]) _ h

@[simp] theorem readTail_bytes {q : Nat} {s : State} (h : Canonical s.mem) : Canonical (readTail q s).mem := by
  unfold readTail
  dsimp only
  (repeat' split) <;> simp [h]

@[simp] theorem queueSeen_bytes {s : State} {q : Nat} (h : Canonical s.mem) : Canonical (queueSeen s q).mem := by
  simp [queueSeen, h]

theorem serveHead_bytes {q kind : Nat} {k : QEntry → Nat → State → Except Nat State} {s : State}
    (hk : ∀ e t s u, Canonical s.mem → k e t s = .ok u → Canonical u.mem) (h : Canonical s.mem) :
    Canonical (serveHead q kind k s).mem := by
  unfold serveHead
  extract_lets Q t
  split
  · exact h
  · have ht : Canonical t.mem := queueSeen_bytes h
    clear_value t
    split
    · exact ht
    · split
      · exact ht
      · split
        · exact ht
        · split
          · exact ht
          · split
            · exact ht
            · split
              · exact ht
              · split
                · exact ht
                · split
                  · exact ht
                  case _ hu => exact hk _ _ _ _ ht hu

@[simp] theorem reachLaunch_bytes {x arg : Nat} {s : State} (h : Canonical s.mem) : Canonical (reachLaunch x arg s).mem := by
  unfold reachLaunch
  dsimp only
  have hr := fun a b n m => reachVa_bytes (x := x) (va := a) (n := n)
    (reachVa_bytes (x := x) (va := b) (n := m) (reachVa_bytes (x := x) (va := arg) (n := 64) h))
  split
  · exact hr ..
  · exact reachVa_bytes (hr ..)

@[simp] theorem startWords_bytes {c o n : Nat} {s : State} (h : Canonical s.mem) : Canonical (startWords c o n s).mem := by
  unfold startWords State.tick
  dsimp only
  exact NMap.wf_keep _ _ _ h

@[simp] theorem settleScopes_bytes {g : Nat} {s : State} (h : Canonical s.mem) : Canonical (settleScopes g s).mem :=
  foldl_bytes (fun _ _ h => landWhere_bytes h) _ h

@[simp] theorem seatGroup_bytes {g c slot off len : Nat} {s : State} (h : Canonical s.mem) :
    Canonical (seatGroup g c slot off len s).mem := by
  unfold seatGroup
  dsimp only
  (repeat' split) <;> simp [h]

@[simp] theorem xlatFault_bytes {g : Nat} {c : Cause} {pc : Nat} {s : State} (h : Canonical s.mem) :
    Canonical (xlatFault g c pc s).mem := by
  unfold xlatFault
  (repeat' split) <;> simp -implicitDefEqProofs [h]

@[simp] theorem enterTranslation_bytes {g : Nat} {s : State} (h : Canonical s.mem) : Canonical (enterTranslation g s).mem := by
  unfold enterTranslation
  dsimp only
  (repeat' split) <;> simp -implicitDefEqProofs [h]

theorem placeNext_bytes {l cl : Nat} {s t : State} (h : Canonical s.mem) (ht : placeNext l cl s = some t) : Canonical t.mem := by
  unfold placeNext at ht
  split at ht
  · cases ht
  · dsimp only at ht
    split at ht
    · split at ht
      · cases ht
      · obtain rfl := Option.some.inj ht
        refine foldl_bytes (fun _ _ h => ?_) _ (foldl_bytes (fun _ _ h => seatGroup_bytes h) _
          (foldl_bytes ?_ _ (foldl_bytes (fun _ _ h => startWords_bytes h) _ h)))
        · split
          · exact xlatFault_bytes h
          · exact enterTranslation_bytes h
        · exact fun _ _ h => h
    · cases ht

@[simp] theorem placeFirst_bytes {cl : Nat} {ls : List Nat} {u : State} (h : Canonical u.mem) : Canonical (placeFirst cl ls u).mem := by
  induction ls generalizing u with
  | nil => exact h
  | cons l r ih =>
    unfold placeFirst
    split
    case _ ht => exact placeNext_bytes h ht
    case _ =>
      have hw : Canonical (beginWait l cl u).mem := by simp [h]
      extract_lets s
      split
      · split
        · exact hw
        · exact ih hw
      · split
        · exact hw
        · exact ih hw

@[simp] theorem countGroups_bytes {gs : List Nat} {ev : Nat} {s : State} (h : Canonical s.mem) : Canonical (countGroups gs ev s).mem :=
  foldl_bytes (fun _ _ h => chargeEv_bytes h) _ h

theorem makeRoom_bytes {d n : Nat} {waiters : List Nat} {fuel : Nat} {s t : State} (h : Canonical s.mem)
    (ht : makeRoom d n waiters fuel s = some t) :
    Canonical t.mem := by
  induction fuel generalizing s with
  | zero =>
    unfold makeRoom at ht
    split at ht
    · cases ht; exact h
    · cases ht
  | succ f ih =>
    unfold makeRoom at ht
    split at ht
    · cases ht; exact h
    · split at ht
      · cases ht
      · refine ih (countGroups_bytes ?_) ht
        exact h

@[simp] theorem settleArrived_bytes {g : Nat} {s : State} (h : Canonical s.mem) : Canonical (settleArrived g s).mem := by
  unfold settleArrived
  dsimp only
  (repeat' split) <;> simp -implicitDefEqProofs [h]

@[simp] theorem settleBlock_bytes {b : Nat} {s : State} (h : Canonical s.mem) : Canonical (settleBlock b s).mem := by
  unfold settleBlock
  split
  · exact h
  · split
    · exact foldl_bytes (fun _ _ h => by exact xlatFault_bytes h) _ h
    · split
      case _ hw => exact widenBlock_mem hw ▸ h
      case _ => simp [h]

@[simp] theorem finishTranslation_bytes {x : Nat} {s : State} (h : Canonical s.mem) : Canonical (finishTranslation x s).mem := by
  unfold finishTranslation
  split
  · exact h
  · simp only [nextTranslation_mem]
    refine foldl_bytes (fun _ _ h => by simp [h]) _ (foldl_bytes (fun _ _ h => by simp [h]) _ ?_)
    split
    · exact foldl_bytes (fun _ _ h => by simp [h]) _ (foldl_bytes (fun _ _ h => by simp [h]) _ h)
    · exact h

/-! ### Issue events, faults of matrix units, suspension and resumption (R296 to R303, R343, R413) -/

@[simp] theorem fillPage_bytes {c x p : Nat} {gs : List Nat} {s : State} (h : Canonical s.mem) :
    Canonical (fillPage c x p gs s).mem := by
  unfold fillPage
  dsimp only
  split <;> simp [h]

@[simp] theorem clockEvents_bytes {c : Nat} {s : State} (h : Canonical s.mem) : Canonical (clockEvents c s).mem := by
  unfold clockEvents
  refine foldl_bytes (fun _ _ h => ?_) _ (foldl_bytes (fun _ _ h => by simp [h]) _ (foldl_bytes (fun _ _ h => ?_) _
    (foldl_bytes (fun _ _ h => by simp [h]) _ h)))
  · split
    · split <;> simp [h]
    · exact h
  · dsimp only
    split <;> simp [h]

@[simp] theorem tickCore_bytes {c : Nat} {s : State} (h : Canonical s.mem) : Canonical (tickCore c s).mem := by
  simp [tickCore, h]

@[simp] theorem dispatchNative_bytes {g i : Nat} {s : State} (h : Canonical s.mem) : Canonical (dispatchNative g i s).mem := by
  unfold dispatchNative
  dsimp only
  (repeat' split) <;> simp -implicitDefEqProofs [h]

@[simp] theorem rotateNative_bytes {g i : Nat} {s : State} (h : Canonical s.mem) : Canonical (rotateNative g i s).mem := by
  unfold rotateNative
  dsimp only
  simp -implicitDefEqProofs [h]

@[simp] theorem replayGroup_bytes {g : Nat} {s : State} (h : Canonical s.mem) : Canonical (replayGroup g s).mem := by
  simp [replayGroup, h]

@[simp] theorem engineLost_bytes {c g : Nat} {s : State} (h : Canonical s.mem) : Canonical (engineLost c g s).mem := by
  unfold engineLost
  (repeat' split) <;> simp [h]

@[simp] theorem awaitTiles_bytes {ahead : Bool} {g : Nat} {s : State} (h : Canonical s.mem) : Canonical (awaitTiles ahead g s).mem := by
  unfold awaitTiles
  (repeat' split) <;> simp [h]

@[simp] theorem resumeGroup_bytes {g : Nat} {s : State} (h : Canonical s.mem) : Canonical (resumeGroup g s).mem := by
  unfold resumeGroup
  dsimp only
  (repeat' split) <;> simp -implicitDefEqProofs [h]

@[simp] theorem applyDisp_bytes {x g n : Nat} {s : State} (h : Canonical s.mem) : Canonical (applyDisp x g n s).mem := by
  unfold applyDisp
  dsimp only
  (repeat' split) <;> simp -implicitDefEqProofs [h]

@[simp] theorem copySaved_bytes {x a b n : Nat} {s : State} (h : Canonical s.mem) : Canonical (copySaved x a b n s).mem := by
  simp [copySaved, h]

@[simp] theorem writeTile_bytes {x k : Nat} {T : Tile} {s : State} (h : Canonical s.mem) : Canonical (writeTile x k T s).mem := by
  simp [writeTile, h]

@[simp] theorem seatTiles_bytes {s0 : State} {g : Nat} {s : State} (h : Canonical s.mem) : Canonical (seatTiles s0 g s).mem := by
  unfold seatTiles
  split
  · split
    · exact h
    · dsimp only
      split
      · exact h
      · split
        · simp [h]
        · split
          · exact h
          · exact foldl_bytes (fun _ _ h => by split <;> simp [h]) _ h
  · exact h

@[simp] theorem seatCrew_bytes {seats : List (Nat × Nat × Nat × Nat × Nat)} {s : State} (h : Canonical s.mem) :
    Canonical (seatCrew seats s).mem :=
  foldl_bytes (fun _ _ h => by split <;> simp [h]) _
    (foldl_bytes (fun _ _ h => seatTiles_bytes h) _ (foldl_bytes (fun _ _ h => seatGroup_bytes h) _ h))

theorem putVa_bytes {x fuel va : Nat} {bs : List Byte} {s t : State} (h : Canonical s.mem) (ht : putVa x fuel va bs s = some t) :
    Canonical t.mem := by
  induction fuel generalizing va bs s with
  | zero => cases ht; exact h
  | succ f ih =>
    unfold putVa at ht
    split at ht
    · cases ht; exact h
    · dsimp only at ht
      split at ht
      · cases ht
      · split at ht
        · exact ih (storeBytes_bytes h) ht
        · cases ht

theorem putAll_bytes {x va : Nat} {bs : List Byte} {s t : State} (h : Canonical s.mem) (ht : putAll x va bs s = some t) :
    Canonical t.mem :=
  putVa_bytes h ht

theorem putControl_bytes {l : Nat} {s t : State} (h : Canonical s.mem) (ht : putControl l s = some t) : Canonical t.mem := by
  unfold putControl at ht
  split at ht
  · cases ht; exact h
  · split at ht
    · cases ht; exact h
    · exact putAll_bytes h ht

@[simp] theorem syncControl_bytes {l : Nat} {s : State} (h : Canonical s.mem) : Canonical (syncControl l s).mem := by
  unfold syncControl
  cases hc : putControl l s with
  | none => exact h
  | some t => exact putControl_bytes h hc

@[simp] theorem remapSegments_bytes {m : List (Nat × Nat)} {l : Nat} {L : Launch} {T : Travel} {s : State} (h : Canonical s.mem) :
    Canonical (remapSegments m l L T s).mem := by
  unfold remapSegments
  split
  · exact h
  · exact syncControl_bytes (foldl_bytes (fun _ _ h => by split <;> simp [apply_ite, h]) _ h)

theorem seatTravel_bytes {b c : Nat} {L : Launch} {l : Nat} {s t : State} (h : Canonical s.mem) (ht : seatTravel b c L l s = some t) :
    Canonical t.mem := by
  unfold seatTravel at ht
  obtain ⟨T, -, ht⟩ := Option.bind_eq_some_iff.mp ht
  obtain ⟨m, -, rfl⟩ := Option.map_eq_some_iff.mp ht
  refine seatCrew_bytes (remapSegments_bytes ?_)
  refine foldl_bytes (fun _ _ h => by exact h) _ ?_
  rw [restoreRings_mem]
  exact foldl_bytes (fun _ _ h => by exact copySaved_bytes h) _ h

@[simp] theorem preempt_bytes {d x : Nat} {s : State} (h : Canonical s.mem) : Canonical (preempt d x s).mem :=
  foldl_bytes (fun _ _ h => suspendGroup_bytes h) _ h

@[simp] theorem saveTile_bytes {g t : Nat} {s : State} (h : Canonical s.mem) : Canonical (saveTile g t s).mem := by
  unfold saveTile
  (repeat' split) <;> simp [h]

@[simp] theorem saveTiles_bytes {g : Nat} {s : State} (h : Canonical s.mem) : Canonical (saveTiles g s).mem := by
  unfold saveTiles
  split
  · exact h
  · exact foldl_bytes (fun _ _ h => saveTile_bytes h) _ h

@[simp] theorem leaveCounts_bytes {x : Nat} {s : State} (h : Canonical s.mem) : Canonical (leaveCounts x s).mem := by
  unfold leaveCounts
  split <;> simp [h]

@[simp] theorem suspendCrew_bytes {b x : Nat} {s : State} (h : Canonical s.mem) : Canonical (suspendCrew b x s).mem := by
  refine leaveCounts_bytes (foldl_bytes (fun _ _ h => by exact h) _ (foldl_bytes (fun _ _ h => by exact copySaved_bytes h) _
    (foldl_bytes (fun _ _ h => saveTiles_bytes h) _ h)))

@[simp] theorem returnParts_bytes {b c0 part : Nat} {s : State} (h : Canonical s.mem) : Canonical (returnParts b c0 part s).mem := by
  unfold returnParts
  split
  · exact h
  · exact foldl_bytes (fun _ _ h => by exact copySaved_bytes h) _ h

theorem seatBlock_bytes {b c0 a : Nat} {s t : State} (h : Canonical s.mem) (ht : seatBlock b c0 a s = some t) : Canonical t.mem := by
  unfold seatBlock at ht
  split at ht
  · cases ht
  · obtain rfl := Option.some.inj ht
    refine seatCrew_bytes (returnParts_bytes (foldl_bytes (fun _ _ h => ?_) _ h))
    dsimp only
    split
    · exact copySaved_bytes h
    · exact h

/-! ### What engine instructions perform (R265 to R276, R334) -/

theorem enqPerform_bytes {g x q d : Nat} {barrier : Bool} {s t : State} (h : Canonical s.mem)
    (ht : enqPerform g x q d barrier s = some (.ok t)) :
    Canonical t.mem := by
  unfold enqPerform at ht
  dsimp only at ht
  split at ht
  · cases ht
  · split at ht
    · cases ht
    · split at ht
      · cases ht
        exact readTail_bytes (storeWord_bytes (storeBytes_bytes (reach_bytes (reach_bytes h))))
      · cases ht

@[simp] theorem loseTiles_bytes {c g : Nat} {s : State} (h : Canonical s.mem) : Canonical (loseTiles c g s).mem := by
  unfold loseTiles
  dsimp only
  (repeat' split) <;> simp -implicitDefEqProofs [h]

@[simp] theorem afterRestore_bytes {g : Nat} {s : State} (h : Canonical s.mem) : Canonical (afterRestore g s).mem := by
  unfold afterRestore
  (repeat' split) <;> simp -implicitDefEqProofs [h]

@[simp] theorem dropPost_bytes {E : Eng} {s : State} (h : Canonical s.mem) : Canonical (dropPost E s).mem := by
  unfold dropPost
  split <;> simp [h]

@[simp] theorem failEng_bytes {E : Eng} {c : Cause} {origin : Nat} {s : State} (h : Canonical s.mem) :
    Canonical (failEng E c origin s).mem := by
  simp [failEng, h]

@[simp] theorem reachOwn_bytes {s : State} {E : Eng} (h : Canonical s.mem) : Canonical (reachOwn s E).mem := by
  unfold reachOwn
  split
  · split
    · exact h
    · refine foldl_bytes (fun _ _ h => ?_) _ h
      split
      · exact foldl_bytes (fun _ _ h => by exact reach_bytes h) _ h
      · exact h
  · exact h

@[simp] theorem landBefore_bytes {mask : BitVec 3} {i g : Nat} {s : State} (h : Canonical s.mem) :
    Canonical (landBefore mask i g s).mem := by
  unfold landBefore
  split
  · split
    · exact landHeld_bytes (fun _ _ _ _ h => force_bytes h) h
    · exact h
  · exact h

@[simp] theorem failSelf_bytes {E : Eng} {c : Cause} {s : State} (h : Canonical s.mem) : Canonical (failSelf E c s).mem := by
  simp [failSelf, h]

theorem placeRec_bytes {l c kind g : Nat} {bs : List Byte} {s t : State} (h : Canonical s.mem) (ht : placeRec l c kind g bs s = some t)
    :
    Canonical t.mem := by
  unfold placeRec at ht
  split at ht
  · cases ht
  case _ L _ =>
    split at ht
    · cases ht
    case _ T _ =>
      extract_lets C n pos pad s' at_ s'' at ht
      have hs' : Canonical s'.mem := canonical_ite h (storeBytes_bytes h)
      clear_value pad
      split at ht
      · obtain rfl := Option.some.inj ht
        exact storeBytes_bytes hs'
      · split at ht
        · cases ht
        case _ a _ =>
          split at ht
          · cases ht
          case _ s1 h1 =>
            cases h2 : putAll L.ctx (T.pbase + a / chunkBytes * chunkBytes)
                (chunkHeader 0 (a + n - a / chunkBytes * chunkBytes - 64)) s1 with
            | none => simp [h2] at ht
            | some s2 =>
              have hs2 := putAll_bytes (putAll_bytes h h1) h2
              simp only [h2] at ht
              obtain ⟨s3, h3, ht⟩ := Option.bind_eq_some_iff.mp ht
              refine putControl_bytes (chargeEv_bytes ?_) ht
              change Canonical s3.mem
              split at h3
              · split at h3
                · exact Option.some.inj h3 ▸ hs2
                · exact putAll_bytes hs2 h3
              · exact Option.some.inj h3 ▸ hs2

@[simp] theorem postPerform_bytes {E : Eng} {g : Nat} {s : State} (h : Canonical s.mem) : Canonical (postPerform E g s).mem := by
  unfold postPerform
  split
  · simp [h]
  · split
    · simp [h]
    · split
      · simp [h]
      · dsimp only
        split
        · simp [h]
        · split
          · simp [h]
          case _ hr => simpa using placeRec_bytes h hr

@[simp] theorem reachAt_bytes {w : Who} {E : Eng} {va n : Nat} {wr : Bool} {s : State} (h : Canonical s.mem) :
    Canonical (reachAt w E va n wr s).mem := by
  unfold reachAt
  split <;> simp [h]

@[simp] theorem readParts_bytes {E : Eng} {go : List Nat} {s : State} (h : Canonical s.mem) : Canonical (readParts E go s).1.mem :=
  foldl_bytes (fun _ _ h => by exact reachAt_bytes h) _ h

@[simp] theorem writeWord_bytes {x : Nat} {kind : EngKind} {s : State} {e : EWord} (h : Canonical s.mem) :
    Canonical (writeWord x kind s e).mem := by
  unfold writeWord
  (repeat' split) <;> simp [h]

theorem writePart_bytes {w : Who} {kind : EngKind} {r : State × Option Cause} {es : List EWord} (h : Canonical r.1.mem) :
    Canonical (writePart w kind r es).1.mem := by
  unfold writePart
  dsimp only
  split
  · exact h
  · exact foldl_bytes (fun _ _ h => writeWord_bytes h) _ h

theorem writeParts_bytes {E : Eng} {settle : EWord → EWord} {ok : List (Nat × List EWord)} {r : State × Option Cause}
    (h : Canonical r.1.mem) :
    Canonical (writeParts E settle ok r).1.mem := by
  unfold writeParts
  extract_lets w
  clear_value w
  induction ok generalizing r with
  | nil => exact h
  | cons e ok ih =>
    refine ih ?_
    dsimp only
    split
    · exact h
    · split
      · exact h
      · exact writePart_bytes (reachAt_bytes h)

@[simp] theorem writeElem_bytes {g x : Nat} {s : State} {ks : List (Nat × Nat)} {v : DWord} (h : Canonical s.mem) :
    Canonical (writeElem g x s ks v).mem := by
  unfold writeElem
  have hr : ∀ (r : State × List Byte), Canonical r.1.mem → Canonical (ks.foldl (fun (r : State × List Byte) e =>
      (storeBytes x e.1 (r.2.take e.2) (reach (.engine g) true e.1 e.2 r.1), r.2.drop e.2)) r).1.mem := by
    induction ks with
    | nil => exact fun _ h => h
    | cons e ks ih => exact fun r h => ih _ (storeBytes_bytes (reach_bytes h))
  exact hr _ h

theorem signalPerform_bytes {s t : State} {E : Eng} (h : Canonical s.mem) (ht : signalPerform s E = .ok t) : Canonical t.mem := by
  unfold signalPerform at ht
  dsimp only at ht
  split at ht
  · split at ht
    · cases ht
    · cases ht
      exact storeWord_bytes (reach_bytes h)
  · split at ht
    · cases ht
    · cases ht
      exact storeWord_bytes (reach_bytes h)
  · cases ht
    exact h

theorem performEng_bytes {s t : State} {E : Eng} (h : Canonical s.mem) (ht : performEng s E = some (.ok t)) : Canonical t.mem := by
  unfold performEng at ht
  split at ht
  · exact signalPerform_bytes h (Option.some.inj ht)
  · exact signalPerform_bytes h (Option.some.inj ht)
  · exact enqPerform_bytes h ht
  · cases ht
    exact h
  all_goals cases ht

theorem settleRun_bytes {E : Eng} {r : EngRun} (h : Canonical r.st.mem) : Canonical (settleRun E r).mem := by
  unfold settleRun
  split
  · exact failSelf_bytes h
  · split
    · simp [h]
    · exact h

/-! ### Publication walks that end (R243 to R245) -/

@[simp] theorem unclaim_bytes {W : Walk} {s : State} (h : Canonical s.mem) : Canonical (unclaim W s).mem :=
  foldl_bytes (fun _ _ h => putHeader_bytes h) _ h

@[simp] theorem failWalk_bytes {W : Walk} {c : Cause} {aux : Nat} {s : State} (h : Canonical s.mem) :
    Canonical (failWalk W c aux s).mem := by
  simp [failWalk, h]

/-! ### The host's registers and messages (R211, R225, R347 to R352) -/

@[simp] theorem endSlot_bytes {x : Nat} {s : State} (h : Canonical s.mem) : Canonical (endSlot x s).mem := by
  unfold endSlot
  split <;> simp [h]

@[simp] theorem writeSlot_bytes {x : Nat} {w : BitVec 512} {s : State} (h : Canonical s.mem) : Canonical (writeSlot x w s).mem := by
  unfold writeSlot
  (repeat' split) <;> simp [h]

@[simp] theorem writePool_bytes {o : Nat} {bs : List Byte} {s : State} (h : Canonical s.mem) : Canonical (writePool o bs s).mem := by
  unfold writePool
  dsimp only
  generalize bs.zipIdx = l
  generalize s.mem = m at h
  induction l generalizing m with
  | nil => exact h
  | cons e l ih =>
    refine ih _ ?_
    dsimp only
    split
    · exact h
    · exact NMap.wf_set _ _ _ _ h

theorem regAt_bytes {off base n : Nat} {k : Nat → List Byte → State → State} (hr : regAt off = some (base, n, k)) (o : Nat)
    (bs : List Byte) {s : State} (h : Canonical s.mem) :
    Canonical (k o bs s).mem := by
  unfold regAt at hr
  split at hr
  · cases hr; exact writeSlot_bytes h
  · split at hr
    · cases hr; simp [h]
    · split at hr
      · cases hr; simp [h]
      · split at hr
        · cases hr; simp [h]
        · split at hr
          · cases hr
            dsimp only
            split <;> exact h
          · split at hr
            · cases hr; simp [h]
            · split at hr
              · cases hr; exact writePool_bytes h
              · cases hr

@[simp] theorem writeRegs_bytes {fuel o : Nat} {bs : List Byte} {s : State} (h : Canonical s.mem) :
    Canonical (writeRegs fuel o bs s).mem := by
  induction fuel generalizing o bs s with
  | zero => exact h
  | succ f ih =>
    cases bs with
    | nil => exact h
    | cons b r =>
      unfold writeRegs
      split
      · exact ih h
      case _ hr => exact ih (regAt_bytes hr _ _ h)

@[simp] theorem hostWrote_bytes {x va n : Nat} {s : State} (h : Canonical s.mem) : Canonical (hostWrote x va n s).mem := by
  unfold hostWrote
  have hq := foldl_bytes (f := fun s q => readTail q s) (fun _ _ h => readTail_bytes h)
  dsimp only
  split
  · exact foldl_bytes (fun _ _ h => applyDisp_bytes h) _ (hq _ h)
  · exact hq _ h

@[simp] theorem writeAround_bytes {x k : Nat} {bs : List Byte} {s : State} (h : Canonical s.mem) :
    Canonical (writeAround x k bs s).mem := by
  induction bs generalizing k s with
  | nil => exact h
  | cons b r ih =>
    refine ih ?_
    split
    · exact h
    · exact storeBytes_bytes h

@[simp] theorem hostPut_bytes {x n va : Nat} {bs : List Byte} {s : State} (h : Canonical s.mem) :
    Canonical (hostPut x n va bs s).mem := by
  unfold hostPut
  (repeat' split) <;> simp [h]

@[simp] theorem msgPart_bytes {M : Msg} {p : Nat × Nat} {s : State} (h : Canonical s.mem) : Canonical (msgPart M p s).1.mem := by
  unfold msgPart
  extract_lets t first
  have ht : Canonical t.mem := by
    simp only [t]
    split <;> simp [h]
  clear_value t
  split
  · simp [ht]
  · dsimp only
    split <;> simp [ht]

@[simp] theorem stepMsg_bytes {whole : Bool} {i : Nat} {s : State} (h : Canonical s.mem) : Canonical (stepMsg whole i s).mem := by
  unfold stepMsg
  split
  · exact h
  case _ M _ =>
    have hr : ∀ (l : List Nat) (ps : List (Nat × Nat)) (r : State × List (Nat × List Byte)), Canonical r.1.mem →
        Canonical (l.foldl (fun r k =>
        let t := msgPart M (nth (0, 0) ps k) r.1
        (t.1, (k, t.2) :: r.2)) r).1.mem := by
      intro l ps
      induction l with
      | nil => exact fun _ h => h
      | cons k l ih => exact fun r h => ih _ (msgPart_bytes h)
    dsimp only
    split
    · rw [answerMsg_mem]
      exact hr _ _ _ h
    · exact hr _ _ _ h

@[simp] theorem postMsg_bytes {M : Msg} {s : State} (h : Canonical s.mem) : Canonical (postMsg M s).mem := by
  unfold postMsg
  split <;> simp [h]

@[simp] theorem drainMsgs_bytes {x : Nat} {s : State} (h : Canonical s.mem) : Canonical (drainMsgs x s).mem :=
  foldl_bytes (fun _ _ h => by split <;> simp [h]) _ h

/-! ### Migration, travelling groups, code objects, host commands, resets -/

@[simp] theorem movePage_bytes {x : Nat} {l : Leaf} {pa : Nat} {s : State} (h : Canonical s.mem) : Canonical (movePage x l pa s).mem :=
  setBytes_wf _ _ _ (moveMap_wf _ _ _ _ _ h)

@[simp] theorem poolTiles_bytes {x : Nat} {G : Group} {slots : List Nat} {s : State} (h : Canonical s.mem) :
    Canonical (poolTiles x G slots s).mem := by
  unfold poolTiles
  split
  · exact h
  · exact foldl_bytes (fun _ _ h => by exact writeTile_bytes h) _ h

@[simp] theorem departed_bytes {g l c x : Nat} {G : Group} {slots : List Nat} {s : State} (h : Canonical s.mem) :
    Canonical (departed g l c x G slots s).mem := by
  simp [departed, h]

@[simp] theorem dropRec_bytes {r : Rec} {s : State} (h : Canonical s.mem) : Canonical (dropRec r s).mem := by
  unfold dropRec
  (repeat' split) <;> simp [h]

@[simp] theorem suspendArrival_bytes {g c x l : Nat} {slots : List Nat} {s : State} (h : Canonical s.mem) :
    Canonical (suspendArrival g c x l slots s).mem := by
  unfold suspendArrival
  split <;> simp [h]

@[simp] theorem fillSegment_bytes {L : Launch} {sg c : Nat} {s : State} (h : Canonical s.mem) :
    Canonical (fillSegment L sg c s).mem := by
  simp [fillSegment, h]

@[simp] theorem startBlock_bytes {l : Nat} {L : Launch} {T : Travel} {bid : Nat} {s : State} (h : Canonical s.mem) :
    Canonical (startBlock l L T bid s).mem := by
  refine foldl_bytes (fun _ _ h => ?_) _ h
  dsimp only
  split
  · exact report_bytes h
  · split
    case _ hr => simpa using placeRec_bytes (by exact h) hr
    case _ => exact report_bytes h

@[simp] theorem openControl_bytes {l : Nat} {s : State} (h : Canonical s.mem) : Canonical (openControl l s).mem := by
  unfold openControl
  dsimp only
  split
  case _ L T _ =>
    cases hp : putAll L.ctx (T.pbase + 0xD00) (List.replicate (chunkBytes - 0xD00) 0) (syncControl l s) with
    | none => exact syncControl_bytes h
    | some t => exact putAll_bytes (syncControl_bytes h) hp
  case _ => exact syncControl_bytes h

@[simp] theorem answerCode_bytes {x st code : Nat} {laddr : Option Nat} {sig : Nat} {s : State} (h : Canonical s.mem) :
    Canonical (answerCode x st code laddr sig s).mem := by
  unfold answerCode
  dsimp only
  split <;> simp [h]

@[simp] theorem writeObject_bytes {x : Nat} {o : Obj} {e : Nat × Nat × Bool × List (Nat × Nat)} {s : State} (h : Canonical s.mem) :
    Canonical (writeObject x o e s).mem :=
  foldl_bytes (fun _ _ h => by exact storeTagged_bytes h) _ (performObjInit_bytes h)

@[simp] theorem writeData_bytes {x : Nat} {o : Obj} {s : State} (h : Canonical s.mem) : Canonical (writeData x o s).mem :=
  foldl_bytes (fun _ _ h => by exact writeObject_bytes h) _ (storeBytes_bytes h)

@[simp] theorem loadInto_bytes {x i : Nat} {s : State} (h : Canonical s.mem) : Canonical (loadInto x i s).mem := by
  unfold loadInto
  dsimp only
  split <;> simp [h]

theorem installObj_bytes {f : List Byte} {d : BitVec 256} {s t : State} {i : Nat} (h : Canonical s.mem)
    (ht : installObj f d s = .ok (i, t)) :
    Canonical t.mem := by
  unfold installObj at ht
  split at ht
  · cases ht
  · split at ht
    · cases ht
    · split at ht
      · cases ht
      · cases ht
        exact setBytes_wf _ _ _ h

@[simp] theorem writeCaptures_bytes {x : Nat} {s : State} (h : Canonical s.mem) : Canonical (writeCaptures x s).mem := by
  refine foldl_bytes (fun _ _ h => ?_) _ h
  split
  · split
    · exact storeBytes_bytes h
    · exact h
  · exact h

theorem moveTravel_bytes {dies : List Nat} {l : Nat} {s t : State} (h : Canonical s.mem) (ht : moveTravel dies l s = .ok t) :
    Canonical t.mem := by
  unfold moveTravel at ht
  split at ht
  · cases ht; exact h
  · split at ht
    · dsimp only at ht
      split at ht
      · cases ht
      · split at ht
        · cases ht
        · split at ht
          · cases ht
          · obtain rfl := Except.ok.inj ht
            refine syncControl_bytes (foldl_bytes (fun _ _ h => by exact seatTiles_bytes h) _ (foldl_bytes (fun _ _ h => ?_) _
              (foldl_bytes (fun _ _ h => by exact h) _ ?_)))
            · split
              · exact seatGroup_bytes h
              · exact h
            · rw [restoreRings_mem]
              exact foldl_bytes (fun _ _ h => by exact copySaved_bytes h) _ h
    · cases ht
    · cases ht; exact h

@[simp] theorem sitCrew_bytes {seats : List (Nat × Nat × Nat × Nat × Nat)} {s : State} (h : Canonical s.mem) :
    Canonical (sitCrew seats s).mem :=
  foldl_bytes (fun _ _ h => seatTiles_bytes h) _ (foldl_bytes (fun _ _ h => by simp [h]) _ h)

theorem moveBlock_bytes {dies : List Nat} {b : Nat} {s t : State} (h : Canonical s.mem) (ht : moveBlock dies b s = .ok t) :
    Canonical t.mem := by
  unfold moveBlock at ht
  split at ht
  · cases ht; exact h
  · dsimp only at ht
    split at ht
    · cases ht
    · split at ht
      · cases ht
      · split at ht
        · cases ht
        · cases ht
          exact sitCrew_bytes (returnParts_bytes h)

@[simp] theorem releaseContext_bytes {x : Nat} {s : State} (h : Canonical s.mem) : Canonical (releaseContext x s).mem := by
  unfold releaseContext
  dsimp only
  split
  · exact h
  · exact foldl_bytes (fun _ _ h => by exact resumeGroup_bytes h) _ h

theorem serveCmd_bytes {x n : Nat} {halted : Bool} {k : Cmd → State → State} {s : State}
    (hk : ∀ c s, Canonical s.mem → Canonical (k c s).mem) (h : Canonical s.mem) :
    NextWf (serveCmd x n halted k s) := by
  unfold serveCmd
  rw [nextWf_next]
  split
  · exact h
  · (repeat' split) <;> simp [h, hk]

@[simp] theorem dieResetFault_bytes {d x : Nat} {s : State} (h : Canonical s.mem) : Canonical (dieResetFault d x s).mem := by
  unfold dieResetFault
  split <;> simp [h]

@[simp] theorem resetDie_bytes {d : Nat} {s : State} (h : Canonical s.mem) : Canonical (resetDie d s).mem := by
  unfold resetDie
  rw [freshDie_mem]
  exact foldl_bytes (fun _ _ h => by exact dieResetFault_bytes h) _ h

/-! ### Around the issue of an instruction -/

@[simp] theorem issued_bytes {s : State} {p : Site} {i : Instr} {n : Nat} (h : Canonical s.mem) : Canonical (issued s p i n).mem := by
  unfold issued
  split <;> simp [h]

@[simp] theorem badSlot_bytes {g : Nat} {s : State} (h : Canonical s.mem) : Canonical (badSlot g s).mem := by
  unfold badSlot
  (repeat' split) <;> simp -implicitDefEqProofs [h]

@[simp] theorem nativeHook_bytes {g : Nat} {s : State} (h : Canonical s.mem) : Canonical (nativeHook g s).mem := by
  unfold nativeHook
  split
  · exact h
  · split
    · exact h
    · split
      · split
        · split
          · simp [h]
          · exact endStep_bytes (faultAt_bytes (nCommit_bytes h))
        · exact h
      · exact h

@[simp] theorem landOne_bytes {g i : Nat} {s : State} (h : Canonical s.mem) : Canonical (landOne g i s).mem := by
  unfold landOne
  split
  · split
    · exact landHeld_bytes (fun _ _ _ _ h => force_bytes h) h
    · exact h
  · exact h

@[simp] theorem readEarly_bytes {g l a n : Nat} {s : State} (h : Canonical s.mem) : Canonical (readEarly g l a n s).mem := by
  unfold readEarly
  (repeat' split) <;> simp [h]

/-! ### Shared forms of native results and of management messages -/

theorem vLanes_bytes {s : State} {v : VOp} {w n : Nat} {f : NSite → DWord → DWord → DWord → DWord} (h : Canonical s.mem) :
    NextWf (vLanes s v w n f) :=
  native_bytes (fun p s h => by simp [h]) h

theorem vInt_bytes {s : State} {v : VOp} {opc w n : Nat} (h : Canonical s.mem) : NextWf (vInt s v opc w n) := vLanes_bytes h

theorem vFloat_bytes {s : State} {v : VOp} {lat : NSite → Nat} {f : NSite → DWord → DWord → DWord → DWord × Flags} (h : Canonical s.mem)
    :
    NextWf (vFloat s v lat f) :=
  native_bytes (fun p s h => by simp [h]) h

theorem vPush_bytes {s : State} {v : VOp} {w n : Nat} {f : NSite → DWord → DWord → Bool} (h : Canonical s.mem) :
    NextWf (vPush s v w n f) :=
  native_bytes (fun p s h => by simp [h]) h

theorem vCarry_bytes {s : State} {v : VOp} {m : NSite → Mask} {cin : NSite → Nat → Nat} (h : Canonical s.mem) :
    NextWf (vCarry s v m cin) :=
  native_bytes (fun p s h => by simp [h]) h

theorem fSlot_bytes {s : State} {o : FOp} {f : Bool → DWord → DWord × Flags} (h : Canonical s.mem) : NextWf (fSlot s o f) :=
  native_bytes (fun p s h => by simp [h]) h

theorem spdm_bytes {code : Nat} {p : Sys2Proof.Port} {req : List Byte} {s : State} (h : Canonical s.mem) :
    NextWf (spdm code p req s) := by
  cases p with
  | safelight => exact h
  | host => exact canonical_ite h h

theorem pldm_bytes {code : Nat} {req : List Byte} {s : State} (h : Canonical s.mem) : NextWf (pldm code req s) := h

/-! ### Portable instructions -/

theorem execNop_bytes {s : State} (h : Canonical s.mem) : NextWf (execNop s) := portable_bytes (fun p s h => by simp [h]) h
theorem execBr_bytes {t : Target} {s : State} (h : Canonical s.mem) : NextWf (execBr t s) := portable_bytes (fun p s h => by simp [h]) h

theorem execCbr_bytes {c : Opnd} {t f : Target} {s : State} (h : Canonical s.mem) : NextWf (execCbr c t f s) :=
  portable_bytes (fun p s h => by split <;> simp [h]) h

theorem execSwitch_bytes {i : Opnd} {d : Target} {cs : List Target} {s : State} (h : Canonical s.mem) : NextWf (execSwitch i d cs s) :=
  portable_bytes (fun p s h => by split <;> simp [h]) h

theorem execCall_bytes {callee : Opnd} {args : List Opnd} {s : State} (h : Canonical s.mem) : NextWf (execCall callee args s) :=
  portable_bytes (fun p s h => by dsimp only; (repeat' split) <;> simp -implicitDefEqProofs [h]) h

theorem execRet_bytes {args : List Opnd} {s : State} (h : Canonical s.mem) : NextWf (execRet args s) :=
  portable_bytes (fun p s h => by dsimp only; (repeat' split) <;> simp -implicitDefEqProofs [h]) h

theorem execExit_bytes {s : State} (h : Canonical s.mem) : NextWf (execExit s) := portable_bytes (fun p s h => by simp [h]) h

theorem execTrap_bytes {code : Opnd} {s : State} (h : Canonical s.mem) : NextWf (execTrap code s) :=
  portable_bytes (fun p s h => by simp [h]) h

theorem execCopyV_bytes {t : TyD} {a : Opnd} {s : State} (h : Canonical s.mem) : NextWf (execCopyV t a s) :=
  portable_bytes (fun p s h => by split <;> simp [h]) h

theorem execCopyVRet_bytes {k : Opnd} {s : State} (h : Canonical s.mem) : NextWf (execCopyVRet k s) :=
  portable_bytes (fun p s h => by split <;> simp [h]) h

theorem execSel_bytes {t : TyD} {c a b : Opnd} {s : State} (h : Canonical s.mem) : NextWf (execSel t c a b s) :=
  portable_bytes (fun p s h => by split <;> simp [h]) h

theorem execShfl_bytes {m : ShflMode} {t : Ty} {v k : Opnd} {s : State} (h : Canonical s.mem) : NextWf (execShfl m t v k s) :=
  portable_bytes (fun p s h => by split <;> simp [h]) h

theorem execBcast_bytes {t : Ty} {v k : Opnd} {s : State} (h : Canonical s.mem) : NextWf (execBcast t v k s) :=
  portable_bytes (fun p s h => by split <;> simp [h]) h

theorem execVote_bytes {m : VoteMode} {c : Opnd} {s : State} (h : Canonical s.mem) : NextWf (execVote m c s) :=
  portable_bytes (fun p s h => by split <;> simp [h]) h

theorem execBallot_bytes {hi : Bool} {c : Opnd} {s : State} (h : Canonical s.mem) : NextWf (execBallot hi c s) :=
  portable_bytes (fun p s h => by split <;> simp [h]) h

theorem execRedg_bytes {op : RedOp} {sg : Bool} {rm : RM} {dn : Bool} {t : Ty} {v : Opnd} {s : State} (h : Canonical s.mem) :
    NextWf (execRedg op sg rm dn t v s) :=
  portable_bytes (fun p s h => by split <;> simp [h]) h

theorem execScang_bytes {x : Bool} {op : RedOp} {sg : Bool} {rm : RM} {dn : Bool} {t : Ty} {v : Opnd} {s : State} (h : Canonical s.mem)
    :
    NextWf (execScang x op sg rm dn t v s) :=
  portable_bytes (fun p s h => by split <;> simp [h]) h

theorem execAset_bytes {e : Ty} {l : BitVec 6} {a i v : Opnd} {s : State} (h : Canonical s.mem) : NextWf (execAset e l a i v s) :=
  portable_bytes (fun p s h => by (repeat' split) <;> simp [h]) h

theorem execAget_bytes {a i : Opnd} {s : State} (h : Canonical s.mem) : NextWf (execAget a i s) :=
  portable_bytes (fun p s h => by (repeat' split) <;> simp [h]) h

theorem execAfill_bytes {l : BitVec 6} {v : Opnd} {e : Ty} {s : State} (h : Canonical s.mem) : NextWf (execAfill l v e s) :=
  portable_bytes (fun p s h => by split <;> simp [h]) h

theorem execMsig_bytes {cl : Bool} {a : Opnd} {s : State} (h : Canonical s.mem) : NextWf (execMsig cl a s) := mo1_bytes h

/-! ### Matrix instructions -/

theorem execMma_bytes {fm : MmaForm} {c t : Opnd} {fs : List Opnd} {s : State} (h : Canonical s.mem) :
    NextWf (execMma fm c t fs s) := by
  refine portable_bytes (fun p s h => ?_) h
  split
  · simp [h]
  · dsimp only
    split
    · simp [h]
    · exact withWrite_bytes (fun A T s h => by split <;> simp [h]) h

theorem execAccacq_bytes {n : BitVec 2} {s : State} (h : Canonical s.mem) : NextWf (execAccacq n s) :=
  portable_bytes (fun p s h => by dsimp only; (repeat' split) <;> simp [h]) h

theorem execAccrel_bytes {c : Opnd} {s : State} (h : Canonical s.mem) : NextWf (execAccrel c s) :=
  portable_bytes (fun p s h => by (repeat' split) <;> simp [h]) h

theorem execAccrd_bytes {ty : AccTy} {c t j : Opnd} {k : Option Opnd} {s : State} (h : Canonical s.mem) :
    NextWf (execAccrd ty c t j k s) := by
  refine portable_bytes (fun p s h => ?_) h
  split
  · simp [h]
  · refine withRead_bytes (fun A T s h => ?_) h
    dsimp only
    split
    · simp [h]
    · exact h

theorem execAccwr_bytes {ty : AccTy} {c t j v : Opnd} {s : State} (h : Canonical s.mem) : NextWf (execAccwr ty c t j v s) := by
  refine portable_bytes (fun p s h => ?_) h
  split
  · simp [h]
  · split
    · simp [h]
    · refine withWrite_bytes (fun A T s h => ?_) h
      split
      · simp [h]
      · dsimp only
        split <;> exact h

theorem execAcczero_bytes {c t : Opnd} {s : State} (h : Canonical s.mem) : NextWf (execAcczero c t s) :=
  portable_bytes (fun p s h => withWrite_bytes (fun A T s h => by exact h) h) h

/-! ### Memory instructions, objects, engine instructions -/

theorem execLdfrag_bytes {w16 j ds : Bool} {m : MemOp} {s_ : Opnd} {s : State} (h : Canonical s.mem) :
    NextWf (execLdfrag w16 j ds m s_ s) := by
  refine portable_bytes (fun p s h => ?_) h
  split
  · exact access_bytes (fun accs s h => by simp [h]) h
  · simp [h]

theorem execLdscale_bytes {c t e : Opnd} {s : State} (h : Canonical s.mem) : NextWf (execLdscale c t e s) := by
  refine portable_bytes (fun p s h => ?_) h
  split
  · simp [h]
  · exact withWrite_bytes (fun A T s h => by exact h) h

theorem execRsdraw_bytes {c t j : Opnd} {k : Option Opnd} {s : State} (h : Canonical s.mem) : NextWf (execRsdraw c t j k s) :=
  portable_bytes (fun p s h => withRead_bytes (fun A T s h => by split <;> simp [h]) h) h

theorem execAtom_bytes {op : AtomOp} {k : AtomKind} {sc : BitVec 3} {t : Ty} {ds : Bool} {m : MemOp} {v : Opnd} {s : State}
    (h : Canonical s.mem) :
    NextWf (execAtom op k sc t ds m v s) :=
  portable_bytes (fun p s h => by split <;> simp [h]) h

theorem execCas_bytes {k : AtomKind} {sc : BitVec 3} {t : Ty} {ds : Bool} {m : MemOp} {c v : Opnd} {s : State} (h : Canonical s.mem) :
    NextWf (execCas k sc t ds m c v s) :=
  portable_bytes (fun p s h => by split <;> simp [h]) h

theorem execFence_bytes {k : FenceKind} {sc mask : BitVec 3} {s : State} (h : Canonical s.mem) : NextWf (execFence k sc mask s) :=
  portable_bytes (fun p s h => by dsimp only; (repeat' split) <;> simp -implicitDefEqProofs [h]) h

theorem execBar_bytes {mask : BitVec 3} {n : Opnd} {s : State} (h : Canonical s.mem) : NextWf (execBar mask n s) :=
  portable_bytes (fun p s h => by dsimp only; (repeat' split) <;> simp [h]) h

theorem execBarar_bytes {mask : BitVec 3} {n : Opnd} {s : State} (h : Canonical s.mem) : NextWf (execBarar mask n s) :=
  portable_bytes (fun p s h => by dsimp only; (repeat' split) <;> simp [h]) h

theorem execBarwt_bytes {mask : BitVec 3} {n ph : Opnd} {s : State} (h : Canonical s.mem) : NextWf (execBarwt mask n ph s) :=
  portable_bytes (fun p s h => by dsimp only; (repeat' split) <;> simp [h]) h

theorem execPrefetch_bytes {m : MemOp} {s : State} (h : Canonical s.mem) : NextWf (execPrefetch m s) :=
  portable_bytes (fun p s h => by split <;> simp [h]) h

theorem execLdw_bytes {e : Ty} {l : BitVec 6} {ds : Bool} {m : MemOp} {s : State} (h : Canonical s.mem) :
    NextWf (execLdw e l ds m s) := by
  refine portable_bytes (fun p s h => ?_) h
  split
  · simp [h]
  · exact accessArr_bytes (fun accss s h => by simp [h]) h

theorem execStw_bytes {e : Ty} {ds : Bool} {m : MemOp} {x : Opnd} {l : BitVec 6} {s : State} (h : Canonical s.mem) :
    NextWf (execStw e ds m x l s) := by
  refine portable_bytes (fun p s h => ?_) h
  split
  · exact accessArr_bytes (fun accss s h => by exact foldl_bytes (fun _ _ h => by simp [h]) _ h) h
  · simp [h]

theorem execMkref_bytes {m : MemOp} {s : State} (h : Canonical s.mem) : NextWf (execMkref m s) := by
  refine portable_bytes (fun p s h => ?_) h
  split
  · simp [h]
  · exact objInstr_bytes (fun _ _ s h => by exact h) h

theorem execUnref_bytes {m : MemOp} {s : State} (h : Canonical s.mem) : NextWf (execUnref m s) := by
  refine portable_bytes (fun p s h => ?_) h
  split
  · simp [h]
  · exact objInstr_bytes (fun _ _ s h => by exact h) h

theorem execObjinit_bytes {leaf ctx : Bool} {m : MemOp} {n : Opnd} {s : State} (h : Canonical s.mem) :
    NextWf (execObjinit leaf ctx m n s) := by
  refine portable_bytes (fun p s h => ?_) h
  split
  · exact objInstr_bytes (fun _ _ s h => by exact h) h
  · simp [h]

theorem execObjinitRetire_bytes {m : MemOp} {s : State} (h : Canonical s.mem) : NextWf (execObjinitRetire m s) := by
  refine portable_bytes (fun p s h => ?_) h
  split
  · simp [h]
  · exact objInstr_bytes (fun _ _ s h => by exact h) h

theorem execPubl_bytes {sc mask : BitVec 3} {m : MemOp} {r : Opnd} {ks : List Opnd} {s : State} (h : Canonical s.mem) :
    NextWf (execPubl sc mask m r ks s) := by
  refine portable_bytes (fun p s h => ?_) h
  split
  · exact publAt_bytes p.port_keeps h
  · simp [h]

theorem execRefeq_bytes {a b : Opnd} {s : State} (h : Canonical s.mem) : NextWf (execRefeq a b s) :=
  portable_bytes (fun p s h => by split <;> simp [h]) h

theorem execRefadr_bytes {r : Opnd} {s : State} (h : Canonical s.mem) : NextWf (execRefadr r s) :=
  portable_bytes (fun p s h => by split <;> simp [h]) h

theorem execLdref_bytes {m : MemOp} {s : State} (h : Canonical s.mem) : NextWf (execLdref m s) := by
  refine portable_bytes (fun p s h => ?_) h
  split
  · simp [h]
  · exact objInstr_bytes (fun _ _ s h => by exact h) h

theorem execStref_bytes {m : MemOp} {r : Opnd} {s : State} (h : Canonical s.mem) : NextWf (execStref m r s) := by
  refine portable_bytes (fun p s h => ?_) h
  split
  · exact objInstr_bytes (fun _ _ s h => by exact h) h
  · simp [h]

theorem execObjst_bytes {t : Ty} {r off v : Opnd} {s : State} (h : Canonical s.mem) : NextWf (execObjst t r off v s) := by
  refine portable_bytes (fun p s h => ?_) h
  split
  · exact objInstr_bytes (fun _ _ s h => by exact h) h
  · simp [h]

theorem execCopy_bytes {sc mask : BitVec 3} {dirty tag : Bool} {dst src : MemOp} {len : Opnd} {dd : Option (Opnd × Opnd × Opnd)}
    {ks : List Opnd} {s : State} (h : Canonical s.mem) :
    NextWf (execCopy sc mask dirty tag dst src len dd ks s) := by
  refine portable_bytes (fun p s h => ?_) h
  dsimp only
  split
  · exact withToken_bytes (fun es s h => copyAt_bytes p.port_keeps h) h
  · simp [h]

theorem execColl_bytes {kind : CollKind} {op : CollOp} {mask : BitVec 3} {t : Ty} {dst src : MemOp} {cnt grp : Opnd} {ks : List Opnd}
    {s : State} (h : Canonical s.mem) :
    NextWf (execColl kind op mask t dst src cnt grp ks s) := by
  refine portable_bytes (fun p s h => ?_) h
  split
  · exact withToken_bytes (fun es s h => collAt_bytes p.port_keeps h) h
  · simp [h]

theorem postAt_bytes {q : Port} (hq : q.Keeps) {sc : BitVec 3} {sg f : Nat} {vals : List (List Val)} {es : List Nat} {s : State}
    (h : Canonical s.mem) :
    Canonical (postAt q sc sg f vals es s).mem :=
  hq.commit _ _ _ _ _ h

theorem execPost_bytes {sc : BitVec 3} {seg fn : Opnd} {vs : List Opnd} {s : State} (h : Canonical s.mem) :
    NextWf (execPost sc seg fn vs s) := by
  refine portable_bytes (fun p s h => ?_) h
  split
  · split
    · simp [h]
    · split
      · simp [h]
      · dsimp only
        split
        · simp [h]
        · exact withToken_bytes (fun es s h => postAt_bytes p.port_keeps h) h
  · simp [h]

theorem execTjoin_bytes {ks : List Opnd} {s : State} (h : Canonical s.mem) : NextWf (execTjoin ks s) :=
  portable_bytes (fun p s h => withToken_bytes (fun es s h => h) h) h

theorem execKwait_bytes {ks : List Opnd} {s : State} (h : Canonical s.mem) : NextWf (execKwait ks s) :=
  portable_bytes (fun p s h => by (repeat' split) <;> simp [h]) h

theorem execKtest_bytes {k : Opnd} {s : State} (h : Canonical s.mem) : NextWf (execKtest k s) :=
  portable_bytes (fun p s h => by (repeat' split) <;> simp [h]) h

/-! ### Waits, time, travelling, debug -/

theorem execSigwait_bytes {cc : Cond} {sc mask : BitVec 3} {m : MemOp} {x : Opnd} {s : State} (h : Canonical s.mem) :
    NextWf (execSigwait cc sc mask m x s) := by
  refine portable_bytes (fun p s h => ?_) h
  split
  · simp [h]
  · split
    · simp [h]
    · exact withSignal_bytes (fun a acc s h => by dsimp only; split <;> simp [h]) h

theorem execSigrd_bytes {sc mask : BitVec 3} {m : MemOp} {s : State} (h : Canonical s.mem) : NextWf (execSigrd sc mask m s) :=
  portable_bytes (fun p s h => withSignal_bytes (fun a acc s h => by simp [h]) h) h

theorem execEnq_bytes {barrier : Bool} {sc mask : BitVec 3} {q d : Opnd} {ks : List Opnd} {s : State} (h : Canonical s.mem) :
    NextWf (execEnq barrier sc mask q d ks s) := by
  refine portable_bytes (fun p s h => ?_) h
  split
  · exact withToken_bytes (fun es s h => enqAt_bytes p.port_keeps h) h
  · simp [h]

theorem execNsleep_bytes {n : Opnd} {s : State} (h : Canonical s.mem) : NextWf (execNsleep n s) := by
  refine portable_bytes (fun p s h => ?_) h
  split
  · split <;> simp [h]
  · split
    · simp [h]
    · exact commit_bytes h
  · simp [h]

theorem execTwait_bytes {cc : Cond} {sc mask : BitVec 3} {m : MemOp} {x n : Opnd} {s : State} (h : Canonical s.mem) :
    NextWf (execTwait cc sc mask m x n s) := by
  refine portable_bytes (fun p s h => ?_) h
  cases p.side.pend with
  | hit v => simp [h]
  | done => simp [h]
  | _ =>
    dsimp only
    split
    · refine withSignal_bytes (fun a acc s h => ?_) h
      split
      · simp [h]
      · split
        · simp [h]
        · exact commit_bytes h
    · simp [h]

theorem execRdclk_bytes {s : State} (h : Canonical s.mem) : NextWf (execRdclk s) := portable_bytes (fun p s h => by simp [h]) h
theorem execRdtime_bytes {s : State} (h : Canonical s.mem) : NextWf (execRdtime s) := portable_bytes (fun p s h => by simp [h]) h

theorem execYield_bytes {s : State} (h : Canonical s.mem) : NextWf (execYield s) :=
  portable_bytes (fun p s h => by dsimp only; (repeat' split) <;> simp [h]) h

theorem execHop_bytes {m : HopMode} {key : Option Opnd} {t : Target} {s : State} (h : Canonical s.mem) : NextWf (execHop m key t s) :=
  portable_bytes (fun p s h => by (repeat' split) <;> simp [h]) h

theorem execTrvmapRep_bytes {seg : Opnd} {s : State} (h : Canonical s.mem) : NextWf (execTrvmapRep seg s) :=
  portable_bytes (fun p s h => by split <;> simp [h]) h

theorem execTrvmapVer_bytes {s : State} (h : Canonical s.mem) : NextWf (execTrvmapVer s) :=
  portable_bytes (fun p s h => by split <;> simp [h]) h

theorem execCtrrd_bytes {n : Opnd} {s : State} (h : Canonical s.mem) : NextWf (execCtrrd n s) :=
  portable_bytes (fun p s h => by simp [h]) h

theorem execCtrctl_bytes {clear : Bool} {n cfg : Opnd} {s : State} (h : Canonical s.mem) : NextWf (execCtrctl clear n cfg s) :=
  portable_bytes (fun p s h => by split <;> simp [h]) h

theorem execBrkpt_bytes {code : Opnd} {s : State} (h : Canonical s.mem) : NextWf (execBrkpt code s) :=
  portable_bytes (fun p s h => commit_bytes h) h

theorem execAssert_bytes {c code : Opnd} {s : State} (h : Canonical s.mem) : NextWf (execAssert c code s) :=
  portable_bytes (fun p s h => by (repeat' split) <;> simp [h]) h

theorem execRdflag_bytes {s : State} (h : Canonical s.mem) : NextWf (execRdflag s) := portable_bytes (fun p s h => by simp [h]) h

theorem execClrflag_bytes {m : Opnd} {s : State} (h : Canonical s.mem) : NextWf (execClrflag m s) :=
  portable_bytes (fun p s h => by split <;> simp [h]) h

theorem execRdfev_bytes {s : State} (h : Canonical s.mem) : NextWf (execRdfev s) := portable_bytes (fun p s h => by simp [h]) h

/-! ### Native slots S, V, F, L, M, A -/

theorem execSNop_bytes {s : State} (h : Canonical s.mem) : NextWf (execSNop s) := native_bytes (fun p s h => by simp [h]) h

theorem execSalu_bytes {d a : BitVec 9} {f : BitVec 8} {s : State} (h : Canonical s.mem) : NextWf (execSalu d a f s) :=
  native_bytes (fun p s h => by simp [h]) h

theorem execSli_bytes {d : BitVec 9} {i : BitVec 17} {s : State} (h : Canonical s.mem) : NextWf (execSli d i s) :=
  native_bytes (fun p s h => by simp [h]) h

theorem execSlhi_bytes {d : BitVec 9} {i : BitVec 17} {s : State} (h : Canonical s.mem) : NextWf (execSlhi d i s) :=
  native_bytes (fun p s h => by simp [h]) h

theorem execSbr_bytes {o : BitVec 22} {s : State} (h : Canonical s.mem) : NextWf (execSbr o s) :=
  native_bytes (fun p s h => by simp [h]) h

theorem execSbrc_bytes {c : BitVec 3} {o : BitVec 22} {s : State} (h : Canonical s.mem) : NextWf (execSbrc c o s) :=
  native_bytes (fun p s h => by dsimp only; (repeat' split) <;> simp [h]) h

theorem execSjoin_bytes {s : State} (h : Canonical s.mem) : NextWf (execSjoin s) :=
  native_bytes (fun p s h => by dsimp only; simp -implicitDefEqProofs [h]) h

theorem execScall_bytes {o : BitVec 22} {s : State} (h : Canonical s.mem) : NextWf (execScall o s) :=
  native_bytes (fun p s h => by dsimp only; (repeat' split) <;> simp [h]) h

theorem execSret_bytes {s : State} (h : Canonical s.mem) : NextWf (execSret s) := native_bytes (fun p s h => by split <;> simp [h]) h
theorem execSexit_bytes {s : State} (h : Canonical s.mem) : NextWf (execSexit s) := native_bytes (fun p s h => by simp [h]) h

theorem execStrap_bytes {c : BitVec 13} {s : State} (h : Canonical s.mem) : NextWf (execStrap c s) :=
  native_bytes (fun p s h => by simp [h]) h

theorem execSloop_bytes {n : BitVec 2} {e : BitVec 3} {r : BitVec 9} {l : BitVec 12} {s : State} (h : Canonical s.mem) :
    NextWf (execSloop n e r l s) :=
  native_bytes (fun p s h => by dsimp only; (repeat' split) <;> simp [h]) h

theorem execSsetfm_bytes {f : BitVec 5} {s : State} (h : Canonical s.mem) : NextWf (execSsetfm f s) :=
  native_bytes (fun p s h => by simp [h]) h

theorem execSxset_bytes {x : BitVec 2} {b : BitVec 9} {l : BitVec 6} {p : Bool} {s : State} (h : Canonical s.mem) :
    NextWf (execSxset x b l p s) :=
  native_bytes (fun p s h => by simp [h]) h

theorem execSxidx_bytes {x : BitVec 2} {u : BitVec 9} {s : State} (h : Canonical s.mem) : NextWf (execSxidx x u s) :=
  native_bytes (fun p s h => by dsimp only; (repeat' split) <;> simp [h]) h

theorem execSacq_bytes {n : BitVec 2} {s : State} (h : Canonical s.mem) : NextWf (execSacq n s) :=
  native_bytes (fun p s h => by dsimp only; (repeat' split) <;> simp [h]) h

theorem execSrel_bytes {s : State} (h : Canonical s.mem) : NextWf (execSrel s) :=
  native_bytes (fun p s h => by (repeat' split) <;> simp [h]) h

theorem execSkwait_bytes {t : BitVec 4} {s : State} (h : Canonical s.mem) : NextWf (execSkwait t s) :=
  native_bytes (fun p s h => by (repeat' split) <;> simp [h]) h

theorem execSkest_bytes {d : BitVec 9} {t : BitVec 4} {s : State} (h : Canonical s.mem) : NextWf (execSkest d t s) :=
  native_bytes (fun p s h => by split <;> simp [h]) h

theorem execSbar_bytes {u : BitVec 9} {k : BitVec 2} {s : State} (h : Canonical s.mem) : NextWf (execSbar u k s) :=
  native_bytes (fun p s h => by dsimp only; (repeat' split) <;> simp [h]) h

theorem execSsys_bytes {u : BitVec 9} {o : BitVec 4} {s : State} (h : Canonical s.mem) : NextWf (execSsys u o s) :=
  native_bytes (fun p s h => by split <;> simp [h]) h

theorem execSv2s_bytes {d a : BitVec 9} {s : State} (h : Canonical s.mem) : NextWf (execSv2s d a s) :=
  native_bytes (fun p s h => by simp [h]) h

theorem execVNop_bytes {s : State} (h : Canonical s.mem) : NextWf (execVNop s) := native_bytes (fun p s h => by simp [h]) h
theorem execIsel_bytes {v : VOp} {s : State} (h : Canonical s.mem) : NextWf (execIsel v s) := native_bytes (fun p s h => by simp [h]) h
theorem execIcmp_bytes {v : VOp} {s : State} (h : Canonical s.mem) : NextWf (execIcmp v s) := vPush_bytes h
theorem execVFcmp_bytes {v : VOp} {s : State} (h : Canonical s.mem) : NextWf (execVFcmp v s) := vPush_bytes h
theorem execVFadd_bytes {v : VOp} {s : State} (h : Canonical s.mem) : NextWf (execVFadd v s) := vFloat_bytes h
theorem execVFsub_bytes {v : VOp} {s : State} (h : Canonical s.mem) : NextWf (execVFsub v s) := vFloat_bytes h
theorem execVFmul_bytes {v : VOp} {s : State} (h : Canonical s.mem) : NextWf (execVFmul v s) := vFloat_bytes h
theorem execFfma_bytes {v : VOp} {s : State} (h : Canonical s.mem) : NextWf (execFfma v s) := vFloat_bytes h
theorem execVFdiv_bytes {v : VOp} {s : State} (h : Canonical s.mem) : NextWf (execVFdiv v s) := vFloat_bytes h
theorem execVFmin_bytes {v : VOp} {s : State} (h : Canonical s.mem) : NextWf (execVFmin v s) := vLanes_bytes h
theorem execVFmax_bytes {v : VOp} {s : State} (h : Canonical s.mem) : NextWf (execVFmax v s) := vLanes_bytes h
theorem execFcsgn_bytes {v : VOp} {s : State} (h : Canonical s.mem) : NextWf (execFcsgn v s) := vLanes_bytes h
theorem execVFclass_bytes {v : VOp} {s : State} (h : Canonical s.mem) : NextWf (execVFclass v s) := vLanes_bytes h
theorem execVFrnd_bytes {v : VOp} {s : State} (h : Canonical s.mem) : NextWf (execVFrnd v s) := vLanes_bytes h
theorem execFscl_bytes {v : VOp} {s : State} (h : Canonical s.mem) : NextWf (execFscl v s) := vFloat_bytes h
theorem execVCvt_bytes {v : VOp} {s : State} (h : Canonical s.mem) : NextWf (execVCvt v s) := vFloat_bytes h
theorem execRsenc_bytes {v : VOp} {s : State} (h : Canonical s.mem) : NextWf (execRsenc v s) := vFloat_bytes h
theorem execRsdec_bytes {v : VOp} {s : State} (h : Canonical s.mem) : NextWf (execRsdec v s) := vFloat_bytes h
theorem execXshf_bytes {v : VOp} {s : State} (h : Canonical s.mem) : NextWf (execXshf v s) := native_bytes (fun p s h => by simp [h]) h
theorem execXbc_bytes {v : VOp} {s : State} (h : Canonical s.mem) : NextWf (execXbc v s) := native_bytes (fun p s h => by simp [h]) h

theorem execXvote_bytes {v : VOp} {s : State} (h : Canonical s.mem) : NextWf (execXvote v s) :=
  native_bytes (fun p s h => by split <;> simp [h]) h

theorem execXblt_bytes {v : VOp} {s : State} (h : Canonical s.mem) : NextWf (execXblt v s) := native_bytes (fun p s h => by simp [h]) h

theorem execXred_bytes {v : VOp} {s : State} (h : Canonical s.mem) : NextWf (execXred v s) :=
  native_bytes (fun p s h => by split <;> simp [h]) h

theorem execXscn_bytes {v : VOp} {s : State} (h : Canonical s.mem) : NextWf (execXscn v s) :=
  native_bytes (fun p s h => by split <;> simp [h]) h

theorem execUbc_bytes {v : VOp} {s : State} (h : Canonical s.mem) : NextWf (execUbc v s) := native_bytes (fun p s h => by simp [h]) h

theorem execRget_bytes {v : VOp} {s : State} (h : Canonical s.mem) : NextWf (execRget v s) :=
  native_bytes (fun p s h => by dsimp only; (repeat' split) <;> simp [h]) h

theorem execRset_bytes {v : VOp} {s : State} (h : Canonical s.mem) : NextWf (execRset v s) := by
  refine native_bytes (fun p s h => ?_) h
  dsimp only
  split
  · simp [h]
  · split
    · simp [h]
    · refine foldl_bytes (fun _ _ h => ?_) _ h
      split
      · exact h
      · split <;> simp [h]

theorem execMld_bytes {v : VOp} {s : State} (h : Canonical s.mem) : NextWf (execMld v s) := native_bytes (fun p s h => by simp [h]) h
theorem execMst_bytes {v : VOp} {s : State} (h : Canonical s.mem) : NextWf (execMst v s) := native_bytes (fun p s h => by simp [h]) h

theorem execTread_bytes {v : VOp} {s : State} (h : Canonical s.mem) : NextWf (execTread v s) := by
  refine native_bytes (fun p s h => NSite.withTile_bytes (fun A T s h => ?_) h) h
  dsimp only
  split
  · simp [h]
  · split
    · simp [h]
    · split
      · simp [h]
      · split <;> simp [h]

theorem execFNop_bytes {s : State} (h : Canonical s.mem) : NextWf (execFNop s) := native_bytes (fun p s h => by simp [h]) h

theorem execSscl_bytes {g k : BitVec 4} {t : BitVec 3} {a : BitVec 9} {s : State} (h : Canonical s.mem) : NextWf (execSscl g k t a s) :=
  native_bytes (fun p s h => NSite.withWrite_bytes (fun A T s h => by simp [h]) h) h

theorem execLNop_bytes {s : State} (h : Canonical s.mem) : NextWf (execLNop s) := native_bytes (fun p s h => by simp [h]) h
theorem execLSt_bytes {o : LOp} {s : State} (h : Canonical s.mem) : NextWf (execLSt o s) := lStore_bytes h
theorem execStrl_bytes {o : LOp} {s : State} (h : Canonical s.mem) : NextWf (execStrl o s) := lStore_bytes h
theorem execPref_bytes {s : State} (h : Canonical s.mem) : NextWf (execPref s) := native_bytes (fun p s h => by simp [h]) h
theorem execFnc_bytes {s : State} (h : Canonical s.mem) : NextWf (execFnc s) := native_bytes (fun p s h => by split <;> simp [h]) h

theorem execSpst_bytes {o : LOp} {s : State} (h : Canonical s.mem) : NextWf (execSpst o s) :=
  native_bytes (fun p s h => NSite.gate_bytes h) h

theorem execSpld_bytes {o : LOp} {s : State} (h : Canonical s.mem) : NextWf (execSpld o s) := native_bytes (fun p s h => by simp [h]) h

theorem execLdt_bytes {o : LOp} {s : State} (h : Canonical s.mem) : NextWf (execLdt o s) := by
  refine native_bytes (fun p s h => ?_) h
  dsimp only
  split
  · simp [h]
  · exact NSite.through_bytes (fun s h => objInstr_bytes (fun _ _ s h => by simp [h]) h) ((NSite.window_mem p _ s).symm ▸ h)

theorem execStt_bytes {o : LOp} {s : State} (h : Canonical s.mem) : NextWf (execStt o s) := by
  refine native_bytes (fun p s h => ?_) h
  dsimp only
  split
  · exact NSite.gate_bytes h
  · exact NSite.through_bytes (fun s h => objInstr_bytes (fun _ _ s h => NSite.gate_bytes h) h) ((NSite.window_mem p _ s).symm ▸ h)

theorem execMNop_bytes {s : State} (h : Canonical s.mem) : NextWf (execMNop s) := native_bytes (fun p s h => by simp [h]) h

theorem execTstep_bytes {t : BitVec 3} {k : BitVec 4} {f : BitVec 3} {s : State} (h : Canonical s.mem) :
    NextWf (execTstep t k f s) := by
  refine native_bytes (fun p s h => ?_) h
  split
  · simp [h]
  · split
    · simp [h]
    · split
      · simp [h]
      · split
        · simp [h]
        · exact NSite.withWrite_bytes (fun A T s h => by split <;> simp [h]) h

theorem execTlatch_bytes {t : BitVec 3} {k : BitVec 4} {f : BitVec 3} {s : State} (h : Canonical s.mem) :
    NextWf (execTlatch t k f s) := by
  refine native_bytes (fun p s h => ?_) h
  split
  · simp [h]
  · exact NSite.withTile_bytes (fun A T s h => h) h

theorem execTwr_bytes {t : BitVec 3} {k : BitVec 4} {j : BitVec 5} {s : State} (h : Canonical s.mem) : NextWf (execTwr t k j s) :=
  native_bytes (fun p s h => NSite.withWrite_bytes (fun A T s h => by simp [h]) h) h

theorem execTzero_bytes {t : BitVec 3} {k : BitVec 4} {s : State} (h : Canonical s.mem) : NextWf (execTzero t k s) :=
  native_bytes (fun p s h => NSite.withWrite_bytes (fun A T s h => by simp [h]) h) h

theorem execANop_bytes {s : State} (h : Canonical s.mem) : NextWf (execANop s) := native_bytes (fun p s h => by simp [h]) h

theorem execACopy_bytes {k : BitVec 4} {d : BitVec 9} {s : State} (h : Canonical s.mem) : NextWf (execACopy k d s) :=
  aSlot_bytes (fun p k D s h => copyAt_bytes (p.port_keeps k) h) h

theorem execAGather_bytes {k : BitVec 4} {d : BitVec 9} {s : State} (h : Canonical s.mem) : NextWf (execAGather k d s) :=
  aSlot_bytes (fun p k D s h => gatherAt_bytes (p.port_keeps k) h) h

theorem execAScatter_bytes {k : BitVec 4} {d : BitVec 9} {s : State} (h : Canonical s.mem) : NextWf (execAScatter k d s) :=
  aSlot_bytes (fun p k D s h => gatherAt_bytes (p.port_keeps k) h) h

theorem execAColl_bytes {k : BitVec 4} {d : BitVec 9} {s : State} (h : Canonical s.mem) : NextWf (execAColl k d s) :=
  aSlot_bytes (fun p k D s h => collAt_bytes (p.port_keeps k) h) h

theorem execAPubl_bytes {k : BitVec 4} {d : BitVec 9} {s : State} (h : Canonical s.mem) : NextWf (execAPubl k d s) :=
  aSlot_bytes (fun p k D s h => publAt_bytes (p.port_keeps k) h) h

theorem execAPost_bytes {k : BitVec 4} {d : BitVec 9} {s : State} (h : Canonical s.mem) : NextWf (execAPost k d s) := by
  refine aSlot_bytes (fun p k D s h => ?_) h
  split
  · simp [h]
  · split
    · simp [h]
    · split
      · simp [h]
      · exact postAt_bytes (p.port_keeps k) h

theorem execAEnq_bytes {k : BitVec 4} {d : BitVec 9} {s : State} (h : Canonical s.mem) : NextWf (execAEnq k d s) :=
  aSlot_bytes (fun p k D s h => enqAt_bytes (p.port_keeps k) h) h

theorem execASigdec_bytes {k : BitVec 4} {d : BitVec 9} {s : State} (h : Canonical s.mem) : NextWf (execASigdec k d s) :=
  aSlot_bytes (fun p k D s h => signalAt_bytes (p.port_keeps k) h) h

theorem execASigset_bytes {k : BitVec 4} {d : BitVec 9} {s : State} (h : Canonical s.mem) : NextWf (execASigset k d s) :=
  aSlot_bytes (fun p k D s h => signalAt_bytes (p.port_keeps k) h) h

theorem execAHop_bytes {k : BitVec 4} {d : BitVec 9} {a : BitVec 13} {s : State} (h : Canonical s.mem) : NextWf (execAHop k d a s) :=
  aSlot_bytes (fun p k D s h => by dsimp only; (repeat' split) <;> simp -implicitDefEqProofs [h]) h

theorem execATjoin_bytes {k : BitVec 4} {d : BitVec 9} {s : State} (h : Canonical s.mem) : NextWf (execATjoin k d s) :=
  aSlot_bytes (fun p k D s h => (p.port_keeps k).issue _ _ _ _ _ h) h

/-! ### Events of queues, placement and translation -/

theorem execQueueEnable_bytes {q : Nat} {d : BitVec 128} {s : State} (h : Canonical s.mem) : NextWf (execQueueEnable q d s) := by
  unfold execQueueEnable
  rw [nextWf_next]
  simp [h]

theorem execQueueDisable_bytes {q : Nat} {s : State} (h : Canonical s.mem) : NextWf (execQueueDisable q s) := by
  unfold execQueueDisable
  rw [nextWf_next]
  split <;> simp [h]

theorem execTailPoll_bytes {q : Nat} {s : State} (h : Canonical s.mem) : NextWf (execTailPoll q s) := by
  unfold execTailPoll
  rw [nextWf_next]
  simp [h]

theorem execQueueLaunch_bytes {q : Nat} {s : State} (h : Canonical s.mem) : NextWf (execQueueLaunch q s) := by
  refine serveHead_bytes (fun e t s u h hu => ?_) h
  dsimp only at hu
  split at hu
  · cases hu
  · obtain rfl := Except.ok.inj hu
    simp [h]

theorem execQueueWait_bytes {q : Nat} {s : State} (h : Canonical s.mem) : NextWf (execQueueWait q s) := by
  unfold execQueueWait
  rw [nextWf_next, endQueueWait_mem]
  refine serveHead_bytes (fun e t s u h hu => ?_) h
  split at hu
  · cases hu
  · extract_lets Q t v x w at hu
    have hw : Canonical w.mem := reach_bytes h
    clear_value w v
    split at hu
    · exact Except.ok.inj hu ▸ hw
    · obtain rfl := Except.ok.inj hu
      exact hw

theorem execQueueDecrement_bytes {q : Nat} {s : State} (h : Canonical s.mem) : NextWf (execQueueDecrement q s) := by
  refine serveHead_bytes (fun e t s u h hu => ?_) h
  split at hu
  · cases hu
  · cases hu
    exact hwSignal_bytes h

theorem execQueueSet_bytes {q : Nat} {s : State} (h : Canonical s.mem) : NextWf (execQueueSet q s) := by
  refine serveHead_bytes (fun e t s u h hu => ?_) h
  split at hu
  · cases hu
  · cases hu
    exact hwSignal_bytes h

theorem execQueueNoOperation_bytes {q : Nat} {s : State} (h : Canonical s.mem) : NextWf (execQueueNoOperation q s) :=
  serveHead_bytes (fun e t s u h hu => by cases hu; exact h) h

theorem execWorkSteal_bytes {l cl : Nat} {s : State} (h : Canonical s.mem) : NextWf (execWorkSteal l cl s) := by
  unfold execWorkSteal
  rw [nextWf_next]
  dsimp only
  (repeat' split) <;> simp [h]

theorem execBlockPlace_bytes {cl : Nat} {s : State} (h : Canonical s.mem) : NextWf (execBlockPlace cl s) := by
  unfold execBlockPlace
  rw [nextWf_next]
  simp [h]

theorem execBlockWaitLimit_bytes {cl : Nat} {s : State} (h : Canonical s.mem) : NextWf (execBlockWaitLimit cl s) := by
  unfold execBlockWaitLimit
  rw [nextWf_next]
  split <;> simp [h]

theorem execTranslationMiss_bytes {g : Nat} {s : State} (h : Canonical s.mem) : NextWf (execTranslationMiss g s) := by
  unfold execTranslationMiss
  rw [nextWf_next]
  dsimp only
  (repeat' split) <;> simp [h]

theorem execTranslationComplete_bytes {x : Nat} {s : State} (h : Canonical s.mem) : NextWf (execTranslationComplete x s) := by
  unfold execTranslationComplete
  rw [nextWf_next]
  split
  · exact h
  · split
    · exact h
    · dsimp only
      split
      · exact h
      case _ hr =>
        refine finishTranslation_bytes ?_
        dsimp only
        exact makeRoom_bytes h hr

theorem execInstructionStoreFill_bytes {c x p : Nat} {s : State} (h : Canonical s.mem) : NextWf (execInstructionStoreFill c x p s) :=
  canonical_ite h (foldl_bytes (fun _ _ h => fillPage_bytes h) _ h)

theorem execBundleDispatch_bytes {c : Nat} {s : State} (h : Canonical s.mem) : NextWf (execBundleDispatch c s) := by
  unfold execBundleDispatch
  rw [nextWf_next]
  dsimp only
  (repeat' split) <;> simp -implicitDefEqProofs [h]

/-! ### Events of issue, faults, suspension -/

theorem execSideRotation_bytes {g : Nat} {s : State} (h : Canonical s.mem) : NextWf (execSideRotation g s) := by
  unfold execSideRotation
  rw [nextWf_next]
  (repeat' split) <;> simp [h]

theorem execTimingCheck_bytes {g sd : Nat} {err : Bool} {s : State} (h : Canonical s.mem) : NextWf (execTimingCheck g sd err s) := by
  unfold execTimingCheck
  rw [nextWf_next]
  (repeat' split) <;> simp [h]

theorem execRegionCommit_bytes {g sd : Nat} {s : State} (h : Canonical s.mem) : NextWf (execRegionCommit g sd s) := by
  unfold execRegionCommit
  rw [nextWf_next]
  (repeat' split) <;> simp [h]

theorem execFaultRollback_bytes {g sd : Nat} {c : Cause} {lane : BitVec 8} {aux : DWord} {s : State} (h : Canonical s.mem) :
    NextWf (execFaultRollback g sd c lane aux s) := by
  unfold execFaultRollback
  rw [nextWf_next]
  (repeat' split) <;> simp [h]

theorem execEccError_bytes {w : EccSite} {multi : Bool} {s : State} (h : Canonical s.mem) : NextWf (execEccError w multi s) := by
  unfold execEccError
  rw [nextWf_next]
  split
  · exact countGroups_bytes h
  · split
    · exact h
    · split
      · exact h
      · split <;> simp [h]
  · split
    · exact countGroups_bytes h
    · exact h
  · split
    · exact foldl_bytes (fun _ _ h => replayGroup_bytes h) _ h
    · exact h
  · exact chargeEv_bytes h
  · exact h
  · exact chargeEv_bytes h
  · exact h
  · exact countGroups_bytes h
  · exact h

theorem execDispPoll_bytes {x : Nat} {s : State} (h : Canonical s.mem) : NextWf (execDispPoll x s) :=
  canonical_ite h (foldl_bytes (fun _ _ h => applyDisp_bytes h) _ h)

theorem execQuantumExpiry_bytes {d x : Nat} {s : State} (h : Canonical s.mem) : NextWf (execQuantumExpiry d x s) := by
  unfold execQuantumExpiry
  rw [nextWf_next]
  dsimp only
  (repeat' split) <;> simp [h]

theorem execPreemptRequest_bytes {d x : Nat} {s : State} (h : Canonical s.mem) : NextWf (execPreemptRequest d x s) := by
  unfold execPreemptRequest
  rw [nextWf_next]
  simp [h]

theorem execCrewSuspend_bytes {b : Nat} {s : State} (h : Canonical s.mem) : NextWf (execCrewSuspend b s) := by
  unfold execCrewSuspend
  rw [nextWf_next]
  (repeat' split) <;> simp [h]

theorem execCrewResume_bytes {b core : Nat} {s : State} (h : Canonical s.mem) : NextWf (execCrewResume b core s) := by
  unfold execCrewResume
  rw [nextWf_next]
  split
  · exact h
  · split
    · exact h
    · dsimp only
      split
      · exact h
      · split
        · exact h
        case _ t hr =>
          change Canonical t.mem
          split at hr
          · exact seatTravel_bytes h hr
          · split at hr
            · cases hr
            · exact seatBlock_bytes h hr

theorem execEngineReset_bytes {c : Nat} {s : State} (h : Canonical s.mem) : NextWf (execEngineReset c s) :=
  canonical_ite h (foldl_bytes (fun _ _ h => engineLost_bytes h) _ h)

theorem execMatrixUnitReset_bytes {c : Nat} {s : State} (h : Canonical s.mem) : NextWf (execMatrixUnitReset c s) :=
  canonical_ite h (foldl_bytes (fun _ _ h => loseTiles_bytes h) _ h)

theorem execAccGrant_bytes {c : Nat} {s : State} (h : Canonical s.mem) : NextWf (execAccGrant c s) := by
  unfold execAccGrant
  rw [nextWf_next]
  dsimp only
  (repeat' split) <;> simp [h]

theorem execTileSave_bytes {g t : Nat} {s : State} (h : Canonical s.mem) : NextWf (execTileSave g t s) := by
  unfold execTileSave
  rw [nextWf_next]
  dsimp only
  (repeat' split) <;> simp [h]

theorem execTileRestore_bytes {g : Nat} {s : State} (h : Canonical s.mem) : NextWf (execTileRestore g s) := by
  unfold execTileRestore
  rw [nextWf_next]
  dsimp only
  (repeat' split) <;> simp [h]

theorem execTileWriteComplete_bytes {g t : Nat} {s : State} (h : Canonical s.mem) : NextWf (execTileWriteComplete g t s) := by
  unfold execTileWriteComplete
  rw [nextWf_next]
  (repeat' split) <;> simp [h]

/-! ### Events of engines, walks and collectives -/

theorem execEngineStart_bytes {e : Nat} {s : State} (h : Canonical s.mem) : NextWf (execEngineStart e s) := by
  unfold execEngineStart
  rw [nextWf_next]
  split
  · exact h
  · split
    · split
      · simp [h]
      · split
        · exact h
        · extract_lets t
          have ht : Canonical t.mem := reachOwn_bytes (landBefore_bytes h)
          clear_value t
          split
          · exact failSelf_bytes ht
          · exact ht
    · exact h

theorem wholeStep_bytes {s : State} {E : Eng} {rest : List Nat} (h : Canonical s.mem) : Canonical (wholeStep s E rest).st.mem :=
  writeParts_bytes (r := (_, _)) (readParts_bytes h)

theorem transferStep_bytes {s : State} {E : Eng} (h : Canonical s.mem) : Canonical (transferStep s E).st.mem := by
  unfold transferStep
  dsimp only
  split
  · exact wholeStep_bytes h
  · split
    · exact writeParts_bytes (r := (_, _)) h
    · exact readParts_bytes h

theorem collStep_bytes {s : State} {E : Eng} {r : EngRun} (h : Canonical s.mem) (hr : collStep s E = some r) : Canonical r.st.mem := by
  unfold collStep at hr
  have ho := reachOwn_bytes (E := E) h
  dsimp only at hr
  split at hr
  · split at hr
    · cases hr
      exact ho
    · split at hr
      · cases hr
        exact ho
      · split at hr
        · cases hr
        · obtain rfl := Option.some.inj hr
          exact foldl_bytes (fun _ _ h => by exact writeElem_bytes h) _ ho
  · cases hr

theorem partsStep_bytes {s : State} {E : Eng} {r : EngRun} (h : Canonical s.mem) (hr : partsStep s E = some r) :
    Canonical r.st.mem := by
  unfold partsStep at hr
  split at hr
  · cases hr
    exact transferStep_bytes h
  · cases hr
    exact transferStep_bytes h
  · cases hr
    exact transferStep_bytes h
  · exact collStep_bytes h hr
  · cases hr

theorem execTokenComplete_bytes {e : Nat} {s : State} (h : Canonical s.mem) : NextWf (execTokenComplete e s) := by
  unfold execTokenComplete
  rw [nextWf_next]
  split
  · exact h
  · split
    · exact h
    · split
      · exact postPerform_bytes h
      · exact h
      · split
        case _ hr => exact settleRun_bytes (partsStep_bytes h hr)
        case _ hr => exact (completeToken_mem ..).symm ▸ performEng_bytes h hr
        · exact failSelf_bytes h
        · exact h

theorem execTokenFail_bytes {e : Nat} {c : Cause} {s : State} (h : Canonical s.mem) : NextWf (execTokenFail e c s) := by
  unfold execTokenFail
  rw [nextWf_next]
  split
  · exact h
  · split
    case _ hr => exact canonical_ite (settleRun_bytes (partsStep_bytes h hr)) h
    · exact canonical_ite (failSelf_bytes h) h
    · exact h

theorem execClaimRound_bytes {w : Nat} {s : State} (h : Canonical s.mem) : NextWf (execClaimRound w s) := by
  unfold execClaimRound
  rw [nextWf_next]
  split
  · exact h
  · split
    · exact (putWalk_mem ..).symm ▸ unclaim_bytes h
    · split
      · dsimp only
        split
        · simp [h]
        · split <;> simp [h]
      · dsimp only
        split
        · split <;> simp [h]
        · exact chargeEv_bytes (chargeEv_bytes ((putWalk_mem ..).symm ▸ markPending_bytes h))

theorem execMarkPhase_bytes {w : Nat} {s : State} (h : Canonical s.mem) : NextWf (execMarkPhase w s) := by
  unfold execMarkPhase
  rw [nextWf_next]
  split
  · exact h
  · exact (putWalk_mem ..).symm ▸ foldl_bytes (fun _ _ h => putHeader_bytes h) _ (foldl_bytes (fun _ _ h => putHeader_bytes h) _ h)

theorem execRootStore_bytes {w : Nat} {s : State} (h : Canonical s.mem) : NextWf (execRootStore w s) := by
  unfold execRootStore
  rw [nextWf_next]
  split
  · exact h
  · split
    · exact h
    · split
      · exact h
      · dsimp only
        split
        · exact h
        · exact (completeToken_mem ..).symm ▸ storeTagged_bytes (reach_bytes (landAll_bytes h))

theorem execCollectiveFrame_bytes {x : Nat} {fr : List Byte} {s : State} (h : Canonical s.mem) :
    NextWf (execCollectiveFrame x fr s) := by
  unfold execCollectiveFrame
  rw [nextWf_next]
  split
  · exact chargeEv_bytes h
  · dsimp only
    have ht : ∀ b : Bool, Canonical (if b then s.tick else s).mem := fun b => canonical_ite h h
    split
    · exact ht _
    · exact foldl_bytes (fun _ _ h => failSelf_bytes h) _ (ht _)

theorem execCollectiveTimeout_bytes {e : Nat} {s : State} (h : Canonical s.mem) : NextWf (execCollectiveTimeout e s) := by
  unfold execCollectiveTimeout
  rw [nextWf_next]
  dsimp only
  (repeat' split) <;> simp [h]

/-! ### Events of the host's accesses, waits and travelling groups -/

theorem execHostRdmaWrite_bytes {x : Nat} {va : DWord} {bs : List Byte} {s : State} (h : Canonical s.mem) :
    NextWf (execHostRdmaWrite x va bs s) := by
  unfold execHostRdmaWrite
  rw [nextWf_next]
  dsimp only
  (repeat' split) <;> simp [h]

theorem execHostRdmaRead_bytes {x : Nat} {va : DWord} {n : Nat} {s : State} (h : Canonical s.mem) :
    NextWf (execHostRdmaRead x va n s) := by
  unfold execHostRdmaRead
  rw [nextWf_next]
  dsimp only
  (repeat' split) <;> simp [h]

theorem execHostRdmaAtomic_bytes {x : Nat} {va : DWord} {cmp : Option DWord} {v : DWord} {s : State} (h : Canonical s.mem) :
    NextWf (execHostRdmaAtomic x va cmp v s) := by
  unfold execHostRdmaAtomic
  rw [nextWf_next]
  dsimp only
  split
  · exact h
  · split
    · exact drainMsgs_bytes h
    · have hr := fun k => reach_bytes (B := .outside) (wr := true) (a := k) (n := 8) (drainMsgs_bytes (x := x) h)
      split
      · exact chargeEv_bytes (hr _)
      · split
        · exact chargeEv_bytes (hr _)
        · split
          · exact hr _
          · exact hostWrote_bytes (storeWord_bytes (hr _))

theorem execPageMigration_bytes {x : Nat} {va : DWord} {d : Nat} {s : State} (h : Canonical s.mem) :
    NextWf (execPageMigration x va d s) := by
  unfold execPageMigration
  rw [nextWf_next]
  (repeat' split) <;> simp [h]

theorem execMshrRetry_bytes {c : Nat} {s : State} (h : Canonical s.mem) : NextWf (execMshrRetry c s) := by
  unfold execMshrRetry
  rw [nextWf_next]
  dsimp only
  (repeat' split) <;> simp [h]

theorem execBarrierReleaseWave_bytes {cl : Nat} {s : State} (h : Canonical s.mem) : NextWf (execBarrierReleaseWave cl s) := by
  refine canonical_ite h ?_
  dsimp only
  exact foldl_bytes (fun _ _ h => by exact h) _ h

theorem execWatchSatisfied_bytes {g : Nat} {s : State} (h : Canonical s.mem) : NextWf (execWatchSatisfied g s) := by
  unfold execWatchSatisfied
  rw [nextWf_next]
  simp [h]

theorem execTwaitDeadline_bytes {g : Nat} {s : State} (h : Canonical s.mem) : NextWf (execTwaitDeadline g s) := by
  unfold execTwaitDeadline
  rw [nextWf_next]
  simp [h]

theorem execYieldEnd_bytes {g : Nat} {s : State} (h : Canonical s.mem) : NextWf (execYieldEnd g s) := by
  unfold execYieldEnd
  rw [nextWf_next]
  split <;> simp [h]

theorem execFrequencyTransition_bytes {cl mhz : Nat} {s : State} (h : Canonical s.mem) : NextWf (execFrequencyTransition cl mhz s) := by
  unfold execFrequencyTransition
  rw [nextWf_next]
  split <;> simp [h]

theorem execTravelDeparture_bytes {g : Nat} {s : State} (h : Canonical s.mem) : NextWf (execTravelDeparture g s) := by
  unfold execTravelDeparture
  rw [nextWf_next]
  split
  · exact h
  · split
    · exact h
    · split
      · exact h
      · dsimp only
        split
        · exact h
        · split
          · exact h
          · refine canonical_ite h ?_
            split
            · exact faultAt_bytes h
            · refine canonical_ite h (canonical_ite h ?_)
              split
              · exact h
              · split
                · exact faultAt_bytes h
                · split
                  · exact faultAt_bytes h
                  case _ hu => exact departed_bytes (placeRec_bytes (poolTiles_bytes h) hu)

theorem execRecordStart_bytes {c : Nat} {s : State} (h : Canonical s.mem) : NextWf (execRecordStart c s) := by
  unfold execRecordStart
  rw [nextWf_next]
  split
  · exact h
  · split
    · split
      · exact dropRec_bytes h
      · split
        · exact h
        · dsimp only
          split
          · exact h
          · split
            · exact xlatFault_bytes (dropRec_bytes h)
            · split
              · exact h
              · split
                · exact h
                · refine awaitTiles_bytes (settleGroup_bytes ?_)
                  rw [comeBack_mem, State.updGroup_mem, startsOn_mem]
                  exact dropRec_bytes (settleScopes_bytes h)
    · exact dropRec_bytes h

theorem execArrivalSuspend_bytes {c : Nat} {s : State} (h : Canonical s.mem) : NextWf (execArrivalSuspend c s) := by
  unfold execArrivalSuspend
  rw [nextWf_next]
  dsimp only
  (repeat' split) <;> simp [h]

theorem execReplication_bytes {l c : Nat} {s : State} (h : Canonical s.mem) : NextWf (execReplication l c s) := by
  unfold execReplication
  rw [nextWf_next]
  split
  · exact h
  · split
    · exact h
    · extract_lets t d sg
      split
      · exact h
      · split
        · exact chargeEv_bytes h
        · extract_lets T' s1 s2 s3 s4
          have h2 : Canonical s2.mem := startWords_bytes (fillSegment_bytes h)
          clear_value s2
          have h3 : Canonical s3.mem := by
            simp only [s3]
            split
            · exact storeWord_bytes h2
            · exact h2
          clear_value s3
          exact canonical_ite (chargeEv_bytes (syncControl_bytes h3)) (hwDecrement_bytes (chargeEv_bytes (syncControl_bytes h3)))

theorem execTravelLaunchHold_bytes {l : Nat} {s : State} (h : Canonical s.mem) : NextWf (execTravelLaunchHold l s) := by
  unfold execTravelLaunchHold
  rw [nextWf_next]
  split
  · exact h
  · split
    · exact h
    · dsimp only
      split
      · exact h
      · exact foldl_bytes (fun _ _ h => startBlock_bytes h) _
          (openControl_bytes (foldl_bytes (fun _ _ h => by exact startWords_bytes h) _ h))

theorem execBlockDone_bytes {b : Nat} {s : State} (h : Canonical s.mem) : NextWf (execBlockDone b s) := by
  unfold execBlockDone
  rw [nextWf_next]
  dsimp only
  (repeat' split) <;> simp [h]

/-! ### Host commands and management events -/

theorem execContextCreate_bytes {x : Nat} {w : BitVec 512} {s : State} (h : Canonical s.mem) : NextWf (execContextCreate x w s) := by
  unfold execContextCreate
  rw [nextWf_next]
  split <;> simp [h]

theorem execContextEnd_bytes {x : Nat} {s : State} (h : Canonical s.mem) : NextWf (execContextEnd x s) := by
  unfold execContextEnd
  rw [nextWf_next]
  simp [h]

theorem execContextFree_bytes {x : Nat} {s : State} (h : Canonical s.mem) : NextWf (execContextFree x s) := by
  unfold execContextFree
  rw [nextWf_next]
  split <;> simp [h]

theorem execSeedChange_bytes {x : Nat} {seed : Word} {s : State} (h : Canonical s.mem) : NextWf (execSeedChange x seed s) := by
  unfold execSeedChange
  rw [nextWf_next]
  split <;> simp [h]

theorem execRegisterWrite_bytes {off : Nat} {bs : List Byte} {s : State} (h : Canonical s.mem) :
    NextWf (execRegisterWrite off bs s) := by
  unfold execRegisterWrite
  rw [nextWf_next]
  simp [h]

theorem execTlbInvalidate_bytes {w : BitVec 128} {s : State} (h : Canonical s.mem) : NextWf (execTlbInvalidate w s) := by
  unfold execTlbInvalidate
  rw [nextWf_next]
  simp [h]

theorem execTlbInvalidateComplete_bytes {s : State} (h : Canonical s.mem) : NextWf (execTlbInvalidateComplete s) := by
  unfold execTlbInvalidateComplete
  rw [nextWf_next]
  split
  · exact h
  · exact foldl_bytes (fun _ _ h => by exact landAll_bytes h) _ h

theorem execCodeObjectLoad_bytes {s : State} (h : Canonical s.mem) : NextWf (execCodeObjectLoad s) := by
  unfold execCodeObjectLoad
  rw [nextWf_next]
  split
  · exact h
  · dsimp only
    split
    · exact h
    · split
      · exact answerCode_bytes h
      · have hr : Canonical (reclaim s).mem := (reclaim_mem s).symm ▸ h
        split
        · exact answerCode_bytes (loadInto_bytes hr)
        · split
          · exact answerCode_bytes hr
          case _ hi => exact answerCode_bytes (loadInto_bytes (installObj_bytes hr hi))

theorem execCodeObjectUnload_bytes {s : State} (h : Canonical s.mem) : NextWf (execCodeObjectUnload s) := by
  unfold execCodeObjectUnload
  rw [nextWf_next]
  dsimp only
  (repeat' split) <;> simp -implicitDefEqProofs [h]

theorem answerMig_bytes {r : List Byte} {st cause : Nat} {s : State} (h : Canonical s.mem) : Canonical (answerMig r st cause s).mem :=
  canonical_ite h (hwDecrement_bytes h)

theorem foldl_bind_bytes {α : Type} {f : α → State → Except MigFail State}
    (hf : ∀ a s t, Canonical s.mem → f a s = .ok t → Canonical t.mem) {l : List α} {r : Except MigFail State} {t : State}
    (h : ∀ s, r = .ok s → Canonical s.mem) (ht : l.foldl (fun r a => r.bind (f a)) r = .ok t) :
    Canonical t.mem := by
  induction l generalizing r with
  | nil => exact h t ht
  | cons a l ih =>
    refine ih (fun s hs => ?_) ht
    cases r with
    | error e => cases hs
    | ok u => exact hf a u s (h u rfl) hs

theorem migrateTo_bytes {x budget : Nat} {mask : BitVec 4} {s t : State} (h : Canonical s.mem) (ht : migrateTo x budget mask s = .ok t)
    :
    Canonical t.mem := by
  unfold migrateTo at ht
  extract_lets dies mine gen s1 old s2 bs s3 fixed travels at ht
  have h3 : Canonical s3.mem := by
    refine writeCaptures_bytes (foldl_bytes (fun s b h => ?_) _ ((captureGroups_mem x s).symm ▸ h))
    have hn := execCrewSuspend_bytes (b := b) h
    split
    case _ u hu => exact (nextWf_next u).mp (hu ▸ hn)
    case _ => exact h
  clear_value s3
  split at ht
  · cases ht
  · refine foldl_bind_bytes (fun _ _ _ h ht => moveTravel_bytes h ht) (fun u hu => ?_) ht
    exact foldl_bind_bytes (fun _ _ _ h ht => moveBlock_bytes h ht) (fun v hv => by cases hv; exact h3) hu

theorem execMigrate_bytes {s : State} (h : Canonical s.mem) : NextWf (execMigrate s) := by
  unfold execMigrate
  rw [nextWf_next]
  split
  · exact h
  · extract_lets x u t done
    split
    · exact answerMig_bytes h
    · have ht : Canonical t.mem := by
        simp only [t, u]
        exact haltContext_bytes h
      have hdone : ∀ st cause (u : State), Canonical u.mem → Canonical (done st cause u).mem := fun _ _ u hu => by
        simp only [done]
        exact answerMig_bytes hu
      clear_value t done
      split
      · exact ht
      · split
        case _ hu => exact releaseContext_bytes (hdone _ _ _ (migrateTo_bytes ht hu))
        case _ => exact hdone _ _ _ ht

theorem execHalt_bytes {x : Nat} {s : State} (h : Canonical s.mem) : NextWf (execHalt x s) :=
  serveCmd_bytes (fun c s h => by simp [h]) h

theorem execResume_bytes {x : Nat} {s : State} (h : Canonical s.mem) : NextWf (execResume x s) :=
  serveCmd_bytes (fun c s h => by simp [h]) h

theorem execList_bytes {x : Nat} {s : State} (h : Canonical s.mem) : NextWf (execList x s) :=
  serveCmd_bytes (fun c s h => by simp [h]) h

theorem execBset_bytes {x : Nat} {s : State} (h : Canonical s.mem) : NextWf (execBset x s) :=
  serveCmd_bytes (fun c s h => by dsimp only; (repeat' split) <;> simp -implicitDefEqProofs [h]) h

theorem execBclr_bytes {x : Nat} {s : State} (h : Canonical s.mem) : NextWf (execBclr x s) :=
  serveCmd_bytes (fun c s h => by simp [h]) h

theorem execStep_bytes {x : Nat} {s : State} (h : Canonical s.mem) : NextWf (execStep x s) :=
  serveCmd_bytes (fun c s h => by dsimp only; (repeat' split) <;> simp -implicitDefEqProofs [h]) h

theorem execRval_bytes {x : Nat} {s : State} (h : Canonical s.mem) : NextWf (execRval x s) :=
  serveCmd_bytes (fun c s h => by (repeat' split) <;> simp [h]) h

theorem execRstat_bytes {x : Nat} {s : State} (h : Canonical s.mem) : NextWf (execRstat x s) :=
  serveCmd_bytes (fun c s h => by (repeat' split) <;> simp [h]) h

theorem execWset_bytes {x : Nat} {s : State} (h : Canonical s.mem) : NextWf (execWset x s) :=
  serveCmd_bytes (fun c s h => by (repeat' split) <;> simp [h]) h

theorem execWclr_bytes {x : Nat} {s : State} (h : Canonical s.mem) : NextWf (execWclr x s) :=
  serveCmd_bytes (fun c s h => by simp [h]) h

theorem execPowerCapWrite_bytes {w : DWord} {s : State} (h : Canonical s.mem) : NextWf (execPowerCapWrite w s) := by
  unfold execPowerCapWrite
  rw [nextWf_next]
  simp [h]

theorem execSustainedThrottleStep_bytes {d : Nat} {s : State} (h : Canonical s.mem) : NextWf (execSustainedThrottleStep d s) := by
  unfold execSustainedThrottleStep
  rw [nextWf_next]
  dsimp only
  (repeat' split) <;> simp [h]

theorem execThermalThrottle_bytes {d : Nat} {s : State} (h : Canonical s.mem) : NextWf (execThermalThrottle d s) := by
  unfold execThermalThrottle
  rw [nextWf_next]
  dsimp only
  (repeat' split) <;> simp [h]

theorem execThermalReset_bytes {d : Nat} {s : State} (h : Canonical s.mem) : NextWf (execThermalReset d s) := by
  unfold execThermalReset
  rw [nextWf_next]
  (repeat' split) <;> simp [h]

theorem execSafelightHalt_bytes {x : Nat} {s : State} (h : Canonical s.mem) : NextWf (execSafelightHalt x s) := by
  unfold execSafelightHalt
  rw [nextWf_next]
  split <;> simp [h]

theorem execSafelightRelease_bytes {x : Nat} {s : State} (h : Canonical s.mem) : NextWf (execSafelightRelease x s) := by
  unfold execSafelightRelease
  rw [nextWf_next]
  split <;> simp [h]

theorem execDieReset_bytes {d : Nat} {s : State} (h : Canonical s.mem) : NextWf (execDieReset d s) := by
  unfold execDieReset
  rw [nextWf_next]
  (repeat' split) <;> simp [h]

theorem execModuleReset_bytes {s : State} (h : Canonical s.mem) : NextWf (execModuleReset s) := NMap.wf_filter _ _ _ h

theorem execBringUpComplete_bytes {s : State} (h : Canonical s.mem) : NextWf (execBringUpComplete s) := by
  refine canonical_ite h (foldl_bytes (fun _ _ h => by exact resumeGroup_bytes h) _ ?_)
  exact foldl_bytes (fun _ _ h => by exact suspendGroup_bytes h) _ h

theorem execFirmwareStaging_bytes {img : List Byte} {s : State} (h : Canonical s.mem) : NextWf (execFirmwareStaging img s) := by
  unfold execFirmwareStaging
  rw [nextWf_next]
  (repeat' split) <;> simp [h]

theorem execGetSensorReading_bytes {id : Nat} {s : State} (h : Canonical s.mem) : NextWf (execGetSensorReading id s) := by
  unfold execGetSensorReading
  rw [nextWf_next]
  (repeat' split) <;> simp [h]

theorem execGetStateSensorReadings_bytes {id : Nat} {s : State} (h : Canonical s.mem) : NextWf (execGetStateSensorReadings id s) := by
  unfold execGetStateSensorReadings
  rw [nextWf_next]
  dsimp only
  (repeat' split) <;> simp [h]

theorem execSetNumericEffecterValue_bytes {id v : Nat} {s : State} (h : Canonical s.mem) :
    NextWf (execSetNumericEffecterValue id v s) := by
  unfold execSetNumericEffecterValue
  rw [nextWf_next]
  (repeat' split) <;> simp [h]

theorem execGetNumericEffecterValue_bytes {id : Nat} {s : State} (h : Canonical s.mem) : NextWf (execGetNumericEffecterValue id s) := by
  unfold execGetNumericEffecterValue
  rw [nextWf_next]
  (repeat' split) <;> simp [h]

theorem execRequestUpdate_bytes {s : State} (h : Canonical s.mem) : NextWf (execRequestUpdate s) := by
  unfold execRequestUpdate
  rw [nextWf_next]
  split <;> simp [h]

theorem execActivateFirmware_bytes {s : State} (h : Canonical s.mem) : NextWf (execActivateFirmware s) := by
  unfold execActivateFirmware
  rw [nextWf_next]
  split <;> simp [h]

theorem execLSlotResultArrival_bytes {g sd : Nat} {s : State} (h : Canonical s.mem) : NextWf (execLSlotResultArrival g sd s) := by
  unfold execLSlotResultArrival
  rw [nextWf_next]
  dsimp only
  (repeat' split) <;> simp [h]

/-! ### One step -/

theorem exec_bytes (i : Instr) {s : State} (h : Canonical s.mem) : NextWf (exec i s) := by
  cases i with
  | nop => exact execNop_bytes h
  | br => exact execBr_bytes h
  | cbr => exact execCbr_bytes h
  | switch => exact execSwitch_bytes h
  | call => exact execCall_bytes h
  | ret => exact execRet_bytes h
  | exit => exact execExit_bytes h
  | trap => exact execTrap_bytes h
  | copyV => exact execCopyV_bytes h
  | copyVRet => exact execCopyVRet_bytes h
  | add => exact lanes2_bytes h
  | sub => exact lanes2_bytes h
  | mul => exact lanes2_bytes h
  | mulhi => exact lanes2_bytes h
  | mad => exact lanesN_bytes h
  | div => exact lanes2_bytes h
  | rem => exact lanes2_bytes h
  | neg => exact lanes1_bytes h
  | abs => exact lanes1_bytes h
  | min => exact lanes2_bytes h
  | max => exact lanes2_bytes h
  | and => exact lanes2_bytes h
  | or => exact lanes2_bytes h
  | xor => exact lanes2_bytes h
  | not => exact lanes1_bytes h
  | shl => exact lanes2_bytes h
  | shr => exact lanes2_bytes h
  | rotl => exact lanes2_bytes h
  | clz => exact lanes1_bytes h
  | popc => exact lanes1_bytes h
  | brev => exact lanes1_bytes h
  | bfx => exact lanesN_bytes h
  | bfi => exact lanesN_bytes h
  | cmp => exact lanes2_bytes h
  | sel => exact execSel_bytes h
  | ext => exact lanes1_bytes h
  | trunc => exact lanes1_bytes h
  | addsat => exact lanes2_bytes h
  | subsat => exact lanes2_bytes h
  | lea => exact lanesN_bytes h
  | shfl => exact execShfl_bytes h
  | bcast => exact execBcast_bytes h
  | vote => exact execVote_bytes h
  | ballot => exact execBallot_bytes h
  | redg => exact execRedg_bytes h
  | scang => exact execScang_bytes h
  | aset => exact execAset_bytes h
  | aget => exact execAget_bytes h
  | afill => exact execAfill_bytes h
  | fadd => exact fp2_bytes h
  | fsub => exact fp2_bytes h
  | fmul => exact fp2_bytes h
  | fma => exact lanesFlags_bytes h
  | fdiv => exact fp2_bytes h
  | fneg => exact lanes1_bytes h
  | fabs => exact lanes1_bytes h
  | fmin => exact lanes2_bytes h
  | fmax => exact lanes2_bytes h
  | fcmp => exact lanes2_bytes h
  | fclass => exact lanes1_bytes h
  | fcopysign => exact lanes2_bytes h
  | frnd => exact lanes1_bytes h
  | fscale => exact lanesFlags_bytes h
  | cvt => exact lanesC_bytes h
  | pack => exact lanesC_bytes h
  | unpack => exact lanes1_bytes h
  | rsdenc => exact lanesFlags_bytes h
  | rsddec => exact lanesFlags_bytes h
  | exp2 => exact sfu_bytes h
  | log2 => exact sfu_bytes h
  | rcp => exact sfu_bytes h
  | sqrt => exact sfu_bytes h
  | rsqrt => exact sfu_bytes h
  | sinpi => exact sfu_bytes h
  | cospi => exact sfu_bytes h
  | tanh => exact sfu_bytes h
  | sigmoid => exact sfu_bytes h
  | erf => exact sfu_bytes h
  | madd => exact mo2_bytes h
  | msub => exact mo2_bytes h
  | mmul => exact mo2_bytes h
  | mfma => exact moment_bytes h
  | mexp => exact mo1_bytes h
  | mrelu => exact mo1_bytes h
  | msig => exact execMsig_bytes h
  | mtanh => exact mo1_bytes h
  | mgelu => exact mo1_bytes h
  | mcol => exact moment_bytes h
  | mmake => exact moment_bytes h
  | mscale => exact moment_bytes h
  | mma => exact execMma_bytes h
  | accacq => exact execAccacq_bytes h
  | accrel => exact execAccrel_bytes h
  | accrd => exact execAccrd_bytes h
  | accwr => exact execAccwr_bytes h
  | acczero => exact execAcczero_bytes h
  | ldfrag => exact execLdfrag_bytes h
  | ldscale => exact execLdscale_bytes h
  | rsdraw => exact execRsdraw_bytes h
  | ld => exact loadInstr_bytes h
  | st => exact storeInstr_bytes h
  | atom => exact execAtom_bytes h
  | cas => exact execCas_bytes h
  | fence => exact execFence_bytes h
  | bar => exact execBar_bytes h
  | barar => exact execBarar_bytes h
  | barwt => exact execBarwt_bytes h
  | ldacq => exact loadInstr_bytes h
  | strel => exact storeInstr_bytes h
  | prefetch => exact execPrefetch_bytes h
  | ldw => exact execLdw_bytes h
  | stw => exact execStw_bytes h
  | mkref => exact execMkref_bytes h
  | unref => exact execUnref_bytes h
  | objinit => exact execObjinit_bytes h
  | objinitRetire => exact execObjinitRetire_bytes h
  | publ => exact execPubl_bytes h
  | refeq => exact execRefeq_bytes h
  | refadr => exact execRefadr_bytes h
  | ldref => exact execLdref_bytes h
  | stref => exact execStref_bytes h
  | objst => exact execObjst_bytes h
  | copy => exact execCopy_bytes h
  | gather => exact gatherScatter_bytes h
  | scatter => exact gatherScatter_bytes h
  | coll => exact execColl_bytes h
  | post => exact execPost_bytes h
  | tjoin => exact execTjoin_bytes h
  | kwait => exact execKwait_bytes h
  | ktest => exact execKtest_bytes h
  | sigdec => exact signalWrite_bytes h
  | sigwait => exact execSigwait_bytes h
  | sigset => exact signalWrite_bytes h
  | sigrd => exact execSigrd_bytes h
  | enq => exact execEnq_bytes h
  | nsleep => exact execNsleep_bytes h
  | twait => exact execTwait_bytes h
  | rdclk => exact execRdclk_bytes h
  | rdtime => exact execRdtime_bytes h
  | yield => exact execYield_bytes h
  | hop => exact execHop_bytes h
  | trvmapRep => exact execTrvmapRep_bytes h
  | trvmapVer => exact execTrvmapVer_bytes h
  | ctrrd => exact execCtrrd_bytes h
  | ctrctl => exact execCtrctl_bytes h
  | brkpt => exact execBrkpt_bytes h
  | assert => exact execAssert_bytes h
  | rdflag => exact execRdflag_bytes h
  | clrflag => exact execClrflag_bytes h
  | rdfev => exact execRdfev_bytes h
  | sNop => exact execSNop_bytes h
  | salu => exact execSalu_bytes h
  | sli => exact execSli_bytes h
  | slhi => exact execSlhi_bytes h
  | sbr => exact execSbr_bytes h
  | sbrc => exact execSbrc_bytes h
  | sjoin => exact execSjoin_bytes h
  | scall => exact execScall_bytes h
  | sret => exact execSret_bytes h
  | sexit => exact execSexit_bytes h
  | strap => exact execStrap_bytes h
  | sloop => exact execSloop_bytes h
  | ssetfm => exact execSsetfm_bytes h
  | sxset => exact execSxset_bytes h
  | sxidx => exact execSxidx_bytes h
  | sacq => exact execSacq_bytes h
  | srel => exact execSrel_bytes h
  | skwait => exact execSkwait_bytes h
  | skest => exact execSkest_bytes h
  | sbar => exact execSbar_bytes h
  | ssys => exact execSsys_bytes h
  | sv2s => exact execSv2s_bytes h
  | vNop => exact execVNop_bytes h
  | iadd => exact vInt_bytes h
  | isub => exact vInt_bytes h
  | imul => exact vInt_bytes h
  | imhs => exact vInt_bytes h
  | imhn => exact vInt_bytes h
  | imad => exact vInt_bytes h
  | iand => exact vInt_bytes h
  | ior => exact vInt_bytes h
  | ixor => exact vInt_bytes h
  | ishl => exact vInt_bytes h
  | ishrs => exact vInt_bytes h
  | ishrn => exact vInt_bytes h
  | irotl => exact vInt_bytes h
  | isel => exact execIsel_bytes h
  | imins => exact vInt_bytes h
  | iminn => exact vInt_bytes h
  | imaxs => exact vInt_bytes h
  | imaxn => exact vInt_bytes h
  | iclz => exact vInt_bytes h
  | ipopc => exact vInt_bytes h
  | ibrev => exact vInt_bytes h
  | ibfxs => exact vInt_bytes h
  | ibfxn => exact vInt_bytes h
  | ibfi => exact vInt_bytes h
  | iaddss => exact vInt_bytes h
  | iaddsn => exact vInt_bytes h
  | isubss => exact vInt_bytes h
  | isubsn => exact vInt_bytes h
  | iaddcp => exact vCarry_bytes h
  | iaddci => exact vCarry_bytes h
  | icmp => exact execIcmp_bytes h
  | idivs => exact vInt_bytes h
  | idivn => exact vInt_bytes h
  | irems => exact vInt_bytes h
  | iremn => exact vInt_bytes h
  | vFcmp => exact execVFcmp_bytes h
  | vFadd => exact execVFadd_bytes h
  | vFsub => exact execVFsub_bytes h
  | vFmul => exact execVFmul_bytes h
  | ffma => exact execFfma_bytes h
  | vFdiv => exact execVFdiv_bytes h
  | vFmin => exact execVFmin_bytes h
  | vFmax => exact execVFmax_bytes h
  | fcsgn => exact execFcsgn_bytes h
  | vFclass => exact execVFclass_bytes h
  | vFrnd => exact execVFrnd_bytes h
  | fscl => exact execFscl_bytes h
  | vCvt => exact execVCvt_bytes h
  | rsenc => exact execRsenc_bytes h
  | rsdec => exact execRsdec_bytes h
  | xshf => exact execXshf_bytes h
  | xbc => exact execXbc_bytes h
  | xvote => exact execXvote_bytes h
  | xblt => exact execXblt_bytes h
  | xred => exact execXred_bytes h
  | xscn => exact execXscn_bytes h
  | ubc => exact execUbc_bytes h
  | rget => exact execRget_bytes h
  | rset => exact execRset_bytes h
  | mld => exact execMld_bytes h
  | mst => exact execMst_bytes h
  | tread => exact execTread_bytes h
  | fNop => exact execFNop_bytes h
  | fExp2 => exact fSlot_bytes h
  | fLog2 => exact fSlot_bytes h
  | fRcp => exact fSlot_bytes h
  | fSqrt => exact fSlot_bytes h
  | fRsqrt => exact fSlot_bytes h
  | fSinpi => exact fSlot_bytes h
  | fCospi => exact fSlot_bytes h
  | fTanh => exact fSlot_bytes h
  | fSigmoid => exact fSlot_bytes h
  | fErf => exact fSlot_bytes h
  | sscl => exact execSscl_bytes h
  | lNop => exact execLNop_bytes h
  | ldn => exact lLoad_bytes h
  | lds => exact lLoad_bytes h
  | lSt => exact execLSt_bytes h
  | ldq => exact lLoad_bytes h
  | strl => exact execStrl_bytes h
  | aadd => exact lAtomOp_bytes h
  | amins => exact lAtomOp_bytes h
  | aminn => exact lAtomOp_bytes h
  | amaxs => exact lAtomOp_bytes h
  | amaxn => exact lAtomOp_bytes h
  | aand => exact lAtomOp_bytes h
  | aor => exact lAtomOp_bytes h
  | axor => exact lAtomOp_bytes h
  | axchg => exact lAtomOp_bytes h
  | acas => exact lAtom_bytes h
  | pref => exact execPref_bytes h
  | fnc => exact execFnc_bytes h
  | spst => exact execSpst_bytes h
  | spld => exact execSpld_bytes h
  | ldt => exact execLdt_bytes h
  | stt => exact execStt_bytes h
  | mNop => exact execMNop_bytes h
  | tstep => exact execTstep_bytes h
  | tlatch => exact execTlatch_bytes h
  | twr => exact execTwr_bytes h
  | tzero => exact execTzero_bytes h
  | aNop => exact execANop_bytes h
  | aCopy => exact execACopy_bytes h
  | aGather => exact execAGather_bytes h
  | aScatter => exact execAScatter_bytes h
  | aColl => exact execAColl_bytes h
  | aPubl => exact execAPubl_bytes h
  | aPost => exact execAPost_bytes h
  | aEnq => exact execAEnq_bytes h
  | aSigdec => exact execASigdec_bytes h
  | aSigset => exact execASigset_bytes h
  | aHop => exact execAHop_bytes h
  | aTjoin => exact execATjoin_bytes h
  | queueEnable => exact execQueueEnable_bytes h
  | queueDisable => exact execQueueDisable_bytes h
  | tailPoll => exact execTailPoll_bytes h
  | queueLaunch => exact execQueueLaunch_bytes h
  | queueWait => exact execQueueWait_bytes h
  | queueDecrement => exact execQueueDecrement_bytes h
  | queueSet => exact execQueueSet_bytes h
  | queueNoOperation => exact execQueueNoOperation_bytes h
  | workSteal => exact execWorkSteal_bytes h
  | blockPlace => exact execBlockPlace_bytes h
  | blockWaitLimit => exact execBlockWaitLimit_bytes h
  | translationMiss => exact execTranslationMiss_bytes h
  | translationComplete => exact execTranslationComplete_bytes h
  | instructionStoreFill => exact execInstructionStoreFill_bytes h
  | bundleDispatch => rw [exec]; exact execBundleDispatch_bytes h
  | sideRotation => exact execSideRotation_bytes h
  | timingCheck => exact execTimingCheck_bytes h
  | clockRestore => exact h
  | regionCommit => exact execRegionCommit_bytes h
  | faultRollback => exact execFaultRollback_bytes h
  | eccError => exact execEccError_bytes h
  | dispPoll => exact execDispPoll_bytes h
  | quantumExpiry => exact execQuantumExpiry_bytes h
  | preemptRequest => exact execPreemptRequest_bytes h
  | crewSuspend => exact execCrewSuspend_bytes h
  | crewResume => exact execCrewResume_bytes h
  | engineReset => exact execEngineReset_bytes h
  | matrixUnitReset => exact execMatrixUnitReset_bytes h
  | matrixResetComplete => exact h
  | ballastStep => exact h
  | accGrant => exact execAccGrant_bytes h
  | tileSave => exact execTileSave_bytes h
  | tileRestore => exact execTileRestore_bytes h
  | tileWriteComplete => exact execTileWriteComplete_bytes h
  | engineStart => exact execEngineStart_bytes h
  | tokenComplete => exact execTokenComplete_bytes h
  | tokenFail => exact execTokenFail_bytes h
  | claimRound => exact execClaimRound_bytes h
  | markPhase => exact execMarkPhase_bytes h
  | rootStore => exact execRootStore_bytes h
  | collectiveFrame => exact execCollectiveFrame_bytes h
  | collectiveTimeout => exact execCollectiveTimeout_bytes h
  | hostRdmaWrite => exact execHostRdmaWrite_bytes h
  | hostRdmaRead => exact execHostRdmaRead_bytes h
  | hostRdmaAtomic => exact execHostRdmaAtomic_bytes h
  | pageMigration => exact execPageMigration_bytes h
  | counterHalving => exact h
  | mshrRetry => exact execMshrRetry_bytes h
  | barrierReleaseWave => exact execBarrierReleaseWave_bytes h
  | watchSatisfied => exact execWatchSatisfied_bytes h
  | twaitDeadline => exact execTwaitDeadline_bytes h
  | nsleepExpiry => exact h
  | yieldEnd => exact execYieldEnd_bytes h
  | frequencyTransition => exact execFrequencyTransition_bytes h
  | travelDeparture => exact execTravelDeparture_bytes h
  | recordStart => exact execRecordStart_bytes h
  | arrivalSuspend => exact execArrivalSuspend_bytes h
  | replication => exact execReplication_bytes h
  | travelLaunchHold => exact execTravelLaunchHold_bytes h
  | blockDone => exact execBlockDone_bytes h
  | contextCreate => exact execContextCreate_bytes h
  | contextEnd => exact execContextEnd_bytes h
  | contextFree => exact execContextFree_bytes h
  | seedChange => exact execSeedChange_bytes h
  | registerWrite => exact execRegisterWrite_bytes h
  | tlbInvalidate => exact execTlbInvalidate_bytes h
  | tlbInvalidateComplete => exact execTlbInvalidateComplete_bytes h
  | codeObjectLoad => exact execCodeObjectLoad_bytes h
  | codeObjectUnload => exact execCodeObjectUnload_bytes h
  | migrate => exact execMigrate_bytes h
  | getVersion => exact spdm_bytes h
  | getCapabilities => exact spdm_bytes h
  | negotiateAlgorithms => exact spdm_bytes h
  | getDigests => exact spdm_bytes h
  | getCertificate => exact spdm_bytes h
  | challenge => exact spdm_bytes h
  | getMeasurements => exact spdm_bytes h
  | halt => exact execHalt_bytes h
  | resume => exact execResume_bytes h
  | list => exact execList_bytes h
  | bset => exact execBset_bytes h
  | bclr => exact execBclr_bytes h
  | step => exact execStep_bytes h
  | rval => exact execRval_bytes h
  | rstat => exact execRstat_bytes h
  | wset => exact execWset_bytes h
  | wclr => exact execWclr_bytes h
  | powerCapWrite => exact execPowerCapWrite_bytes h
  | pwrstatRead => exact h
  | sustainedThrottleStep => exact execSustainedThrottleStep_bytes h
  | thermalThrottle => exact execThermalThrottle_bytes h
  | thermalReset => exact execThermalReset_bytes h
  | safelightHalt => exact execSafelightHalt_bytes h
  | safelightRelease => exact execSafelightRelease_bytes h
  | dieReset => exact execDieReset_bytes h
  | moduleReset => exact execModuleReset_bytes h
  | bringUpComplete => exact execBringUpComplete_bytes h
  | firmwareStaging => exact execFirmwareStaging_bytes h
  | getTid => exact pldm_bytes h
  | getPldmVersion => exact pldm_bytes h
  | getPldmTypes => exact pldm_bytes h
  | getPldmCommands => exact pldm_bytes h
  | getPdr => exact pldm_bytes h
  | getSensorReading => exact execGetSensorReading_bytes h
  | getStateSensorReadings => exact execGetStateSensorReadings_bytes h
  | setNumericEffecterValue => exact execSetNumericEffecterValue_bytes h
  | getNumericEffecterValue => exact execGetNumericEffecterValue_bytes h
  | requestUpdate => exact execRequestUpdate_bytes h
  | activateFirmware => exact execActivateFirmware_bytes h
  | lSlotResultArrival => exact execLSlotResultArrival_bytes h

theorem issuePortable_bytes {g sd : Nat} {s : State} (h : Canonical s.mem) : NextWf (issuePortable g sd s) := by
  unfold issuePortable
  split
  · exact h
  · split
    · rw [nextWf_next]
      dsimp only
      rw [rollback_mem]
      exact h
    · split
      · exact stepHook_bytes h
      · split
        · rw [nextWf_next, State.updSide_mem]
          dsimp only
          exact faultAt_bytes (commit_bytes h)
        · split
          · rw [nextWf_next]
            dsimp only
            exact faultAt_bytes h
          · exact onNext_bytes (fun _ h => by exact afterIssue_bytes (spills_bytes h))
              (exec_bytes _ (issued_bytes h))

theorem issueSlot_bytes {g : Nat} {sl : Slot} {s : State} (h : Canonical s.mem) : NextWf (issueSlot g sl s) := by
  unfold issueSlot
  split
  · rw [nextWf_next]
    dsimp only
    rw [rollback_mem]
    exact h
  · split
    · rw [nextWf_next]
      dsimp only
      exact badSlot_bytes h
    · exact onNext_bytes (fun _ h => by exact nativeHook_bytes (afterIssue_bytes h)) (exec_bytes _ h)

theorem runChoice_bytes {c : Choice} {s : State} (h : Canonical s.mem) : NextWf (runChoice c s) := by
  cases c with
  | event i => exact onNext_bytes (fun _ h => by exact h) (exec_bytes i h)
  | outside =>
    unfold runChoice
    dsimp only
    split
    · exact h
    · exact exec_bytes _ (by exact h)
  | unit c =>
    unfold runChoice
    rw [nextWf_next]
    split
    · simp [h]
    · exact h
  | refuse => exact h
  | message i => exact stepMsg_bytes h
  | store g i => exact landOne_bytes h
  | early g =>
    unfold runChoice
    rw [nextWf_next]
    dsimp only
    exact readEarly_bytes (by simp [h])

theorem takeTurn_bytes {s : State} (h : Canonical s.mem) : NextWf (takeTurn s) := by
  unfold takeTurn
  dsimp only
  split
  · exact runChoice_bytes h
  · exact h

theorem chooseNext_bytes {s : State} (h : Canonical s.mem) : NextWf (chooseNext s) := by
  unfold chooseNext
  split
  · exact takeTurn_bytes h
  · dsimp only
    split
    · exact h
    · exact runChoice_bytes h

theorem step_bytes {s : State} (h : Canonical s.mem) : NextWf (step s) := by
  unfold step
  split
  · exact issuePortable_bytes h
  · exact issueSlot_bytes h
  · exact chooseNext_bytes h

/-- Settles O60: every operation of the model leaves the bytes of storage as they are or writes them by `NMap.set`, `NMap.keep` or a
filter, which keep the canonical form; `step` is made of them. -/
theorem stepKeepsMemoryForm : Obligations.StepKeepsMemoryForm := by
  unfold Obligations.StepKeepsMemoryForm
  intro s t h ht
  have hs := step_bytes (s := s) h
  rw [ht] at hs
  exact hs

end Sys2Proof.Machine

namespace Sys2Proof.Machine
open Sys2Proof

/-! ### Reads of clocks, counters and flags (R317, R395, R396) -/

section
variable {s : State} {p : Site}

/-- An instruction that defines one word in every lane, and nothing else, gives it. -/
theorem gives_of_defineAll (hp : site? s = some p) {i : Instr} {x : DWord} (hi : exec i s = .next (defineAll p x s)) :
    Gives i s p (List.replicate 128 (Val.bits x)) :=
  ⟨_, hi, List.map_replicate (f := Val.bits) ▸ defined_define hp ((List.replicate 128 x).map .bits)⟩

theorem exec_rdclk (hp : site? s = some p) (h : BitVec 2) :
    exec (.rdclk h) s = .next (defineAll p (BitVec.ofNat 64 (nth Core.reset s.cores p.grp.core).clk) s) :=
  portable_eq hp _

theorem exec_rdtime (hp : site? s = some p) (h : BitVec 2) :
    exec (.rdtime h) s = .next (defineAll p (BitVec.ofNat 64 s.time) s) :=
  portable_eq hp _

theorem exec_rdflag (hp : site? s = some p) (h : BitVec 2) :
    exec (.rdflag h) s = .next (defineAll p ((p.side.core.view.flags &&& 0x7F).zeroExtend 64) s) :=
  portable_eq hp _

theorem exec_rdfev (hp : site? s = some p) (h : BitVec 2) : exec (.rdfev h) s = .next (defineAll p p.side.core.view.fev s) :=
  portable_eq hp _

theorem exec_ctrrd (hp : site? s = some p) (h : BitVec 2) (n : Opnd) :
    exec (.ctrrd h n) s = .next (defineAll p (nth 0 (ctxAt s p.ctx).counts (immNat n)) s) :=
  portable_eq hp _

/-- A token in flight reads as 0. -/
theorem exec_ktest_of_pending (hp : site? s = some p) (h : BitVec 2) {k : Opnd} {e : Nat} (hk : opndTok p k = some e)
    (he : tokState p.grp e = some .pending) : exec (.ktest h k) s = .next (defineAll p 0 s) := by
  change execKtest k s = _
  simp only [execKtest, portable_eq hp, hk, he]

/-- A token that has completed reads as 1, and its group acquires what it covers. -/
theorem exec_ktest_of_complete (hp : site? s = some p) (h : BitVec 2) {k : Opnd} {e : Nat} (hk : opndTok p k = some e)
    (he : tokState p.grp e = some .complete) : exec (.ktest h k) s = .next (defineAll p 1 (p.acquireToks [e] s)) := by
  change execKtest k s = _
  simp only [execKtest, portable_eq hp, hk, he]

theorem exec_trvmapRep_of_travel (hp : site? s = some p) (h : BitVec 2) (n : Opnd) {T : Travel} (hT : p.lau.travel = some T) :
    exec (.trvmapRep h n) s = .next (defineAll p (BitVec.ofNat 64 (replicas (nth 0 T.mapw (immNat n))).length) s) := by
  change execTrvmapRep n s = _
  simp only [execTrvmapRep, portable_eq hp, hT]

theorem exec_trvmapVer_of_travel (hp : site? s = some p) (h : BitVec 2) {T : Travel} (hT : p.lau.travel = some T) :
    exec (.trvmapVer h) s = .next (defineAll p (BitVec.ofNat 64 (T.ver % 2 ^ 32)) s) := by
  change execTrvmapVer s = _
  simp only [execTrvmapVer, portable_eq hp, hT]

/-! ### Counter control and breakpoints at issue (R396, R397) -/

/-- `ctrctl` gates the change of its counter. -/
theorem exec_ctrctl_of_readable (hp : site? s = some p) (h : BitVec 2) (n : Opnd) (clear : Bool) {cfg : Opnd} {c : DWord}
    (hc : opndOne s p .i32 cfg = some c) :
    exec (.ctrctl h clear n cfg) s = .next (advance p (gate p [.ctrctl (immNat n) (c.truncate 32) clear] s)) := by
  change execCtrctl clear n cfg s = _
  simp only [execCtrctl, portable_eq hp, hc]

/-- `brkpt` gates its stop and commits at once. -/
theorem exec_brkpt (hp : site? s = some p) (h : BitVec 2) (n : Opnd) :
    exec (.brkpt h n) s = .next (commit p.g p.sd (advance p (gate p [.brkpt (immNat n) p.pc] s))) := by
  change execBrkpt n s = _
  simp only [execBrkpt, portable_eq hp]
end

/-- Settles O17, instruction by instruction. -/
theorem systemReadsAndCounterControl : Obligations.SystemReadsAndCounterControl := by
  unfold Obligations.SystemReadsAndCounterControl
  constructor
  · intro s p hp h
    refine ⟨gives_of_defineAll hp (exec_rdclk hp h), gives_of_defineAll hp (exec_rdtime hp h), gives_of_defineAll hp (exec_rdflag hp h),
      gives_of_defineAll hp (exec_rdfev hp h), fun n => gives_of_defineAll hp (exec_ctrrd hp h n),
      fun k e hk he => gives_of_defineAll hp (exec_ktest_of_pending hp h hk he), fun k e hk he => exec_ktest_of_complete hp h hk he,
      fun T hT => ⟨fun n => gives_of_defineAll hp (exec_trvmapRep_of_travel hp h n hT),
        gives_of_defineAll hp (exec_trvmapVer_of_travel hp h hT)⟩⟩
  · exact fun s p hp h n => ⟨fun clear cfg c hc => exec_ctrctl_of_readable hp h n clear hc, exec_brkpt hp h n⟩

/-! ### Gated operations as they are performed (R240, R241, R396, R397, R415) -/

/-- A write of what unlisted keys read as, in a canonical list, clears its key. -/
theorem NMap.get_set_default {α : Type} [DecidableEq α] (d : α) (m : NMap α) (lo : Option Nat) (k : Nat)
    (w : NMap.wfFrom d lo m = true) : NMap.get d (NMap.set d m k d) k = d := by
  induction m generalizing lo with
  | nil => simp [NMap.set, NMap.get]
  | cons e r ih =>
    obtain ⟨j, v⟩ := e
    have hr : NMap.wfFrom d (some j) r = true := by
      simp only [NMap.wfFrom, Bool.and_eq_true] at w
      exact w.2
    by_cases hlt : k < j
    · simp [NMap.set, NMap.get, hlt, hlt.ne]
    · by_cases heq : k = j
      · simpa [NMap.set, heq] using NMap.get_of_wfFrom d r j j le_rfl hr
      · simpa [NMap.set, NMap.get, hlt, heq] using ih (some j) hr

/-- The tag of a word is clear once it has been cleared. -/
theorem tagAt_setTag_false (s : State) (a : Nat) (w : NMap.wf false s.tag = true) : tagAt (setTag a false s) a = false :=
  NMap.get_set_default false s.tag none (a / 8) w

/-- What an update of its slot leaves of a context that exists. -/
theorem ctxAt_modifyAt {s : State} {x : Nat} {C : Ctx} (f : Ctx → Ctx) (hx : s.ctxs[x]? = some C) :
    ctxAt { s with ctxs := modifyAt f s.ctxs x } x = f C := by
  simp [ctxAt, nth, modifyAt_getElem?, hx]

section
variable (x g sd : Nat) (s : State)

/-- A counter change writes the counter's configuration, and its count where it is to be cleared (R396). -/
theorem ctxAt_performGop_ctrctl (n : Nat) (cfg : Word) (clear : Bool) {C : Ctx} (hx : s.ctxs[x]? = some C) :
    ctxAt (performGop x g sd (.ctrctl n cfg clear) s) x = { C with
      cfgs := modifyAt (fun _ => cfg &&& 0x1FFFF) C.cfgs n,
      counts := if clear then modifyAt (fun _ => 0) C.counts n else C.counts } :=
  ctxAt_modifyAt _ hx

/-- A release of tiles takes the set from its group (R415). -/
theorem performGop_accrel_group {G : Group} (hG : s.groups[g]? = some G) :
    (performGop x g sd .accrel s).groups[g]? = some { G with acc := none } :=
  updGroup_groups _ hG

/-- A store over a body word clears its tag, where its context sees it and the word is no header (R240, R241). -/
theorem performGop_untag (l a : Nat) :
    performGop x g sd (.untag l a) s = if headerAt s a || !seenTag s x a then s else setTag a false s :=
  rfl

/-- A cleared tag of a body word is not seen any more (R240, R241). -/
theorem seenTag_performGop_untag (l a : Nat) (w : NMap.wf false s.tag = true) (hh : headerAt s a = false) :
    seenTag (performGop x g sd (.untag l a) s) x a = false := by
  by_cases hseen : seenTag s x a = true
  · have hp : performGop x g sd (.untag l a) s = setTag a false s := by simp [performGop_untag, hh, hseen]
    simp [hp, seenTag, tagAt_setTag_false s a w]
  · have hp : performGop x g sd (.untag l a) s = s := by simp [performGop_untag, hseen]
    simpa [hp] using hseen

/-- It writes no byte. -/
theorem performGop_untag_mem (l a : Nat) : (performGop x g sd (.untag l a) s).mem = s.mem := by
  rw [performGop_untag]
  split
  · rfl
  · rfl

/-- A breakpoint stops nothing in a context that is not debugged (R397). -/
theorem performGop_brkpt_of_not_debugged (code pc : Nat) (hd : (ctxAt s x).dbg = false) : performGop x g sd (.brkpt code pc) s = s := by
  simp [performGop, hd]
end

/-- Settles O19, operation by operation. -/
theorem gatedOperationsPerform : Obligations.GatedOperationsPerform := by
  unfold Obligations.GatedOperationsPerform
  intro x g sd s
  refine ⟨fun _ _ _ => rfl, fun _ _ _ _ _ => rfl, fun _ _ _ _ => rfl, fun _ _ _ => rfl, fun n cfg clear C hx => ?ctrctl,
    fun G hG => performGop_accrel_group x g sd s hG,
    fun l a w hh => ⟨seenTag_performGop_untag x g sd s l a w hh, performGop_untag_mem x g sd s l a⟩,
    fun code pc hd => performGop_brkpt_of_not_debugged x g sd s code pc hd⟩
  case ctrctl =>
    rw [ctxAt_performGop_ctrctl x g sd s n cfg clear hx]
    exact ⟨rfl, rfl⟩

end Sys2Proof.Machine

namespace Sys2Proof.Machine
open Sys2Proof

/-! ### Power and temperature (R377) -/

section
variable {s : State} {d : Nat}

/-- A die is due for a step down or up where it runs and a millisecond has passed since its last step. -/
theorem stepDue_of_die {D : Die} (hD : s.dies[d]? = some D) (hon : D.on = true) (hlast : D.last + 1000000 ≤ s.time) : stepDue s d = true := by
  simp [stepDue, hD, hon, hlast]

/-- Above the sustained cap a due die is stepped down, and the throttle flag stands. -/
theorem exec_sustainedThrottleStep_of_over (hdue : stepDue (samplePeak s) d = true)
    (hover : (samplePeak s).power.scap < Config.power (samplePeak s).time) :
    exec (.sustainedThrottleStep d) s =
      .next (stepDie d Cluster.stepDown { samplePeak s with power := { (samplePeak s).power with sthr := true } }) := by
  change execSustainedThrottleStep d s = _
  simp only [execSustainedThrottleStep, hdue, hover, Bool.not_true, Bool.false_eq_true, if_false, if_true]

/-- Die d with its mark of heat as its temperature says. -/
def markHot (d : Nat) (hot : Bool) (s : State) : State :=
  { s with dies := modifyAt (fun D => { D with hot := D.on && hot }) s.dies d }

/-- The mark of heat moves no step. -/
theorem stepDue_markHot (s : State) (d : Nat) (hot : Bool) : stepDue (markHot d hot s) d = stepDue s d := by
  unfold stepDue markHot
  dsimp only
  rw [modifyAt_getElem?, if_pos rfl]
  cases s.dies[d]? with
  | none => rfl
  | some D => rfl

/-- A due die of 105 degrees or more is stepped down and marked hot. -/
theorem exec_thermalThrottle_of_hot (hhot : 105 ≤ Config.temperature s.time d) (hdue : stepDue s d = true) :
    exec (.thermalThrottle d) s = .next (stepDie d Cluster.stepDown (markHot d true s)) := by
  have hdue' : stepDue (markHot d true s) d = true := (stepDue_markHot s d true).trans hdue
  change execThermalThrottle d s = _
  simp only [markHot] at hdue' ⊢
  simp only [execThermalThrottle, decide_eq_true hhot, hdue', Bool.and_self, if_true]

/-- A running die of 115 degrees or more is reset. -/
theorem exec_thermalReset_of_hot {D : Die} (hD : s.dies[d]? = some D) (hon : D.on = true) (hhot : 115 ≤ Config.temperature s.time d) :
    exec (.thermalReset d) s = .next (resetDie d s) := by
  change execThermalReset d s = _
  simp only [execThermalReset, hD, hon, decide_eq_true hhot, Bool.and_self, if_true]

/-! ### Resets, bring-up and the Safelight port (R374 to R376, R383, R405) -/

/-- A running die is reset on command. -/
theorem exec_dieReset_of_on {D : Die} (hD : s.dies[d]? = some D) (hon : D.on = true) : exec (.dieReset d) s = .next (resetDie d s) := by
  change execDieReset d s = _
  simp only [execDieReset, hD, hon, if_true]

/-- Bring-up of a module without groups: every die joins at full clock. -/
theorem exec_bringUpComplete_of_no_groups (hfull : s.full = false) (hgroups : s.groups = []) :
    exec .bringUpComplete s = .next { s with
      full := true, caps := some ((s.dies.zipIdx.map (fun e => e.1.join s.time e.2)).map Die.on),
      dies := s.dies.zipIdx.map (fun e => e.1.join s.time e.2),
      clusters := s.clusters.map (fun C => { C with mhz := 800, cuts := [] }) } := by
  change execBringUpComplete s = _
  simp only [execBringUpComplete, hfull, hgroups, Bool.false_eq_true, if_false, List.length_nil, List.range_zero, List.filter_nil,
    List.foldl_nil]

variable {x : Nat}

/-- The port halts a context that is live or halted. -/
theorem exec_safelightHalt_of_standing (hx : slotIs s x .live = true ∨ slotIs s x .halted = true) :
    exec (.safelightHalt x) s = .next (haltContext x { s with ctxs := modifyAt (fun C => { C with shalt := true }) s.ctxs x }) := by
  change execSafelightHalt x s = _
  simp only [execSafelightHalt, Bool.or_eq_true, hx, if_true]

/-- The port releases a context that is live or halted. -/
theorem exec_safelightRelease_of_standing (hx : slotIs s x .live = true ∨ slotIs s x .halted = true) :
    exec (.safelightRelease x) s = .next (releaseContext x { s with ctxs := modifyAt (fun C => { C with shalt := false }) s.ctxs x }) := by
  change execSafelightRelease x s = _
  simp only [execSafelightRelease, Bool.or_eq_true, hx, if_true]

/-! ### Firmware (R378, R406) -/

variable {img : List Byte}

/-- An image is refused while one is staged. -/
theorem exec_firmwareStaging_of_staged {b : List Byte} (hb : s.staged = some b) : exec (.firmwareStaging img) s = .next (answer 0x63 [1] s) := by
  change execFirmwareStaging img s = _
  simp only [execFirmwareStaging, hb, Option.isSome_some, if_true]

/-- Else it is staged where its signature is valid, and refused where it is not. -/
theorem exec_firmwareStaging_of_unstaged (hs : s.staged = none) : exec (.firmwareStaging img) s =
    .next (if Config.signatureValid img then answer 0x63 [0] { s with staged := some img } else answer 0x63 [2] s) := by
  change execFirmwareStaging img s = _
  simp only [execFirmwareStaging, hs, Option.isSome_none, Bool.false_eq_true, if_false]

/-! ### Attestation and management messages (R374, R407) -/

variable {code : Nat} {req : List Byte}

theorem spdm_of_safelight : spdm code .safelight req s = .next (answer 0x60 (Config.spdmResponse code req (measurements s)) s) := rfl

/-- A request in the host's mailbox is answered there. -/
theorem spdm_of_host (hrun : s.mbox.spdmRun = true) : spdm code .host req s = .next { s with
    mbox := { s.mbox with
      spdm := patch s.mbox.spdm 0 ((Config.spdmResponse code req (measurements s)).take 2544),
      rlen := ((Config.spdmResponse code req (measurements s)).take 2544).length, spdmSt := 1, spdmRun := false } } := by
  simp only [spdm, hrun, Bool.not_true, Bool.false_eq_true, if_false]

variable {id v : Nat}

/-- A sensor that exists is read; the read of the peak power begins its next interval. -/
theorem exec_getSensorReading_of_some (hv : sensorReading s id = some v) : exec (.getSensorReading id) s =
    .next (answer 0x61 (pldmNumber v) (if id = 2 then { s with power := { s.power with ppkRead := s.time } } else s)) := by
  change execGetSensorReading id s = _
  simp only [execGetSensorReading, hv]

theorem exec_getStateSensorReadings_of_some (hv : stateReading (samplePeak s) id = some v) :
    exec (.getStateSensorReadings id) s = .next (answer 0x61 (pldmNumber v) (samplePeak s)) := by
  change execGetStateSensorReadings id s = _
  simp only [execGetStateSensorReadings, hv]

/-- Effecters 1 and 2 set a cap that the other allows. -/
theorem exec_setNumericEffecterValue_of_allowed (hid : id = 1 ∨ id = 2) {P : Power} (hP : setCap s.power id v = some P) :
    exec (.setNumericEffecterValue id v) s = .next (answer 0x61 [0] { s with power := P }) := by
  have hgo : ¬(id ≠ 1 ∧ id ≠ 2) := by omega
  change execSetNumericEffecterValue id v s = _
  simp only [execSetNumericEffecterValue, if_neg hgo, hP]

/-- They refuse any other value. -/
theorem exec_setNumericEffecterValue_of_refused (hid : id = 1 ∨ id = 2) (hP : setCap s.power id v = none) :
    exec (.setNumericEffecterValue id v) s = .next (answer 0x61 [2] s) := by
  have hgo : ¬(id ≠ 1 ∧ id ≠ 2) := by omega
  change execSetNumericEffecterValue id v s = _
  simp only [execSetNumericEffecterValue, if_neg hgo, hP]

theorem exec_requestUpdate : exec .requestUpdate s =
    .next (if s.updating then answer 0x61 [0x81] s else answer 0x61 [0] { s with updating := true }) :=
  rfl

theorem exec_activateFirmware : exec .activateFirmware s =
    .next (if s.updating then answer 0x61 [0] { s with updating := false } else answer 0x61 [0x80] s) :=
  rfl
end

/-- Settles O51: event by event, each under the conditions that its clause names. -/
theorem managementEvents : Obligations.ManagementEvents := by
  unfold Obligations.ManagementEvents
  intro s
  refine ⟨fun w => rfl, rfl, fun d hdue hover => exec_sustainedThrottleStep_of_over hdue hover, fun d D hD hon => ?die, rfl, fun hfull => ?up,
    fun x hx => ⟨exec_safelightHalt_of_standing hx, exec_safelightRelease_of_standing hx⟩, fun img => ?image, fun req => ?message,
    fun id v hv hid => ?sensor, fun v hv => ?peak, fun id v hv => exec_getStateSensorReadings_of_some hv, fun id v hid => ?cap, rfl, rfl,
    fun hu => ?request, fun hu => ?update⟩
  case die =>
    exact ⟨fun hhot hlast => exec_thermalThrottle_of_hot hhot (stepDue_of_die hD hon hlast), exec_dieReset_of_on hD hon,
      fun hhot => exec_thermalReset_of_hot hD hon hhot⟩
  case up => exact ⟨_, rfl, fun hgroups => Host.Outcome.next.inj (exec_bringUpComplete_of_no_groups hfull hgroups)⟩
  case image =>
    exact ⟨fun b hb => exec_firmwareStaging_of_staged hb, fun hs hok => (exec_firmwareStaging_of_unstaged hs).trans (by rw [if_pos hok]),
      fun hs hbad => (exec_firmwareStaging_of_unstaged hs).trans (by simp [hbad])⟩
  case message =>
    exact ⟨spdm_of_safelight, spdm_of_safelight, spdm_of_safelight, spdm_of_safelight, spdm_of_safelight, spdm_of_safelight,
      spdm_of_safelight, spdm_of_host, spdm_of_host, spdm_of_host, spdm_of_host, spdm_of_host, spdm_of_host, spdm_of_host,
      rfl, rfl, rfl, rfl, rfl⟩
  case sensor => exact (exec_getSensorReading_of_some hv).trans (by rw [if_neg hid])
  case peak => exact exec_getSensorReading_of_some hv
  case cap =>
    exact ⟨fun P hP => exec_setNumericEffecterValue_of_allowed hid hP, fun hP => exec_setNumericEffecterValue_of_refused hid hP⟩
  case request => exact exec_requestUpdate.trans (by simp [hu])
  case update => exact ⟨exec_activateFirmware.trans (by simp [hu]), exec_requestUpdate.trans (by simp [hu])⟩

end Sys2Proof.Machine

namespace Sys2Proof.Machine
open Sys2Proof

/-! ### Events that end waits (R311, R312, R316, R318) -/

/-- What f gives first over a list, it gives of the first entry for which it gives anything. -/
theorem findSome?_of_find? {α β : Type} {p : α → Bool} {f : α → Option β} (hp : ∀ a, p a = (f a).isSome) {l : List α} {a : α}
    (h : l.find? p = some a) : l.findSome? f = f a := by
  induction l with
  | nil => cases h
  | cons b r ih =>
    cases hb : f b with
    | none =>
      rw [List.find?_cons_of_neg (by simp [hp, hb])] at h
      rw [List.findSome?_cons, hb]
      exact ih h
    | some c =>
      rw [List.find?_cons_of_pos (by simp [hp, hb])] at h
      cases h
      rw [List.findSome?_cons, hb]

section
variable {s : State} {g sd : Nat} {p : Wait → Bool} {q : Pend} {w : Wait}

/-- The first wait of group g that p picks is w, of side sd. -/
def FirstWait (s : State) (g : Nat) (p : Wait → Bool) (sd : Nat) (w : Wait) : Prop :=
  ∃ G since, s.groups[g]? = some G ∧ G.waits.find? (fun e => p e.2.1) = some (sd, w, since)

theorem FirstWait.picked (h : FirstWait s g p sd w) : p w = true := by
  obtain ⟨G, since, -, hfind⟩ := h
  exact List.find?_some (p := fun e : Nat × Wait × Nat => p e.2.1) hfind

/-- What f says of the first wait of which it says something. -/
theorem FirstWait.findSome (h : FirstWait s g p sd w) {f : Wait → Option Pend} (hp : ∀ w, p w = (f w).isSome) (hq : f w = some q) :
    (s.groups[g]?).bind (fun G => G.waits.findSome? (fun e => (f e.2.1).map (fun q => (e.1, q)))) = some (sd, q) := by
  obtain ⟨G, since, hG, hfind⟩ := h
  rw [hG, Option.bind_some, findSome?_of_find? (fun e => by simp [hp]) hfind, hq, Option.map_some]

/-- The wait that an event ends goes on with what the event gives. -/
theorem FirstWait.resumeFirst (h : FirstWait s g p sd w) :
    resumeFirst g (fun w => if p w then some q else none) s = resumeWait g sd q s := by
  have hfind := h.findSome (f := fun w => if p w then some q else none) (q := q) (fun w => by split <;> simp_all) (if_pos h.picked)
  simp only [Machine.resumeFirst, hfind]

/-- A choice of watches as one of waits. -/
def ofWatch {α : Type} (d : α) (f : Watch → α) (w : Wait) : α := match w with | .signal w => f w | _ => d

/-- The signal wait that f ends goes on with what f says, and its MARK keeps that. -/
theorem FirstWait.endSignal {f : Watch → Option Pend} {pw : Watch → Bool} {w : Watch} (h : FirstWait s g (ofWatch false pw) sd (.signal w))
    (hp : ∀ w, pw w = (f w).isSome) (hq : f w = some q) :
    endSignal g f s = resumeWait g sd q (s.updSide g sd (fun S => { S with markPend := q })) := by
  have hpick : ∀ w, ofWatch false pw w = (ofWatch none f w).isSome := fun w => by
    cases w with
    | signal w => exact hp w
    | _ => rfl
  have hfind := h.findSome hpick hq
  unfold Machine.endSignal
  dsimp only
  split
  case _ sd' q' hf =>
    obtain ⟨rfl, rfl⟩ := Prod.mk.inj (Option.some.inj (hf.symm.trans hfind))
    rfl
  case _ hf => exact absurd (hf.symm.trans hfind) nofun

/-- A watch that has hit ends its wait with the value it hit (R311). -/
theorem exec_watchSatisfied_of_hit {w : Watch} {v : DWord} (h : FirstWait s g (ofWatch false (fun w => w.hit.isSome)) sd (.signal w))
    (hv : w.hit = some v) :
    exec (.watchSatisfied g) s = .next (resumeWait g sd (.hit v) (s.updSide g sd (fun S => { S with markPend := .hit v }))) :=
  congrArg Host.Outcome.next (h.endSignal (f := fun w => w.hit.map Pend.hit) (fun w => by simp) (by simp [hv]))

/-- A watch that has not hit when its deadline has come (R312). -/
def Watch.late (now : Nat) (w : Watch) : Bool := w.hit.isNone && w.deadline.any (fun t => decide (t ≤ now))

/-- What the deadline event asks of a watch. -/
theorem execTwaitDeadline_eq : execTwaitDeadline g s = .next (endSignal g (fun w => if w.late s.time then some .done else none) s) := by
  unfold execTwaitDeadline
  congr 2
  funext w
  cases hh : w.hit with
  | some v => simp [Watch.late, hh]
  | none =>
    cases hd : w.deadline with
    | none => simp [Watch.late, hh, hd]
    | some t => simp [Watch.late, hh, hd]

/-- Its wait ends without a value. -/
theorem exec_twaitDeadline_of_late {w : Watch} (h : FirstWait s g (ofWatch false (Watch.late s.time)) sd (.signal w)) :
    exec (.twaitDeadline g) s = .next (resumeWait g sd .done (s.updSide g sd (fun S => { S with markPend := .done }))) := by
  have hlate : w.late s.time = true := h.picked
  exact execTwaitDeadline_eq.trans (congrArg Host.Outcome.next (h.endSignal (fun w => by split <;> simp_all) (if_pos hlate)))

/-- A yield that nothing more is dispatched for, or whose clock has come (R318). -/
def Wait.yielded (clk : Nat) (w : Wait) : Bool := match w with | .yielding os t => os.isEmpty || decide (t ≤ clk) | _ => false

/-- What the end of a yield asks of a wait. -/
theorem execYieldEnd_eq {G : Group} (hG : s.groups[g]? = some G) : execYieldEnd g s =
    .next (resumeFirst g (fun w => if w.yielded (nth Core.reset s.cores G.core).clk then some .done else none) s) := by
  unfold execYieldEnd
  rw [hG]
  dsimp only
  congr 2
  funext w
  cases w with
  | yielding os t => simp [Wait.yielded]
  | _ => rfl

/-- A yield that is over ends. -/
theorem exec_yieldEnd_of_yielded {G : Group} (hG : s.groups[g]? = some G)
    (h : FirstWait s g (Wait.yielded (nth Core.reset s.cores G.core).clk) sd w) :
    exec (.yieldEnd g) s = .next (resumeWait g sd .done s) :=
  (execYieldEnd_eq hG).trans (congrArg Host.Outcome.next h.resumeFirst)
end

/-! ### The wave of barrier releases and the clock of a cluster (R319, R377) -/

section
variable {s : State} {cl : Nat}

/-- The wave of a cluster waits for its clock. -/
theorem exec_barrierReleaseWave_of_early (h : (nth Core.reset s.cores (8 * cl)).clk < (nth Cluster.reset s.clusters cl).waveAt) :
    exec (.barrierReleaseWave cl) s = .next s := by
  change execBarrierReleaseWave cl s = _
  simp only [execBarrierReleaseWave, h, true_or, if_true]

/-- The groups that the wave of a cluster releases now: as many as its slope says, and one at least. -/
def waveGroups (s : State) (cl : Nat) : List (Nat × Nat × Nat × Word) :=
  ((nth Cluster.reset s.clusters cl).phases.flatMap (phaseWaiters s)).take (max (nth Cluster.reset s.clusters cl).slope.toNat 1)

/-- The state once they are released. -/
def waveReleased (s : State) (cl : Nat) : State :=
  (waveGroups s cl).foldl (fun t e => t.updGroup e.1 (Group.endWaits (Wait.onPhase e.2))) s

/-- A choice by whether a list has an entry. -/
theorem ite_isEmpty {α β : Type} (l : List α) [Decidable (l = [])] (a b : β) : (if l.isEmpty = true then a else b) = if l = [] then a else b := by
  simp [List.isEmpty_iff]

/-- When its clock has come the wave releases its groups, and its next part is 64 clocks on. -/
theorem exec_barrierReleaseWave_of_due (hphases : (nth Cluster.reset s.clusters cl).phases ≠ [])
    (h : (nth Cluster.reset s.clusters cl).waveAt ≤ (nth Core.reset s.cores (8 * cl)).clk) :
    exec (.barrierReleaseWave cl) s = .next { waveReleased s cl with
      clusters := modifyAt (fun C => { C with
        phases := C.phases.filter (fun q => !(phaseWaiters (waveReleased s cl) q).isEmpty),
        waveAt := if waveGroups s cl = [] then C.waveAt else (nth Core.reset s.cores (8 * cl)).clk + 64 }) (waveReleased s cl).clusters cl } := by
  have hgo : ¬((nth Core.reset s.cores (8 * cl)).clk < (nth Cluster.reset s.clusters cl).waveAt ∨
      (nth Cluster.reset s.clusters cl).phases.isEmpty = true) := by simp [hphases, h]
  change execBarrierReleaseWave cl s = _
  simp only [execBarrierReleaseWave, if_neg hgo, ite_isEmpty, waveReleased, waveGroups]
  -- the two sides hold different decisions of whether the wave is empty
  congr 4

/-- A cluster takes a clock of 400 to 800 MHz, and any but 400 only once the module is up. -/
theorem exec_frequencyTransition_of_allowed {mhz : Nat} (hlo : 400 ≤ mhz) (hhi : mhz ≤ 800) (hfull : s.full = true ∨ mhz = 400) :
    exec (.frequencyTransition cl mhz) s = .next { s with clusters := modifyAt (fun C => { C with mhz := mhz }) s.clusters cl } := by
  change execFrequencyTransition cl mhz s = _
  simp only [execFrequencyTransition, hlo, hhi, hfull, and_self, if_true]
end

/-! ### Travelling groups: departure and arrival (R325 to R341) -/

section
variable {s u : State} {g c sg : Nat} {G : Group} {L : Launch} {T : Travel}

/-- Group g of travel launch L is ready to leave its core: its sides S and r are at their segment exits, S for segment sg, its tokens are
in, its tiles at rest, and its pool has the slots it needs (R325 to R333). -/
structure Departs (s : State) (g : Nat) (G : Group) (L : Launch) (T : Travel) (S : Side) (r : List Side) (sg : Nat) (mode : HopMode) (key : Word)
    (slots : List Nat) : Prop where
  group : s.groups[g]? = some G
  launch : launchOfBlk s G.block = some L
  travel : L.travel = some T
  sides : mergeExits s (departOrder G) = S :: r
  exit : ∃ pc, S.exit? = some (pc, sg, mode, key)
  ready : G.st = .ready
  leaves : canDepart G = true
  unfailed : failedTok G (departToks s G) = none
  settled : (departToks s G).any (fun e => decide (tokState G e = some .pending)) = false
  still : ∀ A, G.acc = some A → A.tiles.all (fun T => T.flight.isEmpty) = true
  slots : poolTake s L.ctx (poolNeed G) = some slots

/-- The tiles that a group holds. -/
def heldTiles (G : Group) : List Tile := match G.acc with | some A => A.tiles | none => []

/-- No tile of such a group is in flight. -/
theorem Departs.tiles_still {S : Side} {r : List Side} {mode : HopMode} {key : Word} {slots : List Nat}
    (h : Departs s g G L T S r sg mode key slots) :
    (heldTiles G).any (fun T => !T.flight.isEmpty) = false := by
  unfold heldTiles
  cases hA : G.acc with
  | none => rfl
  | some A => simpa using h.still A hA

/-- It leaves for the core that its hop chooses, where its record finds room (R334 to R339). -/
theorem exec_travelDeparture_of_room {S : Side} {r : List Side} {mode : HopMode} {key : Word} {slots : List Nat} {B : Block}
    (h : Departs s g G L T S r sg mode key slots) (hB : s.blocks[G.block]? = some B) (hc : chooseCore s L T sg B.bid G.gid mode key = some c)
    (hu : placeRec (launchIx s G) c 1 g (recBytes s 1 B.bid { departing G (S :: r) sg (departToks s G) slots with toks := G.toks })
      (poolTiles L.ctx G slots s) = some u) :
    exec (.travelDeparture g) s =
      .next (departed g (launchIx s G) c L.ctx (departing G (S :: r) sg (departToks s G) slots) slots u) := by
  obtain ⟨pc, hexit⟩ := h.exit
  have hgo : ¬(G.st ≠ .ready ∨ (!canDepart G) = true) := by simp [h.ready, h.leaves]
  change execTravelDeparture g s = _
  unfold execTravelDeparture
  simp only [h.group, h.launch, h.travel, h.sides, hexit, if_neg hgo, h.unfailed, h.settled, Bool.false_eq_true, if_false, h.slots, hB, hc,
    hu]
  exact congrArg Host.Outcome.next (if_neg (Bool.not_eq_true _ ▸ h.tiles_still))

/-- Record R at core c starts there: its group G of launch L goes on, a slot and a stamp are free, and nothing keeps the core (R335, R338). -/
structure Starts (s : State) (c : Nat) (R : Rec) (G : Group) (L : Launch) (slot : Nat) (stamp : Half) : Prop where
  record : s.recs.find? (fun r => r.core = c) = some R
  group : s.groups[R.group]? = some G
  launch : s.launches[R.launch]? = some L
  going : G.st ≠ .ended
  slot : (freeSlotsFor s L.ctx none c).head? = some slot
  unseeded : seedWaits s L.ctx = false
  stays : leavesCores s R.launch L = false
  fits : travelLimit s L G.seg ≠ 0
  room : (residents s c).length < travelLimit s L G.seg
  stamp : (if G.stamp = 0 then freeStamp s L.ctx else some G.stamp) = some stamp

/-- Its group takes the slot, and waits for its tiles. -/
theorem exec_recordStart_of_starts {R : Rec} {slot : Nat} {stamp : Half} (h : Starts s c R G L slot stamp) :
    exec (.recordStart c) s = .next (
      let a := spillArea s L (launchDie L) G.seg
      let u := settleScopes R.group { s with cores := modifyAt (Core.fresh slot) s.cores c }
      awaitTiles false R.group (settleGroup R.group (comeBack L.ctx ((startsOn L.ctx (dieOf c) (dropRec R u)).updGroup
        R.group (fun G => G.placed c slot (imgShared u L.kaddr + slot * a) a stamp))))) := by
  have hgo : ¬(seedWaits s L.ctx = true ∨ leavesCores s R.launch L = true) := by simp [h.unseeded, h.stays]
  change execRecordStart c s = _
  simp only [execRecordStart, h.record, h.group, h.launch, if_neg h.going, h.slot, if_neg hgo, if_neg h.fits, if_neg (Nat.not_le.mpr h.room),
    h.stamp]

/-- Where every group of a core has waited long, the one that has waited longest makes room for what arrives (R341). -/
theorem exec_arrivalSuspend_of_long {R : Rec} {w : Nat} {slots : List Nat} (hR : s.recs.find? (fun r => r.core = c) = some R)
    (hall : (longWaiters s c).length = (residents s c).length) (hlong : longest (longWaiters s c) = some (g, G, w))
    (hslots : poolTake (suspendGroup g s) (groupCtx s G) (((suspendGroup g s).groups[g]?.map poolNeed).getD 0) = some slots) :
    exec (.arrivalSuspend c) s = .next (suspendArrival g c (groupCtx s G) (launchIx s G) slots (suspendGroup g s)) := by
  have hgo : ¬((s.recs.find? (fun r => r.core = c)).isNone = true ∨ (longWaiters s c).length < (residents s c).length) := by
    simp [hR, hall]
  change execArrivalSuspend c s = _
  simp only [execArrivalSuspend, if_neg hgo, hlong, hslots]
end

/-! ### Replication, and travel launches that wait for their cores (R340, R345, R346) -/

section
variable {s : State} {l c : Nat} {L : Launch} {T : Travel}

/-- Core c of travel launch L has been over its bound for 50 us, so that its segment is to be replicated (R340). -/
structure Replicates (s : State) (l c : Nat) (L : Launch) (T : Travel) : Prop where
  launch : s.launches[l]? = some L
  travel : L.travel = some T
  running : L.complete = false
  above : NMap.get 0 T.above c ≠ 0
  long : NMap.get 0 T.above c + 50000 ≤ s.time + 1
  holds : T.holds = true

theorem Replicates.not_kept (h : Replicates s l c L T) : ¬(NMap.get 0 T.above c = 0 ∨ s.time + 1 < NMap.get 0 T.above c + 50000 ∨
    L.complete = true ∨ (!T.holds) = true) := by
  have hlong := h.long
  simp only [h.running, h.above, h.holds, Bool.not_true, Bool.false_eq_true, or_false, false_or, not_lt]
  exact hlong

/-- Without a core in reserve the time over the bound begins again. -/
theorem exec_replication_of_no_reserve (h : Replicates s l c L T) (hr : replicas T.rsrv = []) :
    exec (.replication l c) s = .next (chargeEv L.ctx 0x93 1 { s with
      launches := modifyAt (fun L => { L with travel := some { T with above := NMap.set 0 T.above c (s.time + 1) } }) s.launches l }) := by
  change execReplication l c s = _
  simp only [execReplication, h.launch, h.travel, if_neg h.not_kept, hr, List.head?_nil]

/-- The first segment of launch L that core c holds. -/
def segmentOf (L : Launch) (T : Travel) (c : Nat) : Nat :=
  ((List.range 64).find? (fun k => (nth 0 T.mapw k).getLsbD (c - dieBase (launchDie L)))).getD 0

theorem segmentOf_eq : ((List.range 64).find? (fun k => (nth 0 T.mapw k).getLsbD (c - dieBase (launchDie L)))).getD 0 = segmentOf L T c :=
  rfl

/-- Reserve core r of launch l as a replica of segment sg beside core c: its ring is empty, and its segment is filled. -/
def replicated (l c r sg : Nat) (L : Launch) (T : Travel) (s : State) : State :=
  let v := { s with
    launches := modifyAt (fun L => { L with travel := some (T.replicate sg r s.time c) }) s.launches l,
    cores := modifyAt (fun C => { C with rtail := 0, rhead := 0 }) s.cores (dieBase (launchDie L) + r) }
  startWords (dieBase (launchDie L) + r) 0 (imgShared v L.kaddr) (fillSegment L sg (dieBase (launchDie L) + r) v)

/-- The segment of a core over its bound takes the first core in reserve, and the table of segments says so (R340). -/
theorem exec_replication_of_reserve (h : Replicates s l c L T) {r k sg : Nat} {rs : List Nat} (hr : replicas T.rsrv = r :: rs)
    (hsig : T.msig = 0) (hsg : segmentOf L T c = sg) (hk : ctxKey (replicated l c r sg L T s) L.ctx (T.smap + 8 * sg) false = some k) :
    exec (.replication l c) s = .next (chargeEv L.ctx 0x92 1 (syncControl l (storeWord L.ctx k
      (nth 0 (T.replicate sg r s.time c).mapw sg) (replicated l c r sg L T s)))) := by
  change execReplication l c s = _
  simp only [execReplication, h.launch, h.travel, if_neg h.not_kept, hr, List.head?_cons, hsig, if_true, segmentOf_eq, hsg]
  simp only [replicated] at hk ⊢
  simp only [hk]

/-- Another travel launch that holds its cores, or came before, has cores of launch l. -/
def heldByOther (s : State) (l : Nat) (L : Launch) : Bool :=
  s.launches.zipIdx.any (fun e => e.2 != l && !e.1.complete && shares L.cores e.1.cores
    && (match e.1.travel with | some U => U.holds || decide (e.2 < l) | none => false))

/-- A core of launch l has a group of another launch, or a slot that its context may not take. -/
def coresBusy (s : State) (l : Nat) (L : Launch) : Bool :=
  L.cores.any (fun c => (residents s c).any (fun e => launchIx s e.2 != l) || !(heldRanges s L.ctx none c).isEmpty)

/-- Launch l with its cores held, each with an empty ring. -/
def holding (l : Nat) (L : Launch) (T : Travel) (s : State) : State :=
  { s with
    launches := modifyAt (fun L => { L with travel := some { T with holds := true } }) s.launches l,
    cores := L.cores.foldl (fun cores c => modifyAt (fun C => { C with rtail := 0, rhead := 0 }) cores c) s.cores }

/-- A travel launch that waits for its cores holds them once nothing else does, and its blocks start (R345, R346). -/
theorem exec_travelLaunchHold_of_free (hL : s.launches[l]? = some L) (hT : L.travel = some T) (hwait : T.holds = false)
    (hrun : L.complete = false) (hlive : (ctxAt s L.ctx).st = .live) (hother : heldByOther s l L = false) (hbusy : coresBusy s l L = false) :
    exec (.travelLaunchHold l) s = .next ((List.range L.nblk).foldl (fun s bid => startBlock l L { T with holds := true } bid s)
      (openControl l (L.cores.foldl (fun s c => startWords c 0 (imgShared s L.kaddr) s) (holding l L T s)))) := by
  have hgo : ¬(T.holds = true ∨ L.complete = true ∨ heldByOther s l L = true ∨ coresBusy s l L = true ∨ (ctxAt s L.ctx).st ≠ .live) := by
    simp [hwait, hrun, hlive, hother, hbusy]
  change execTravelLaunchHold l s = _
  unfold execTravelLaunchHold
  rw [hL]
  dsimp only
  rw [hT]
  exact congrArg Host.Outcome.next (if_neg hgo)
end

/-- Settles O49: event by event, each under the conditions that its clause names. -/
theorem waitAndTravelEvents : Obligations.WaitAndTravelEvents := by
  unfold Obligations.WaitAndTravelEvents
  intro s
  refine ⟨fun g G sd w since hG => ?waits, fun g => rfl, fun cl => ?wave, fun cl mhz hlo hhi hfull => exec_frequencyTransition_of_allowed hlo hhi hfull,
    ?departure, ?start, ?suspend, ?unreserved, ?reserved, ?hold⟩
  case waits =>
    refine ⟨fun v hfirst hv => exec_watchSatisfied_of_hit ⟨G, since, hG, hfirst⟩ hv,
      fun hfirst => exec_twaitDeadline_of_late ⟨G, since, hG, hfirst⟩, fun os t hfirst => exec_yieldEnd_of_yielded hG ⟨G, since, hG, hfirst⟩⟩
  case wave =>
    exact fun hphases => ⟨exec_barrierReleaseWave_of_early, exec_barrierReleaseWave_of_due hphases⟩
  case departure =>
    intro g G L T S r pc0 sg mode key slots B c u hG hL hT hsides hexit hready hleaves toks hfail hpend hstill hslots hB hc G' hu
    exact exec_travelDeparture_of_room ⟨hG, hL, hT, hsides, ⟨pc0, hexit⟩, hready, hleaves, hfail, hpend, hstill, hslots⟩ hB hc hu
  case start =>
    intro c R G L slot sl stamp hR hG hL hgoing hslot hseed hstay hfit hroom hstamp
    exact exec_recordStart_of_starts ⟨hR, hG, hL, hgoing, by rw [hslot, List.head?_cons], hseed, hstay, hfit, hroom, hstamp⟩
  case suspend =>
    intro c R g G w slots hR hall t hlong hslots
    exact exec_arrivalSuspend_of_long hR hall hlong hslots
  case unreserved =>
    intro l c L T hL hT hrun habove hlong hholds hr
    exact exec_replication_of_no_reserve ⟨hL, hT, hrun, habove, hlong, hholds⟩ hr
  case reserved =>
    intro l c L T r rs k hL hT hrun habove hlong hholds hr hsig d sg T' v u hk
    exact exec_replication_of_reserve ⟨hL, hT, hrun, habove, hlong, hholds⟩ hr hsig rfl hk
  case hold =>
    intro l L T hL hT hwait hrun hlive hother hbusy
    exact exec_travelLaunchHold_of_free hL hT hwait hrun hlive hother hbusy

end Sys2Proof.Machine

namespace Sys2Proof

/-! ### Slot fields read back (R166 to R174) -/

theorem append_toNat_ne_zero {m n : Nat} {c : BitVec m} (hc : c ≠ 0) (x : BitVec n) : (c ++ x).toNat ≠ 0 := by
  rw [BitVec.toNat_append, Ne, Nat.or_eq_zero_iff, Nat.shiftLeft_eq_zero_iff]
  intro h
  exact hc (BitVec.eq_of_toNat_eq h.1)

theorem slotParse_vBits {c : BitVec 6} (hc : c ≠ 0) (v : VOp) : slotParse .v (vBits c v) = vInstr c.toNat v := by
  have hn : vBits c v ≠ 0 := append_toNat_ne_zero hc _
  simp only [slotParse, if_neg hn]
  simp only [vBits, BitVec.ofNat_toNat, BitVec.setWidth_eq]
  simp (disch := decide) only [BitVec.extractLsb'_append_eq_of_add_le, BitVec.extractLsb'_append_eq_of_le, BitVec.getLsbD_append]
  simp

theorem slotParse_fBits {c : BitVec 4} (hc : c ≠ 0) (hs : c ≠ 0xB) (o : FOp) : slotParse .f (fBits c o) = fInstr c.toNat o := by
  have hn : fBits c o ≠ 0 := append_toNat_ne_zero hc _
  have hs' : c.toNat ≠ 0xB := fun h => hs (BitVec.eq_of_toNat_eq h)
  simp only [slotParse, if_neg hn]
  simp only [fBits, BitVec.ofNat_toNat, BitVec.setWidth_eq]
  simp (disch := decide) only [BitVec.extractLsb'_append_eq_of_add_le, BitVec.extractLsb'_append_eq_of_le, BitVec.getLsbD_append]
  simp [hs']

theorem slotParse_lBits {c : BitVec 6} (hc : c ≠ 0) (o : LOp) : slotParse .l (lBits c o) = lInstr c.toNat o := by
  have hn : lBits c o ≠ 0 := append_toNat_ne_zero hc _
  simp only [slotParse, if_neg hn]
  simp only [lBits, BitVec.ofNat_toNat, BitVec.setWidth_eq]
  simp (disch := decide) only [BitVec.extractLsb'_append_eq_of_add_le, BitVec.extractLsb'_append_eq_of_le, BitVec.getLsbD_append]
  simp

theorem slotParse_aBits {c : BitVec 6} (hc : c ≠ 0) (k : BitVec 4) (d : BitVec 9) (aux : BitVec 13) :
    slotParse .a (aBits c k d aux) = aInstr c.toNat k d aux := by
  have hn : aBits c k d aux ≠ 0 := append_toNat_ne_zero hc _
  simp only [slotParse, if_neg hn]
  simp only [aBits, BitVec.ofNat_toNat, BitVec.setWidth_eq]
  simp (disch := decide) only [BitVec.extractLsb'_append_eq_of_add_le, BitVec.extractLsb'_append_eq_of_le]
  simp

theorem slotParse_sscl (g k : BitVec 4) (t : BitVec 3) (pa : Bool) (a : BitVec 9) :
    slotParse .f (0xB#4 ++ (g ++ (0#2 ++ (k ++ (t ++ (BitVec.ofBool pa ++ (a ++ 0#5)))))) : BitVec 32).toNat = some (.sscl g k t pa a) := by
  simp only [slotParse, if_neg (append_toNat_ne_zero (c := 0xB#4) (by decide) _)]
  simp only [BitVec.ofNat_toNat, BitVec.setWidth_eq]
  simp (disch := decide) only [BitVec.extractLsb'_append_eq_of_add_le, BitVec.extractLsb'_append_eq_of_le, BitVec.getLsbD_append]
  simp

theorem vInstr_vOp? {i : Instr} {c : BitVec 6} {v : VOp} (h : i.vOp? = some (c, v)) : c ≠ 0 ∧ vInstr c.toNat v = some i := by
  cases i <;> cases h <;> exact ⟨by decide, rfl⟩

theorem fInstr_fOp? {i : Instr} {c : BitVec 4} {o : FOp} (h : i.fOp? = some (c, o)) : c ≠ 0 ∧ c ≠ 0xB ∧ fInstr c.toNat o = some i := by
  cases i <;> cases h <;> exact ⟨by decide, by decide, rfl⟩

theorem lInstr_lOp? {i : Instr} {c : BitVec 6} {o : LOp} (h : i.lOp? = some (c, o)) : c ≠ 0 ∧ lInstr c.toNat o = some i := by
  cases i <;> cases h <;> exact ⟨by decide, rfl⟩

theorem aInstr_aOp? {i : Instr} {c : BitVec 6} {k d aux} (h : i.aOp? = some (c, k, d, aux)) : c ≠ 0 ∧ aInstr c.toNat k d aux = some i := by
  cases i <;> cases h <;> exact ⟨by decide, rfl⟩

theorem sParse_sBits? {i : Instr} {w : Word} (h : i.sBits? = some w) : sParse w = some i := by
  cases i <;> cases h
  case sNop => rfl
  all_goals
    simp (disch := decide) only [sParse, BitVec.extractLsb'_append_eq_of_add_le, BitVec.extractLsb'_append_eq_of_le, BitVec.getLsbD_append]
    simp

theorem mParse_mBits? {i : Instr} {w : BitVec 24} (h : i.mBits? = some w) : mParse w = some i := by
  cases i <;> cases h
  case mNop => rfl
  all_goals
    simp (disch := decide) only [mParse, BitVec.extractLsb'_append_eq_of_add_le, BitVec.extractLsb'_append_eq_of_le, BitVec.getLsbD_append]
    simp

/-- A slot field fits its slot, and its fields give the operation back. -/
theorem slotParse_slot? {i : Instr} {k : SlotKind} {n : Nat} (h : i.slot? = some (k, n)) : n < 2 ^ k.bits ∧ slotParse k n = some i := by
  unfold Instr.slot? at h
  split at h
  · cases h; exact ⟨by decide, rfl⟩
  · cases h; exact ⟨by decide, rfl⟩
  · cases h; exact ⟨by decide, rfl⟩
  · cases h; exact ⟨by decide, rfl⟩
  · cases h; exact ⟨BitVec.isLt _, slotParse_sscl ..⟩
  · split at h
    next c v hv =>
      obtain ⟨hc, hi⟩ := vInstr_vOp? hv
      cases h
      exact ⟨BitVec.isLt _, (slotParse_vBits hc _).trans hi⟩
    next c o hf _ =>
      obtain ⟨hc, hs, hi⟩ := fInstr_fOp? hf
      cases h
      exact ⟨BitVec.isLt _, (slotParse_fBits hc hs _).trans hi⟩
    next c o hl _ _ =>
      obtain ⟨hc, hi⟩ := lInstr_lOp? hl
      cases h
      exact ⟨BitVec.isLt _, (slotParse_lBits hc _).trans hi⟩
    next c k d aux ha _ _ _ =>
      obtain ⟨hc, hi⟩ := aInstr_aOp? ha
      cases h
      exact ⟨BitVec.isLt _, (slotParse_aBits hc _ _ _).trans hi⟩
    next w hs _ _ _ _ =>
      cases h
      exact ⟨w.isLt, by simp [slotParse, sParse_sBits? hs]⟩
    next w hm _ _ _ _ _ =>
      cases h
      exact ⟨w.isLt, by simp [slotParse, mParse_mBits? hm]⟩
    next => cases h

/-- Settles O57: a well-formed operation passes the decoder's check of the parsed one. -/
theorem slotRoundTrip : Obligations.SlotRoundTrip := by
  unfold Obligations.SlotRoundTrip
  intro i k n hwf hslot
  obtain ⟨hlt, hparse⟩ := slotParse_slot? hslot
  exact ⟨hlt, by simp [decodeSlot, hparse, hwf, hslot]⟩

end Sys2Proof

namespace Sys2Proof.Machine
open Sys2Proof

/-! ### Lane by lane instructions (R76 to R100) -/

section
variable {s : State} {p : Site} {i : Instr} {a b : Opnd} {t : Ty} {xs ys : List DWord} {ops : List (Ty × Opnd)} {xss : List (List DWord)}

/-- A portable instruction does at its site what its meaning says. -/
theorem exec_of_portable (hp : site? s = some p) {x : Out} {k : Site → State → State} {u : State} (hi : exec i s = x) (hx : x = portable s k)
    (hk : k p s = u) : exec i s = .next u :=
  (hi.trans hx).trans ((portable_eq hp k).trans (congrArg _ hk))

/-- An instruction that defines vs at its site gives vs. -/
theorem gives_of_define (hp : site? s = some p) {x : Out} {k : Site → State → State} {vs : List Val} (hi : exec i s = x)
    (hx : x = portable s k) (hk : k p s = define p vs s) : Gives i s p vs :=
  ⟨_, exec_of_portable hp hi hx hk, defined_define hp vs⟩

/-- An instruction that raises the flags of its lanes and defines their bits gives both. -/
theorem givesFlags_of_define (hp : site? s = some p) {x : Out} {k : Site → State → State} {rs : List (DWord × Flags)} (hi : exec i s = x)
    (hx : x = portable s k) (hk : k p s = defineBits p (rs.map (·.1)) (raiseFlags p (laneEvents p.mask (rs.map (·.2))) s)) : GivesFlags i s p rs := by
  refine ⟨_, exec_of_portable hp hi hx hk, ?_⟩
  have hdefined := defined_raise_define hp (laneEvents p.mask (rs.map (·.2))) ((rs.map (·.1)).map .bits)
  simp only [List.map_map] at hdefined
  simp only [defineBits, List.map_map]
  exact hdefined

/-- An instruction of one operand that takes each lane by f. -/
theorem gives_one (hp : site? s = some p) {f : DWord → DWord} (hi : exec i s = lanes1 s t a f) (ha : opndBits s p t a = some xs) :
    Gives i s p ((xs.map f).map .bits) := by
  rw [Gives, hi]
  exact gives_lanes1 hp ha f

/-- An instruction of two operands that takes each pair of lanes by f. -/
theorem gives_two (hp : site? s = some p) {u : Ty} {f : DWord → DWord → DWord} (hi : exec i s = lanes2 s t u a b f)
    (ha : opndBits s p t a = some xs) (hb : opndBits s p u b = some ys) : Gives i s p ((List.zipWith f xs ys).map .bits) := by
  rw [Gives, hi]
  exact gives_lanes2 hp ha hb f

/-- An instruction of any number of operands that takes the lanes i of them by f. -/
theorem gives_lanesN (hp : site? s = some p) {f : List DWord → DWord} (hi : exec i s = lanesN s ops f)
    (hops : OperandsRead s p ops xss)
    {vs : List Val} (hvs : (List.range 128).map (fun j => .bits (f (xss.map (fun xs => nth 0 xs j)))) = vs) : Gives i s p vs := by
  subst hvs
  refine gives_of_define hp hi rfl ?_
  rw [hops.foldr_eq fun t o xs rest hread => by simp only [hread]]
  simp only [defineBits, zipLanes, List.map_map, Function.comp_def]

/-- The same with flags. -/
theorem givesFlags_lanesFlags (hp : site? s = some p) {f : List DWord → DWord × Flags} (hi : exec i s = lanesFlags s ops f)
    (hops : OperandsRead s p ops xss)
    {rs : List (DWord × Flags)} (hrs : zipLanes f xss = rs) : GivesFlags i s p rs := by
  subst hrs
  refine givesFlags_of_define hp hi rfl ?_
  rw [hops.foldr_eq fun t o xs rest hread => by simp only [hread]]

/-- The same of operands of one conversion element. -/
theorem givesFlags_lanesC (hp : site? s = some p) {e : CTy} {os : List Opnd} {f : List DWord → DWord × Flags} (hi : exec i s = lanesC s e os f)
    (hos : opndAllC s p e os = some xss) {rs : List (DWord × Flags)} (hrs : zipLanes f xss = rs) : GivesFlags i s p rs := by
  subst hrs
  exact givesFlags_of_define hp hi rfl (by simp only [hos])

/-- A floating-point instruction of two operands of one type. -/
theorem givesFlags_fp2 (hp : site? s = some p) {f : DWord → DWord → DWord × Flags} (hi : exec i s = fp2 s t a b f)
    (ha : opndBits s p t a = some xs) (hb : opndBits s p t b = some ys) :
    GivesFlags i s p ((List.range 128).map (fun j => f (nth 0 xs j) (nth 0 ys j))) :=
  givesFlags_lanesFlags hp hi (.cons ha (.cons hb .nil)) rfl

/-- A special function. -/
theorem givesFlags_sfu (hp : site? s = some p) {f : DWord → DWord × Flags} (hi : exec i s = sfu s a f)
    (ha : opndBits s p .f32 a = some xs) : GivesFlags i s p ((List.range 128).map (fun j => f (nth 0 xs j))) :=
  givesFlags_lanesFlags hp hi (.cons ha .nil) rfl

end

/-- Settles O1: each instruction takes the lanes of its two operands by its lane function. -/
theorem integerResultsOfTwoOperands : Obligations.IntegerResultsOfTwoOperands := by
  unfold Obligations.IntegerResultsOfTwoOperands
  intro s p hp h t a b xs ys ha hb
  exact ⟨fun _ => gives_two hp rfl ha hb, fun _ => gives_two hp rfl ha hb, fun _ _ => gives_two hp rfl ha hb, fun _ => gives_two hp rfl ha hb,
    fun _ => gives_two hp rfl ha hb, fun _ => gives_two hp rfl ha hb, fun _ => gives_two hp rfl ha hb, fun _ => gives_two hp rfl ha hb,
    gives_two hp rfl ha hb, gives_two hp rfl ha hb, gives_two hp rfl ha hb, fun _ => gives_two hp rfl ha hb,
    fun _ => gives_two hp rfl ha hb, fun _ _ => gives_two hp rfl ha hb⟩

/-- Settles O2: each instruction takes the lanes of its operands, however many, by its lane function. -/
theorem integerResultsOfOtherForms : Obligations.IntegerResultsOfOtherForms := by
  unfold Obligations.IntegerResultsOfOtherForms
  intro s p hp h t a xs ha
  refine ⟨fun _ => gives_one hp rfl ha, fun _ => gives_one hp rfl ha, gives_one hp rfl ha, gives_one hp rfl ha, gives_one hp rfl ha,
    gives_one hp rfl ha, fun _ _ => gives_one hp rfl ha, fun _ _ _ => gives_one hp rfl ha, fun n ns hn => ?counts, fun b ys hb => ?pairs⟩
  case counts =>
    refine ⟨gives_two hp rfl ha hn, fun _ => gives_two hp rfl ha hn, gives_two hp rfl ha hn, fun l ls hl sg => ?bfx⟩
    exact gives_lanesN hp rfl (.cons ha (.cons hn (.cons hl .nil))) rfl
  case pairs =>
    refine ⟨fun c zs hc sg => ?mad, fun n l ns ls hn hl => ?bfi, fun u i is hi sg k => ?lea⟩
    case mad => exact gives_lanesN hp rfl (.cons ha (.cons hb (.cons hc .nil))) rfl
    case bfi => exact gives_lanesN hp rfl (.cons ha (.cons hb (.cons hn (.cons hl .nil)))) rfl
    case lea => exact gives_lanesN hp rfl (.cons ha (.cons hi (.cons hb .nil))) rfl

/-- Settles O3: each defines values that it reads. -/
theorem copyAndSelectResults : Obligations.CopyAndSelectResults := by
  unfold Obligations.CopyAndSelectResults
  refine ⟨fun s p hp h t a vs ha => ⟨?copyV, fun c b cs us hc hb => ?sel⟩, fun s p hp h t k vs hk => ?copyVRet⟩
  case copyV => exact gives_of_define hp (x := execCopyV t a s) rfl rfl (by simp only [ha])
  case sel => exact gives_of_define hp (x := execSel t c a b s) rfl rfl (by simp only [hc, ha, hb])
  case copyVRet => exact gives_of_define hp (x := execCopyVRet k s) rfl rfl (by simp only [hk])

/-- Settles O4: the results of the lanes, with the flags of those that raise any. -/
theorem floatResults : Obligations.FloatResults := by
  unfold Obligations.FloatResults
  intro s p hp h t a xs ha
  refine ⟨gives_one hp rfl ha, gives_one hp rfl ha, gives_one hp rfl ha, fun _ _ => gives_one hp rfl ha, fun n ns hn rm dn => ?fscale,
    fun b ys hb => ⟨fun _ => gives_two hp rfl ha hb, fun _ => gives_two hp rfl ha hb, gives_two hp rfl ha hb,
      fun _ _ => gives_two hp rfl ha hb, fun rm dn => ⟨?fadd, ?fsub, ?fmul, ?fdiv, fun c zs hc => ?fma⟩⟩⟩
  case fscale => exact givesFlags_lanesFlags hp rfl (.cons ha (.cons hn .nil)) rfl
  case fma => exact givesFlags_lanesFlags hp rfl (.cons ha (.cons hb (.cons hc .nil))) rfl
  all_goals exact givesFlags_fp2 hp rfl ha hb

/-- Settles O5: the same, with operands of conversion elements where the instruction takes such. -/
theorem conversionAndSpecialFunctionResults : Obligations.ConversionAndSpecialFunctionResults := by
  unfold Obligations.ConversionAndSpecialFunctionResults
  intro s p hp h a
  refine ⟨fun st xs ha k t rm dn => ?cvt, fun e as yss has => ?pack, fun xs ha => ⟨fun _ _ => gives_one hp rfl ha, fun _ => ?rsdenc, ?rsddec⟩,
    fun xs ha dn => ?special⟩
  case cvt => exact givesFlags_lanesC (xss := [xs]) hp rfl (by simp only [opndAllC, ha]) rfl
  case pack => exact givesFlags_lanesC hp rfl has rfl
  case rsdenc => exact givesFlags_lanesFlags hp rfl (.cons ha .nil) rfl
  case rsddec => exact givesFlags_lanesFlags hp rfl (.cons ha .nil) rfl
  case special =>
    exact ⟨givesFlags_sfu hp rfl ha, givesFlags_sfu hp rfl ha, givesFlags_sfu hp rfl ha, givesFlags_sfu hp rfl ha, givesFlags_sfu hp rfl ha,
      givesFlags_sfu hp rfl ha, givesFlags_sfu hp rfl ha, givesFlags_sfu hp rfl ha, givesFlags_sfu hp rfl ha, givesFlags_sfu hp rfl ha⟩

/-! ### Cross-lane instructions and register arrays (R90 to R95) -/

/-- An instruction that raises flags and then defines vs. -/
theorem defined_of_raise {s : State} {p : Site} {i : Instr} (hp : site? s = some p) {x : Out} {k : Site → State → State}
    {evs : List (Nat × Flags)} {vs : List Val} (hi : exec i s = x) (hx : x = portable s k) (hk : k p s = define p vs (raiseFlags p evs s)) :
    ∃ u, exec i s = .next u ∧ Defined p vs (p.side.core.view.raise p.lau.fev p.pc evs) s u :=
  ⟨_, exec_of_portable hp hi hx hk, defined_raise_define hp evs vs⟩

/-- One value in every lane is one definition. -/
theorem defineAll_eq_define (p : Site) (x : DWord) (s : State) : defineAll p x s = define p (List.replicate 128 (.bits x)) s := by
  rw [defineAll, defineBits, List.map_replicate]

/-- Settles O7: each defines its lanes from the operand that it reads, reductions and scans after the flags of their tree. -/
theorem crossLaneResults : Obligations.CrossLaneResults := by
  unfold Obligations.CrossLaneResults
  intro s p hp h
  refine ⟨fun t v k vs ks hv hk => ⟨fun m => ?shfl, ?bcast⟩, fun c cs hc => ⟨fun m => ?vote, fun hi => ?ballot⟩,
    fun t v vs hv op sg rm dn => ⟨?redg, fun x => ?scang⟩⟩
  case shfl => exact gives_of_define hp (x := execShfl m t v k s) rfl rfl (by simp only [hv, hk])
  case bcast => exact gives_of_define hp (x := execBcast t v k s) rfl rfl (by simp only [opndOne, hv, hk, Option.map_some])
  case vote => exact gives_of_define hp (x := execVote m c s) rfl rfl (by simp only [hc, defineAll_eq_define])
  case ballot => exact gives_of_define hp (x := execBallot hi c s) rfl rfl (by simp only [hc, defineAll_eq_define])
  case redg => exact defined_of_raise hp (x := execRedg op sg rm dn t v s) rfl rfl (by simp only [hv, defineAll_eq_define])
  case scang => exact defined_of_raise hp (x := execScang x op sg rm dn t v s) rfl rfl (by simp only [hv, defineBits])

/-- Settles O8: the index of every active lane is checked first; the lowest that fails is the fault's. -/
theorem registerArrayResults : Obligations.RegisterArrayResults := by
  unfold Obligations.RegisterArrayResults
  intro s p hp h e
  refine ⟨fun l v vs hv => ?afill, fun a i arrs ixs ha hi => ⟨fun hin => ?aget, fun j hout => ?agetFault,
    fun l v vs hv => ⟨fun hin => ?aset, fun j hout => ?asetFault⟩⟩⟩
  case afill => exact gives_of_define hp (x := execAfill l v e s) rfl rfl (by simp only [hv])
  case aget => exact gives_of_define hp (x := execAget a i s) rfl rfl (by simp only [ha, hi, badIndex, hin, defineBits, List.map_map, Function.comp_def])
  case agetFault => exact exec_of_portable hp (x := execAget a i s) rfl rfl (by simp only [ha, hi, badIndex, hout, takeFault])
  case aset => exact gives_of_define hp (x := execAset e l a i v s) rfl rfl (by simp only [ha, hi, hv, badIndex, hin])
  case asetFault => exact exec_of_portable hp (x := execAset e l a i v s) rfl rfl (by simp only [ha, hi, hv, badIndex, hout, takeFault])

end Sys2Proof.Machine

namespace Sys2Proof.Machine
open Sys2Proof

/-! ### Readings of w bits (R77) -/

section
variable {w : Nat}

theorem Ty.bits_le (t : Ty) : Ty.bits t ≤ 64 := by cases t <;> decide

theorem Ty.bits_pos_of_isInt {t : Ty} (h : t.isInt = true) : 0 < Ty.bits t := by
  revert h
  cases t <;> decide

theorem two_pow_le_of_le (hw : w ≤ 64) : 2 ^ w ≤ 2 ^ 64 := Nat.pow_le_pow_right (by decide) hw

theorem lowBits_toNat (hw : w ≤ 64) (x : DWord) : (lowBits w x).toNat = x.toNat % 2 ^ w := by
  have hlt : x.toNat % 2 ^ w < 2 ^ 64 := (Nat.mod_lt _ (by positivity)).trans_le (two_pow_le_of_le hw)
  rw [lowBits, BitVec.toNat_ofNat, Nat.mod_eq_of_lt hlt]

theorem wrapInt_toNat (hw : w ≤ 64) (v : Int) : ((wrapInt w v).toNat : Int) = v % 2 ^ w := by
  have hpos : (0 : Int) < 2 ^ w := by positivity
  have hlt : (v % 2 ^ w).toNat < 2 ^ 64 := by
    have hle : (2 ^ w : Int) ≤ 2 ^ 64 := by exact_mod_cast two_pow_le_of_le hw
    have := Int.emod_lt_of_pos v hpos
    omega
  rw [wrapInt, BitVec.toNat_ofNat, Nat.mod_eq_of_lt hlt]
  exact Int.toNat_of_nonneg (Int.emod_nonneg v hpos.ne')

theorem rdInt_congr {sg : Bool} {x y : DWord} (h : x.toNat % 2 ^ w = y.toNat % 2 ^ w) : rdInt sg w x = rdInt sg w y := by
  simp only [rdInt, h]

theorem rdInt_lowBits (hw : w ≤ 64) (sg : Bool) (x : DWord) : rdInt sg w (lowBits w x) = rdInt sg w x :=
  rdInt_congr (by rw [lowBits_toNat hw, Nat.mod_mod])

/-- Half of the range of w bits is the other half. -/
theorem two_pow_pred (h : 0 < w) : (2 ^ w : Int) = 2 * 2 ^ (w - 1) := by rw [← pow_succ', Nat.sub_add_cancel h]

/-- A reading lies in the range of its sign and width. -/
theorem rdInt_mem (h : 0 < w) (sg : Bool) (x : DWord) :
    (if sg then -(2 ^ (w - 1)) else 0) ≤ rdInt sg w x ∧ rdInt sg w x < if sg then 2 ^ (w - 1) else 2 ^ w := by
  have hu : ((x.toNat % 2 ^ w : Nat) : Int) < 2 ^ w := by exact_mod_cast Nat.mod_lt _ (by positivity)
  have hhalf := two_pow_pred h
  have hcast : ((2 ^ (w - 1) : Nat) : Int) = 2 ^ (w - 1) := by push_cast; rfl
  cases sg with
  | false => simp only [rdInt, Bool.false_and, Bool.false_eq_true, if_false]; omega
  | true =>
    simp only [rdInt, Bool.true_and, decide_eq_true_eq, if_true]
    split <;> omega

/-- A number in the range of a sign and a width is read back from its w bits. -/
theorem rdInt_wrapInt (h : 0 < w) (hw : w ≤ 64) {sg : Bool} {v : Int} (hlo : (if sg then -(2 ^ (w - 1)) else 0) ≤ v)
    (hhi : v < if sg then 2 ^ (w - 1) else 2 ^ w) : rdInt sg w (wrapInt w v) = v := by
  have hbits := wrapInt_toNat hw v
  have hhalf := two_pow_pred h
  have hcast : ((2 ^ (w - 1) : Nat) : Int) = 2 ^ (w - 1) := by push_cast; rfl
  have hlow : (wrapInt w v).toNat % 2 ^ w = (wrapInt w v).toNat := by
    refine Nat.mod_eq_of_lt ?_
    have := Int.emod_lt_of_pos v (show (0 : Int) < 2 ^ w by positivity)
    exact_mod_cast hbits ▸ this
  have hmod : v % 2 ^ w = v ∨ (v < 0 ∧ v % 2 ^ w = v + 2 ^ w) := by
    rcases lt_or_ge v 0 with hneg | hpos
    · refine .inr ⟨hneg, ?_⟩
      rw [← Int.add_emod_right]
      exact Int.emod_eq_of_lt (by split at hlo <;> omega) (by omega)
    · exact .inl (Int.emod_eq_of_lt hpos (by split at hhi <;> omega))
  cases sg with
  | false =>
    simp only [Bool.false_eq_true, if_false] at hlo hhi
    simp only [rdInt, Bool.false_and, Bool.false_eq_true, if_false, hlow]
    omega
  | true =>
    simp only [if_true] at hlo hhi
    simp only [rdInt, Bool.true_and, decide_eq_true_eq, hlow]
    split <;> omega

theorem rdInt_zero (sg : Bool) (w : Nat) : rdInt sg w 0 = 0 := by
  have : ¬ 2 ^ (w - 1) ≤ 0 := by simp
  simp [rdInt, this]

end

/-! ### Division (R78) -/

section
variable {w : Nat} {sg : Bool} {x y : DWord}

theorem iDivRem_of_zero (hy : rdInt sg w y = 0) : iDivRem sg w x y = (wrapInt w (2 ^ w - 1), lowBits w x) := by
  simp [iDivRem, hy]

theorem iDivRem_of_overflow (hsg : sg = true) (hx : rdInt sg w x = -(2 ^ (w - 1))) (hy : rdInt sg w y = -1) :
    iDivRem sg w x y = (lowBits w x, 0) := by
  subst hsg
  simp [iDivRem, hx, hy]

theorem iDivRem_of_divides (hy : rdInt sg w y ≠ 0) (hover : ¬(sg = true ∧ rdInt sg w x = -(2 ^ (w - 1)) ∧ rdInt sg w y = -1)) :
    iDivRem sg w x y = (wrapInt w ((rdInt sg w x).tdiv (rdInt sg w y)),
      wrapInt w (rdInt sg w x - (rdInt sg w x).tdiv (rdInt sg w y) * rdInt sg w y)) := by
  have hgo : (sg && decide (rdInt sg w x = -(2 ^ (w - 1))) && decide (rdInt sg w y = -1)) = false := by
    simpa [and_assoc] using hover
  simp only [iDivRem, if_neg hy, hgo, Bool.false_eq_true, if_false]

/-- The remainder lies between 0 and the dividend. -/
theorem tmod_between (a b : Int) : (0 ≤ a → 0 ≤ a.tmod b ∧ a.tmod b ≤ a) ∧ (a ≤ 0 → a ≤ a.tmod b ∧ a.tmod b ≤ 0) := by
  have hle : (a.tmod b).natAbs ≤ a.natAbs := by
    rw [Int.natAbs_tmod]
    exact Nat.mod_le _ _
  refine ⟨fun h => ?_, fun h => ?_⟩
  · have := Int.tmod_nonneg b h
    omega
  · have := Int.tmod_nonneg b (show 0 ≤ -a by omega)
    rw [Int.neg_tmod] at this
    omega

/-- The remainder is 0 or takes the sign of the dividend. -/
theorem rdInt_rem (h : 0 < w) (hw : w ≤ 64) :
    rdInt sg w (iDivRem sg w x y).2 = 0 ∨ (rdInt sg w (iDivRem sg w x y).2 < 0 ↔ rdInt sg w x < 0) := by
  by_cases hy : rdInt sg w y = 0
  · rw [iDivRem_of_zero hy, rdInt_lowBits hw]
    exact .inr .rfl
  by_cases hover : sg = true ∧ rdInt sg w x = -(2 ^ (w - 1)) ∧ rdInt sg w y = -1
  · obtain ⟨hsg, hx, hy⟩ := hover
    rw [iDivRem_of_overflow hsg hx hy]
    exact .inl (rdInt_zero sg w)
  · obtain ⟨hlo, hhi⟩ := rdInt_mem h sg x
    obtain ⟨hpos, hneg⟩ := tmod_between (rdInt sg w x) (rdInt sg w y)
    have hmod : rdInt sg w x - (rdInt sg w x).tdiv (rdInt sg w y) * rdInt sg w y = (rdInt sg w x).tmod (rdInt sg w y) := by
      rw [Int.tmod_def, mul_comm]
    have hzero : (if sg then -(2 ^ (w - 1)) else 0 : Int) ≤ 0 := by split <;> simp
    have hmax : (0 : Int) < if sg then 2 ^ (w - 1) else 2 ^ w := by split <;> positivity
    rw [iDivRem_of_divides hy hover, hmod]
    dsimp only
    rcases le_total 0 (rdInt sg w x) with hx | hx
    · obtain ⟨h0, h1⟩ := hpos hx
      rw [rdInt_wrapInt h hw (by omega) (by omega)]
      omega
    · obtain ⟨h0, h1⟩ := hneg hx
      rw [rdInt_wrapInt h hw (by omega) (by omega)]
      omega

end

/-- Settles O52, by the rule for a zero divisor, for an overflow, and for every other pair. -/
theorem divisionAndRemainder : Obligations.DivisionAndRemainder := by
  unfold Obligations.DivisionAndRemainder
  intro s p hp h t sg a b xs ys ht ha hb w rd
  have hw : w ≤ 64 := Ty.bits_le t
  have hpos : 0 < w := Ty.bits_pos_of_isInt ht
  have hrd : ∀ x, rd x = rdInt sg w x := fun x => by simp [rd, rdInt]
  refine ⟨fun x y => (iDivRem sg w x y).1, fun x y => (iDivRem sg w x y).2, gives_two hp rfl ha hb, gives_two hp rfl ha hb, fun x y => ?_⟩
  simp only [hrd]
  refine ⟨fun hy => ?zero, fun hsg hx hy => ?overflow, fun hy hover => ?divides, rdInt_rem hpos hw⟩
  case zero =>
    rw [iDivRem_of_zero hy]
    refine ⟨?_, lowBits_toNat hw x⟩
    have hall := wrapInt_toNat hw (2 ^ w - 1)
    rw [Int.emod_eq_of_lt (by have : (0 : Int) < 2 ^ w := by positivity
                              omega) (by omega)] at hall
    have hone : 1 ≤ 2 ^ w := Nat.one_le_two_pow
    have hcast : ((2 ^ w : Nat) : Int) = 2 ^ w := by push_cast; rfl
    show (wrapInt w (2 ^ w - 1)).toNat = 2 ^ w - 1
    omega
  case overflow =>
    rw [iDivRem_of_overflow hsg hx hy]
    exact ⟨lowBits_toNat hw x, rfl⟩
  case divides =>
    rw [iDivRem_of_divides hy hover]
    exact ⟨wrapInt_toNat hw _, wrapInt_toNat hw _⟩

/-! ### Bit fields (R79) -/

section
variable {w pos len : Nat}

theorem iBfx_of_empty (sg : Bool) (x : DWord) (h : w ≤ pos ∨ len = 0) : iBfx sg w x pos len = 0 := by
  simp [iBfx, h]

theorem iBfx_of_field (sg : Bool) (x : DWord) (hpos : pos < w) (hlen : len ≠ 0) :
    iBfx sg w x pos len = wrapInt w (rdInt sg (min len (w - pos)) (BitVec.ofNat 64 (x.toNat / 2 ^ pos))) := by
  have hgo : ¬(w ≤ pos ∨ len = 0) := by omega
  simp [iBfx, hgo]

theorem lowBits_getLsbD (hw : w ≤ 64) (x : DWord) (j : Nat) : (lowBits w x).getLsbD j = if w ≤ j then false else x.getLsbD j := by
  rw [BitVec.getLsbD, lowBits_toNat hw, Nat.testBit_mod_two_pow, BitVec.getLsbD]
  by_cases h : w ≤ j
  · simp [h, Nat.not_lt.mpr h]
  · simp [h, Nat.lt_of_not_le h]

/-- The mask of k bits from bit pos. -/
theorem fieldMask_getLsbD (k : Nat) {j : Nat} (hj : j < 64) :
    (BitVec.ofNat 64 ((2 ^ k - 1) * 2 ^ pos)).getLsbD j = decide (pos ≤ j ∧ j < pos + k) := by
  rw [BitVec.getLsbD_ofNat, Nat.testBit_mul_two_pow, Nat.testBit_two_pow_sub_one]
  by_cases hp : pos ≤ j
  · have : j - pos < k ↔ j < pos + k := by omega
    simp [hj, hp, this]
  · simp [hp]

theorem iBfi_getLsbD (hw : w ≤ 64) (x y : DWord) (j : Nat) : (iBfi w x y pos len).getLsbD j =
    if w ≤ j then false
    else if pos < w ∧ len ≠ 0 ∧ pos ≤ j ∧ j < pos + min len (w - pos) then y.getLsbD (j - pos)
    else x.getLsbD j := by
  by_cases hempty : w ≤ pos ∨ len = 0
  · have hno : ¬(pos < w ∧ len ≠ 0 ∧ pos ≤ j ∧ j < pos + min len (w - pos)) := by omega
    simp only [iBfi, ge_iff_le, Bool.or_eq_true, decide_eq_true_eq, if_pos hempty, lowBits_getLsbD hw, if_neg hno]
  · have hfield : (pos < w ∧ len ≠ 0 ∧ pos ≤ j ∧ j < pos + min len (w - pos)) ↔ (pos ≤ j ∧ j < pos + min len (w - pos)) := by omega
    simp only [iBfi, ge_iff_le, Bool.or_eq_true, decide_eq_true_eq, if_neg hempty, lowBits_getLsbD hw, hfield]
    by_cases hj : w ≤ j
    · simp only [if_pos hj]
    · have hj64 : j < 64 := by omega
      simp only [if_neg hj, BitVec.getLsbD_or, BitVec.getLsbD_and, BitVec.getLsbD_not, BitVec.getLsbD_shiftLeft, fieldMask_getLsbD _ hj64]
      by_cases hin : pos ≤ j ∧ j < pos + min len (w - pos)
      · simp [hin, hj64]
      · simp [hin, hj64]

end

/-- Settles O53: the field that `bfx` gives, and `bfi` bit by bit. -/
theorem bitFieldRules : Obligations.BitFieldRules := by
  unfold Obligations.BitFieldRules
  intro s p hp h t a n l xs ns ls ht ha hn hl w lanes
  have hw : w ≤ 64 := Ty.bits_le t
  refine ⟨fun sg => ⟨iBfx sg w, gives_lanesN hp rfl (.cons ha (.cons hn (.cons hl .nil))) rfl, fun x pos len =>
      ⟨iBfx_of_empty sg x, fun hpos hlen => ?field⟩⟩,
    fun b ys hb => ⟨iBfi w, gives_lanesN hp rfl (.cons ha (.cons hb (.cons hn (.cons hl .nil)))) rfl, fun x y pos len j => iBfi_getLsbD hw x y j⟩⟩
  have hx : (BitVec.ofNat 64 (x.toNat / 2 ^ pos)).toNat = x.toNat / 2 ^ pos := by
    rw [BitVec.toNat_ofNat]
    exact Nat.mod_eq_of_lt ((Nat.div_le_self _ _).trans_lt x.isLt)
  rw [iBfx_of_field sg x hpos hlen, wrapInt_toNat hw]
  simp only [rdInt, hx, Bool.and_eq_true, decide_eq_true_eq]

end Sys2Proof.Machine

namespace Sys2Proof.Machine
open Sys2Proof

/-! ### Minimum and maximum (R50, R52, R58, R84) -/

/-- A format with infinities, whose exponent and fraction stand below its sign in at most 64 bits. -/
structure Fmt.Standard (f : Fmt) : Prop where
  inf : f.noInf = false
  frac : 1 ≤ f.p
  expo : f.p < f.w
  width : f.w ≤ 64

/-- The bits of a pattern below its sign. -/
def Fmt.mag (f : Fmt) (x : DWord) : Nat := x.toNat % 2 ^ (f.w - 1)

/-- The magnitude bits of an infinity. -/
def Fmt.top (f : Fmt) : Nat := f.ones * 2 ^ (f.p - 1)

/-- The exponent of magnitude bits above that of the subnormals. -/
def Fmt.level (f : Fmt) (m : Nat) : Nat := m / 2 ^ (f.p - 1) - 1

/-- The significand of magnitude bits: what the level leaves. -/
def Fmt.sig (f : Fmt) (m : Nat) : Nat := m - f.level m * 2 ^ (f.p - 1)

/-- The exact value of a pattern as a number in the order of magnitudes: both zeros are 0. -/
def Fmt.signed (f : Fmt) (x : DWord) : Int := if f.isNeg x then -(f.mag x : Int) else (f.mag x : Int)

section
variable {f : Fmt} {x y : DWord}

theorem two_pow_sign_split (hf : f.Standard) : 2 ^ f.w = 2 * 2 ^ (f.w - 1) := by
  have := hf.expo
  rw [← pow_succ', Nat.sub_add_cancel (by omega)]

theorem Fmt.isNeg_eq (hf : f.Standard) (x : DWord) : f.isNeg x = decide (2 ^ (f.w - 1) ≤ x.toNat % 2 ^ f.w) := by
  have hmod : x.toNat % 2 ^ f.w / 2 ^ (f.w - 1) = x.toNat / 2 ^ (f.w - 1) % 2 := by
    rw [two_pow_sign_split hf, mul_comm, Nat.mod_mul_right_div_self]
  have hlt : x.toNat % 2 ^ f.w < 2 * 2 ^ (f.w - 1) := two_pow_sign_split hf ▸ Nat.mod_lt _ (by positivity)
  have hdiv : x.toNat / 2 ^ (f.w - 1) % 2 = 1 ↔ 2 ^ (f.w - 1) ≤ x.toNat % 2 ^ f.w := by
    rw [← hmod]
    refine ⟨fun h => ?_, fun h => ?_⟩
    · by_contra hlow
      rw [Nat.div_eq_of_lt (not_le.mp hlow)] at h
      exact absurd h (by decide)
    · exact (Nat.div_eq_iff (by positivity)).mpr ⟨by omega, by omega⟩
  rw [Fmt.isNeg, BitVec.getLsbD, Nat.testBit_eq_decide_div_mod_eq]
  exact decide_eq_decide.mpr hdiv

theorem Fmt.mag_of_low (f : Fmt) (x : DWord) : x.toNat % 2 ^ f.w % 2 ^ (f.w - 1) = f.mag x := by
  rw [Fmt.mag]
  exact Nat.mod_mod_of_dvd _ (pow_dvd_pow 2 (Nat.sub_le _ _))

/-- The low bits of a pattern are its magnitude under its sign. -/
theorem Fmt.low_eq (hf : f.Standard) (x : DWord) : x.toNat % 2 ^ f.w = f.mag x + if f.isNeg x then 2 ^ (f.w - 1) else 0 := by
  have hlt : x.toNat % 2 ^ f.w < 2 * 2 ^ (f.w - 1) := two_pow_sign_split hf ▸ Nat.mod_lt _ (by positivity)
  rw [← Fmt.mag_of_low f, Fmt.isNeg_eq hf]
  by_cases h : 2 ^ (f.w - 1) ≤ x.toNat % 2 ^ f.w
  · rw [Nat.mod_eq_sub_mod h, Nat.mod_eq_of_lt (a := _ - _) (by omega)]
    simp only [h, decide_true, if_true]
    omega
  · rw [Nat.mod_eq_of_lt (not_le.mp h)]
    simp [h]

theorem Fmt.top_add (hf : f.Standard) : f.top + 2 ^ (f.p - 1) = 2 ^ (f.w - 1) := by
  have hp := hf.frac
  have he := hf.expo
  have hone : 1 ≤ 2 ^ (f.w - f.p) := Nat.one_le_two_pow
  have hpow : 2 ^ (f.w - 1) = 2 ^ (f.w - f.p) * 2 ^ (f.p - 1) := by rw [← pow_add]; congr 1; omega
  rw [Fmt.top, Fmt.ones, hpow, Nat.sub_mul, Nat.one_mul]
  exact Nat.sub_add_cancel (Nat.le_mul_of_pos_left _ hone)

theorem Fmt.mag_lt (f : Fmt) (x : DWord) : f.mag x < 2 ^ (f.w - 1) := Nat.mod_lt _ (by positivity)

/-- What a pattern decodes to, by its magnitude bits: a number below the infinity's, the infinity, a NaN above. -/
theorem Fmt.decode_eq (hf : f.Standard) (x : DWord) : f.decode x =
    if f.mag x < f.top then .fin (f.isNeg x) (f.sig (f.mag x)) (f.level (f.mag x) + f.emin - (f.p - 1))
    else if f.mag x = f.top then .inf (f.isNeg x) else .nan := by
  have hpow : 0 < 2 ^ (f.p - 1) := by positivity
  have hdm := Nat.div_add_mod (f.mag x) (2 ^ (f.p - 1))
  have hfr := Nat.mod_lt (f.mag x) hpow
  have hmag := Fmt.mag_lt f x
  have htop := Fmt.top_add hf
  have hex : f.mag x / 2 ^ (f.p - 1) ≤ f.ones := by
    refine Nat.lt_succ_iff.mp ((Nat.div_lt_iff_lt_mul hpow).mpr ?_)
    rw [Nat.succ_mul]
    exact htop ▸ hmag
  have hlow : f.mag x < f.top ↔ f.mag x / 2 ^ (f.p - 1) < f.ones := (Nat.div_lt_iff_lt_mul hpow).symm
  unfold Fmt.decode
  simp only [Fmt.mag_of_low f, ← Fmt.isNeg_eq hf, hf.inf, Bool.false_and, Bool.false_eq_true, if_false, Bool.not_false, Bool.true_and,
    beq_iff_eq]
  by_cases hones : f.mag x / 2 ^ (f.p - 1) = f.ones
  · have heq : f.mag x = f.top ↔ f.mag x % 2 ^ (f.p - 1) = 0 := by
      rw [hones, mul_comm] at hdm
      rw [Fmt.top]
      omega
    have hhigh : ¬f.mag x < f.top := by rw [hlow, hones]; exact lt_irrefl _
    rw [if_pos hones, if_neg hhigh]
    simp only [heq]
  · rw [if_neg hones, if_pos (hlow.mpr (lt_of_le_of_ne hex hones))]
    simp only [Fmt.sig, Fmt.level, Fmt.emin]
    by_cases hzero : f.mag x / 2 ^ (f.p - 1) = 0
    · rw [if_pos hzero, hzero]
      rw [hzero] at hdm
      simp only [FV.fin.injEq, true_and]
      omega
    · rw [if_neg hzero]
      have hsub := Nat.sub_add_cancel (Nat.pos_of_ne_zero hzero)
      have hmul : f.mag x / 2 ^ (f.p - 1) * 2 ^ (f.p - 1) = (f.mag x / 2 ^ (f.p - 1) - 1) * 2 ^ (f.p - 1) + 2 ^ (f.p - 1) := by
        rw [← Nat.succ_mul, Nat.succ_eq_add_one, hsub]
      rw [mul_comm] at hdm
      simp only [FV.fin.injEq, true_and]
      omega

/-- Magnitudes are their significands at their levels, and a level above the lowest has a full significand. -/
theorem Fmt.sig_spec (f : Fmt) (m : Nat) : f.sig m + f.level m * 2 ^ (f.p - 1) = m ∧ f.sig m < 2 * 2 ^ (f.p - 1) ∧
    (0 < f.level m → 2 ^ (f.p - 1) ≤ f.sig m) := by
  have hpow : 0 < 2 ^ (f.p - 1) := by positivity
  have hdm := Nat.div_add_mod m (2 ^ (f.p - 1))
  have hfr := Nat.mod_lt m hpow
  rw [mul_comm] at hdm
  simp only [Fmt.sig, Fmt.level]
  rcases Nat.eq_zero_or_pos (m / 2 ^ (f.p - 1)) with hzero | hpos
  · rw [hzero] at hdm ⊢
    omega
  · have hmul : m / 2 ^ (f.p - 1) * 2 ^ (f.p - 1) = (m / 2 ^ (f.p - 1) - 1) * 2 ^ (f.p - 1) + 2 ^ (f.p - 1) := by
      rw [← Nat.succ_mul, Nat.succ_eq_add_one, Nat.sub_add_cancel hpos]
    omega

/-- The scaled significand of a lower level is less. -/
theorem Fmt.sig_lt_of_level_lt (f : Fmt) {m n k : Nat} (h : f.level m < f.level n) (hk : k ≤ f.level m) :
    f.sig m * 2 ^ (f.level m - k) < f.sig n * 2 ^ (f.level n - k) := by
  obtain ⟨-, hm, -⟩ := f.sig_spec m
  obtain ⟨-, -, hn⟩ := f.sig_spec n
  have hpow : 2 * 2 ^ (f.level m - k) ≤ 2 ^ (f.level n - k) := by
    rw [← pow_succ']
    exact Nat.pow_le_pow_right (by decide) (by omega)
  calc f.sig m * 2 ^ (f.level m - k) < 2 * 2 ^ (f.p - 1) * 2 ^ (f.level m - k) := Nat.mul_lt_mul_of_pos_right hm (by positivity)
    _ = 2 ^ (f.p - 1) * (2 * 2 ^ (f.level m - k)) := by ring
    _ ≤ f.sig n * 2 ^ (f.level n - k) := Nat.mul_le_mul (hn (by omega)) hpow

/-- A lower level is a lower magnitude. -/
theorem Fmt.lt_of_level_lt (f : Fmt) {m n : Nat} (h : f.level m < f.level n) : m < n := by
  by_contra hle
  have := Nat.div_le_div_right (c := 2 ^ (f.p - 1)) (not_lt.mp hle)
  simp only [Fmt.level] at h
  omega

/-- Magnitudes stand in the order of their values, brought to one exponent. -/
theorem Fmt.value_lt_iff (f : Fmt) {m n k : Nat} (hm : k ≤ f.level m) (hn : k ≤ f.level n) :
    f.sig m * 2 ^ (f.level m - k) < f.sig n * 2 ^ (f.level n - k) ↔ m < n := by
  obtain ⟨hm', -, -⟩ := f.sig_spec m
  obtain ⟨hn', -, -⟩ := f.sig_spec n
  rcases lt_trichotomy (f.level m) (f.level n) with h | h | h
  · exact iff_of_true (f.sig_lt_of_level_lt h hm) (f.lt_of_level_lt h)
  · rw [h, Nat.mul_lt_mul_right (by positivity)]
    rw [h] at hm'
    omega
  · exact iff_of_false (f.sig_lt_of_level_lt h hn).le.not_gt (f.lt_of_level_lt h).le.not_gt

theorem Fmt.sig_eq_zero_iff (f : Fmt) (m : Nat) : f.sig m = 0 ↔ m = 0 := by
  obtain ⟨hm, -, hfull⟩ := f.sig_spec m
  have hpow : 0 < 2 ^ (f.p - 1) := by positivity
  refine ⟨fun h => ?_, fun h => by simp [Fmt.sig, h]⟩
  have hlevel : f.level m = 0 := by
    by_contra hne
    have := hfull (Nat.pos_of_ne_zero hne)
    omega
  rw [hlevel] at hm
  omega

/-- The order of two signed values is that of their signed magnitudes, where the magnitudes stand in the order of the values. -/
theorem signed_lt_iff {a b : Bool} {u v m n : Nat} (hlt : u < v ↔ m < n) (hgt : v < u ↔ n < m) (hu : u = 0 ↔ m = 0) (hv : v = 0 ↔ n = 0) :
    (if a then -(u : Int) else u) < (if b then -(v : Int) else v) ↔ (if a then -(m : Int) else m) < (if b then -(n : Int) else n) := by
  cases a <;> cases b <;> simp only [Bool.false_eq_true, if_false, if_true] <;> omega

/-- The order of two numbers, brought to the exponent of the lower one. -/
theorem FV.lt_fin (a b : Bool) (m n i j : Nat) (c d : Int) : FV.lt (.fin a m (i + c - d)) (.fin b n (j + c - d)) =
    decide ((if a then -((m * 2 ^ (i - min i j) : Nat) : Int) else (m * 2 ^ (i - min i j) : Nat)) <
      if b then -((n * 2 ^ (j - min i j) : Nat) : Int) else (n * 2 ^ (j - min i j) : Nat)) := by
  have hk : (if (i : Int) + c - d < j + c - d then (i : Int) + c - d else j + c - d) = (min i j : Nat) + c - d := by split <;> omega
  have hi : ((i : Int) + c - d - ((min i j : Nat) + c - d)).toNat = i - min i j := by omega
  have hj : ((j : Int) + c - d - ((min i j : Nat) + c - d)).toNat = j - min i j := by omega
  simp only [FV.lt, hk, hi, hj]
  push_cast
  rfl

/-- The order of two patterns that are no NaN is that of their signed magnitudes. -/
theorem FV.lt_decode (hf : f.Standard) (hx : f.mag x ≤ f.top) (hy : f.mag y ≤ f.top) :
    FV.lt (f.decode x) (f.decode y) = decide (f.signed x < f.signed y) := by
  rw [Fmt.decode_eq hf x, Fmt.decode_eq hf y]
  have htop := Fmt.top_add hf
  have hpos : 0 < f.top := by
    have he := hf.expo
    have : 2 ≤ 2 ^ (f.w - f.p) := Nat.le_self_pow (by omega) 2
    exact Nat.mul_pos (by simp only [Fmt.ones]; omega) (by positivity)
  rcases lt_or_eq_of_le hx with hxl | hxe <;> rcases lt_or_eq_of_le hy with hyl | hye
  · rw [if_pos hxl, if_pos hyl, FV.lt_fin]
    have hmin := Nat.min_le_left (f.level (f.mag x)) (f.level (f.mag y))
    have hmin' := Nat.min_le_right (f.level (f.mag x)) (f.level (f.mag y))
    exact decide_eq_decide.mpr (signed_lt_iff (f.value_lt_iff hmin hmin') (f.value_lt_iff hmin' hmin)
      (by simp [f.sig_eq_zero_iff]) (by simp [f.sig_eq_zero_iff]))
  · rw [if_pos hxl, if_neg hye.not_lt, if_pos hye]
    rcases hnx : f.isNeg x <;> rcases hny : f.isNeg y <;> simp [FV.lt, Fmt.signed, hnx, hny] <;> omega
  · rw [if_neg hxe.not_lt, if_pos hxe, if_pos hyl]
    rcases hnx : f.isNeg x <;> rcases hny : f.isNeg y <;> simp [FV.lt, Fmt.signed, hnx, hny] <;> omega
  · rw [if_neg hxe.not_lt, if_pos hxe, if_neg hye.not_lt, if_pos hye]
    rcases hnx : f.isNeg x <;> rcases hny : f.isNeg y <;> simp [FV.lt, Fmt.signed, hnx, hny] <;> omega

theorem Fmt.decode_eq_nan_iff (hf : f.Standard) (x : DWord) : f.decode x = .nan ↔ f.top < f.mag x := by
  rw [Fmt.decode_eq hf]
  split
  · simp; omega
  · split
    · simp; omega
    · simp; omega

/-- The order of R84: −0 below +0. -/
def Fmt.order (f : Fmt) (x : DWord) : Int := if f.isNeg x then -1 - (f.mag x : Int) else (f.mag x : Int)

/-- The low bits of a pattern are told by its place in the order. -/
theorem Fmt.low_eq_of_order_eq (hf : f.Standard) (h : f.order x = f.order y) : x.toNat % 2 ^ f.w = y.toNat % 2 ^ f.w := by
  rw [Fmt.low_eq hf, Fmt.low_eq hf]
  unfold Fmt.order at h
  rcases hnx : f.isNeg x <;> rcases hny : f.isNeg y <;> simp only [hnx, hny, Bool.false_eq_true, if_false, if_true] at h ⊢ <;> omega

/-- The first of two patterns that are no NaN is the lower one where it is less, or equal and negative; else the other is no higher. -/
theorem Fmt.order_of_lower (hf : f.Standard) (hx : f.mag x ≤ f.top) (hy : f.mag y ≤ f.top) :
    if (FV.lt (f.decode x) (f.decode y) || (FV.eqv (f.decode x) (f.decode y) && f.isNeg x)) = true
    then f.order x ≤ f.order y else f.order y ≤ f.order x := by
  have hxn : f.decode x ≠ .nan := mt (f.decode_eq_nan_iff hf x).mp hx.not_gt
  have hyn : f.decode y ≠ .nan := mt (f.decode_eq_nan_iff hf y).mp hy.not_gt
  have heqv : FV.eqv (f.decode x) (f.decode y) = (!FV.lt (f.decode x) (f.decode y) && !FV.lt (f.decode y) (f.decode x)) := by
    unfold FV.eqv
    split <;> simp_all
  rw [heqv, FV.lt_decode hf hx hy, FV.lt_decode hf hy hx]
  unfold Fmt.order Fmt.signed
  rcases hnx : f.isNeg x <;> rcases hny : f.isNeg y <;> simp only [Bool.false_eq_true, if_false, if_true] <;> split <;> simp_all <;> omega

theorem fpMinMax_of_both_nan {isMax h : Bool} (hx : f.decode (f.flush h x) = .nan) (hy : f.decode (f.flush h y) = .nan) :
    fpMinMax isMax f h x y = BitVec.ofNat 64 f.nan := by
  simp only [fpMinMax, hx, hy]

theorem fpMinMax_of_left_nan {isMax h : Bool} (hx : f.decode (f.flush h x) = .nan) (hy : f.decode (f.flush h y) ≠ .nan) :
    fpMinMax isMax f h x y = f.flush h y := by
  simp only [fpMinMax]
  split <;> simp_all

theorem fpMinMax_of_right_nan {isMax h : Bool} (hx : f.decode (f.flush h x) ≠ .nan) (hy : f.decode (f.flush h y) = .nan) :
    fpMinMax isMax f h x y = f.flush h x := by
  simp only [fpMinMax]
  split <;> simp_all

/-- Of two numbers, the minimum is one that the order puts no higher than the other, which is the maximum. -/
theorem fpMinMax_of_numbers (hf : f.Standard) {h : Bool} (hx : f.decode (f.flush h x) ≠ .nan) (hy : f.decode (f.flush h y) ≠ .nan) :
    ∃ first : Bool, (if first then f.order (f.flush h x) ≤ f.order (f.flush h y) else f.order (f.flush h y) ≤ f.order (f.flush h x)) ∧
      fpMinMax false f h x y = (if first then f.flush h x else f.flush h y) ∧
      fpMinMax true f h x y = (if first then f.flush h y else f.flush h x) := by
  refine ⟨_, Fmt.order_of_lower hf (not_lt.mp (mt (f.decode_eq_nan_iff hf _).mpr hx)) (not_lt.mp (mt (f.decode_eq_nan_iff hf _).mpr hy)),
    ?_, ?_⟩
  · simp only [fpMinMax]
    split <;> simp_all
  · simp only [fpMinMax]
    split
    case h_4 =>
      cases (FV.lt _ _ || FV.eqv _ _ && f.isNeg _) <;> rfl
    all_goals simp_all

/-- A subnormal input is a zero of its sign unless honoured (R58). -/
theorem Fmt.flush_eq (hf : f.Standard) (h : Bool) (x : DWord) : f.flush h x =
    if h = false ∧ 0 < f.mag x ∧ f.mag x < 2 ^ (f.p - 1) then BitVec.ofNat 64 (x.toNat % 2 ^ f.w - f.mag x) else x := by
  have hsub : (!h && f.isSub x) = true ↔ h = false ∧ 0 < f.mag x ∧ f.mag x < 2 ^ (f.p - 1) := by
    have hdiv : f.mag x / 2 ^ (f.p - 1) = 0 ↔ f.mag x < 2 ^ (f.p - 1) := Nat.div_eq_zero_iff_lt (by positivity)
    have hisSub : f.isSub x = (f.mag x / 2 ^ (f.p - 1) == 0 && f.mag x != 0) := rfl
    simp only [hisSub, Bool.and_eq_true, Bool.not_eq_true', beq_iff_eq, bne_iff_ne, hdiv, Nat.pos_iff_ne_zero, and_comm (a := f.mag x ≠ 0)]
  simp only [Fmt.flush, hsub, Fmt.low_eq hf, Fmt.zero, Nat.add_sub_cancel_left]

/-- What `fmin` and `fmax` give, by the magnitudes and the order of their inputs. -/
theorem fpMinMax_spec (hf : f.Standard) (h : Bool) (x y : DWord) :
    let mn := fpMinMax false f h x y
    let mx := fpMinMax true f h x y
    let x' := f.flush h x
    let y' := f.flush h y
    (f.top < f.mag x' → f.top < f.mag y' → mn = BitVec.ofNat 64 f.nan ∧ mx = BitVec.ofNat 64 f.nan) ∧
    (f.top < f.mag x' → ¬f.top < f.mag y' → mn = y' ∧ mx = y') ∧
    (¬f.top < f.mag x' → f.top < f.mag y' → mn = x' ∧ mx = x') ∧
    (¬f.top < f.mag x' → ¬f.top < f.mag y' →
      mn.toNat % 2 ^ f.w = (if f.order x' ≤ f.order y' then x'.toNat % 2 ^ f.w else y'.toNat % 2 ^ f.w) ∧
      mx.toNat % 2 ^ f.w = (if f.order x' ≤ f.order y' then y'.toNat % 2 ^ f.w else x'.toNat % 2 ^ f.w)) := by
  intro mn mx x' y'
  simp only [← Fmt.decode_eq_nan_iff hf]
  refine ⟨fun hx hy => ⟨fpMinMax_of_both_nan hx hy, fpMinMax_of_both_nan hx hy⟩,
    fun hx hy => ⟨fpMinMax_of_left_nan hx hy, fpMinMax_of_left_nan hx hy⟩,
    fun hx hy => ⟨fpMinMax_of_right_nan hx hy, fpMinMax_of_right_nan hx hy⟩, fun hx hy => ?_⟩
  obtain ⟨first, horder, hmn, hmx⟩ := fpMinMax_of_numbers hf hx hy
  have hlow := Fmt.low_eq_of_order_eq (x := x') (y := y') hf
  simp only [mn, mx, hmn, hmx]
  cases first with
  | true => simp_all [x', y']
  | false =>
    rcases horder.lt_or_eq with hlt | heq
    · simp_all [x', y', hlt.not_ge]
    · simp_all [x', y']

end

/-- Settles O54: in each format, by the magnitudes and the order of the inputs. -/
theorem minimumAndMaximum : Obligations.MinimumAndMaximum := by
  unfold Obligations.MinimumAndMaximum
  intro s p hp h t dn a b xs ys ha hb fb quiet hfmt
  refine ⟨fpMinMax false (Ty.fmt t) dn, fpMinMax true (Ty.fmt t) dn, gives_two hp rfl ha hb, gives_two hp rfl ha hb, fun x y => ?_⟩
  have hf : (Ty.fmt t).Standard := by rcases hfmt with ⟨rfl, -⟩ | ⟨rfl, -⟩ | ⟨rfl, -⟩ <;> exact ⟨rfl, by decide, by decide, by decide⟩
  have hw : Ty.bits t = (Ty.fmt t).w := by rcases hfmt with ⟨rfl, -⟩ | ⟨rfl, -⟩ | ⟨rfl, -⟩ <;> rfl
  have hfb : fb = (Ty.fmt t).p - 1 := by rcases hfmt with ⟨rfl, rfl, -⟩ | ⟨rfl, rfl, -⟩ | ⟨rfl, rfl, -⟩ <;> rfl
  have hquiet : (BitVec.ofNat 64 (Ty.fmt t).nan).toNat = quiet := by
    rcases hfmt with ⟨rfl, -, rfl⟩ | ⟨rfl, -, rfl⟩ | ⟨rfl, -, rfl⟩ <;> rfl
  have htop : 2 ^ ((Ty.fmt t).w - 1) - 2 ^ ((Ty.fmt t).p - 1) = (Ty.fmt t).top := by rw [← Fmt.top_add hf, Nat.add_sub_cancel]
  obtain ⟨hboth, hleft, hright, hnumbers⟩ := fpMinMax_spec hf dn x y
  simp only [hw, hfb, htop]
  simp only [Fmt.flush_eq hf] at hboth hleft hright hnumbers
  refine ⟨fun hx hy => ?_, hleft, hright, hnumbers⟩
  obtain ⟨hmn, hmx⟩ := hboth hx hy
  rw [hmn, hmx]
  exact ⟨hquiet, hquiet⟩

end Sys2Proof.Machine

namespace Sys2Proof.Machine
open Sys2Proof

/-! ### Masks of lanes (R14) -/

/-- The bits below n that satisfy q, as a number: below 2 ^ n, with exactly those bits. -/
theorem foldl_bits_testBit (q : Nat → Bool) (n : Nat) :
    (List.range n).foldl (fun a i => if q i then a + 2 ^ i else a) 0 < 2 ^ n ∧
    ∀ i, ((List.range n).foldl (fun a i => if q i then a + 2 ^ i else a) 0).testBit i = (decide (i < n) && q i) := by
  induction n with
  | zero => simp
  | succ n ih =>
    obtain ⟨hlt, hbits⟩ := ih
    simp only [List.range_succ, List.foldl_append, List.foldl_cons, List.foldl_nil]
    generalize (List.range n).foldl (fun a i => if q i then a + 2 ^ i else a) 0 = a at hlt hbits
    by_cases hq : q n = true
    · rw [if_pos hq]
      have hsum : a + 2 ^ n < 2 ^ (n + 1) := by rw [Nat.pow_succ]; omega
      refine ⟨hsum, fun i => ?_⟩
      rcases Nat.lt_trichotomy i n with hi | rfl | hi
      · rw [Nat.add_comm, Nat.testBit_two_pow_add_gt hi, hbits]
        simp [hi, Nat.lt_succ_of_lt hi]
      · rw [Nat.add_comm, Nat.testBit_two_pow_add_eq, hbits]
        simp [hq]
      · rw [Nat.testBit_lt_two_pow (Nat.lt_of_lt_of_le hsum (Nat.pow_le_pow_right (by omega) hi))]
        simp [show ¬i < n + 1 by omega]
    · rw [if_neg hq]
      refine ⟨Nat.lt_of_lt_of_le hlt (Nat.pow_le_pow_right (by omega) (by omega)), fun i => ?_⟩
      rw [hbits]
      rcases Nat.lt_trichotomy i n with hi | rfl | hi
      · simp [hi, Nat.lt_succ_of_lt hi]
      · simp [Bool.eq_false_iff.mpr hq]
      · simp [show ¬i < n + 1 by omega, show ¬i < n by omega]

/-- The mask of the lanes that satisfy q holds exactly them. -/
theorem maskOf_getLsbD (q : Nat → Bool) {i : Nat} (hi : i < 128) : (maskOf q).getLsbD i = q i := by
  rw [maskOf, BitVec.getLsbD_ofNat, (foldl_bits_testBit q 128).2]
  simp [hi]

/-- The lanes picked by f are the active ones whose element satisfies it. -/
theorem pick_getLsbD (p : Site) (xs : List DWord) (f : DWord → Bool) {i : Nat} (hi : i < 128) :
    (pick p xs f).getLsbD i = (p.mask.getLsbD i && f (nth 0 xs i)) := by
  simp only [pick, BitVec.getLsbD_and, maskOf_getLsbD _ hi]

/-! ### Atomics (R257, R258) -/

/-- Settles O12: the access passes its checks, and what is done then is the atomic itself. -/
theorem atomicResults : Obligations.AtomicResults := by
  unfold Obligations.AtomicResults
  intro s p hp h k sc t ds m v as vs accs ha hv hpass
  refine ⟨fun op => ?atom, fun c cs hc => ?cas⟩
  case atom =>
    refine exec_of_portable hp (x := execAtom op k sc t ds m v s) rfl rfl ?_
    simp only [ha, hv, atomInstr]
    exact access_of_passes hpass
  case cas =>
    refine exec_of_portable hp (x := execCas k sc t ds m c v s) rfl rfl ?_
    simp only [ha, hc, hv, atomInstr]
    exact access_of_passes hpass

/-! ### Traps and asserts (R75, R397) -/

/-- Settles O18: both are the fault of the side at its own address. -/
theorem trapAndAssertFaults : Obligations.TrapAndAssertFaults := by
  unfold Obligations.TrapAndAssertFaults
  intro s p hp h code
  refine ⟨exec_of_portable hp (x := execTrap code s) rfl rfl rfl, fun c cs i hc hfind => ?_⟩
  refine exec_of_portable hp (x := execAssert c code s) rfl rfl ?_
  simp only [hc, hfind, takeFault]

/-! ### Going on and sleeping (R69, R260, R316, R318) -/

section
variable {s : State} {p : Site} {i : Instr}

/-- An instruction whose meaning is to advance has gone on. -/
theorem goes_of_advance (hp : site? s = some p) {x : Out} {k : Site → State → State} (hi : exec i s = x) (hx : x = portable s k)
    (hk : k p s = advance p s) : ∃ t, exec i s = .next t ∧ Advanced p p.side.core.view s t :=
  ⟨_, exec_of_portable hp hi hx hk, advanced_advance hp⟩

/-- Changing the view and going on changes the view and the pc. -/
theorem advanced_advance_view (hp : site? s = some p) (f : View → View) :
    Advanced p (f p.side.core.view) s (advance p (s.updCore p.g p.sd (fun c => { c with view := f c.view }))) := by
  obtain ⟨-, hg, hs, ⟨r, hr⟩, -, -⟩ := site?_some hp
  refine ⟨(onlySides_updSide _ _ _ _).trans (onlySides_updSide _ _ _ _), ?_⟩
  rw [advance, State.updCore, State.updCore, updSide_groups _ _ _ _ _ (updSide_groups _ _ _ _ _ hg)]
  simp only [modifyAt_modifyAt]
  congr 2
  apply modifyAt_congr _ _ _ _ _ hs
  simp [SideCore.onFrame, hr]

/-- Tokens that are complete or no longer there are not failed. -/
theorem failedTok_eq_none {G : Group} {es : List Nat}
    (h : ∀ e ∈ es, tokState G e = none ∨ tokState G e = some .complete) : failedTok G es = none := by
  rw [failedTok, List.head?_eq_none_iff, List.filterMap_eq_nil_iff]
  intro e he
  rcases h e he with hst | hst <;> simp only [hst]

end

/-- Settles O16: what only goes on advances; the waits are told apart by what the side carries to its re-execution. -/
theorem goingOnAndSleeping : Obligations.GoingOnAndSleeping := by
  unfold Obligations.GoingOnAndSleeping
  refine ⟨fun s p hp h => ⟨?nop, fun dm m as ha => ?prefetch, fun c code cs hc hall => ?assert, fun m x hx => ?clrflag,
    fun n hn hpend => ?nsleep, fun hpend hnone => ?yield, fun ks es hes hall => ?kwait⟩, fun s p hp h n x hx =>
    ⟨fun hpend hne => ?sleeps, fun t hpend hle => ?awakes, fun t hpend hlt => ?sleepsOn, fun hpend => ?yielded,
      fun o os hpend hothers => ?yields⟩⟩
  case nop => exact goes_of_advance hp (x := execNop s) rfl rfl rfl
  case prefetch => exact ⟨_, exec_prefetch_eq hp ha dm, advanced_advance hp⟩
  case assert =>
    refine goes_of_advance hp (x := execAssert c code s) rfl rfl ?_
    have hnone : (lanesOf p.mask).find? (fun i => nth 0 cs i = 0) = none := by
      rw [List.find?_eq_none]
      intro i hi
      obtain ⟨hlt, hact⟩ : i < 128 ∧ p.mask.getLsbD i = true := by simpa [lanesOf] using hi
      simpa using hall i hlt hact
    simp only [hc, hnone]
  case clrflag =>
    refine ⟨_, exec_of_portable hp (x := execClrflag m s) rfl rfl rfl, ?_⟩
    simp only [hx]
    exact advanced_advance_view hp (·.clear (x.truncate 32))
  case nsleep =>
    refine goes_of_advance hp (x := execNsleep n s) rfl rfl ?_
    simp only [hpend, hn, if_pos]
  case yield =>
    refine goes_of_advance hp (x := execYield s) rfl rfl ?_
    simp [hpend, hnone]
  case kwait =>
    have hst : ∀ e ∈ es, tokState p.grp e = none ∨ tokState p.grp e = some .complete := by simpa using hall
    have hpending : es.any (fun e => tokState p.grp e = some .pending) = false := by
      rw [List.any_eq_false]
      intro e he
      rcases hst e he with hst | hst <;> simp [hst]
    refine exec_of_portable hp (x := execKwait ks s) rfl rfl ?_
    simp only [hes, failedTok_eq_none hst, hpending, Bool.false_eq_true, if_false]
  case sleeps =>
    refine exec_of_portable hp (x := execNsleep n s) rfl rfl ?_
    simp only [hpend, hx, if_neg hne]
  case awakes =>
    refine exec_of_portable hp (x := execNsleep n s) rfl rfl ?_
    simp only [hpend, hx, if_pos hle]
  case sleepsOn =>
    refine exec_of_portable hp (x := execNsleep n s) rfl rfl ?_
    simp only [hpend, hx, if_neg (Nat.not_le.mpr hlt)]
  case yielded =>
    refine exec_of_portable hp (x := execYield s) rfl rfl ?_
    simp only [hpend]
  case yields =>
    refine exec_of_portable hp (x := execYield s) rfl rfl ?_
    simp [hpend, hothers]
end Sys2Proof.Machine

namespace Sys2Proof.Machine
open Sys2Proof

/-! ### Transfers, calls and returns (R70 to R74) -/

section
variable {s : State} {p : Site} {mode : HopMode} {key : Word} {parts : List (Mask × Target)} {m : Mask} {k : Nat} {vs : List (List Val)}

/-- A transfer of all lanes to a block of the same segment (R15, R70, R147). -/
theorem transferBy_of_same_segment (hparts : transferParts s p (blocksOf s p.fr.fn) parts = some [(m, k, vs)])
    (hseg : exitSeg s p.grp p.lau p.fr.fn k = none) :
    transferBy mode key parts p s = settleGroup p.g (arrive p.g p.sd (isMarkBlk (blocksOf s p.fr.fn) k)
      (s.updCore p.g p.sd (enterBlock (blocksOf s p.fr.fn) k vs))) := by
  simp only [transferBy, hparts, hseg]

/-- A transfer of all lanes to a block of another segment (R326, R327). -/
theorem transferBy_of_other_segment (hparts : transferParts s p (blocksOf s p.fr.fn) parts = some [(m, k, vs)]) {sg : Nat}
    (hseg : exitSeg s p.grp p.lau p.fr.fn k = some sg) :
    transferBy mode key parts p s = ((commit p.g p.sd s).updCore p.g p.sd (enterBlock (blocksOf s p.fr.fn) k vs)).updSide p.g p.sd
      (Side.park sg mode key) := by
  simp only [transferBy, hparts, hseg]

end

/-- Settles O20: the masks of `cbr` are those of `pick`. -/
theorem controlTransfers : Obligations.ControlTransfers := by
  unfold Obligations.ControlTransfers
  refine ⟨fun s p hp h t f => ⟨?br, fun c cs hc => ?cbr, fun i cs xs hi => ?switch, fun m => ?hop, fun m k x hk => ?hopKey⟩,
    fun s p mode key parts m k vs hparts =>
      ⟨transferBy_of_same_segment hparts, fun sg => transferBy_of_other_segment hparts⟩⟩
  case br => exact exec_of_portable hp (x := execBr t s) rfl rfl rfl
  case cbr =>
    refine ⟨pick p cs (· = 1), pick p cs (· ≠ 1), ?_, fun i hi => ?_⟩
    · refine exec_of_portable hp (x := execCbr c t f s) rfl rfl ?_
      simp only [hc]
    · simp only [pick_getLsbD p cs _ hi, decide_not, and_self]
  case switch =>
    refine exec_of_portable hp (x := execSwitch i t cs s) rfl rfl ?_
    simp only [hi]
  case hop => exact exec_of_portable hp (x := execHop m none t s) rfl rfl rfl
  case hopKey =>
    refine exec_of_portable hp (x := execHop m (some k) t s) rfl rfl ?_
    simp only [hk]

/-- Settles O21: the checks of the depth, of the callee's segment and of its translation, in their order. -/
theorem callEntersItsCallee : Obligations.CallEntersItsCallee := by
  unfold Obligations.CallEntersItsCallee
  intro s p hp h ty callee args i j fn o hi ho hfn
  have call := fun u => exec_of_portable (i := .call h ty callee args) hp (x := execCall callee args s) (u := u) rfl rfl
  simp only [hi, ho, hfn] at call
  refine ⟨fun hdeep => call _ (if_pos hdeep), fun hdepth hframe hexit b bs vals hblocks hargs => call _ ?other,
    fun hdepth hframe hexit => ⟨fun x t sl st b bs vals hfind hst hblocks hargs => call _ ?ready,
      fun x t a c hfind hst => call _ ?failed, fun x t hfind hst => call _ ?awaited, fun hfind => call _ ?absent⟩⟩
  all_goals rw [if_neg (by omega)]
  case other => simp only [hexit, if_pos, hblocks, List.head?_cons, Option.bind_some, hargs]
  case ready =>
    simp only [hexit, Option.isSome_none, Bool.false_eq_true, if_false, hfind, hst, hblocks, List.head?_cons, Option.bind_some, hargs]
  case failed => simp [hexit, hfind, hst]
  case awaited => rcases hst with hst | hst <;> simp [hexit, hfind, hst]
  case absent => simp [hexit, hfind]

/-- The threads of a side end once its region has committed, where no token of its last side is pending (R74). -/
theorem endSide_of_no_token {s : State} {p : Site} {G : Group} (hG : (commit p.g p.sd s).groups[p.g]? = some G) (hready : G.st = .ready)
    (htoks : 1 < G.liveSides.length ∨ G.pendingToks = []) :
    endSide p s = settleGroup p.g ((endThreads p.g p.mask (commit p.g p.sd s)).updSide p.g p.sd (fun S => { S with status := .ended })) := by
  have hwait : ¬(G.liveSides.length ≤ 1 ∧ G.pendingToks ≠ []) := by
    rintro ⟨hle, hne⟩
    exact htoks.elim (by omega) hne
  simp only [endSide, hG, ne_eq, hready, not_true_eq_false, if_false, if_neg hwait]

/-- Settles O22: a return with a caller gives its values; without one it ends its threads, as `exit` does. -/
theorem returnAndExit : Obligations.ReturnAndExit := by
  unfold Obligations.ReturnAndExit
  intro s p hp h args
  refine ⟨fun F C r vs hframes hvals hjoins hseg => ?returns, fun G hG hready htoks => ⟨?exits, fun F hframes => ?kernel⟩⟩
  case returns =>
    refine exec_of_portable hp (x := execRet args s) rfl rfl ?_
    simp only [hframes, hvals, hjoins, hseg, Bool.false_eq_true, if_false]
  case exits =>
    refine exec_of_portable hp (x := execExit s) rfl rfl ?_
    exact endSide_of_no_token hG hready htoks
  case kernel =>
    refine exec_of_portable hp (x := execRet [] s) rfl rfl ?_
    simp only [hframes, List.isEmpty_nil, Bool.true_or, if_true]
    exact endSide_of_no_token hG hready htoks

end Sys2Proof.Machine

namespace Sys2Proof.Machine
open Sys2Proof

/-! ### Reads of storage after a write (R181, R213, R214, R235) -/

section
variable {α : Type} [DecidableEq α] {d : α} {m : NMap α}

/-- A write of what unlisted keys read as, in a canonical list, leaves every other key as it was. -/
theorem NMap.get_set_default_other {lo : Option Nat} {k j : Nat} (hj : j ≠ k) (w : NMap.wfFrom d lo m = true) :
    NMap.get d (NMap.set d m k d) j = NMap.get d m j := by
  induction m generalizing lo with
  | nil => simp [NMap.set]
  | cons e r ih =>
    obtain ⟨k', v⟩ := e
    have hr : NMap.wfFrom d (some k') r = true := by
      simp only [NMap.wfFrom, Bool.and_eq_true] at w
      exact w.2
    rcases Nat.lt_trichotomy k k' with hlt | rfl | hgt
    · simp [NMap.set, hlt]
    · simp only [NMap.set, Nat.lt_irrefl, if_false, if_true, NMap.get, if_neg hj]
      split
      next hbelow => exact NMap.get_of_wfFrom d r k j hbelow.le hr
      next => rfl
    · simp [NMap.set, NMap.get, hgt.not_gt, hgt.ne', ih hr]

/-- What a canonical list holds after a write. -/
theorem NMap.get_set (k j : Nat) (v : α) (w : NMap.wf d m = true) :
    NMap.get d (NMap.set d m k v) j = if j = k then v else NMap.get d m j := by
  by_cases hv : v = d
  · subst hv
    split
    next hj => rw [hj, NMap.get_set_default v m none k w]
    next hj => exact NMap.get_set_default_other hj w
  · split
    next hj => rw [hj, NMap.get_set_same d m k v hv]
    next hj => exact NMap.get_set_other d m k j v hv hj

end

/-- A byte before or behind those written is as it was. -/
theorem setBytes_get_other {m : NMap Byte} {a k : Nat} {bs : List Byte} (w : NMap.wf 0 m = true) (hk : k < a ∨ a + bs.length ≤ k) :
    NMap.get 0 (setBytes m a bs) k = NMap.get 0 m k := by
  induction bs generalizing m a with
  | nil => rfl
  | cons b r ih =>
    rw [List.length_cons] at hk
    rw [setBytes, ih (NMap.wf_set 0 m a b w) (by omega), NMap.get_set a k b w, if_neg (by omega)]

/-- Byte j of those written. -/
theorem setBytes_get {m : NMap Byte} {a j : Nat} {bs : List Byte} (w : NMap.wf 0 m = true) (hj : j < bs.length) :
    NMap.get 0 (setBytes m a bs) (a + j) = nth 0 bs j := by
  induction bs generalizing m a j with
  | nil => simp at hj
  | cons b r ih =>
    have hw := NMap.wf_set 0 m a b w
    cases j with
    | zero =>
      rw [setBytes, setBytes_get_other hw (by omega), NMap.get_set a (a + 0) b w, if_pos (Nat.add_zero a)]
      rfl
    | succ j =>
      rw [setBytes, show a + (j + 1) = a + 1 + j by omega, ih hw (by simpa using hj)]
      rfl

/-- The tag of a word after those of n words from word v are cleared. -/
theorem clearTags_get {m : NMap Bool} {v n k : Nat} (w : NMap.wf false m = true) :
    NMap.get false (clearTags m v n) k = (NMap.get false m k && !decide (v ≤ k ∧ k < v + n)) := by
  induction n generalizing m v with
  | zero => simp [clearTags, show ¬(v ≤ k ∧ k < v) by omega]
  | succ n ih =>
    rw [clearTags, ih (NMap.wf_set false m v false w), NMap.get_set v k false w]
    by_cases hk : k = v
    · simp [hk]
    · rw [if_neg hk, decide_eq_decide.mpr (show v + 1 ≤ k ∧ k < v + 1 + n ↔ v ≤ k ∧ k < v + (n + 1) by omega)]

/-- A context that owns the lines has nothing to claim. -/
theorem claimLines_of_owned {s : State} {x ln n : Nat} (h : ∀ l, ln ≤ l → l < ln + n → NMap.get (0, 0) s.owner l = ownerWord s x) :
    claimLines s x ln n = s := by
  induction n generalizing ln with
  | zero => rfl
  | succ n ih =>
    have hclaim : claimLine s x ln = s := by simp [claimLine, h ln le_rfl (by omega)]
    rw [claimLines, hclaim]
    exact ih fun l hl hlt => h l (by omega) (by omega)

/-- What a load reads, the seen byte and the header of its word apart. -/
theorem loadByte_eq (s : State) (x a : Nat) : loadByte s x a =
    if headerAt s a then seenByte s x a (NMap.get 0 s.mem a) &&& hdrSeen.extractLsb' (8 * (a % 8)) 8 else seenByte s x a (NMap.get 0 s.mem a) :=
  rfl

section
variable {s : State} {x a : Nat} {bs : List Byte}

/-- The storage that a store in its context's own lines leaves. -/
theorem storeBytes_of_owns (hne : bs ≠ []) (howns : Owns s x a bs.length) :
    (storeBytes x a bs s).mem = setBytes s.mem a bs ∧
    (storeBytes x a bs s).tag = clearTags s.tag (a / 8) ((a + bs.length - 1) / 8 - a / 8 + 1) ∧
    (storeBytes x a bs s).owner = s.owner ∧ (storeBytes x a bs s).ctxs = s.ctxs := by
  have hlen : bs.length ≠ 0 := by simpa using hne
  have hclaim : claimLines s x (a / 64) ((a + bs.length - 1) / 64 - a / 64 + 1) = s :=
    claimLines_of_owned fun l hl hlt => howns l hl (by omega)
  simp only [storeBytes, hlen, if_false, hclaim]
  exact ⟨rfl, rfl, rfl, rfl⟩

/-- What a context sees of a byte depends on the owners and the contexts. -/
theorem seenByte_congr {t : State} (howner : t.owner = s.owner) (hctxs : t.ctxs = s.ctxs) (y k : Nat) (b : Byte) :
    seenByte t y k b = seenByte s y k b := by
  unfold seenByte ownerWord ctxAt
  rw [howner, hctxs]

/-- A context sees the bytes of its own lines as they stand. -/
theorem seenByte_of_owner {k : Nat} (h : NMap.get (0, 0) s.owner (k / 64) = ownerWord s x) (b : Byte) : seenByte s x k b = b := by
  simp [seenByte, h, ownerWord]

/-- Word k / 8 is one that n bytes from a touch. -/
def InWords (a n k : Nat) : Prop := a / 8 ≤ k / 8 ∧ k / 8 ≤ (a + n - 1) / 8

/-- No word that a context's own bytes touch is a header, when none of them is one of its context. -/
theorem headerAt_of_noHeader {n k : Nat} (howns : Owns s x a n) (hfree : noHeader s x a n = true)
    (hk : InWords a n k) : headerAt s k = false := by
  obtain ⟨hlo, hhi⟩ := hk
  have hword : (!headerAt s (k / 8 * 8) || foreign s x (k / 8 * 8)) = true := by
    have := List.all_eq_true.mp hfree (k / 8 - a / 8) (List.mem_range.mpr (by omega))
    rwa [show a / 8 + (k / 8 - a / 8) = k / 8 by omega] at this
  have hown : foreign s x (k / 8 * 8) = false := by
    simp [foreign, howns (k / 8 * 8 / 64) (by omega) (by omega), ownerWord]
  have hsame : headerAt s (k / 8 * 8) = headerAt s k := by simp [headerAt, tagAt, wordAt]
  simpa [hown, hsame] using hword

/-- A word that a store touches is no header then. -/
theorem headerAt_storeBytes_of_touched (wf : Storage.wf s = true) (hne : bs ≠ []) (howns : Owns s x a bs.length) {k : Nat}
    (hk : InWords a bs.length k) : headerAt (storeBytes x a bs s) k = false := by
  obtain ⟨-, htag, -, -⟩ := storeBytes_of_owns hne howns
  obtain ⟨-, wtag, -⟩ := (Storage.wf_iff s).mp wf
  obtain ⟨hlo, hhi⟩ := hk
  have hin : a / 8 ≤ k / 8 ∧ k / 8 < a / 8 + ((a + bs.length - 1) / 8 - a / 8 + 1) := by omega
  have hclear : tagAt (storeBytes x a bs s) k = false := by
    rw [tagAt, htag, clearTags_get wtag, decide_eq_true hin]
    simp
  simp [headerAt, hclear]

/-- The bytes of a word that a store does not touch are as they were. -/
theorem rawBytes_storeBytes (wf : Storage.wf s = true) (hne : bs ≠ []) (howns : Owns s x a bs.length) {k n : Nat}
    (hk : k + n ≤ a ∨ a + bs.length ≤ k) : rawBytes (storeBytes x a bs s) k n = rawBytes s k n := by
  obtain ⟨hmem, -⟩ := storeBytes_of_owns hne howns
  obtain ⟨wmem, -⟩ := (Storage.wf_iff s).mp wf
  induction n generalizing k with
  | zero => rfl
  | succ n ih => rw [rawBytes, rawBytes, hmem, setBytes_get_other wmem (by omega), ih (by omega)]

/-- A word that a store does not touch is a header just where it was. -/
theorem headerAt_storeBytes_of_untouched (wf : Storage.wf s = true) (hne : bs ≠ []) (howns : Owns s x a bs.length) {k : Nat}
    (hk : ¬InWords a bs.length k) : headerAt (storeBytes x a bs s) k = headerAt s k := by
  obtain ⟨-, htag, -, -⟩ := storeBytes_of_owns hne howns
  obtain ⟨-, wtag, -⟩ := (Storage.wf_iff s).mp wf
  have hlen : 0 < bs.length := List.length_pos_iff.mpr hne
  have hout : k / 8 < a / 8 ∨ (a + bs.length - 1) / 8 < k / 8 := by
    unfold InWords at hk
    omega
  have hin : ¬(a / 8 ≤ k / 8 ∧ k / 8 < a / 8 + ((a + bs.length - 1) / 8 - a / 8 + 1)) := by omega
  have htags : tagAt (storeBytes x a bs s) k = tagAt s k := by
    rw [tagAt, htag, clearTags_get wtag, decide_eq_false hin]
    simp [tagAt]
  rw [headerAt, headerAt, htags, wordAt, wordAt, rawBytes_storeBytes wf hne howns (by omega)]

/-- A word is a header after a store in its context's own lines just where it was one before. -/
theorem headerAt_storeBytes (wf : Storage.wf s = true) (hne : bs ≠ []) (howns : Owns s x a bs.length)
    (hfree : noHeader s x a bs.length = true) (k : Nat) : headerAt (storeBytes x a bs s) k = headerAt s k := by
  by_cases hk : InWords a bs.length k
  · rw [headerAt_storeBytes_of_touched wf hne howns hk, headerAt_of_noHeader howns hfree hk]
  · exact headerAt_storeBytes_of_untouched wf hne howns hk

end

/-- Settles O14: the store claims no line; its own words are no headers before and after it, and no other word changes. -/
theorem storeChangesItsBytes : Obligations.StoreChangesItsBytes := by
  unfold Obligations.StoreChangesItsBytes
  intro s x a bs wf hne howns hfree
  obtain ⟨hmem, -, howner, hctxs⟩ := storeBytes_of_owns hne howns
  obtain ⟨wmem, -⟩ := (Storage.wf_iff s).mp wf
  refine ⟨fun y b hb => ?_, fun j hj => ?_⟩
  · rw [loadByte_eq, loadByte_eq, headerAt_storeBytes wf hne howns hfree, hmem, setBytes_get_other wmem hb, seenByte_congr howner hctxs]
  · have hown : NMap.get (0, 0) s.owner ((a + j) / 64) = ownerWord s x := howns _ (by omega) (by omega)
    have hhdr : headerAt (storeBytes x a bs s) (a + j) = false :=
      headerAt_storeBytes_of_touched wf hne howns ⟨by omega, by omega⟩
    rw [loadByte_eq, hhdr, if_neg Bool.false_ne_true, hmem, setBytes_get wmem hj, seenByte_congr howner hctxs, seenByte_of_owner hown]

end Sys2Proof.Machine

namespace Sys2Proof.Machine
open Sys2Proof

/-! ### A MARK makes and drops no group (R147, R181, R223) -/

/-- A fold of steps that each make and drop no group. -/
theorem foldl_groups_length {α : Type} {f : State → α → State} (hf : ∀ s a, (f s a).groups.length = s.groups.length) (l : List α) (s : State) :
    (l.foldl f s).groups.length = s.groups.length := by
  induction l generalizing s with
  | nil => rfl
  | cons a r ih => rw [List.foldl_cons, ih, hf]

@[simp] theorem updGroup_groups_length (s : State) (g : Nat) (f : Group → Group) : (s.updGroup g f).groups.length = s.groups.length := by
  simp

@[simp] theorem claimLine_groups (s : State) (x ln : Nat) : (claimLine s x ln).groups = s.groups := by
  unfold claimLine
  dsimp only
  split
  · rfl
  · split <;> split <;> rfl

@[simp] theorem claimLines_groups (s : State) (x ln n : Nat) : (claimLines s x ln n).groups = s.groups := by
  induction n generalizing s ln with
  | zero => rfl
  | succ n ih => rw [claimLines, ih, claimLine_groups]

/-- What a write does to each group: its waits note it. -/
theorem storeBytes_groups (x a : Nat) (bs : List Byte) (s : State) :
    ∃ f : Group → Group, (∀ G, (f G).wbuf = G.wbuf) ∧ (storeBytes x a bs s).groups = s.groups.map f := by
  unfold storeBytes
  dsimp only
  split
  · exact ⟨id, fun _ => rfl, by simp⟩
  · refine ⟨_, fun G => ?_, by rw [noteWatches, claimLines_groups]⟩
    rfl

@[simp] theorem storeBytes_groups_length (x a : Nat) (bs : List Byte) (s : State) :
    (storeBytes x a bs s).groups.length = s.groups.length := by
  obtain ⟨f, -, hgroups⟩ := storeBytes_groups x a bs s
  rw [hgroups, List.length_map]

@[simp] theorem storeWord_groups_length (x a : Nat) (v : DWord) (s : State) : (storeWord x a v s).groups.length = s.groups.length :=
  storeBytes_groups_length ..

@[simp] theorem storeTagged_groups_length (x a : Nat) (v : DWord) (t : Bool) (s : State) :
    (storeTagged x a v t s).groups.length = s.groups.length :=
  storeBytes_groups_length ..

@[simp] theorem performStore_groups_length (x : Nat) (o : GOp) (s : State) : (performStore x o s).groups.length = s.groups.length := by
  unfold performStore
  split <;> simp

@[simp] theorem noteEarly_groups_length (B : Agent) (a n : Nat) (s : State) : (noteEarly B a n s).groups.length = s.groups.length := by
  simp [noteEarly]

theorem landHeld_groups_length {k : Agent → Nat → Nat → State → State} (hk : ∀ B a n s, (k B a n s).groups.length = s.groups.length) (g n : Nat)
    (want : Held → Bool) (seen : List (Nat × Nat × Nat)) (s : State) : (landHeld k g n want seen s).groups.length = s.groups.length := by
  unfold landHeld
  split
  · rfl
  · split
    · rfl
    · refine (foldl_groups_length (fun s e => ?_) _ _).trans (updGroup_groups_length ..)
      split
      · simp [hk]
      · rfl

@[simp] theorem force_groups_length (f : Nat) (B : Agent) (a n : Nat) (s : State) : (force f B a n s).groups.length = s.groups.length := by
  induction f generalizing B a n s with
  | zero => rfl
  | succ f ih => exact foldl_groups_length (fun s g => landHeld_groups_length ih ..) ..

@[simp] theorem reach_groups_length (B : Agent) (wr : Bool) (a n : Nat) (s : State) : (reach B wr a n s).groups.length = s.groups.length := by
  unfold reach
  dsimp only
  split <;> simp

@[simp] theorem landWhere_groups_length (g : Nat) (want : Held → Bool) (s : State) : (landWhere g want s).groups.length = s.groups.length :=
  landHeld_groups_length (force_groups_length _) ..

@[simp] theorem landAll_groups_length (g : Nat) (s : State) : (landAll g s).groups.length = s.groups.length := landWhere_groups_length ..

@[simp] theorem landPart_groups_length (b r : Nat) (s : State) : (landPart b r s).groups.length = s.groups.length := by
  unfold landPart
  split
  · rfl
  · exact foldl_groups_length (fun s e => landWhere_groups_length ..) ..

@[simp] theorem chargeEv_groups_length (x ev n : Nat) (s : State) : (chargeEv x ev n s).groups.length = s.groups.length := by
  unfold chargeEv
  split
  · exact storeBytes_groups_length ..
  · rfl

@[simp] theorem hwDecrement_groups_length (x va : Nat) (v : DWord) (s : State) : (hwDecrement x va v s).groups.length = s.groups.length := by
  unfold hwDecrement hwSignal
  dsimp only
  split
  · rfl
  · split <;> simp

@[simp] theorem writeFault_groups_length (x : Nat) (f : FaultRec) (s : State) : (writeFault x f s).groups.length = s.groups.length := by
  unfold writeFault
  dsimp only
  split <;> simp

@[simp] theorem rollback_groups_length (g : Nat) (s : State) : (rollback g s).groups.length = s.groups.length := by
  unfold rollback
  split
  · rfl
  · exact updGroup_groups_length ..

@[simp] theorem suspendGroup_groups_length (g : Nat) (s : State) : (suspendGroup g s).groups.length = s.groups.length := by
  unfold suspendGroup landMask
  split
  · rfl
  · split
    · split <;> simp
    · split <;> simp
    · rfl

@[simp] theorem hostHold_groups_length (x : Nat) (s : State) : (hostHold x s).groups.length = s.groups.length :=
  foldl_groups_length (fun s g => suspendGroup_groups_length g s) ..

@[simp] theorem notePhases_groups (b : Nat) (s : State) : (notePhases b s).groups = s.groups := by
  unfold notePhases
  split <;> rfl

@[simp] theorem endThreads_groups (g : Nat) (m : Mask) (s : State) : (endThreads g m s).groups = s.groups := by
  unfold endThreads
  split
  · rfl
  · split <;> simp

@[simp] theorem freePool_groups (g : Nat) (s : State) : (freePool g s).groups = s.groups := by
  unfold freePool
  split
  · rfl
  · split <;> rfl

@[simp] theorem checkDrain_groups (b : Nat) (s : State) : (checkDrain b s).groups = s.groups := by
  unfold checkDrain
  split <;> rfl

@[simp] theorem freeBlock_groups_length (b : Nat) (s : State) : (freeBlock b s).groups.length = s.groups.length := by
  simp [freeBlock]

/-- A group that ends keeps its place. -/
@[simp] theorem endGroup_groups_length (g : Nat) (s : State) : (endGroup g s).groups.length = s.groups.length := by
  unfold endGroup
  split
  · rfl
  · extract_lets m threadsEnded enginesDropped ended failed
    have hended : ended.groups.length = s.groups.length :=
      calc ended.groups.length = threadsEnded.groups.length := updGroup_groups_length ..
        _ = s.groups.length := by simp [threadsEnded]
    split
    · exact (freeBlock_groups_length ..).trans hended
    · rw [checkDrain_groups, hended]

/-- A breakpoint in the program is reported to the debugger, and its class holds the context (R383). -/
theorem report_brkpt_groups_length (g sd pc : Nat) (lane : Option Nat) (aux : DWord) (s : State) :
    (report g sd .programBreakpoint pc lane aux s).groups.length = s.groups.length := by
  have hclass : ∀ t, (classEffect g .programBreakpoint t).groups.length = t.groups.length := by
    intro t
    unfold classEffect
    split
    · rfl
    · exact hostHold_groups_length ..
  unfold report
  split
  · rfl
  · simp only [causeClass]
    split <;> simp [hclass]

@[simp] theorem issueGated_groups (x e : Nat) (s : State) : (issueGated x e s).groups = s.groups := by
  unfold issueGated
  split
  · rfl
  · dsimp only
    split <;> rfl

@[simp] theorem performGop_groups_length (x g sd : Nat) (o : GOp) (s : State) : (performGop x g sd o s).groups.length = s.groups.length := by
  cases o with
  | store l a bs => exact performStore_groups_length ..
  | relStore l a bs mask sc => exact performStore_groups_length ..
  | refStore l a w t => exact performStore_groups_length ..
  | objInit l a w n stamp => simp [performGop, performObjInit]
  | objRetire l a n => simp [performGop, performObjRetire]
  | engine e => exact congrArg List.length (issueGated_groups ..)
  | untag l a =>
    simp only [performGop]
    split <;> rfl
  | brkpt code pc =>
    simp only [performGop]
    split
    · exact report_brkpt_groups_length ..
    · rfl
  | accrel => exact updGroup_groups_length ..
  | fence | ctrctl | spillTag => rfl

@[simp] theorem land_groups_length (x g sd : Nat) (o : GOp) (s : State) : (land x g sd o s).groups.length = s.groups.length := by
  cases o <;> simp [land]

@[simp] theorem commit_groups_length (g sd : Nat) (s : State) : (commit g sd s).groups.length = s.groups.length := by
  unfold commit
  split
  · rfl
  · split
    · rfl
    · dsimp only
      split
      · rw [endGroup_groups_length, foldl_groups_length (fun s o => land_groups_length ..), updGroup_groups_length]
      · rw [foldl_groups_length (fun s o => land_groups_length ..), updGroup_groups_length]

/-! ### A group without stores to perform stays so, whatever others perform (R214, R223) -/

/-- Group g holds no store back. -/
structure HoldsNone (g : Nat) (s : State) : Prop where
  wbuf : ∀ G, s.groups[g]? = some G → G.wbuf = []

section
variable {g : Nat} {s : State}

/-- A change of each group that leaves its buffer. -/
theorem HoldsNone.of_map {t : State} {f : Group → Group} (hf : ∀ G, (f G).wbuf = G.wbuf) (ht : t.groups = s.groups.map f) (h : HoldsNone g s) :
    HoldsNone g t := by
  refine ⟨fun G hG => ?_⟩
  rw [ht, List.getElem?_map] at hG
  obtain ⟨H, hH, rfl⟩ := Option.map_eq_some_iff.mp hG
  rw [hf, h.wbuf H hH]

theorem HoldsNone.storeBytes (h : HoldsNone g s) (x a : Nat) (bs : List Byte) : HoldsNone g (storeBytes x a bs s) := by
  obtain ⟨f, hf, hgroups⟩ := storeBytes_groups x a bs s
  exact h.of_map hf hgroups

theorem HoldsNone.storeTagged (h : HoldsNone g s) (x a : Nat) (v : DWord) (t : Bool) : HoldsNone g (storeTagged x a v t s) :=
  ⟨(h.storeBytes x a (leBytes 8 v.toNat)).wbuf⟩

theorem HoldsNone.performStore (h : HoldsNone g s) (x : Nat) (o : GOp) : HoldsNone g (performStore x o s) := by
  unfold Machine.performStore
  split
  · exact h.storeBytes ..
  · exact h.storeBytes ..
  · exact h.storeTagged ..
  · exact h

theorem HoldsNone.noteEarly (h : HoldsNone g s) (B : Agent) (a n : Nat) : HoldsNone g (noteEarly B a n s) := by
  refine ⟨fun G hG => ?_⟩
  simp only [Machine.noteEarly, List.getElem?_map, List.getElem?_zipIdx, Option.map_map] at hG
  obtain ⟨H, hH, rfl⟩ := Option.map_eq_some_iff.mp hG
  exact h.wbuf H hH

theorem HoldsNone.foldl {α : Type} {f : State → α → State} (hf : ∀ s a, HoldsNone g s → HoldsNone g (f s a)) (l : List α) (h : HoldsNone g s) :
    HoldsNone g (l.foldl f s) := by
  induction l generalizing s with
  | nil => exact h
  | cons a r ih => exact ih (hf s a h)

/-- Another group's stores are performed. -/
theorem HoldsNone.landHeld {k : Agent → Nat → Nat → State → State} (hk : ∀ B a n s, HoldsNone g s → HoldsNone g (k B a n s)) (h : HoldsNone g s)
    (j n : Nat) (want : Held → Bool) (seen : List (Nat × Nat × Nat)) : HoldsNone g (landHeld k j n want seen s) := by
  unfold Machine.landHeld
  split
  · exact h
  next J hJ =>
    split
    · exact h
    next hheld =>
      refine HoldsNone.foldl (fun s e h => ?_) _ ⟨fun G hG => ?_⟩
      · split
        · exact ((hk _ _ _ _ h).noteEarly ..).performStore ..
        · exact h
      · have hne : g ≠ j := by
          rintro rfl
          exact hheld (by rw [h.wbuf J hJ]; rfl)
        simp only [State.updGroup_groups, modifyAt_getElem?, if_neg hne] at hG
        exact h.wbuf G hG

theorem HoldsNone.force (h : HoldsNone g s) (f : Nat) (B : Agent) (a n : Nat) : HoldsNone g (force f B a n s) := by
  induction f generalizing B a n s with
  | zero => exact h
  | succ f ih => exact h.foldl (fun s j h => h.landHeld (fun B a n s h => ih h B a n) ..) _

end

/-- Where every store is wanted, what is not performed is no store. -/
theorem splitHeld_all_kept (es : List Held) (seen : List (Nat × Nat × Nat)) (rels : List (Nat × BitVec 3 × Nat)) :
    ∀ e ∈ (splitHeld (fun _ => true) es seen rels).2, e.op.span = none := by
  induction es generalizing seen rels with
  | nil => simp [splitHeld]
  | cons e r ih =>
    rw [splitHeld]
    split
    next => exact ih _ _
    next m mask sc hspan hop =>
      intro e' he'
      rcases List.mem_cons.mp he' with rfl | hmem
      · exact hspan
      · exact ih _ _ _ hmem
    next o hspan _ =>
      intro e' he'
      rcases List.mem_cons.mp he' with rfl | hmem
      · exact hspan
      · exact ih _ _ _ hmem

/-- A group whose stores have all been performed holds none. -/
theorem holdsNone_landAll (g : Nat) (s : State) : HoldsNone g (landAll g s) := by
  unfold landAll landWhere landHeld
  split
  next hnone => exact ⟨fun G hG => by rw [hnone] at hG; cases hG⟩
  next G hG =>
    split
    next hempty => exact ⟨fun H hH => by rw [hG] at hH; cases hH; exact List.isEmpty_iff.mp hempty⟩
    next =>
      refine HoldsNone.foldl (fun s e h => ?_) _ ⟨fun H hH => ?_⟩
      · split
        · exact ((h.force ..).noteEarly ..).performStore ..
        · exact h
      · simp only [State.updGroup_groups, modifyAt_getElem?, if_pos, hG, Option.map_some, Option.getD_some, List.take_length, List.drop_length,
          List.append_nil, Option.some.injEq] at hH
        subst hH
        refine List.dropWhile_eq_nil_iff.mpr fun e he => ?_
        rw [splitHeld_all_kept _ _ _ e (List.mem_reverse.mp he)]
        rfl

/-! ### Stores past a MARK, and fences (R181, R214 to R219, R223) -/

/-- A store that a MARK passes enters its group's buffer. -/
theorem land_store_buffers {g : Nat} {s : State} {G : Group} (hG : s.groups[g]? = some G) {x sd : Nat} {o : GOp}
    (ho : land x g sd o s = s.updGroup g (fun G => { G with wbuf := G.wbuf ++ [{ op := o, owed := 0 }] })) :
    SameStorage s (land x g sd o s) ∧ (land x g sd o s).groups[g]? = some { G with wbuf := G.wbuf ++ [{ op := o, owed := 0 }] } := by
  rw [ho]
  exact ⟨⟨rfl, rfl, rfl, rfl, rfl, rfl⟩, updGroup_groups _ hG⟩

/-- After `owe` the stores of its lanes in its spaces are owed at least to its scope. -/
theorem owe_owed {g : Nat} {s : State} (hg : g < s.groups.length) (m : Mask) (mask : BitVec 3) (sc : Nat) :
    ∃ G, (owe g m mask sc s).groups[g]? = some G ∧
      ∀ e ∈ G.wbuf, ∀ l a n, e.op.span = some (l, a, n) → m.getLsbD l = true → (keySpace a).inMask mask = true → sc ≤ e.owed := by
  refine ⟨_, updGroup_groups _ (List.getElem?_eq_getElem hg), fun e he l a n hspan hlane hspace => ?_⟩
  obtain ⟨e', -, rfl⟩ := List.mem_map.mp he
  cases hspan' : e'.op.span with
  | none => simp only [hspan', reduceCtorEq] at hspan
  | some q =>
    obtain ⟨l', a', n'⟩ := q
    simp only [hspan'] at hspan ⊢
    by_cases hin : m.getLsbD l' = true ∧ (keySpace a').inMask mask = true
    · rw [if_pos hin]
      exact le_max_right ..
    · rw [if_neg hin, hspan'] at hspan
      cases hspan
      exact absurd ⟨hlane, hspace⟩ hin

/-- Settles O15: a MARK appends a store to its group's buffer; a full fence keeps the group, and makes its stores owed; what no group holds
back cannot be performed. -/
theorem storesPastAMark : Obligations.StoresPastAMark := by
  unfold Obligations.StoresPastAMark
  refine ⟨fun x g sd l a bs mask sc w t s G hG o ho => ?mark, fun s p hp h sc mask => ⟨?release, ?acquire, ?full⟩,
    fun B a n s h => reach_idle B a n s h, fun B wr a n s wf => reach_wf B wr a n s wf,
    fun g s wf => ⟨landWhere_wf g _ s wf, (holdsNone_landAll g s).wbuf⟩⟩
  case mark => rcases ho with rfl | rfl | rfl <;> exact land_store_buffers hG rfl
  case release => exact exec_of_portable hp (x := execFence .rel sc mask s) rfl rfl rfl
  case acquire => exact exec_of_portable hp (x := execFence .acq sc mask s) rfl rfl rfl
  case full =>
    obtain ⟨-, hg, -⟩ := site?_some hp
    obtain ⟨hlt, -⟩ := List.getElem?_eq_some_iff.mp hg
    have hgroup : p.g < (if p.side.gated.isEmpty then advance p (acquire p.g p.mask mask sc.toNat s)
        else commit p.g p.sd (advance p (acquire p.g p.mask mask sc.toNat s))).groups.length := by
      have hadvance : (advance p (acquire p.g p.mask mask sc.toNat s)).groups.length = s.groups.length :=
        (updGroup_groups_length ..).trans (updGroup_groups_length ..)
      split
      · rwa [hadvance]
      · rwa [commit_groups_length, hadvance]
    obtain ⟨G, hG, howed⟩ := owe_owed hgroup p.mask mask sc.toNat
    exact ⟨_, G, exec_of_portable hp (x := execFence .ar sc mask s) rfl rfl rfl, hG, howed⟩

end Sys2Proof.Machine

namespace Sys2Proof.Machine
open Sys2Proof

/-! ### What an operation of a slot leaves (R162, R165) -/

section
variable {s : State} {p : NSite} {i : Instr} {x : Out} {k : NSite → State → State}

/-- A slot operation does at its site what its meaning says. -/
theorem exec_of_native (hp : nsite? s = some p) {u : State} (hi : exec i s = x) (hx : x = native s k) (hk : k p (p.pop s) = u) :
    exec i s = .next u :=
  (hi.trans hx).trans ((native_eq hp k).trans (congrArg _ hk))

/-- An operation that leaves N has completed so. -/
theorem ngives_of_issued (hp : nsite? s = some p) {N M : Native} (hi : exec i s = x) (hx : x = native s k)
    (hk : Issued p M s (k p (p.pop s))) (hM : M = N) : NGives i s p N := by
  subst hM
  exact ⟨_, exec_of_native hp hi hx rfl, hk⟩

/-- An operation that leaves more pending writes has made them. -/
theorem nwrites_of_issued (hp : nsite? s = some p) {ws ps : List PendW} (hi : exec i s = x) (hx : x = native s k)
    (hk : Issued p { p.popped with pend := ps } s (k p (p.pop s))) (hps : ps = p.own.pend ++ ws) : NWrites i s p ws :=
  ngives_of_issued hp hi hx hk (by rw [hps])

/-- One that has also raised flags. -/
theorem nraises_of_issued (hp : nsite? s = some p) {evs : List (Nat × Flags)} {ws ps : List PendW} (hi : exec i s = x) (hx : x = native s k)
    (hk : Issued p { p.popped with
      pend := ps,
      slots := modifyAt (Option.map (PcSlot.raise p.lau.fev p.sl p.e.bundle (p.nat.port p.e.pc) p.e.pc evs)) p.own.slots p.e.side } s
        (k p (p.pop s)))
    (hps : ps = p.own.pend ++ ws) : NRaises i s p evs ws :=
  ngives_of_issued hp hi hx hk (by rw [hps])

/-- A push. -/
theorem Issued.push {t : State} {N : Native} (h : Issued p N s t) (lat : Nat) (m : Mask) (bits : List Bool) :
    Issued p { N with pend := N.pend ++ [p.wr .push lat m (bits.map b1) false] } s (p.push lat m bits t) :=
  h.put ..

/-- An operation of a V slot that takes its lanes by f. -/
theorem nwrites_vLanes (hp : nsite? s = some p) {v : VOp} {w n : Nat} {f : NSite → DWord → DWord → DWord → DWord}
    (hi : exec i s = vLanes s v w n f) : NWrites i s p (p.wrG v.d.toNat (p.lat w n) (p.act v.grd) ((List.range 128).map (fun j =>
      lowBits 32 (f p (nth 0 (p.g_ v.a.toNat) j) (nth 0 (p.g_ v.b.toNat) j) (nth 0 (p.g_ v.d.toNat) j)))) ++ p.wrA v) :=
  nwrites_of_issued hp hi rfl (((Issued.start hp).putG ..).retain v) (List.append_assoc ..)

/-- An integer operation by its opcode. -/
theorem nwrites_vInt (hp : nsite? s = some p) {v : VOp} {o w n : Nat} {f : DWord → DWord → DWord → DWord}
    (hf : ∀ a b d, intFn o a b d = some (f a b d)) (hi : exec i s = vInt s v o w n) :
    NWrites i s p (p.wrG v.d.toNat (p.lat w n) (p.act v.grd) ((List.range 128).map (fun j =>
      lowBits 32 (f (nth 0 (p.g_ v.a.toNat) j) (nth 0 (p.g_ v.b.toNat) j) (nth 0 (p.g_ v.d.toNat) j)))) ++ p.wrA v) := by
  have h := nwrites_vLanes hp hi
  simpa only [hf, Option.getD_some] using h

/-- An operation of a V slot that takes its lanes by f and raises their flags. -/
theorem nraises_vFloat (hp : nsite? s = some p) {v : VOp} {lat : NSite → Nat} {f : NSite → DWord → DWord → DWord → DWord × Flags}
    (hi : exec i s = vFloat s v lat f) {r : Nat → DWord × Flags}
    (hr : ∀ j, f p (nth 0 (p.g_ v.a.toNat) j) (nth 0 (p.g_ v.b.toNat) j) (nth 0 (p.g_ v.d.toNat) j) = r j) {n : Nat} (hn : lat p = n) :
    NRaises i s p (laneEvents (p.act v.grd) ((List.range 128).map (fun j => (r j).2)))
      (p.wrG v.d.toNat n (p.act v.grd) ((List.range 128).map (fun j => lowBits 32 (r j).1)) ++ p.wrA v) := by
  subst hn
  simp only [← hr]
  refine nraises_of_issued hp hi rfl ((((Issued.start hp).raise _).putG ..).retain v) ?_
  simp only [List.map_map, Function.comp_def, List.append_assoc, NSite.popped_pend]

/-- An operation of a V slot that pushes what f gives. -/
theorem nwrites_vPush (hp : nsite? s = some p) {v : VOp} {w n : Nat} {f : NSite → DWord → DWord → Bool} (hi : exec i s = vPush s v w n f)
    {r : Nat → Bool} (hr : ∀ j, f p (nth 0 (p.g_ v.a.toNat) j) (nth 0 (p.g_ v.b.toNat) j) = r j) :
    NWrites i s p (p.wr .push (p.lat w n) (p.act v.grd) ((List.range 128).map (fun j => b1 (r j))) false :: p.wrA v) := by
  simp only [← hr]
  refine nwrites_of_issued hp hi rfl (((Issued.start hp).push ..).retain v) ?_
  simp only [List.map_map, Function.comp_def, List.append_assoc, NSite.popped_pend, List.singleton_append]

/-- A sum with a carry in, and the push of its carry. -/
theorem nwrites_vCarry (hp : nsite? s = some p) {v : VOp} {m : NSite → Mask} {c : NSite → Nat → Nat} (hi : exec i s = vCarry s v m c) :
    NWrites i s p (p.wrG v.d.toNat (p.lat 3 4) (m p) ((List.range 128).map (fun j =>
        lowBits 32 (nth 0 (p.g_ v.a.toNat) j + nth 0 (p.g_ v.b.toNat) j + BitVec.ofNat 64 (c p j)))) ++
      [p.wr .push (p.lat 3 4) (m p) ((List.range 128).map (fun j =>
        b1 (carryOf (nth 0 (p.g_ v.a.toNat) j) (nth 0 (p.g_ v.b.toNat) j) (c p j)))) false] ++ p.wrA v) := by
  have hsum := (Issued.start hp).putG v.d.toNat (p.lat 3 4) (m p) ((List.range 128).map (fun j =>
    lowBits 32 (nth 0 (p.g_ v.a.toNat) j + nth 0 (p.g_ v.b.toNat) j + BitVec.ofNat 64 (c p j))))
  have hcarry := hsum.push (p.lat 3 4) (m p) ((List.range 128).map (fun j =>
    carryOf (nth 0 (p.g_ v.a.toNat) j) (nth 0 (p.g_ v.b.toNat) j) (c p j)))
  refine nwrites_of_issued hp hi rfl (hcarry.retain v) ?_
  simp only [List.map_map, Function.comp_def, List.append_assoc, NSite.popped_pend]

/-- A special function of the F slot. -/
theorem nraises_fSlot (hp : nsite? s = some p) {o : FOp} {f : Bool → DWord → DWord × Flags} (hi : exec i s = fSlot s o f) :
    NRaises i s p (laneEvents (p.act o.grd) ((List.range 128).map (fun j => (f p.dn (nth 0 (p.g_ o.a.toNat) j)).2)))
      (p.wrG o.d.toNat 14 (p.act o.grd) ((List.range 128).map (fun j => (f p.dn (nth 0 (p.g_ o.a.toNat) j)).1))) := by
  refine nraises_of_issued hp hi rfl (((Issued.start hp).raise _).putG ..) ?_
  simp only [List.map_map, Function.comp_def, NSite.popped_pend]

end

/-- Settles O34: the integer operations by their opcodes, and the three that act by a predicate or push one. -/
theorem nativeIntegerResults : Obligations.NativeIntegerResults := by
  unfold Obligations.NativeIntegerResults
  intro s p hp v x y z n m q lanes op carry
  have int : ∀ {i : Instr} (x : Out) (o : Nat) {w n : Nat} {f : DWord → DWord → DWord → DWord}, exec i s = x → x = vInt s v o w n →
      (∀ a b d, intFn o a b d = some (f a b d)) → op i w n f :=
    fun x o _ _ _ hi hx hf => nwrites_vInt hp hf (hi.trans hx)
  have sum : ∀ {i : Instr} (x : Out) {m : NSite → Mask} {c : NSite → Nat → Nat}, exec i s = x → x = vCarry s v m c → carry i (m p) (c p) :=
    fun x _ _ hi hx => nwrites_vCarry hp (hi.trans hx)
  clear_value op carry
  have hisel : NWrites (.isel v) s p (p.wrG v.d.toNat (p.lat 3 4) p.e.mask (lanes (fun i => if q i = 1 then x i else y i)) ++ p.wrA v) :=
    nwrites_of_issued hp (x := execIsel v s) rfl rfl (((Issued.start hp).putG ..).retain v) (List.append_assoc ..)
  refine ⟨int (execIadd v s) 0x01 rfl rfl (fun _ _ _ => rfl), int (execIsub v s) 0x02 rfl rfl (fun _ _ _ => rfl),
    int (execImul v s) 0x03 rfl rfl (fun _ _ _ => rfl), int (execImhs v s) 0x04 rfl rfl (fun _ _ _ => rfl),
    int (execImhn v s) 0x05 rfl rfl (fun _ _ _ => rfl), int (execImad v s) 0x06 rfl rfl (fun _ _ _ => rfl),
    int (execIand v s) 0x07 rfl rfl (fun _ _ _ => rfl), int (execIor v s) 0x08 rfl rfl (fun _ _ _ => rfl),
    int (execIxor v s) 0x09 rfl rfl (fun _ _ _ => rfl), int (execIshl v s) 0x0A rfl rfl (fun _ _ _ => rfl),
    int (execIshrs v s) 0x0B rfl rfl (fun _ _ _ => rfl), int (execIshrn v s) 0x0C rfl rfl (fun _ _ _ => rfl),
    int (execIrotl v s) 0x0D rfl rfl (fun _ _ _ => rfl), int (execImins v s) 0x0F rfl rfl (fun _ _ _ => rfl),
    int (execIminn v s) 0x10 rfl rfl (fun _ _ _ => rfl), int (execImaxs v s) 0x11 rfl rfl (fun _ _ _ => rfl),
    int (execImaxn v s) 0x12 rfl rfl (fun _ _ _ => rfl), int (execIclz v s) 0x13 rfl rfl (fun _ _ _ => rfl),
    int (execIpopc v s) 0x14 rfl rfl (fun _ _ _ => rfl), int (execIbrev v s) 0x15 rfl rfl (fun _ _ _ => rfl),
    int (execIbfxs v s) 0x16 rfl rfl (fun _ _ _ => rfl), int (execIbfxn v s) 0x17 rfl rfl (fun _ _ _ => rfl),
    int (execIbfi v s) 0x18 rfl rfl (fun _ _ _ => rfl), int (execIaddss v s) 0x19 rfl rfl (fun _ _ _ => rfl),
    int (execIaddsn v s) 0x1A rfl rfl (fun _ _ _ => rfl), int (execIsubss v s) 0x1B rfl rfl (fun _ _ _ => rfl),
    int (execIsubsn v s) 0x1C rfl rfl (fun _ _ _ => rfl), int (execIdivs v s) 0x20 rfl rfl (fun _ _ _ => rfl),
    int (execIdivn v s) 0x21 rfl rfl (fun _ _ _ => rfl), int (execIrems v s) 0x22 rfl rfl (fun _ _ _ => rfl),
    int (execIremn v s) 0x23 rfl rfl (fun _ _ _ => rfl), hisel, sum (m := fun p => p.act v.grd) (c := fun _ _ => 0) (execIaddcp v s) rfl rfl,
    sum (m := fun p => p.e.mask) (c := fun p i => p.predAt (v.grd.toNat % 8) i) (execIaddci v s) rfl rfl, fun cc hcc => ?cmp⟩
  case cmp =>
    have hpush := nwrites_vPush (i := .icmp v) (v := v) hp (show exec (.icmp v) s = execIcmp v s from rfl) (fun _ => rfl)
    simpa only [hcc] using hpush

/-- Settles O35: the operations by the forms of their lanes, in the format and the modes of FMW. -/
theorem nativeFloatResults : Obligations.NativeFloatResults := by
  unfold Obligations.NativeFloatResults
  intro s p hp lanes f
  refine ⟨fun v => ?vector, fun o => ?special⟩
  case special =>
    intro x sf
    have special : ∀ {i : Instr} (x : Out) {g : Bool → DWord → DWord × Flags}, exec i s = x → x = fSlot s o g → sf i g :=
      fun x _ hi hx => nraises_fSlot hp (hi.trans hx)
    clear_value sf
    exact ⟨special (execFExp2 o s) rfl rfl, special (execFLog2 o s) rfl rfl, special (execFRcp o s) rfl rfl,
      special (execFSqrt o s) rfl rfl, special (execFRsqrt o s) rfl rfl, special (execFSinpi o s) rfl rfl,
      special (execFCospi o s) rfl rfl, special (execFTanh o s) rfl rfl, special (execFSigmoid o s) rfl rfl,
      special (execFErf o s) rfl rfl⟩
  intro x y z m pure flagged
  have float : ∀ {i : Instr} (x : Out) {lat : NSite → Nat} {h : NSite → DWord → DWord → DWord → DWord × Flags} {w n : Nat}
      {g : DWord → DWord → DWord → DWord × Flags}, exec i s = x → x = vFloat s v lat h → lat p = p.lat w n → h p = g → flagged i w n g :=
    fun x _ _ _ _ _ hi hx hlat hg => nraises_vFloat hp (hi.trans hx) (fun j => by rw [hg]) hlat
  have lane : ∀ {i : Instr} (x : Out) {h : NSite → DWord → DWord → DWord → DWord} {w n : Nat} {g : DWord → DWord → DWord},
      exec i s = x → x = vLanes s v w n h → (∀ a b d, h p a b d = g a b) → pure i w n g := by
    intro i x h w n g hi hx hg
    have hlanes := nwrites_vLanes hp (hi.trans hx)
    simpa only [hg] using hlanes
  clear_value flagged pure
  refine ⟨float (execVFadd v s) rfl rfl rfl rfl, float (execVFsub v s) rfl rfl rfl rfl, float (execVFmul v s) rfl rfl rfl rfl,
    float (execFfma v s) rfl rfl rfl rfl, fun hty => float (execVFdiv v s) rfl rfl (if_pos hty) rfl,
    fun hty => float (execVFdiv v s) rfl rfl (if_neg hty) rfl, float (execFscl v s) rfl rfl rfl rfl,
    fun st t hst ht => float (execVCvt v s) rfl rfl rfl ?cvt, float (execRsenc v s) rfl rfl rfl rfl, float (execRsdec v s) rfl rfl rfl rfl,
    lane (execVFmin v s) rfl rfl (fun _ _ _ => rfl), lane (execVFmax v s) rfl rfl (fun _ _ _ => rfl),
    lane (execFcsgn v s) rfl rfl (fun _ _ _ => rfl), fun t ht => lane (execVFclass v s) rfl rfl (fun a b d => ?cls),
    lane (execVFrnd v s) rfl rfl (fun _ _ _ => rfl), fun cc hcc => ?cmp⟩
  case cvt =>
    funext a b d
    simp only [hst, ht]
  case cls => simp only [ht]
  case cmp =>
    have hpush := nwrites_vPush (i := .vFcmp v) (v := v) hp (show exec (.vFcmp v) s = execVFcmp v s from rfl) (fun _ => rfl)
    simpa only [hcc] using hpush

end Sys2Proof.Machine

namespace Sys2Proof.Machine
open Sys2Proof

/-! ### Cross-lane and register-file operations of a V slot (R90 to R93, R167, R176) -/

section
variable {s : State} {p : NSite} {v : VOp}

/-- Writes made one after another, each of some element of a list. -/
theorem Issued.foldl {t : State} {N : Native} {α : Type} {f : State → α → State} {ws : α → List PendW}
    (hf : ∀ {t N} a, Issued p N s t → Issued p { N with pend := N.pend ++ ws a } s (f t a)) (l : List α) (h : Issued p N s t) :
    Issued p { N with pend := N.pend ++ l.flatMap ws } s (l.foldl f t) := by
  induction l generalizing t N with
  | nil => simpa using h
  | cons a r ih => simpa using ih (hf a h)

/-- `xvote` pushes the vote. -/
theorem nwrites_xvote (hp : nsite? s = some p) {k : VoteMode} (hk : VoteMode.ofCode (v.b.toNat % 4) = some k) :
    NWrites (.xvote v) s p (p.wr .push (p.lat 4 6) (p.act v.grd)
      (List.replicate 128 (b1 (voteVal k (p.act v.grd) (condBits (p.g_ v.a.toNat))))) false :: p.wrA v) := by
  have hpush := (((Issued.start hp).push (p.lat 4 6) (p.act v.grd)
    (List.replicate 128 (voteVal k (p.act v.grd) (condBits (p.g_ v.a.toNat)))))).retain v
  refine nwrites_of_issued (x := execXvote v s) hp rfl rfl (by simp only [hk]; exact hpush) ?_
  simp only [List.map_replicate, List.append_assoc, NSite.popped_pend, List.singleton_append]

/-- `xblt` writes the two words of the ballot. -/
theorem nwrites_xblt (hp : nsite? s = some p) {x : DWord} (hx : ballotVal (v.b.getLsbD 0) (p.act v.grd) (condBits (p.g_ v.a.toNat)) = x) :
    NWrites (.xblt v) s p (p.wrG v.d.toNat (p.lat 4 6) (p.act v.grd) (List.replicate 128 (lowBits 32 x)) ++
      p.wrG (v.d.toNat + 1) (p.lat 4 6) (p.act v.grd) (List.replicate 128 (x >>> 32)) ++ p.wrA v) := by
  subst hx
  have hlow := (Issued.start hp).putG v.d.toNat (p.lat 4 6) (p.act v.grd)
    (List.replicate 128 (lowBits 32 (ballotVal (v.b.getLsbD 0) (p.act v.grd) (condBits (p.g_ v.a.toNat)))))
  have hboth := hlow.putG (v.d.toNat + 1) (p.lat 4 6) (p.act v.grd)
    (List.replicate 128 (ballotVal (v.b.getLsbD 0) (p.act v.grd) (condBits (p.g_ v.a.toNat)) >>> 32))
  refine nwrites_of_issued (x := execXblt v s) hp rfl rfl (hboth.retain v) ?_
  simp only [List.append_assoc, NSite.popped_pend]

/-- `xred` writes the value of the tree and raises its flags. -/
theorem nraises_xred (hp : nsite? s = some p) {op : RedOp} (hop : RedOp.ofCode (v.b.toNat % 16) = some op) {r : DWord × List (Nat × Flags)}
    (hr : redVal (redComb op (v.b.getLsbD 4) p.rm p.dn (p.redTy op)).1 (redComb op (v.b.getLsbD 4) p.rm p.dn (p.redTy op)).2
      (p.act v.grd) (p.g_ v.a.toNat) = r) :
    NRaises (.xred v) s p r.2
      (p.wrG v.d.toNat (p.lat 30 44) (p.act v.grd) (List.replicate 128 (lowBits 32 r.1)) ++ p.wrA v) := by
  subst hr
  refine nraises_of_issued (x := execXred v s) hp rfl rfl
    (by simp only [hop]; exact (((Issued.start hp).raise _).putG ..).retain v) (List.append_assoc ..)

/-- `xscn` writes the values of the scan and raises their flags. -/
theorem nraises_xscn (hp : nsite? s = some p) {op : RedOp} (hop : RedOp.ofCode (v.b.toNat % 16) = some op)
    {r : List DWord × List (Nat × Flags)}
    (hr : scanVal (v.b.getLsbD 5) (redComb op (v.b.getLsbD 4) p.rm p.dn (p.redTy op)).1
      (redComb op (v.b.getLsbD 4) p.rm p.dn (p.redTy op)).2 (p.act v.grd) (p.g_ v.a.toNat) = r) :
    NRaises (.xscn v) s p r.2 (p.wrG v.d.toNat (p.lat 34 50) (p.act v.grd) (r.1.map (lowBits 32)) ++ p.wrA v) := by
  subst hr
  refine nraises_of_issued (x := execXscn v s) hp rfl rfl
    (by simp only [hop]; exact (((Issued.start hp).raise _).putG ..).retain v) (List.append_assoc ..)

/-- The element k of the index register of `rget` in each lane that acts. -/
def NSite.element (p : NSite) (v : VOp) (k : Nat) : List DWord :=
  (List.range 128).map (fun i => if (p.act v.grd).getLsbD i then
    nth 0 (p.g_ ((p.x_ (v.a.toNat % 4)).reg (nth 0 (p.indices v.a) i).toNat + k)) i else 0)

/-- `rget` of elements in range writes them, a pair into D and D + 1. -/
theorem nwrites_rget (hp : nsite? s = some p) (hin : badIndex (p.act v.grd) (p.indices v.a) (p.x_ (v.a.toNat % 4)).len = none)
    (hpair : ¬((p.x_ (v.a.toNat % 4)).pair = true ∧ v.d.toNat + 1 = p.bufIx))
    (hregs : (p.x_ (v.a.toNat % 4)).beyond (p.act v.grd) (p.indices v.a) (p.bufIx + 1) = false) :
    NWrites (.rget v) s p (p.wrG v.d.toNat (p.ixLat v.a) (p.act v.grd) (p.element v 0) ++
      (if (p.x_ (v.a.toNat % 4)).pair then p.wrG (v.d.toNat + 1) (p.ixLat v.a) (p.act v.grd) (p.element v 1) else [])) := by
  have hlegal : ¬((p.x_ (v.a.toNat % 4)).pair = true ∧ v.d.toNat + 1 = p.bufIx ∨
      (p.x_ (v.a.toNat % 4)).beyond (p.act v.grd) (p.indices v.a) (p.bufIx + 1) = true) := by
    simp [hpair, hregs]
  have hlow := (Issued.start hp).putG v.d.toNat (p.ixLat v.a) (p.act v.grd) (p.element v 0)
  have hexec := exec_of_native (i := .rget v) (x := execRget v s) hp rfl rfl rfl
  simp only [hin, if_neg hlegal] at hexec
  by_cases hwide : (p.x_ (v.a.toNat % 4)).pair = true
  · rw [if_pos hwide] at hexec ⊢
    refine ⟨_, hexec, ?_⟩
    have hboth := hlow.putG (v.d.toNat + 1) (p.ixLat v.a) (p.act v.grd) (p.element v 1)
    rwa [List.append_assoc] at hboth
  · rw [if_neg hwide] at hexec ⊢
    rw [List.append_nil]
    exact ⟨_, hexec, hlow⟩

/-- The lanes that replace element i. -/
def NSite.taking (p : NSite) (v : VOp) (i : Nat) : Mask := p.act v.grd &&& maskOf (fun l => (nth 0 (p.indices v.a) l).toNat = i)

/-- The writes that `rset` makes of element i. -/
def NSite.replaces (p : NSite) (v : VOp) (i : Nat) : List PendW :=
  if p.taking v i = 0 then []
  else p.wrG ((p.x_ (v.a.toNat % 4)).reg i) (p.ixLat v.a) (p.taking v i) (p.g_ v.b.toNat) ++
    (if (p.x_ (v.a.toNat % 4)).pair then
      p.wrG ((p.x_ (v.a.toNat % 4)).reg i + 1) (p.ixLat v.a) (p.taking v i) (p.g_ (v.b.toNat + 1)) else [])

/-- One element of `rset`. -/
theorem Issued.replace {t : State} {N : Native} (h : Issued p N s t) (v : VOp) (i : Nat) :
    Issued p { N with pend := N.pend ++ p.replaces v i } s
      (if p.taking v i = 0 then t
       else if (p.x_ (v.a.toNat % 4)).pair then
         p.putG ((p.x_ (v.a.toNat % 4)).reg i + 1) (p.ixLat v.a) (p.taking v i) (p.g_ (v.b.toNat + 1))
           (p.putG ((p.x_ (v.a.toNat % 4)).reg i) (p.ixLat v.a) (p.taking v i) (p.g_ v.b.toNat) t)
       else p.putG ((p.x_ (v.a.toNat % 4)).reg i) (p.ixLat v.a) (p.taking v i) (p.g_ v.b.toNat) t) := by
  unfold NSite.replaces
  have hlow := h.putG ((p.x_ (v.a.toNat % 4)).reg i) (p.ixLat v.a) (p.taking v i) (p.g_ v.b.toNat)
  by_cases hnone : p.taking v i = 0
  · simpa only [if_pos hnone, List.append_nil] using h
  · simp only [if_neg hnone]
    by_cases hwide : (p.x_ (v.a.toNat % 4)).pair = true
    · simp only [if_pos hwide]
      have hboth := hlow.putG ((p.x_ (v.a.toNat % 4)).reg i + 1) (p.ixLat v.a) (p.taking v i) (p.g_ (v.b.toNat + 1))
      rwa [List.append_assoc] at hboth
    · simp only [if_neg hwide, List.append_nil]
      exact hlow

/-- `rset` of elements in range replaces each in the lanes whose index it is. -/
theorem nwrites_rset (hp : nsite? s = some p) (hin : badIndex (p.act v.grd) (p.indices v.a) (p.x_ (v.a.toNat % 4)).len = none)
    (hregs : (p.x_ (v.a.toNat % 4)).beyond (p.act v.grd) (p.indices v.a) p.bufIx = false) :
    NWrites (.rset v) s p ((List.range (p.x_ (v.a.toNat % 4)).len).flatMap (p.replaces v)) := by
  have hexec := exec_of_native (i := .rset v) (x := execRset v s) hp rfl rfl rfl
  simp only [hin, hregs, Bool.false_eq_true, if_false] at hexec
  exact ⟨_, hexec, (Issued.start hp).foldl (fun i h => h.replace v i) _⟩

/-! What `rget` and `rset` do with an index out of range (R176), and with an element that is no register (R182). -/

theorem exec_rget_of_badIndex (hp : nsite? s = some p) {l : Nat}
    (hbad : badIndex (p.act v.grd) (p.indices v.a) (p.x_ (v.a.toNat % 4)).len = some l) :
    exec (.rget v) s =
      .next (faultAt p.g p.e.side .arrayBounds (p.nat.port p.e.pc) (some l) (nth 0 (p.indices v.a) l) (p.pop s)) :=
  exec_of_native (x := execRget v s) hp rfl rfl (by simp only [hbad]; rfl)

theorem exec_rset_of_badIndex (hp : nsite? s = some p) {l : Nat}
    (hbad : badIndex (p.act v.grd) (p.indices v.a) (p.x_ (v.a.toNat % 4)).len = some l) :
    exec (.rset v) s =
      .next (faultAt p.g p.e.side .arrayBounds (p.nat.port p.e.pc) (some l) (nth 0 (p.indices v.a) l) (p.pop s)) :=
  exec_of_native (x := execRset v s) hp rfl rfl (by simp only [hbad]; rfl)

theorem exec_rget_of_illegal (hp : nsite? s = some p) (hin : badIndex (p.act v.grd) (p.indices v.a) (p.x_ (v.a.toNat % 4)).len = none)
    (hill : (p.x_ (v.a.toNat % 4)).pair = true ∧ v.d.toNat + 1 = p.bufIx ∨
      (p.x_ (v.a.toNat % 4)).beyond (p.act v.grd) (p.indices v.a) (p.bufIx + 1) = true) :
    exec (.rget v) s =
      .next (faultAt p.g p.e.side .illegalBundle (p.nat.port p.e.pc) none (BitVec.ofNat 64 p.e.pc) (p.pop s)) :=
  exec_of_native (x := execRget v s) hp rfl rfl (by simp only [hin, if_pos hill]; rfl)

theorem exec_rset_of_illegal (hp : nsite? s = some p) (hin : badIndex (p.act v.grd) (p.indices v.a) (p.x_ (v.a.toNat % 4)).len = none)
    (hill : (p.x_ (v.a.toNat % 4)).beyond (p.act v.grd) (p.indices v.a) p.bufIx = true) :
    exec (.rset v) s =
      .next (faultAt p.g p.e.side .illegalBundle (p.nat.port p.e.pc) none (BitVec.ofNat 64 p.e.pc) (p.pop s)) :=
  exec_of_native (x := execRset v s) hp rfl rfl (by simp only [hin, hill, if_true]; rfl)

end

/-- Settles O36: each operation by its writes; `rset` element by element. -/
theorem nativeLaneResults : Obligations.NativeLaneResults := by
  unfold Obligations.NativeLaneResults
  intro s p hp v
  refine ⟨?xshf, ?xbc, fun k hk => ?xvote, ?xblt, fun op hop => ⟨?xred, ?xscn⟩, ?ubc, ?mld, ?mst,
    fun hin => ⟨fun hill => ?rgetIllegal, fun hill => ?rsetIllegal, fun hpair hregs => ?rget, fun hregs => ?rset⟩,
    fun l hbad => ⟨?rgetBounds, ?rsetBounds⟩⟩
  case xshf => exact nwrites_of_issued (x := execXshf v s) hp rfl rfl (((Issued.start hp).putG ..).retain v) (List.append_assoc ..)
  case xbc => exact nwrites_of_issued (x := execXbc v s) hp rfl rfl (((Issued.start hp).putG ..).retain v) (List.append_assoc ..)
  case xvote => exact nwrites_xvote hp hk
  case xblt => exact nwrites_xblt hp rfl
  case xred => exact nraises_xred hp hop rfl
  case xscn => exact nraises_xscn hp hop rfl
  case ubc => exact nwrites_of_issued (x := execUbc v s) hp rfl rfl (((Issued.start hp).putG ..).keep v _) (List.append_assoc ..)
  case mld => exact nwrites_of_issued (x := execMld v s) hp rfl rfl ((Issued.start hp).putG ..) rfl
  case mst => exact nwrites_of_issued (x := execMst v s) hp rfl rfl (((Issued.start hp).put ..).retain v) (List.append_assoc ..)
  case rgetIllegal => exact exec_rget_of_illegal hp hin hill
  case rsetIllegal => exact exec_rset_of_illegal hp hin hill
  case rget => exact nwrites_rget hp hin hpair hregs
  case rset => exact nwrites_rset hp hin hregs
  case rgetBounds => exact exec_rget_of_badIndex hp hbad
  case rsetBounds => exact exec_rset_of_badIndex hp hbad

end Sys2Proof.Machine

namespace Sys2Proof.Machine
open Sys2Proof

/-! ### Scalar, uniform and system operations (R161, R169, R176) -/

section
variable {s : State} {p : NSite} {i : Instr} {x : Out}

/-- A free value that is taken changes nothing else. -/
theorem Issued.tick {t : State} {N : Native} (h : Issued p N s t) : Issued p N s t.tick :=
  ⟨by rw [h.rest]; rfl, h.others, h.group⟩

/-- A write of a uniform pair. -/
theorem Issued.putS2 {t : State} {N : Native} (h : Issued p N s t) (n : Nat) (v : DWord) :
    Issued p { N with
      pend := N.pend ++ [p.wr (.s n) 2 0 [(v.truncate 32 : Word).zeroExtend 64] false,
        p.wr (.s (n + 1)) 2 0 [(v.extractLsb' 32 32).zeroExtend 64] false],
      win := staleWin (n + 1) (staleWin n N.win) } s (p.putS2 n 2 v t) := by
  have hboth := (h.putS n (v.truncate 32)).putS (n + 1) (v.extractLsb' 32 32)
  rw [List.append_assoc] at hboth
  exact hboth

/-- A change of the operation's PC slot. -/
theorem Issued.updSlot {t : State} {N : Native} (h : Issued p N s t) (f : PcSlot → PcSlot) :
    Issued p { N with slots := modifyAt (Option.map f) N.slots p.e.side } s (p.updSlot f t) :=
  h.upd (fun N => { N with slots := modifyAt (Option.map f) N.slots p.e.side })

/-- An operation that does nothing. -/
theorem ngives_idle (hp : nsite? s = some p) {k : NSite → State → State} (hi : exec i s = x) (hx : x = native s k)
    (hk : k p (p.pop s) = p.pop s) : NGives i s p p.popped :=
  ⟨_, exec_of_native hp hi hx hk, Issued.start hp⟩

/-- An operation that makes one write. -/
theorem nwrites_put (hp : nsite? s = some p) {k : NSite → State → State} {r : Reg} {n : Nat} {m : Mask} {vals : List DWord} {late : Bool}
    (hi : exec i s = x) (hx : x = native s k) (hk : k p (p.pop s) = p.put r n m vals late (p.pop s)) :
    NWrites i s p [p.wr r n m vals late] :=
  ⟨_, exec_of_native hp hi hx hk, (Issued.start hp).put ..⟩

/-- An operation that writes a uniform register. -/
theorem nuniform_putS (hp : nsite? s = some p) {k : NSite → State → State} {n : Nat} {v : Word} (hi : exec i s = x) (hx : x = native s k)
    (hk : k p (p.pop s) = p.putS n 2 v (p.pop s)) : NUniform i s p [(n, v)] :=
  ⟨_, exec_of_native hp hi hx hk, (Issued.start hp).putS ..⟩

/-- An operation that writes a uniform pair. -/
theorem nuniform_putS2 (hp : nsite? s = some p) {k : NSite → State → State} {n : Nat} {v : DWord} (hi : exec i s = x) (hx : x = native s k)
    (hk : k p (p.pop s) = p.putS2 n 2 v (p.pop s)) : NUniform i s p [(n, v.truncate 32), (n + 1, v.extractLsb' 32 32)] :=
  ⟨_, exec_of_native hp hi hx hk, (Issued.start hp).putS2 ..⟩

/-- `salu` writes what it takes for its opcode, which for `isel` is one of its operands. -/
theorem nuniform_salu (hp : nsite? s = some p) (d a : BitVec 9) (f : BitVec 8) {v : Word}
    (hv : (match intFn f.toNat ((p.s_ d.toNat).zeroExtend 64) ((p.s_ a.toNat).zeroExtend 64) ((p.s_ d.toNat).zeroExtend 64) with
      | some r => r
      | none => if Config.freeBool (p.pop s).fresh 0 then (p.s_ d.toNat).zeroExtend 64 else (p.s_ a.toNat).zeroExtend 64).truncate 32 = v) :
    NUniform (.salu d a f) s p [(d.toNat, v)] := by
  subst hv
  exact ⟨_, exec_of_native hp (x := execSalu d a f s) rfl rfl rfl, ((Issued.start hp).tick).putS ..⟩

/-- A change of a group that leaves its buffer of stores leaves every buffer empty that was so. -/
theorem holdsNothing_updGroup {g : Nat} {f : Group → Group} (hf : ∀ G, (f G).wbuf = G.wbuf) (h : ∀ G ∈ s.groups, G.wbuf = []) :
    ∀ G ∈ (s.updGroup g f).groups, G.wbuf = [] := by
  intro G hG
  obtain ⟨j, hj⟩ := List.mem_iff_getElem?.mp hG
  rw [State.updGroup_groups, modifyAt_getElem?] at hj
  split at hj
  · obtain ⟨H, hH, rfl⟩ := Option.map_eq_some_iff.mp hj
    rw [hf, h H (List.mem_of_getElem? hH)]
  · exact h G (List.mem_of_getElem? hj)

/-- Nor does an operation hold one back by leaving its queue. -/
theorem holdsNothing_pop (p : NSite) (h : ∀ G ∈ s.groups, G.wbuf = []) : ∀ G ∈ (p.pop s).groups, G.wbuf = [] :=
  holdsNothing_updGroup (f := fun G => { G with native := G.native.map (fun N => { N with queue := modifyAt List.tail N.queue (slotIx p.sl) }) })
    (fun _ => rfl) h

/-- A fence of the L slot where nothing is gated performs what the group has stored (R260). -/
theorem exec_fnc_of_open (hp : nsite? s = some p) (o : LOp) (hopen : (p.nat.gatedOf p.e.side).isEmpty = true) :
    exec (.fnc o) s = .next (landAll p.g (p.pop s)) :=
  exec_of_native hp (x := execFnc s) rfl rfl (if_pos hopen)

end

/-- Settles O37: each operation by what it writes. -/
theorem nativeScalarResults : Obligations.NativeScalarResults := by
  unfold Obligations.NativeScalarResults
  intro s p hp
  refine ⟨fun i hi => ?nop, fun o => ⟨?pref, fun hopen => ⟨?fnc, fun hheld => ?fncIdle⟩, fun hclosed => ?fncCommits⟩,
    fun d a f => ⟨fun r hr => ?salu, fun hr => ?saluSel⟩, fun d i => ⟨?sli, ?slhi⟩, fun d a => ?sv2s, fun f => ?ssetfm,
    fun x b l q => ?sxset, fun x u => ⟨fun hlt => ?sxidx, fun hle => ?sxidxBounds⟩,
    fun d t => ⟨fun hst => ?pending, fun hst => ?complete, fun c o hst => ?failed⟩,
    fun u => ⟨?clk, ?time, ?flags, ?clear, ?fev, ?count⟩⟩
  case nop =>
    simp only [List.mem_cons, List.not_mem_nil, or_false] at hi
    rcases hi with rfl | rfl | rfl | rfl | rfl | rfl
    · exact ngives_idle hp (x := execSNop s) rfl rfl rfl
    · exact ngives_idle hp (x := execVNop s) rfl rfl rfl
    · exact ngives_idle hp (x := execFNop s) rfl rfl rfl
    · exact ngives_idle hp (x := execLNop s) rfl rfl rfl
    · exact ngives_idle hp (x := execMNop s) rfl rfl rfl
    · exact ngives_idle hp (x := execANop s) rfl rfl rfl
  case pref => exact ngives_idle hp (x := execPref s) rfl rfl rfl
  case fnc => exact exec_fnc_of_open hp o hopen
  case fncIdle =>
    refine ⟨_, exec_fnc_of_open hp o hopen, ?_⟩
    rw [landAll, landWhere_idle _ _ _ (holdsNothing_pop p hheld)]
    exact Issued.start hp
  case fncCommits => exact exec_of_native hp (x := execFnc s) rfl rfl (if_neg (by simp [hclosed]))
  case salu =>
    refine nuniform_salu hp d a f ?_
    simp only [hr]
  case saluSel =>
    have hword : ∀ w : Word, (w.zeroExtend 64).truncate 32 = w := by simp
    by_cases hfirst : Config.freeBool (p.pop s).fresh 0 = true
    · exact .inl (nuniform_salu hp d a f (by simp only [hr, if_pos hfirst, hword]))
    · exact .inr (nuniform_salu hp d a f (by simp only [hr, if_neg hfirst, hword]))
  case sli => exact nuniform_putS hp (x := execSli d i s) rfl rfl rfl
  case slhi => exact nuniform_putS hp (x := execSlhi d i s) rfl rfl rfl
  case sv2s => exact nuniform_putS hp (x := execSv2s d a s) rfl rfl rfl
  case ssetfm => exact nwrites_put hp (x := execSsetfm f s) rfl rfl rfl
  case sxset => exact nwrites_put hp (x := execSxset x b l q s) rfl rfl rfl
  case sxidx => exact nwrites_put hp (x := execSxidx x u s) rfl rfl (if_neg (Nat.not_le.mpr hlt))
  case sxidxBounds => exact exec_of_native hp (x := execSxidx x u s) rfl rfl (if_pos hle)
  case pending => exact nuniform_putS hp (x := execSkest d t s) rfl rfl (by simp only [hst])
  case complete =>
    refine nuniform_putS hp (x := execSkest d t s) rfl rfl ?_
    rcases hst with hst | hst <;> simp only [hst]
  case failed => exact exec_of_native hp (x := execSkest d t s) rfl rfl (by simp only [hst]; rfl)
  case clk => exact nuniform_putS2 hp (x := execSsys u 3 s) rfl rfl rfl
  case time => exact nuniform_putS2 hp (x := execSsys u 4 s) rfl rfl rfl
  case flags => exact nuniform_putS hp (x := execSsys u 5 s) rfl rfl rfl
  case clear => exact ngives_of_issued hp (x := execSsys u 6 s) rfl rfl ((Issued.start hp).updSlot (fun P =>
    { P with view := P.view.clear (p.s_ u.toNat), events := if (p.s_ u.toNat).getLsbD 7 then [] else P.events })) rfl
  case fev => exact nuniform_putS2 hp (x := execSsys u 7 s) rfl rfl rfl
  case count => exact nuniform_putS2 hp (x := execSsys u 8 s) rfl rfl rfl

end Sys2Proof.Machine

namespace Sys2Proof.Machine
open Sys2Proof

/-! ### Control operations of the S slot (R72, R73, R75, R169, R177) -/

section
variable {s : State} {p : NSite}

/-- What a list of PC slots holds at the index of a change. -/
theorem nth_modifyAt_map (f : PcSlot → PcSlot) (l : List (Option PcSlot)) (i : Nat) :
    nth none (modifyAt (Option.map f) l i) i = (nth none l i).map f := by
  simp only [nth, List.getD_eq_getElem?_getD, modifyAt_getElem?, if_true]
  cases l[i]? <;> rfl

/-- Two changes of a PC slot are one where they do the same to what stands there. -/
theorem modifyAt_slot_congr {f f' : PcSlot → PcSlot} {l : List (Option PcSlot)} {i : Nat} (h : ∀ P, nth none l i = some P → f P = f' P) :
    modifyAt (Option.map f) l i = modifyAt (Option.map f') l i := by
  refine List.ext_getElem? fun j => ?_
  rw [modifyAt_getElem?, modifyAt_getElem?]
  split
  next hj =>
    subst hj
    cases hP : l[j]? with
    | none => rfl
    | some o =>
      cases o with
      | none => rfl
      | some P => simp only [Option.map_some, h P (by simp [nth, hP])]
  next => rfl

/-- Side sd has had no committing operation in its region. -/
def OpenSlot (p : NSite) (l : List (Option PcSlot)) : Prop := (nth none l p.e.side).all (fun P => !P.comm) = true

/-- A MARK is not moved where the region is open. -/
theorem Issued.remark {t : State} {N : Native} (h : Issued p N s t) (hopen : OpenSlot p N.slots) : Issued p N s (p.remark t) := by
  have hN : (match nth none N.slots p.e.side with
      | some P => if P.comm then { N with markSlots := modifyAt (fun _ => some P) N.markSlots p.e.side } else N
      | none => N) = N := by
    unfold OpenSlot at hopen
    cases hP : nth none N.slots p.e.side with
    | none => rfl
    | some P =>
      rw [hP] at hopen
      have hcomm : P.comm = false := by simpa using hopen
      simp only [hcomm, Bool.false_eq_true, if_false]
  have hmark := h.upd (fun N => match nth none N.slots p.e.side with
    | some P => if P.comm then { N with markSlots := modifyAt (fun _ => some P) N.markSlots p.e.side } else N
    | none => N)
  rw [hN] at hmark
  exact hmark

/-- A move of the PC slot in an open region. -/
theorem Issued.move {t : State} {N : Native} (h : Issued p N s t) (hopen : OpenSlot p N.slots) {f : PcSlot → PcSlot}
    (hf : ∀ P, (f P).comm = P.comm) :
    Issued p { N with slots := modifyAt (Option.map f) N.slots p.e.side } s (p.remark (p.updSlot f t)) := by
  refine (h.updSlot f).remark ?_
  unfold OpenSlot at hopen ⊢
  rw [nth_modifyAt_map]
  cases hP : nth none N.slots p.e.side with
  | none => rfl
  | some P =>
    rw [hP] at hopen
    simpa [hf] using hopen

/-- The native state after the side's PC slot has gone to bundle b. -/
def NSite.movedTo (p : NSite) (N : Native) (b : Nat) : Native :=
  { N with slots := modifyAt (Option.map (fun P => { P with pc := b })) N.slots p.e.side }

/-- The PC slot goes to a bundle. -/
theorem Issued.goto {t : State} {N : Native} (h : Issued p N s t) (hopen : OpenSlot p N.slots) (b : Nat) :
    Issued p (p.movedTo N b) s (p.goto b t) :=
  h.move hopen (fun _ => rfl)

/-- The calls of a site are those of its PC slot. -/
theorem calls_eq (hp : nsite? s = some p) {P : PcSlot} (hP : nth none p.own.slots p.e.side = some P) : p.calls = P.calls := by
  obtain ⟨-, -, hnat, -⟩ := nsite?_some hp
  have hslot : nth none p.nat.slots p.e.side = some P := by rw [hnat, ← hP]
  simp only [NSite.calls, hslot]

/-- A call that the launch has room for (R72, R73). -/
theorem ngives_scall (hp : nsite? s = some p) (hopen : OpenSlot p p.own.slots) (o : BitVec 22)
    (hframe : p.calls.foldl (fun n c => n + c.2) 0 + p.frame ≤ p.lau.frame) (hdepth : p.calls.length < 64) :
    NGives (.scall o) s p { p.popped with slots := modifyAt (Option.map (fun P =>
      { P with pc := relBundle p.e.pc o, calls := (p.e.pc + 1, p.frame) :: p.calls })) p.own.slots p.e.side } := by
  have hroom : ¬(p.lau.frame < p.calls.foldl (fun n c => n + c.2) 0 + p.frame ∨ 64 ≤ p.calls.length) := by omega
  have hmoved := (Issued.start hp).move hopen
    (f := fun P => { P with pc := relBundle p.e.pc o, calls := (p.e.pc + 1, p.frame) :: P.calls }) (fun _ => rfl)
  refine ⟨_, exec_of_native hp (x := execScall o s) rfl rfl (if_neg hroom), ?_⟩
  rw [modifyAt_slot_congr (f' := fun P => { P with pc := relBundle p.e.pc o, calls := (p.e.pc + 1, p.frame) :: P.calls })
    (fun P hP => by rw [calls_eq hp hP])]
  exact hmoved

/-- A loop's counter and predicates as `sloop` sets them (R169). -/
def NSite.looped (p : NSite) (n : BitVec 2) (e : BitVec 3) (r : BitVec 9) (l : BitVec 12) (N : Native) : Native :=
  let trip := (p.s_ r.toNat).toNat
  let total := trip + e.toNat
  { N with
    shadow := .preds p.e.side (BitVec.allOnes 128) N.regs.preds :: .ctl p.e.side N.regs.x N.regs.lc N.regs.fmw :: N.shadow,
    regs := { N.regs with
      lc := modifyAt (fun _ => { on := decide (0 < total), iter := 0, trip := trip, total := total, head := p.e.pc + 1, len := l.toNat })
        N.regs.lc n.toNat,
      preds := if 0 < total then pushPreds p.e.mask (iterBits 0 trip) (List.replicate 8 0) else List.replicate 8 0 } }

/-- A loop with an iteration begins with its body. -/
theorem ngives_sloop (hp : nsite? s = some p) (n : BitVec 2) (e : BitVec 3) (r : BitVec 9) (l : BitVec 12)
    (htotal : 0 < (p.s_ r.toNat).toNat + e.toNat) : NGives (.sloop n e r l) s p (p.looped n e r l p.popped) :=
  ⟨_, exec_of_native hp (x := execSloop n e r l s) rfl rfl (if_neg htotal.ne'), (Issued.start hp).upd (p.looped n e r l)⟩

/-- One without goes on behind it. -/
theorem ngives_sloop_of_none (hp : nsite? s = some p) (hopen : OpenSlot p p.own.slots) (n : BitVec 2) (e : BitVec 3) (r : BitVec 9)
    (l : BitVec 12) (htotal : (p.s_ r.toNat).toNat + e.toNat = 0) :
    NGives (.sloop n e r l) s p (p.movedTo (p.looped n e r l p.popped) (p.e.pc + 1 + l.toNat)) :=
  ⟨_, exec_of_native hp (x := execSloop n e r l s) rfl rfl (if_pos htotal), ((Issued.start hp).upd (p.looped n e r l)).goto hopen _⟩

/-- No other side of a native group is left. -/
def Native.lastSide (N : Native) : Prop :=
  N.slots.all Option.isNone = true ∨ ((N.slots.filter Option.isSome).length ≤ 1 ∧ N.stack = [])

theorem Native.lastSide_iff (N : Native) :
    (N.slots.all (fun P => P.isNone) || (N.slots.filter Option.isSome).length ≤ 1 && N.stack.isEmpty) = true ↔ N.lastSide := by
  simp only [Native.lastSide, Bool.or_eq_true, Bool.and_eq_true, decide_eq_true_eq, List.isEmpty_iff]

section
variable {t c : State} {G : Group} {N : Native}
  (hc : nCommit p.g p.e.side (t.updNative p.g (fun N => N.settleSide p.e.side (t.fresh + 1))).tick = c)
  (hG : c.groups[p.g]? = some G) (hready : G.st = .ready) (hN : G.native = some N)
include hc hG hready hN

/-- The threads of a side end, those of the last one where no token is pending (R74, R189). -/
theorem endSide_of_settled (htoks : N.lastSide → G.pendingToks = []) :
    p.endSide t = settleNative p.g ((endThreads p.g p.e.mask c).updNative p.g (fun N =>
      { N with slots := modifyAt (fun _ => none) N.slots p.e.side, markSlots := modifyAt (fun _ => none) N.markSlots p.e.side,
               gone := N.gone ++ (match nth none N.slots p.e.side with
                 | some P => if P.path.isEmpty then [] else [(P.path, P.view)]
                 | none => []) })) := by
  have hgo : ¬(((N.slots.all (fun P => P.isNone) || (N.slots.filter Option.isSome).length ≤ 1 && N.stack.isEmpty) &&
      decide (G.pendingToks ≠ [])) = true) := by
    rw [Bool.and_eq_true, Native.lastSide_iff, decide_eq_true_eq]
    exact fun h => h.2 (htoks h.1)
  simp only [NSite.endSide, hc, hG, hready, ne_eq, not_true_eq_false, if_false, hN, Option.map_some, Option.getD_some]
  exact if_neg hgo

/-- The last side waits for the group's pending tokens. -/
theorem endSide_of_pending (hlast : N.lastSide) (htoks : G.pendingToks ≠ []) : p.endSide t = p.wait (.tokens G.pendingToks) c := by
  have hwait : ((N.slots.all (fun P => P.isNone) || (N.slots.filter Option.isSome).length ≤ 1 && N.stack.isEmpty) &&
      decide (G.pendingToks ≠ [])) = true := by
    rw [Bool.and_eq_true, Native.lastSide_iff, decide_eq_true_eq]
    exact ⟨hlast, htoks⟩
  simp only [NSite.endSide, hc, hG, hready, ne_eq, not_true_eq_false, if_false, hN, Option.map_some, Option.getD_some]
  exact if_pos hwait

end

/-- `sexit`, and `sret` with no call, end the threads of the side. -/
theorem exec_sexit (hp : nsite? s = some p) {u : State} (hu : p.endSide (p.pop s) = u) : exec .sexit s = .next u :=
  exec_of_native hp (x := execSexit s) rfl rfl hu

theorem exec_sret_of_no_call (hp : nsite? s = some p) (hcalls : p.calls = []) {u : State} (hu : p.endSide (p.pop s) = u) :
    exec .sret s = .next u :=
  exec_of_native hp (x := execSret s) rfl rfl (by simp only [hcalls]; exact hu)

end

/-- Settles O38: each control operation by the move of its PC slot; the end of threads by what `endSide` finds after the commit. -/
theorem nativeControlAndEndOfThread : Obligations.NativeControlAndEndOfThread := by
  unfold Obligations.NativeControlAndEndOfThread
  refine ⟨fun s p hp hopen => ?control, fun s p G N hp => ?ending⟩
  case control =>
    intro at_ calls
    refine ⟨fun o => ?sbr, fun c o => ⟨fun hnone => ?skips, fun hsome hall => ?takes, fun hsome hpart => ?diverges⟩,
      fun o => ⟨fun hframe hdepth => ?scall, fun hdeep => ?callDepth⟩, fun b n r hcalls => ?sret, fun c => ?strap,
      fun n e r l => ⟨fun hsome => ?sloop, fun hnone => ?skipsLoop⟩, ?sjoin,
      fun u => ⟨fun hpend hnone => ?yield, fun hpend hzero => ?sleepZero, fun hpend hne => ?sleep⟩⟩
    case sbr => exact ⟨_, exec_of_native hp (x := execSbr o s) rfl rfl rfl, (Issued.start hp).goto hopen _⟩
    case skips => exact ngives_idle hp (x := execSbrc c o s) rfl rfl (if_pos hnone)
    case takes =>
      refine ⟨_, exec_of_native hp (x := execSbrc c o s) rfl rfl ?_, (Issued.start hp).goto hopen _⟩
      exact (if_neg hsome).trans (if_pos hall)
    case diverges =>
      refine exec_of_native hp (x := execSbrc c o s) rfl rfl ?_
      exact (if_neg hsome).trans (if_neg hpart)
    case scall => exact ngives_scall hp hopen o hframe hdepth
    case callDepth => exact exec_of_native hp (x := execScall o s) rfl rfl (if_pos hdeep)
    case sret =>
      refine ⟨_, exec_of_native hp (x := execSret s) rfl rfl ?_, (Issued.start hp).move hopen
        (f := fun P => { P with pc := b, calls := r }) (fun _ => rfl)⟩
      simp only [hcalls]
    case strap => exact exec_of_native hp (x := execStrap c s) rfl rfl rfl
    case sloop => exact ngives_sloop hp n e r l hsome
    case skipsLoop => exact ngives_sloop_of_none hp hopen n e r l hnone
    case sjoin =>
      refine ⟨_, (Issued.start hp).move hopen (f := fun P => { P with
        rejoin := nearestJoin (codeOf (p.pop s) p.grp p.nat) p.nat.nbnd (p.e.pc + 1), parked := some (p.e.pc, p.nat.bundles) })
          (fun _ => rfl), ?_⟩
      exact exec_of_native hp (x := execSjoin s) rfl rfl rfl
    case yield =>
      refine ngives_idle hp (x := execSsys u 0 s) rfl rfl ?_
      change p.yield_ (p.pop s) = _
      simp [NSite.yield_, hpend, hnone]
    case sleepZero =>
      refine ngives_idle hp (x := execSsys u 1 s) rfl rfl ?_
      change p.sleep_ (p.s_ u.toNat).toNat (p.pop s) = _
      simp only [NSite.sleep_, hpend, if_pos hzero]
    case sleep =>
      refine exec_of_native hp (x := execSsys u 1 s) rfl rfl ?_
      change p.sleep_ (p.s_ u.toNat).toNat (p.pop s) = _
      simp only [NSite.sleep_, hpend, if_neg hne]
      rfl
  case ending =>
    intro c hG hready hN last ended waits
    have hended : (N.lastSide → G.pendingToks = []) → p.endSide (p.pop s) = ended := by
      intro htoks
      rw [endSide_of_settled rfl hG hready hN htoks]
      simp only [List.isEmpty_iff]
      rfl
    have hwaits : N.lastSide → G.pendingToks ≠ [] → p.endSide (p.pop s) = waits :=
      fun hlast htoks => endSide_of_pending rfl hG hready hN hlast htoks
    exact ⟨fun htoks => ⟨exec_sexit hp (hended htoks), fun hcalls => exec_sret_of_no_call hp hcalls (hended htoks)⟩,
      fun hlast htoks => ⟨exec_sexit hp (hwaits hlast htoks), fun hcalls => exec_sret_of_no_call hp hcalls (hwaits hlast htoks)⟩⟩

end Sys2Proof.Machine

namespace Sys2Proof.Machine
open Sys2Proof

/-! ### Accesses of the L slot (R171, R172, R195 to R197) -/

/-- The state in which an operation of window W looks up its pages: the window's own stands before the TLB (R197). -/
def NSite.inWindow (p : NSite) (W : Win) (w : State) : State :=
  match W.entry p.ctx with
  | none => w
  | some e => { w with cores := modifyAt (Core.before e) w.cores p.grp.core }

section
variable {s t w : State} {p : NSite} {o : LOp} {W : Win} {accs : List (Nat × Acc)}

/-- What is done through a window depends on what is done in the state with its page. -/
theorem through_congr {k k' : State → State} (h : k (p.inWindow W w) = k' (p.inWindow W w)) : p.through W k w = p.through W k' w := by
  unfold NSite.inWindow at h
  unfold NSite.through
  cases hentry : W.entry p.ctx with
  | none =>
    simp only [hentry] at h
    exact h
  | some e =>
    simp only [hentry] at h
    simp only [h]

section
variable {n : Nat} {mask : BitVec 3} {rd wr : Bool} {k : Site → List (Nat × Acc) → State → State} (hw : p.window o.win.toNat t = (W, w))
include hw

/-- An access whose lanes pass their checks goes on with them. -/
theorem nativeAccess_of_passes (h : Passes (p.inWindow W w) (p.acting o.grd) n mask rd wr (p.addrs W o.a) accs) :
    p.access o n mask rd wr k t =
      p.through W (fun t => k (p.acting o.grd) accs (accessed (p.acting o.grd) n (p.addrs W o.a) accs t)) w := by
  simp only [NSite.access, hw]
  exact through_congr (access_of_passes h)

/-- One with a lane that fails takes the fault of the lowest such lane. -/
theorem nativeAccess_of_error {i : Nat} {c : Cause}
    (h : checkLanes (p.inWindow W w) (p.acting o.grd) n n mask rd wr (p.addrs W o.a) = .error (i, c)) :
    p.access o n mask rd wr k t = p.through W (fun t => takeFault (p.acting o.grd) c (some i) (nth 0 (p.addrs W o.a) i)
      ((p.acting o.grd).touch n (p.addrs W o.a) t)) w := by
  simp only [NSite.access, hw]
  refine through_congr ?_
  simp only [access, h]

end

section
variable (hp : nsite? s = some p) (hw : p.window o.win.toNat (p.pop s) = (W, w))
include hp hw

/-- What the lanes of a load read goes into DR and the registers after it (R172, R179). -/
theorem lLoad_of_passes {mask : BitVec 3} (sg : Bool)
    (h : Passes (p.inWindow W w) (p.acting o.grd) (lBytes o) mask true false (p.addrs W o.a) accs) :
    lLoad s o mask sg = .next (p.through W (fun t =>
      let u := reachLanes (p.acting o.grd) false (lBytes o) accs (accessed (p.acting o.grd) (lBytes o) (p.addrs W o.a) accs t)
      p.putWords o (p.loadLat accs) (fun i k =>
        match accAt accs i with
        | none => 0
        | some a =>
          let x := laneWord u p.ctx (ownOps u p.g (p.acting o.grd).side.gated) i (a.key + 4 * k) (min 4 (lBytes o))
          if sg then iExt true (8 * min 4 (lBytes o)) 32 x else x) u) w) :=
  (native_eq hp _).trans (congrArg _ (nativeAccess_of_passes hw h))

/-- The lanes' stores are gated in one entry (R172, R181, R213). -/
theorem lStore_of_passes {op : Nat → Nat → List Byte → GOp}
    (h : Passes (p.inWindow W w) (p.acting o.grd) (lBytes o) plainSpaces false true (p.addrs W o.a) accs) :
    lStore s o op = .next (p.through W (fun t => p.gate (accs.map (fun e => op e.1 e.2.key (p.data o e.1)))
      (accessed (p.acting o.grd) (lBytes o) (p.addrs W o.a) accs t)) w) :=
  (native_eq hp _).trans (congrArg _ (nativeAccess_of_passes hw h))

/-- An atomic acts on the lanes' words in increasing order, after the region's gated operations, and commits (R257, R258). -/
theorem lAtom_of_passes {f : NSite → Nat → DWord → DWord}
    (h : Passes (p.inWindow W w) (p.acting o.grd) (lBytes o) plainSpaces true true (p.addrs W o.a) accs) :
    lAtom s o f = .next (p.through W (fun t =>
      let r := accs.foldl (atomAt p.g p.ctx (lBytes o) (f p)) ([], p.flush (accessed (p.acting o.grd) (lBytes o) (p.addrs W o.a) accs t))
      p.committed (p.putWords o (p.loadLat accs)
        (fun i k => BitVec.ofNat 64 ((NMap.get 0 r.1 i).toNat / 2 ^ (32 * k) % 2 ^ 32)) r.2)) w) :=
  (native_eq hp _).trans (congrArg _ (nativeAccess_of_passes hw h))

/-- A load with a lane that fails its checks. -/
theorem lLoad_of_error {mask : BitVec 3} (sg : Bool) {i : Nat} {c : Cause}
    (h : checkLanes (p.inWindow W w) (p.acting o.grd) (lBytes o) (lBytes o) mask true false (p.addrs W o.a) = .error (i, c)) :
    lLoad s o mask sg = .next (p.through W (fun t => takeFault (p.acting o.grd) c (some i) (nth 0 (p.addrs W o.a) i)
      ((p.acting o.grd).touch (lBytes o) (p.addrs W o.a) t)) w) :=
  (native_eq hp _).trans (congrArg _ (nativeAccess_of_error hw h))

/-- A reference loaded through a window, with the checks of `ldref` (R239, R172). -/
theorem exec_ldt_of_passes (hwin : o.win ≠ 0) {accs0 : List (Nat × Acc)} {ops ops0 : List GOp}
    {rs rs0 : NMap (DWord × List (Nat × Acc))} {u : State}
    (hfirst : LanesPass (p.inWindow W w) (p.acting o.grd) (0, [])
      (fun _ i => ldtLane (p.acting o.grd) (p.addrs W o.a) ((p.acting o.grd).laneView (p.inWindow W w) i) i) accs0 ops0 rs0)
    (hu : objReached (p.acting o.grd) accs0 (p.inWindow W w) = u)
    (hpass : LanesPass u (p.acting o.grd) (0, [])
      (fun _ i => ldtLane (p.acting o.grd) (p.addrs W o.a) ((p.acting o.grd).laneView u i) i) accs ops rs)
    (hcalm : watchLane u (p.acting o.grd) 8 true false (p.addrs W o.a) accs = none) :
    exec (.ldt o) s = .next (p.through W (fun t =>
      p.putWords o (p.loadLat ((lanesOf (p.act o.grd)).flatMap (fun i => (NMap.get (0, []) rs i).2)))
        (fun i k => BitVec.ofNat 64 ((NMap.get (0, []) rs i).1.toNat / 2 ^ (32 * k) % 2 ^ 32))
        (objAccessed (p.acting o.grd) 8 (p.addrs W o.a) accs (objReached (p.acting o.grd) accs0 t))) w) := by
  refine exec_of_native hp (x := execLdt o s) rfl rfl ?_
  simp only [if_neg hwin, hw]
  refine through_congr ?_
  rw [hu]
  exact LanesPass.objInstr_read_eq (f := fun u _ i => ldtLane (p.acting o.grd) (p.addrs W o.a) ((p.acting o.grd).laneView u i) i)
    hfirst hu hpass hcalm _

/-- A reference stored through a window, with the checks of `stref` (R236, R239). -/
theorem exec_stt_of_passes (hwin : o.win ≠ 0) {ops : List GOp} {us : NMap Unit}
    (hpass : LanesPass (p.inWindow W w) (p.acting o.grd) () (strefLane (p.acting o.grd) (p.addrs W o.a)
      ((List.range 128).map (fun i => (p.operand o o.dr.toNat i, p.operand o o.dr.toNat i != 0)))) accs ops us)
    (hcalm : watchLane (p.inWindow W w) (p.acting o.grd) 8 false true (p.addrs W o.a) accs = none) :
    exec (.stt o) s = .next (p.through W (fun t => p.gate ops (objAccessed (p.acting o.grd) 8 (p.addrs W o.a) accs t)) w) := by
  refine exec_of_native hp (x := execStt o s) rfl rfl ?_
  simp only [if_neg hwin, hw]
  exact through_congr (hpass.objInstr_eq hcalm _)

end

end
/-- Settles O39: the accesses through a window where the lanes that act pass their checks, the spills, and the references of both kinds. -/
theorem nativeMemoryResults : Obligations.NativeMemoryResults := by
  unfold Obligations.NativeMemoryResults
  refine ⟨fun s p hp o W w hw accs => ?accesses, fun s p hp o => ?spills⟩
  case accesses =>
    intro q as n seen out load
    refine ⟨fun hpass => ⟨?ldn, ?lds⟩, fun hpass => ?ldq, fun hpass => ⟨?st, ?strl⟩, fun hpass => ?atomics, fun i c hbad => ?error⟩
    case ldn => exact (show exec (.ldn o) s = lLoad s o plainSpaces false from rfl).trans (lLoad_of_passes hp hw false hpass)
    case lds => exact (show exec (.lds o) s = lLoad s o plainSpaces true from rfl).trans (lLoad_of_passes hp hw true hpass)
    case ldq => exact (show exec (.ldq o) s = lLoad s o 7 false from rfl).trans (lLoad_of_passes hp hw false hpass)
    case st => exact (show exec (.lSt o) s = lStore s o .store from rfl).trans (lStore_of_passes hp hw hpass)
    case strl => exact (show exec (.strl o) s = lStore s o (fun l a bs => .relStore l a bs 7 5) from rfl).trans (lStore_of_passes hp hw hpass)
    case error => exact (show exec (.ldn o) s = lLoad s o plainSpaces false from rfl).trans (lLoad_of_error hp hw false hbad)
    case atomics =>
      intro done op
      have atomic : ∀ {i : Instr} (x : Out) {k : AtomOp}, exec i s = x → x = lAtomOp s o k → op i k :=
        fun x k hi hx => (hi.trans hx).trans (lAtom_of_passes hp hw hpass)
      have cas := (show exec (.acas o) s = execAcas o s from rfl).trans (lAtom_of_passes hp hw hpass)
      clear_value op
      exact ⟨atomic (execAadd o s) rfl rfl, atomic (execAmins o s) rfl rfl, atomic (execAminn o s) rfl rfl, atomic (execAmaxs o s) rfl rfl,
        atomic (execAmaxn o s) rfl rfl, atomic (execAand o s) rfl rfl, atomic (execAor o s) rfl rfl, atomic (execAxor o s) rfl rfl,
        atomic (execAxchg o s) rfl rfl, cas⟩
  case spills =>
    intro m n word ref
    refine ⟨?spst, ?spld, fun hwin => ⟨?sttSpill, ?ldtReload⟩, fun W w accs ops hwin hw => ?references⟩
    case spst => exact exec_of_native hp (x := execSpst o s) rfl rfl rfl
    case spld => exact exec_of_native hp (x := execSpld o s) rfl rfl rfl
    case sttSpill => exact exec_of_native hp (x := execStt o s) rfl rfl (if_pos hwin)
    case ldtReload => exact exec_of_native hp (x := execLdt o s) rfl rfl (if_pos hwin)
    case references =>
      intro q as seen near passed lanes
      refine ⟨fun accs0 ops0 rs0 rs hfirst hpass hcalm => ?ldt, fun us hpass hcalm => ?stt⟩
      case ldt => exact exec_ldt_of_passes hp hw hwin hfirst rfl hpass hcalm
      case stt => exact exec_stt_of_passes hp hw hwin hpass hcalm

end Sys2Proof.Machine

namespace Sys2Proof.Machine
open Sys2Proof

/-! ### Operations of the A slot (R174, R265 to R277, R309, R315, R326) -/

/-- A gather or scatter of a size of its table is issued (R271). -/
theorem gatherAt_of_size {q : Port} {t : State} {sc mask : BitVec 3} {es : List Nat} {b e : Nat} {xs : List (Nat × Nat)}
    {kind : Nat → List (Nat × Nat) → Nat → EngKind} {sps : List (Space × Space)} (hsize : [4, 8, 16, 32, 64, 128, 256].contains e = true)
    (hchk : checkMoves (q.site.view t) q.site.who mask (min e 16) (engMoves (kind b xs e)) = .ok sps) :
    gatherAt q sc mask b xs e kind es t = q.issue (kind b xs e) sc mask es (touchMoves q.site.who (engMoves (kind b xs e)) t) := by
  rw [gatherAt, if_pos hsize]
  exact issueTransfer_of_ok hchk rfl

/-- The portable side that the lanes of `hop` become, parked at the exit of live map M to segment sg, in the state c that its region's
commit leaves (R326, R329). -/
def NSite.hopSide (p : NSite) (D : Desc) (M : LiveMap) (N : Native) (c : State) (sg : Nat) : Side :=
  let P := (nth none N.slots p.e.side).getD (PcSlot.start 0 p.e.mask)
  let outer := p.calls.filterMap (fun e => (N.mapAt e.1).map (fun m => recordFrame c p.grp N m.port m.recs))
  Side.begin { mask := p.e.mask, frames := recordFrame c p.grp N M.port M.recs :: outer, view := P.view, joins := N.joins P.path } p.grp.acc
    (.atExit (p.nat.fn + 0x20 + 4 * M.port) sg ((HopMode.ofCode (Config.freeNat c.fresh 0 % 4)).getD .dflt) (p.s_ D.base))

/-- The state in which a group has the side S of a hop, and its PC slot is free. -/
def NSite.hopped (p : NSite) (S : Side) (c : State) : State :=
  ((c.updGroup p.g (fun G => { G with sides := G.twoSides ++ [S] })).tick).updNative p.g (fun N =>
    { N with slots := modifyAt (fun _ => none) N.slots p.e.side, markSlots := modifyAt (fun _ => none) N.markSlots p.e.side })

section
variable {s : State} {p : NSite} {k : BitVec 4} {d : BitVec 9} {D : Desc} (hp : nsite? s = some p) (hD : p.desc d.toNat = some D)
include hp hD

/-- An operation with a well-formed descriptor does what its meaning says of it. -/
theorem exec_of_aSlot {i : Instr} {x : Out} {f : NSite → Port → Desc → State → State} {u : State} (hi : exec i s = x)
    (hx : x = aSlot s k d f) (hu : f p (p.port k.toNat) D (p.pop s) = u) : exec i s = .next u := by
  refine exec_of_native hp hi hx ?_
  simp only [hD]
  exact hu

/-- A copy within its limits is issued (R270). -/
theorem exec_aCopy_of_ok {two : Bool} (htwo : Config.freeBool (s.fresh + 1) 2 = two) {n rows dstr sstr : Nat}
    (hn : (p.s_ (D.base + 6)).toNat = n)
    (hrows : (if two then (p.s_ (D.base + 7)).toNat else 1) = rows) (hdstr : (if two then (p.s_ (D.base + 8)).toNat else 0) = dstr)
    (hsstr : (if two then (p.s_ (D.base + 9)).toNat else 0) = sstr) (hfit : CopyFits (p.mem3 D.base).toNat (p.mem3 (D.base + 3)).toNat n rows)
    (hstr : two = true → StridesFit n dstr sstr) {kind : EngKind}
    (hkind : kind = .copy (Config.freeBool (s.fresh + 1) 0) (Config.freeBool (s.fresh + 1) 1) (p.mem3 D.base).toNat
      (p.mem3 (D.base + 3)).toNat n rows dstr sstr) {sps : List (Space × Space)}
    (hchk : checkMoves (p.site.view (p.pop s).tick) p.site.who D.mask 4 (engMoves kind) = .ok sps)
    (hdirty : Config.freeBool (s.fresh + 1) 0 = true → sps.all (fun e => e == (.sp, .ds)) = true)
    (htag : Config.freeBool (s.fresh + 1) 1 = true → sps.all (fun e => e.1 != .sp && e.2 != .sp) = true) :
    exec (.aCopy k d) s = .next (p.issueEng k.toNat kind D.scope D.mask D.toks (touchMoves p.site.who (engMoves kind) (p.pop s).tick)) := by
  subst htwo hn hrows hdstr hsstr hkind
  exact exec_of_aSlot hp hD (x := execACopy k d s) rfl rfl (copyAt_of_ok (q := p.port k.toNat) hfit hstr hchk hdirty htag)

/-- A null publication whose tokens are none and whose slot passes its check (R243). -/
theorem exec_aPubl_of_null (htoks : D.toks = []) (hroot : p.s2 (D.base + 3) = 0)
    (hnew : openWalk (p.pop s) p.g p.site.low = none) {a : Acc}
    (ha : resolve (sideView (p.pop s) p.ctx p.g p.e.side p.site.side.gated) p.site.who (p.mem3 D.base).toNat 8 8 2 true = .ok a) :
    exec (.aPubl k d) s = .next (succeedWalk (p.port k.toNat)
      (newWalk p.site D.scope 0 (p.mem3 D.base).toNat (publReached p.site (p.mem3 D.base).toNat (p.pop s))) D.mask []
      (walkNumbered p.site (publReached p.site (p.mem3 D.base).toNat (p.pop s)))) := by
  refine exec_of_aSlot hp hD (x := execAPubl k d s) rfl rfl ?_
  rw [htoks, hroot, publAt_of_new (q := p.port k.toNat) (fun e he => absurd he List.not_mem_nil) rfl hnew ha rfl]
  exact if_pos rfl

/-- A post by a launch that travels makes its handler's group (R277, R342). -/
theorem exec_aPost_of_travel (htravel : p.lau.travel.isSome = true) {i fn : Nat} {o : Obj} {B : CBlk} {bs : List CBlk}
    (ho : objectAt (p.pop s) p.ctx p.nat.fn = some (i, o)) (hfn : tableFn o (p.s_ (D.base + 1)).toNat = some fn)
    (hblocks : blocksOf (p.pop s) fn = B :: bs) :
    exec (.aPost k d) s = .next (postAt (p.port k.toNat) D.scope (p.s_ D.base).toNat fn (p.params B.args (D.base + 2)) D.toks (p.pop s)) := by
  have hsome : p.lau.travel.isNone = false := by
    rw [← Option.not_isSome, htravel]
    rfl
  refine exec_of_aSlot hp hD (x := execAPost k d s) rfl rfl ?_
  simp only [hsome, Bool.false_eq_true, if_false, ho, Option.bind_some, hfn, hblocks]

/-- A hop with no pending token leaves its lanes parked at the segment exit. -/
theorem exec_aHop_of_exit (a : BitVec 13) {M : LiveMap} {N : Native} (hM : p.nat.lmap[a.toNat]? = some M) (hexit : M.exit = true)
    (htoks : D.toks.all (fun e => tokState p.grp e != some .pending) = true)
    (hN : ((p.committed (p.pop s)).groups[p.g]?).bind Group.native = some N) :
    ∃ sg, exec (.aHop k d a) s =
      .next (settleNative p.g (p.hopped (p.hopSide D M N (p.committed (p.pop s)) sg) (p.committed (p.pop s)))) := by
  have hnone : D.toks.filter (fun e => tokState p.grp e == some .pending) = [] := by
    rw [List.filter_eq_nil_iff]
    intro e he
    simpa using List.all_eq_true.mp htoks e he
  have hexec := exec_of_aSlot hp hD (i := .aHop k d a) (x := execAHop k d a s) rfl rfl rfl
  simp only [hM, hexit, Bool.not_true, Bool.false_eq_true, if_false, hnone, ne_eq, not_true_eq_false, hN] at hexec
  exact ⟨_, hexec⟩

end

/-- Settles O42: each operation by the checks that it shares with its portable form, at the port of its slot; `hop` by the side it leaves. -/
theorem nativeEngineInstructionsIssue : Obligations.NativeEngineInstructionsIssue := by
  unfold Obligations.NativeEngineInstructionsIssue
  intro s p hp k d D hD t b n f gated closes
  refine ⟨?tjoin, fun hwords hsome hbound hdst hsrc hrows sps hchk hdirty htag => ?copy, fun hsize sps hchk => ?gather,
    fun hsize sps hchk => ?scatter, fun m r tmo hg hgrp hsome hbound hm hparts ⟨ls, hls⟩ ⟨ld, hld⟩ => ?coll,
    fun a ha => ⟨?sigset, fun a' ha' => ?sigdec⟩, fun hgood => ?enq, fun i o fn B bs htravel ho hfn hblocks => ?post,
    fun htoks hroot hnew a ha => ?publ, fun a M G N hM hexit htoks hG hN => ?hop⟩
  case tjoin => exact exec_of_aSlot hp hD (x := execATjoin k d s) rfl rfl rfl
  case copy =>
    have hfit : CopyFits (p.mem3 b).toNat (p.mem3 (b + 3)).toNat (n 6) (if Config.freeBool f 2 then n 7 else 1) := by
      refine ⟨hwords, hsome, hbound, hdst, hsrc, ?_, ?_⟩
      · split
        next htwo => exact (hrows htwo).1
        next => exact le_rfl
      · split
        next htwo => exact (hrows htwo).2.1
        next => omega
    have hstr : Config.freeBool f 2 = true →
        StridesFit (n 6) (if Config.freeBool f 2 then n 8 else 0) (if Config.freeBool f 2 then n 9 else 0) := by
      intro htwo
      obtain ⟨-, -, hds, hss, hda, hsa⟩ := hrows htwo
      rw [if_pos htwo, if_pos htwo]
      exact ⟨hds, hss, hda, hsa⟩
    exact exec_aCopy_of_ok hp hD rfl rfl rfl rfl rfl hfit hstr rfl hchk hdirty htag
  case gather => exact exec_of_aSlot hp hD (x := execAGather k d s) rfl rfl (gatherAt_of_size (q := p.port k.toNat) hsize hchk)
  case scatter => exact exec_of_aSlot hp hD (x := execAScatter k d s) rfl rfl (gatherAt_of_size (q := p.port k.toNat) hsize hchk)
  case coll =>
    exact exec_of_aSlot hp hD (x := execAColl k d s) rfl rfl
      (collAt_of_ok (q := p.port k.toNat) hg hgrp hsome hbound hm hparts hls hld)
  case sigset =>
    exact exec_of_aSlot hp hD (x := execASigset k d s) rfl rfl
      (signalAt_of_ok (q := p.port k.toNat) ha (fun h => absurd h Bool.false_ne_true))
  case sigdec =>
    exact exec_of_aSlot hp hD (x := execASigdec k d s) rfl rfl (signalAt_of_ok (q := p.port k.toNat) ha (fun _ => ⟨a', ha'⟩))
  case enq => exact exec_of_aSlot hp hD (x := execAEnq k d s) rfl rfl (enqAt_of_ok (q := p.port k.toNat) hgood)
  case post => exact exec_aPost_of_travel hp hD htravel ho hfn hblocks
  case publ => exact exec_aPubl_of_null hp hD htoks hroot hnew ha
  case hop =>
    obtain ⟨sg, hexec⟩ := exec_aHop_of_exit hp hD a hM hexit htoks (by rw [hG]; exact hN)
    refine ⟨_, p.hopSide D M N (p.committed t) sg, sg, _, hexec, ?_, rfl, rfl, fun P hP => ?_, rfl, rfl⟩
    · have hsides := updGroup_groups (fun G => { G with sides := G.twoSides ++ [p.hopSide D M N (p.committed t) sg] }) hG
      exact updNative_groups (s := ((p.committed t).updGroup p.g _).tick) _ hsides hN
    · simp only [NSite.hopSide, Side.begin, hP, Option.getD_some, and_self]

end Sys2Proof.Machine
